-- ==== Sys2Proof/Word.lean ====
section
/-! DEFINITION. The widths the manual fixes: a byte of memory, a doubleword (the size of an instruction word,
of a general register and of a memory entry), and the names of the five instruction streams (02 R33, 01 R12). -/

namespace Sys2Proof

/-- One byte of any memory (R1). -/
abbrev Byte := BitVec 8

/-- A doubleword: an instruction word, a general register, a control register (R33, R95, R124). -/
abbrev Word := BitVec 64

/-- The five streams of a slot, in the stream order of R36 and of frame offset 3 (R130). -/
inductive Stream where
  | seq | vec | mtx | copy | acc
  deriving DecidableEq, Repr, Inhabited

end Sys2Proof
end

