-- ==== Sys2Proof/Syntax.lean ====
section
/-! DEFINITION. The instruction set as syntax: the wait and signal bytes and stall count every word carries
(02 R33 to R37), the operand formats (R40 to R52), the packets of the fabric (14 R337), and the ONE inductive of
instructions and hardware steps, one constructor per row of the opcode table. -/

namespace Sys2Proof

/-- The wait byte (R34). -/
inductive WaitC where
  | none
  | sem (n : BitVec 6)
  | bar (n : BitVec 5)
  | ring (n : BitVec 5)
  deriving DecidableEq, Repr, Inhabited

/-- The signal byte (R35). -/
inductive SignalC where
  | none
  | sem (n : BitVec 6)
  | ui (n : BitVec 4)
  | bar (n : BitVec 5)
  deriving DecidableEq, Repr, Inhabited

/-- The fields common to all words but the opcode (R33). -/
structure Ctl where
  wait : WaitC
  signal : SignalC
  stall : BitVec 4
  deriving DecidableEq, Repr, Inhabited

/-- Format S3 (R40). -/
structure S3 where
  rd : BitVec 6
  ra : BitVec 6
  rb : BitVec 6
  i : Bool
  funct : BitVec 17
  deriving DecidableEq, Repr, Inhabited

/-- Format SI (R40). -/
structure SI where
  rd : BitVec 6
  ra : BitVec 6
  imm : BitVec 24
  deriving DecidableEq, Repr, Inhabited

/-- Format SL (R40). -/
structure SL where
  rd : BitVec 6
  imm : BitVec 30
  deriving DecidableEq, Repr, Inhabited

/-- Format SB (R40): offset in words from the branch's own address. -/
structure SB where
  pred : BitVec 3
  n : Bool
  off : BitVec 32
  deriving DecidableEq, Repr, Inhabited

/-- Format SM (R40). -/
structure SM where
  r : BitVec 6
  base : BitVec 6
  size : BitVec 2
  off : BitVec 22
  deriving DecidableEq, Repr, Inhabited

/-- Format SP, of PFX alone (R44). -/
structure SP where
  ord : BitVec 2
  scope : BitVec 3
  space : BitVec 3
  cache : BitVec 2
  dw : Bool
  ovr : BitVec 5
  pkg : BitVec 7
  deriving DecidableEq, Repr, Inhabited

/-- The raw stage word of LOOP (R43): ns − 1 and the start offsets b0 to b7. -/
structure Stages where
  ns1 : BitVec 3
  b0 : BitVec 6
  b1 : BitVec 6
  b2 : BitVec 6
  b3 : BitVec 6
  b4 : BitVec 6
  b5 : BitVec 6
  b6 : BitVec 6
  b7 : BitVec 6
  deriving DecidableEq, Repr, Inhabited

/-- Format VR (R48). -/
structure VR where
  ty : BitVec 3
  vd : BitVec 9
  va : BitVec 9
  vb : BitVec 9
  la : Bool
  lb : Bool
  funct : BitVec 4
  deriving DecidableEq, Repr, Inhabited

/-- Format VX (R48). -/
structure VX where
  ty : BitVec 3
  vd : BitVec 9
  va : BitVec 9
  imm : BitVec 15
  deriving DecidableEq, Repr, Inhabited

/-- Format VM (R48). -/
structure VM where
  ty : BitVec 3
  vd : BitVec 9
  gran : BitVec 15
  cnt : BitVec 6
  deriving DecidableEq, Repr, Inhabited

/-- Format MA (R50). -/
structure MA where
  arow : BitVec 6
  nrow : BitVec 6
  h : Bool
  s : Bool
  src : BitVec 5
  a : Bool
  funct : BitVec 16
  deriving DecidableEq, Repr, Inhabited

/-- Format MT (R50). -/
structure MT where
  tid : BitVec 12
  tile : BitVec 16
  ring : BitVec 5
  s : Bool
  pl : Bool
  deriving DecidableEq, Repr, Inhabited

/-- Format MC (R50). -/
structure MC where
  cls : BitVec 4
  gran : BitVec 15
  imm : BitVec 17
  deriving DecidableEq, Repr, Inhabited

/-- Format CD (R51). -/
structure CD where
  gran : BitVec 15
  ch : BitVec 5
  bar : BitVec 5
  be : Bool
  funct : BitVec 10
  deriving DecidableEq, Repr, Inhabited

/-- Format CK (R51). -/
structure CK where
  idx : BitVec 5
  imm : BitVec 31
  deriving DecidableEq, Repr, Inhabited

/-- Format AQ (R52). -/
structure AQ where
  oq : BitVec 3
  gran : BitVec 15
  imm : BitVec 18
  deriving DecidableEq, Repr, Inhabited

/-- Format AR (R52). -/
structure AR where
  oq : BitVec 3
  gran : BitVec 15
  cnt : BitVec 6
  funct : BitVec 8
  deriving DecidableEq, Repr, Inhabited

/-- Format AX (R52). -/
structure AX where
  mid : BitVec 16
  pc : BitVec 2
  gran : BitVec 15
  deriving DecidableEq, Repr, Inhabited

/-- A fabric packet (14 R337): the header's fields by name, and the payload bytes (up to 256). -/
structure Packet where
  type : Nat
  dst : Nat
  src : Nat
  score : Nat
  sslot : Nat
  detour : Bool
  hops : Nat
  cls : Nat
  ctx : Nat
  tensor : Nat
  fseq : Nat
  offset : Nat
  interval : Nat
  tag : Nat
  aux : Nat
  operand : Word
  payload : List Byte
  deriving DecidableEq, Repr, Inhabited

/-- The BAR0 registers that a host write reaches without a row of its own in the opcode table (R211, R215, R359,
R349, R461, R469, R464, R463, R454, R467, R474, R470), and those that only read (R461, R471, R476, R477). -/
inductive Bar0Reg where
  | lqcfg (ctx q : Nat)
  | ttt (n dword : Nat)
  | gscfg
  | mcast (group : Nat)
  | trbctl (slice : Nat)
  | logctl (slice : Nat)
  | loglo (slice : Nat)
  | loghi (slice : Nat)
  | slcowner (slice : Nat)
  | pmowner (core : Nat)
  | pmvec (fn : Nat)
  | bcmClear (core : Nat)
  | ctxFunction (ctx : Nat)
  | nsmFree (ctx die idx : Nat)
  | cntSave (fn : Nat)
  | timeSource
  | tcm (addr : Nat)
  | trbptr (slice : Nat)
  | trbdrop (slice : Nat)
  | devst
  | govbud (die : Nat)
  | invctl (fn : Nat)
  | other (offset : Nat)
  deriving DecidableEq, Repr, Inhabited

/-- What names the occasion of a hardware step (a row of the opcode table that is no instruction word): which slot,
core or record it concerns, and the packet, value or bytes it brings. Each constructor of `Instr` that is a hardware
step says which of these fields it reads. The model's own (log entry 5). -/
structure Occasion where
  a : Nat
  b : Nat
  c : Nat
  d : Nat
  w : Word
  flag : Bool
  off : Int
  pkt : Packet
  reg : Bar0Reg
  bytes : List Byte
  nums : List Nat
  deriving DecidableEq, Repr, Inhabited

/-- The instructions and hardware steps of the HN8400: one constructor per row of spec/opcode_table.json. A word's
constructor holds its operands in the fields of its format (a format whose every bit is fixed needs no field); its wait
byte, signal byte and stall count (`Ctl`) stand beside it, in what the decoder returns and in the cursor of the state. -/
inductive Instr where
  /-- ADD (R103). Writes the sum of ga and gb or the immediate, modulo 2^64, to gd. -/
  | add (f : S3)
  /-- SUB (R103). Writes ga minus gb or the immediate to gd. -/
  | sub (f : S3)
  /-- MUL (R103). Writes the low 64 bits of the product to gd. -/
  | mul (f : S3)
  /-- MULH (R103). Writes the high 64 bits of the signed 128-bit product to gd. -/
  | mulh (f : S3)
  /-- MULHU (R103). Writes the high 64 bits of the unsigned 128-bit product to gd. -/
  | mulhu (f : S3)
  /-- DIV (R103). Signed division rounded toward zero, with an interlocked result and an optional divide-by-zero trap. -/
  | div (f : S3)
  /-- DIVU (R103). Unsigned division, with an interlocked result. -/
  | divu (f : S3)
  /-- REM (R103). Signed remainder, with an interlocked result. -/
  | rem (f : S3)
  /-- REMU (R103). Unsigned remainder, with an interlocked result. -/
  | remu (f : S3)
  /-- AND (R103). Bitwise AND of two operands into gd. -/
  | and (f : S3)
  /-- OR (R103). Bitwise OR of two operands into gd. -/
  | or (f : S3)
  /-- XOR (R103). Bitwise XOR of two operands into gd. -/
  | xor (f : S3)
  /-- SHL (R103). Shifts ga left by b AND 63. -/
  | shl (f : S3)
  /-- SHR (R103). Shifts ga right logically by b AND 63. -/
  | shr (f : S3)
  /-- SAR (R103). Shifts ga right arithmetically by b AND 63. -/
  | sar (f : S3)
  /-- ROL (R103). Rotates ga left by b AND 63. -/
  | rol (f : S3)
  /-- MIN (R103). Writes the signed minimum of the two operands. -/
  | min (f : S3)
  /-- MAX (R103). Writes the signed maximum of the two operands. -/
  | max (f : S3)
  /-- MINU (R103). Writes the unsigned minimum of the two operands. -/
  | minu (f : S3)
  /-- MAXU (R103). Writes the unsigned maximum of the two operands. -/
  | maxu (f : S3)
  /-- CLZ (R104). Writes the number of leading zero bits of ga. -/
  | clz (f : S3)
  /-- POPC (R104). Writes the number of one bits of ga. -/
  | popc (f : S3)
  /-- LEA (R105). Adds an immediate to the tensor offset of ga and keeps its tensor id. -/
  | lea (f : SI)
  /-- LI (R106). Writes the sign-extended 30-bit immediate to gd. -/
  | li (f : SL)
  /-- LIS (R106). Shifts gd left by 30 and ORs in the 30-bit immediate. -/
  | lis (f : SL)
  /-- CMP (R107). Writes an integer comparison of ga and gb to a predicate. -/
  | cmp (f : S3)
  /-- PAND (R108). ANDs two optionally negated predicates. -/
  | pand (f : S3)
  /-- POR (R108). ORs two optionally negated predicates. -/
  | por (f : S3)
  /-- PXOR (R108). XORs two optionally negated predicates. -/
  | pxor (f : S3)
  /-- PNOT (R108). Writes the negation of a predicate. -/
  | pnot (f : S3)
  /-- SEL (R108). Selects ga or gb into gd under an optionally negated predicate. -/
  | sel (f : S3)
  /-- PMOV_RD (R108). Copies p7 to p0 into a general register. -/
  | pmovRd (f : S3)
  /-- PMOV_WR (R108). Writes p1 to p7 from bits 7 to 1 of a general register. -/
  | pmovWr (f : S3)
  /-- PMOV_ST (R108). Copies the stage predicates e7 to e0 into a general register. -/
  | pmovSt (f : S3)
  /-- FADD (R109). Scalar floating-point addition in FP32, BF16 or FP16. -/
  | fadd (f : S3)
  /-- FSUB (R109). Scalar floating-point subtraction. -/
  | fsub (f : S3)
  /-- FMUL (R109). Scalar floating-point multiplication. -/
  | fmul (f : S3)
  /-- FMA (R109). Scalar fused multiply-add into gd, rounded once. -/
  | fma (f : S3)
  /-- FMIN (R109). Scalar floating-point minimum. -/
  | fmin (f : S3)
  /-- FMAX (R109). Scalar floating-point maximum. -/
  | fmax (f : S3)
  /-- FCMP (R110). Writes a floating-point comparison to a predicate. -/
  | fcmp (f : S3)
  /-- FCVT (R111). Converts between scalar float and integer kinds. -/
  | fcvt (f : S3)
  /-- BR (R112). Branches by a word offset, possibly under a predicate. -/
  | br (f : SB)
  /-- JMP (R112). Jumps to the address held in ga. -/
  | jmp (f : S3)
  /-- CALL (R112). Saves the return PC in g63 and branches. -/
  | call (f : SB)
  /-- LOOP (R114). Starts a software-pipelined hardware loop with a stage word. -/
  | loop (f : SI) (st : Stages)
  /-- LOOPX (R113). Starts a single-stage hardware loop whose body may branch. -/
  | loopx (f : SI)
  /-- TRAP (R118). Stops the core with cause TRAP and the given code. -/
  | trap (f : SI)
  /-- BKPT (R119). Requests a debug stop of the slot when CORECTL.BKE is set. -/
  | bkpt (f : SI)
  /-- LD (R139). Loads zero-extended bytes from the space in force. -/
  | ld (f : SM)
  /-- LDS (R139). Loads sign-extended bytes from the space in force. -/
  | lds (f : SM)
  /-- ST (R141). Stores bytes: to scratchpad at once, remote, direct-write, or into the store buffer. -/
  | st (f : SM)
  /-- LDSP (R139). Loads from the slot's scratchpad. -/
  | ldsp (f : SM)
  /-- STSP (R139). Stores to the slot's scratchpad. -/
  | stsp (f : SM)
  /-- ATOM (R143). Performs or holds an atomic read-modify-write and returns the old value. -/
  | atom (f : S3)
  /-- ACAS (R144). Closes the region, then performs an atomic compare-and-swap. -/
  | acas (f : S3)
  /-- FENCE (R178). Orders the slot's accesses with acquire and/or release at a scope. -/
  | fence (f : SI)
  /-- TAGLK (R154). Looks a tag tile up in the core's tag table. -/
  | taglk (f : S3)
  /-- TAGSET (R154). Maps a tag tile to a scratchpad slot and returns a status. -/
  | tagset (f : S3)
  /-- TAGCLR (R154). Removes one tag-table key. -/
  | tagclr (f : S3)
  /-- TAGCLR_ALL (R154). Removes every tag-table entry of the slot. -/
  | tagclrAll (f : S3)
  /-- CINV_L1 (R148). Invalidates scalar L1 lines over a range. -/
  | cinvL1 (f : SM)
  /-- CINV_WB (R148). Writes back dirty remote-cache lines over a range. -/
  | cinvWb (f : SM)
  /-- CINV_WBI (R148). Writes back and invalidates remote-cache lines over a range. -/
  | cinvWbi (f : SM)
  /-- RSLD (R147). Loads bytes from the slot's register space. -/
  | rsld (f : SM)
  /-- RSST (R147). Stores bytes into the slot's register space and sets valid bits. -/
  | rsst (f : SM)
  /-- PFX (R44). Supplies ordering, scope, space, cache and direct-write fields to the next memory word. -/
  | pfx (f : SP)
  /-- ENQ (R193). Writes a command word into an engine's command ring. -/
  | enq (f : S3)
  /-- REL (R194). Releases laid-out entries of an engine's command ring. -/
  | rel (f : SI)
  /-- RINGSET_CFG (R195). Writes the configuration of an empty data ring. -/
  | ringsetCfg (f : S3)
  /-- RINGSET_DECL (R195). Sets a data ring's declared count. -/
  | ringsetDecl (f : S3)
  /-- RINGSET_PROD (R195). Advances a data ring's producer pointer. -/
  | ringsetProd (f : S3)
  /-- RINGSET_CONS (R195). Advances a data ring's consumer pointer. -/
  | ringsetCons (f : S3)
  /-- RINGSET_OWN (R195). Sets a data ring's producer and consumer owners. -/
  | ringsetOwn (f : S3)
  /-- RINGSET_RESET (R195). Resets a data ring's pointers and unbinds its owners. -/
  | ringsetReset (f : S3)
  /-- RINGGET (R195). Reads a ring's configuration, pointers, occupancy or entry offsets. -/
  | ringget (f : S3)
  /-- SEMSIG (R196). Adds k to one of the slot's semaphores at retirement. -/
  | semsig (f : SI)
  /-- SEMSIG_PEER (R196). Adds k to a gang peer's semaphore as a held effect. -/
  | semsigPeer (f : SI)
  /-- SEMWAIT (R197). Waits for a semaphore to reach k and subtracts it. -/
  | semwait (f : SI)
  /-- TLWAIT (R198). Waits for an engine timeline to reach a value and acquires. -/
  | tlwait (f : S3)
  /-- TLREAD (R198). Reads an engine timeline. -/
  | tlread (f : S3)
  /-- LPATCH (R209). Writes a patch word of a launch record. -/
  | lpatch (f : S3)
  /-- LARM (R209). Closes the region and arms a launch record into its queue. -/
  | larm (f : SI)
  /-- LSTAT (R209). Reads a launch record's state, run count or times. -/
  | lstat (f : S3)
  /-- DPHASE (R221). Closes the region and records the core's arrival at a domain level. -/
  | dphase (f : SI)
  /-- SETDOM (R220). Sets the core's domain level and id. -/
  | setdom (f : SI)
  /-- CSTAGE (R326). Closes the region and releases stages of the slot's copy schedule. -/
  | cstage (f : SI)
  /-- CSTAT (R328). Reads channel, barrier or schedule state, optionally clearing OVER. -/
  | cstat (f : S3)
  /-- TSPAWN (R386). Captures a task record and holds a spawn for drain. -/
  | tspawn (f : S3)
  /-- TSPAWNB (R386). Holds a batchable spawn bound for the batch former. -/
  | tspawnb (f : S3)
  /-- TCANCEL (R395). Holds a cancellation of a subtree, which starts a walk at drain. -/
  | tcancel (f : S3)
  /-- TREPRIO (R387). Holds a change of the key of queued tasks. -/
  | treprio (f : S3)
  /-- TJOIN (R388). Holds the setting of a join count and continuation on a node. -/
  | tjoin (f : S3)
  /-- TQUERY (R392). Reads task, node or queue state. -/
  | tquery (f : S3)
  /-- TSELF (R393). Reads a field of the task's own record. -/
  | tself (f : S3)
  /-- REGION (R394). Closes the current region and opens a new one with the named live-ins. -/
  | region (f : SI)
  /-- NALLOC (R398). Closes the region and allocates a node record, linking it under a parent. -/
  | nalloc (f : S3)
  /-- NFREE (R401). Holds the freeing of a node record. -/
  | nfree (f : S3)
  /-- NLD (R399). Reads a doubleword of a node record. -/
  | nld (f : S3)
  /-- NST (R400). Buffers a masked store to software fields of a node record. -/
  | nst (f : S3)
  /-- NADD (R402). Adds to a node statistic, held or closing. -/
  | nadd (f : S3)
  /-- NCAS (R403). Closes the region and compares-and-swaps a node doubleword. -/
  | ncas (f : S3)
  /-- NVLOSS (R407). Holds the addition of virtual loss up a parent chain. -/
  | nvloss (f : S3)
  /-- NBACKUP (R408). Holds a backup of a value up a parent chain. -/
  | nbackup (f : S3)
  /-- NSELECT (R411). Scores up to n children and returns the best. -/
  | nselect (f : S3)
  /-- NKEY (R410). Computes a node's PUCT or UCB key. -/
  | nkey (f : S3)
  /-- NLINK (R404). Holds the linking of a parentless node under a parent. -/
  | nlink (f : S3)
  /-- BFCFG (R413). Configures a weight set of the batch former. -/
  | bfcfg (f : S3)
  /-- BFSTAT (R417). Reads a weight set's batch-former counts. -/
  | bfstat (f : S3)
  /-- BFFLUSH (R417). Forms the pending batch of one or every weight set. -/
  | bfflush (f : SI)
  /-- KVALLOC (R426). Closes the region and allocates a KV page chained to a previous page. -/
  | kvalloc (f : S3)
  /-- KVFREE (R426). Holds the lowering of a KV page's count. -/
  | kvfree (f : S3)
  /-- KVLINK (R427). Holds the mapping of a page into a layout-4 tile. -/
  | kvlink (f : S3)
  /-- KVINV_INV (R426). Clears VALID bits of a KV page and returns its descriptor. -/
  | kvinvInv (f : S3)
  /-- KVINV_VAL (R426). Sets VALID bits of a KV page and returns its descriptor. -/
  | kvinvVal (f : S3)
  /-- KVPIN (R426). Holds an increment of a page's pin count. -/
  | kvpin (f : S3)
  /-- KVUNPIN (R426). Holds a decrement of a page's pin count, possibly freeing it. -/
  | kvunpin (f : S3)
  /-- PFXHASH (R428). Computes the prefix hash of a 16-token block. -/
  | pfxhash (f : S3)
  /-- PFXLOOK (R430). Closes the region, matches prefix hashes and pins the matched pages. -/
  | pfxlook (f : S3)
  /-- PFXINS (R430). Closes the region and inserts a prefix-table entry. -/
  | pfxins (f : S3)
  /-- PFXEVICT (R430). Holds the removal of one prefix-table key. -/
  | pfxevict (f : S3)
  /-- PFXEVICT_ALL (R430). Holds the removal of every prefix-table entry of the context. -/
  | pfxevictAll (f : S3)
  /-- PMCFG (R466). Writes a performance counter's configuration. -/
  | pmcfg (f : S3)
  /-- PMRD (R466). Reads a performance counter's value or configuration. -/
  | pmrd (f : S3)
  /-- PMCLR (R467). Clears a counter's value and/or sticky bits. -/
  | pmclr (f : S3)
  /-- TRMARK (R462). Writes a MARK trace record when TRCFG.MARK is set. -/
  | trmark (f : SI)
  /-- TRCTL_WR (R459). Writes the slot's trace configuration. -/
  | trctlWr (f : S3)
  /-- TRCTL_RD (R459). Reads the slot's trace configuration. -/
  | trctlRd (f : S3)
  /-- CSRRD (R124). Reads a control register. -/
  | csrrd (f : SI)
  /-- CSRWR (R124). Writes a control register, with the register's own checks. -/
  | csrwr (f : SI)
  /-- SETVIEW (R99). Waits for placed entries to fire, then sets a register-space view base. -/
  | setview (f : S3)
  /-- GRANCLR (R102). Clears valid bits of a range of register-space granules. -/
  | granclr (f : S3)
  /-- TIME_DEV (R127). Reads device time in ns. -/
  | timeDev (f : S3)
  /-- TIME_CLK (R127). Reads the task's slot clock count. -/
  | timeClk (f : S3)
  /-- SYSCALL (R120). Closes the region and asks the DCC firmware for a service. -/
  | syscall (f : SI)
  /-- VADD (R229). Vector floating-point add. -/
  | vadd (f : VR)
  /-- VSUB (R229). Vector floating-point subtract. -/
  | vsub (f : VR)
  /-- VMUL (R229). Vector floating-point multiply. -/
  | vmul (f : VR)
  /-- VFMA (R229). Vector fused multiply-add into vd. -/
  | vfma (f : VR)
  /-- VMIN (R229). Vector floating-point minimum. -/
  | vmin (f : VR)
  /-- VMAX (R229). Vector floating-point maximum. -/
  | vmax (f : VR)
  /-- VABS (R229). Clears the sign bit of each lane. -/
  | vabs (f : VR)
  /-- VNEG (R229). Inverts the sign bit of each lane. -/
  | vneg (f : VR)
  /-- VCMP (R229). Vector floating-point comparison into lane masks. -/
  | vcmp (f : VR)
  /-- VSEL (R229). Selects lanes of va or vb by the bits of vd. -/
  | vsel (f : VR)
  /-- VCLAMP (R229). Clamps the lanes of vd between va and vb. -/
  | vclamp (f : VR)
  /-- VIADD (R230). Vector integer add. -/
  | viadd (f : VR)
  /-- VISUB (R230). Vector integer subtract. -/
  | visub (f : VR)
  /-- VIMUL (R230). Vector integer multiply, low bits. -/
  | vimul (f : VR)
  /-- VIMIN (R230). Vector signed minimum. -/
  | vimin (f : VR)
  /-- VIMAX (R230). Vector signed maximum. -/
  | vimax (f : VR)
  /-- VIMINU (R230). Vector unsigned minimum. -/
  | viminu (f : VR)
  /-- VIMAXU (R230). Vector unsigned maximum. -/
  | vimaxu (f : VR)
  /-- VICMP (R230). Vector integer comparison into lane masks. -/
  | vicmp (f : VR)
  /-- VSADD (R230). Vector saturating add. -/
  | vsadd (f : VR)
  /-- VSSUB (R230). Vector saturating subtract. -/
  | vssub (f : VR)
  /-- VMULSH (R230). Vector rounding doubling high multiply. -/
  | vmulsh (f : VR)
  /-- VAND (R231). Vector bitwise AND. -/
  | vand (f : VR)
  /-- VOR (R231). Vector bitwise OR. -/
  | vor (f : VR)
  /-- VXOR (R231). Vector bitwise XOR. -/
  | vxor (f : VR)
  /-- VSHL (R231). Vector shift left. -/
  | vshl (f : VR)
  /-- VSHR (R231). Vector logical shift right. -/
  | vshr (f : VR)
  /-- VSAR (R231). Vector arithmetic shift right. -/
  | vsar (f : VR)
  /-- VPOPC (R231). Counts one bits of each lane. -/
  | vpopc (f : VR)
  /-- VCVT (R232). Converts vector lanes between element types, one part at a time. -/
  | vcvt (f : VR)
  /-- VQNT (R233). Quantises 256 elements into a scaled-format block with its scales. -/
  | vqnt (f : VR)
  /-- VDQNT (R234). Dequantises a scaled-format block. -/
  | vdqnt (f : VR)
  /-- VPERMB (R235). Permutes the bytes of va by the bytes of vb. -/
  | vpermb (f : VR)
  /-- VNIB (R235). Unpacks nibbles of one half of va into byte lanes. -/
  | vnib (f : VR)
  /-- VBCAST (R235). Broadcasts one lane of va to every lane. -/
  | vbcast (f : VX)
  /-- VSHUF (R235). Shuffles lanes of va by the indices in vb. -/
  | vshuf (f : VR)
  /-- VCOMP (R235). Compresses the lanes of va selected by a bitmap. -/
  | vcomp (f : VR)
  /-- VIOTA (R235). Writes an ascending sequence from an immediate. -/
  | viota (f : VX)
  /-- VRSUM (R236). Sums all lanes by the fixed tree. -/
  | vrsum (f : VR)
  /-- VRMAX (R236). Reduces lanes to their maximum. -/
  | vrmax (f : VR)
  /-- VRMIN (R236). Reduces lanes to their minimum. -/
  | vrmin (f : VR)
  /-- VRARGMAX (R236). Returns the lowest index and value of the maximum lane. -/
  | vrargmax (f : VR)
  /-- VSCAN (R236). Writes the inclusive or exclusive running sum of lanes. -/
  | vscan (f : VR)
  /-- VMASKB (R236). Packs a nonzero-lane bitmap. -/
  | vmaskb (f : VR)
  /-- VEXP2 (R237). Applies exp2ref to each lane. -/
  | vexp2 (f : VR)
  /-- VLOG2 (R237). Applies log2ref to each lane. -/
  | vlog2 (f : VR)
  /-- VRCP (R237). Applies rcpref to each lane. -/
  | vrcp (f : VR)
  /-- VRSQ (R237). Applies rsqref to each lane. -/
  | vrsq (f : VR)
  /-- VERF (R237). Applies erfref to each lane. -/
  | verf (f : VR)
  /-- VTANH (R237). Applies tanhref to each lane. -/
  | vtanh (f : VR)
  /-- VSIGM (R237). Applies sigmref to each lane. -/
  | vsigm (f : VR)
  /-- VLD (R241). Loads vectors from scratchpad. -/
  | vld (f : VM)
  /-- VST (R241). Stores vectors to scratchpad. -/
  | vst (f : VM)
  /-- VLDR (R241). Pops entries of a data ring or operand queue into vectors. -/
  | vldr (f : VX)
  /-- VSTR (R241). Pushes entries from vectors into a data ring. -/
  | vstr (f : VX)
  /-- VGATH (R242). Gathers scratchpad elements at lane offsets. -/
  | vgath (f : VR)
  /-- VSCAT (R242). Scatters lanes to scratchpad offsets. -/
  | vscat (f : VR)
  /-- VZERO (R241). Zeroes n vectors. -/
  | vzero (f : VM)
  /-- VMOV (R241). Copies one vector bit for bit. -/
  | vmov (f : VR)
  /-- MADD (R252). Adds Gaussian moments under the configured correlation. -/
  | madd (f : VR)
  /-- MSUB (R252). Subtracts Gaussian moments under the configured correlation. -/
  | msub (f : VR)
  /-- MMUL (R252). Multiplies Gaussian moments. -/
  | mmul (f : VR)
  /-- MSCL (R253). Scales moments by per-element constants. -/
  | mscl (f : VR)
  /-- MAFF (R253). Applies a per-element affine map to moments. -/
  | maff (f : VR)
  /-- MFROM (R254). Builds moments from FP32 vectors. -/
  | mfrom (f : VR)
  /-- MSPLIT (R254). Splits moments into mean and variance vectors. -/
  | msplit (f : VR)
  /-- MCOL (R261). Collapses moments to mean, std, UCB or a sample. -/
  | mcol (f : VR)
  /-- MCHK (R260). Tests moment elements for negative or NaN values. -/
  | mchk (f : VR)
  /-- MRELU (R255). Matches the moments of a rectified Gaussian. -/
  | mrelu (f : VR)
  /-- MSIGM (R256). Matches the moments of a sigmoid by the probit rule. -/
  | msigm (f : VR)
  /-- MEXP (R257). Gives the log-normal moments of e^X. -/
  | mexp (f : VR)
  /-- MTANH (R258). Matches the moments of tanh through the sigmoid rule. -/
  | mtanh (f : VR)
  /-- MMAX2 (R259). Matches max of two Gaussians by Clark's formulas. -/
  | mmax2 (f : VR)
  /-- MLEASE (R266). Takes the core's matrix claim for the slot or gang. -/
  | mlease (f : MC)
  /-- MCFG (R271). Sets the claim's operand types, semiring and modes. -/
  | mcfg (f : MC)
  /-- MBLD (R275). Loads and tags a B plane from a tensor tile or ring. -/
  | mbld (f : MT)
  /-- MBCSR (R277). Builds a dense B plane from a CSR tensor. -/
  | mbcsr (f : MT)
  /-- MSTR (R281). Streams A records against the active plane into accumulator rows. -/
  | mstr (f : MA)
  /-- MSTRM (R282). Streams mean and variance records in moment mode. -/
  | mstrm (f : MA)
  /-- MACCLD (R283). Loads accumulator rows from a ring or operand queue. -/
  | maccld (f : MA)
  /-- MZERO (R283). Writes the semiring identity into accumulator rows. -/
  | mzero (f : MA)
  /-- MDRAIN (R289). Passes accumulator rows through the epilogue. -/
  | mdrain (f : MA)
  /-- MEPI (R288). Copies an epilogue parameter block into the claim. -/
  | mepi (f : MC)
  /-- MHEAPRD (R292). Re-validates and writes out the top-k heaps of rows. -/
  | mheaprd (f : MC)
  /-- MHEAPCLR (R293). Empties the heaps of rows and adopts k and g. -/
  | mheapclr (f : MC)
  /-- MSAVE (R286). Writes the open chain's rows to a tensor. -/
  | msave (f : MT)
  /-- MCHAIN_OPEN (R285). Opens a chain on accumulator rows and halves. -/
  | mchainOpen (f : MC)
  /-- CCOPY (R311). Copies rows between tensors, scratchpad, slices and rings. -/
  | ccopy (f : CD)
  /-- CFILL (R312). Fills destination rows with a 4-byte pattern. -/
  | cfill (f : CD)
  /-- CMCAST (R314). Replicates a copy to several slices or a multicast group. -/
  | cmcast (f : CD)
  /-- CPLACE (R315). Stripes a copied byte stream over several slices. -/
  | cplace (f : CD)
  /-- CSCHED (R324). Starts the slot's static copy schedule. -/
  | csched (f : CD)
  /-- CBARSET (R320). Arms a barrier with a count. -/
  | cbarset (f : CK)
  /-- CCHAN (R318). Arms a channel's watched range and watermark. -/
  | cchan (f : CK)
  /-- CCHAN_OFF (R318). Disarms a channel and releases waiting accesses. -/
  | cchanOff (f : CK)
  /-- AQCFG (R343). Binds an operand queue and sets its next-tile distance. -/
  | aqcfg (f : AQ)
  /-- AQLD (R343). Starts an operand-queue stream of n entries. -/
  | aqld (f : AQ)
  /-- AQSTOP (R343). Stops an operand-queue stream, optionally unbinding it. -/
  | aqstop (f : AQ)
  /-- RLD (R346). Reads remote entries into an operand queue or scratchpad. -/
  | rld (f : AR)
  /-- RST (R346). Writes scratchpad entries to remote addresses. -/
  | rst (f : AR)
  /-- RATOM (R347). Performs remote atomics entry by entry. -/
  | ratom (f : AR)
  /-- RCAS (R347). Performs remote compare-and-swaps entry by entry. -/
  | rcas (f : AR)
  /-- RMCST (R346). Writes entries to every package a multicast group reaches. -/
  | rmcst (f : AR)
  /-- XSEND (R357). Opens a pulled bulk message with its prefix. -/
  | xsend (f : AX)
  /-- XPOST (R358). Posts a receive slot. -/
  | xpost (f : AX)
  /-- XCANCEL (R361). Withdraws an open message of the task. -/
  | xcancel (f : AX)
  /-- XCANCEL_RECV (R361). Withdraws a receive slot of the task. -/
  | xcancelRecv (f : AX)
  /-- XRESUME (R362). Re-requests a suspended message. -/
  | xresume (f : AX)
  /-- RFENCE (R353). Waits for remote accesses and optionally closes the fence interval. -/
  | rfence (f : AR)
  /-- RET (R112). Returns to the PC held in g63. -/
  | ret
  /-- NOP (R112). Occupies one issue clock and does nothing. -/
  | nop
  /-- UIRET (R123). Returns from a user interrupt handler. -/
  | uiret
  /-- WAITI (R117). Stops issue until an enabled user interrupt is pending or a semaphore is incremented. -/
  | waiti
  /-- TDONE (R390). Closes the region, ends the task and sends its join decrement. -/
  | tdone
  /-- TYIELD (R391). Saves the task and returns it to its segment with a new sequence number. -/
  | tyield
  /-- BCMSNAP (R457). Writes a bank-conflict matrix snapshot record. -/
  | bcmsnap
  /-- SYSCALL_REPLY (R120). The DCC's status is written to the waiting SYSCALL's destination. Occasion: a is the unit (4 x core + slot), w is the value. -/
  | syscallReply
  /-- SYSCALL_TIMEOUT (R120). After 1 ms without reply the SYSCALL completes with status 0xFFFF_FFFF_FFFF_FFFE. Occasion: a is the unit (4 x core + slot). -/
  | syscallTimeout
  /-- INTERLOCKED_RESULT_WRITE (R96). An interlocked result such as a load or division is written and the word retires. Occasion: a is the unit (4 x core + slot). -/
  | interlockedResultWrite
  /-- USER_INTERRUPT_ENTRY (R122). A pending enabled user interrupt is taken at a word boundary. Occasion: a is the unit (4 x core + slot). -/
  | userInterruptEntry
  /-- MFREE (R267). Waits for the claim's commands and releases the claim. -/
  | mfree
  /-- MBSQ (R278). Writes the squared active plane into the shadow role. -/
  | mbsq
  /-- MBSWAP (R279). Exchanges the active and shadow roles. -/
  | mbswap
  /-- MCHAIN_CLOSE (R285). Closes the open chain. -/
  | mchainClose
  /-- LEASE_RUN_GRANT (R269). A free array grants a lease run to a requesting core by level and rotation. Occasion: a is the array. -/
  | leaseRunGrant
  /-- LEASE_RUN_END (R269). A run ends after 64 commands or 16 µs and the array re-arbitrates. Occasion: a is the array. -/
  | leaseRunEnd
  /-- CURRENT_GRANT (R477). The die's power governor issues a waiting current grant when budget allows. Occasion: a is the die. -/
  | currentGrant
  /-- BUDGET_REBALANCE (R477). Every 10 µs the supervisor moves current budget between dies. Occasion: nums is the budgets. -/
  | budgetRebalance
  /-- CSTOP (R327). Stops the slot's copy schedule. -/
  | cstop
  /-- SCHEDULE_ENTRY_FIRE (R325). A released stage's next schedule entry fires as a copy. Occasion: a is the unit (4 x core + slot). -/
  | scheduleEntryFire
  /-- AQ_STREAM_ENTRY (R343). A running stream issues its next entry once the queue has room. Occasion: a is the core, b is the queue. -/
  | aqStreamEntry
  /-- READ_PACKET (R338). A remote read packet is translated and performed at its target. Occasion: pkt is the packet, a the stream of its source agent, b the port it came in by. -/
  | readPacket
  /-- READ_DATA_PACKET (R342). Returned read data is placed in its queue entry, scratchpad or line. Occasion: pkt is the packet, a the stream of its source agent, b the port it came in by. -/
  | readDataPacket
  /-- WRITE_PACKET (R348). A remote write packet is counted and performed in flow order at its target. Occasion: pkt is the packet, a the stream of its source agent, b the port it came in by. -/
  | writePacket
  /-- WRITE_ACK_PACKET (R348). A cumulative write acknowledgement reaches the source flow. Occasion: pkt is the packet, a the stream of its source agent, b the port it came in by. -/
  | writeAckPacket
  /-- ATOMIC_PACKET (R347). A remote atomic is performed once at its home. Occasion: pkt is the packet, a the stream of its source agent, b the port it came in by. -/
  | atomicPacket
  /-- ATOMIC_RESULT_PACKET (R347). A remote atomic's result returns to the source. Occasion: pkt is the packet, a the stream of its source agent, b the port it came in by. -/
  | atomicResultPacket
  /-- MULTICAST_WRITE_PACKET (R349). A router writes a multicast packet locally and forwards it by its group entry. Occasion: pkt is the packet, a the stream of its source agent, b the port it came in by. -/
  | multicastWritePacket
  /-- PULL_REQUEST_PACKET (R357). A pull request enters the hub's request table and its prefix is written or discarded. Occasion: pkt is the packet, a the stream of its source agent, b the port it came in by. -/
  | pullRequestPacket
  /-- TOKEN_PACKET (R359). A sender answers a token with the data of exactly its units. Occasion: pkt is the packet, a the stream of its source agent, b the port it came in by. -/
  | tokenPacket
  /-- PULL_DATA_PACKET (R360). Pull data is written for a live token or discarded and counted. Occasion: pkt is the packet, a the stream of its source agent, b the port it came in by. -/
  | pullDataPacket
  /-- MESSAGE_CANCEL_PACKET (R361). A cancel notice withdraws the message at the other side. Occasion: pkt is the packet, a the stream of its source agent, b the port it came in by. -/
  | messageCancelPacket
  /-- RESUME_PACKET (R362). A resume request makes the receiver grant missing units or answer ORPHAN. Occasion: pkt is the packet, a the stream of its source agent, b the port it came in by. -/
  | resumePacket
  /-- MESSAGE_STATUS_PACKET (R356). A status notice updates the peer's status word. Occasion: pkt is the packet, a the stream of its source agent, b the port it came in by. -/
  | messageStatusPacket
  /-- INTERVAL_CLOSE_PACKET (R351). A target compares a closed interval's count with what it received. Occasion: pkt is the packet, a the stream of its source agent, b the port it came in by. -/
  | intervalClosePacket
  /-- INTERVAL_RESULT_PACKET (R352). A match or mismatch answer reaches the source, a mismatch raising COUNT. Occasion: pkt is the packet, a the stream of its source agent, b the port it came in by. -/
  | intervalResultPacket
  /-- NODE_OPERATION_PACKET (R406). A forwarded node operation or chain step is performed at its package. Occasion: pkt is the packet, a the stream of its source agent, b the port it came in by. -/
  | nodeOperationPacket
  /-- NODE_RESULT_PACKET (R406). A node operation's result or acknowledgement returns. Occasion: pkt is the packet, a the stream of its source agent, b the port it came in by. -/
  | nodeResultPacket
  /-- ERROR_PACKET (R338). A target's error makes the source raise the matching fault or abort. Occasion: pkt is the packet, a the stream of its source agent, b the port it came in by. -/
  | errorPacket
  /-- REORDER_GAP_TIMEOUT (R335). After 10 µs the target skips a missing flow sequence number. Occasion: a is the source package, b is the agent, c is the tensor id. -/
  | reorderGapTimeout
  /-- FLIT_RECEIVE (R336). A link flit is checked by CRC and sequence and refused for retry on failure. Occasion: a is the port, b is the sequence number, flag is whether the check holds. -/
  | flitReceive
  /-- LANE_TRAINING_LOSS (R336). A lane of a port loses training and the port goes down. Occasion: a is the port. -/
  | laneTrainingLoss
  /-- PORT_RETRAIN (R336). The management core retrains a down port. Occasion: a is the port. -/
  | portRetrain
  /-- INTERVAL_TIMER_EXPIRE (R351). An interval holding counted packets closes after 100 µs of slot time. Occasion: a is the unit (4 x core + slot). -/
  | intervalTimerExpire
  /-- INTERVAL_SHORT_TIMEOUT (R351). A target still short 10 µs after a close answers mismatch. Occasion: a is the source package, b is the context, c is the sequence number, d is the interval. -/
  | intervalShortTimeout
  /-- TOKEN_GRANT (R359). The grant scheduler issues a token to the chosen eligible request. -/
  | tokenGrant
  /-- TOKEN_EXPIRE (R360). A token not fully answered in 20 µs expires and its units become eligible. Occasion: a is the token. -/
  | tokenExpire
  /-- ORPHAN_TIMEOUT (R360). A request with no data for 1 ms is freed and marked ORPHAN. Occasion: a is the context, b is the receive slot. -/
  | orphanTimeout
  /-- DISPATCH_TASK (R217). A die's dispatcher places its best head in a free slot and starts the task. Occasion: a is the die. -/
  | dispatchTask
  /-- STEAL_EXCHANGE (R22). Every 64 clocks the dispatchers exchange best keys and a die may steal a task. -/
  | stealExchange
  /-- SEGMENT_REFILL (R384). A segment below 1536 entries brings back its best spilled entries. Occasion: a is the segment. -/
  | segmentRefill
  /-- AGING_TICK (R214). Every 1 µs aging adds the rate to the keys of queued tasks. -/
  | agingTick
  /-- LAUNCH_START (R208). A queue head launch starts, latches its window and spawns its roots. Occasion: a is the context, b is the queue. -/
  | launchStart
  /-- LAUNCH_COMPLETE (R208). A launch whose live count reaches zero completes and raises its action. Occasion: a is the context, b is the record. -/
  | launchComplete
  /-- TTT_FIRE (R216). A TTT entry whose start time is reached arms its record under its rule. Occasion: a is the index or count. -/
  | tttFire
  /-- HELD_EFFECT_DRAIN (R160). A committed buffered store or held effect is performed in program order. Occasion: a is the unit (4 x core + slot). -/
  | heldEffectDrain
  /-- JOIN_DECREMENT (R389). A join decrement reaches its target and may enqueue the continuation. -/
  | joinDecrement
  /-- WALKER_VISIT_NODE (R396). The cancellation walker cancels one node of the subtree in its steps. Occasion: a is the walk. -/
  | walkerVisitNode
  /-- BATCH_WINDOW_EXPIRE (R414). A pending batch forms when its window after first arrival runs out. Occasion: a is the context, b is the weight set. -/
  | batchWindowExpire
  /-- BATCH_ARM (R414). A formed batch arms its record once the record is IDLE and a buffer is free. Occasion: a is the context, b is the weight set. -/
  | batchArm
  /-- ENGINE_ENTRY_COMPLETE (R181). An engine entry completes, advancing its timeline and applying its signal. Occasion: a is the unit (4 x core + slot), b is the engine, plus 4 for a draining ring. -/
  | engineEntryComplete
  /-- ENGINE_WATCHDOG_EXPIRE (R480). An entry not complete within 50 ms raises WATCHDOG. Occasion: a is the unit (4 x core + slot), b is the engine, plus 4 for a draining ring. -/
  | engineWatchdogExpire
  /-- WATERMARK_WATCHDOG (R319). A sequencer word waiting 50 ms on a watermark raises WATCHDOG. Occasion: a is the unit (4 x core + slot). -/
  | watermarkWatchdog
  /-- HOST_ATOMIC_COMPLETION (R145). A host AtomicOp completes, failing as PERM SPACE on an error completion. Occasion: a is the unit (4 x core + slot), flag is whether it succeeded, w is the old value. -/
  | hostAtomicCompletion
  /-- TILE_FAULT_ABORT (R165). A tile or page fault aborts the task, parks it and posts the tile to the DCC. Occasion: a is the unit (4 x core + slot), b is the tensor id, c is the tile. -/
  | tileFaultAbort
  /-- TILE_RESIDENT_REQUEUE (R165). On notice that a tile is resident, the parked task is requeued. Occasion: a is the context, b is the tensor id, c is the tile. -/
  | tileResidentRequeue
  /-- CORE_STOP_FAULT (R129). A core-stop fault that no word's own meaning raises, such as an uncorrectable memory error or register parity, stops every slot and writes one fault frame. Occasion: a is the core, b is the slot, c is the stream, d is the cause with the subcause above it (times 256), w is the fault operand. -/
  | coreStopFault
  /-- FAULT_POLICY_APPLY (R431). The DCC applies the context's fault policy to a stopped core. Occasion: a is the core. -/
  | faultPolicyApply
  /-- FAULT_HOOK_RETURN (R432). The user hook returns kill, resume, requeue or hold. Occasion: a is the core, b is the value in a0, nums is the device addresses and doublewords it wrote in the save records, in turn. -/
  | faultHookReturn
  /-- FAULT_HOOK_TIMEOUT (R432). A hook running past 50 µs is treated as KILL. Occasion: a is the core. -/
  | faultHookTimeout
  /-- PREEMPT_SLOT (R132). A slot is stopped at an allowed boundary and saved under every pending cause. Occasion: a is the unit (4 x core + slot). -/
  | preemptSlot
  /-- RESTORE_SLOT (R134). A saved task is restored into a slot once every cause has released it. Occasion: a is the die. -/
  | restoreSlot
  /-- WORLD_SWITCH (R463). A switch between virtual functions saves and loads counters and sets PMOWNER. Occasion: a is the core, b is the function. -/
  | worldSwitch
  /-- DOMAIN_PHASE_END (R221). A domain's phase ends once every member's arrival stands and the fence passes. Occasion: a is the level, b is the die or 0, c is the domain id. -/
  | domainPhaseEnd
  /-- TRACE_SAMPLE (R460). On its period a sampled slot writes a SAMPLE record. Occasion: a is the unit (4 x core + slot). -/
  | traceSample
  /-- GEN_LOOP_ITERATION (R435). The DCC snapshots the batch table and arms the forward launches. Occasion: a is the context. -/
  | genLoopIteration
  /-- GEN_LOOP_SAMPLE_COMMIT (R436). After the forward launches complete, the DCC samples and commits tokens. Occasion: a is the context. -/
  | genLoopSampleCommit
  /-- COMMIT_PREDICATE_RETURN (R437). The commit predicate returns accept, veto, stop or rewrite. Occasion: a is the context, w is the value in a0, flag is whether it ended in a user-mode fault. -/
  | commitPredicateReturn
  /-- PREDICATE_TIMEOUT (R437). A predicate call not returned in 2 µs is abandoned with CALLBACK-TIMEOUT. Occasion: a is the context. -/
  | predicateTimeout
  /-- INVCTL_WRITE (R471). A write to INVCTL starts or merges a descriptor invalidation. Occasion: a is the function, w is the value. -/
  | invctlWrite
  /-- INVALIDATION_COMPLETE (R471). Every layout unit has dropped the entries and BUSY clears. Occasion: a is the function. -/
  | invalidationComplete
  /-- CONTEXT_BLOCK_WRITE (R472). A write to a context register block is applied only while the context is idle. Occasion: a is the context, b is the offset, c is the size, w is the value. -/
  | contextBlockWrite
  /-- KVPAGES_WRITE (R423). Writing KVPAGES builds the context's page free list. Occasion: a is the context, w is the value. -/
  | kvpagesWrite
  /-- DEBUG_STOP_REQUEST (R468). A DBGCTL write requests a debug stop of a slot. Occasion: a is the unit (4 x core + slot). -/
  | debugStopRequest
  /-- DEBUG_STOP_RELEASE (R468). A DBGCTL release bit releases a slot's debug cause. Occasion: a is the unit (4 x core + slot). -/
  | debugStopRelease
  /-- BAR0_REGISTER_WRITE (R470). A host write to a BAR0 register without its own row, dropped if out of the function's reach. Occasion: a is the function, reg is the BAR0 register, w is the value. -/
  | bar0RegisterWrite
  /-- PACKAGE_NUMBER_WRITE (R332). The driver writes the package number and grid size, starting fabric training. Occasion: a is the package number, b is the grid. -/
  | packageNumberWrite
  /-- FABRIC_TRAINED (R475). Fabric training completes and remote accesses are allowed. -/
  | fabricTrained
  /-- PACKAGE_RESET (R475). Reset starts bring-up with firmware verification by the management core. -/
  | packageReset
  /-- FIRMWARE_RECOVERY_LOAD (R478). The host re-sends the image through the recovery window. Occasion: bytes is the image. -/
  | firmwareRecoveryLoad
  /-- FIRMWARE_UPDATE_ACTIVATE (R478). An update is verified before activation. Occasion: bytes is the image. -/
  | firmwareUpdateActivate
  /-- DIE_OFFERED (R476). A die whose DRAM has trained is offered for work at half array clock. Occasion: a is the die. -/
  | dieOffered
  /-- DIE_CHARACTERISED (R13). Power-delivery characterisation completes and the die's arrays run at full clock. Occasion: a is the die. -/
  | dieCharacterised
  /-- TIME_SYNC_SAMPLE (R474). A PTP or PTM timestamp disciplines device time by slew or step. Occasion: off is the offset. -/
  | timeSyncSample
  /-- PATROL_SCRUB (R480). The patrol scrub reads DRAM and reports latent faults. Occasion: nums is the rows. -/
  | patrolScrub
  /-- ATTESTATION_REQUEST (R479). The driver requests a signed attestation report. Occasion: bytes is the nonce. -/
  | attestationRequest
  /-- HOST_BAR2_ACCESS (R186). A host read or write through a function's BAR2 window reaches device memory as a plain access at system scope. Occasion: a is the function, b is the address, c is the index or count, flag is whether it writes, bytes is the data. -/
  | hostBar2Access
  /-- PACKET_DETOUR (R335). A packet whose chosen egress has held more than 64 KiB queued for longer than 2 µs takes a detour through a package of the same row or column. Occasion: pkt is the packet, a is the package it goes through. -/
  | packetDetour
  /-- CLOCK_EVENT_OVERFLOW (R467). A counter counting clocks (slot-occupancy, interlock, grant-wait, dispatch-stall or bank-conflict clocks) wraps, setting OVF and raising the owner's interrupt. Occasion: a is the group, b is the unit, c is the counter, d is the index or count. -/
  | clockEventOverflow
  deriving DecidableEq, Repr, Inhabited

end Sys2Proof
end

