-- ==== Sys2Proof/Machine/Bits.lean ====
section
/-! DEFINITION. Bit fields, sign extension and byte order. A bit range [hi:lo] includes both ends, bit 0 is the
least significant bit, and a field of more than one byte is little-endian (00 R1). -/

namespace Sys2Proof

/-- The `n` bits of `w` from bit `lo` upward, as a number. -/
def fld (w lo n : Nat) : Nat := w / 2 ^ lo % 2 ^ n

/-- Bit `k` of `w`. -/
def bitOf (w k : Nat) : Bool := w / 2 ^ k % 2 = 1

/-- The bit of a truth value. -/
def b2n (b : Bool) : Nat := if b then 1 else 0

/-- `w` with its `n` bits from `lo` upward replaced by the low `n` bits of `v`. -/
def setFld (w lo n v : Nat) : Nat :=
  w % 2 ^ lo + (v % 2 ^ n) * 2 ^ lo + w / 2 ^ (lo + n) * 2 ^ (lo + n)

/-- The two's-complement integer of the low `n` bits of `v`. -/
def sint (n v : Nat) : Int :=
  let m := v % 2 ^ n
  if m < 2 ^ (n - 1) then (m : Int) else (m : Int) - (2 ^ n : Nat)

/-- The `n`-bit pattern of an integer, modulo 2^n. -/
def toBits (n : Nat) (x : Int) : Nat := (x % ((2 ^ n : Nat) : Int)).toNat

/-- Sign extension of the low `n` bits of `v` to 64 bits. -/
def sext64 (n v : Nat) : Word := BitVec.ofInt 64 (sint n v)

/-- The number of a little-endian byte list. -/
def leNat : List Byte → Nat
  | [] => 0
  | b :: t => b.toNat + 256 * leNat t

/-- The `n` low bytes of a number, little-endian. -/
def leBytes : Nat → Nat → List Byte
  | 0, _ => []
  | n + 1, v => BitVec.ofNat 8 v :: leBytes n (v / 256)

/-- `n` zero bytes. -/
def zeros (n : Nat) : List Byte := List.replicate n 0

/-- `x` rounded up to a multiple of `m`. -/
def roundUp (x m : Nat) : Nat := (x + m - 1) / m * m

/-- The ceiling of `a / b`. -/
def ceilDiv (a b : Nat) : Nat := (a + b - 1) / b

/-- A list's element, or a given value beyond its end. -/
def nth {α : Type} (d : α) : List α → Nat → α
  | [], _ => d
  | a :: _, 0 => a
  | _ :: t, n + 1 => nth d t n

/-- A list with element `n` replaced, when it has one. -/
def setNth {α : Type} : List α → Nat → α → List α
  | [], _, _ => []
  | _ :: t, 0, v => v :: t
  | a :: t, n + 1, v => a :: setNth t n v

/-- The list cut into pieces of `n` elements; `fuel` bounds the number of pieces. -/
def pieces {α : Type} (n : Nat) : Nat → List α → List (List α)
  | 0, _ => []
  | _ + 1, [] => []
  | fuel + 1, l => l.take n :: pieces n fuel (l.drop n)

/-- The position of the highest one bit plus one; 0 for 0. -/
def bitLen (n : Nat) : Nat := if n = 0 then 0 else Nat.log2 n + 1

/-- The number of one bits among the low `n` bits of `w`. -/
def popCount : Nat → Nat → Nat
  | 0, _ => 0
  | n + 1, w => w % 2 + popCount n (w / 2)

end Sys2Proof
end

