-- ==== Sys2Proof/Machine/Checks.lean ====
section
/-! DEFINITION. The static checks of R38 on a word's operands: which fields an instruction leaves unused, so that
they must be zero (subcause 2), and which field values its description marks illegal (subcause 3). A bit that must be
zero counts as reserved also inside a used field (DEDUCED: log entry 3). -/

namespace Sys2Proof

/-- The bits of `w` outside `mask` are zero. -/
def only (mask w : Nat) : Bool := w &&& mask == w

/-- What must be zero in an S3 word without an immediate form: i (R42), register fields, and funct bits the instruction does
not define. -/
def S3.res (f : S3) (rd ra rb : Bool) (mask : Nat) : Bool :=
  !f.i && (rd || f.rd == 0) && (ra || f.ra == 0) && (rb || f.rb == 0) && only mask f.funct.toNat

/-- The integer group: with i = 0 funct is zero, with i = 1 the rb field is (R40, R103). -/
def S3.resInt (f : S3) : Bool := if f.i then f.rb == 0 else f.funct == 0

/-- A 6-bit field that names a predicate has bits [5:3] zero (R41). -/
def predFld (r : BitVec 6) : Bool := r.toNat < 8

/-- Vector format fields left unused must be zero, with their marks (R48). -/
def VR.res (f : VR) (vd va vb : Bool) (mask : Nat) : Bool :=
  (vd || f.vd == 0) && (va || (f.va == 0 && !f.la)) && (vb || (f.vb == 0 && !f.lb)) && only mask f.funct.toNat

/-- The type field is one the instruction accepts (R49); `tys` is a mask of accepted codes. -/
def tyIn (tys : Nat) (t : BitVec 3) : Bool := bitOf tys t.toNat

/-- Funct bit 3 selects the FP8 variant only when the type is 7 (R229, R236). -/
def VR.variantOk (f : VR) : Bool := f.ty == 7 || !bitOf f.funct.toNat 3

def SI.res (f : SI) (rd ra : Bool) (mask : Nat) : Bool :=
  (rd || f.rd == 0) && (ra || f.ra == 0) && only mask f.imm.toNat

/-- The start offsets b0 to b7 of a stage word (R43). -/
def Stages.offs (t : Stages) : List Nat :=
  [t.b0.toNat, t.b1.toNat, t.b2.toNat, t.b3.toNat, t.b4.toNat, t.b5.toNat, t.b6.toNat, t.b7.toNat]

def Stages.ns (t : Stages) : Nat := t.ns1.toNat + 1

/-- A list rises strictly and stays below a bound. -/
def risingBelow (bound : Nat) : List Nat → Bool
  | [] => true
  | [a] => a < bound
  | a :: b :: t => a < b && risingBelow bound (b :: t)

/-- A PFX field whose override bit is clear is zero in the word (R44). -/
def SP.res (f : SP) : Bool :=
  let o := f.ovr.toNat
  (bitOf o 4 || f.ord == 0) && (bitOf o 3 || f.scope == 0) && (bitOf o 2 || f.space == 0) &&
    (bitOf o 1 || f.cache == 0) && (bitOf o 0 || !f.dw) && (f.space == 4 || f.pkg == 0)

/-- The bytes of a node record that software may write, per doubleword, as byte masks (R400): bytes 22 and 23,
24 and 25, and 44 to 63. -/
def nstMask (w : Nat) : Nat :=
  match w with
  | 2 => 0xC0
  | 3 => 0x03
  | 5 => 0xF0
  | 6 => 0xFF
  | 7 => 0xFF
  | _ => 0

/-- The control registers of R124. -/
def csrKnown (n : Nat) : Bool :=
  n ≤ 0x00C || (0x010 ≤ n && n ≤ 0x013) || n = 0x015 || n = 0x016 || (0x020 ≤ n && n ≤ 0x022)

/-- The control registers a program may write; PMOWNER is here because its write has a fault of its own (R124). -/
def csrWritable (n : Nat) : Bool :=
  n ≤ 0x005 || (0x00A ≤ n && n ≤ 0x00C) || (0x010 ≤ n && n ≤ 0x013) || n = 0x015 || n = 0x016 || n = 0x020

/-- The control field left for signals and waits of PFX is zero (R44). -/
def Ctl.isZero (c : Ctl) : Bool := c.wait == .none && c.signal == .none && c.stall == 0

/-- Every field that must be zero is zero (subcause 2 of R38). -/
def Instr.reservedOk : Instr → Bool
  | .add f | .sub f | .mul f | .mulh f | .mulhu f | .div f | .divu f | .rem f | .remu f
  | .and f | .or f | .xor f | .shl f | .shr f | .sar f | .rol f
  | .min f | .max f | .minu f | .maxu f => f.resInt
  | .clz f | .popc f => f.res true true false 0
  | .lea _ | .li _ | .lis _ => true
  | .cmp f => f.res true true true 0xF && predFld f.rd
  | .pand f | .por f | .pxor f => f.res true true true 3 && predFld f.rd && predFld f.ra && predFld f.rb
  | .pnot f => f.res true true false 0 && predFld f.rd && predFld f.ra
  | .sel f => f.res true true true 0xF
  | .pmovRd f | .pmovSt f => f.res true false false 0x1FFFF
  | .pmovWr f => f.res false true false 0x1FFFF
  | .fadd f | .fsub f | .fmul f | .fma f | .fmin f | .fmax f => f.res true true true 0xF
  | .fcmp f => f.res true true true 0x73 && predFld f.rd
  | .fcvt f => f.res true true false 0xFF
  | .br _ => true
  | .call f => f.pred == 0 && !f.n
  | .jmp f => f.res false true false 0
  | .ret | .uiret | .waiti | .nop | .tdone | .tyield | .bcmsnap => true
  | .loop f sw => f.res false true 0xFFF0FF && (sw.offs.drop sw.ns).all (· == 0)
  | .loopx f => f.res false true 0xFFF0FF
  | .trap f | .bkpt f => f.res false false 0xFFFFFF
  | .ld _ | .lds _ | .st _ | .ldsp _ | .stsp _ | .rsld _ | .rsst _
  | .cinvL1 _ | .cinvWb _ | .cinvWbi _ => true
  | .atom f => f.res true true true 0x3F
  | .acas f => f.res true true true 0x30
  | .fence f => f.res false false 0x1F
  | .taglk f => f.res true true false 0
  | .tagset f => f.res true true true 0
  | .tagclr f => f.res true true false 0x1FFFF
  | .tagclrAll f => f.res true false false 0x1FFFF
  | .pfx f => f.res
  | .enq f => f.res false true false 3
  | .rel f => f.res false true 0x3FFF
  | .ringsetCfg f | .ringsetDecl f | .ringsetProd f | .ringsetCons f | .ringsetOwn f => f.res false true false 0x3FF
  | .ringsetReset f => f.res false true false 0x3FF
  | .ringget f => f.res true false false 0x3FF
  | .semsig f => f.res false false 0x3FFF
  | .semsigPeer f => f.res false false 0x1FFFF
  | .semwait f => f.res true false 0x3FFF
  | .tlwait f => f.res false true false 3
  | .tlread f => f.res true false false 3
  | .lpatch f => f.res true true true 0x1F
  | .larm f => f.res true true 0xFFF
  | .lstat f => f.res true true false 3
  | .dphase f => f.res false false 7
  | .setdom f => f.res false true 7
  | .cstage f => f.res false true 0xFFFF
  | .cstat f => f.res true true false 7
  | .tspawn f | .tspawnb f => f.res false true (bitOf f.funct.toNat 0) 1
  | .tcancel f => f.res false true false 0xFF
  | .treprio f => f.res false true true 1
  | .tjoin f => f.res false true true 0
  | .tquery f => f.res true (f.funct == 1) false 3
  | .tself f => f.res true false false 7
  | .region f =>
    f.res false false 0x7FFF && (!bitOf f.imm.toNat 13 || (fld f.imm.toNat 0 12 == 0 && !bitOf f.imm.toNat 14))
  | .nalloc f => f.res true true true 1
  | .nfree f => f.res false true false 0
  | .nld f => f.res true true false 7
  | .nst f => f.res false true true 0x7FF
  | .nadd f => f.res true true true 7
  | .ncas f => f.res true true true 7
  | .nvloss f => f.res false true false 0xFF
  | .nbackup f => f.res false true true 0xFFF
  | .nselect f => f.res true true false 0x7F
  | .nkey f => f.res true true false 1
  | .nlink f => f.res false true true 0
  | .bfcfg f => f.res false true true 0
  | .bfstat f => f.res true true false 3
  | .bfflush f => f.res false false 0x1FF && (!bitOf f.imm.toNat 8 || fld f.imm.toNat 0 8 == 0)
  | .kvalloc f => f.res true true true 0
  | .kvfree f | .kvpin f | .kvunpin f => f.res false true false 0
  | .kvlink f => f.res false true true 0
  | .kvinvInv f | .kvinvVal f => f.res true true true 1
  | .pfxhash f | .pfxlook f | .pfxins f => f.res true true true 0
  | .pfxevict f => f.res false true true 1
  | .pfxevictAll f => f.res false false false 1
  | .pmcfg f => f.res false true true 0x1FFFF
  | .pmrd f => f.res true true false 0x1FFFF
  | .pmclr f => f.res false true false 0x1FFFF
  | .trmark f => f.res false true 0xFFFFFF
  | .trctlWr f => f.res false true false 0x1FFFF
  | .trctlRd f => f.res true false false 0x1FFFF
  | .csrrd f => f.res true false 0xFFF
  | .csrwr f => f.res false true 0xFFF
  | .setview f => f.res false true false 3
  | .granclr f => f.res false true true 0
  | .timeDev f | .timeClk f => f.res true false false 0x1FFFF
  | .syscall _ => true
  | .vadd f | .vsub f | .vmul f | .vfma f => f.res true true true 3
  | .vmin f | .vmax f | .vsel f | .vclamp f => f.res true true true 8 && f.variantOk
  | .vabs f | .vneg f => f.res true true false 8 && f.variantOk
  | .vcmp f => f.res true true true 0xF && f.variantOk
  | .viadd f | .visub f | .vimul f | .vimin f | .vimax f | .viminu f | .vimaxu f
  | .vsadd f | .vssub f => f.res true true true 0
  | .vicmp f => f.res true true true 7
  | .vmulsh f => f.res true true true 1
  | .vand f | .vor f | .vxor f | .vshl f | .vshr f | .vsar f => f.res true true true 0
  | .vpopc f => f.res true true false 0
  | .vcvt f => !f.lb && fld f.vb.toNat 0 3 == 0 && f.variantOk && (fld f.vb.toNat 6 3 == 7 || !bitOf f.vb.toNat 5)
  | .vqnt f => f.res true true false 0xF
  | .vdqnt f => f.res true true false 7
  | .vpermb f | .vshuf f | .vcomp f => f.res true true true 0
  | .vnib f => f.res true true false 1
  | .vbcast f => fld f.imm.toNat 8 7 == 0
  | .viota f => f.va == 0
  | .vrsum f | .vrmax f | .vrmin f | .vrargmax f => f.res true true false 8 && f.variantOk
  | .vscan f => f.res true true false 1
  | .vmaskb f => f.res true true false 0
  | .vexp2 f | .vlog2 f | .vrcp f | .vrsq f | .verf f | .vtanh f | .vsigm f => f.res true true false 0
  | .vld _ | .vst _ => true
  | .vzero f => f.gran == 0
  | .vldr f => f.va == 0 && fld f.imm.toNat 12 3 == 0 && (!bitOf f.imm.toNat 5 || fld f.imm.toNat 3 2 == 0)
  | .vstr f => f.va == 0 && fld f.imm.toNat 12 3 == 0
  | .vgath f => f.res true false true 0
  | .vscat f => f.res false true true 0
  | .vmov f => f.res true true false 0
  | .madd f | .msub f | .mmul f | .mscl f | .maff f | .mmax2 f => f.res true true true 0xF
  | .mfrom f => f.res true true (fld f.funct.toNat 0 2 != 2) 0xF
  | .msplit f | .mcol f | .mchk f | .mrelu f | .msigm f | .mexp f | .mtanh f => f.res true true false 0xF
  | .mlease f => f.gran == 0 && f.imm == 0
  | .mcfg f => f.cls == 0 && f.gran == 0 && !bitOf f.imm.toNat 16
  | .mbld f => f.s || f.ring == 0
  | .mbcsr f => !f.s && f.ring == 0
  | .mstr f => f.funct == 0 && (!f.s || fld f.src.toNat 3 2 == 0)
  | .mstrm f => f.funct == 0 && !f.h && (!f.s || fld f.src.toNat 3 2 == 0)
  | .maccld f => f.funct == 0 && (!f.s || fld f.src.toNat 3 2 == 0)
  | .mzero f => f.funct == 0 && !f.s && f.src == 0 && !f.a
  | .mdrain f => f.funct == 0 && !f.s
  | .mepi f => f.cls == 0 && f.imm == 0
  | .mheaprd f => f.cls == 0 && fld f.imm.toNat 12 5 == 0
  | .mheapclr f => f.cls == 0 && f.gran == 0 && fld f.imm.toNat 12 5 == 0
  | .msave f => !f.s && f.ring == 0 && !f.pl
  | .mchainOpen f => f.cls == 0 && f.gran == 0 && fld f.imm.toNat 0 2 == 0
  | .ccopy f | .cfill f | .cmcast f | .cplace f =>
    f.funct == 0 && !bitOf f.ch.toNat 4 && (f.be || f.bar == 0)
  | .csched f => f.funct == 0 && !bitOf f.ch.toNat 4 && !f.be && f.bar == 0
  | .cbarset _ => true
  | .cchan f => !bitOf f.idx.toNat 4 && fld f.imm.toNat 16 15 == 0
  | .cchanOff f => !bitOf f.idx.toNat 4 && fld f.imm.toNat 16 15 == 0 && fld f.imm.toNat 0 15 == 0
  | .aqld _ => true
  | .aqcfg f => f.gran == 0 && fld f.imm.toNat 11 7 == 0
  | .aqstop f => f.gran == 0 && fld f.imm.toNat 1 17 == 0
  | .rld f => f.funct == 0
  | .rst f | .rmcst f => f.oq == 0 && f.funct == 0
  | .ratom f => f.oq == 0 && !bitOf f.funct.toNat 7
  | .rcas f => f.oq == 0 && only 0x30 f.funct.toNat
  | .rfence f => f.oq == 0 && f.gran == 0 && f.cnt == 0 && fld f.funct.toNat 4 4 == 0
  | .xsend _ => true
  | .xpost f => f.pc == 0 && fld f.mid.toNat 10 6 == 0
  | .xcancel f => f.gran == 0
  | .xcancelRecv f => f.gran == 0 && fld f.mid.toNat 10 6 == 0
  | .xresume f => f.pc == 0 && f.gran == 0
  | _ => true

/-- Type masks of R49: the float types, the integer types, and all of them. -/
def tF : Nat := 0b111
def tF8 : Nat := 0b10000111
def tI : Nat := 0b1111000
def tAll : Nat := 0xFF

/-- The operation and size codes of an atomic are a pair the table lists (R143). -/
def atomOk (op sz : Nat) : Bool := (sz = 2 || sz = 3) && op ≤ 10 && (op < 9 || sz = 2)

/-- Whether an MCFG immediate is a combination R273 and R274 list. -/
def mcfgOk (v : Nat) : Bool :=
  let a := fld v 0 5
  let b := fld v 5 5
  let semi := fld v 10 3
  let rs := bitOf v 14
  let mom := bitOf v 15
  let fa := a == 1 || (3 ≤ a && a ≤ 8)
  let fb := b == 1 || (3 ≤ b && b ≤ 8)
  (match semi with
   | 0 => if mom then fa && fb else (fa || a == 0xD || a == 0xB || a == 0xC) && (fb || b == 0xD || b == 0xB || b == 0xC)
   | 1 => a == 0xA && b == 0xA && !mom
   | 2 => a == 0xA && b == 0xA && !mom
   | 3 => a == 1 && b == 1 && !mom
   | 4 => a == 0xF && b == 0xF && !mom
   | _ => false) && (!rs || (semi == 0 && !mom))

/-- Every field value is one the instruction accepts (subcause 3 of R38). -/
def Instr.valuesOk : Instr → Bool
  | .clz _ | .popc _ | .pnot _ | .jmp _ => true
  | .cmp f => f.funct.toNat < 8
  | .pand _ | .por _ | .pxor _ | .sel _ => true
  | .pmovRd f => f.funct == 0
  | .pmovWr f => f.funct == 1
  | .pmovSt f => f.funct == 2
  | .fadd f | .fsub f | .fmul f | .fma f =>
    fld f.funct.toNat 0 2 != 3 && fld f.funct.toNat 2 2 ≤ 1
  | .fmin f | .fmax f => fld f.funct.toNat 0 2 != 3 && fld f.funct.toNat 2 2 == 0
  | .fcmp f => fld f.funct.toNat 0 2 != 3 && fld f.funct.toNat 4 3 ≤ 4
  | .fcvt f =>
    fld f.funct.toNat 0 3 ≤ 4 && fld f.funct.toNat 3 3 ≤ 4 &&
      fld f.funct.toNat 0 3 != fld f.funct.toNat 3 3 && fld f.funct.toNat 6 2 ≤ 1
  | .br f => !(f.pred == 0 && f.n)
  | .loop f sw =>
    fld f.imm.toNat 12 12 != 0 && sw.b0 == 0 &&
      risingBelow (fld f.imm.toNat 12 12) (sw.offs.take sw.ns)
  | .loopx f => fld f.imm.toNat 12 12 != 0
  | .cinvL1 f => f.size == 0
  | .cinvWb f => f.size == 1
  | .cinvWbi f => f.size == 2
  | .atom f => atomOk (fld f.funct.toNat 0 4) (fld f.funct.toNat 4 2)
  | .acas f => 2 ≤ fld f.funct.toNat 4 2
  | .fence f => fld f.imm.toNat 0 2 != 0 && fld f.imm.toNat 2 3 ≤ 5
  | .taglk _ | .tagset _ | .enq _ | .tlwait _ | .tlread _ | .lpatch _ | .lstat _ => true
  | .tagclr f => f.funct == 0
  | .tagclrAll f => f.funct == 1
  | .pfx f => (!bitOf f.ovr.toNat 3 || f.scope.toNat ≤ 5) && (!bitOf f.ovr.toNat 2 || f.space.toNat ≤ 4)
  | .ringsetCfg f => fld f.funct.toNat 0 6 < 32 && fld f.funct.toNat 6 4 == 0
  | .ringsetDecl f => fld f.funct.toNat 0 6 < 32 && fld f.funct.toNat 6 4 == 1
  | .ringsetProd f => fld f.funct.toNat 0 6 < 32 && fld f.funct.toNat 6 4 == 2
  | .ringsetCons f => fld f.funct.toNat 0 6 < 32 && fld f.funct.toNat 6 4 == 3
  | .ringsetOwn f => fld f.funct.toNat 0 6 < 32 && fld f.funct.toNat 6 4 == 4
  | .ringsetReset f => fld f.funct.toNat 0 6 < 32 && fld f.funct.toNat 6 4 == 5
  | .ringget f => fld f.funct.toNat 0 6 ≤ 35 && fld f.funct.toNat 6 4 ≤ 5
  | .semsig f => fld f.imm.toNat 6 8 != 0 && !bitOf f.imm.toNat 14
  | .semsigPeer f => fld f.imm.toNat 6 8 != 0 && bitOf f.imm.toNat 14
  | .semwait f => fld f.imm.toNat 6 8 != 0
  | .setdom f => 2 ≤ fld f.imm.toNat 0 3 && fld f.imm.toNat 0 3 ≤ 4
  | .cstat f => fld f.funct.toNat 0 3 ≤ 5
  | .tspawn _ | .tspawnb _ | .tcancel _ | .treprio _ | .tjoin _ => true
  | .tquery f => fld f.funct.toNat 0 2 != 3
  | .tself f => fld f.funct.toNat 0 3 != 7
  | .region f =>
    bitOf f.imm.toNat 13 ||
      (fld f.imm.toNat 0 6 ≤ fld f.imm.toNat 6 6 && (1 ≤ fld f.imm.toNat 0 6 || fld f.imm.toNat 6 6 == 0))
  | .nalloc _ | .nfree _ | .nld _ | .nvloss _ | .nbackup _ | .nselect _ | .nkey _ | .nlink _
  | .bfcfg _ | .bfstat _ => true
  | .nst f =>
    fld f.funct.toNat 3 8 != 0 && only (nstMask (fld f.funct.toNat 0 3)) (fld f.funct.toNat 3 8)
  | .nadd f => fld f.funct.toNat 0 3 ≤ 4
  | .ncas f => 5 ≤ fld f.funct.toNat 0 3
  | .kvalloc _ | .kvfree _ | .kvlink _ | .kvpin _ | .kvunpin _ | .pfxhash _ | .pfxlook _
  | .pfxins _ => true
  | .kvinvInv f | .pfxevict f => f.funct == 0
  | .kvinvVal f | .pfxevictAll f => f.funct == 1
  | .pmcfg f => f.funct == 0
  | .pmrd f => f.funct.toNat ≤ 1
  | .pmclr f => 1 ≤ f.funct.toNat && f.funct.toNat ≤ 3
  | .trctlWr f => f.funct == 0
  | .trctlRd f => f.funct == 1
  | .csrrd f => csrKnown (fld f.imm.toNat 0 12)
  | .csrwr f => csrWritable (fld f.imm.toNat 0 12)
  | .setview f => fld f.funct.toNat 0 2 != 3
  | .granclr _ => true
  | .timeDev f => f.funct == 0
  | .timeClk f => f.funct == 1
  | .vadd f | .vsub f | .vmul f | .vfma f => tyIn tF f.ty && fld f.funct.toNat 0 2 != 3
  | .vmin f | .vmax f | .vabs f | .vneg f | .vsel f | .vclamp f => tyIn tF8 f.ty
  | .vcmp f => tyIn tF8 f.ty && fld f.funct.toNat 0 3 ≤ 4
  | .viadd f | .visub f | .vimul f | .vsadd f | .vssub f => tyIn tI f.ty
  | .vimin f | .vimax f | .vmulsh f => tyIn 0b111000 f.ty
  | .viminu f | .vimaxu f => tyIn 0b1011000 f.ty
  | .vicmp f => tyIn tI f.ty && fld f.funct.toNat 0 3 ≤ 5
  | .vand f | .vor f | .vxor f | .vshl f | .vshr f | .vsar f | .vpopc f => tyIn tI f.ty
  | .vcvt f =>
    let sty := fld f.vb.toNat 6 3
    let sv := bitOf f.vb.toNat 5
    let rm := fld f.vb.toNat 3 2
    let w (t : Nat) : Nat := if t = 0 || t = 3 then 4 else if t = 1 || t = 2 || t = 4 then 2 else 1
    let db := w f.ty.toNat
    let sb := w sty
    let dInt := 3 ≤ f.ty.toNat && f.ty.toNat ≤ 6
    let parts := Nat.max sb db / Nat.min sb db
    !(sty = f.ty.toNat && (sty != 7 || sv = bitOf f.funct.toNat 3)) && rm != 3 && !(rm = 2 && dInt) &&
      fld f.funct.toNat 0 3 < parts
  | .vqnt f => f.ty.toNat ≤ 1 && fld f.funct.toNat 0 3 ≤ 3
  | .vdqnt f => f.ty.toNat ≤ 1 && fld f.funct.toNat 0 3 ≤ 3
  | .vpermb f | .vnib f => tyIn 0b1100000 f.ty
  | .vbcast f =>
    let l := if f.ty.toNat = 0 || f.ty.toNat = 3 then 64 else if f.ty.toNat = 1 || f.ty.toNat = 2 || f.ty.toNat = 4 then 128 else 256
    fld f.imm.toNat 0 8 < l
  | .vshuf f | .vcomp f | .vmaskb f | .vgath f | .vscat f => f.ty != 7
  | .viota f => tyIn tI f.ty
  | .vrsum _ | .vrmax _ | .vrmin _ | .vrargmax _ | .vmov _ => true
  | .vscan f => tyIn 0b1001 f.ty
  | .vexp2 f | .vlog2 f | .vrcp f | .vrsq f | .verf f | .vtanh f | .vsigm f => tyIn tF f.ty
  | .vld f | .vst f | .vzero f => f.ty == 0
  | .vldr f => f.ty == 0
  | .vstr f => f.ty == 0 && !bitOf f.imm.toNat 5
  | .madd f | .msub f | .mmul f | .mscl f | .maff f | .mmax2 f | .mrelu f | .msigm f | .mexp f
  | .mtanh f => f.ty == 0 && f.funct == 0
  | .mcol f => f.ty == 0 && f.funct.toNat < 8
  | .mfrom f => f.ty == 0 && f.funct.toNat < 8 && fld f.funct.toNat 0 2 != 3
  | .msplit f => f.ty == 0 && f.funct.toNat < 8 && fld f.funct.toNat 0 2 == 0
  | .mchk f => f.ty == 0 && f.funct.toNat < 3
  | .mcfg f => mcfgOk f.imm.toNat
  | .mstr f | .maccld f | .mzero f | .mdrain f | .mstrm f => f.arow.toNat + f.nrow.toNat + 1 ≤ 64
  | .mchainOpen f =>
    bitOf f.imm.toNat 16 && fld f.imm.toNat 2 6 + fld f.imm.toNat 8 6 + 1 ≤ 64 && fld f.imm.toNat 14 2 != 0
  | .cchan f => !bitOf f.imm.toNat 15
  | .cchanOff f => bitOf f.imm.toNat 15
  | .aqld f => f.imm != 0
  | .aqcfg f => fld f.imm.toNat 0 11 ≤ 1024
  | .ratom f => atomOk (fld f.funct.toNat 0 4) (fld f.funct.toNat 4 2)
  | .rcas f => 2 ≤ fld f.funct.toNat 4 2
  | .rfence f => fld f.funct.toNat 0 3 ≤ 5
  | .xcancel f => f.pc == 0
  | .xcancelRecv f => f.pc == 1
  | _ => true

end Sys2Proof
end

