-- ==== Sys2Proof/WellFormed.lean ====
section
/-! DEFINITION. A well-formed instruction: every field that must be zero is zero, and every field value is one its
description accepts (02 R38 to R46). The checks themselves stand in Machine/Checks.lean. -/

namespace Sys2Proof

/-- The static checks of R38 beyond the opcode and the control fields. -/
def Instr.wf (i : Instr) : Bool := i.reservedOk && i.valuesOk

end Sys2Proof
end

