-- ==== Sys2Proof/Decode.lean ====
section
/-! DEFINITION. The decoder of the five streams (02 R33 to R53), total on every word, refusing by the ILLEGAL subcause
of R38; and, after it, the encoder, written from the same tables. `decodeTableWord` reads an instruction from bits
numbered as the opcode table numbers them. -/

namespace Sys2Proof

/-- The wait byte (R34); none when the index lies outside its range. -/
def decWait (b : Nat) : Option WaitC :=
  let n := b % 64
  match b / 64 % 4 with
  | 0 => if n = 0 then some .none else none
  | 1 => some (.sem (BitVec.ofNat 6 n))
  | 2 => if n < 32 then some (.bar (BitVec.ofNat 5 n)) else none
  | _ => if n < 32 then some (.ring (BitVec.ofNat 5 n)) else none

/-- The signal byte (R35); none when the index lies outside its range. -/
def decSignal (b : Nat) : Option SignalC :=
  let n := b % 64
  match b / 64 % 4 with
  | 0 => if n = 0 then some .none else none
  | 1 => some (.sem (BitVec.ofNat 6 n))
  | 2 => if n < 16 then some (.ui (BitVec.ofNat 4 n)) else none
  | _ => if n < 32 then some (.bar (BitVec.ofNat 5 n)) else none

/-- The fields of S3 (R40). -/
def decS3 (w : Nat) : S3 :=
  ⟨BitVec.ofNat 6 (fld w 30 6), BitVec.ofNat 6 (fld w 24 6), BitVec.ofNat 6 (fld w 18 6), bitOf w 17, BitVec.ofNat 17 (fld w 0 17)⟩

/-- The fields of SI (R40). -/
def decSI (w : Nat) : SI :=
  ⟨BitVec.ofNat 6 (fld w 30 6), BitVec.ofNat 6 (fld w 24 6), BitVec.ofNat 24 (fld w 0 24)⟩

/-- The fields of SL (R40). -/
def decSL (w : Nat) : SL :=
  ⟨BitVec.ofNat 6 (fld w 30 6), BitVec.ofNat 30 (fld w 0 30)⟩

/-- The fields of SB (R40). -/
def decSB (w : Nat) : SB :=
  ⟨BitVec.ofNat 3 (fld w 33 3), bitOf w 32, BitVec.ofNat 32 (fld w 0 32)⟩

/-- The fields of SM (R40). -/
def decSM (w : Nat) : SM :=
  ⟨BitVec.ofNat 6 (fld w 30 6), BitVec.ofNat 6 (fld w 24 6), BitVec.ofNat 2 (fld w 22 2), BitVec.ofNat 22 (fld w 0 22)⟩

/-- The fields of SP (R40). -/
def decSP (w : Nat) : SP :=
  ⟨BitVec.ofNat 2 (fld w 34 2), BitVec.ofNat 3 (fld w 31 3), BitVec.ofNat 3 (fld w 28 3), BitVec.ofNat 2 (fld w 26 2), bitOf w 25, BitVec.ofNat 5 (fld w 20 5), BitVec.ofNat 7 (fld w 13 7)⟩

/-- The fields of VR (R48). -/
def decVR (w : Nat) : VR :=
  ⟨BitVec.ofNat 3 (fld w 33 3), BitVec.ofNat 9 (fld w 24 9), BitVec.ofNat 9 (fld w 15 9), BitVec.ofNat 9 (fld w 6 9), bitOf w 5, bitOf w 4, BitVec.ofNat 4 (fld w 0 4)⟩

/-- The fields of VX (R48). -/
def decVX (w : Nat) : VX :=
  ⟨BitVec.ofNat 3 (fld w 33 3), BitVec.ofNat 9 (fld w 24 9), BitVec.ofNat 9 (fld w 15 9), BitVec.ofNat 15 (fld w 0 15)⟩

/-- The fields of VM (R48). -/
def decVM (w : Nat) : VM :=
  ⟨BitVec.ofNat 3 (fld w 33 3), BitVec.ofNat 9 (fld w 24 9), BitVec.ofNat 15 (fld w 9 15), BitVec.ofNat 6 (fld w 3 6)⟩

/-- The fields of MA (R50). -/
def decMA (w : Nat) : MA :=
  ⟨BitVec.ofNat 6 (fld w 30 6), BitVec.ofNat 6 (fld w 24 6), bitOf w 23, bitOf w 22, BitVec.ofNat 5 (fld w 17 5), bitOf w 16, BitVec.ofNat 16 (fld w 0 16)⟩

/-- The fields of MT (R50). -/
def decMT (w : Nat) : MT :=
  ⟨BitVec.ofNat 12 (fld w 24 12), BitVec.ofNat 16 (fld w 8 16), BitVec.ofNat 5 (fld w 3 5), bitOf w 2, bitOf w 1⟩

/-- The fields of MC (R50). -/
def decMC (w : Nat) : MC :=
  ⟨BitVec.ofNat 4 (fld w 32 4), BitVec.ofNat 15 (fld w 17 15), BitVec.ofNat 17 (fld w 0 17)⟩

/-- The fields of CD (R51). -/
def decCD (w : Nat) : CD :=
  ⟨BitVec.ofNat 15 (fld w 21 15), BitVec.ofNat 5 (fld w 16 5), BitVec.ofNat 5 (fld w 11 5), bitOf w 10, BitVec.ofNat 10 (fld w 0 10)⟩

/-- The fields of CK (R51). -/
def decCK (w : Nat) : CK :=
  ⟨BitVec.ofNat 5 (fld w 31 5), BitVec.ofNat 31 (fld w 0 31)⟩

/-- The fields of AQ (R52). -/
def decAQ (w : Nat) : AQ :=
  ⟨BitVec.ofNat 3 (fld w 33 3), BitVec.ofNat 15 (fld w 18 15), BitVec.ofNat 18 (fld w 0 18)⟩

/-- The fields of AR (R52). -/
def decAR (w : Nat) : AR :=
  ⟨BitVec.ofNat 3 (fld w 33 3), BitVec.ofNat 15 (fld w 18 15), BitVec.ofNat 6 (fld w 12 6), BitVec.ofNat 8 (fld w 4 8)⟩

/-- The fields of AX (R52). -/
def decAX (w : Nat) : AX :=
  ⟨BitVec.ofNat 16 (fld w 20 16), BitVec.ofNat 2 (fld w 18 2), BitVec.ofNat 15 (fld w 3 15)⟩

/-- The fields of Stages (R43). -/
def decStages (w : Nat) : Stages :=
  ⟨BitVec.ofNat 3 (fld w 48 3), BitVec.ofNat 6 (fld w 0 6), BitVec.ofNat 6 (fld w 6 6), BitVec.ofNat 6 (fld w 12 6), BitVec.ofNat 6 (fld w 18 6), BitVec.ofNat 6 (fld w 24 6), BitVec.ofNat 6 (fld w 30 6), BitVec.ofNat 6 (fld w 36 6), BitVec.ofNat 6 (fld w 42 6)⟩

/-- The instruction an opcode of the sequencer stream selects (R53); a reserved sub-selector falls to the first form, whose checks refuse it. -/
def decSeqOp (op w w2 : Nat) : Option Instr :=
  match op with
  | 0x00 => some (.add (decS3 w))
  | 0x01 => some (.sub (decS3 w))
  | 0x02 => some (.mul (decS3 w))
  | 0x03 => some (.mulh (decS3 w))
  | 0x04 => some (.mulhu (decS3 w))
  | 0x05 => some (.div (decS3 w))
  | 0x06 => some (.divu (decS3 w))
  | 0x07 => some (.rem (decS3 w))
  | 0x08 => some (.remu (decS3 w))
  | 0x09 => some (.and (decS3 w))
  | 0x0A => some (.or (decS3 w))
  | 0x0B => some (.xor (decS3 w))
  | 0x0C => some (.shl (decS3 w))
  | 0x0D => some (.shr (decS3 w))
  | 0x0E => some (.sar (decS3 w))
  | 0x0F => some (.rol (decS3 w))
  | 0x10 => some (.min (decS3 w))
  | 0x11 => some (.max (decS3 w))
  | 0x12 => some (.minu (decS3 w))
  | 0x13 => some (.maxu (decS3 w))
  | 0x14 => some (.clz (decS3 w))
  | 0x15 => some (.popc (decS3 w))
  | 0x16 => some (.lea (decSI w))
  | 0x17 => some (.li (decSL w))
  | 0x18 => some (.lis (decSL w))
  | 0x20 => some (.cmp (decS3 w))
  | 0x21 => some (.pand (decS3 w))
  | 0x22 => some (.por (decS3 w))
  | 0x23 => some (.pxor (decS3 w))
  | 0x24 => some (.pnot (decS3 w))
  | 0x25 => some (.sel (decS3 w))
  | 0x26 =>
    match fld w 0 17 with
    | 1 => some (.pmovWr (decS3 w))
    | 2 => some (.pmovSt (decS3 w))
    | _ => some (.pmovRd (decS3 w))
  | 0x28 => some (.fadd (decS3 w))
  | 0x29 => some (.fsub (decS3 w))
  | 0x2A => some (.fmul (decS3 w))
  | 0x2B => some (.fma (decS3 w))
  | 0x2C => some (.fcmp (decS3 w))
  | 0x2D => some (.fcvt (decS3 w))
  | 0x2E => some (.fmin (decS3 w))
  | 0x2F => some (.fmax (decS3 w))
  | 0x30 => some (.br (decSB w))
  | 0x31 => some (.jmp (decS3 w))
  | 0x32 => some (.call (decSB w))
  | 0x33 => some (.ret)
  | 0x34 => some (.loop (decSI w) (decStages w2))
  | 0x35 => some (.loopx (decSI w))
  | 0x36 => some (.trap (decSI w))
  | 0x37 => some (.uiret)
  | 0x38 => some (.waiti)
  | 0x3A => some (.nop)
  | 0x3B => some (.bkpt (decSI w))
  | 0x40 => some (.ld (decSM w))
  | 0x41 => some (.lds (decSM w))
  | 0x42 => some (.st (decSM w))
  | 0x43 => some (.ldsp (decSM w))
  | 0x44 => some (.stsp (decSM w))
  | 0x45 => some (.atom (decS3 w))
  | 0x46 => some (.acas (decS3 w))
  | 0x47 => some (.fence (decSI w))
  | 0x48 => some (.taglk (decS3 w))
  | 0x49 => some (.tagset (decS3 w))
  | 0x4A =>
    match fld w 0 17 with
    | 1 => some (.tagclrAll (decS3 w))
    | _ => some (.tagclr (decS3 w))
  | 0x4B =>
    match fld w 22 2 with
    | 1 => some (.cinvWb (decSM w))
    | 2 => some (.cinvWbi (decSM w))
    | _ => some (.cinvL1 (decSM w))
  | 0x4C => some (.rsld (decSM w))
  | 0x4D => some (.rsst (decSM w))
  | 0x50 => some (.enq (decS3 w))
  | 0x51 => some (.rel (decSI w))
  | 0x52 =>
    match fld w 6 4 with
    | 1 => some (.ringsetDecl (decS3 w))
    | 2 => some (.ringsetProd (decS3 w))
    | 3 => some (.ringsetCons (decS3 w))
    | 4 => some (.ringsetOwn (decS3 w))
    | 5 => some (.ringsetReset (decS3 w))
    | _ => some (.ringsetCfg (decS3 w))
  | 0x53 => some (.ringget (decS3 w))
  | 0x54 =>
    match fld w 14 1 with
    | 1 => some (.semsigPeer (decSI w))
    | _ => some (.semsig (decSI w))
  | 0x55 => some (.semwait (decSI w))
  | 0x56 => some (.tlwait (decS3 w))
  | 0x57 => some (.tlread (decS3 w))
  | 0x58 => some (.lpatch (decS3 w))
  | 0x59 => some (.larm (decSI w))
  | 0x5A => some (.lstat (decS3 w))
  | 0x5B => some (.dphase (decSI w))
  | 0x5C => some (.setdom (decSI w))
  | 0x5D => some (.cstage (decSI w))
  | 0x5E => some (.cstat (decS3 w))
  | 0x60 => some (.tspawn (decS3 w))
  | 0x61 => some (.tspawnb (decS3 w))
  | 0x62 => some (.tcancel (decS3 w))
  | 0x63 => some (.treprio (decS3 w))
  | 0x64 => some (.tjoin (decS3 w))
  | 0x65 => some (.tdone)
  | 0x66 => some (.tyield)
  | 0x67 => some (.tquery (decS3 w))
  | 0x68 => some (.tself (decS3 w))
  | 0x69 => some (.region (decSI w))
  | 0x70 => some (.nalloc (decS3 w))
  | 0x71 => some (.nfree (decS3 w))
  | 0x72 => some (.nld (decS3 w))
  | 0x73 => some (.nst (decS3 w))
  | 0x74 => some (.nadd (decS3 w))
  | 0x75 => some (.ncas (decS3 w))
  | 0x76 => some (.nvloss (decS3 w))
  | 0x77 => some (.nbackup (decS3 w))
  | 0x78 => some (.nselect (decS3 w))
  | 0x79 => some (.nkey (decS3 w))
  | 0x7A => some (.nlink (decS3 w))
  | 0x7B => some (.bfcfg (decS3 w))
  | 0x7C => some (.bfstat (decS3 w))
  | 0x7D => some (.bfflush (decSI w))
  | 0x80 => some (.kvalloc (decS3 w))
  | 0x81 => some (.kvfree (decS3 w))
  | 0x82 => some (.kvlink (decS3 w))
  | 0x83 =>
    match fld w 0 1 with
    | 1 => some (.kvinvVal (decS3 w))
    | _ => some (.kvinvInv (decS3 w))
  | 0x84 => some (.kvpin (decS3 w))
  | 0x85 => some (.kvunpin (decS3 w))
  | 0x86 => some (.pfxhash (decS3 w))
  | 0x87 => some (.pfxlook (decS3 w))
  | 0x88 => some (.pfxins (decS3 w))
  | 0x89 =>
    match fld w 0 1 with
    | 1 => some (.pfxevictAll (decS3 w))
    | _ => some (.pfxevict (decS3 w))
  | 0x90 => some (.pmcfg (decS3 w))
  | 0x91 => some (.pmrd (decS3 w))
  | 0x92 => some (.pmclr (decS3 w))
  | 0x93 => some (.trmark (decSI w))
  | 0x94 =>
    match fld w 0 17 with
    | 1 => some (.trctlRd (decS3 w))
    | _ => some (.trctlWr (decS3 w))
  | 0x95 => some (.bcmsnap)
  | 0xA0 => some (.csrrd (decSI w))
  | 0xA1 => some (.csrwr (decSI w))
  | 0xA2 => some (.setview (decS3 w))
  | 0xA3 => some (.granclr (decS3 w))
  | 0xA4 =>
    match fld w 0 17 with
    | 1 => some (.timeClk (decS3 w))
    | _ => some (.timeDev (decS3 w))
  | 0xA5 => some (.syscall (decSI w))
  | 0xF0 => some (.pfx (decSP w))
  | _ => none

/-- The instruction an opcode of the vector stream selects (R53); a reserved sub-selector falls to the first form, whose checks refuse it. -/
def decVecOp (op w : Nat) : Option Instr :=
  match op with
  | 0x00 => some (.vadd (decVR w))
  | 0x01 => some (.vsub (decVR w))
  | 0x02 => some (.vmul (decVR w))
  | 0x03 => some (.vfma (decVR w))
  | 0x04 => some (.vmin (decVR w))
  | 0x05 => some (.vmax (decVR w))
  | 0x06 => some (.vabs (decVR w))
  | 0x07 => some (.vneg (decVR w))
  | 0x08 => some (.vcmp (decVR w))
  | 0x09 => some (.vsel (decVR w))
  | 0x0A => some (.vclamp (decVR w))
  | 0x10 => some (.viadd (decVR w))
  | 0x11 => some (.visub (decVR w))
  | 0x12 => some (.vimul (decVR w))
  | 0x13 => some (.vimin (decVR w))
  | 0x14 => some (.vimax (decVR w))
  | 0x15 => some (.viminu (decVR w))
  | 0x16 => some (.vimaxu (decVR w))
  | 0x17 => some (.vicmp (decVR w))
  | 0x18 => some (.vsadd (decVR w))
  | 0x19 => some (.vssub (decVR w))
  | 0x1A => some (.vmulsh (decVR w))
  | 0x20 => some (.vand (decVR w))
  | 0x21 => some (.vor (decVR w))
  | 0x22 => some (.vxor (decVR w))
  | 0x23 => some (.vshl (decVR w))
  | 0x24 => some (.vshr (decVR w))
  | 0x25 => some (.vsar (decVR w))
  | 0x26 => some (.vpopc (decVR w))
  | 0x30 => some (.vcvt (decVR w))
  | 0x31 => some (.vqnt (decVR w))
  | 0x32 => some (.vdqnt (decVR w))
  | 0x40 => some (.vpermb (decVR w))
  | 0x41 => some (.vnib (decVR w))
  | 0x42 => some (.vbcast (decVX w))
  | 0x43 => some (.vshuf (decVR w))
  | 0x44 => some (.vcomp (decVR w))
  | 0x45 => some (.viota (decVX w))
  | 0x50 => some (.vrsum (decVR w))
  | 0x51 => some (.vrmax (decVR w))
  | 0x52 => some (.vrmin (decVR w))
  | 0x53 => some (.vrargmax (decVR w))
  | 0x54 => some (.vscan (decVR w))
  | 0x55 => some (.vmaskb (decVR w))
  | 0x60 => some (.vexp2 (decVR w))
  | 0x61 => some (.vlog2 (decVR w))
  | 0x62 => some (.vrcp (decVR w))
  | 0x63 => some (.vrsq (decVR w))
  | 0x64 => some (.verf (decVR w))
  | 0x65 => some (.vtanh (decVR w))
  | 0x66 => some (.vsigm (decVR w))
  | 0x70 => some (.vld (decVM w))
  | 0x71 => some (.vst (decVM w))
  | 0x72 => some (.vldr (decVX w))
  | 0x73 => some (.vstr (decVX w))
  | 0x74 => some (.vgath (decVR w))
  | 0x75 => some (.vscat (decVR w))
  | 0x76 => some (.vzero (decVM w))
  | 0x77 => some (.vmov (decVR w))
  | 0x80 => some (.madd (decVR w))
  | 0x81 => some (.msub (decVR w))
  | 0x82 => some (.mmul (decVR w))
  | 0x83 => some (.mscl (decVR w))
  | 0x84 => some (.maff (decVR w))
  | 0x85 => some (.mfrom (decVR w))
  | 0x86 => some (.msplit (decVR w))
  | 0x87 => some (.mcol (decVR w))
  | 0x88 => some (.mchk (decVR w))
  | 0x90 => some (.mrelu (decVR w))
  | 0x91 => some (.msigm (decVR w))
  | 0x92 => some (.mexp (decVR w))
  | 0x93 => some (.mtanh (decVR w))
  | 0x94 => some (.mmax2 (decVR w))
  | _ => none

/-- The instruction an opcode of the matrix stream selects (R53); a reserved sub-selector falls to the first form, whose checks refuse it. -/
def decMtxOp (op w : Nat) : Option Instr :=
  match op with
  | 0x00 => some (.mlease (decMC w))
  | 0x01 => some (.mfree)
  | 0x02 => some (.mcfg (decMC w))
  | 0x10 => some (.mbld (decMT w))
  | 0x11 => some (.mbcsr (decMT w))
  | 0x12 => some (.mbsq)
  | 0x13 => some (.mbswap)
  | 0x20 => some (.mstr (decMA w))
  | 0x21 => some (.mstrm (decMA w))
  | 0x22 => some (.maccld (decMA w))
  | 0x23 => some (.mzero (decMA w))
  | 0x30 => some (.mdrain (decMA w))
  | 0x31 => some (.mepi (decMC w))
  | 0x32 => some (.mheaprd (decMC w))
  | 0x33 => some (.mheapclr (decMC w))
  | 0x40 => some (.msave (decMT w))
  | 0x41 =>
    match fld w 16 1 with
    | 0 => some (.mchainClose)
    | _ => some (.mchainOpen (decMC w))
  | _ => none

/-- The instruction an opcode of the copy stream selects (R53); a reserved sub-selector falls to the first form, whose checks refuse it. -/
def decCopyOp (op w : Nat) : Option Instr :=
  match op with
  | 0x00 => some (.ccopy (decCD w))
  | 0x01 => some (.cfill (decCD w))
  | 0x02 => some (.cmcast (decCD w))
  | 0x03 => some (.cplace (decCD w))
  | 0x10 => some (.csched (decCD w))
  | 0x11 => some (.cstop)
  | 0x20 => some (.cbarset (decCK w))
  | 0x21 =>
    match fld w 15 1 with
    | 1 => some (.cchanOff (decCK w))
    | _ => some (.cchan (decCK w))
  | _ => none

/-- The instruction an opcode of the access-core stream selects (R53); a reserved sub-selector falls to the first form, whose checks refuse it. -/
def decAccOp (op w : Nat) : Option Instr :=
  match op with
  | 0x00 => some (.aqld (decAQ w))
  | 0x01 => some (.aqcfg (decAQ w))
  | 0x02 => some (.aqstop (decAQ w))
  | 0x10 => some (.rld (decAR w))
  | 0x11 => some (.rst (decAR w))
  | 0x12 => some (.ratom (decAR w))
  | 0x13 => some (.rcas (decAR w))
  | 0x14 => some (.rmcst (decAR w))
  | 0x20 => some (.xsend (decAX w))
  | 0x21 => some (.xpost (decAX w))
  | 0x22 =>
    match fld w 18 2 with
    | 1 => some (.xcancelRecv (decAX w))
    | _ => some (.xcancel (decAX w))
  | 0x23 => some (.xresume (decAX w))
  | 0x30 => some (.rfence (decAR w))
  | _ => none

/-- The instruction an opcode selects in a stream (R53). -/
def decOp (s : Stream) (op w w2 : Nat) : Option Instr :=
  match s with
  | .seq => decSeqOp op w w2
  | .vec => decVecOp op w
  | .mtx => decMtxOp op w
  | .copy => decCopyOp op w
  | .acc => decAccOp op w

/-- The operand bits of S3. -/
def S3.bits (f : S3) : Nat :=
  f.rd.toNat * 2 ^ 30 + f.ra.toNat * 2 ^ 24 + f.rb.toNat * 2 ^ 18 + b2n f.i * 2 ^ 17 + f.funct.toNat

/-- The operand bits of SI. -/
def SI.bits (f : SI) : Nat :=
  f.rd.toNat * 2 ^ 30 + f.ra.toNat * 2 ^ 24 + f.imm.toNat

/-- The operand bits of SL. -/
def SL.bits (f : SL) : Nat :=
  f.rd.toNat * 2 ^ 30 + f.imm.toNat

/-- The operand bits of SB. -/
def SB.bits (f : SB) : Nat :=
  f.pred.toNat * 2 ^ 33 + b2n f.n * 2 ^ 32 + f.off.toNat

/-- The operand bits of SM. -/
def SM.bits (f : SM) : Nat :=
  f.r.toNat * 2 ^ 30 + f.base.toNat * 2 ^ 24 + f.size.toNat * 2 ^ 22 + f.off.toNat

/-- The operand bits of SP. -/
def SP.bits (f : SP) : Nat :=
  f.ord.toNat * 2 ^ 34 + f.scope.toNat * 2 ^ 31 + f.space.toNat * 2 ^ 28 + f.cache.toNat * 2 ^ 26 + b2n f.dw * 2 ^ 25 + f.ovr.toNat * 2 ^ 20 + f.pkg.toNat * 2 ^ 13

/-- The operand bits of VR. -/
def VR.bits (f : VR) : Nat :=
  f.ty.toNat * 2 ^ 33 + f.vd.toNat * 2 ^ 24 + f.va.toNat * 2 ^ 15 + f.vb.toNat * 2 ^ 6 + b2n f.la * 2 ^ 5 + b2n f.lb * 2 ^ 4 + f.funct.toNat

/-- The operand bits of VX. -/
def VX.bits (f : VX) : Nat :=
  f.ty.toNat * 2 ^ 33 + f.vd.toNat * 2 ^ 24 + f.va.toNat * 2 ^ 15 + f.imm.toNat

/-- The operand bits of VM. -/
def VM.bits (f : VM) : Nat :=
  f.ty.toNat * 2 ^ 33 + f.vd.toNat * 2 ^ 24 + f.gran.toNat * 2 ^ 9 + f.cnt.toNat * 2 ^ 3

/-- The operand bits of MA. -/
def MA.bits (f : MA) : Nat :=
  f.arow.toNat * 2 ^ 30 + f.nrow.toNat * 2 ^ 24 + b2n f.h * 2 ^ 23 + b2n f.s * 2 ^ 22 + f.src.toNat * 2 ^ 17 + b2n f.a * 2 ^ 16 + f.funct.toNat

/-- The operand bits of MT. -/
def MT.bits (f : MT) : Nat :=
  f.tid.toNat * 2 ^ 24 + f.tile.toNat * 2 ^ 8 + f.ring.toNat * 2 ^ 3 + b2n f.s * 2 ^ 2 + b2n f.pl * 2 ^ 1

/-- The operand bits of MC. -/
def MC.bits (f : MC) : Nat :=
  f.cls.toNat * 2 ^ 32 + f.gran.toNat * 2 ^ 17 + f.imm.toNat

/-- The operand bits of CD. -/
def CD.bits (f : CD) : Nat :=
  f.gran.toNat * 2 ^ 21 + f.ch.toNat * 2 ^ 16 + f.bar.toNat * 2 ^ 11 + b2n f.be * 2 ^ 10 + f.funct.toNat

/-- The operand bits of CK. -/
def CK.bits (f : CK) : Nat :=
  f.idx.toNat * 2 ^ 31 + f.imm.toNat

/-- The operand bits of AQ. -/
def AQ.bits (f : AQ) : Nat :=
  f.oq.toNat * 2 ^ 33 + f.gran.toNat * 2 ^ 18 + f.imm.toNat

/-- The operand bits of AR. -/
def AR.bits (f : AR) : Nat :=
  f.oq.toNat * 2 ^ 33 + f.gran.toNat * 2 ^ 18 + f.cnt.toNat * 2 ^ 12 + f.funct.toNat * 2 ^ 4

/-- The operand bits of AX. -/
def AX.bits (f : AX) : Nat :=
  f.mid.toNat * 2 ^ 20 + f.pc.toNat * 2 ^ 18 + f.gran.toNat * 2 ^ 3

/-- The operand bits of Stages. -/
def Stages.bits (f : Stages) : Nat :=
  f.ns1.toNat * 2 ^ 48 + f.b0.toNat + f.b1.toNat * 2 ^ 6 + f.b2.toNat * 2 ^ 12 + f.b3.toNat * 2 ^ 18 + f.b4.toNat * 2 ^ 24 + f.b5.toNat * 2 ^ 30 + f.b6.toNat * 2 ^ 36 + f.b7.toNat * 2 ^ 42

/-- The wait byte of a word. -/
def WaitC.byte : WaitC → Nat
  | .none => 0
  | .sem n => 64 + n.toNat
  | .bar n => 128 + n.toNat
  | .ring n => 192 + n.toNat

/-- The signal byte of a word. -/
def SignalC.byte : SignalC → Nat
  | .none => 0
  | .sem n => 64 + n.toNat
  | .ui n => 128 + n.toNat
  | .bar n => 192 + n.toNat

/-- What the encoding tables give an instruction word: its stream, its opcode and its operand bits. A hardware step
has none. -/
def Instr.row : Instr → Option (Stream × Nat × Nat)
  | .add f => some (.seq, 0x00, f.bits)
  | .sub f => some (.seq, 0x01, f.bits)
  | .mul f => some (.seq, 0x02, f.bits)
  | .mulh f => some (.seq, 0x03, f.bits)
  | .mulhu f => some (.seq, 0x04, f.bits)
  | .div f => some (.seq, 0x05, f.bits)
  | .divu f => some (.seq, 0x06, f.bits)
  | .rem f => some (.seq, 0x07, f.bits)
  | .remu f => some (.seq, 0x08, f.bits)
  | .and f => some (.seq, 0x09, f.bits)
  | .or f => some (.seq, 0x0A, f.bits)
  | .xor f => some (.seq, 0x0B, f.bits)
  | .shl f => some (.seq, 0x0C, f.bits)
  | .shr f => some (.seq, 0x0D, f.bits)
  | .sar f => some (.seq, 0x0E, f.bits)
  | .rol f => some (.seq, 0x0F, f.bits)
  | .min f => some (.seq, 0x10, f.bits)
  | .max f => some (.seq, 0x11, f.bits)
  | .minu f => some (.seq, 0x12, f.bits)
  | .maxu f => some (.seq, 0x13, f.bits)
  | .clz f => some (.seq, 0x14, f.bits)
  | .popc f => some (.seq, 0x15, f.bits)
  | .lea f => some (.seq, 0x16, f.bits)
  | .li f => some (.seq, 0x17, f.bits)
  | .lis f => some (.seq, 0x18, f.bits)
  | .cmp f => some (.seq, 0x20, f.bits)
  | .pand f => some (.seq, 0x21, f.bits)
  | .por f => some (.seq, 0x22, f.bits)
  | .pxor f => some (.seq, 0x23, f.bits)
  | .pnot f => some (.seq, 0x24, f.bits)
  | .sel f => some (.seq, 0x25, f.bits)
  | .pmovRd f => some (.seq, 0x26, f.bits)
  | .pmovWr f => some (.seq, 0x26, f.bits)
  | .pmovSt f => some (.seq, 0x26, f.bits)
  | .fadd f => some (.seq, 0x28, f.bits)
  | .fsub f => some (.seq, 0x29, f.bits)
  | .fmul f => some (.seq, 0x2A, f.bits)
  | .fma f => some (.seq, 0x2B, f.bits)
  | .fcmp f => some (.seq, 0x2C, f.bits)
  | .fcvt f => some (.seq, 0x2D, f.bits)
  | .fmin f => some (.seq, 0x2E, f.bits)
  | .fmax f => some (.seq, 0x2F, f.bits)
  | .br f => some (.seq, 0x30, f.bits)
  | .jmp f => some (.seq, 0x31, f.bits)
  | .call f => some (.seq, 0x32, f.bits)
  | .ret => some (.seq, 0x33, 0)
  | .loop f _ => some (.seq, 0x34, f.bits)
  | .loopx f => some (.seq, 0x35, f.bits)
  | .trap f => some (.seq, 0x36, f.bits)
  | .uiret => some (.seq, 0x37, 0)
  | .waiti => some (.seq, 0x38, 0)
  | .nop => some (.seq, 0x3A, 0)
  | .bkpt f => some (.seq, 0x3B, f.bits)
  | .ld f => some (.seq, 0x40, f.bits)
  | .lds f => some (.seq, 0x41, f.bits)
  | .st f => some (.seq, 0x42, f.bits)
  | .ldsp f => some (.seq, 0x43, f.bits)
  | .stsp f => some (.seq, 0x44, f.bits)
  | .atom f => some (.seq, 0x45, f.bits)
  | .acas f => some (.seq, 0x46, f.bits)
  | .fence f => some (.seq, 0x47, f.bits)
  | .taglk f => some (.seq, 0x48, f.bits)
  | .tagset f => some (.seq, 0x49, f.bits)
  | .tagclr f => some (.seq, 0x4A, f.bits)
  | .tagclrAll f => some (.seq, 0x4A, f.bits)
  | .cinvL1 f => some (.seq, 0x4B, f.bits)
  | .cinvWb f => some (.seq, 0x4B, f.bits)
  | .cinvWbi f => some (.seq, 0x4B, f.bits)
  | .rsld f => some (.seq, 0x4C, f.bits)
  | .rsst f => some (.seq, 0x4D, f.bits)
  | .pfx f => some (.seq, 0xF0, f.bits)
  | .enq f => some (.seq, 0x50, f.bits)
  | .rel f => some (.seq, 0x51, f.bits)
  | .ringsetCfg f => some (.seq, 0x52, f.bits)
  | .ringsetDecl f => some (.seq, 0x52, f.bits)
  | .ringsetProd f => some (.seq, 0x52, f.bits)
  | .ringsetCons f => some (.seq, 0x52, f.bits)
  | .ringsetOwn f => some (.seq, 0x52, f.bits)
  | .ringsetReset f => some (.seq, 0x52, f.bits)
  | .ringget f => some (.seq, 0x53, f.bits)
  | .semsig f => some (.seq, 0x54, f.bits)
  | .semsigPeer f => some (.seq, 0x54, f.bits)
  | .semwait f => some (.seq, 0x55, f.bits)
  | .tlwait f => some (.seq, 0x56, f.bits)
  | .tlread f => some (.seq, 0x57, f.bits)
  | .lpatch f => some (.seq, 0x58, f.bits)
  | .larm f => some (.seq, 0x59, f.bits)
  | .lstat f => some (.seq, 0x5A, f.bits)
  | .dphase f => some (.seq, 0x5B, f.bits)
  | .setdom f => some (.seq, 0x5C, f.bits)
  | .cstage f => some (.seq, 0x5D, f.bits)
  | .cstat f => some (.seq, 0x5E, f.bits)
  | .tspawn f => some (.seq, 0x60, f.bits)
  | .tspawnb f => some (.seq, 0x61, f.bits)
  | .tcancel f => some (.seq, 0x62, f.bits)
  | .treprio f => some (.seq, 0x63, f.bits)
  | .tjoin f => some (.seq, 0x64, f.bits)
  | .tdone => some (.seq, 0x65, 0)
  | .tyield => some (.seq, 0x66, 0)
  | .tquery f => some (.seq, 0x67, f.bits)
  | .tself f => some (.seq, 0x68, f.bits)
  | .region f => some (.seq, 0x69, f.bits)
  | .nalloc f => some (.seq, 0x70, f.bits)
  | .nfree f => some (.seq, 0x71, f.bits)
  | .nld f => some (.seq, 0x72, f.bits)
  | .nst f => some (.seq, 0x73, f.bits)
  | .nadd f => some (.seq, 0x74, f.bits)
  | .ncas f => some (.seq, 0x75, f.bits)
  | .nvloss f => some (.seq, 0x76, f.bits)
  | .nbackup f => some (.seq, 0x77, f.bits)
  | .nselect f => some (.seq, 0x78, f.bits)
  | .nkey f => some (.seq, 0x79, f.bits)
  | .nlink f => some (.seq, 0x7A, f.bits)
  | .bfcfg f => some (.seq, 0x7B, f.bits)
  | .bfstat f => some (.seq, 0x7C, f.bits)
  | .bfflush f => some (.seq, 0x7D, f.bits)
  | .kvalloc f => some (.seq, 0x80, f.bits)
  | .kvfree f => some (.seq, 0x81, f.bits)
  | .kvlink f => some (.seq, 0x82, f.bits)
  | .kvinvInv f => some (.seq, 0x83, f.bits)
  | .kvinvVal f => some (.seq, 0x83, f.bits)
  | .kvpin f => some (.seq, 0x84, f.bits)
  | .kvunpin f => some (.seq, 0x85, f.bits)
  | .pfxhash f => some (.seq, 0x86, f.bits)
  | .pfxlook f => some (.seq, 0x87, f.bits)
  | .pfxins f => some (.seq, 0x88, f.bits)
  | .pfxevict f => some (.seq, 0x89, f.bits)
  | .pfxevictAll f => some (.seq, 0x89, f.bits)
  | .pmcfg f => some (.seq, 0x90, f.bits)
  | .pmrd f => some (.seq, 0x91, f.bits)
  | .pmclr f => some (.seq, 0x92, f.bits)
  | .trmark f => some (.seq, 0x93, f.bits)
  | .trctlWr f => some (.seq, 0x94, f.bits)
  | .trctlRd f => some (.seq, 0x94, f.bits)
  | .bcmsnap => some (.seq, 0x95, 0)
  | .csrrd f => some (.seq, 0xA0, f.bits)
  | .csrwr f => some (.seq, 0xA1, f.bits)
  | .setview f => some (.seq, 0xA2, f.bits)
  | .granclr f => some (.seq, 0xA3, f.bits)
  | .timeDev f => some (.seq, 0xA4, f.bits)
  | .timeClk f => some (.seq, 0xA4, f.bits)
  | .syscall f => some (.seq, 0xA5, f.bits)
  | .vadd f => some (.vec, 0x00, f.bits)
  | .vsub f => some (.vec, 0x01, f.bits)
  | .vmul f => some (.vec, 0x02, f.bits)
  | .vfma f => some (.vec, 0x03, f.bits)
  | .vmin f => some (.vec, 0x04, f.bits)
  | .vmax f => some (.vec, 0x05, f.bits)
  | .vabs f => some (.vec, 0x06, f.bits)
  | .vneg f => some (.vec, 0x07, f.bits)
  | .vcmp f => some (.vec, 0x08, f.bits)
  | .vsel f => some (.vec, 0x09, f.bits)
  | .vclamp f => some (.vec, 0x0A, f.bits)
  | .viadd f => some (.vec, 0x10, f.bits)
  | .visub f => some (.vec, 0x11, f.bits)
  | .vimul f => some (.vec, 0x12, f.bits)
  | .vimin f => some (.vec, 0x13, f.bits)
  | .vimax f => some (.vec, 0x14, f.bits)
  | .viminu f => some (.vec, 0x15, f.bits)
  | .vimaxu f => some (.vec, 0x16, f.bits)
  | .vicmp f => some (.vec, 0x17, f.bits)
  | .vsadd f => some (.vec, 0x18, f.bits)
  | .vssub f => some (.vec, 0x19, f.bits)
  | .vmulsh f => some (.vec, 0x1A, f.bits)
  | .vand f => some (.vec, 0x20, f.bits)
  | .vor f => some (.vec, 0x21, f.bits)
  | .vxor f => some (.vec, 0x22, f.bits)
  | .vshl f => some (.vec, 0x23, f.bits)
  | .vshr f => some (.vec, 0x24, f.bits)
  | .vsar f => some (.vec, 0x25, f.bits)
  | .vpopc f => some (.vec, 0x26, f.bits)
  | .vcvt f => some (.vec, 0x30, f.bits)
  | .vqnt f => some (.vec, 0x31, f.bits)
  | .vdqnt f => some (.vec, 0x32, f.bits)
  | .vpermb f => some (.vec, 0x40, f.bits)
  | .vnib f => some (.vec, 0x41, f.bits)
  | .vbcast f => some (.vec, 0x42, f.bits)
  | .vshuf f => some (.vec, 0x43, f.bits)
  | .vcomp f => some (.vec, 0x44, f.bits)
  | .viota f => some (.vec, 0x45, f.bits)
  | .vrsum f => some (.vec, 0x50, f.bits)
  | .vrmax f => some (.vec, 0x51, f.bits)
  | .vrmin f => some (.vec, 0x52, f.bits)
  | .vrargmax f => some (.vec, 0x53, f.bits)
  | .vscan f => some (.vec, 0x54, f.bits)
  | .vmaskb f => some (.vec, 0x55, f.bits)
  | .vexp2 f => some (.vec, 0x60, f.bits)
  | .vlog2 f => some (.vec, 0x61, f.bits)
  | .vrcp f => some (.vec, 0x62, f.bits)
  | .vrsq f => some (.vec, 0x63, f.bits)
  | .verf f => some (.vec, 0x64, f.bits)
  | .vtanh f => some (.vec, 0x65, f.bits)
  | .vsigm f => some (.vec, 0x66, f.bits)
  | .vld f => some (.vec, 0x70, f.bits)
  | .vst f => some (.vec, 0x71, f.bits)
  | .vldr f => some (.vec, 0x72, f.bits)
  | .vstr f => some (.vec, 0x73, f.bits)
  | .vgath f => some (.vec, 0x74, f.bits)
  | .vscat f => some (.vec, 0x75, f.bits)
  | .vzero f => some (.vec, 0x76, f.bits)
  | .vmov f => some (.vec, 0x77, f.bits)
  | .madd f => some (.vec, 0x80, f.bits)
  | .msub f => some (.vec, 0x81, f.bits)
  | .mmul f => some (.vec, 0x82, f.bits)
  | .mscl f => some (.vec, 0x83, f.bits)
  | .maff f => some (.vec, 0x84, f.bits)
  | .mfrom f => some (.vec, 0x85, f.bits)
  | .msplit f => some (.vec, 0x86, f.bits)
  | .mcol f => some (.vec, 0x87, f.bits)
  | .mchk f => some (.vec, 0x88, f.bits)
  | .mrelu f => some (.vec, 0x90, f.bits)
  | .msigm f => some (.vec, 0x91, f.bits)
  | .mexp f => some (.vec, 0x92, f.bits)
  | .mtanh f => some (.vec, 0x93, f.bits)
  | .mmax2 f => some (.vec, 0x94, f.bits)
  | .mlease f => some (.mtx, 0x00, f.bits)
  | .mfree => some (.mtx, 0x01, 0)
  | .mcfg f => some (.mtx, 0x02, f.bits)
  | .mbld f => some (.mtx, 0x10, f.bits)
  | .mbcsr f => some (.mtx, 0x11, f.bits)
  | .mbsq => some (.mtx, 0x12, 0)
  | .mbswap => some (.mtx, 0x13, 0)
  | .mstr f => some (.mtx, 0x20, f.bits)
  | .mstrm f => some (.mtx, 0x21, f.bits)
  | .maccld f => some (.mtx, 0x22, f.bits)
  | .mzero f => some (.mtx, 0x23, f.bits)
  | .mdrain f => some (.mtx, 0x30, f.bits)
  | .mepi f => some (.mtx, 0x31, f.bits)
  | .mheaprd f => some (.mtx, 0x32, f.bits)
  | .mheapclr f => some (.mtx, 0x33, f.bits)
  | .msave f => some (.mtx, 0x40, f.bits)
  | .mchainOpen f => some (.mtx, 0x41, f.bits)
  | .mchainClose => some (.mtx, 0x41, 0)
  | .ccopy f => some (.copy, 0x00, f.bits)
  | .cfill f => some (.copy, 0x01, f.bits)
  | .cmcast f => some (.copy, 0x02, f.bits)
  | .cplace f => some (.copy, 0x03, f.bits)
  | .csched f => some (.copy, 0x10, f.bits)
  | .cstop => some (.copy, 0x11, 0)
  | .cbarset f => some (.copy, 0x20, f.bits)
  | .cchan f => some (.copy, 0x21, f.bits)
  | .cchanOff f => some (.copy, 0x21, f.bits)
  | .aqld f => some (.acc, 0x00, f.bits)
  | .aqcfg f => some (.acc, 0x01, f.bits)
  | .aqstop f => some (.acc, 0x02, f.bits)
  | .rld f => some (.acc, 0x10, f.bits)
  | .rst f => some (.acc, 0x11, f.bits)
  | .ratom f => some (.acc, 0x12, f.bits)
  | .rcas f => some (.acc, 0x13, f.bits)
  | .rmcst f => some (.acc, 0x14, f.bits)
  | .xsend f => some (.acc, 0x20, f.bits)
  | .xpost f => some (.acc, 0x21, f.bits)
  | .xcancel f => some (.acc, 0x22, f.bits)
  | .xcancelRecv f => some (.acc, 0x22, f.bits)
  | .xresume f => some (.acc, 0x23, f.bits)
  | .rfence f => some (.acc, 0x30, f.bits)
  | _ => none

/-- The raw stage word that follows LOOP (R43). -/
def Instr.stageWord : Instr → Option Nat
  | .loop _ sw => some sw.bits
  | _ => none

/-- The 64-bit word of an opcode, its control fields and its operand bits (R33). -/
def wordOf (op : Nat) (c : Ctl) (o : Nat) : Nat :=
  c.wait.byte * 2 ^ 56 + c.signal.byte * 2 ^ 48 + op * 2 ^ 40 + c.stall.toNat * 2 ^ 36 + o

/-- The control fields a word may have: a stall count belongs to the sequencer and vector streams only (R33). -/
def stallOk (s : Stream) (c : Ctl) : Bool := s == .seq || s == .vec || c.stall == 0

/-- PFX's wait, signal and stall fields must be zero (R44). -/
def pfxOk (c : Ctl) : Instr → Bool
  | .pfx _ => c.isZero
  | _ => true

/-- A well-formed word: the control fields its stream allows, and a well-formed instruction of that stream. -/
def wordWf (s : Stream) (c : Ctl) (i : Instr) : Bool :=
  stallOk s c && pfxOk c i && i.wf && (match i.row with | some r => r.1 == s | none => false)

/-- The words of an instruction with its control fields: its word and, for LOOP, the stage word. A hardware step has
no words. -/
def encode (c : Ctl) (i : Instr) : List Nat :=
  match i.row with
  | none => []
  | some (_, op, o) => wordOf op c o :: i.stageWord.toList

/-- The control fields of a word (R33), or the ILLEGAL subcause that refuses them: 5 index, before 4 stall count. -/
def decCtl (s : Stream) (w : Nat) : Except Nat Ctl :=
  match decWait (fld w 56 8), decSignal (fld w 48 8) with
  | some wt, some sg =>
    if stallOk s ⟨wt, sg, BitVec.ofNat 4 (fld w 36 4)⟩ then .ok ⟨wt, sg, BitVec.ofNat 4 (fld w 36 4)⟩ else .error 4
  | _, _ => .error 5

/-- The operand checks of R38 on a decoded instruction: 2 reserved field, before 3 field value. -/
def checkWord (c : Ctl) (i : Instr) (w w2 : Nat) : Except Nat (Ctl × Instr) :=
  match i.row with
  | none => .error 1
  | some (_, _, o) =>
    if o = fld w 0 36 ∧ i.stageWord.getD w2 = w2 ∧ i.reservedOk = true ∧ pfxOk c i = true then
      if i.valuesOk then .ok (c, i) else .error 3
    else .error 2

/-- The decoder: a word of a stream, and the word after it for LOOP, to its control fields and its instruction, or the
ILLEGAL subcause of R38 in the order R38 reports them: 1 opcode, 5 index, 4 stall count, 2 reserved field, 3 value. -/
def decode (s : Stream) (w w2 : Nat) : Except Nat (Ctl × Instr) :=
  match decOp s (fld w 40 8) w w2 with
  | none => .error 1
  | some i =>
    match decCtl s w with
    | .error e => .error e
    | .ok c => checkWord c i w w2

/-- The number of bytes an instruction's words take in its stream: 16 for LOOP with its stage word, else 8. -/
def Instr.len (i : Instr) : Nat := if i.stageWord.isSome then 16 else 8

/-- The stream a stream number names (frame offset 3, R130). -/
def Stream.ofNum : Nat → Stream
  | 0 => .seq
  | 1 => .vec
  | 2 => .mtx
  | 3 => .copy
  | _ => .acc

/-- The stream number of a stream (frame offset 3, R130). -/
def Stream.num : Stream → Nat
  | .seq => 0
  | .vec => 1
  | .mtx => 2
  | .copy => 3
  | .acc => 4

/-- The stream that a word of `nbits` bits is read in: a ninth byte, where the table gives one, numbers the stream;
without it the word is the sequencer's (DESIGN CHOICE: log entry 4). -/
def tableStream (nbits w : Nat) : Stream := if nbits = 72 then Stream.ofNum (fld w 64 8) else .seq

/-- The instruction the decoder reads from bits numbered as the opcode table numbers them: bits [63:0] are the
word, and for LOOP bits [127:64] are its stage word. -/
def decodeTableWord (nbits w : Nat) : Option Instr :=
  match decode (tableStream nbits w) (fld w 0 64) (if nbits = 72 then 0 else fld w 64 64) with
  | .ok r => some r.2
  | .error _ => none

end Sys2Proof
end

