-- ==== Sys2Proof/Config.lean ====
section
/-! DEFINITION. What the manual leaves open: free values, which nothing in Lean can evaluate. Each is applied to the
state's counter `tick`, which the step that uses it advances, or to the operands it depends on. -/

namespace Sys2Proof.Config

/-- Which agent moves next when the agenda is empty (log entry 6). -/
opaque freeTurn : Nat → Nat

/-- Any other choice the manual leaves open: the first argument says which choice, the second is the counter
(log entry 7). -/
opaque freeNat : Nat → Nat → Nat

/-- The hash by which a flow chooses its first hop and its port (R334), and the packages, as a bit mask, that the tables of other
packages forward a multicast group's packets to (R349): the manual gives neither (log entry 7). -/
opaque flowHash : Nat → Nat
opaque groupFar : Nat → Nat

/-- The package's serial number, and a measurement of an image in the log: the manual gives no values (log entry 8). -/
opaque serial : List Byte
opaque measure : List Byte → List Byte

/-- The signature of a report under the device's keys, and whether an image's signature verifies: the manual gives no
algorithm (log entry 8). -/
opaque sign : List Byte → List Byte
opaque verified : List Byte → Bool

end Sys2Proof.Config
end

