-- ==== Sys2Proof/Machine/Num.lean ====
section
/-! DEFINITION. Number formats and rounding (03_numbers): the floating-point element formats of R62 and E3M5,
exact extended reals, the three rounding modes of R73 and R74, the special-value rules of R63 to R65, and the
stochastic-rounding generator of R75. Every rounding returns the code of the result and the AFLAGS bits it raises. -/

namespace Sys2Proof

/-- A floating-point element format (R62), or E3M5 (R68), which has no sign, no infinity and no NaN. -/
structure Fmt where
  eb : Nat
  mb : Nat
  bias : Nat
  signed : Bool
  hasInf : Bool
  nan : Option Nat
  maxFin : Nat
  deriving DecidableEq, Repr

def fp32 : Fmt := ⟨8, 23, 127, true, true, some 0x7FC00000, 0x7F7FFFFF⟩
def bf16 : Fmt := ⟨8, 7, 127, true, true, some 0x7FC0, 0x7F7F⟩
def fp16 : Fmt := ⟨5, 10, 15, true, true, some 0x7E00, 0x7BFF⟩
def e4m3 : Fmt := ⟨4, 3, 7, true, false, some 0x7F, 0x7E⟩
def e5m2 : Fmt := ⟨5, 2, 15, true, true, some 0x7E, 0x7B⟩
def e2m1 : Fmt := ⟨2, 1, 1, true, false, none, 7⟩
def e3m5 : Fmt := ⟨3, 5, 3, false, false, none, 0xFF⟩

/-- The bits of one element of the format. -/
def Fmt.width (f : Fmt) : Nat := f.eb + f.mb + b2n f.signed

/-- The sign bit's weight. -/
def Fmt.signBit (f : Fmt) : Nat := 2 ^ (f.eb + f.mb)

/-- AFLAGS bits (R81). -/
def fNV : Nat := 1
def fDZ : Nat := 2
def fOF : Nat := 4
def fUF : Nat := 8
def fNX : Nat := 16
def fSAT : Nat := 32
def fSCL : Nat := 64

/-- Two sets of flags together. -/
def orF (a b : Nat) : Nat := a ||| b

/-- The kind of an exact extended real. -/
inductive XKind where
  | num | inf | nan
  deriving DecidableEq, Repr, Inhabited

/-- An exact extended real: (−1)^neg × m × 2^e for a number. `st` marks a value that lies strictly between
m × 2^e and (m + 1) × 2^e (a quotient or a root, cut below its needed bits). `nv` records that an invalid
operation or a signalling NaN was met on the way (R64). -/
structure XR where
  kind : XKind
  neg : Bool
  m : Nat
  e : Int
  st : Bool
  nv : Bool
  deriving DecidableEq, Repr, Inhabited

namespace XR

def zero : XR := ⟨.num, false, 0, 0, false, false⟩
def nan (nv : Bool) : XR := ⟨.nan, false, 0, 0, false, nv⟩
def inf (neg : Bool) : XR := ⟨.inf, neg, 0, 0, false, false⟩
def ofDy (x : Int) (e : Int) : XR := ⟨.num, x < 0, x.natAbs, e, false, false⟩
def ofInt (x : Int) : XR := ofDy x 0

def isZero (x : XR) : Bool := x.kind = .num && x.m = 0
def isNum (x : XR) : Bool := x.kind = .num
def isNan (x : XR) : Bool := x.kind = .nan
def isInf (x : XR) : Bool := x.kind = .inf

/-- The signed mantissa. -/
def sm (x : XR) : Int := if x.neg then -(x.m : Int) else x.m

def flip (x : XR) : XR := { x with neg := !x.neg }
def abs (x : XR) : XR := { x with neg := false }
def quiet (x : XR) : XR := { x with nv := false }
/-- x × 2^k. -/
def scale (x : XR) (k : Int) : XR := { x with e := x.e + k }

/-- The exact sum, with the sign of zero and the invalid case of IEEE 754 (R63). -/
def add (a b : XR) : XR :=
  let nv := a.nv || b.nv
  match a.kind, b.kind with
  | .nan, _ => nan nv
  | _, .nan => nan nv
  | .inf, .inf => if a.neg = b.neg then { inf a.neg with nv := nv } else nan true
  | .inf, .num => { inf a.neg with nv := nv }
  | .num, .inf => { inf b.neg with nv := nv }
  | .num, .num =>
    let e := min a.e b.e
    let s := a.sm * 2 ^ (a.e - e).toNat + b.sm * 2 ^ (b.e - e).toNat
    if s = 0 then ⟨.num, (a.isZero && b.isZero) && (a.neg && b.neg), 0, 0, false, nv⟩
    else ⟨.num, s < 0, s.natAbs, e, a.st || b.st, nv⟩

def sub (a b : XR) : XR := add a b.flip

/-- The exact product. -/
def mul (a b : XR) : XR :=
  let nv := a.nv || b.nv
  let neg := a.neg != b.neg
  match a.kind, b.kind with
  | .nan, .num => nan nv
  | .nan, _ => nan nv
  | _, .nan => nan nv
  | .inf, .inf => { inf neg with nv := nv }
  | .inf, .num => if b.m = 0 then nan true else { inf neg with nv := nv }
  | .num, .inf => if a.m = 0 then nan true else { inf neg with nv := nv }
  | .num, .num => ⟨.num, neg, a.m * b.m, a.e + b.e, false, nv⟩

/-- The quotient to about 100 bits, the rest in `st`; a zero divisor gives an infinity
(a NaN for 0/0). -/
def div (a b : XR) : XR :=
  let nv := a.nv || b.nv
  let neg := a.neg != b.neg
  match a.kind, b.kind with
  | .nan, _ => nan nv
  | _, .nan => nan nv
  | .inf, .inf => nan true
  | .inf, .num => { inf neg with nv := nv }
  | .num, .inf => ⟨.num, neg, 0, 0, false, nv⟩
  | .num, .num =>
    if b.m = 0 then (if a.m = 0 then nan true else { inf neg with nv := nv })
    else
      let k := 100 + bitLen b.m
      let n := a.m * 2 ^ k
      ⟨.num, neg, n / b.m, a.e - b.e - k, n % b.m != 0, nv⟩

/-- The integer square root, by bisection on bits; `fuel` is the number of result bits. -/
def isqrtAux (n : Nat) : Nat → Nat → Nat
  | 0, r => r
  | k + 1, r => let r' := r + 2 ^ k; isqrtAux n k (if r' * r' ≤ n then r' else r)

def isqrt (n : Nat) : Nat := isqrtAux n (bitLen n / 2 + 1) 0

/-- The square root to about 100 bits, the rest in `st`; invalid below zero (−0 gives −0). -/
def sqrt (a : XR) : XR :=
  match a.kind with
  | .nan => nan a.nv
  | .inf => if a.neg then nan true else { inf false with nv := a.nv }
  | .num =>
    if a.m = 0 then a
    else if a.neg then nan true
    else
      let odd := a.e % 2 != 0
      let m := if odd then a.m * 2 else a.m
      let e := if odd then a.e - 1 else a.e
      let n := m * 2 ^ 200
      let r := isqrt n
      ⟨.num, false, r, e / 2 - 100, r * r != n, a.nv⟩

/-- Compares two numbers: −1, 0 or 1 (signs of zero do not matter). -/
def cmp (a b : XR) : Int :=
  match a.kind, b.kind with
  | .inf, .inf => if a.neg = b.neg then 0 else if a.neg then -1 else 1
  | .inf, _ => if a.neg then -1 else 1
  | _, .inf => if b.neg then 1 else -1
  | _, _ =>
    let e := min a.e b.e
    let x := a.sm * 2 ^ (a.e - e).toNat
    let y := b.sm * 2 ^ (b.e - e).toNat
    if x < y then -1 else if x = y then 0 else 1

def lt (a b : XR) : Bool := cmp a b < 0
def le (a b : XR) : Bool := cmp a b ≤ 0

/-- floor(log2 |x|) of a nonzero number. -/
def log2 (a : XR) : Int := (Nat.log2 a.m : Int) + a.e

/-- floor of a number. -/
def floor (a : XR) : Int :=
  if 0 ≤ a.e then a.sm * 2 ^ a.e.toNat
  else a.sm.fdiv (2 ^ (-a.e).toNat : Nat)

end XR

/-- The exact value of a code (R62); a signalling NaN (fraction's top bit clear) sets `nv` (R64). -/
def Fmt.dec (f : Fmt) (code : Nat) : XR :=
  let c := code % 2 ^ f.width
  let neg := f.signed && c / f.signBit % 2 = 1
  let mag := c % f.signBit
  let e := mag / 2 ^ f.mb
  let fr := mag % 2 ^ f.mb
  if f.hasInf && e = 2 ^ f.eb - 1 then
    (if fr = 0 then XR.inf neg else XR.nan (fr / 2 ^ (f.mb - 1) = 0))
  else if f.nan.isSome && !f.hasInf && mag = 2 ^ (f.eb + f.mb) - 1 then XR.nan false
  else if e = 0 then ⟨.num, neg, fr, 1 - f.bias - f.mb, false, false⟩
  else ⟨.num, neg, fr + 2 ^ f.mb, (e : Int) - f.bias - f.mb, false, false⟩

/-- The rounding modes of R73. `sr` carries the random word of the element (R75). -/
inductive RMode where
  | rne | rtz | sr (rnd : Nat)
  deriving DecidableEq, Repr, Inhabited

/-- Whether a value whose kept part is `n` and whose cut part is `rem` of 2^sh (with `st` below) rounds away
from zero (R74). -/
def RMode.up (r : RMode) (n rem sh : Nat) (st : Bool) : Bool :=
  match r with
  | .rne =>
    if sh = 0 then false
    else
      let half := 2 ^ (sh - 1)
      half < rem || (rem = half && (st || n % 2 = 1))
  | .rtz => false
  | .sr rnd => rnd % 2 ^ 24 < rem * 2 ^ 24 / 2 ^ sh

/-- The magnitude code and the inexact mark of m × 2^e cut at quantum 2^q. -/
def cutAt (r : RMode) (m : Nat) (e : Int) (st : Bool) (q : Int) : Nat × Bool :=
  let sh := q - e
  if sh ≤ 0 then (m * 2 ^ (-sh).toNat, st)
  else
    let s := sh.toNat
    let n := m / 2 ^ s
    let rem := m % 2 ^ s
    (n + b2n (r.up n rem s st), rem != 0 || st)

/-- Rounds a nonzero magnitude to the format: the magnitude's code (possibly beyond the largest finite one),
whether it was inexact, and whether it was tiny (judged after rounding, R73). -/
def Fmt.roundMag (f : Fmt) (r : RMode) (m : Nat) (e : Int) (st : Bool) : Nat × Bool × Bool :=
  let top : Int := (Nat.log2 m : Int) + e
  let emin : Int := 1 - f.bias
  let q : Int := (if top < emin then emin else top) - f.mb
  let (n, inx) := cutAt r m e st q
  let code := (q - (emin - f.mb)).toNat * 2 ^ f.mb + n
  let free := (cutAt r m e st (top - f.mb)).1
  let tiny := top < emin && !(top = emin - 1 && free = 2 ^ (f.mb + 1))
  (code, inx, tiny)

/-- The sign bit's code. -/
def Fmt.sgn (f : Fmt) (neg : Bool) : Nat := if neg && f.signed then f.signBit else 0

/-- The canonical NaN of the format (R64); formats without a NaN narrow it to +0 with NV (R65). -/
def Fmt.nanRes (f : Fmt) (nv : Bool) : Nat × Nat :=
  match f.nan with
  | some c => (c, if nv then fNV else 0)
  | none => (0, fNV)

/-- The result of an overflow: infinity under IEEE 754, or the largest finite value (R65). -/
def Fmt.overRes (f : Fmt) (r : RMode) (neg : Bool) : Nat :=
  f.sgn neg +
    (if f.hasInf then (match r with
      | .rtz => f.maxFin
      | _ => f.maxFin + 1)
     else f.maxFin)

/-- Rounds an exact extended real to a format (R63 to R65, R73, R74): the code and the flags raised. -/
def Fmt.rnd (f : Fmt) (r : RMode) (x : XR) : Nat × Nat :=
  let nv := if x.nv then fNV else 0
  match x.kind with
  | .nan => f.nanRes x.nv
  | .inf =>
    if !f.signed && x.neg then (0, fNV)
    else if f.hasInf then (f.sgn x.neg + f.maxFin + 1, nv)
    else (f.sgn x.neg + f.maxFin, orF nv fOF)
  | .num =>
    if x.m = 0 && !x.st then (f.sgn x.neg, nv)
    else if !f.signed && x.neg then (0, fNV)
    else
      let (c, inx, tiny) := f.roundMag r x.m x.e x.st
      if f.maxFin < c then (f.overRes r x.neg, orF nv (orF fOF fNX))
      else (f.sgn x.neg + c,
        orF nv (orF (if inx then fNX else 0) (if inx && tiny then fUF else 0)))

/-- round_ne of R74. -/
def Fmt.rne (f : Fmt) (x : XR) : Nat × Nat := f.rnd .rne x

/-- An exact number rounded to an integer (ties to even, toward zero, or stochastically), and whether it was
inexact. -/
def roundInt (r : RMode) (x : XR) : Int × Bool :=
  let (n, inx) := if x.m = 0 && !x.st then (0, false) else cutAt r x.m x.e x.st 0
  (if x.neg then -(n : Int) else n, inx)

/-- sat_s32 of R74: the clamped value and the SAT flag. -/
def satInt (lo hi x : Int) : Int × Nat := if hi < x then (hi, fSAT) else if x < lo then (lo, fSAT) else (x, 0)

def satS32 (x : Int) : Int × Nat := satInt (-2147483648) 2147483647 x

/-- Whether a code is a NaN of the format. -/
def Fmt.isNan (f : Fmt) (c : Nat) : Bool := (f.dec c).isNan

/-- FMIN and FMAX (R109): a NaN loses to a number, −0 below +0, two NaNs give the canonical NaN. -/
def Fmt.minMax (f : Fmt) (max : Bool) (a b : Nat) : Nat × Nat :=
  let x := f.dec a
  let y := f.dec b
  let nv := if x.nv || y.nv then fNV else 0
  if x.isNan && y.isNan then (f.nanRes (x.nv || y.nv))
  else if x.isNan then (b, nv)
  else if y.isNan then (a, nv)
  else
    let c := if x.isZero && y.isZero then (if x.neg = y.neg then 0 else if x.neg then -1 else 1) else XR.cmp x y
    (if (if max then 0 ≤ c else c ≤ 0) then a else b, nv)

/-- The comparison conditions of R110: 0 eq, 1 lt, 2 le, 3 un, 4 ne. The flag is NV. -/
def Fmt.cmpCond (f : Fmt) (cc a b : Nat) : Bool × Nat :=
  let x := f.dec a
  let y := f.dec b
  let un := x.isNan || y.isNan
  let c := XR.cmp x y
  let sig := if x.nv || y.nv then fNV else 0
  let anyN := if un then fNV else 0
  match cc with
  | 0 => (!un && c = 0, sig)
  | 1 => (!un && c < 0, anyN)
  | 2 => (!un && c ≤ 0, anyN)
  | 3 => (un, sig)
  | _ => (un || c ≠ 0, sig)

/-- Constants of the stochastic-rounding generator (R75). -/
def srMT : Nat := 0x9B1F36D52C84A0E7
def srM1 : Nat := 0x8F3D5A17C2E964B3
def srM2 : Nat := 0xB5E29C471A83D6F1
def srM3 : Nat := 0xE17A3C95D4B20F69

/-- sr_word of R75. -/
def srWord (srkey tid step index : Nat) : Nat :=
  let m := 2 ^ 64
  let key := srkey ^^^ (tid * srMT % m)
  let x := ((step % 2 ^ 16) * 2 ^ 48 + index % 2 ^ 48) ^^^ key
  let x := (x ^^^ (x >>> 32)) * srM1 % m
  let x := (x ^^^ (x >>> 29)) * srM2 % m
  let x := (x ^^^ (x >>> 32)) * srM3 % m
  x ^^^ (x >>> 31)

/-- align_product of R77 on numbers: the sum s and the exponent E, the microblock sum being s × 2^(E − 48). -/
def alignProduct (ps : List XR) : Int × Int :=
  let nz := ps.filter (fun p => !p.isZero)
  match nz with
  | [] => (0, 0)
  | p :: t =>
    let big := t.foldl (fun a q => max a q.log2) p.log2
    (nz.foldl (fun a q => a + (q.scale (48 - big)).floor) 0, big)

/-- One level of tree_sum (R79): neighbouring FP32 values added with one rounding each, the flags collected. -/
def sumPairs : List Nat → List Nat × Nat
  | a :: b :: t =>
    let (c, f) := fp32.rne (XR.add (fp32.dec a) (fp32.dec b))
    let (cs, fs) := sumPairs t
    (c :: cs, orF f fs)
  | l => (l, 0)

/-- tree_sum over 2^k FP32 values (R79), k levels. -/
def treeSum : Nat → List Nat → Nat × Nat
  | 0, l => (nth 0 l 0, 0)
  | k + 1, l =>
    let (l', f) := sumPairs l
    let (r, g) := treeSum k l'
    (r, orF f g)

end Sys2Proof
end

