-- ==== Sys2Proof/Machine/Table.lean ====
section
/-! DEFINITION. Sparse tables keyed by numbers, in one canonical form (keys strictly rising), and byte memory on
top of them: a list of (address, byte) pairs in which no listed byte equals what an unlisted address reads as.
Every register file, ring set and memory of the machine is one of these, so that equal contents are equal data. -/

namespace Sys2Proof

/-- A sparse table: keys strictly rising. -/
abbrev Tbl (β : Type) := List (Nat × β)

/-- The entry at `k`, or the default for a key that is not listed. -/
def Tbl.get {β : Type} (d : β) : Tbl β → Nat → β
  | [], _ => d
  | (a, b) :: t, k => if a = k then b else Tbl.get d t k

/-- The table with entry `k` set, keys still strictly rising. -/
def Tbl.put {β : Type} : Tbl β → Nat → β → Tbl β
  | [], k, v => [(k, v)]
  | (a, b) :: t, k, v =>
    if k < a then (k, v) :: (a, b) :: t
    else if a = k then (k, v) :: t
    else (a, b) :: Tbl.put t k v

/-- The table without key `k`. -/
def Tbl.del {β : Type} : Tbl β → Nat → Tbl β
  | [], _ => []
  | (a, b) :: t, k => if a = k then Tbl.del t k else (a, b) :: Tbl.del t k

/-- The table with entry `k` set, in the canonical form that lists no entry equal to the default. -/
def Tbl.set {β : Type} [DecidableEq β] (d : β) (t : Tbl β) (k : Nat) (v : β) : Tbl β :=
  if v = d then Tbl.del t k else Tbl.put t k v

/-- Byte memory: a canonical list of cells. -/
abbrev Mem := List Host.Cell

/-- What an address that is not listed reads as (DESIGN CHOICE, unsafe: log entry 1). -/
def Mem.blank : Byte := 0

/-- The byte at an address. -/
def Mem.get (m : Mem) (a : Nat) : Byte := Tbl.get Mem.blank m a

/-- The memory after one byte is written; writing the blank byte removes the entry. -/
def Mem.put (m : Mem) (a : Nat) (b : Byte) : Mem :=
  if b = Mem.blank then Tbl.del m a else Tbl.put m a b

/-- The `n` bytes from `a` upward. -/
def Mem.bytes (m : Mem) : Nat → Nat → List Byte
  | _, 0 => []
  | a, n + 1 => m.get a :: Mem.bytes m (a + 1) n

/-- The memory after a list of bytes is written from `a` upward. -/
def Mem.store (m : Mem) : Nat → List Byte → Mem
  | _, [] => m
  | a, b :: t => Mem.store (m.put a b) (a + 1) t

/-- The little-endian number of `n` bytes at `a`. -/
def Mem.num (m : Mem) (a n : Nat) : Nat := leNat (m.bytes a n)

/-- The memory after a little-endian number of `n` bytes is written at `a`. -/
def Mem.setNum (m : Mem) (a n v : Nat) : Mem := m.store a (leBytes n v)

/-- The keys of a table rise strictly above a bound. -/
def Tbl.above {β : Type} : Tbl β → Nat → Bool
  | [], _ => true
  | (a, _) :: t, k => decide (k < a) && Tbl.above t a

/-- The keys of a table rise strictly. -/
def Tbl.rising {β : Type} : Tbl β → Bool
  | [] => true
  | (a, _) :: t => Tbl.above t a

/-- The canonical form of a memory: addresses strictly rising, and no entry equal to the blank byte. -/
def Mem.wf (m : Mem) : Bool := Tbl.rising m && m.all (fun c => decide (c.2 ≠ Mem.blank))

end Sys2Proof
end

