-- ==== Sys2Proof/Machine/State.lean ====
section
/-! DEFINITION. The state of one HN8400 package (01 R6 to R12 and every register map of the later chapters), as plain
data. Slots are numbered u = 4 × core + slot, cores 0 to 127 over the package, L2 slices 16d + s, matrix arrays
8d + a. A table that lists nothing reads as its default everywhere. Fields marked "model" are the model's own. -/

namespace Sys2Proof.Machine
open Sys2Proof

/-- A hardware loop on the loop stack (R113 to R115): body start and length in bytes of PC, stages, stage offsets in
words, iteration count and kernel iteration. `piped` is true for LOOP and false for LOOPX. -/
structure LoopRec where
  id : Nat
  piped : Bool
  start : Nat
  words : Nat
  ns : Nat
  offs : List Nat
  n : Nat
  j : Nat
  /-- the clock in which the loop word issued, or the slot was restored (model, for R460) -/
  at_ : Nat
  deriving DecidableEq, Repr, Inhabited

/-- The live-ins a region's open captures (R159, R394); registers as in `Slot.g`. -/
structure LiveIns where
  g : Tbl Word
  preds : BitVec 8
  estage : BitVec 8
  loops : List LoopRec
  deriving DecidableEq, Repr, Inhabited

/-- A task record (R382) with the fields hardware adds: its launch, and what it needs to resume. -/
structure Task where
  node : Nat
  batch : Bool
  exempt : Bool
  gang : Bool
  yield : Bool
  aff : Nat
  inst : Nat
  key : Nat
  tree : Nat
  jt : Nat
  ws : Nat
  ctx : Nat
  queue : Nat
  seq : Nat
  user : Nat
  /-- the launch record and the number of its run (model) -/
  launch : Nat
  run : Nat
  /-- key at dispatch (R393) -/
  key0 : Nat
  /-- cancel-pending (R397) -/
  cpend : Bool
  /-- 0 not yet dispatched, 1 aborted (R165), 2 saved (R132) (model) -/
  phase : Nat
  /-- fence interval number and timer, us (R350, R351) -/
  interval : Nat
  ivTime : Nat
  /-- pre-emption causes that hold the task, in release order; with 8 added, one that has released it while an earlier one has not
  (R30) -/
  holds : List Nat
  /-- where it may be placed again: 0 anywhere, die d as d + 1 (R132, R165), or core c as 8 + c (model) -/
  home : Nat
  /-- its drained remote writes that were not acknowledged when it left its slots: flows and packets (R187) -/
  acks : List (Nat × Nat)
  /-- the unit it left when it was last saved (model) -/
  left : Nat
  deriving DecidableEq, Repr, Inhabited

/-- What a fixed-latency or interlocked result writes when it becomes visible (R96), or what a signal or an arrival does, which
waits see from the clock after it is applied (R35, R36, R321). -/
inductive PendEff where
  | greg (n : Nat) (v : Word)
  | pred (n : Nat) (v : Bool)
  | signal (c : SignalC)
  | sem (n k : Nat)
  /-- bytes of a copy that have arrived at a barrier (R312, R321) -/
  | arrive (n k : Nat)
  /-- CBARSET: barrier and count; CSTAT.barclr: barrier (R320, R328) -/
  | barSet (n k : Nat)
  | barClear (n : Nat)
  /-- RINGSET.decl: ring and DECL (R195); TRCTL.wr: the new TRCFG (R459) -/
  | decl (n v : Nat)
  | trcfg (v : BitVec 32)
  deriving DecidableEq, Repr, Inhabited

/-- A pending write: the clock from which it is visible, and whether it is interlocked (R96). `tag` names an answer it
waits for from elsewhere (0: none); then `at` is not meaningful. -/
structure Pend where
  at_ : Nat
  locked : Bool
  tag : Nat
  eff : PendEff
  deriving DecidableEq, Repr, Inhabited

/-- A store-buffer or effect-queue entry (R160, R161). -/
inductive Effect where
  /-- buffered store: space, address, where each byte stands as translated at issue, bytes -/
  | store (space addr : Nat) (phys : List Nat) (bytes : List Byte)
  /-- NST: reference, doubleword, mask, value (R400) -/
  | nst (ref w mask : Nat) (v : Word)
  /-- remote store: package, address, bytes, scope, cache policy (R141) -/
  | rstore (pkg addr : Nat) (bytes : List Byte) (scope cache : Nat)
  /-- held atomic: space, package, address, where each byte stands, operation, operand (R146) -/
  | atomic (space pkg addr : Nat) (phys : List Nat) (n op : Nat) (b : Word)
  /-- release marker of a FENCE (R175) -/
  | marker (scope : Nat)
  /-- SEMSIG.peer: member, semaphore, count (R196) -/
  | peer (m n k : Nat)
  | spawn (t : Task) (batch : Bool)
  | cancel (ref : Nat) (sub : Bool) (sig : Option Nat)
  | reprio (byNode : Bool) (x key : Nat)
  | tjoin (ref n cont : Nat)
  | nfree (ref : Nat)
  | nadd (ref f : Nat) (v : Word)
  | nvloss (ref d vlu : Nat)
  | nbackup (ref d x : Nat) (v : Option Nat) (flags vlu gamma : Nat)
  | nlink (child parent : Nat)
  | kvfree (ref : Nat)
  /-- KVLINK: page, layout-4 address -/
  | kvlink (page va : Nat)
  | kvpin (ref : Nat) (pin : Bool)
  | pfxevict (all : Bool) (hash lg : Nat)
  deriving DecidableEq, Repr, Inhabited

/-- A held entry with the word that made it and the space that word named, its region number (R167) and its release scope
plus one (R175). -/
structure Held where
  eff : Effect
  opc : Nat
  word : Nat
  space : Nat
  region : Nat
  rel : Nat
  deriving DecidableEq, Repr, Inhabited

/-- A held entry that has drained to another package and is not yet acknowledged (R167): the flow of its packets and how many
of them must be acknowledged, 0 while its bytes stand in a line of the remote cache; or the tag of the answer it waits for. -/
structure Sent where
  held : Held
  flow : Nat
  count : Nat
  tag : Nat
  deriving DecidableEq, Repr, Inhabited

/-- The open region (R159 to R163). -/
structure Region where
  num : Nat
  auto : Bool
  pc : Nat
  live : LiveIns
  deriving DecidableEq, Repr, Inhabited

/-- A ring: RINGCFG (R189) and its pointers. A gang's named pipe is held once for all members, in `State.pipes` (R218):
`via` is its key there plus one. -/
structure Ring where
  base : Nat
  logn : Nat
  esz : Nat
  decl : Nat
  prodown : Nat
  consown : Nat
  pipe : Bool
  prod : Nat
  cons : Nat
  via : Nat
  deriving DecidableEq, Repr, Inhabited

/-- A data ring that no image configures: LOGN 0, both owners unbound (R189, R190). -/
def Ring.none : Ring := ⟨0, 0, 0, 0, 7, 7, false, 0, 0, 0⟩

/-- A barrier (R320): state 0 IDLE, 1 ARMED, 2 COMPLETE. -/
structure Bar where
  count : Nat
  state : Nat
  ovf : Bool
  deriving DecidableEq, Repr, Inhabited

/-- An access that waits on a watermark (R319, R328): the stream it belongs to, and 8 more for a draining ring's; context, kind,
address and bytes; and the clock it began to wait. -/
structure WmWait where
  key : Nat
  ctx : Nat
  kind : Nat
  addr : Nat
  len : Nat
  since : Nat
  deriving DecidableEq, Repr, Inhabited

/-- A copy channel (R318). `done` are the intervals of the range written since arming, rising and apart (model). -/
structure Chan where
  armed : Bool
  base : Nat
  len : Nat
  kind : Nat
  w : Nat
  done : List (Nat × Nat)
  /-- current-tile and next-tile registers, as an operand queue's (R158) -/
  tile : Option (Nat × Nat × Nat)
  nextTile : Option (Nat × Nat × Nat)
  deriving DecidableEq, Repr, Inhabited

/-- The slot's static copy schedule (R324, R325, R330): state 0 IDLE, 1 RUNNING, 2 WAITING, 3 DONE, 4 STOPPED. -/
structure Sched where
  state : Nat
  table : Nat
  first : Nat
  stage : Nat
  entry : Nat
  released : Nat
  e : Nat
  s : Nat
  sig : Nat
  ch : Nat
  blk : Nat
  word : Nat
  /-- the table's entries, as CSCHED read them -/
  tab : List Byte
  deriving DecidableEq, Repr, Inhabited

/-- A fault of the second path (R128): cause, subcause, operand, faulting word. -/
structure Trap where
  cause : Nat
  sub : Nat
  opnd : Nat
  deriving DecidableEq, Repr, Inhabited

/-- A fired engine entry, or vector issue group, that has not completed (R181). -/
structure InFlight where
  words : List Nat
  signals : List SignalC
  /-- byte ranges (address, length) the entry reads: of the core's register space, and of its scratchpad at 2^32 + the
  address (R225) -/
  reads : List (Nat × Nat)
  /-- what it writes when it completes: byte address in the core's register space, or 2^32 + the address in its scratchpad,
  and bytes (R181, R224) -/
  writes : List (Nat × List Byte)
  /-- granules whose valid bits a last-read mark clears (R101) -/
  clears : List Nat
  flags : Nat
  /-- a MCTL.CLAMPED event, or saturation (R245) -/
  clamped : Bool
  /-- ring pointer advances: ring number, producer, count; and whether they are made entry by entry (R192) -/
  advances : List (Nat × Bool × Nat)
  stream : Bool
  /-- operand-queue consumptions: queue, count -/
  oqs : List (Nat × Nat)
  /-- a fault found in the entry's work, reported at completion -/
  trap : Option Trap
  /-- requests whose answers the entry waits for (14) -/
  waits : List Nat
  /-- the clock in which it was chosen, and how many of its words have fired since, where register banks delay the fire
  (R226) -/
  clock : Nat
  again : Nat
  /-- the entry belongs to a draining ring (R203) -/
  drain : Bool
  /-- a schedule entry, which does not advance the timeline (R325) -/
  sched : Bool
  /-- current class plus one of a grant it holds (R317) -/
  grant : Nat
  /-- the register banks of the 256-byte vectors it reads, its latency and its clocks in the long unit (R226, R227) -/
  banks : List Nat
  lat : Nat
  long : Nat
  /-- remote writes whose acknowledgement it waits for, as flows and the number of packets that must be acknowledged; and
  whether it then closes the fence interval (R353) -/
  acks : List (Nat × Nat)
  fence : Bool
  /-- the descriptor an access word read when it fired (R344, R355) -/
  desc : List Byte
  deriving DecidableEq, Repr, Inhabited

/-- A B plane's tag (R275 to R278): the context whose tensor it names, the tensor, the tile, whether it is squared, the B
type, the span of a CSR plane (0 for a dense one), and for an untagged plane (tensor 4095) a number of its own. -/
structure PlaneTag where
  ctx : Nat
  tid : Nat
  tile : Nat
  squared : Bool
  btype : Nat
  span : Nat
  uid : Nat
  deriving DecidableEq, Repr, Inhabited

/-- A resident B plane: its tag, the row list of a CSR plane (R277), and by column the codes of its cells, each plus one
and 0 for an absent element (R264, R265), its scale codes by microblock and by 128-row group, and how many times MBSQ has
squared its elements (R278). -/
structure Plane where
  tag : Option PlaneTag
  rows : List Nat
  cells : Tbl (List Nat)
  scales : Tbl (List Nat × List Nat)
  sqs : Nat
  deriving DecidableEq, Repr, Inhabited

/-- A used candidate heap entry (R291): score, token, mask generation. -/
structure HeapEnt where
  score : Nat
  token : Nat
  gen : Nat
  deriving DecidableEq, Repr, Inhabited

/-- A core's matrix claim (R266 to R291): the task that holds it, current class, MCFG's immediate, the open chain's rows
and halves, the expected tags, the epilogue block with the gang member that issued it, the heaps by row, and their k and
g, as k + 256 × g. -/
structure Claim where
  ctx : Nat
  seq : Nat
  cls : Nat
  mcfg : Option Nat
  opened : Option (Nat × Nat × Nat)
  active : Option PlaneTag
  shadow : Option PlaneTag
  epi : List Byte
  epiBy : Nat
  heaps : Tbl (List HeapEnt)
  caps : Tbl Nat
  deriving DecidableEq, Repr, Inhabited

/-- What keeps a slot from issuing. -/
inductive Hold where
  | none
  /-- WAITI (R117) -/
  | waiti
  /-- SYSCALL waiting for its reply: destination register, service code, argument (R120) -/
  | syscall (rd code : Nat) (arg : Word)
  /-- DPHASE waiting at a level, 0 once its phase has ended, for the arrival of a core (R221) -/
  | dphase (level core : Nat)
  /-- TDONE waiting for rings to drain (R202) -/
  | tdone
  /-- the first word of a task waits until the task's drained writes are acknowledged (R187) -/
  | acks
  /-- a host AtomicOp in progress: destination register, bytes, operation, operand, compare value of an ACAS, where the
  bytes stand, their virtual address, and the scope plus one of its acquire (R145) -/
  | hostAtomic (rd n op : Nat) (b : Word) (cmp : Option Word) (ps : List Nat) (va acq : Nat)
  /-- a closing word, or an acquire load, waiting for a remote answer (14, 16), with the scope plus one that it then
  acquires at -/
  | remote (tag acq : Nat)
  deriving DecidableEq, Repr, Inhabited

/-- The slot's allocations (R151, R217), in bytes of the core's register space and scratchpad. -/
structure Alloc where
  regBase : Nat
  regLen : Nat
  spBase : Nat
  spLen : Nat
  sbBase : Nat
  sbLen : Nat
  deriving DecidableEq, Repr, Inhabited

/-- Slot-scope control registers (R124), and TRCFG (R458). -/
structure Csrs where
  corectl : BitVec 11
  aflags : BitVec 7
  faultst : BitVec 18
  uivec : BitVec 64
  uipend : BitVec 16
  uiact : Bool
  uipc : BitVec 32
  viewv : BitVec 10
  viewt : BitVec 10
  viewm : BitVec 10
  mctl : BitVec 64
  vsridx : BitVec 64
  vsrtid : BitVec 12
  nodest : BitVec 14
  trcfg : BitVec 32
  deriving DecidableEq, Repr, Inhabited

/-- The reset values of the slot's control registers (R98, R121 to R126, R228, R245, R379, R458). -/
def Csrs.reset : Csrs := ⟨0, 0, 0, 0, 0, false, 0, 0, 0, 0, 0, 0, 0, 0, 6⟩

/-- An ended task whose rings still drain in the slot (R202). -/
structure Drain where
  task : Task
  alloc : Alloc
  crings : Tbl Ring
  rings : Tbl Ring
  csr : Csrs
  eng : Tbl InFlight
  sems : Tbl (BitVec 16)
  bars : Tbl Bar
  tls : Tbl (BitVec 64)
  gang : List Nat
  sched : Sched
  accIdx : Nat
  pend : List Pend
  deriving DecidableEq, Repr, Inhabited

/-- The word a meaning acts on (model): its slot, stream, control fields, word, and whether a draining ring held it. -/
structure Cursor where
  u : Nat
  strm : Stream
  ctl : Ctl
  word : Nat
  len : Nat
  drain : Bool
  deriving DecidableEq, Repr, Inhabited

/-- An operand queue (R342, R343): entries still in it, stream in progress. -/
structure OQ where
  bound : Option Nat
  dist : Nat
  prod : Nat
  cons : Nat
  entries : List (List Byte)
  addr : Nat
  stride : Nat
  bytes : Nat
  left : Nat
  pkg : Nat
  /-- request tags of entries in flight, oldest first, with arrived data -/
  flight : List (Nat × Option (List Byte))
  /-- the stream's current-tile and next-tile registers: tensor id, tile, frame (R158) -/
  tile : Option (Nat × Nat × Nat)
  nextTile : Option (Nat × Nat × Nat)
  deriving DecidableEq, Repr, Inhabited

/-- A sequencer slot and its four engine contexts (R12, R94). -/
structure Slot where
  task : Option Task
  /-- the template node of the slot's member (R133) -/
  node : Nat
  /-- the slots of the gang, member 0 first; empty when the task is in no gang -/
  gang : List Nat
  hold : Hold
  pc : Nat
  /-- the program image in force: address, size, sequencer words, engine mask; and its words (R200) -/
  image : Nat
  seqLen : Nat
  mask : Nat
  overlay : Tbl Nat
  /-- general registers: g1 to g63 at 1 to 63, the shadow bank's g56 to g63 at 120 to 127 (R94, R122) -/
  g : Tbl Word
  preds : BitVec 8
  estage : BitVec 8
  loops : List LoopRec
  pend : List Pend
  nextIssue : Nat
  /-- a PFX awaiting its memory word, and its address (R45) -/
  pfx : Option SP
  pfxPc : Nat
  /-- the target of a redirect in the word being executed (model) -/
  npc : Option Nat
  /-- a trap to take when the word ends (R82), and the word it names, 0 for the word in hand (model) -/
  latch : Option Trap
  latchWord : Nat
  /-- the word that waits in the slot for an answer, and whether it is a closing word (model) -/
  inHand : Option Cursor
  closing : Bool
  /-- write-backs whose acknowledgement the slot's CINV or release waits for: flows, and the packets that must be
  acknowledged (R148, R176) -/
  acks : List (Nat × Nat)
  /-- tile faults raised by the slot's words, with whether the tile's home is another package, and their clock: the task leaves
  once its fired entries have completed (R165, R166, R339) -/
  faults : List (Nat × Nat × Bool)
  faultAt : Nat
  /-- traps of completed entries that a core stop left unreported: engine, trap, word, draining (R82, R129) -/
  owed : List (Nat × Trap × Nat × Bool)
  csr : Csrs
  sems : Tbl (BitVec 16)
  tls : Tbl (BitVec 64)
  bars : Tbl Bar
  chans : Tbl Chan
  sched : Sched
  rings : Tbl Ring
  crings : Tbl Ring
  alloc : Alloc
  region : Region
  /-- entries of the open region, and of closed regions still draining, in program order -/
  opened : List Held
  closed : List Held
  sent : List Sent
  eng : Tbl InFlight
  drain : Option Drain
  /-- next clock each engine looks at the slot's ring (R37), and at 4 more at its draining one -/
  engNext : Tbl Nat
  /-- clocks of the task in a slot, and its last TIME.dev reading (R127) -/
  clocks : Nat
  since : Nat
  lastTime : Nat
  /-- pending pre-emption causes (R29), and a BKPT code awaiting its stop (R119) -/
  causes : List Nat
  bkpt : Option Nat
  /-- open messages by id, and the task's fence send counts by target package (14) -/
  sends : Tbl Nat
  /-- loop tags of placed command-ring entries, as R460 lays one out, by 4096 × engine + place (R453) -/
  tags : Tbl Nat
  /-- the slot's accesses that wait on a watermark (R319) -/
  wm : List WmWait
  /-- the matrix claim as it was saved, for what the save area does not name (model) -/
  kept : Option Claim
  /-- the entry at which a stopped RATOM or RCAS goes on (R347) -/
  accIdx : Nat
  /-- the operand queues as they were saved, for the streams the save area does not name (model) -/
  keptOqs : Tbl OQ
  /-- the device address of the save block of a member of a saved task (R473) -/
  block : Nat
  deriving DecidableEq, Repr, Inhabited

/-- No live-ins. -/
def LiveIns.none : LiveIns := ⟨[], 1, 1, []⟩

/-- A slot that holds no task. Its register contents are those of a fresh dispatch: the manual gives a slot's registers
at dispatch only (R94). -/
def Slot.reset : Slot where
  task := none
  node := 0
  gang := []
  hold := .none
  pc := 0
  image := 0
  seqLen := 0
  mask := 0
  overlay := []
  g := []
  preds := 1
  estage := 1
  loops := []
  pend := []
  nextIssue := 0
  pfx := none
  pfxPc := 0
  npc := none
  latch := none
  latchWord := 0
  inHand := none
  closing := false
  acks := []
  faults := []
  faultAt := 0
  owed := []
  csr := Csrs.reset
  sems := []
  tls := []
  bars := []
  chans := []
  sched := default
  rings := []
  crings := []
  alloc := default
  region := ⟨0, false, 0, LiveIns.none⟩
  opened := []
  closed := []
  sent := []
  eng := []
  drain := none
  engNext := []
  clocks := 0
  since := 0
  lastTime := 0
  causes := []
  bkpt := none
  sends := []
  tags := []
  wm := []
  kept := none
  accIdx := 0
  keptOqs := []
  block := 0

/-- A tag-table entry (R153). -/
structure Tag where
  owner : Nat
  tid : Nat
  tile : Nat
  slot : Nat
  deriving DecidableEq, Repr, Inhabited

/-- A scalar L1 line: host memory or device memory, line number, bytes, kept mark (R149). -/
structure L1Line where
  host : Bool
  line : Nat
  data : List Byte
  keep : Bool
  deriving DecidableEq, Repr, Inhabited

/-- A remote-cache line (R150, R340, R350). -/
structure RLine where
  pkg : Nat
  ctx : Nat
  tid : Nat
  line : Nat
  data : Tbl Byte
  dirty : List Nat
  scope : Nat
  keep : Bool
  seq : Nat
  /-- unit whose task last dirtied the line -/
  unit : Nat
  deriving DecidableEq, Repr, Inhabited

/-- A stopped core (R129): where the frame lies and what it reports. -/
structure Stop where
  slot : Nat
  strm : Stream
  trap : Trap
  word : Nat
  ctx : Nat
  /-- 0 waits for the policy, 1 in the user hook, 2 held for debug; 3 to be killed and 4 to be requeued, once its closed regions
  have drained (R131, R165) -/
  phase : Nat
  seq : Nat
  /-- a draining entry faulted (R203) -/
  drain : Bool
  deriving DecidableEq, Repr, Inhabited

/-- A core (R12). -/
structure CoreSt where
  stopped : Option Stop
  /-- a fault that will stop the core once what is in flight has completed, and its clock (R129) -/
  raised : Option (Stop × Nat)
  /-- the slot last issued from; for each engine the slot after the one it served last (R92, R192) -/
  lastSlot : Nat
  lastEng : Tbl Nat
  /-- by engine, the clock from which it may fire (R192, R226), and the clock from which the long unit is free (R225) -/
  engFree : Tbl Nat
  longFree : Nat
  lastIssue : Nat
  regs : Mem
  valid : Nat
  scratch : Mem
  tags : List Tag
  l1 : List L1Line
  rcache : List RLine
  /-- layout-unit caches, most recent first (R155): port, context, tensor id, descriptor bytes; and port, context,
  tensor id, tile, entry -/
  descs : List (Nat × Nat × Nat × List Byte)
  tiles : List (Nat × Nat × Nat × Nat × Nat)
  oqs : Tbl OQ
  claim : Option Claim
  acc : Tbl Nat
  dirtyAcc : Nat
  /-- domain membership: level, domain id, phase bits, launch that set it; pending arrival (R219 to R221) -/
  level : Nat
  domid : Nat
  phase : BitVec 3
  domCtx : Nat
  domLaunch : Nat
  domRun : Nat
  arrive : Option (Nat × List Nat)
  /-- the intervals that the end of the core's communication phase closes are closed (R185, R351) -/
  fenced : Bool
  pmowner : Nat
  /-- counters 0 to 7 of the core, and 4 slots by 6 (R464, R465) -/
  ctrs : Tbl Nat
  cfgs : Tbl Nat
  bcm : Tbl Nat
  stall : Nat
  /-- allocations of ended members of gangs that have not ended, keyed as `State.hidden` is (R218) -/
  reserved : Tbl Alloc
  deriving DecidableEq, Repr, Inhabited

/-- A core after reset. -/
def CoreSt.reset : CoreSt where
  stopped := none
  raised := none
  lastSlot := 3
  lastEng := []
  engFree := []
  longFree := 0
  lastIssue := 0
  regs := []
  valid := 0
  scratch := []
  tags := []
  l1 := []
  rcache := []
  descs := []
  tiles := []
  oqs := []
  claim := none
  acc := []
  dirtyAcc := 0
  level := 0
  domid := 0
  phase := 0
  domCtx := 0
  domLaunch := 0
  domRun := 0
  arrive := none
  fenced := false
  pmowner := 0
  ctrs := []
  cfgs := []
  bcm := []
  stall := 0
  reserved := []

/-- A matrix array (R262 to R270): its two physical planes, the one that serves the active role, the core whose lease run
it is in, the core after the last such one, the commands the run has fired, the clock of the first, and the amperes it holds, 0 until
they are granted. -/
structure Arr where
  planes : Tbl Plane
  role : Nat
  holder : Option Nat
  lastHolder : Nat
  fired : Nat
  start : Nat
  amps : Nat
  deriving DecidableEq, Repr, Inhabited

/-- A run of a launch (R208): record, latched patch window, live tasks, where its state stands. -/
structure Run where
  ctx : Nat
  record : Nat
  id : Nat
  tmpl : Nat
  queue : Nat
  corectl : BitVec 11
  aging : Nat
  sched : Nat
  window : Tbl Word
  live : Nat
  /-- the state it had before it became HELD (R216) -/
  prior : Nat
  state : Nat
  ovl : Bool
  deriving DecidableEq, Repr, Inhabited

/-- A batch of the batch former (R414 to R416): each row with whether it has sent its join decrement and whether its
live bit is set; the batch sequence number, times, cause and buffer; and the launch record, the area and the count of buffers
configured when it formed (R413). -/
structure Batch where
  rows : List (Task × Bool × Bool)
  num : Nat
  first : Nat
  formed : Nat
  cause : Nat
  buf : Nat
  record : Nat
  area : Nat
  nb : Nat
  deriving DecidableEq, Repr, Inhabited

/-- A weight set (R413 to R417). -/
structure BatchSet where
  maxrows : Nat
  record : Nat
  window : Nat
  area : Nat
  nb : Nat
  rows : List Task
  since : Nat
  waiting : List Batch
  armed : List Batch
  count : Nat
  revoked : Nat
  deriving DecidableEq, Repr, Inhabited

/-- A join decrement on its way: target, the sending task's context, launch and run, the slot and sequence number that sent it,
and the package and tag to answer, tag 0 for none (R389). -/
structure JoinDec where
  ref : Nat
  ctx : Nat
  launch : Nat
  run : Nat
  u : Nat
  seq : Nat
  re : Nat × Nat
  deriving DecidableEq, Repr, Inhabited

/-- A cancellation walk (R395, R396). -/
structure Walk where
  id : Nat
  ctx : Nat
  root : Nat
  sub : Bool
  sigs : List (Nat × Nat × Nat)
  queue : List Nat
  acks : Nat
  /-- nodes freed once their remote children have acknowledged -/
  late : List Nat
  /-- the cancels of other packages that it acknowledges when done: package, tag, and the sibling they are told of -/
  replies : List (Nat × Nat × Option Nat)
  /-- the slot and the sequence number of the task whose TCANCEL names a root of another package -/
  asker : Option (Nat × Nat)
  deriving DecidableEq, Repr, Inhabited

/-- A receive slot (R354 to R364). -/
structure RecvSlot where
  desc : List Byte
  unit : Nat
  seq : Nat
  ctx : Nat
  status : Nat
  gen : Nat
  /-- bound message: source package, task sequence, message id, size, class -/
  msg : Option (Nat × Nat × Nat × Nat × Nat)
  /-- units received, as a bit map, and packets received of units in progress -/
  units : Nat
  packets : Tbl Nat
  got : Nat
  posted : Bool
  saved : Bool
  /-- the clocks of the request's arrival and of its last token, or arrival without one (R359) -/
  arrived : Nat
  waitedSince : Nat
  /-- the orphan timer (R360): the clock at which it stood at zero while it runs, its clocks while it is stopped -/
  orphanAt : Nat
  /-- units of the request's prefix that are on their way (R357) -/
  due : Nat
  deriving DecidableEq, Repr, Inhabited

/-- An open message of a task (R357). -/
structure SendMsg where
  desc : List Byte
  ctx : Nat
  seq : Nat
  mid : Nat
  cls : Nat
  unit : Nat
  status : Nat
  sent : Nat
  deriving DecidableEq, Repr, Inhabited

/-- An outstanding pull token (R359, R360). -/
structure Token where
  id : Nat
  ctx : Nat
  slot : Nat
  first : Nat
  count : Nat
  issued : Nat
  deriving DecidableEq, Repr, Inhabited

/-- A node word that waits for answers of other packages (R406, R410, R411): the word's opcode, its destination, form and
KEYCTL, the record it scores against (g[ra] of NSELECT, the parent of NKEY) and the one it scores, as references and bytes,
the children left to scan, the best so far and the status. `stage` says which record the next answer brings. -/
structure NodeJob where
  op : Nat
  rd : Nat
  m : Nat
  ctl : Nat
  stage : Nat
  root : Nat
  rootRec : List Byte
  node : Nat
  nodeRec : List Byte
  left : Nat
  best : Option (Nat × Nat)
  deriving DecidableEq, Repr, Inhabited

/-- An entry of a RATOM or RCAS (R347): its package and address, operation code, bytes, operand or compare value, new value
of a compare-and-swap, and the scratchpad address of its result plus one. -/
structure RemOp where
  pkg : Nat
  va : Nat
  op : Nat
  n : Nat
  a : Word
  cas : Option Word
  res : Nat
  deriving DecidableEq, Repr, Inhabited

/-- A request the package has sent to another and whose answer it awaits (R337). -/
inductive Req where
  /-- a sequencer load: unit, destination, bytes, signed, address, cache policy -/
  | load (u rd n : Nat) (signed : Bool) (pkg addr cache : Nat)
  /-- a sequencer atomic: unit, destination, bytes -/
  | atomic (u rd n : Nat)
  /-- a held atomic: unit, the word that queued it, its address, its task's context and sequence number -/
  | held (u word addr ctx seq : Nat)
  /-- an entry of an operand queue: package, address and bytes read -/
  | toOq (u q pkg va n : Nat)
  /-- RLD entry into scratchpad at an address: package, address and bytes read -/
  | toSp (u addr pkg va n : Nat)
  /-- RATOM or RCAS: unit, whether a draining ring's, the index of the entry in flight, and that entry and those after it -/
  | toRes (u : Nat) (drain : Bool) (j : Nat) (todo : List RemOp)
  /-- the answer of a package to an interval close: unit, stream it is for (0 DPHASE, 4 RFENCE or the timer, 7 TDONE),
  package, context, task and interval -/
  | fence (u strm pkg ctx seq iv : Nat)
  /-- a node word whose result the slot waits for -/
  | node (u : Nat) (job : NodeJob)
  /-- a held node operation, whose status reaches the NODEST of the task that issued it: unit, context, sequence number -/
  | nodeHeld (u ctx seq : Nat)
  /-- a held host atomic: unit, the word that queued it, its address, its task's context and sequence number, operation and
  bytes as operation + 16 × bytes, operand, and where its bytes stand (R145) -/
  | hostHeld (u word addr ctx seq op b : Nat) (ps : List Nat)
  /-- a cancel that a walk sent to another package, for a child of a node, or null for the walk's root -/
  | walk (w x : Nat)
  deriving DecidableEq, Repr, Inhabited

/-- The fabric side of the package (14). -/
structure Fabric where
  trained : Bool
  pkg : Nat
  grid : Nat
  down : List Nat
  fails : Tbl Nat
  linkSeq : Tbl Nat
  outbox : List Packet
  inbox : List Packet
  /-- next flow sequence number to send, keyed by agent, target and tensor -/
  sendSeq : Tbl Nat
  /-- by flow: sequence numbers sent and not acknowledged or answered; and the packets that wait at the source (R334) -/
  going : Tbl (List Nat)
  stalled : List (Nat × Packet)
  /-- next flow sequence number to perform, and early packets, keyed by source, agent and tensor; the numbers missing, with the
  clock at which a later one came; and by such a flow the forwarded multicast copies performed (R335, R348, R349) -/
  recvSeq : Tbl Nat
  early : List (Nat × Packet)
  gaps : List (Nat × Nat × Nat)
  copies : Tbl Nat
  dropped : Nat
  late : Nat
  orphans : Nat
  nextTag : Nat
  reqs : Tbl Req
  /-- by flow: packets sent up to the last write, and packets acknowledged -/
  wrote : Tbl Nat
  unacked : Tbl Nat
  /-- counted writes received, keyed by source package, context, task and interval; closes that wait, with their
  clocks; sent counts by context, task and target -/
  counts : List (Nat × Nat × Nat × Nat × Nat)
  closes : List (Nat × Packet)
  sentCounts : List (Nat × Nat × Nat × Nat)
  /-- by context and task: the clock from which its interval has held a counted packet (R351) -/
  ivStart : List (Nat × Nat × Nat)
  groups : Tbl Nat
  recvs : Tbl RecvSlot
  sends : List SendMsg
  /-- requests held for a post, with the clocks at which they came (R357, R359) -/
  held : List (Nat × Packet)
  tokens : List Token
  nextToken : Nat
  /-- the next token is issued 8 clocks after this, or later (R359, R365) -/
  lastToken : Nat
  gscfg : BitVec 64
  /-- the DCC's fabric event queues: context, source package, task, interval, count sent and received (R352) -/
  events : List (List Nat)
  /-- packages that are to be told when a tile is resident, as context, tensor id, tile, package; and those that have been told
  (R339) -/
  notices : List (Nat × Nat × Nat × Nat)
  told : List (Nat × Nat × Nat × Nat)
  /-- detoured packets, with the package they go through (R335) -/
  vias : List (Packet × Nat)
  deriving DecidableEq, Repr, Inhabited

/-- The fabric after reset: untrained, GSCFG at its reset fields (R336, R359). -/
def Fabric.reset : Fabric where
  trained := false
  pkg := 0
  grid := 0
  down := []
  fails := []
  linkSeq := []
  outbox := []
  inbox := []
  sendSeq := []
  going := []
  stalled := []
  recvSeq := []
  early := []
  gaps := []
  copies := []
  dropped := 0
  late := 0
  orphans := 0
  nextTag := 1
  reqs := []
  wrote := []
  unacked := []
  counts := []
  closes := []
  sentCounts := []
  ivStart := []
  groups := []
  recvs := []
  sends := []
  held := []
  tokens := []
  nextToken := 1
  lastToken := 0
  gscfg := 0x0000200000400002
  events := []
  notices := []
  told := []
  vias := []

/-- The generation loop of a context (R433 to R437): the iteration's number, the snapshots of the batch entries, the tails of
the groups' entry rings; phase 0 idle, 1 the forward launches run, 2 tokens are committed; the records awaited, the
entries still to sample; the entry at hand, its position, its tokens not yet committed, whether a position had no
candidate; when the predicate was called; whether a status has changed. -/
structure GenLoop where
  iter : Nat
  snap : Tbl (List Byte)
  tails : Tbl Nat
  phase : Nat
  recs : List Nat
  todo : List Nat
  entry : Nat
  pos : Nat
  toks : List Nat
  nocand : Bool
  called : Nat
  changed : Bool
  deriving DecidableEq, Repr, Inhabited

/-- A context: the register block of R472 and the context-scope registers of R124. -/
structure Ctx where
  fn : Nat
  block : Mem
  dropped : Nat
  memdef : BitVec 11
  srkey : BitVec 64
  keyctl : BitVec 64
  bfctl : BitVec 64
  gramctl : BitVec 12
  seqCtr : BitVec 32
  lqcfg : Tbl Nat
  /-- armed records of each queue, oldest first, and its running launches, oldest first -/
  armed : Tbl (List Nat)
  running : Tbl (List Nat)
  /-- by queue, the run started last, or set back last (R213) -/
  lastRun : Tbl Nat
  parked : List (Task × List (Nat × Nat))
  nsmFree : Tbl (List Nat)
  kvfree : List Nat
  sets : Tbl BatchSet
  gen : GenLoop
  saveFree : List Nat
  saveInit : Bool
  deriving DecidableEq, Repr, Inhabited

/-- A context after reset (R47, R75, R124, R211, R409, R412, R418). -/
def Ctx.reset : Ctx where
  fn := 0
  block := []
  dropped := 0
  memdef := 4
  srkey := 0
  keyctl := 0x00003F8000000000
  bfctl := 0
  gramctl := 0
  seqCtr := 0
  lqcfg := []
  armed := []
  running := []
  lastRun := []
  parked := []
  nsmFree := []
  kvfree := []
  sets := []
  gen := default
  saveFree := []
  saveInit := false

/-- A prefix-table entry (R429). -/
structure Pfx where
  ctx : Nat
  lg : Nat
  hash : Nat
  page : Nat
  stamp : Nat
  deriving DecidableEq, Repr, Inhabited

/-- A TTT entry (R215). -/
structure Ttt where
  bytes : Mem
  deriving DecidableEq, Repr, Inhabited

/-- A request for current at a die's power governor (R477): amperes, when it was made, and whether it is granted and not
yet taken up. `key` is the core for a matrix lease, 1024 + 8u + draining for a copy. -/
structure Grant where
  die : Nat
  key : Nat
  amps : Nat
  clock : Nat
  issued : Bool
  deriving DecidableEq, Repr, Inhabited

/-- A counter's overflow in a clock (R467): its group and place, the clock, whether OVF was set before, and the function that
was interrupted. A clear of the counter in that clock undoes it. -/
structure Ovf where
  group : Nat
  idx : Nat
  clock : Nat
  was : Bool
  fn : Option Nat
  deriving DecidableEq, Repr, Inhabited

/-- Device-wide registers of the hub and of the dies (20, 21). -/
structure Hub where
  /-- device time minus the clock's, ns; source; when it was last known good -/
  timeOff : Int
  /-- an offset being slewed away, ns, from a clock on (R474) -/
  slew : Int
  slewAt : Nat
  timeSrc : Nat
  timeOk : Bool
  dieUp : BitVec 4
  fullClk : BitVec 4
  fwst : BitVec 4
  pfx : Tbl Pfx
  stamp : BitVec 32
  ttt : Tbl Mem
  /-- power governor: budget and use per die, waiting requests, oldest first (R477) -/
  budget : Tbl Nat
  used : Tbl Nat
  grants : List Grant
  faultq : List (Nat × Nat × Nat × Nat × Nat)
  msix : List (Nat × Nat)
  dccIrq : List (Nat × Nat)
  syscalls : List (Nat × Nat × Word × Nat)
  /-- by function: INVCTL; the invalidations under way and those held until it is done (R471) -/
  invctl : Tbl (BitVec 64)
  invNow : List (Nat × BitVec 64)
  invHeld : List (Nat × BitVec 64)
  /-- counter save areas of the functions, device addresses (R463) -/
  cntSave : Tbl Nat
  trbctl : Tbl Nat
  trbptr : Tbl Nat
  trbdrop : Tbl Nat
  traces : Tbl Mem
  logctl : Tbl Nat
  loglo : Tbl Nat
  loghi : Tbl Nat
  slcowner : Tbl Nat
  pmvec : Tbl Nat
  slcctr : Tbl Nat
  slccfg : Tbl Nat
  portctr : Tbl Nat
  portcfg : Tbl Nat
  fixedctr : Tbl Nat
  /-- the overflows of the latest clock that had one (R467) -/
  ovfs : List Ovf
  /-- by core: snapshots on their way to its trace buffer (R456) -/
  snaps : Tbl Nat
  tcm : Mem
  fwImage : List Byte
  fwVersion : Nat
  /-- the measurement log, and the attestation reports returned (R479) -/
  fwLog : List (List Byte)
  attest : List (List Byte)
  /-- corrected errors counted, and the rows of latent faults in the DCC event queue (R480) -/
  corrected : Nat
  rows : List Nat
  /-- what BAR2 reads returned (R470) -/
  bar2log : List (List Byte)
  /-- host writes through BAR2 not yet performed, oldest first: function, Relaxed Ordering, device address, bytes (R186) -/
  posted : List (Nat × Bool × Nat × List Byte)
  /-- user hooks that run: core, device time of the call, context (R432) -/
  hooks : List (Nat × Nat × Nat)
  /-- device time, in µs, that aging has reached; the clock of the last steal exchange (R214, R22) -/
  aged : Nat
  stolen : Nat
  deriving DecidableEq, Repr, Inhabited

/-- The hub after reset (R476, R477). -/
def Hub.reset : Hub where
  timeOff := 0
  slew := 0
  slewAt := 0
  timeSrc := 0
  timeOk := false
  dieUp := 0
  fullClk := 0
  fwst := 0
  pfx := []
  stamp := 0
  ttt := []
  budget := []
  used := []
  grants := []
  faultq := []
  msix := []
  dccIrq := []
  syscalls := []
  invctl := []
  invNow := []
  invHeld := []
  cntSave := []
  trbctl := []
  trbptr := []
  trbdrop := []
  traces := []
  logctl := []
  loglo := []
  loghi := []
  slcowner := []
  pmvec := []
  slcctr := []
  slccfg := []
  portctr := []
  portcfg := []
  fixedctr := []
  ovfs := []
  snaps := []
  tcm := []
  fwImage := []
  fwVersion := 0
  fwLog := []
  attest := []
  corrected := 0
  rows := []
  bar2log := []
  posted := []
  hooks := []
  aged := 0
  stolen := 0

/-- Who moves next (model): a core's sequencer, an engine of a core (0 vector, 1 matrix, 2 copy, 3 access core), a
hardware step, or time passing. -/
inductive Turn where
  | seq (core : Nat)
  | engine (core e : Nat)
  | event (i : Instr) (o : Occasion)
  | pass (clocks : Nat)
  deriving DecidableEq, Repr, Inhabited

/-- The machine. -/
structure State where
  /-- model: turns already decided; the slot, and whether its draining ring, whose vector ring may hold the second word of an issue group (R225); the
  place in R172's order of the last move, and its clock; the count of free values used; the word and the occasion being
  executed -/
  agenda : List Turn
  mate : Option (Nat × Bool)
  rank : Nat
  rankAt : Nat
  tick : Nat
  cur : Cursor
  occ : Occasion
  clock : Nat
  slots : Tbl Slot
  cores : Tbl CoreSt
  arrays : Tbl Arr
  /-- device memory by device physical address; host memory by bus address -/
  dram : Mem
  host : Mem
  /-- staging memory of the L2 slices, at 2^22 × slice + offset -/
  slices : Mem
  /-- node records at 64 × (131072 × die + index), and the generation of each -/
  nsm : Mem
  nsmGen : Tbl (BitVec 6)
  stale : Tbl Nat
  dead : Tbl Nat
  ctxs : Tbl Ctx
  runs : List Run
  nextRun : Nat
  /-- queued tasks of the 64 segments, in rank order, resident entries first; resident counts -/
  segs : Tbl (List Task)
  resident : Tbl Nat
  rrCtx : Tbl Nat
  /-- what a member of a task out of its slot keeps beside its save record, by 4 × (2^8 × sequence number + context) +
  member (model) -/
  hidden : Tbl Slot
  /-- the named pipes of the gangs: where member 0's allocation begins in the scratchpad, and the rings (R218) -/
  pipes : Tbl (Nat × Tbl Ring)
  joins : List JoinDec
  walks : List Walk
  nextWalk : Nat
  stalls : Tbl Nat
  fab : Fabric
  hub : Hub
  deriving DecidableEq, Repr, Inhabited

/-- What stops the model for good. -/
inductive Fault where
  /-- A device physical address at or beyond 256 GiB, where the package has no memory (01 R7). Raised by every access to
  device memory. Safe: the machine's behaviour there is not described. -/
  | hole (addr : Nat)
  deriving DecidableEq, Repr

/-- What the model declines. -/
inductive Refusal where
  /-- An instruction of the opcode table without a meaning yet, by its mnemonic. Raised by `exec`. Safe. -/
  | notModelled (mnemonic : String)
  deriving DecidableEq, Repr

/-- The state right after reset: no task, no launch, memory with nothing listed, every register at its reset value. -/
def State.reset : State where
  agenda := []
  mate := none
  rank := 0
  rankAt := 0
  tick := 0
  cur := ⟨0, .seq, ⟨.none, .none, 0⟩, 0, 8, false⟩
  occ := default
  clock := 0
  slots := []
  cores := []
  arrays := []
  dram := []
  host := []
  slices := []
  nsm := []
  nsmGen := []
  stale := []
  dead := []
  ctxs := []
  runs := []
  nextRun := 1
  segs := []
  resident := []
  rrCtx := []
  hidden := []
  pipes := []
  joins := []
  walks := []
  nextWalk := 1
  stalls := []
  fab := Fabric.reset
  hub := Hub.reset

end Sys2Proof.Machine
end

