-- ==== Sys2Proof/Machine/Base.lean ====
section
/-! DEFINITION. Reading and writing the state by name: slots, cores and contexts, registers with their pending writes
(04 R95 to R97), signals and semaphores (02 R35, R36), barriers (13 R321), register-space bytes with their valid bits
(R100), device memory, and the ways a word can fail to complete. -/

namespace Sys2Proof.Machine
open Sys2Proof

/-- The outcome of a step. -/
abbrev Out := Host.Outcome State Fault Refusal

/-- Why a word does not complete as it stands. -/
inductive Exit where
  /-- a precise fault of the second path (R128) -/
  | trap (t : Trap)
  /-- a tile fault or page fault (R165) -/
  | tile (tid tile : Nat)
  /-- the word waits, at least until this clock -/
  | wait (till : Nat)
  /-- the word issues again later, from the state before it changed so -/
  | redo (f : State → State)
  /-- the model stops -/
  | stop (f : Fault)

/-- A computation that can fail to complete. -/
abbrev M := Except Exit

/-- A precise fault with its operand (R130). -/
def trap {α : Type} (cause sub opnd : Nat) : M α := .error (.trap ⟨cause, sub, opnd⟩)

/-- Cause codes (R128). -/
def cILLEGAL : Nat := 1
def cINVREG : Nat := 2
def cARITH : Nat := 3
def cNEGVAR : Nat := 4
def cPERM : Nat := 5
def cALIGN : Nat := 6
def cSTCHK : Nat := 7
def cLEASE : Nat := 8
def cTRAP : Nat := 9
def cWATCHDOG : Nat := 10
def cCOUNT : Nat := 11
def cOVER : Nat := 12
def cNOTREADY : Nat := 13
def cGANG : Nat := 14
/-- PERM subcauses (R128, R136, R338, R137). -/
def pRANGE : Nat := 1
def pRDONLY : Nat := 2
def pNOTENS : Nat := 3
def pBADDESC : Nat := 4
def pNOTOWN : Nat := 5
def pUNMAPPED : Nat := 6
def pARGRANGE : Nat := 7
def pREGRANGE : Nat := 8
def pPRIV : Nat := 9
def pPCRANGE : Nat := 10
def pSPACE : Nat := 11
def pNOCTX : Nat := 12
def pNODEHOME : Nat := 13
def pMEMERR : Nat := 14

/-- A condition that must hold, or a fault. -/
def need (b : Bool) (cause sub opnd : Nat) : M Unit := if b then .ok () else trap cause sub opnd

/-- All ones. -/
def ones64 : Word := 0xFFFFFFFFFFFFFFFF

/-! Units, slots, cores -/

def State.slot (s : State) (u : Nat) : Slot := Tbl.get Slot.reset s.slots u
def State.setSlot (s : State) (u : Nat) (x : Slot) : State := { s with slots := Tbl.put s.slots u x }
def State.core (s : State) (c : Nat) : CoreSt := Tbl.get CoreSt.reset s.cores c
def State.setCore (s : State) (c : Nat) (x : CoreSt) : State := { s with cores := Tbl.put s.cores c x }
def State.arr (s : State) (a : Nat) : Arr := Tbl.get default s.arrays a
def State.setArr (s : State) (a : Nat) (x : Arr) : State := { s with arrays := Tbl.put s.arrays a x }
def State.ctx (s : State) (c : Nat) : Ctx := Tbl.get Ctx.reset s.ctxs c
def State.setCtx (s : State) (c : Nat) (x : Ctx) : State := { s with ctxs := Tbl.put s.ctxs c x }
def State.modSlot (s : State) (u : Nat) (f : Slot → Slot) : State := s.setSlot u (f (s.slot u))
def State.modCore (s : State) (c : Nat) (f : CoreSt → CoreSt) : State := s.setCore c (f (s.core c))
def State.modCtx (s : State) (c : Nat) (f : Ctx → Ctx) : State := s.setCtx c (f (s.ctx c))

/-- The core of a unit, the die of a core (R7). -/
def coreOf (u : Nat) : Nat := u / 4
def dieOf (c : Nat) : Nat := c / 32

/-- The slot the word in hand acts for, and its core. -/
def State.me (s : State) : Slot := s.slot s.cur.u
def State.setMe (s : State) (x : Slot) : State := s.setSlot s.cur.u x
def State.modMe (s : State) (f : Slot → Slot) : State := s.setMe (f s.me)
def State.myCore (s : State) : CoreSt := s.core (coreOf s.cur.u)
def State.setMyCore (s : State) (x : CoreSt) : State := s.setCore (coreOf s.cur.u) x
def State.modMyCore (s : State) (f : CoreSt → CoreSt) : State := s.setMyCore (f s.myCore)
/-- The context of a slot's task. -/
def Slot.ctx (sl : Slot) : Nat := (sl.task.map (·.ctx)).getD 0
def State.myCtx (s : State) : Nat := s.me.ctx

/-- The task a slot holds, or an empty record. -/
def Slot.tk (sl : Slot) : Task := sl.task.getD default
def Slot.modTask (sl : Slot) (f : Task → Task) : Slot := { sl with task := sl.task.map f }

/-- Use a free value: the counter it is applied to. -/
def State.fresh (s : State) : Nat × State := (s.tick, { s with tick := s.tick + 1 })

/-- What of the offset being slewed is gone by now: 100 ns in each ms (R474; the full rate is a DESIGN CHOICE: log entry
34). -/
def State.slewed (s : State) : Int :=
  let n := (s.clock - s.hub.slewAt) * 20 / 21 / 10000
  if s.hub.slew < 0 then -(min s.hub.slew.natAbs n : Nat) else (min s.hub.slew.natAbs n : Nat)

/-- Device time in ns: the arithmetic clock of 1.05 GHz ticks 21 times in 20 ns (R13, R474). -/
def State.devTime (s : State) : Nat := ((s.clock * 20 / 21 : Nat) + s.hub.timeOff + s.slewed).toNat

/-- Clocks in a number of microseconds (R13). -/
def usClk (us : Nat) : Nat := us * 1050

/-! Control registers -/

/-- A bit of a CORECTL (R125). -/
def Slot.corectl (sl : Slot) (k : Nat) : Bool := sl.csr.corectl.getLsbD k
def Slot.modCsr (sl : Slot) (f : Csrs → Csrs) : Slot := { sl with csr := f sl.csr }

/-- Arithmetic flags are set, and the lowest of them whose trap is enabled is latched (R81, R82, R125). -/
def Slot.raise (sl : Slot) (fl : Nat) : Slot :=
  let sl := sl.modCsr (fun c => { c with aflags := c.aflags ||| BitVec.ofNat 7 fl })
  match (List.range 7).find? (fun k => bitOf fl k && sl.corectl (k + 4)) with
  | none => sl
  | some k => if sl.latch.isSome then sl else { sl with latch := some ⟨cARITH, k, 0⟩ }

/-! General registers and predicates -/

/-- Where register field `n` stands in `Slot.g` in the bank in force (R122). -/
def Slot.phys (sl : Slot) (n : Nat) : Nat := if sl.csr.uiact && 56 ≤ n then n + 64 else n

/-- The value of a general register; g0 reads as zero (R41). -/
def Slot.greg (sl : Slot) (n : Nat) : Word := if n = 0 then 0 else Tbl.get 0 sl.g (sl.phys n)

/-- The slot with a register, named by its place in `Slot.g`, written. -/
def Slot.setPhys (sl : Slot) (n : Nat) (v : Word) : Slot := { sl with g := Tbl.set 0 sl.g n v }

/-- The slot with a general register written at once; a write to g0 is discarded (R41). -/
def Slot.setGreg (sl : Slot) (n : Nat) (v : Word) : Slot := if n = 0 then sl else sl.setPhys (sl.phys n) v

/-- A predicate; p0 reads as true (R41). -/
def Slot.pred (sl : Slot) (n : Nat) : Bool := n = 0 || sl.preds.getLsbD n

/-- The slot with a predicate written; a write to p0 is discarded. -/
def Slot.setPred (sl : Slot) (n : Nat) (v : Bool) : Slot :=
  if n = 0 then sl
  else { sl with preds := if v then sl.preds ||| (1#8 <<< n) else sl.preds &&& ~~~(1#8 <<< n) }

/-- The pending write names this general register (by its place in `Slot.g`), or this predicate. -/
def PendEff.onReg (e : PendEff) (n : Nat) : Bool := match e with | .greg k _ => k == n | _ => false
/-- The pending write is a register result. -/
def PendEff.writes (e : PendEff) : Bool := match e with | .greg .. | .pred .. => true | _ => false
def PendEff.onPred (e : PendEff) (n : Nat) : Bool := match e with | .pred k _ => k == n | _ => false

/-- The order of what takes effect in one clock: a CBARSET before arrivals, a CSTAT.barclr after them (R321, R328). -/
def PendEff.place (e : PendEff) : Nat :=
  match e with
  | .barSet _ _ => 0
  | .barClear _ => 2
  | _ => 1

/-- A pending write keeps its place among those that become visible in the same clock: the later-issued stands last
(R96). -/
def addPend (p : Pend) : List Pend → List Pend
  | [] => [p]
  | q :: t =>
    if p.at_ < q.at_ || (p.at_ = q.at_ && p.eff.place < q.eff.place) then p :: q :: t else q :: addPend p t

/-- Reading what a pending write has yet to write: an interlocked one is waited for, and with SCHK a fixed-latency one
is a stall-check fault (R96, R97). -/
def readHazard (sl : Slot) (now : Nat) (on : PendEff → Bool) : M Unit :=
  match sl.pend.find? (fun p => on p.eff && p.locked) with
  | some p => .error (.wait (if p.tag = 0 then p.at_ else now + 1))
  | none => if sl.corectl 0 && sl.pend.any (fun p => on p.eff) then trap cSTCHK 0 0 else .ok ()

/-- Writing with visibility at a clock what a pending write has yet to write: as for a read, but with SCHK only a
pending write that would become visible later is a fault (R97). -/
def writeHazard (sl : Slot) (now till : Nat) (on : PendEff → Bool) : M Unit :=
  match sl.pend.find? (fun p => on p.eff && p.locked) with
  | some p => .error (.wait (if p.tag = 0 then p.at_ else now + 1))
  | none => if sl.corectl 0 && sl.pend.any (fun p => on p.eff && till < p.at_) then trap cSTCHK 0 0 else .ok ()

/-- Read a general register in the word in hand. -/
def rdG (s : State) (n : BitVec 6) : M Word :=
  if n = 0 then .ok 0
  else do
    readHazard s.me s.clock (fun e => e.onReg (s.me.phys n.toNat))
    return s.me.greg n.toNat

/-- Read a predicate in the word in hand. -/
def rdP (s : State) (n : Nat) : M Bool :=
  if n = 0 then .ok true
  else do
    readHazard s.me s.clock (fun e => e.onPred n)
    return s.me.pred n

/-- A fixed-latency write: visible to words issued `lat` clocks later (R96). With latency 1 it is made at once, and
overrides the writes that would become visible no later. -/
def wrEff (s : State) (lat : Nat) (on : PendEff → Bool) (e : PendEff) (f : Slot → Slot) : M State := do
  writeHazard s.me s.clock (s.clock + lat) on
  return s.modMe (fun sl =>
    if lat ≤ 1 then f { sl with pend := sl.pend.filter (fun p => !(on p.eff && p.at_ ≤ s.clock + 1)) }
    else { sl with pend := addPend ⟨s.clock + lat, false, 0, e⟩ sl.pend })

/-- Write a general register with a fixed latency. -/
def wrG (s : State) (n : BitVec 6) (v : Word) (lat : Nat := 1) : M State :=
  if n = 0 then .ok s
  else
    let k := s.me.phys n.toNat
    wrEff s lat (fun e => e.onReg k) (.greg k v) (fun sl => sl.setPhys k v)

/-- Write a predicate with a fixed latency. -/
def wrP (s : State) (n : Nat) (v : Bool) (lat : Nat := 1) : M State :=
  if n = 0 then .ok s
  else wrEff s lat (fun e => e.onPred n) (.pred n v) (fun sl => sl.setPred n v)

/-- Write a general register with an interlocked result, `lat` clocks later (R96). -/
def wrLocked (s : State) (n : BitVec 6) (v : Word) (lat : Nat) : M State :=
  if n = 0 then .ok s
  else do
    let k := s.me.phys n.toNat
    writeHazard s.me s.clock (s.clock + lat) (fun e => e.onReg k)
    return s.modMe (fun sl => { sl with pend := addPend ⟨s.clock + lat, true, 0, .greg k v⟩ sl.pend })

/-- The destination of a word that will wait in its slot for an answer: the answer comes after every fixed-latency write in
flight, and an interlocked one is waited for (R96, R97). -/
def needDest (s : State) (n : BitVec 6) : M Unit :=
  if n = 0 then .ok () else writeHazard s.me s.clock (s.clock + 2 ^ 64) (fun e => e.onReg (s.me.phys n.toNat))

/-- Reserve a general register for an answer from elsewhere, named by a tag: it comes after every fixed-latency write in
flight (R97). -/
def wrTagged (s : State) (n : BitVec 6) (tag : Nat) : M State :=
  if n = 0 then .ok s
  else do
    let k := s.me.phys n.toNat
    writeHazard s.me s.clock (s.clock + 2 ^ 64) (fun e => e.onReg k)
    return s.modMe (fun sl => { sl with pend := addPend ⟨s.clock, true, tag, .greg k 0⟩ sl.pend })

/-- Write a general register with an interlocked result whose latency the manual does not give: a free number of clocks
(log entry 15). -/
def wrLate (s : State) (n : BitVec 6) (v : Word) : M State :=
  let (t, s) := s.fresh
  wrLocked s n v (1 + Config.freeNat 8 t)

/-! Semaphores, barriers, signals -/

/-- A semaphore's count (R36). -/
def Slot.sem (sl : Slot) (n : Nat) : Nat := (Tbl.get 0 sl.sems n).toNat
def Slot.setSem (sl : Slot) (n v : Nat) : Slot := { sl with sems := Tbl.set 0 sl.sems n (BitVec.ofNat 16 v) }

/-- Adding to a semaphore: it stops at 0xFFFF and then FAULTST.SEMSAT is set (R36). A WAITI that waits for it ends
(R117). -/
def Slot.semAdd (sl : Slot) (n k : Nat) : Slot :=
  let v := sl.sem n + k
  let sl := if v ≤ 0xFFFF then sl.setSem n v
    else (sl.setSem n 0xFFFF).modCsr (fun c => { c with faultst := c.faultst ||| (1#18 <<< 16) })
  if sl.hold = .waiti then { sl with hold := .none } else sl

/-- A user interrupt becomes pending; a vector already pending sets FAULTST.UILOST (R121). -/
def Slot.uiRaise (sl : Slot) (n : Nat) : Slot :=
  if sl.csr.uipend.getLsbD n then sl.modCsr (fun c => { c with faultst := c.faultst ||| (1#18 <<< 17) })
  else
    let sl := sl.modCsr (fun c => { c with uipend := c.uipend ||| (1#16 <<< n) })
    if sl.hold = .waiti && !sl.csr.uiact && (sl.csr.uivec.getLsbD n) then { sl with hold := .none } else sl

/-- Arrivals at a barrier (R321). -/
def Bar.arrive (b : Bar) (a : Nat) : Bar :=
  if b.state = 1 then
    if a < b.count then { b with count := b.count - a }
    else if a = b.count then { b with count := 0, state := 2 }
    else { count := 0, state := 2, ovf := true }
  else if 0 < a then { b with ovf := true } else b

def Slot.bar (sl : Slot) (n : Nat) : Bar := Tbl.get default sl.bars n
def Slot.setBar (sl : Slot) (n : Nat) (b : Bar) : Slot := { sl with bars := Tbl.set default sl.bars n b }

/-- The action of a signal byte (R35). -/
def Slot.signal (sl : Slot) (c : SignalC) : Slot :=
  match c with
  | .none => sl
  | .sem n => sl.semAdd n.toNat 1
  | .ui n => sl.uiRaise n.toNat
  | .bar n => sl.setBar n.toNat ((sl.bar n.toNat).arrive 1)

/-- What is applied in clock `now` is seen from the next clock on (R36, R195, R321, R459). -/
def Slot.later (sl : Slot) (now : Nat) (e : PendEff) : Slot := { sl with pend := addPend ⟨now + 1, false, 0, e⟩ sl.pend }

/-- A pending write or signal takes effect. -/
def Slot.applyPend (sl : Slot) (p : Pend) : Slot :=
  match p.eff with
  | .greg n v => sl.setPhys n v
  | .pred n v => sl.setPred n v
  | .signal c => sl.signal c
  | .sem n k => sl.semAdd n k
  | .arrive n k => sl.setBar n ((sl.bar n).arrive k)
  | .barSet n k => sl.setBar n ⟨k, if k = 0 then 2 else 1, false⟩
  | .barClear n => sl.setBar n { sl.bar n with ovf := false }
  | .decl n v => { sl with rings := Tbl.set Ring.none sl.rings n { Tbl.get Ring.none sl.rings n with decl := v } }
  | .trcfg v => sl.modCsr (fun c => { c with trcfg := v })

/-- Bytes that a copy writes in clock `now` arrive at a barrier, together with the others of that clock (R321). -/
def Slot.arriving (sl : Slot) (now n k : Nat) : Slot :=
  let same (p : Pend) : Bool := p.at_ = now + 1 && (match p.eff with | .arrive m _ => m == n | _ => false)
  if sl.pend.any same then
    { sl with pend := sl.pend.map (fun p => if same p then
        { p with eff := match p.eff with | .arrive m j => .arrive m (j + k) | e => e } else p) }
  else sl.later now (.arrive n k)

/-- Everything due by a clock takes effect, in its order. -/
def Slot.settle (sl : Slot) (t : Nat) : Slot :=
  let due := sl.pend.filter (fun p => p.tag = 0 && p.at_ ≤ t)
  let sl := { sl with pend := sl.pend.filter (fun p => !(p.tag = 0 && p.at_ ≤ t)) }
  due.foldl Slot.applyPend sl

/-- Everything in flight takes effect, as when a slot is stopped (R129, R132). -/
def Slot.flush (sl : Slot) : Slot :=
  let due := sl.pend.filter (fun p => p.tag = 0)
  let sl := { sl with pend := sl.pend.filter (fun p => p.tag ≠ 0) }
  due.foldl Slot.applyPend sl

/-- The pending write that an answer completes takes this value at once, and stands after the older writes of its register;
its word retires in this clock (R35). -/
def Slot.answer (sl : Slot) (tag : Nat) (v : Word) (now : Nat) : Slot :=
  let mine (n : Nat) : Bool := sl.pend.any (fun p => p.tag = tag && p.eff.onReg n)
  let old := sl.pend.filter (fun p => !(p.tag = 0 && (match p.eff with | .greg n _ => mine n | _ => false)))
  { sl with pend := old.map (fun p =>
      if p.tag = tag then
        match p.eff with
        | .greg n _ => { p with tag := 0, at_ := 0, eff := .greg n v }
        | e => { p with tag := 0, at_ := now + 1, eff := e }
      else p) }

/-! Timelines -/

def Slot.tl (sl : Slot) (e : Nat) : BitVec 64 := Tbl.get 0 sl.tls e
def Slot.setTl (sl : Slot) (e : Nat) (v : BitVec 64) : Slot := { sl with tls := Tbl.set 0 sl.tls e v }

/-! Scratchpad and register space -/

/-- The bytes of an 8-bit-per-byte word. -/
def wordBytes (n : Nat) (v : Word) : List Byte := leBytes n v.toNat

/-- The register space after bytes are written at an absolute address: a partly covered invalid granule is zeroed
beyond them, and the granules become valid (R100). -/
def CoreSt.regWrite (c : CoreSt) (a : Nat) (bs : List Byte) : CoreSt :=
  let g0 := a / 64
  let g1 := (a + bs.length + 63) / 64
  let c := (List.range (g1 - g0)).foldl (fun c k =>
    if bitOf c.valid (g0 + k) then c
    else { c with regs := c.regs.store (64 * (g0 + k)) (zeros 64), valid := setFld c.valid (g0 + k) 1 1 }) c
  { c with regs := c.regs.store a bs }

/-- The granules of a byte range. -/
def granules (a n : Nat) : List Nat := (List.range ((a + n + 63) / 64 - a / 64)).map (a / 64 + ·)

/-- Every granule of the range is valid. -/
def CoreSt.regValid (c : CoreSt) (a n : Nat) : Bool := (granules a n).all (bitOf c.valid)

/-- Clear valid bits of granules. -/
def CoreSt.regClear (c : CoreSt) (gs : List Nat) : CoreSt :=
  { c with valid := gs.foldl (fun v g => setFld v g 1 0) c.valid }

/-! Write-backs -/

/-- The tag under which a slot's CINV stands in flight until its write-backs are acknowledged (R148). -/
def cinvTag : Nat := 2 ^ 40

/-! Device memory -/

/-- The package's DRAM: four stacks of 64 GiB, die d at 2^36 × d (R7; the placement is PRESUMED, log entry 9). -/
def dramSize : Nat := 2 ^ 38

/-- Read device memory; an address the package does not have stops the model. -/
def rdDram (s : State) (a n : Nat) : M (List Byte) :=
  if a + n ≤ dramSize then .ok (s.dram.bytes a n) else .error (.stop (.hole a))

/-- Write device memory. -/
def wrDram (s : State) (a : Nat) (bs : List Byte) : M State :=
  if a + bs.length ≤ dramSize then .ok { s with dram := s.dram.store a bs } else .error (.stop (.hole a))

/-- Hardware's own reads and writes of the structures the driver places (21 R472): their bases lie in device memory. -/
def State.dev (s : State) (a n : Nat) : Nat := s.dram.num a n
def State.setDev (s : State) (a n v : Nat) : State := { s with dram := s.dram.setNum a n v }

/-- A range of one memory copied into another, listed cells only. -/
def Mem.copyRange (dst : Mem) (d : Nat) (src : Mem) (a n : Nat) : Mem :=
  let kept := dst.filter (fun c => !(d ≤ c.1 && c.1 < d + n))
  (src.filter (fun c => a ≤ c.1 && c.1 < a + n)).foldl (fun m c => Mem.put m (c.1 - a + d) c.2) kept

/-- A field of a context's register block (R472). -/
def Ctx.reg (c : Ctx) (off n : Nat) : Nat := c.block.num off n
def State.ttbase (s : State) (c : Nat) : Nat := (s.ctx c).reg 0x00 8
def State.lpbase (s : State) (c : Nat) : Nat := (s.ctx c).reg 0x08 8
def State.tmplbase (s : State) (c : Nat) : Nat := (s.ctx c).reg 0x10 8
def State.segrot (s : State) (c : Nat) : Nat := (s.ctx c).reg 0x24 1 % 64
def State.faultbase (s : State) (c : Nat) : Nat := (s.ctx c).reg 0x28 8
def State.savebase (s : State) (c : Nat) : Nat := (s.ctx c).reg 0x30 8
def State.savecnt (s : State) (c : Nat) : Nat := (s.ctx c).reg 0x38 4
def State.kvpages (s : State) (c : Nat) : Nat := (s.ctx c).reg 0x3C 4
def State.kvbase (s : State) (c : Nat) : Nat := (s.ctx c).reg 0x40 8
def State.kvmeta (s : State) (c : Nat) : Nat := (s.ctx c).reg 0x48 8

end Sys2Proof.Machine
end

