-- ==== Sys2Proof/Machine/Count.lean ====
section
/-! DEFINITION. Counters, trace records, bank-conflict snapshots and the memory log (20 R453 to R469). -/

namespace Sys2Proof.Machine
open Sys2Proof

/-- The function a context belongs to. -/
def State.fnOf (s : State) (ctx : Nat) : Nat := (s.ctx ctx).fn

/-- An overflow interrupt: the vector set in the owner function's PMVEC (R467). -/
def State.pmIrq (s : State) (fn : Nat) : State :=
  { s with hub := { s.hub with msix := s.hub.msix ++ [(fn, Tbl.get 0 s.hub.pmvec fn)] } }

/-- A counter has overflowed: the owner is interrupted when OVIE is set, and the clock's overflows are kept (R467). -/
def State.overflowed (s : State) (group idx : Nat) (cfg fn : Nat) : State :=
  let i := if bitOf cfg 9 then some fn else none
  let s := match i with | some f => s.pmIrq f | none => s
  { s with hub := { s.hub with
    ovfs := ⟨group, idx, s.clock, bitOf cfg 14, i⟩ :: s.hub.ovfs.filter (fun o => o.clock == s.clock) } }

/-- `n` events on a counter: the value, the configuration with its sticky bits, and whether it overflowed (R465, R467). -/
def ctrAdd (v cfg n : Nat) : Nat × Nat × Bool :=
  if 2 ^ 48 ≤ v + n then ((v + n) % 2 ^ 48, setFld cfg 14 1 1, true) else (v + n, cfg, false)

/-- A counter's configuration counts this event of this slot (R465): bit 8 enables, [13:10] are the slots of group 0. -/
def ctrOn (cfg ev : Nat) (slot : Option Nat) : Bool :=
  bitOf cfg 8 && fld cfg 0 8 = ev && (match slot with | some k => bitOf cfg (10 + k) | none => true)

/-- One counter of a core counts `n` events. -/
def State.count0At (s : State) (core ev : Nat) (slot : Option Nat) (n k : Nat) : State :=
  let c := s.core core
  let cfg := Tbl.get 0 c.cfgs k
  if ctrOn cfg ev slot then
    let (v, g, o) := ctrAdd (Tbl.get 0 c.ctrs k) cfg n
    let s := s.setCore core { c with ctrs := Tbl.set 0 c.ctrs k v, cfgs := Tbl.set 0 c.cfgs k g }
    if o then s.overflowed 0 (8 * core + k) cfg c.pmowner else s
  else s

/-- Events of group 0 on a core (R465). -/
def State.count0 (s : State) (core ev : Nat) (slot : Option Nat) (n : Nat) : State :=
  if (s.core core).cfgs.isEmpty then s else (List.range 8).foldl (fun s k => s.count0At core ev slot n k) s

/-- Events of group 1 on a slice, carrying a function's tag (R464, R465). -/
def State.count1 (s : State) (slice ev fn n : Nat) : State :=
  if Tbl.get 0 s.hub.slcowner slice ≠ fn then s
  else (List.range 4).foldl (fun s k =>
    let i := 4 * slice + k
    let cfg := Tbl.get 0 s.hub.slccfg i
    if ctrOn cfg ev none then
      let (v, g, o) := ctrAdd (Tbl.get 0 s.hub.slcctr i) cfg n
      let s := { s with hub := { s.hub with slcctr := Tbl.set 0 s.hub.slcctr i v, slccfg := Tbl.set 0 s.hub.slccfg i g } }
      if o then s.overflowed 1 i cfg fn else s
    else s) s

/-- Events of group 2 on a fabric port (R465); the physical function owns them. -/
def State.count2 (s : State) (port ev n : Nat) : State :=
  (List.range 8).foldl (fun s k =>
    let i := 8 * port + k
    let cfg := Tbl.get 0 s.hub.portcfg i
    if ctrOn cfg ev none then
      let (v, g, o) := ctrAdd (Tbl.get 0 s.hub.portctr i) cfg n
      let s := { s with hub := { s.hub with portctr := Tbl.set 0 s.hub.portctr i v, portcfg := Tbl.set 0 s.hub.portcfg i g } }
      if o then s.overflowed 2 i cfg 0 else s
    else s) s

/-! Trace records -/

/-- The slice whose trace buffer takes a core's records (R460). -/
def traceSlice (core : Nat) : Nat := 16 * (core / 32) + 4 * (core % 32 / 8) + core % 4

/-- The loop tag of a slot's word at a PC (R453): id, kernel iteration, stage, stage predicates, depth. -/
structure LoopTag where
  id : Nat
  j : Nat
  k : Nat
  e : Nat
  depth : Nat
  deriving DecidableEq, Repr, Inhabited

/-- No loop (R453). -/
def LoopTag.none : LoopTag := ⟨0, 0, 0, 1, 0⟩

/-- A record's header and body (R460). -/
def traceBytes (type units core slot strm seq time : Nat) (t : LoopTag) (body : Nat) (rest : List Byte) : List Byte :=
  leBytes 1 type ++ leBytes 1 units ++ leBytes 1 core ++ leBytes 1 (slot + strm * 4 + t.k * 32) ++ leBytes 4 seq
    ++ leBytes 8 time ++ leBytes 1 t.id ++ leBytes 1 t.e ++ leBytes 2 t.depth ++ leBytes 4 t.j ++ leBytes 8 body
    ++ rest ++ zeros (64 * units - 32 - rest.length)

/-- Units of a slice's record ring: 192 KiB (R461). -/
def traceUnits : Nat := 3072

/-- A record's bytes enter a slice's ring from its next unit (R461). -/
def State.traceStore (s : State) (slice : Nat) (bs : List Byte) : State :=
  let p := Tbl.get 0 s.hub.trbptr slice
  let u := fld p 0 12
  let n := bs.length / 64
  let m := (pieces 64 n bs).zip (List.range n) |>.foldl (fun m e => Mem.store m (64 * ((u + e.2) % traceUnits)) e.1)
    (Tbl.get [] s.hub.traces slice)
  let p := (u + n) % traceUnits + (fld p 12 32 + (u + n) / traceUnits) % 2 ^ 32 * 2 ^ 12
  { s with hub := { s.hub with traces := Tbl.set [] s.hub.traces slice m, trbptr := Tbl.set 0 s.hub.trbptr slice p } }

/-- A record is dropped and counted (R461). -/
def State.traceDrop (s : State) (slice fn : Nat) : State :=
  let d := s.hub.trbdrop
  let d := Tbl.set 0 (Tbl.set 0 d slice ((Tbl.get 0 d slice + 1) % 2 ^ 48)) (64 + slice) (Tbl.get 0 d (64 + slice) + 1)
  { s with hub := { s.hub with trbdrop := d } }.count1 slice 0x07 fn 1

/-- A record of a core's slot is written, or dropped and counted; the first kept after drops is preceded by a DROP record
(R461). The drops since the last DROP record stand at 64 + slice of `trbdrop`. -/
def State.trace (s : State) (core ctx : Nat) (bs : List Byte) : State :=
  let slice := traceSlice core
  let c := Tbl.get 0 s.hub.trbctl slice
  let fn := s.fnOf ctx
  let since := Tbl.get 0 s.hub.trbdrop (64 + slice)
  let drop := traceBytes 7 1 core 0 0 0xFFFFFFFF s.devTime LoopTag.none since []
  let all := if since = 0 then bs else drop ++ bs
  let p := Tbl.get 0 s.hub.trbptr slice
  let fits := bitOf c 1 || (fld p 12 32 = 0 && fld p 0 12 + all.length / 64 ≤ traceUnits)
  if bitOf c 0 && fld c 16 4 = fn && fits then
    let s := s.traceStore slice all
    let s := { s with hub := { s.hub with trbdrop := Tbl.set 0 s.hub.trbdrop (64 + slice) 0 } }
    s.count1 slice 0x06 fn (if since = 0 then 1 else 2)
  else s.traceDrop slice fn

/-- The cells of a core's bank-conflict matrix as nine units of 64 bytes (R454, R460). The cells of rows 0 to 7 are free
values: which requesters met at a bank in a clock is not fixed (log entry 16). -/
def CoreSt.bcmBytes (c : CoreSt) (t : Nat) : List Byte :=
  (List.range 9).flatMap (fun r => (List.range 16).flatMap (fun b =>
    leBytes 4 (if r < 8 then Config.freeNat 12 (256 * t + 16 * r + b) else if 8 ≤ b then 0 else Tbl.get 0 c.bcm (16 * r + b))))

/-- A cell of the matrix counts modulo 2^32 (R454). -/
def CoreSt.bcmAdd (c : CoreSt) (row col n : Nat) : CoreSt :=
  { c with bcm := Tbl.set 0 c.bcm (16 * row + col) ((Tbl.get 0 c.bcm (16 * row + col) + n) % 2 ^ 32) }

/-- A snapshot record: type 2 at a loop exit, type 3 at a BCMSNAP (R456, R457). A core queues two on their way to its buffer:
how many have left the queue by then is a free value (log entry 16), and one that finds it full is dropped. -/
def State.snapRecord (s : State) (u type : Nat) (t : LoopTag) (body : Nat) : State :=
  let sl := s.slot u
  let (k, s) := s.fresh
  let n := Tbl.get 0 s.hub.snaps (coreOf u)
  let n := n - Config.freeNat 15 k % (n + 1)
  if 2 ≤ n then s.traceDrop (traceSlice (coreOf u)) (s.fnOf sl.ctx)
  else { s with hub := { s.hub with snaps := Tbl.set 0 s.hub.snaps (coreOf u) (n + 1) } }.trace (coreOf u) sl.ctx
    (traceBytes type 10 (coreOf u) (u % 4) 0 sl.tk.seq s.devTime t body (zeros 32 ++ (s.core (coreOf u)).bcmBytes k))

/-! The memory log -/

/-- A request that reaches a slice is logged when its filter lets it (R469). -/
def State.slcLog (s : State) (slice cls fn op : Nat) (hit : Bool) (core addr : Nat) : State :=
  let c := Tbl.get 0 s.hub.logctl slice
  if bitOf c 8 && bitOf c cls && fld c 16 4 = fn && Tbl.get 0 s.hub.loglo slice ≤ addr
      && addr ≤ Tbl.get 0 s.hub.loghi slice then
    let n := Tbl.get 0 s.hub.logctl (64 + slice)
    if n < 4096 || bitOf c 9 then
      let e := leBytes 4 s.clock ++ leBytes 1 cls ++ leBytes 1 op ++ leBytes 1 (b2n hit) ++ leBytes 1 core ++ leBytes 8 addr
      let m := Mem.store (Tbl.get [] s.hub.traces slice) (196608 + 16 * (n % 4096)) e
      { s with hub := { s.hub with traces := Tbl.set [] s.hub.traces slice m, logctl := Tbl.set 0 s.hub.logctl (64 + slice) (n + 1) } }
    else s.count1 slice 0x07 fn 1
  else s

/-- Granules of 32 bytes of the staging area read (op 0) or written (op 1) by a requester of class `cls`: counted, and
logged (R465, R469). -/
def State.slcTouch (s : State) (slice cls ctx op core off n : Nat) : State :=
  let fn := s.fnOf ctx
  (s.slcLog slice cls fn op true core off).count1 slice (1 + op) fn ((off + n + 31) / 32 - off / 32)

/-- The place in `Hub.fixedctr` of a fixed counter of group 3 (R464): 0 grant-wait clocks and 4 skipped B loads by core,
1 dispatch-stall clocks by die, one copy per function. -/
def fixedKey (fn k unit : Nat) : Nat := (fn * 8 + k) * 128 + unit
def State.fixedAdd (s : State) (fn k unit n : Nat) : State :=
  let i := fixedKey fn k unit
  { s with hub := { s.hub with fixedctr := Tbl.set 0 s.hub.fixedctr i ((Tbl.get 0 s.hub.fixedctr i + n) % 2 ^ 48) } }

end Sys2Proof.Machine
end

