-- ==== Sys2Proof/Machine/Xlate.lean ====
section
/-! DEFINITION. Tensor descriptors and translation (03 R83 to R91, 05 R155 to R157): the checks of a descriptor, the
placement of the linear view, the home of a tile, the tile-table entry, the layout-unit caches, and the scalar L1
(R149). -/

namespace Sys2Proof.Machine
open Sys2Proof

/-- A tensor descriptor (R86). -/
structure Desc where
  fmt : Nat
  rank : Nat
  layout : Nat
  flags : Nat
  scale : Nat
  part : Nat
  e0 : Nat
  e1 : Nat
  e2 : Nat
  e3 : Nat
  shape : Nat
  ttb : Nat
  soff : Nat
  owner : Nat
  gen : Nat
  zero : Nat
  deriving DecidableEq, Repr, Inhabited

/-- A descriptor from its 64 bytes. -/
def Desc.parse (b : List Byte) : Desc :=
  let f (o n : Nat) : Nat := leNat ((b.drop o).take n)
  ⟨f 0 1, f 1 1, f 2 1, f 3 1, f 4 2, f 6 2, f 8 4, f 12 4, f 16 4, f 20 4, f 24 4, f 32 8, f 40 8, f 48 2, f 50 2, f 28 4⟩

/-- Element bits of a format code (R61); 0 for a reserved code. -/
def fmtBits (c : Nat) : Nat := nth 0 [32, 16, 16, 8, 8, 4, 4, 8, 8, 32, 16, 8, 8, 4, 64, 1, 64] c

/-- Layouts a format accepts, as a mask (R61). -/
def fmtLayouts (c : Nat) : Nat :=
  nth 0 [0x27, 0x37, 0x17, 0x37, 0x37, 0x06, 0x06, 0x06, 0x06, 0x07, 0x07, 0x27, 0x07, 0x08, 0x03, 0x40, 0x03] c

/-- The formats with scales (R61). -/
def fmtScaled (c : Nat) : Bool := (5 ≤ c && c ≤ 8) || c = 0xD

/-- Flags of R87. -/
def Desc.dw (d : Desc) : Bool := bitOf d.flags 0
def Desc.sr (d : Desc) : Bool := bitOf d.flags 1
def Desc.partd (d : Desc) : Bool := bitOf d.flags 2
def Desc.hosted (d : Desc) : Bool := bitOf d.flags 3
def Desc.ronly (d : Desc) : Bool := bitOf d.flags 4
def Desc.pin (d : Desc) : Bool := bitOf d.flags 5

/-- Bytes per row: e0 elements rounded up to whole bytes (R155). -/
def Desc.row (d : Desc) : Nat := (d.e0 * fmtBits d.fmt + 7) / 8
/-- Base-2 logarithm of the rows in one tile (R86). -/
def Desc.code (d : Desc) : Nat := d.shape % 256
/-- Product of extents 1 to 3. -/
def Desc.rows (d : Desc) : Nat := d.e1 * d.e2 * d.e3
/-- The bytes of the linear view (R84), or of a CSR stream (R276). -/
def Desc.size (d : Desc) : Nat :=
  if d.layout = 5 then 4 * (d.e1 + 1) + roundUp (2 * d.e2) 64 + roundUp (d.e2 * fmtBits d.fmt / 8) 64
  else (d.e0 * d.rows * fmtBits d.fmt + 7) / 8

/-- The rules of R61, R69 to R71, R86 to R88, R155, R276 and R425 that a descriptor must keep (R90). DESIGN CHOICE (log entry 71): the
scale tensor id of an unscaled format, zero and ignored by R86, may hold any id: only its bits [15:12] are checked. -/
def Desc.ok (d : Desc) : Bool :=
  let c := d.fmt
  let mode := fld d.part 14 2
  let pk := fld d.part 7 7
  let f := fld d.part 0 7
  c ≤ 0x10 && 1 ≤ d.rank && d.rank ≤ 4 && d.layout ≤ 6 && bitOf (fmtLayouts c) d.layout && d.flags < 64
    && d.scale < 4096 && d.zero = 0
    && 1 ≤ d.e0 && 1 ≤ d.e1 && 1 ≤ d.e2 && 1 ≤ d.e3
    && (2 ≤ d.rank || d.e1 = 1) && (3 ≤ d.rank || d.e2 = 1) && (4 ≤ d.rank || d.e3 = 1)
    && fld d.shape 8 16 = 0 && fld d.shape 24 8 = (if c = 5 then 64 else 0)
    && d.code ≤ 16 && (bitOf 0x26 d.layout || d.code = 0)
    && d.ttb % 64 = 0 && d.soff % 64 = 0 && (fmtScaled c || d.soff = 0)
    && mode ≠ 3 && (d.partd == (mode ≠ 0 : Bool)) && (mode ≠ 0 || (pk = 0 && f = 0))
    && (mode = 0 || (1 ≤ pk && pk ≤ 81 && f + pk ≤ 81)) && !(d.hosted && d.partd)
    && (c ≠ 5 || d.e0 % 256 = 0) && (!(6 ≤ c && c ≤ 8) || d.e0 % 32 = 0)
    && (c ≠ 0xD || (d.e0 % 128 = 0 && d.rows % 8 = 0))
    && (d.layout ≠ 1 || d.row ≤ 65536 / 2 ^ d.code)
    && (d.layout ≠ 2 || (d.row % 256 = 0 && d.code = 4))
    && (d.layout ≠ 4 || (d.rank = 3 && d.row * d.e1 % 64 = 0 && d.row * d.e1 ≤ 4096))
    && (d.layout ≠ 5 || (d.e0 ≤ 1536 && d.e3 = 1))

/-- The bytes of a scaled tensor's scale arrays, which begin at the scale offset (R69 to R71). -/
def Desc.scaleBytes (d : Desc) : Nat :=
  match d.fmt with
  | 5 =>
    let blk := roundUp (d.soff + d.rows * roundUp (d.e0 / 8) 32) 64 - d.soff
    blk + ceilDiv d.rows 64 * roundUp (2 * (d.e0 / 256)) 32
  | 0xD => d.rows * roundUp (2 * (d.e0 / 128)) 32
  | _ => d.rows * roundUp (d.e0 / 32) 32

/-- The scale tensor of a scaled tensor is UINT8 and linear and holds the scale arrays (R69 to R71). -/
def Desc.scalesIn (d t : Desc) : Bool := t.fmt = 0xC && t.layout = 0 && d.soff + d.scaleBytes ≤ t.size

/-- The byte position of a linear offset in the layout (R155, R71, R425). -/
def Desc.pos (d : Desc) (off : Nat) : Nat :=
  match d.layout with
  | 1 =>
    let n := off / d.row
    n / 2 ^ d.code * 65536 + n % 2 ^ d.code * (65536 / 2 ^ d.code) + off % d.row
  | 2 =>
    let n := off / d.row
    let c := off % d.row
    (n / 16 * (d.row / 256) + c / 256) * 4096 + n % 16 * 256 + c % 256
  | 3 =>
    let k := 2 * off % d.e0
    let n := 2 * off / d.e0
    (n / 8 * (d.e0 / 64) + k / 64) * 256 + n % 8 * 32 + k % 64 / 2
  | 4 =>
    let r := d.row * d.e1
    let tok := off / r
    tok / 16 * 65536 + tok % 16 * r + off % r
  | _ => off

/-- The tiles of a tensor. -/
def Desc.tiles (d : Desc) : Nat := d.pos (d.size - 1) / 65536 + 1

/-- The package a tile is homed on, for a descriptor held on package `here` (R88). -/
def Desc.home (d : Desc) (here t : Nat) : Nat :=
  let pk := fld d.part 7 7
  let f := fld d.part 0 7
  match fld d.part 14 2 with
  | 1 => f + t / ceilDiv d.tiles pk
  | 2 => f + t % pk
  | _ => here

/-- The fixed descriptor of tensor 4095, the tensor table itself (R85). -/
def Desc.table (ctx : Nat) : Desc := ⟨0xC, 1, 0, 0, 0, 0, 262144, 1, 1, 1, 0, 0, 0, ctx, 0, 0⟩

/-- The ports of a core with a layout unit (R155). -/
def ptSEQ : Nat := 0
def ptVEC : Nat := 1
def ptMTX : Nat := 2
def ptCOPY : Nat := 3
def ptACC : Nat := 4

/-- A most-recent-first list kept to `k` entries of one port. -/
def keepPort {α : Type} (port : α → Bool) : Nat → List α → List α
  | _, [] => []
  | k, a :: t => if port a then (match k with | 0 => keepPort port 0 t | k + 1 => a :: keepPort port k t) else a :: keepPort port k t

/-- A tensor's descriptor through a core's layout unit, checked when it is loaded (R85, R90, R155); the scale tensor 4095 is the table
itself. DESIGN CHOICE (log entry 71): an unused entry is NOTENS whatever its owner field, though R90 checks ownership first. -/
def getDesc (s : State) (core port ctx tid va : Nat) : M (State × Desc) :=
  if tid = 4095 then .ok (s, Desc.table ctx)
  else
    let c := s.core core
    let key (e : Nat × Nat × Nat × List Byte) : Bool := e.1 == port && e.2.1 == ctx && e.2.2.1 == tid
    match c.descs.find? key with
    | some e =>
      let s := s.setCore core { c with descs := e :: c.descs.filter (fun e => !key e) }
      .ok (s, Desc.parse e.2.2.2)
    | none => do
      let b ← rdDram s (s.ttbase ctx + 64 * tid) 64
      let d := Desc.parse b
      need (d.fmt % 32 ≠ 0x1F) cPERM pNOTENS va
      need (d.owner = ctx) cPERM pNOTOWN va
      need d.ok cPERM pBADDESC va
      if fmtScaled d.fmt then
        let sd ← if d.scale = 4095 then .ok (Desc.table ctx)
          else (rdDram s (s.ttbase ctx + 64 * d.scale) 64).map Desc.parse
        need (d.scalesIn sd) cPERM pBADDESC va
      let l := keepPort (fun e => e.1 == port) 256 ((port, ctx, tid, b) :: c.descs)
      return (s.setCore core { c with descs := l }, d)

/-- Where a byte of a tensor stands. -/
inductive Place where
  | dev (pa : Nat)
  | host (ba : Nat)
  | remote (pkg : Nat)
  deriving DecidableEq, Repr, Inhabited

/-- The frame of a tile, through the layout unit's tile cache (R155, R156). -/
def getTile (s : State) (core port ctx tid : Nat) (d : Desc) (tile va : Nat) : M (State × Nat) :=
  let c := s.core core
  let key (e : Nat × Nat × Nat × Nat × Nat) : Bool :=
    e.1 == port && e.2.1 == ctx && e.2.2.1 == tid && e.2.2.2.1 == tile
  match c.tiles.find? key with
  | some e => .ok (s.setCore core { c with tiles := e :: c.tiles.filter (fun e => !key e) }, e.2.2.2.2)
  | none => do
    let b ← rdDram s (d.ttb + 8 * tile) 8
    let e := leNat b
    need (fld e 60 2 = 0 && fld e 0 16 = 0) cPERM pBADDESC va
    need (!bitOf e 62 || d.hosted) cPERM pBADDESC va
    if !bitOf e 63 || bitOf e 62 then
      if d.pin then trap cPERM pUNMAPPED va else .error (.tile tid tile)
    else
      let fr := fld e 16 44 * 65536
      let kb := s.kvbase ctx
      need (d.layout ≠ 4 || (kb ≤ fr && fr < kb + 65536 * s.kvpages ctx)) cPERM pBADDESC va
      let l := keepPort (fun e => e.1 == port) 4096 ((port, ctx, tid, tile, fr) :: c.tiles)
      return (s.setCore core { c with tiles := l }, fr)

/-- A die is offered for work (R476). -/
def State.dieUp (s : State) (d : Nat) : Bool := s.hub.dieUp.getLsbD d

/-- An access to the DRAM of a die that is not offered (R476). -/
def needDie (s : State) (pa va : Nat) : M Unit := need (s.dieUp (pa / 2 ^ 36)) cNOTREADY 2 va

/-- Where the byte at offset `off` of a tensor stands; an offset at or beyond the view is RANGE (R83). -/
def placeByte (s : State) (core port ctx tid : Nat) (d : Desc) (off : Nat) : M (State × Place) := do
  let va := tid * 2 ^ 52 + off
  need (off < d.size) cPERM pRANGE va
  if tid = 4095 then
    needDie s (s.ttbase ctx + off) va
    return (s, .dev (s.ttbase ctx + off))
  let p := d.pos off
  let home := d.home s.fab.pkg (p / 65536)
  if home ≠ s.fab.pkg then return (s, .remote home)
  let (s, fr) ← getTile s core port ctx tid d (p / 65536) va
  if !d.hosted then needDie s fr va
  return (s, if d.hosted then .host (fr + p % 65536) else .dev (fr + p % 65536))

/-- Where `n` consecutive bytes of the linear view stand. -/
def placeBytes (core port ctx tid : Nat) (d : Desc) : State → Nat → Nat → M (State × List Place)
  | s, _, 0 => .ok (s, [])
  | s, off, n + 1 => do
    let (s, p) ← placeByte s core port ctx tid d off
    let (s, ps) ← placeBytes core port ctx tid d s (off + 1) n
    return (s, p :: ps)

/-- A program may write only the generation and the user words of a tensor-table entry (R85). DESIGN CHOICE (log entry 71): an atomic
of 4 or 8 bytes that holds the generation holds the owner too, when it is aligned, and is RDONLY, though R89 lets an ATOM advance the
generation. -/
def tableWrOk (off n : Nat) : Bool := 50 ≤ off % 64 && off % 64 + n ≤ 64

/-- The descriptor of an address, with the checks that an access of `n` bytes makes before its tiles are looked at:
R83, the write checks of R85 and R87. -/
def openTensor (s : State) (core port ctx va n : Nat) (wr : Bool) : M (State × Desc) := do
  let tid := va / 2 ^ 52 % 4096
  let off := va % 2 ^ 52
  let (s, d) ← getDesc s core port ctx tid va
  need (off + n ≤ d.size) cPERM pRANGE va
  need (!wr || !d.ronly) cPERM pRDONLY va
  need (!wr || tid ≠ 4095 || tableWrOk off n) cPERM pRDONLY va
  return (s, d)

/-- A tile whose translation a register holds needs none from the tables (R158): it stands in the layout unit's tile cache. -/
def State.seedTile (s : State) (core port ctx : Nat) (x : Option (Nat × Nat × Nat)) : State :=
  match x with
  | none => s
  | some (tid, tile, fr) => s.modCore core (fun c =>
    if c.tiles.any (fun e => e.1 == port && e.2.1 == ctx && e.2.2.1 == tid && e.2.2.2.1 == tile) then c
    else { c with tiles := (port, ctx, tid, tile, fr) :: c.tiles })

/-- The translation that the layout unit has of the tile of an address. -/
def State.tileAt (s : State) (core port ctx va : Nat) : Option (Nat × Nat × Nat) :=
  let tid := va / 2 ^ 52 % 4096
  match getDesc s core port ctx tid va with
  | .ok (t, d) =>
    let tile := d.pos (va % 2 ^ 52) / 65536
    ((t.core core).tiles.find? (fun e => e.1 == port && e.2.1 == ctx && e.2.2.1 == tid && e.2.2.2.1 == tile)).map
      (fun e => (tid, tile, e.2.2.2.2))
  | .error _ => none

/-! Scalar L1 -/

/-- A byte of device or host memory. -/
def rdPhys (s : State) (host : Bool) (a : Nat) : M Byte :=
  if host then .ok (s.host.get a)
  else if a < dramSize then .ok (s.dram.get a) else .error (.stop (.hole a))

/-- A byte of device or host memory written, updating the resident line of a core's scalar L1 (R149). -/
def wrPhys (s : State) (core : Nat) (host : Bool) (a : Nat) (b : Byte) : M State :=
  if !host && dramSize ≤ a then .error (.stop (.hole a))
  else
    let s := if host then { s with host := s.host.put a b } else { s with dram := s.dram.put a b }
    let c := s.core core
    .ok (if c.l1.any (fun l => l.host == host && l.line == a / 64) then
      s.setCore core { c with l1 := c.l1.map (fun l =>
        if l.host == host && l.line == a / 64 then { l with data := setNth l.data (a % 64) b } else l) }
    else s)

/-- A line enters a set of four ways: the victim is any line that is not kept, or any when all are kept (R149; the set
index is PRESUMED, log entry 10). -/
def l1Insert (s : State) (core : Nat) (l : L1Line) : State :=
  let c := s.core core
  let inSet (m : L1Line) : Bool := m.line % 128 == l.line % 128
  let ways := c.l1.filter inSet
  if ways.length < 4 then s.setCore core { c with l1 := l :: c.l1 }
  else
    let cand := if ways.all (·.keep) then ways else ways.filter (fun m => !m.keep)
    let (t, s) := s.fresh
    let v := nth l cand (Config.freeNat 1 t % cand.length)
    s.setCore core { s.core core with l1 := l :: c.l1.filter (fun m => !(m.host == v.host && m.line == v.line)) }

/-- A byte read through a core's scalar L1 under a cache policy (R149). -/
def l1Read (s : State) (core cache : Nat) (host : Bool) (a : Nat) : M (State × Byte) :=
  if cache = 3 then do return (s, ← rdPhys s host a)
  else
    match (s.core core).l1.find? (fun l => l.host == host && l.line == a / 64) with
    | some l => .ok (s, nth 0 l.data (a % 64))
    | none => do
      let b ← rdPhys s host a
      if cache = 1 then return (s, b)
      let m := if host then s.host else s.dram
      return (l1Insert s core ⟨host, a / 64, m.bytes (a / 64 * 64) 64, cache = 2⟩, b)

/-- The scalar L1 is invalidated (R149). -/
def CoreSt.l1Flush (c : CoreSt) : CoreSt := { c with l1 := [] }

end Sys2Proof.Machine
end

