-- ==== Sys2Proof/Machine/Nodes.lean ====
section
/-! DEFINITION. Node records, grammar frames and key-value pages (16 R376 to R378, R398 to R404, R419, R420;
17 R423, R424), and the task queue: segments, sequence numbers, spawns, join decrements and the live counts of launches
(16 R382 to R389, 07 R208). -/

namespace Sys2Proof.Machine
open Sys2Proof

/-- The null reference (R376). -/
def nullRef : Nat := 0xFFFFFFFF

/-- Fields of a node reference (R376). -/
def nPkg (r : Nat) : Nat := fld r 25 7
def nDie (r : Nat) : Nat := fld r 23 2
def nGen (r : Nat) : Nat := fld r 17 6
def nIdx (r : Nat) : Nat := fld r 0 17
/-- The record a reference names, counted over the package's four dies. -/
def nRec (r : Nat) : Nat := 131072 * nDie r + nIdx r
def nAddr (r : Nat) : Nat := 64 * nRec r

/-- A field of a node record (R377). -/
def State.nf (s : State) (r off n : Nat) : Nat := s.nsm.num (nAddr r + off) n
def State.setNf (s : State) (r off n v : Nat) : State := { s with nsm := s.nsm.setNum (nAddr r + off) n v }
/-- The current generation of a record. -/
def State.ngen (s : State) (r : Nat) : Nat := (Tbl.get 0 s.nsmGen (nRec r)).toNat

/-- Status codes (R380). -/
def stOK : Nat := 0
def stSTALE : Nat := 1
def stDEAD : Nat := 2
def stNOSPACE : Nat := 3
def stBUSY : Nat := 4
def stNONE : Nat := 5
def stSAT : Nat := 6

/-- FLAGS bits (R377). -/
def flLIVE : Nat := 0
def flDEAD : Nat := 3
def flCPEND : Nat := 4
def flPIN : Nat := 5
def flRPAR : Nat := 6
def flSAT : Nat := 7

def State.nflag (s : State) (r k : Nat) : Bool := bitOf (s.nf r 22 2) k
def State.setNflag (s : State) (r k : Nat) (b : Bool) : State := s.setNf r 22 2 (setFld (s.nf r 22 2) k 1 (b2n b))

/-- A reference's status: STALE, DEAD or OK (R376, R378). -/
def State.nodeSt (s : State) (r : Nat) : Nat :=
  if nGen r ≠ s.ngen r then stSTALE else if s.nflag r flDEAD then stDEAD else stOK

/-- A STALE or DEAD outcome is counted on the record's die, in the copy of the asking function (R378, R464): by
4 × function + die. -/
def State.countSt (s : State) (ctx r st : Nat) : State :=
  let k := 4 * s.fnOf ctx + nDie r
  if st = stSTALE then { s with stale := Tbl.set 0 s.stale k ((Tbl.get 0 s.stale k + 1) % 2 ^ 48) }
  else if st = stDEAD then { s with dead := Tbl.set 0 s.dead k ((Tbl.get 0 s.dead k + 1) % 2 ^ 48) }
  else s

/-- An event count without a register of its own (model). -/
def State.bump (s : State) (k : Nat) : State := { s with stalls := Tbl.set 0 s.stalls k (Tbl.get 0 s.stalls k + 1) }

/-- Hardware's own translation of an address of a context, without a cache: the device address of a byte of a tensor
homed here, if it is mapped. -/
def State.hwAddr (s : State) (ctx va : Nat) : Option Nat :=
  match openTensor { s with cores := [] } 0 0 ctx va 1 false with
  | .ok (s', d) =>
    match placeByte s' 0 0 ctx (va / 2 ^ 52 % 4096) d (va % 2 ^ 52) with
    | .ok (_, .dev a) => some a
    | _ => none
  | .error _ => none

/-! Grammar frames -/

/-- The device address of a cell of the context's frame pool (R419); none when there is no pool. -/
def State.frameAddr (s : State) (ctx i : Nat) : Option Nat :=
  let tid := (s.ctx ctx).gramctl.toNat
  if tid = 0 then none else s.hwAddr ctx (tid * 2 ^ 52 + 16 * i)

/-- A frame's count is raised (R420). -/
def State.frameRaise (s : State) (ctx i : Nat) : State :=
  if i = 0 then s
  else match s.frameAddr ctx i with
    | none => s
    | some a => s.setDev a 4 (s.dev a 4 + 1)

/-- A frame's count is lowered; at zero the frame is pushed on the free list, the pop counter advances, and its parent is
lowered in turn (R420). -/
def State.frameLower : Nat → State → Nat → Nat → State
  | 0, s, _, _ => s
  | fuel + 1, s, ctx, i =>
    if i = 0 then s
    else match s.frameAddr ctx i, s.frameAddr ctx 0 with
      | some a, some h =>
        if s.dev a 4 = 0 then s.bump 10
        else
          let s := s.setDev a 4 (s.dev a 4 - 1)
          if s.dev a 4 ≠ 0 then s
          else
            let par := s.dev (a + 4) 4
            let s := s.setDev (a + 4) 4 (s.dev h 4)
            let s := s.setDev h 4 i
            let s := s.setDev (h + 4) 4 (s.dev (h + 4) 4 + 1)
            State.frameLower fuel s ctx par
      | _, _ => s

/-- The depth of a chain that hardware follows at most: every record or frame of the package once. -/
def chainFuel : Nat := 524288

/-- GFRAME of a node changes: the frame counts follow (R420). -/
def State.frameSwap (s : State) (ctx old new : Nat) : State :=
  if old = new then s else (s.frameRaise ctx new).frameLower chainFuel ctx old

/-! Key-value pages -/

/-- The device address of a page's descriptor (R423). -/
def State.pgAddr (s : State) (ctx r : Nat) : Nat := s.kvmeta ctx + 32 * (r % 2 ^ 26)
def State.pgF (s : State) (ctx r off n : Nat) : Nat := s.dev (s.pgAddr ctx r + off) n
def State.setPgF (s : State) (ctx r off n v : Nat) : State := s.setDev (s.pgAddr ctx r + off) n v
/-- The reference is stale: its generation is not the page's (R423). -/
def State.pgStale (s : State) (ctx r : Nat) : Bool := fld r 26 6 ≠ s.pgF ctx r 12 1 % 64

/-- A page whose COUNT and PIN are both zero is freed, and the count of its PREV lowered in turn (R424). -/
def State.pgLower : Nat → State → Nat → Nat → State × Nat
  | 0, s, _, _ => (s, stOK)
  | fuel + 1, s, ctx, r =>
    if s.pgStale ctx r then (s, stSTALE)
    else if s.pgF ctx r 4 2 = 0 then (s, stNONE)
    else
      let s := s.setPgF ctx r 4 2 (s.pgF ctx r 4 2 - 1)
      if s.pgF ctx r 4 2 = 0 ∧ s.pgF ctx r 6 2 = 0 then
        let prev := s.pgF ctx r 0 4
        let s := s.setPgF ctx r 11 1 0
        let s := s.setPgF ctx r 12 1 ((s.pgF ctx r 12 1 + 1) % 64)
        let s := s.modCtx ctx (fun c => { c with kvfree := r % 2 ^ 26 :: c.kvfree })
        if prev = nullRef then (s, stOK) else ((State.pgLower fuel s ctx prev).1, stOK)
      else (s, stOK)

/-- A page's count is raised (R424). -/
def State.pgRaise (s : State) (ctx r : Nat) : State × Nat :=
  if s.pgStale ctx r then (s, stSTALE)
  else if s.pgF ctx r 4 2 = 0xFFFF then (s, stSAT)
  else (s.setPgF ctx r 4 2 (s.pgF ctx r 4 2 + 1), stOK)

/-- A page is pinned (R424, R426). -/
def State.pgPin (s : State) (ctx r : Nat) : State × Nat :=
  if s.pgStale ctx r then (s, stSTALE)
  else if s.pgF ctx r 6 2 = 0xFFFF then (s, stSAT)
  else (s.setPgF ctx r 6 2 (s.pgF ctx r 6 2 + 1), stOK)

/-- A page is unpinned; at PIN 0 and COUNT 0 it is freed (R424, R426). -/
def State.pgUnpin (s : State) (ctx r : Nat) : State × Nat :=
  if s.pgStale ctx r then (s, stSTALE)
  else if s.pgF ctx r 6 2 = 0 then (s, stNONE)
  else
    let s := s.setPgF ctx r 6 2 (s.pgF ctx r 6 2 - 1)
    if s.pgF ctx r 6 2 = 0 ∧ s.pgF ctx r 4 2 = 0 then
      ((State.pgLower chainFuel (s.setPgF ctx r 4 2 1) ctx r).1, stOK)
    else (s, stOK)

/-! Children of a node -/

/-- A packet of this package with nothing in its operand fields (R337). HOPS counts the hop on which it leaves (log entry 11). -/
def State.pkt (s : State) (type dst ctx : Nat) : Packet :=
  { (default : Packet) with type := type, dst := dst, src := s.fab.pkg, ctx := ctx, hops := 1 }

def State.send (s : State) (p : Packet) : State := { s with fab := { s.fab with outbox := s.fab.outbox ++ [p] } }

/-- A node operation for another package: the operation's code in AUX, the reference in OPERAND, its arguments as
doublewords of payload, the package that asked in INTERVAL and its request tag in TAG, 0 where no answer is wanted (the
layout is PRESUMED, log entry 11). -/
def State.nodeOp (s : State) (ctx op ref : Nat) (args : List Nat) (re : Nat × Nat := (0, 0)) : State :=
  s.send { s.pkt 0x30 (nPkg ref) ctx with
    aux := op, operand := BitVec.ofNat 64 ref, payload := args.flatMap (leBytes 8), interval := re.1, tag := re.2 }

/-- Operation codes of node packets beyond the opcodes of the words: join decrement, unlink, cancel, link under a parent
elsewhere (argument 1: for a NALLOC), the next sibling of a child so linked, and the passing over of a child by the sibling
before it (log entry 11). -/
def opJOINDEC : Nat := 0xE0
def opUNLINK : Nat := 0xE1
def opCANCEL : Nat := 0xE2
def opLINK : Nat := 0xE3
def opNEXT : Nat := 0xE4
def opSKIP : Nat := 0xE5

/-- The sibling before a child, searched for from a record on, passes it over: its NEXT becomes the child's. The search goes
on at another package where the list does. -/
def State.skipChild (ctx child next : Nat) : Nat → State → Nat → State
  | 0, s, _ => s
  | fuel + 1, s, r =>
    if r = nullRef then s
    else if nPkg r ≠ s.fab.pkg then s.nodeOp ctx opSKIP r [child, next]
    else if s.nf r 36 4 = child then s.setNf r 36 4 next
    else State.skipChild ctx child next fuel s (s.nf r 36 4)

/-- A parent of this package loses a child (R401 step 1); one STALE or DEAD is left. -/
def State.dropChild (s : State) (ctx par child next : Nat) : State :=
  if s.nodeSt par ≠ stOK then s
  else
    let s := if s.nf par 32 4 = child then s.setNf par 32 4 next
      else State.skipChild ctx child next chainFuel s (s.nf par 32 4)
    s.setNf par 26 2 (s.nf par 26 2 - 1)

/-- A node leaves its parent's child list (R401 step 1). A parent elsewhere is told; one STALE or DEAD is left. -/
def State.unlink (s : State) (ctx r : Nat) : State :=
  let par := s.nf r 28 4
  if par = nullRef then s
  else if nPkg par ≠ s.fab.pkg then s.nodeOp ctx opUNLINK par [r, s.nf r 36 4]
  else s.dropChild ctx par r (s.nf r 36 4)

/-- A node's pages and grammar frame are released (R396 step 5, R401 step 2). -/
def State.nodeRelease (s : State) (ctx r : Nat) : State :=
  let kv := s.nf r 44 4
  let s := if kv = nullRef then s else (State.pgLower chainFuel s ctx kv).1
  s.frameLower chainFuel ctx (s.nf r 56 4)

/-- A node is freed: unlinked, released, its generation advanced, its index pushed on its die's free list (R401). -/
def State.nodeFree (s : State) (ctx r : Nat) : State :=
  let s := (s.unlink ctx r).nodeRelease ctx r
  let s := { s with nsmGen := Tbl.set 0 s.nsmGen (nRec r) (BitVec.ofNat 6 (s.ngen r + 1)) }
  s.modCtx ctx (fun c => { c with nsmFree := Tbl.put c.nsmFree (nDie r) (nIdx r :: Tbl.get [] c.nsmFree (nDie r)) })

/-- NFREE (R401). It frees a pinned node that is DEAD, whose PIN no word can clear: DEDUCED (log entry 76). -/
def State.nfree (s : State) (ctx r : Nat) : State × Nat :=
  if s.nodeSt r = stSTALE then (s, stSTALE)
  else if s.nflag r flPIN && !s.nflag r flDEAD then (s, stBUSY) else (s.nodeFree ctx r, stOK)

/-- A new child at the head of its parent's list (R398). -/
def State.linkChild (s : State) (par r : Nat) : State :=
  let s := s.setNf r 28 4 par
  if nPkg par ≠ s.fab.pkg then s.setNflag r flRPAR true
  else
    let s := s.setNf r 36 4 (s.nf par 32 4)
    let s := s.setNf par 32 4 r
    s.setNf par 26 2 (min (s.nf par 26 2 + 1) 0xFFFF)

/-- The next free record of a die, in the context's list (R378); none from a die that is not offered (R476). -/
def State.nodeTake (s : State) (ctx die : Nat) : Option (Nat × State) :=
  match (if s.dieUp die then Tbl.get [] (s.ctx ctx).nsmFree die else []) with
  | [] => none
  | i :: t =>
    let s := s.modCtx ctx (fun c => { c with nsmFree := Tbl.put c.nsmFree die t })
    let g := (Tbl.get 0 s.nsmGen (131072 * die + i)).toNat
    let r := s.fab.pkg * 2 ^ 25 + die * 2 ^ 23 + g * 2 ^ 17 + i
    some (r, s)

/-- The fields of a freshly allocated record (R378, R398). -/
def State.nodeInit (s : State) (r p : Nat) : State :=
  let s := { s with nsm := s.nsm.store (nAddr r) (zeros 64) }
  let s := s.setNf r 22 2 1
  let s := s.setNf r 24 2 p
  let s := s.setNf r 28 4 nullRef
  let s := s.setNf r 32 4 nullRef
  let s := s.setNf r 36 4 nullRef
  let s := s.setNf r 42 2 0xFFFF
  s.setNf r 44 4 nullRef

/-- NALLOC (R398) on a die of this package, under no parent or one of this package: the reference and the status. -/
def State.nalloc (s : State) (ctx die par p : Nat) : State × Nat × Nat :=
  let st := if par = nullRef then stOK else s.nodeSt par
  if st ≠ stOK then (s.countSt ctx par st, nullRef, st)
  else match s.nodeTake ctx die with
    | none => (s, nullRef, stNOSPACE)
    | some (r, s) =>
      let s := s.nodeInit r p
      if par = nullRef then (s, r, stOK)
      else
        let s := s.linkChild par r
        let s := s.setNf r 52 4 (s.nf par 52 4)
        let s := s.setNf r 56 4 (s.nf par 56 4)
        (s.frameRaise ctx (s.nf par 56 4), r, stOK)

/-! Launches: their records and runs -/

/-- The device address of launch record `i` of a context (R207). -/
def State.recAddr (s : State) (ctx i : Nat) : Nat := s.lpbase ctx + 512 * i
def State.recF (s : State) (ctx i off n : Nat) : Nat := s.dev (s.recAddr ctx i + off) n
def State.setRecF (s : State) (ctx i off n v : Nat) : State := s.setDev (s.recAddr ctx i + off) n v
/-- STATE of a record's state word (R208), and the word's other bits. -/
def State.recState (s : State) (ctx i : Nat) : Nat := s.recF ctx i 48 8 % 8
def State.setRecState (s : State) (ctx i v : Nat) : State := s.setRecF ctx i 48 1 (setFld (s.recF ctx i 48 1) 0 3 v)
def State.recBit (s : State) (ctx i k : Nat) : Bool := bitOf (s.recF ctx i 48 8) k
def State.setRecBit (s : State) (ctx i k : Nat) (b : Bool) : State :=
  s.setRecF ctx i 48 1 (setFld (s.recF ctx i 48 1) k 1 (b2n b))

def State.run? (s : State) (id : Nat) : Option Run := s.runs.find? (fun r => r.id == id)
/-- A run of a record as it would start now: its latched window and what a dispatch reads of it (R208). -/
def State.runFrom (s : State) (ctx q i id : Nat) : Run :=
  let f (o n : Nat) : Nat := s.recF ctx i o n
  { ctx := ctx, record := i, id := id, tmpl := f 0 1, queue := q, corectl := BitVec.ofNat 11 (f 32 8), aging := f 24 4
    sched := if bitOf (f 18 1) 1 then f 40 8 else 0, live := 0, prior := 0, state := 2, ovl := bitOf (f 18 1) 0
    window := (List.range 32).foldl (fun (t : Tbl Word) k => Tbl.set 0 t k (BitVec.ofNat 64 (f (256 + 8 * k) 8))) [] }
/-- The run a task belongs to. A continuation whose launch runs on another package (R389) finds what it needs in this
package's own record of it (log entry 33). -/
def State.runFor (s : State) (ctx q record id : Nat) : Run := (s.run? id).getD (s.runFrom ctx q record id)
def State.modRun (s : State) (id : Nat) (f : Run → Run) : State :=
  { s with runs := s.runs.map (fun r => if r.id == id then f r else r) }

/-- The live count of a run changes, and with it LIVE of the record's state word, which counts a HELD run as well (R208,
R216). -/
def State.liveAdd (s : State) (id : Nat) (k : Int) : State :=
  match s.run? id with
  | none => s
  | some r =>
    let n := (r.live + k : Int).toNat
    let s := s.modRun id (fun r => { r with live := n })
    s.setRecF r.ctx r.record 52 4 ((s.runs.filter (fun x => x.ctx == r.ctx && x.record == r.record)).map (·.live)).sum

/-! The task queue -/

/-- The order of finite FP32 keys, −0 as +0 (R382). -/
def keyOrd (k : Nat) : Int := if k < 2 ^ 31 then (k : Int) else -((k - 2 ^ 31 : Nat) : Int)

/-- Finite FP32. -/
def fpFinite (k : Nat) : Bool := fld k 23 8 ≠ 255

/-- A launch queue's LQCFG (R211). -/
def State.lq (s : State) (ctx q : Nat) : Nat := Tbl.get 0 (s.ctx ctx).lqcfg q
/-- LQCFG as it reads, with the armed records that wait in DEPTH (R211). -/
def State.lqWord (s : State) (ctx q : Nat) : Nat := s.lq ctx q + (Tbl.get [] (s.ctx ctx).armed q).length % 2 ^ 16 * 2 ^ 16
/-- The priority level of a task (R211, R212). -/
def State.level (s : State) (t : Task) : Nat := s.lq t.ctx t.queue % 8

/-- Sequence order modulo 2^32 (R383). -/
def seqLower (a b : Nat) : Bool := let d := (b + 2 ^ 32 - a) % 2 ^ 32; 1 ≤ d && d ≤ 2 ^ 31 - 1

/-- One task ranks above another: level, then key, then lower sequence number (R22, R384). -/
def State.above (s : State) (a b : Task) : Bool :=
  let la := s.level a
  let lb := s.level b
  let ka := keyOrd a.key
  let kb := keyOrd b.key
  la > lb || (la = lb && (ka > kb || (ka = kb && a.ctx == b.ctx && seqLower a.seq b.seq)))

def State.seg (s : State) (k : Nat) : List Task := Tbl.get [] s.segs k
def State.setSeg (s : State) (k : Nat) (l : List Task) : State := { s with segs := Tbl.set [] s.segs k l }

/-- Insertion in rank order. -/
def State.rankIn (s : State) (t : Task) : List Task → List Task
  | [] => [t]
  | a :: l => if s.above t a then t :: a :: l else a :: State.rankIn s t l

/-- The 32 bytes of a task record (R382). -/
def Task.bytes (t : Task) : List Byte :=
  leBytes 2 (t.node % 4096 + b2n t.batch * 2 ^ 12 + b2n t.exempt * 2 ^ 13 + b2n t.gang * 2 ^ 14 + b2n t.yield * 2 ^ 15)
    ++ leBytes 2 t.aff ++ leBytes 4 t.inst ++ leBytes 4 t.key ++ leBytes 4 t.tree ++ leBytes 4 t.jt
    ++ leBytes 2 t.ws ++ leBytes 1 t.ctx ++ leBytes 1 t.queue ++ leBytes 4 t.seq ++ leBytes 4 t.user

/-- The task record of 32 bytes a program supplies (R382). -/
def Task.parse (b : List Byte) : Task :=
  let f (o n : Nat) : Nat := leNat ((b.drop o).take n)
  { (default : Task) with
    node := f 0 2 % 4096, batch := bitOf (f 0 2) 12, exempt := bitOf (f 0 2) 13, gang := bitOf (f 0 2) 14,
    yield := bitOf (f 0 2) 15, aff := f 2 2, inst := f 4 4, key := f 8 4, tree := f 12 4, jt := f 16 4,
    ws := f 20 2, ctx := f 22 1, queue := f 23 1, seq := f 24 4, user := f 28 4 }

/-- The spill entries of a context in a segment (R384, R472). -/
def State.spillCap (s : State) (ctx : Nat) : Nat := (s.ctx ctx).reg 0x20 4

/-- The segment of a task: its affinity and the context's rotation (R22); while that die is not offered, a segment of the
lowest-numbered offered die (R476). -/
def State.segOf (s : State) (t : Task) : Nat :=
  let k := (t.aff + s.segrot t.ctx) % 64
  if s.dieUp (k / 16) then k
  else match (List.range 4).find? s.dieUp with | some d => 16 * d + k % 16 | none => k

/-- A task enters its segment with its sequence number (R22, R383, R384): the lowest-ranked resident entry goes to the
spill area when the segment is full. None when the segment and the spill area are both full. A task that returns keeps
its number. The slice counts and logs it (R465, R469). -/
def State.enqueue (s : State) (t : Task) (newSeq : Bool) : Option State :=
  let k := s.segOf t
  let t := if newSeq then { t with seq := ((s.ctx t.ctx).seqCtr + 1).toNat } else t
  let l := s.seg k
  let r := Tbl.get 0 s.resident k
  let l' := s.rankIn t l
  let pos := (l'.takeWhile (fun x => x != t)).length
  let fits := pos ≤ r && r < 2048
  let out := nth t l' (if pos < r then r else pos)
  let mine := ((l'.drop r).filter (fun x => x.ctx == out.ctx)).length
  if !fits && s.spillCap out.ctx < mine then none
  else
    let s := s.setSeg k l'
    let s := if newSeq then s.modCtx t.ctx (fun c => { c with seqCtr := c.seqCtr + 1 }) else s
    let s := (s.slcLog k 2 (s.fnOf t.ctx) 2 fits 255 t.seq).count1 k 0x03 (s.fnOf t.ctx) 1
    some (if fits then { s with resident := Tbl.set 0 s.resident k (r + 1) }
      else
        let s := (s.slcLog k 4 (s.fnOf out.ctx) 1 false 255 out.seq).count1 k 0x04 (s.fnOf out.ctx) 1
        { s with dram :=
          s.dram.store ((s.ctx out.ctx).reg 0x18 8 + 32 * s.spillCap out.ctx * k + 32 * (mine - 1)) out.bytes })

/-- The task at place `i` of segment `k` leaves it; the best spilled entry takes a resident's place only at a refill. -/
def State.dequeue (s : State) (k i : Nat) : State :=
  let r := Tbl.get 0 s.resident k
  let s := s.setSeg k ((s.seg k).eraseIdx i)
  if i < r then { s with resident := Tbl.set 0 s.resident k (r - 1) } else s

/-- A join decrement is sent to a task's join target (R389). -/
def State.joinDec (s : State) (u : Nat) (t : Task) : State :=
  if t.jt = nullRef then s else { s with joins := s.joins ++ [⟨t.jt, t.ctx, t.launch, t.run, u, t.seq, (0, 0)⟩] }

/-- A task of a launch is gone: its live count falls. -/
def State.taskGone (s : State) (t : Task) : State := s.liveAdd t.run (-1)

/-- The tasks of a run that are queued or parked. -/
def State.waitingOf (s : State) (id : Nat) : Nat :=
  (s.segs.map (fun e => (e.2.filter (fun t => t.run == id)).length)).sum
    + (s.ctxs.map (fun e => (e.2.parked.filter (fun p => p.1.run == id)).length)).sum

/-- STATE becomes ALLOUT the first time after start that the launch holds no queued or parked task (R208). -/
def State.allout (s : State) (id : Nat) : State :=
  match s.run? id with
  | some r =>
    if r.state = 2 && s.waitingOf id = 0 then
      (s.modRun id (fun r => { r with state := 3 })).setRecState r.ctx r.record 3
    else s
  | none => s

/-- NODEST after a held effect of a slot's task drained with a status (R380). -/
def Slot.sticky (sl : Slot) (st : Nat) : Slot :=
  let set (k : Nat) : Slot := sl.modCsr (fun c => { c with nodest := c.nodest ||| (1#14 <<< k) })
  if st = stSTALE then set 8 else if st = stDEAD then set 9 else if st = stSAT then set 10
  else if st = stBUSY then set 13 else sl

/-- NODEST.ST (R379). -/
def Slot.setSt (sl : Slot) (st : Nat) : Slot :=
  sl.modCsr (fun c => { c with nodest := BitVec.ofNat 14 (setFld c.nodest.toNat 0 8 st) })

end Sys2Proof.Machine
end

