-- ==== Sys2Proof/Machine/Remote.lean ====
section
/-! DEFINITION. Remote stores and the remote cache (05 R141, R150; 14 R334, R340, R350): counted write packets, flows,
lines with a valid and a dirty mark per byte, write-backs by 32-byte granule, and multicast groups (R349). -/

namespace Sys2Proof.Machine
open Sys2Proof

/-- A flow: a source agent (slot and stream), a target package and a tensor (R334). -/
def flowKey (u strm pkg tid : Nat) : Nat := ((u * 8 + strm) * 128 + pkg) * 4096 + tid

/-- The slot of a flow, and the flow of the multicast copies that other packages forward to the same target (R349). -/
def flowUnit (k : Nat) : Nat := k % 2 ^ 32 / 4096 / 128 / 8
def farKey (k : Nat) : Nat := k + 2 ^ 32

/-- The next sequence number of a flow, and the fabric with it used (R334). -/
def State.nextFseq (s : State) (k : Nat) : Nat × State :=
  let q := Tbl.get 0 s.fab.sendSeq k
  (q % 4096, { s with fab := { s.fab with sendSeq := Tbl.set 0 s.fab.sendSeq k (q + 1) } })

/-- The same for a write, which its target acknowledges (R348). -/
def State.nextWrite (s : State) (k : Nat) : Nat × State :=
  let (q, s) := s.nextFseq k
  (q, { s with fab := { s.fab with wrote := Tbl.set 0 s.fab.wrote k (Tbl.get 0 s.fab.sendSeq k) } })

/-- A request tag, recorded with what awaits its answer (R337). -/
def State.newReq (s : State) (r : Req) : Nat × State :=
  let t := s.fab.nextTag
  (t, { s with fab := { s.fab with nextTag := t + 1, reqs := Tbl.put s.fab.reqs t r } })

/-- At most 2048 packets of a flow are unacknowledged at once; a further one waits at the source (R334). -/
def State.sendFlow (s : State) (k : Nat) (p : Packet) : State :=
  let l := Tbl.get [] s.fab.going k
  if 2048 ≤ l.length || s.fab.stalled.any (fun e => e.1 == k) then { s with fab := { s.fab with stalled := s.fab.stalled ++ [(k, p)] } }
  else { s with fab := { s.fab with going := Tbl.put s.fab.going k (l ++ [p.fseq]) } }.send p

/-- The place of an interval close among the packets that wait at the source: behind its interval's (R351). -/
def closeKey : Nat := 2 ^ 40
def State.sendClose (s : State) (p : Packet) : State :=
  if s.fab.stalled.any (fun e => e.2.dst == p.dst && e.2.ctx == p.ctx && e.2.tag == p.tag) then
    { s with fab := { s.fab with stalled := s.fab.stalled ++ [(closeKey, p)] } }
  else s.send p

/-- Packets of a flow are acknowledged or answered: packets that waited for that leave, in order. -/
def State.flowDone (s : State) (k : Nat) (gone : Nat → Bool) : State :=
  let l := (Tbl.get [] s.fab.going k).filter (fun q => !gone q)
  let s : State := { s with fab := { s.fab with going := Tbl.set [] s.fab.going k l } }
  s.fab.stalled.foldl (fun s e =>
    if e.1 = closeKey then s.sendClose e.2 else s.sendFlow e.1 e.2) { s with fab := { s.fab with stalled := [] } }

/-- The row and column of a package, and whether the grid has it (R332). -/
def State.inGrid (s : State) (pkg : Nat) : Bool := pkg / 9 < s.fab.grid && pkg % 9 < s.fab.grid

/-- The ports to the row peer in a column, and to the column peer in a row, that are live; none where the grid has no such peer
(R332, R336). -/
def State.rowPorts (s : State) (c : Nat) : List Nat :=
  let col := s.fab.pkg % 9
  if c = col || !s.inGrid (s.fab.pkg / 9 * 9 + c) then []
  else ((List.range 8).map (8 * (if c < col then c else c - 1) + ·)).filter (fun j => !s.fab.down.contains j)
def State.colPorts (s : State) (r : Nat) : List Nat :=
  let row := s.fab.pkg / 9
  if r = row || !s.inGrid (9 * r + s.fab.pkg % 9) then []
  else ((List.range 8).map (64 + 8 * (if r < row then r else r - 1) + ·)).filter (fun j => !s.fab.down.contains j)

/-- The packages that may be the first hop towards another, the one the dimension order prefers first, with their live ports: the
target itself in a row or column of one's own, else one along the row and one along the column, by the flow's hash; a peer with
no live port is reached by the other dimension order (R334, R336). -/
def State.hops (s : State) (hash pkg : Nat) : List (Nat × List Nat) :=
  let row := s.fab.pkg / 9
  let col := s.fab.pkg % 9
  let r := pkg / 9
  let c := pkg % 9
  let along (k : Nat) : Nat × List Nat := (9 * row + k, s.rowPorts k)
  let down (k : Nat) : Nat × List Nat := (9 * k + col, s.colPorts k)
  let l := if r = row then along c :: (List.range s.fab.grid).map down
    else if c = col then down r :: (List.range s.fab.grid).map along
    else if hash % 2 = 0 then [along c, down r] else [down r, along c]
  if s.inGrid pkg then l.filter (fun e => !e.2.isEmpty) else []

/-- The first hop of a flow's packets and the port they leave by, chosen by the flow's hash among the peer's live ports (R334,
R336). -/
def State.route (s : State) (k pkg : Nat) : Option (Nat × Nat) :=
  (s.hops (Config.flowHash k) pkg).head?.map (fun e => (e.1, nth 0 e.2 (Config.flowHash k / 2 % e.2.length)))

/-- Some route reaches a package (R336). -/
def State.reaches (s : State) (pkg : Nat) : Bool := !(s.hops 0 pkg).isEmpty

/-- A remote access needs the fabric trained and a route (R336). -/
def needRoute (s : State) (pkg opnd : Nat) : M Unit := do
  need s.fab.trained cNOTREADY 0 opnd
  need (s.reaches pkg) cNOTREADY 1 opnd

/-- One more counted packet of a task to a target in its interval (R350). -/
def State.countSend (s : State) (ctx seq pkg : Nat) : State :=
  let l := s.fab.sentCounts
  let hit (e : Nat × Nat × Nat × Nat) : Bool := e.1 == ctx && e.2.1 == seq && e.2.2.1 == pkg
  let n := ((l.find? hit).map (fun e => e.2.2.2)).getD 0
  let st := s.fab.ivStart
  { s with fab := { s.fab with
    sentCounts := (ctx, seq, pkg, n + 1) :: l.filter (fun e => !hit e)
    ivStart := if st.any (fun e => e.1 == ctx && e.2.1 == seq) then st else (ctx, seq, s.clock) :: st } }

/-- The time for which a task's interval has held a counted packet (R351), in µs, at most 100. -/
def State.ivElapsed (s : State) (t : Task) : Nat :=
  match s.fab.ivStart.find? (fun e => e.1 == t.ctx && e.2.1 == t.seq) with
  | some e => min 100 ((s.clock - e.2.2) / 1050)
  | none => t.ivTime

/-- The interval timer of a slot's task stops, and goes on (R351). -/
def State.ivStop (s : State) (u : Nat) : State :=
  let t := (s.slot u).tk
  if s.fab.ivStart.any (fun e => e.1 == t.ctx && e.2.1 == t.seq) then
    let n := s.ivElapsed t
    let s := s.modSlot u (fun sl => sl.modTask (fun t => { t with ivTime := n }))
    { s with fab := { s.fab with ivStart := s.fab.ivStart.filter (fun e => !(e.1 == t.ctx && e.2.1 == t.seq)) } }
  else s
def State.ivGo (s : State) (u : Nat) : State :=
  let t := (s.slot u).tk
  if s.fab.sentCounts.any (fun e => e.1 == t.ctx && e.2.1 == t.seq) then
    let l := s.fab.ivStart.filter (fun e => !(e.1 == t.ctx && e.2.1 == t.seq))
    { s with fab := { s.fab with ivStart := (t.ctx, t.seq, s.clock - usClk t.ivTime) :: l } }
  else s

/-- A task's interval closes (R351): each target gets its count after the interval's last packet, the interval number
moves on and the counts are zeroed. The tags of the answers awaited. `strm` is the stream a mismatch names. -/
def State.closeCounts (s : State) (u strm : Nat) (t : Task) : State × List Nat :=
  let mine (e : Nat × Nat × Nat × Nat) : Bool := e.1 == t.ctx && e.2.1 == t.seq
  let l := s.fab.sentCounts.filter mine
  let s := { s with fab := { s.fab with
    sentCounts := s.fab.sentCounts.filter (fun e => !mine e)
    ivStart := s.fab.ivStart.filter (fun e => !(e.1 == t.ctx && e.2.1 == t.seq)) } }
  l.foldl (fun x e =>
    let (g, s) := x.1.newReq (.fence u strm e.2.2.1 t.ctx t.seq t.interval)
    (s.sendClose { s.pkt 0x20 e.2.2.1 t.ctx with
      score := u / 4, sslot := u % 4, interval := t.interval, tag := t.seq, operand := BitVec.ofNat 64 e.2.2.2 },
     x.2 ++ [g])) (s, [])

/-- A counted remote write packet of a slot's task (R337, R348, R350). -/
def State.sendWrite (s : State) (u strm pkg ctx tid off seq interval : Nat) (bs : List Byte) : State :=
  let (q, s) := s.nextWrite (flowKey u strm pkg tid)
  let s := s.countSend ctx seq pkg
  s.sendFlow (flowKey u strm pkg tid) { s.pkt 0x03 pkg ctx with
    score := u / 4, sslot := u % 4, tensor := tid, fseq := q, offset := off, interval := interval, tag := seq,
    aux := bs.length - 1, payload := bs }

/-- The maximal runs of dirty bytes inside one 32-byte granule, as (offset, length) (R340). -/
def dirtyRuns : List Nat → List (Nat × Nat)
  | [] => []
  | a :: t =>
    match dirtyRuns t with
    | (b, n) :: r => if b = a + 1 && b / 32 = a / 32 then (a, n + 1) :: r else (a, 1) :: (b, n) :: r
    | [] => [(a, 1)]

/-- A drained store whose bytes stand in this line of the remote cache alone. -/
def Sent.inLine (x : Sent) (l : RLine) : Bool :=
  x.tag = 0 && x.count = 0 && (match x.held.eff with
    | .rstore pkg a _ _ _ => pkg == l.pkg && a / 2 ^ 52 % 4096 == l.tid && a % 2 ^ 52 / 256 == l.line
    | _ => false)

/-- A line's dirty bytes go home, under the task that last dirtied it and in the flow of its slot's stores (R184, R340, R350).
The stores that the line held are on their way from then on (R167). -/
def State.lineBack (s : State) (l : RLine) : State :=
  let s := (dirtyRuns l.dirty).foldl (fun s r =>
    s.sendWrite l.unit 0 l.pkg l.ctx l.tid (256 * l.line + r.1) l.seq ((s.slot l.unit).tk.interval)
      ((List.range r.2).map (fun k => Tbl.get 0 l.data (r.1 + k)))) s
  let k := flowKey l.unit 0 l.pkg l.tid
  s.modSlot l.unit (fun sl => { sl with
    sent := sl.sent.map (fun x => if x.inLine l then { x with flow := k, count := Tbl.get 0 s.fab.wrote k } else x) })

def RLine.clean (l : RLine) : RLine := { l with dirty := [], scope := 0 }

/-- The dirty lines of a core that a test picks are written back and kept clean (R148, R150). -/
def State.rcWriteBack (s : State) (core : Nat) (p : RLine → Bool) : State :=
  let ls := (s.core core).rcache
  let s := (ls.filter (fun l => !l.dirty.isEmpty && p l)).foldl State.lineBack s
  s.modCore core (fun c => { c with rcache := c.rcache.map (fun l => if p l then l.clean else l) })

/-- A release at a scope writes back the lines recorded narrower (R150). -/
def State.rcRelease (s : State) (core scope : Nat) : State := s.rcWriteBack core (fun l => l.scope < scope)

/-- The flows in which `t` has sent writes that `s` had not, with the packets sent up to the last. -/
def State.newFlows (s t : State) : List (Nat × Nat) := t.fab.wrote.filter (fun e => Tbl.get 0 s.fab.wrote e.1 ≠ e.2)

/-- An acquire at scope die or wider drops the clean lines (R150). -/
def CoreSt.rcAcquire (c : CoreSt) : CoreSt := { c with rcache := c.rcache.filter (fun l => !l.dirty.isEmpty) }

def RLine.at (l : RLine) (pkg ctx tid line : Nat) : Bool := l.pkg == pkg && l.ctx == ctx && l.tid == tid && l.line == line

def CoreSt.rcFind (c : CoreSt) (pkg ctx tid line : Nat) : Option RLine := c.rcache.find? (fun l => l.at pkg ctx tid line)

/-- A line enters the cache of 512 lines; a line that is not kept leaves, written back if it is dirty (R150). -/
def State.rcInsert (s : State) (core : Nat) (l : RLine) : State :=
  let c := s.core core
  let rest := c.rcache.filter (fun m => !(m.at l.pkg l.ctx l.tid l.line))
  if rest.length < 512 then s.setCore core { c with rcache := l :: rest }
  else
    let cand := if rest.all (·.keep) then rest else rest.filter (fun m => !m.keep)
    let (t, s) := s.fresh
    let v := nth l cand (Config.freeNat 2 t % cand.length)
    let s := s.lineBack v
    s.setCore core { s.core core with rcache := l :: rest.filter (fun m => !(m.at v.pkg v.ctx v.tid v.line)) }

/-- The line of the remote cache that covers an address leaves, its dirty bytes written back, before an access that passes the
cache goes home: the flow keeps the two in order (R170, R340). -/
def State.rcEvict (s : State) (core pkg ctx va : Nat) : State :=
  let hit (l : RLine) : Bool := l.at pkg ctx (va / 2 ^ 52 % 4096) (va % 2 ^ 52 / 256)
  let s := s.rcWriteBack core hit
  s.modCore core (fun c => { c with rcache := c.rcache.filter (fun l => !hit l) })

/-- The bytes of a drained store that stands in a line. -/
def Sent.bytesIn (x : Sent) : List Nat :=
  match x.held.eff with
  | .rstore _ a bs _ _ => (List.range bs.length).map (a % 256 + ·)
  | _ => []

/-- A write of the line's slot has gone home over bytes of a line: a store that stood in those bytes alone goes with it
(R167, R170). -/
def State.goesWith (s : State) (l : RLine) (k : Nat) (ks : List Nat) : State :=
  s.modSlot l.unit (fun sl => { sl with
    sent := sl.sent.map (fun x =>
      if x.inLine l && x.bytesIn.all ks.contains then { x with flow := k, count := Tbl.get 0 s.fab.wrote k } else x) })

/-- A remote store drains into the core's remote cache (R141 case 2, R150): narrow scopes stay dirty in the line, wider
ones also write through, and cache policy bypass goes home alone. What goes home is no longer dirty in a resident line, so that no
older store follows it home, and after a bypass no longer valid there, so that no later load returns older bytes (R170). What
another task has dirtied in the line goes home first, in that task's flow: DEDUCED from R170 and R350 (log entry 68). -/
def State.rcStore (s : State) (u strm pkg ctx addr scope cache seq interval : Nat) (bs : List Byte) : State :=
  let tid := addr / 2 ^ 52 % 4096
  let off := addr % 2 ^ 52
  let line := off / 256
  let core := coreOf u
  let s := s.rcWriteBack core (fun l => l.at pkg ctx tid line && !l.dirty.isEmpty && (l.unit != u || l.seq != seq))
  if cache = 3 && ((s.core core).rcFind pkg ctx tid line).isNone then s.sendWrite u strm pkg ctx tid off seq interval bs
  else
    let l := ((s.core core).rcFind pkg ctx tid line).getD ⟨pkg, ctx, tid, line, [], [], 0, cache = 2, seq, u⟩
    let ks := (List.range bs.length).map (fun k => off % 256 + k)
    let data := (ks.zip bs).foldl (fun d e => Tbl.put d e.1 e.2) l.data
    if scope ≤ 1 && cache ≠ 3 then
      let dirty := ((List.range 256).filter (fun k => l.dirty.contains k || ks.contains k))
      s.rcInsert core { l with data := data, dirty := dirty, scope := max l.scope scope, seq := seq, unit := u }
    else
      let dirty := l.dirty.filter (fun k => !ks.contains k)
      let data := if cache = 3 then ks.foldl Tbl.del l.data else data
      let s := s.rcInsert core { l with data := data, dirty := dirty, scope := if dirty.isEmpty then 0 else max l.scope scope }
      (s.sendWrite u strm pkg ctx tid off seq interval bs).goesWith l (flowKey u strm pkg tid) ks

/-- A multicast group's entry (R349). -/
def State.group (s : State) (g : Nat) : Nat := Tbl.get 0 s.fab.groups g

/-- The peers of this package's row or column in port order (R332). -/
def State.rowPeer (s : State) (i : Nat) : Nat :=
  let col := s.fab.pkg % 9
  s.fab.pkg / 9 * 9 + (if i < col then i else i + 1)
def State.colPeer (s : State) (i : Nat) : Nat :=
  let row := s.fab.pkg / 9
  (if i < row then i else i + 1) * 9 + s.fab.pkg % 9

/-- The packages a group entry forwards to. -/
def State.groupPeers (s : State) (e : Nat) : List Nat :=
  ((List.range 8).filter (fun i => bitOf e i)).map s.rowPeer ++ ((List.range 8).filter (fun i => bitOf e (8 + i))).map s.colPeer

/-- The packages of a group that its peers forward to (R349), of which this package's table says nothing but that there are none
where the group has no peer. -/
def State.groupFar (s : State) (g : Nat) : List Nat :=
  let peers := s.groupPeers (s.group g)
  if peers.isEmpty then []
  else (List.range 81).filter (fun k => bitOf (Config.groupFar g) k && k ≠ s.fab.pkg && !peers.contains k)

/-- The remote writes of a multicast: one packet to each peer the group entry names, and a copy, which counts here too, to each
package that a peer forwards it to (R314, R346, R349). -/
def State.sendMulticast (s : State) (u strm g ctx tid off seq interval : Nat) (bs : List Byte) : State :=
  let s := (s.groupPeers (s.group g)).foldl (fun s pkg =>
    let (q, s) := s.nextWrite (flowKey u strm pkg tid)
    let s := s.countSend ctx seq pkg
    s.sendFlow (flowKey u strm pkg tid) { s.pkt 0x07 pkg ctx with
      score := u / 4, sslot := u % 4, tensor := tid, fseq := q, offset := off, interval := interval, tag := seq,
      aux := bs.length - 1, operand := BitVec.ofNat 64 g, payload := bs }) s
  (s.groupFar g).foldl (fun s pkg => (s.nextWrite (farKey (flowKey u strm pkg tid))).2.countSend ctx seq pkg) s

/-- The remote writes of a slot that are not acknowledged (R348): the flows, with the packets sent up to the last. -/
def State.unackedFlows (s : State) (u : Nat) : List (Nat × Nat) :=
  s.fab.wrote.filter (fun e => flowUnit e.1 = u && Tbl.get 0 s.fab.unacked e.1 < e.2)
def State.unackedOf (s : State) (u : Nat) : Bool := !(s.unackedFlows u).isEmpty

/-- Remote reads and atomics of a slot that have not returned. -/
def Req.unit : Req → Option Nat
  | .load u _ _ _ _ _ _ | .atomic u _ _ | .held u _ _ _ _ | .toOq u _ _ _ _ | .toSp u _ _ _ _ | .toRes u _ _ _ | .node u _ => some u
  | .walk _ _ | .nodeHeld _ _ _ | .hostHeld _ _ _ _ _ _ _ _ | .fence _ _ _ _ _ _ => none
def State.awaits (s : State) (u : Nat) : Bool := s.fab.reqs.any (fun e => e.2.unit == some u)

/-- A drained entry is not yet acknowledged (R167). -/
def State.outstanding (s : State) (x : Sent) : Bool :=
  if x.tag ≠ 0 then s.fab.reqs.any (fun (e : Nat × Req) => e.1 == x.tag)
  else x.count = 0 || Tbl.get 0 s.fab.unacked x.flow < x.count

/-- Node operations and host atomics of a slot's held effects that have not been answered: not acknowledged yet (R145, R175). -/
def State.heldFar (s : State) (u : Nat) : Bool :=
  s.fab.reqs.any (fun e => match e.2 with
    | .nodeHeld v ctx seq | .hostHeld v _ _ ctx seq _ _ _ => v == u && ctx == (s.slot u).tk.ctx && seq == (s.slot u).tk.seq
    | _ => false)

/-- A held host atomic of the slot is under way that touches one of these bytes: the slot's later accesses of them wait for it
(R145, R170). -/
def State.hostBusy (s : State) (u : Nat) (ps : List Nat) : Bool :=
  s.fab.reqs.any (fun e => match e.2 with
    | .hostHeld v _ _ _ _ _ _ qs => v == u && qs.any ps.contains
    | _ => false)

end Sys2Proof.Machine
end

