-- ==== Sys2Proof/Machine/Drain.lean ====
section
/-! DEFINITION. What each buffered store and held effect does when its region drains (05 R160, R141, R143 to R146; 16
R385 to R408; 17 R424 to R430), and the batch former's rows (16 R412 to R417). -/

namespace Sys2Proof.Machine
open Sys2Proof

/-! Atomic operations -/

/-- The new value and the flags of an atomic operation on `n` bytes (R143). -/
def atomOp (op n a b : Nat) : Nat × Nat :=
  let w := 8 * n
  let sa := sint w a
  let sb := sint w b
  match op with
  | 0 => (b % 2 ^ w, 0)
  | 1 => ((a + b) % 2 ^ w, 0)
  | 2 => (a &&& b % 2 ^ w, 0)
  | 3 => (a ||| b % 2 ^ w, 0)
  | 4 => (a ^^^ b % 2 ^ w, 0)
  | 5 => (toBits w (min sa sb), 0)
  | 6 => (toBits w (max sa sb), 0)
  | 7 => (min a (b % 2 ^ w), 0)
  | 8 => (max a (b % 2 ^ w), 0)
  | 9 => fp32.rne (XR.add (fp32.dec a) (fp32.dec (b % 2 ^ 32)))
  | _ => let r := satS32 (sa + sb); (toBits 32 r.1, r.2)

/-- Bytes at physical addresses. -/
def State.physBytes (s : State) (host : Bool) (ps : List Nat) : List Byte :=
  ps.map (fun a => if host then s.host.get a else s.dram.get a)

/-- Bytes written at physical addresses, through a core's scalar L1; an address outside the memory is passed over, as
the word that translated it has already stopped there. -/
def State.putPhys (s : State) (core : Nat) (host : Bool) (ps : List Nat) (bs : List Byte) : State :=
  (ps.zip bs).foldl (fun s e => match wrPhys s core host e.1 e.2 with | .ok t => t | .error _ => s) s

/-! Node records written by software -/

/-- The bytes of a record that software may write (R400): 22 to 25, 44 to 63. -/
def nodeSoft (o : Nat) : Bool := (22 ≤ o && o ≤ 25) || (44 ≤ o && o ≤ 63)

/-- One byte of a record written by software: only FLAGS bits 5, 2 and 1 of byte 22 change (R400). -/
def State.nodeByte (s : State) (r o : Nat) (b : Byte) : State :=
  let a := nAddr r + o
  let b := if o = 22 then (b &&& 0x26#8) ||| (s.nsm.get a &&& ~~~0x26#8) else b
  { s with nsm := s.nsm.put a b }

/-- Selected bytes of a record written by software; the frame counts follow GFRAME (R400, R420). -/
def State.nodeWrite (s : State) (ctx r : Nat) (l : List (Nat × Byte)) : State :=
  let old := s.nf r 56 4
  let s := l.foldl (fun s e => s.nodeByte r e.1 e.2) s
  s.frameSwap ctx old (s.nf r 56 4)

/-! Path words -/

/-- Q32.32 of a value, signed, and whether it was clamped (R405). -/
def fxQ (x : XR) : Int × Bool :=
  if x.isNan then (0, false)
  else
    let v := if x.isInf then (if x.neg then -(2 ^ 63 : Int) - 1 else 2 ^ 63) else (roundInt .rne (XR.scale x 32)).1
    if v < -(2 ^ 63) then (-(2 ^ 63), true) else if 2 ^ 63 ≤ v then (2 ^ 63 - 1, true) else (v, false)

/-- Q32.32 of a value that is not negative, unsigned (R405). -/
def fxuQ (x : XR) : Nat × Bool :=
  if x.isNan then (0, false)
  else
    let v := if x.isInf then 2 ^ 64 else (roundInt .rne (XR.scale x 32)).1
    if v < 0 then (0, true) else if 2 ^ 64 ≤ v then (2 ^ 64 - 1, true) else (v.toNat, false)

/-- A saturating addition to a field of a record; a clamp sets the record's SAT flag (R402, R405). -/
def State.nodeAdd (s : State) (r f : Nat) (v : Int) : State × Nat :=
  let put (off n : Nat) (lo hi x : Int) (sgn : Bool) : State × Nat :=
    let y := if x < lo then lo else if hi < x then hi else x
    let s := s.setNf r off n (if sgn then toBits (8 * n) y else y.toNat)
    if y = x then (s, stOK) else (s.setNflag r flSAT true, stSAT)
  match f with
  | 0 => put 0 8 (-(2 ^ 63)) (2 ^ 63 - 1) (sint 64 (s.nf r 0 8) + v) true
  | 1 => put 8 8 0 (2 ^ 64 - 1) (s.nf r 8 8 + v) false
  | 2 => put 16 4 0 (2 ^ 32 - 1) (s.nf r 16 4 + v) false
  | 3 => put 20 2 0 0xFFFF (s.nf r 20 2 + v) false
  | _ => (s.setNf r 60 4 (toBits 32 (s.nf r 60 4 + v)), stOK)

/-- The addend of NADD by field (R402). -/
def naddVal (f : Nat) (v : Word) : Int :=
  match f with
  | 0 => v.toInt
  | 1 => v.toNat
  | 2 => fld v.toNat 0 32
  | 3 => sint 16 v.toNat
  | _ => fld v.toNat 0 32

/-- The worse of two statuses to record: SAT over OK. -/
def stJoin (a b : Nat) : Nat := if a = stOK then b else a

/-- One visit of NBACKUP (R408). An infinite value takes S1 to its bound, whatever S1 held (R405, R408; log entry 60). -/
def State.backupAt (s : State) (r x : Nat) (v : Option Nat) (fl vlu : Nat) : State × Nat :=
  let xr := fp32.dec x
  let q := fxQ xr
  let sq := XR.mul xr xr
  let y := match v with | some c => XR.add sq (fp32.dec c) | none => sq
  let qu := fxuQ y
  let (s, a) := s.nodeAdd r 0 (if xr.isInf then (if xr.neg then -(2 ^ 64) else 2 ^ 64) else q.1)
  let (s, b) := s.nodeAdd r 1 qu.1
  let n := s.nf r 16 4
  let s := s.setNf r 16 4 (min (n + 1) (2 ^ 32 - 1))
  let (s, c) := if bitOf fl 11 then s.nodeAdd r 3 (-(vlu : Int)) else (s, stOK)
  let sat := q.2 || qu.2
  let s := if sat then s.setNflag r flSAT true else s
  (s, stJoin (stJoin a b) (stJoin c (if sat then stSAT else stOK)))

/-- A path of NVLOSS (R406, R407). -/
def State.pathVloss (ctx vlu : Nat) (mk : State → (Nat × Nat) × State) : Nat → State → Nat → Nat → State × Nat
  | 0, s, _, _ => (s, stOK)
  | fuel + 1, s, r, d =>
    if r = nullRef then (s, stOK)
    else if nPkg r ≠ s.fab.pkg then
      let (re, s) := mk s
      (s.nodeOp ctx 0x76 r [d, vlu] re, stOK)
    else
      let st := s.nodeSt r
      if st ≠ stOK then (s.countSt ctx r st, st)
      else
        let (s, a) := s.nodeAdd r 3 vlu
        if d = 1 then (s, a)
        else
          let (s, b) := State.pathVloss ctx vlu mk fuel s (s.nf r 28 4) (d - 1)
          (s, stJoin a b)

/-- A path of NBACKUP (R406, R408). -/
def State.pathBackup (ctx fl vlu gamma : Nat) (mk : State → (Nat × Nat) × State) : Nat → State → Nat → Nat → Nat → Option Nat → State × Nat
  | 0, s, _, _, _, _ => (s, stOK)
  | fuel + 1, s, r, d, x, v =>
    if r = nullRef then (s, stOK)
    else if nPkg r ≠ s.fab.pkg then
      let (re, s) := mk s
      (s.nodeOp ctx 0x77 r [d, x, v.getD 0, fl, vlu, gamma] re, stOK)
    else
      let st := s.nodeSt r
      if st ≠ stOK then (s.countSt ctx r st, st)
      else
        let (s, a) := s.backupAt r x v fl vlu
        if d = 1 then (s, a)
        else
          let g := bf16.dec gamma
          let x := if bitOf fl 10 then (fp32.rne (XR.mul g (fp32.dec x))).1 else x
          let v := if bitOf fl 10 then v.map (fun c => (fp32.rne (XR.mul (XR.mul g g) (fp32.dec c))).1) else v
          let x := if bitOf fl 9 then x ^^^ 2 ^ 31 else x
          let (s, b) := State.pathBackup ctx fl vlu gamma mk fuel s (s.nf r 28 4) (d - 1) x v
          (s, stJoin a b)

/-! The batch former -/

def State.set (s : State) (ctx ws : Nat) : BatchSet := Tbl.get default (s.ctx ctx).sets ws
def State.modSet (s : State) (ctx ws : Nat) (f : BatchSet → BatchSet) : State :=
  s.modCtx ctx (fun c => { c with sets := Tbl.put c.sets ws (f (Tbl.get default c.sets ws)) })

/-- A byte written through an address of a context by hardware of the hub. -/
def State.hwPut (s : State) (ctx va : Nat) (bs : List Byte) : State :=
  (bs.zip (List.range bs.length)).foldl (fun s e =>
    match s.hwAddr ctx (va + e.2) with
    | some a => { s with dram := s.dram.put a e.1 }
    | none => s) s

/-- A batch buffer (R414): header, task records, live bitmap. -/
def Batch.bytes (b : Batch) (ws : Nat) : List Byte :=
  let head := leBytes 2 b.rows.length ++ leBytes 1 ws ++ leBytes 1 b.buf ++ leBytes 4 b.num ++ leBytes 8 b.first
    ++ leBytes 8 b.formed ++ leBytes 1 b.cause ++ zeros 39
  let recs := (b.rows.map (fun r => r.1.bytes)).flatten
  let live := (b.rows.zip (List.range b.rows.length)).foldl (fun n e => n + b2n e.1.2.2 * 2 ^ e.2) 0
  head ++ recs ++ zeros (8192 - recs.length) ++ leBytes 32 live ++ zeros 32

/-- The lowest buffer of a batch's area that no armed batch holds. -/
def BatchSet.freeBuf (b : BatchSet) (w : Batch) : Option Nat :=
  (List.range w.nb).find? (fun k => !b.armed.any (fun a => a.buf == k && a.area == w.area))

/-- A weight set owns a launch record: it is enabled with it, or a batch of it waits or runs (R413). -/
def BatchSet.holds (b : BatchSet) (r : Nat) : Bool :=
  (b.maxrows ≠ 0 && b.record == r) || (b.waiting ++ b.armed).any (fun w => w.record == r)

/-- OWNED of a record is cleared once the weight set that owned it, as it was, does so no longer (R413). -/
def State.disown (s : State) (was : BatchSet) (ctx ws r : Nat) : State :=
  if was.holds r && !(s.set ctx ws).holds r then s.setRecBit ctx r 6 false else s

/-- The tail of a launch queue takes a record (R209): STATE becomes ARMED. -/
def State.armTail (s : State) (ctx i : Nat) : State :=
  let q := s.recF ctx i 1 1 % 16
  (s.modCtx ctx (fun c => { c with armed := Tbl.set [] c.armed q (Tbl.get [] c.armed q ++ [i]) })).setRecState ctx i 1

/-- The first waiting batch of a weight set arms its record when the record is IDLE and a buffer is free (R414). -/
def State.batchArm (s : State) (ctx ws : Nat) : State :=
  let b := s.set ctx ws
  match b.waiting with
  | [] => s
  | w :: rest =>
    match b.freeBuf w with
    | none => s
    | some k =>
      if s.recState ctx w.record ≠ 0 then s
      else
        let w := { w with buf := k }
        let va := w.area + 8320 * k
        let s := s.hwPut ctx va (w.bytes ws)
        let s := s.modSet ctx ws (fun b => { b with waiting := rest, armed := b.armed ++ [w] })
        let s := s.setRecF ctx w.record 256 8 va
        let s := s.setRecF ctx w.record 264 8 (w.rows.length + ws * 2 ^ 16 + k * 2 ^ 24 + w.num % 2 ^ 32 * 2 ^ 32)
        let s := s.setRecF ctx w.record 272 8 (8 * (va % 2 ^ 52 + 8256))
        s.armTail ctx w.record

/-- The pending rows form a batch (R414), which arms at once when it can. -/
def State.batchForm (s : State) (ctx ws cause : Nat) : State :=
  let b := s.set ctx ws
  if b.rows.isEmpty then s
  else
    let w : Batch := ⟨b.rows.map (fun t => (t, false, true)), b.count, b.since, s.devTime, cause, 0, b.record, b.area, b.nb⟩
    (s.modSet ctx ws (fun b => { b with rows := [], waiting := b.waiting ++ [w], count := b.count + 1 })).batchArm ctx ws

/-- A row joins its weight set's pending batch (R414). -/
def State.batchRow (s : State) (t : Task) : State :=
  let b := s.set t.ctx t.ws
  let since := if b.rows.isEmpty then s.devTime else b.since
  let s := s.modSet t.ctx t.ws (fun b => { b with rows := b.rows ++ [t], since := since })
  if b.maxrows ≤ b.rows.length + 1 then s.batchForm t.ctx t.ws 0 else s

/-! Cancellation -/

/-- The signal of a finished walk: a semaphore of the slot that asked, while the same task holds it (R395). -/
def State.walkSig (s : State) (g : Nat × Nat × Nat) : State :=
  if (s.slot g.1).task.any (fun t => t.seq == g.2.1) then s.modSlot g.1 (fun sl => sl.later s.clock (.sem g.2.2 1)) else s

def State.modWalk (s : State) (id : Nat) (f : Walk → Walk) : State :=
  { s with walks := s.walks.map (fun w => if w.id == id then f w else w) }

/-- The children of a cancelled node `x`, from one on, join a walk (R396 step 7). One homed on another package is sent a cancel;
the list goes on with the sibling that its acknowledgement names (log entry 11). -/
def State.walkKids (ctx w x : Nat) : Nat → State → Nat → State
  | 0, s, _ => s
  | fuel + 1, s, r =>
    if r = nullRef then s
    else if nPkg r ≠ s.fab.pkg then
      let (t, s) := s.newReq (.walk w x)
      (s.modWalk w (fun w => { w with acks := w.acks + 1 })).nodeOp ctx opCANCEL r [0, 1] (s.fab.pkg, t)
    else if s.nodeSt r = stSTALE then s
    else
      let next := s.nf r 36 4
      let s := if s.nodeSt r = stDEAD then s
        else s.modWalk w (fun w => { w with queue := w.queue ++ [r] })
      State.walkKids ctx w x fuel s next

/-- A walk waits for a remote child of a node (R396 step 8). -/
def State.walkAsks (s : State) (w x : Nat) : Bool := s.fab.reqs.any (fun e => e.2 == .walk w x)

/-- A cancel sent to another package is acknowledged (R396): the list goes on with the sibling named, and a node whose remote
children have all acknowledged is freed, unless it is pinned. -/
def State.walkAck (s : State) (ctx w x : Nat) (next : Option Nat) : State :=
  let s := s.modWalk w (fun v => { v with acks := v.acks - 1 })
  let s := match next with | some r => State.walkKids ctx w x chainFuel s r | none => s
  if s.walkAsks w x || !s.walks.any (fun v => v.id == w && v.late.contains x) then s
  else
    let s := s.modWalk w (fun v => { v with late := v.late.filter (· ≠ x) })
    if s.nflag x flPIN then s else s.nodeFree ctx x

/-- The walk that covers a node under cancellation. -/
def State.walkOf (s : State) (r : Nat) : Option Walk :=
  (s.walks.find? (fun w => w.root == r)).or (s.walks.find? (fun v => v.queue.contains r || v.late.contains r))

/-- TCANCEL at drain (R395). A root DEAD with no walk under way is left, with status DEAD, and the signal applied at once, as for
one STALE: DEDUCED from R378 (log entry 76). -/
def State.cancel (s : State) (ctx u seq r : Nat) (sub : Bool) (sig : Option Nat) : State × Nat :=
  let sigs := (sig.map (fun n => (u, seq, n))).toList
  let add (s : State) (w : Walk) : State := { s with walks := s.walks ++ [w], nextWalk := s.nextWalk + 1 }
  if nPkg r ≠ s.fab.pkg then
    let w : Walk := ⟨s.nextWalk, ctx, r, sub, sigs, [], 1, [], [], some (u, seq)⟩
    let (t, s) := (add s w).newReq (.walk w.id nullRef)
    (s.nodeOp ctx opCANCEL r [b2n sub] (s.fab.pkg, t), stOK)
  else
    match s.nodeSt r, s.nflag r flCPEND, s.walkOf r with
    | 0, false, _ => (add (s.setNflag r flCPEND true) ⟨s.nextWalk, ctx, r, sub, sigs, [r], 0, [], [], none⟩, stOK)
    | 1, _, _ => ((sigs.foldl State.walkSig s).countSt ctx r stSTALE, stSTALE)
    | _, true, some w => (s.modWalk w.id (fun v => { v with sigs := v.sigs ++ sigs }), stOK)
    | st, _, _ => ((sigs.foldl State.walkSig s).countSt ctx r st, st)

/-! Spawns -/

/-- A spawn that is discarded: its join target is decremented and its launch has one live task less (R385). -/
def State.spawnDrop (s : State) (u : Nat) (t : Task) : State := (s.joinDec u t).taskGone t

/-- A spawn drains (R385, R412, R414); `batch` for a TSPAWNB. The status 0xF0 stands for LOST. -/
def stLOST : Nat := 0xF0
/-- A join decrement that found JOIN = 0 (R389). -/
def stJOINUF : Nat := 0xF1
def State.spawn (s : State) (u : Nat) (t : Task) (batch : Bool) : State × Nat :=
  let st := if t.tree = nullRef then stOK
    else if s.nodeSt t.tree ≠ stOK then s.nodeSt t.tree
    else if s.nflag t.tree flCPEND then stDEAD else stOK
  if st ≠ stOK then ((s.spawnDrop u t).countSt t.ctx t.tree st, st)
  else
    let bf := (s.ctx t.ctx).bfctl
    let on := (s.set t.ctx t.ws).maxrows ≠ 0
    if batch && bf.getLsbD 0 && on then (s.batchRow t, stOK)
    else if batch && bf.getLsbD 0 && !bf.getLsbD 1 then (s.spawnDrop u t, stLOST)
    else match s.enqueue t true with
      | some s => (s, stOK)
      | none => (s.spawnDrop u t, stLOST)

/-! Other held effects -/

/-- TREPRIO at drain: the keys of the matching queued tasks change and they take their new places (R387). -/
def State.reprio (s : State) (ctx : Nat) (byNode : Bool) (x key : Nat) : State × Nat :=
  let hit (t : Task) : Bool := if byNode then t.tree == x else t.ctx == ctx && t.seq == x
  if s.segs.any (fun e => e.2.any hit) then
    ({ s with segs := s.segs.map (fun e =>
        (e.1, (e.2.filter hit).foldl (fun l t => s.rankIn { t with key := key } l) (e.2.filter (fun t => !hit t)))) }, stOK)
  else (s, stNONE)

/-- TJOIN at drain (R388). -/
def State.tjoin (s : State) (ctx r n cont : Nat) : State × Nat :=
  let st := s.nodeSt r
  if st ≠ stOK then (s.countSt ctx r st, st)
  else if s.nf r 40 2 ≠ 0 then (s, stBUSY)
  else ((s.setNf r 40 2 n).setNf r 42 2 cont, stOK)

/-- NLINK at drain, at the child's home (R404): a parent elsewhere is asked to take the child. -/
def State.nlink (s : State) (ctx c par : Nat) (mk : State → (Nat × Nat) × State) : State × Nat :=
  let st := s.nodeSt c
  let sp := if nPkg par = s.fab.pkg then s.nodeSt par else stOK
  if st ≠ stOK then (s.countSt ctx c st, st)
  else if sp ≠ stOK then (s.countSt ctx par sp, sp)
  else if s.nf c 28 4 ≠ nullRef then (s, stBUSY)
  else
    let s := s.linkChild par c
    if nPkg par ≠ s.fab.pkg then
      let (re, s) := mk s
      (s.nodeOp ctx opLINK par [c, 0] re, stOK)
    else (s, stOK)

/-- NADD performed (R402): the old value and the status. -/
def State.nadd (s : State) (ctx r f : Nat) (v : Word) : State × Nat × Nat :=
  let st := s.nodeSt r
  let offN := nth (0, 8) [(0, 8), (8, 8), (16, 4), (20, 2), (60, 4)] f
  if st = stSTALE then (s.countSt ctx r st, 2 ^ 64 - 1, st)
  else
    let old := s.nf r offN.1 offN.2
    if st ≠ stOK then (s.countSt ctx r st, old, st)
    else let (s, st) := s.nodeAdd r f (naddVal f v); (s, old, st)

/-- The current reference of a page index. -/
def State.pgRef (s : State) (ctx i : Nat) : Nat := s.pgF ctx i 12 1 % 64 * 2 ^ 26 + i

/-- The tile registers of a context's streams and copy channels that name such tiles are emptied (R157, R158). -/
def State.dropTiles (s : State) (ctx : Nat) (p : Nat × Nat × Nat → Bool) : State :=
  let of (u : Option Nat) : Bool := u.any (fun u => (s.slot u).ctx = ctx || (s.slot u).drain.any (fun d => d.task.ctx == ctx))
  let keep (x : Option (Nat × Nat × Nat)) : Option (Nat × Nat × Nat) := x.filter (fun t => !p t)
  { s with
    cores := s.cores.map (fun (e : Nat × CoreSt) => (e.1, { e.2 with oqs := e.2.oqs.map (fun (q : Nat × OQ) =>
      (q.1, if of q.2.bound then { q.2 with tile := keep q.2.tile, nextTile := keep q.2.nextTile } else q.2)) }))
    slots := s.slots.map (fun (e : Nat × Slot) => (e.1, if e.2.ctx = ctx then { e.2 with chans := e.2.chans.map (fun (c : Nat × Chan) =>
      (c.1, { c.2 with tile := keep c.2.tile, nextTile := keep c.2.nextTile })) } else e.2)) }

/-- KVLINK at drain (R427). -/
def State.kvlink (s : State) (ctx page va : Nat) : State × Nat :=
  let tid := va / 2 ^ 52 % 4096
  let d := Desc.parse (s.dram.bytes (s.ttbase ctx + 64 * tid) 64)
  let tile := d.pos (va % 2 ^ 52) / 65536
  let a := d.ttb + 8 * tile
  let old := s.dev a 8
  let (s, st) := if page = nullRef then (s, stOK) else s.pgRaise ctx page
  if st ≠ stOK then (s, st)
  else
    let fr := s.kvbase ctx + 65536 * (page % 2 ^ 26)
    let s := s.setDev a 8 (if page = nullRef then 0 else 2 ^ 63 + fr)
    let s := if bitOf old 63 then
        (State.pgLower chainFuel s ctx (s.pgRef ctx ((fld old 16 44 * 65536 - s.kvbase ctx) / 65536))).1
      else s
    ({ s with cores := s.cores.map (fun (e : Nat × CoreSt) =>
        (e.1, { e.2 with tiles := e.2.tiles.filter (fun t => !(t.2.1 == ctx && t.2.2.1 == tid && t.2.2.2.1 == tile)) })) }.dropTiles
        ctx (fun x => x.1 == tid && x.2.1 == tile), stOK)

/-- PFXEVICT at drain (R430). -/
def State.pfxEvict (s : State) (ctx : Nat) (all : Bool) (hash lg : Nat) : State × Nat :=
  let hit (e : Nat × Pfx) : Bool := e.2.ctx == ctx && (all || (e.2.hash == hash && e.2.lg == lg))
  let l := s.hub.pfx.filter hit
  if l.isEmpty then (s, stNONE)
  else
    let s := { s with hub := { s.hub with pfx := s.hub.pfx.filter (fun e => !hit e) } }
    (l.foldl (fun s e => (State.pgLower chainFuel s ctx e.2.page).1) s, stOK)

/-- An atomic performed on bytes at physical addresses: the old value, the flags (R143, R145). -/
def State.atomPhys (s : State) (core : Nat) (host : Bool) (ps : List Nat) (n op b : Nat) : State × Nat × Nat :=
  let a := leNat (s.physBytes host ps)
  let r := atomOp op n a b
  (s.putPhys core host ps (leBytes n r.1), a, r.2)

/-- The bytes of a node record an access covers may all be written by software (R400). -/
def nodeWrOk (o n : Nat) : Bool := (List.range n).all (fun k => nodeSoft (o + k))

/-- An atomic on a node record by plain access (R138, R400): the old value and the flags. -/
def State.atomNode (s : State) (ctx r o n op b : Nat) : State × Nat × Nat :=
  let st := s.nodeSt r
  if st ≠ stOK then (s.countSt ctx r st, 2 ^ (8 * n) - 1, 0)
  else
    let a := s.nf r o n
    let v := atomOp op n a b
    (s.nodeWrite ctx r (((List.range n).map (o + ·)).zip (leBytes n v.1)), a, v.2)

/-- A held node operation is sent to its node's package; its status comes back to the task that issued it. -/
def State.askHeld (s : State) (u : Nat) (t : Task) : (Nat × Nat) × State :=
  let (g, s) := s.newReq (.nodeHeld u t.ctx t.seq)
  ((s.fab.pkg, g), s)
def State.nodeFar (s : State) (u : Nat) (t : Task) (op r : Nat) (args : List Nat) : State × Nat :=
  let (re, s) := s.askHeld u t
  (s.nodeOp t.ctx op r args re, stOK)

/-- The node operations a slot has sent since its outbox held `n` packets join the slot's flow to their package (R406): they
take its core and slot and the next sequence number. -/
def State.stampNode (s : State) (u n : Nat) : State :=
  (s.fab.outbox.drop n).foldl (fun s p =>
    let (q, s) := if p.type = 0x30 then s.nextFseq (flowKey u 5 p.dst 0) else (0, s)
    s.send (if p.type = 0x30 then { p with score := u / 4, sslot := u % 4, fseq := q } else p))
    { s with fab := { s.fab with outbox := s.fab.outbox.take n } }

/-- Flags of an atomic that a slot queued, or that another package performed for it (R82, R143): a trap they raise names the
atomic's address and word. -/
def State.raiseAt (s : State) (u fl addr word : Nat) : State :=
  s.modSlot u (fun sl =>
    let t := sl.raise fl
    if sl.latch.isNone && t.latch.isSome then
      { t with latch := t.latch.map (fun x => { x with opnd := addr }), latchWord := word }
    else t)

/-- Flags of a held atomic, while the task that queued it still holds its slot (R143). -/
def State.heldFlags (s : State) (u : Nat) (t : Task) (fl addr word : Nat) : State :=
  if (s.slot u).task.any (fun x => x.ctx == t.ctx && x.seq == t.seq) then s.raiseAt u fl addr word else s

/-- What a held entry of a task does when it drains: the state and the status to report (R380). `u` is the slot that
issued it. -/
def performHeld (s : State) (u : Nat) (t : Task) (h : Held) : State × Nat :=
  let core := coreOf u
  let ctx := t.ctx
  match h.eff with
  | .store 2 addr _ bs =>
    let r := addr % 2 ^ 32
    let st := s.nodeSt r
    if st ≠ stOK then (s.countSt ctx r st, stOK)
    else (s.nodeWrite ctx r (((List.range bs.length).map (fld addr 32 6 + ·)).zip bs), stOK)
  | .store sp _ ps bs => (s.putPhys core (sp == 3) ps bs, stOK)
  | .nst r w mask v =>
    let st := s.nodeSt r
    if nPkg r ≠ s.fab.pkg then s.nodeFar u t 0x73 r [w, mask, v.toNat]
    else if st ≠ stOK then (s.countSt ctx r st, st)
    else
      let l := (((List.range 8).zip (wordBytes 8 v)).filter (fun e => bitOf mask e.1)).map (fun e => (8 * w + e.1, e.2))
      (s.nodeWrite ctx r l, stOK)
  | .rstore pkg addr bs scope cache => (s.rcStore u 0 pkg ctx addr scope cache t.seq t.interval bs, stOK)
  | .atomic 2 _ addr _ n op b =>
    let (s, _, fl) := s.atomNode ctx (addr % 2 ^ 32) (fld addr 32 6) n op (b.toNat % 2 ^ (8 * n))
    (s.heldFlags u t fl addr h.word, stOK)
  | .atomic 3 _ addr ps n op b => ((s.newReq (.hostHeld u h.word addr ctx t.seq (op + 16 * n) (b.toNat % 2 ^ (8 * n)) ps)).2, stOK)
  | .atomic 4 pkg addr _ n op b =>
    let s := s.rcEvict core pkg ctx addr
    let (tag, s) := s.newReq (.held u h.word addr ctx t.seq)
    let (q, s) := s.nextFseq (flowKey u 0 pkg (addr / 2 ^ 52 % 4096))
    (s.sendFlow (flowKey u 0 pkg (addr / 2 ^ 52 % 4096)) { s.pkt 0x05 pkg ctx with
      score := u / 4, sslot := u % 4, tensor := addr / 2 ^ 52 % 4096, fseq := q, offset := addr % 2 ^ 52, tag := tag,
      aux := op + 16 * (if n = 4 then 2 else 3), operand := b }, stOK)
  | .atomic _ _ addr ps n op b =>
    let (s, _, fl) := s.atomPhys core false ps n op (b.toNat % 2 ^ (8 * n))
    (s.heldFlags u t fl addr h.word, stOK)
  | .marker _ => (s, stOK)
  | .peer m n k =>
    let v := nth u ((s.slot u).gang) m
    if (s.slot v).task.any (fun x => x.ctx == ctx && x.seq == t.seq) then (s.modSlot v (fun sl => sl.later s.clock (.sem n k)), stOK)
    else (s, stOK)
  | .spawn x b => s.spawn u x b
  | .cancel r sub sig => s.cancel ctx u t.seq r sub sig
  | .reprio byNode x key => s.reprio ctx byNode x key
  | .tjoin r n cont => if nPkg r ≠ s.fab.pkg then s.nodeFar u t 0x64 r [n, cont] else s.tjoin ctx r n cont
  | .nfree r =>
    if nPkg r ≠ s.fab.pkg then s.nodeFar u t 0x71 r []
    else let (s, st) := s.nfree ctx r; (s.countSt ctx r (if st = stSTALE then st else stOK), st)
  | .nadd r f v =>
    if nPkg r ≠ s.fab.pkg then s.nodeFar u t 0x74 r [f, v.toNat]
    else let (s, _, st) := s.nadd ctx r f v; (s, st)
  | .nvloss r d vlu => State.pathVloss ctx vlu (fun s => s.askHeld u t) chainFuel s r d
  | .nbackup r d x v fl vlu gamma => State.pathBackup ctx fl vlu gamma (fun s => s.askHeld u t) chainFuel s r d x v
  | .nlink c par =>
    if nPkg c ≠ s.fab.pkg then s.nodeFar u t 0x7A c [par] else s.nlink ctx c par (fun s => s.askHeld u t)
  | .kvfree r => State.pgLower chainFuel s ctx r
  | .kvlink page va => s.kvlink ctx page va
  | .kvpin r pin => if pin then s.pgPin ctx r else s.pgUnpin ctx r
  | .pfxevict all hash lg => s.pfxEvict ctx all hash lg

/-- A status reaches NODEST of the slot that issued the effect while the same task holds it (R380); LOST and JOINUF
have bits of their own (R379). -/
def State.report (s : State) (u : Nat) (t : Task) (st : Nat) : State :=
  if st ≠ stOK && (s.slot u).task.any (fun x => x.ctx == t.ctx && x.seq == t.seq) then
    s.modSlot u (fun sl =>
      if st = stLOST then sl.modCsr (fun c => { c with nodest := c.nodest ||| (1#14 <<< 11) })
      else if st = stJOINUF then sl.modCsr (fun c => { c with nodest := c.nodest ||| (1#14 <<< 12) })
      else sl.sticky st)
  else s

/-- A drained entry whose effect has left for another package, or for the host, stands with its slot until it is acknowledged
(R167). `s` is the state before it drained. -/
def State.noteSent (s t : State) (u : Nat) (h : Held) : State :=
  let x : Option Sent := match h.eff with
    | .rstore pkg a _ scope cache =>
      let k := flowKey u 0 pkg (a / 2 ^ 52 % 4096)
      some (if cache ≠ 3 && scope ≤ 1 then ⟨h, 0, 0, 0⟩ else ⟨h, k, Tbl.get 0 t.fab.wrote k, 0⟩)
    | _ => if s.fab.nextTag < t.fab.nextTag then some ⟨h, 0, 0, s.fab.nextTag⟩ else none
  match x with
  | some x => t.modSlot u (fun sl => { sl with sent := sl.sent.filter t.outstanding ++ [x] })
  | none => t

/-- One entry of a slot's closed regions drains, in program order (R160). Before a release, the narrower lines of the
remote cache are written back (R150, R177). -/
def State.drainOne (s : State) (u : Nat) (t : Task) : State :=
  match (s.slot u).closed with
  | [] => s
  | h :: rest =>
    let s := s.modSlot u (fun sl => { sl with closed := rest })
    let s := if h.rel = 0 then s else s.rcRelease (coreOf u) (h.rel - 1)
    let n := s.fab.outbox.length
    let r := performHeld s u t h
    let s := s.noteSent ((r.1.stampNode u n).report u t r.2) u h
    match h.eff with
    | .store .. | .nst .. | .marker _ => s
    | _ => s.count0 (coreOf u) 0x0D (some (u % 4)) 1

/-- Every entry of a slot's closed regions drains. -/
def State.drainAll (s : State) (u : Nat) (t : Task) : State :=
  (s.slot u).closed.foldl (fun s _ => s.drainOne u t) s

end Sys2Proof.Machine
end

