-- ==== Sys2Proof/Machine/Message.lean ====
section
/-! DEFINITION. Pulled bulk messages (14 R354 to R363): status words, receive slots, pull requests and data, tokens, and
what becomes of them at a cancel, a task's end, a save and a restore. The fields of the packets that R337 does not place
are PRESUMED (log entry 11): the sender's task in OFFSET, the message id and receive slot in OPERAND. -/

namespace Sys2Proof.Machine
open Sys2Proof

/-- Status values (R356). -/
def msOPEN : Nat := 0
def msACTIVE : Nat := 1
def msDONE : Nat := 2
def msORPHAN : Nat := 3
def msCANCEL : Nat := 4
def msSUSP : Nat := 5
def msTOOBIG : Nat := 6
def msBUSY : Nat := 7
def msFAULT : Nat := 8

/-- A status word is written (R356); address 0 is none. -/
def State.statusWord (s : State) (ctx va st n : Nat) : State :=
  if va = 0 then s else s.hwPut ctx va (leBytes 8 (st % 256 + n % 2 ^ 32 * 2 ^ 32))

/-- A field of a descriptor. -/
def dfld (b : List Byte) (o n : Nat) : Nat := leNat ((b.drop o).take n)

/-! Send descriptors (R355) -/

def sdSrc (b : List Byte) : Nat := dfld b 0 8
def sdStatus (b : List Byte) : Nat := dfld b 8 8
def sdSize (b : List Byte) : Nat := dfld b 16 4
def sdSlot (b : List Byte) : Nat := dfld b 20 2
def sdPkg (b : List Byte) : Nat := dfld b 22 1
def sdKind (b : List Byte) : Nat := dfld b 23 1
def sdPrefix (b : List Byte) : Nat := dfld b 24 1
/-- Receive descriptors (R355). -/
def rdDst (b : List Byte) : Nat := dfld b 0 8
def rdStatus (b : List Byte) : Nat := dfld b 8 8
def rdCap (b : List Byte) : Nat := dfld b 16 4
def rdKind (b : List Byte) : Nat := dfld b 20 1
def rdSem (b : List Byte) : Nat := dfld b 21 1
def rdGen (b : List Byte) : Nat := dfld b 22 2
/-- The address in `State.slices` of an offset of a slice. -/
def sliceAddr (slice off : Nat) : Nat := 2 ^ 22 * slice + off

/-- A tile is posted to the DCC's tile-fault queue (R165). -/
def State.postTile (s : State) (ctx tid tile u : Nat) : State :=
  { s with hub := { s.hub with faultq := s.hub.faultq ++ [(ctx, tid, tile, coreOf u, u % 4)] } }

/-- Bytes of a message's source, when they are resident. -/
def State.msgBytes (s : State) (ctx kind a n : Nat) : Option (List Byte) :=
  if kind = 1 then some (s.slices.bytes (sliceAddr (a / 2 ^ 24) (a % 2 ^ 22)) n)
  else (List.range n).mapM (fun k => (s.hwAddr ctx (a + k)).map s.dram.get)

/-- Bytes written at a message's destination; none when a tile is not resident. -/
def State.msgWrite (s : State) (ctx kind a : Nat) (bs : List Byte) : Option State :=
  if kind = 1 then
    let s := s.slcTouch (a / 2 ^ 24) 1 ctx 1 255 (a % 2 ^ 22) bs.length
    some { s with slices := s.slices.store (sliceAddr (a / 2 ^ 24) (a % 2 ^ 22)) bs }
  else if (List.range bs.length).all (fun k => (s.hwAddr ctx (a + k)).isSome) then some (s.hwPut ctx a bs) else none

/-! The sender -/

def SendMsg.is (m : SendMsg) (ctx seq mid : Nat) : Bool := m.ctx == ctx && m.seq == seq && m.mid == mid
/-- An open message: it has not ended. -/
def SendMsg.isOpen (m : SendMsg) : Bool := m.status = msOPEN || m.status = msACTIVE || m.status = msSUSP

def State.findMsg (s : State) (ctx seq mid : Nat) : Option SendMsg := s.fab.sends.find? (fun m => m.is ctx seq mid)
def State.setMsg (s : State) (m : SendMsg) : State :=
  { s with fab := { s.fab with sends := m :: s.fab.sends.filter (fun x => !x.is m.ctx m.seq m.mid) } }

/-- A message changes its status (R356); one that has ended leaves the list. -/
def State.msgStatus (s : State) (m : SendMsg) (st : Nat) : State :=
  let s := s.statusWord m.ctx (sdStatus m.desc) st m.sent
  let m := { m with status := st }
  if m.isOpen then s.setMsg m
  else { s with fab := { s.fab with sends := s.fab.sends.filter (fun x => !x.is m.ctx m.seq m.mid) } }

/-- The step that takes a packet of a message. -/
def msgStep (type : Nat) : Instr :=
  match type with
  | 0x10 => .pullRequestPacket
  | 0x11 => .tokenPacket
  | 0x12 => .pullDataPacket
  | 0x13 => .messageCancelPacket
  | 0x14 => .resumePacket
  | _ => .messageStatusPacket

/-- A packet of a message leaves by the fabric; one for this package itself does not, and is taken here (R348). -/
def State.post (s : State) (p : Packet) : State :=
  if p.dst = s.fab.pkg then
    { s with agenda := s.agenda ++ [.event (msgStep p.type) { (default : Occasion) with a := 4, pkt := p }] }
  else s.send p

/-- A notice about a message to the package at its other end: type, package, context, priority class, the sender's task,
and OPERAND with the message id, which goes in TAG, in its 16 low bits. -/
def State.msgNote (s : State) (type pkg ctx cls seq opnd : Nat) : State :=
  s.post { s.pkt type pkg ctx with cls := cls, offset := seq, tag := opnd % 2 ^ 16, operand := BitVec.ofNat 64 (opnd / 2 ^ 16 * 2 ^ 16) }

/-- The interval of a task wherever it is (R350): the slot it occupies, or the record of an ended or waiting task. -/
def State.intervalOf (s : State) (u ctx seq : Nat) : Nat :=
  let sl := s.slot u
  if sl.tk.ctx = ctx && sl.tk.seq = seq then sl.tk.interval
  else match sl.drain with
    | some d => if d.task.ctx = ctx && d.task.seq = seq then d.task.interval else 0
    | none => 0

/-- One packet of pull data (R350, R354): a counted write of the sender's task, unless it is local (R348). -/
def State.pullPacket (s : State) (m : SendMsg) (tok off : Nat) (bs : List Byte) : State :=
  let pkg := sdPkg m.desc
  let k := flowKey m.unit 4 pkg 0
  let here := pkg = s.fab.pkg
  let (q, s) := if here then (0, s) else s.nextWrite k
  let s := if here then s else s.countSend m.ctx m.seq pkg
  let p := { s.pkt 0x12 pkg m.ctx with
    score := m.unit / 4, sslot := m.unit % 4, cls := m.cls, fseq := q, offset := off,
    interval := s.intervalOf m.unit m.ctx m.seq, tag := m.seq, aux := bs.length - 1,
    operand := BitVec.ofNat 64 (m.mid % 2 ^ 16 + sdSlot m.desc * 2 ^ 16 + tok * 2 ^ 32), payload := bs }
  if here then s.post p else s.sendFlow k p

/-- The data of units of a message (R354): a unit is 4 KiB, the last may be short, a packet carries 256 bytes. None when
the source is not resident. -/
def State.sendUnits (s : State) (m : SendMsg) (tok first count : Nat) : Option State :=
  let size := sdSize m.desc
  let lo := 4096 * first
  let hi := min size (4096 * (first + count))
  (List.range (ceilDiv (hi - lo) 256)).foldl (fun s k =>
    s.bind (fun s =>
      let o := lo + 256 * k
      let n := min 256 (hi - o)
      let a := sdSrc m.desc + o
      let s := if sdKind m.desc = 1 then s.slcTouch (a / 2 ^ 24) 1 m.ctx 0 255 (a % 2 ^ 22) n else s
      (s.msgBytes m.ctx (sdKind m.desc) a n).map (fun bs => s.pullPacket m tok o bs))) (some s)

/-- Units of a message of a size. -/
def unitsOfSize (n : Nat) : Nat := ceilDiv n 4096
/-- Bytes of unit `k` of a message of a size. -/
def unitBytes (size k : Nat) : Nat := min size (4096 * (k + 1)) - 4096 * k

/-- XSEND opens a message (R357): the pull request and the prefix go out. A tile of the prefix that is not resident aborts
the task (R165). -/
def msgOpen (s : State) (u mid cls : Nat) (t : Task) (desc : List Byte) : M State := do
  let m : SendMsg := ⟨desc, t.ctx, t.seq, mid, cls, u, msOPEN, 0⟩
  let size := sdSize desc
  let n := min (sdPrefix desc) (unitsOfSize size)
  let s := s.msgNote 0x10 (sdPkg desc) t.ctx cls t.seq (mid + sdSlot desc * 2 ^ 16 + size * 2 ^ 26 + n * 2 ^ 52)
  let m := { m with sent := min size (4096 * n) }
  match (s.setMsg m).sendUnits m 0 0 n with
  | some s => return s.msgStatus m msOPEN
  | none =>
    let va := sdSrc desc
    let d := Desc.parse (s.dram.bytes (s.ttbase t.ctx + 64 * (va / 2 ^ 52)) 64)
    let bad := (List.range m.sent).find? (fun k => (s.hwAddr t.ctx (va + k)).isNone)
    .error (.tile (va / 2 ^ 52) (d.pos (va % 2 ^ 52 + bad.getD 0) / 65536))

/-- XRESUME of a suspended message (R362). -/
def State.msgResume (s : State) (m : SendMsg) : State :=
  if m.status ≠ msSUSP then s
  else (s.msgNote 0x14 (sdPkg m.desc) m.ctx m.cls m.seq (m.mid + sdSlot m.desc * 2 ^ 16)).msgStatus m msACTIVE

/-- A message is withdrawn by its sender (R361). -/
def State.msgCancel (s : State) (m : SendMsg) : State :=
  (s.msgNote 0x13 (sdPkg m.desc) m.ctx m.cls m.seq (m.mid + sdSlot m.desc * 2 ^ 16)).msgStatus m msCANCEL

/-! The receiver -/

def recvKey (ctx k : Nat) : Nat := 1024 * ctx + k
def State.recv (s : State) (ctx k : Nat) : Option RecvSlot := (s.fab.recvs.find? (fun e => e.1 == recvKey ctx k)).map (·.2)
def State.setRecv (s : State) (ctx k : Nat) (r : RecvSlot) : State :=
  { s with fab := { s.fab with recvs := Tbl.put s.fab.recvs (recvKey ctx k) r } }

/-- A receive slot is live: posted, with or without a message (R358). -/
def RecvSlot.live (r : RecvSlot) : Bool := r.posted && (r.status = msOPEN || r.status = msACTIVE)

/-- The tokens of a receive slot are revoked (R360, R361, R363). -/
def State.revoke (s : State) (ctx k : Nat) : State :=
  { s with fab := { s.fab with tokens := s.fab.tokens.filter (fun t => !(t.ctx == ctx && t.slot == k)) } }

/-- A receive slot changes its status. -/
def State.recvStatus (s : State) (ctx k st : Nat) : State :=
  match s.recv ctx k with
  | none => s
  | some r => (s.setRecv ctx k { r with status := st }).statusWord ctx (rdStatus r.desc) st r.got

/-- The sender of the bound message is told a status (R356, R357). -/
def State.tellSender (s : State) (ctx : Nat) (src seq mid cls st got : Nat) : State :=
  s.msgNote 0x15 src ctx cls seq (mid + st * 2 ^ 16 + got * 2 ^ 32)

/-- A slot's request ends: its tokens are revoked, its status set and its sender told. -/
def State.recvEnd (s : State) (ctx k st : Nat) : State :=
  match s.recv ctx k with
  | none => s
  | some r =>
    let s := (s.revoke ctx k).recvStatus ctx k st
    match r.msg with
    | some (src, seq, mid, _, cls) =>
      (s.setRecv ctx k { r with status := st, posted := false, msg := none, packets := [] }).tellSender ctx src seq mid cls st r.got
    | none => s.setRecv ctx k { r with status := st, posted := false }

/-- A pull request's fields: message id, receive slot, size, prefix units. -/
def reqMid (p : Packet) : Nat := p.tag % 2 ^ 16
def reqSlot (p : Packet) : Nat := fld p.operand.toNat 16 10
def reqSize (p : Packet) : Nat := fld p.operand.toNat 26 26
def reqPrefix (p : Packet) : Nat := fld p.operand.toNat 52 2

/-! Tokens (R359) -/

/-- Token bytes, by GSCFG.TOKSZ. -/
def tokUnits (g : Nat) : Nat := if 4 < g % 8 then 4 else 2 ^ (g % 8)

/-- The lowest run of units that are neither received nor covered by a token: first and length, up to a token's size. A
prefix on its way needs no token (R357), and is given up like a token's data after 20 µs (log entry 22). -/
def State.wanted (s : State) (ctx k : Nat) (r : RecvSlot) : Option (Nat × Nat) :=
  match r.msg with
  | none => none
  | some (_, _, _, size, _) =>
    let n := unitsOfSize size
    let cov (j : Nat) : Bool := bitOf r.units j || (j < r.due && s.clock < r.arrived + usClk 20) || s.fab.tokens.any (fun t =>
      t.ctx == ctx && t.slot == k && t.first ≤ j && j < t.first + t.count)
    match (List.range n).find? (fun j => !cov j) with
    | none => none
    | some f => some (f, (((List.range n).drop f).takeWhile (fun j => !cov j)).length.min (tokUnits s.fab.gscfg.toNat))

/-- Outstanding tokens of a slot. -/
def State.tokensOf (s : State) (ctx k : Nat) : List Token := s.fab.tokens.filter (fun t => t.ctx == ctx && t.slot == k)

/-- The bytes of a run of units of a message. -/
def runBytes (size first count : Nat) : Nat := min size (4096 * (first + count)) - 4096 * first

/-- Bytes of all outstanding tokens. -/
def State.tokenBytes (s : State) : Nat :=
  (s.fab.tokens.map (fun t =>
    match s.recv t.ctx t.slot with
    | some r => (match r.msg with | some (_, _, _, size, _) => runBytes size t.first t.count | none => 0)
    | none => 0)).sum

/-- An eligible request (R359): key, class, rank, arrival. The rank is the remaining bytes less the age. -/
def State.eligible (s : State) : List (Nat × Nat × Int × Nat) :=
  s.fab.recvs.filterMap (fun e =>
    let r := e.2
    let ctx := e.1 / 1024
    let k := e.1 % 1024
    match r.msg with
    | some (_, _, _, size, cls) =>
      if r.posted && !r.saved && (s.tokensOf ctx k).length < 4 && (s.wanted ctx k r).isSome then
        let age := fld s.fab.gscfg.toNat 16 16 * ((s.clock - r.waitedSince) / 1050)
        some (e.1, cls, (size : Int) - r.got - age, r.arrived)
      else none
    | none => none)

/-- An idle scheduler issues its first token 200 clocks after a request's arrival (R365). -/
def State.wakeSched (s : State) (at_ : Nat) : State :=
  if s.eligible.isEmpty then { s with fab := { s.fab with lastToken := max s.fab.lastToken (at_ + 192) } } else s

/-- A request that came at clock `at_` meets a posted slot (R357, R359). The first `n` units are its prefix, which follow it: the slot is ACTIVE once
they are written (log entry 22). -/
def State.recvBind (s : State) (p : Packet) (n at_ : Nat) : State :=
  let k := reqSlot p
  match s.recv p.ctx k with
  | none => s
  | some r =>
    if rdCap r.desc < reqSize p then s.tellSender p.ctx p.src p.offset (reqMid p) p.cls msTOOBIG 0
    else
      let r := { r with
        msg := some (p.src, p.offset, reqMid p, reqSize p, p.cls), units := 0, packets := [], got := 0
        status := if n = 0 then msACTIVE else msOPEN, due := n
        arrived := at_, waitedSince := at_, orphanAt := 0 }
      let s := (s.wakeSched at_).setRecv p.ctx k r
      if n = 0 then s.statusWord p.ctx (rdStatus r.desc) msACTIVE 0 else s

/-- The requests in the hub's table (R357). -/
def State.requests (s : State) : Nat := s.fab.held.length + (s.fab.recvs.filter (fun e => e.2.msg.isSome)).length

/-- The requests held for a slot are taken up, the oldest first, until one is bound to it (R357). -/
def State.takeHeld (s : State) (ctx k : Nat) : State :=
  (s.fab.held.filter (fun e => e.2.ctx == ctx && reqSlot e.2 == k)).foldl (fun s e =>
    if (s.recv ctx k).any (fun r => r.msg.isNone) then
      ({ s with fab := { s.fab with held := s.fab.held.erase e } }).recvBind e.2 0 e.1
    else s) s

/-- A receive slot is posted (R355, R358). -/
def State.recvPost (s : State) (u : Nat) (t : Task) (k : Nat) (desc : List Byte) : State :=
  let r : RecvSlot := ⟨desc, u, t.seq, t.ctx, msOPEN, rdGen desc, none, 0, [], 0, true, false, 0, 0, 0, 0⟩
  ((s.setRecv t.ctx k r).statusWord t.ctx (rdStatus desc) msOPEN 0).takeHeld t.ctx k

/-- Every unit has been received (R357): DONE on both sides, and the semaphore of the posting slot while its task holds
it (R356). -/
def State.recvDone (s : State) (ctx k : Nat) : State :=
  match s.recv ctx k with
  | none => s
  | some r =>
    let s := s.recvEnd ctx k msDONE
    if bitOf (rdSem r.desc) 7 && (s.slot r.unit).task.any (fun t => t.seq == r.seq && t.ctx == r.ctx) then
      s.modSlot r.unit (fun sl => sl.later s.clock (.sem (rdSem r.desc % 64) 1))
    else s

/-- The packets of a unit. -/
def unitPackets (size k : Nat) : Nat := ceilDiv (unitBytes size k) 256

/-- The bytes of the packets of some units in progress, of which the last of a message may be short. -/
def partBytes (size : Nat) (l : Tbl Nat) : Nat :=
  (l.map (fun (e : Nat × Nat) => ((List.range 16).map (fun i =>
    if bitOf e.2 i then min 256 (unitBytes size e.1 - 256 * i) else 0)).sum)).sum
def RecvSlot.size (r : RecvSlot) : Nat := match r.msg with | some (_, _, _, size, _) => size | none => 0

/-- A packet of pull data is taken (R354, R360): written at its place, and its unit marked when it is whole. A tile that is
not resident is posted and ends the message in FAULT (R339, R356; DEDUCED: log entry 22). -/
def State.recvData (s : State) (ctx k off : Nat) (bs : List Byte) : State :=
  match s.recv ctx k with
  | none => s
  | some r =>
    match r.msg with
    | none => s
    | some (_, _, _, size, _) =>
      match s.msgWrite ctx (rdKind r.desc) (rdDst r.desc + off) bs with
      | none =>
        let va := rdDst r.desc + off
        let d := Desc.parse (s.dram.bytes (s.ttbase ctx + 64 * (va / 2 ^ 52)) 64)
        (s.postTile ctx (va / 2 ^ 52) (d.pos (va % 2 ^ 52) / 65536) r.unit).recvEnd ctx k msFAULT
      | some s =>
        let j := off / 4096
        let bits := setFld (Tbl.get 0 r.packets j) (off % 4096 / 256) 1 1
        let whole := popCount 16 bits = unitPackets size j
        let r := { r with
          packets := if whole then Tbl.del r.packets j else Tbl.put r.packets j bits
          units := if whole then setFld r.units j 1 1 else r.units
          got := r.got + bs.length }
        let left := s.fab.tokens.filter (fun t =>
          !(t.ctx == ctx && t.slot == k && (List.range t.count).all (fun i => bitOf r.units (t.first + i))))
        let r := { r with orphanAt := if left.any (fun t => t.ctx == ctx && t.slot == k) then s.clock else 0 }
        let n := unitsOfSize size
        let up := r.status = msOPEN && (List.range (min r.due n)).all (fun i => bitOf r.units i)
        let r := if up then { r with status := msACTIVE, due := 0 } else r
        let s := s.setRecv ctx k r
        let s := if up then s.statusWord ctx (rdStatus r.desc) msACTIVE r.got else s
        let s := { s with fab := { s.fab with tokens := left } }
        if popCount n r.units = n then s.recvDone ctx k else s

/-! The scheduler (R359) -/

/-- The request the scheduler chooses: the highest class, the least rank, the earlier arrival. -/
def pickReq (l : List (Nat × Nat × Int × Nat)) : Option (Nat × Nat × Int × Nat) :=
  l.foldl (fun best x =>
    match best with
    | none => some x
    | some y =>
      if y.2.1 < x.2.1 || (y.2.1 = x.2.1 && (x.2.2.1 < y.2.2.1 || (x.2.2.1 = y.2.2.1 && x.2.2.2 < y.2.2.2))) then some x
      else best) none

/-- A token is issued (R359): one every 8 clocks at most, within BUDGET. -/
def State.grantToken (s : State) : State :=
  if s.clock < s.fab.lastToken + 8 then s
  else match pickReq s.eligible with
    | none => s
    | some (key, _) =>
      let ctx := key / 1024
      let k := key % 1024
      match s.recv ctx k with
      | none => s
      | some r =>
        match r.msg, s.wanted ctx k r with
        | some (src, seq, mid, size, cls), some (first, count) =>
          if fld s.fab.gscfg.toNat 32 32 * 1024 < s.tokenBytes + runBytes size first count then s
          else
            let id := s.fab.nextToken
            let idle := (s.tokensOf ctx k).isEmpty
            let s := { s with fab := { s.fab with
              tokens := s.fab.tokens ++ ([⟨id, ctx, k, first, count, s.clock⟩] : List Token), nextToken := id + 1, lastToken := s.clock } }
            let s := s.setRecv ctx k { r with
              waitedSince := s.clock, orphanAt := if idle then s.clock - r.orphanAt else r.orphanAt }
            s.post { s.pkt 0x11 src ctx with
              cls := cls, offset := seq, tag := id % 2 ^ 32
              operand := BitVec.ofNat 64 (mid + first * 2 ^ 16 + count * 2 ^ 32) }
        | _, _ => s

/-- Tokens leave a slot: its orphan timer stops when none is left (R360). -/
def State.stopOrphan (s : State) (ctx k : Nat) : State :=
  match s.recv ctx k with
  | none => s
  | some r => if (s.tokensOf ctx k).isEmpty then s.setRecv ctx k { r with orphanAt := s.clock - r.orphanAt } else s

/-! A task leaves -/

/-- The messages and receive slots of an ended task are cancelled (R361). -/
def State.cancelTask (s : State) (t : Task) : State :=
  let s := (s.fab.sends.filter (fun m => m.ctx == t.ctx && m.seq == t.seq)).foldl State.msgCancel s
  (s.fab.recvs.filter (fun e => e.2.ctx == t.ctx && e.2.seq == t.seq && e.2.live)).foldl
    (fun s e => s.recvEnd t.ctx (e.1 % 1024) msCANCEL) s

/-- The messages of a task are suspended, and its receive slots saved (R363): a partly received unit is missing. -/
def State.suspendTask (s : State) (t : Task) : State :=
  let s := (s.fab.sends.filter (fun m => m.ctx == t.ctx && m.seq == t.seq && m.isOpen)).foldl (fun s m => s.msgStatus m msSUSP) s
  (s.fab.recvs.filter (fun e => e.2.ctx == t.ctx && e.2.seq == t.seq)).foldl (fun s e =>
    let k := e.1 % 1024
    let run := !(s.tokensOf t.ctx k).isEmpty
    let s := s.revoke t.ctx k
    let part := partBytes e.2.size e.2.packets
    s.setRecv t.ctx k { e.2 with
      saved := true, packets := [], due := 0, got := e.2.got - part, orphanAt := if run then s.clock - e.2.orphanAt else e.2.orphanAt }) s

/-- They go on (R363): the slots are posted again, each in the unit where its member now is, and every suspended message is
resumed in ascending id order. -/
def State.resumeTask (s : State) (t : Task) (moved : List (Nat × Nat)) : State :=
  let unitAt (u : Nat) : Nat := ((moved.find? (fun e => e.1 == u)).map (·.2)).getD u
  let mine (e : Nat × RecvSlot) : Bool := e.2.ctx == t.ctx && e.2.seq == t.seq
  let s := if s.fab.recvs.any (fun e => mine e && e.2.saved && e.2.msg.isSome) then s.wakeSched s.clock else s
  let s : State := { s with fab := { s.fab with
    recvs := s.fab.recvs.map (fun e =>
      if mine e then (e.1, { e.2 with saved := false, unit := unitAt e.2.unit }) else e)
    sends := s.fab.sends.map (fun m : SendMsg => if m.ctx == t.ctx && m.seq == t.seq then { m with unit := unitAt m.unit } else m) } }
  let ms := s.fab.sends.filter (fun m => m.ctx == t.ctx && m.seq == t.seq && m.status == msSUSP)
  (ms.mergeSort (fun (a b : SendMsg) => decide (a.mid ≤ b.mid))).foldl State.msgResume s

end Sys2Proof.Machine
end

