-- ==== Sys2Proof/Machine/Save.lean ====
section
/-! DEFINITION. The save record of a slot (04 R133, 07 R199, 13 R330), the matrix save area (10 R287), the fabric save
area (14 R364), and reading them back. -/

namespace Sys2Proof.Machine
open Sys2Proof

/-- Fields (offset, bytes, value) written from a device address upward. -/
def State.devFields (s : State) (a : Nat) (l : List (Nat × Nat × Nat)) : State :=
  l.foldl (fun s f => s.setDev (a + f.1) f.2.1 f.2.2) s

/-- RINGCFG of a ring (R189). -/
def Ring.cfg (r : Ring) : Nat :=
  r.base % 2 ^ 15 + r.logn % 16 * 2 ^ 15 + r.esz % 64 * 2 ^ 19 + r.decl % 2 ^ 13 * 2 ^ 25 + r.prodown % 32 * 2 ^ 38
    + r.consown % 32 * 2 ^ 43 + b2n r.pipe * 2 ^ 48

/-- A ring from its RINGCFG, with its pointers at zero. -/
def Ring.ofCfg (w : Nat) : Ring :=
  ⟨fld w 0 15, fld w 15 4, fld w 19 6, fld w 25 13, fld w 38 5, fld w 43 5, bitOf w 48, 0, 0, 0⟩

/-- LOOPST (R116): the innermost loop is the first of the stack. -/
def Slot.loopst (sl : Slot) : Nat :=
  let d := sl.loops.length
  let (id, j) := match sl.loops with | l :: _ => (l.id, l.j) | [] => (0, 0)
  id % 256 + sl.estage.toNat * 2 ^ 8 + d % 8 * 2 ^ 16 + j % 2 ^ 32 * 2 ^ 32

/-- UIPC (R123). -/
def Csrs.uipcWord (c : Csrs) : Nat := c.uipc.toNat + b2n c.uiact * 2 ^ 63

/-- A loop's 32 bytes in the save record (R133; the places inside the entry are a DESIGN CHOICE, log entry 12). -/
def LoopRec.fields (l : LoopRec) : List (Nat × Nat × Nat) :=
  [(0, 1, l.id), (1, 1, l.ns - 1), (2, 1, b2n l.piped)]
    ++ ((l.offs.zip (List.range 8)).map (fun e => (3 + e.2, 1, e.1)))
    ++ [(12, 4, l.start), (16, 4, l.words), (20, 4, l.n), (24, 4, l.j)]

def State.loopAt (s : State) (a : Nat) : LoopRec :=
  let ns := s.dev (a + 1) 1 + 1
  ⟨s.dev a 1, s.dev (a + 2) 1 = 1, s.dev (a + 12) 4, s.dev (a + 16) 4, ns,
    (List.range ns).map (fun k => s.dev (a + 3 + k) 1), s.dev (a + 20) 4, s.dev (a + 24) 4, s.clock⟩

def Slot.ring (sl : Slot) (n : Nat) : Ring := Tbl.get Ring.none sl.rings n
def Slot.cring (sl : Slot) (e : Nat) : Ring := Tbl.get Ring.none sl.crings e
def Slot.chan (sl : Slot) (n : Nat) : Chan := Tbl.get default sl.chans n

/-- CSTAT.bar's value of a barrier (R328). -/
def Bar.word (b : Bar) : Nat := b.count % 2 ^ 31 + b.state % 4 * 2 ^ 32 + b2n b.ovf * 2 ^ 34
def Bar.ofWord (w : Nat) : Bar := ⟨fld w 0 31, fld w 32 2, bitOf w 34⟩

/-- The granules of an allocation whose valid bit is set, counted from its start. -/
def CoreSt.validIn (c : CoreSt) (al : Alloc) : List Nat :=
  (List.range (al.regLen / 64)).filter (fun k => bitOf c.valid (al.regBase / 64 + k))

/-- Matrix arrays: the array of a core (R7). -/
def arrOf (core : Nat) : Nat := core / 4

/-- A plane tag's doubleword in the save area (R287). -/
def PlaneTag.word (t : Option PlaneTag) : Nat :=
  match t with
  | none => 0
  | some p => p.tid % 4096 + p.tile % 65536 * 2 ^ 12 + b2n p.squared * 2 ^ 28 + 2 ^ 29

/-- The `n` entries of a table from key `k` upward; the table lists no key below `k`. -/
def Tbl.slice {β : Type} (d : β) : Tbl β → Nat → Nat → List β
  | _, _, 0 => []
  | [], k, n + 1 => d :: Tbl.slice d [] (k + 1) n
  | (a, b) :: t, k, n + 1 =>
    if a = k then b :: Tbl.slice d t (k + 1) n else d :: Tbl.slice d ((a, b) :: t) (k + 1) n

/-- A table of numbers with its entries from key `k` on replaced by a list. -/
def Tbl.splice (t : Tbl Nat) (k : Nat) (l : List Nat) : Tbl Nat :=
  t.filter (fun e => e.1 < k) ++ (((List.range l.length).map (k + ·)).zip l).filter (fun e => e.2 ≠ 0)
    ++ t.filter (fun e => k + l.length ≤ e.1)

/-- Half `h` of an accumulator row of a core (R262), and the core with it written. -/
def CoreSt.accRow (c : CoreSt) (h r : Nat) : List Nat :=
  Tbl.slice 0 (c.acc.filter (fun e => (h * 64 + r) * 1536 ≤ e.1)) ((h * 64 + r) * 1536) 1536
def CoreSt.setAcc (c : CoreSt) (h r : Nat) (l : List Nat) : CoreSt :=
  { c with acc := Tbl.splice c.acc ((h * 64 + r) * 1536) l }

/-- The row-halves of a chain: `hm` selects the halves, half 0's rows first (R286). -/
def rowHalves (arow m hm : Nat) : List (Nat × Nat) :=
  ((List.range 2).filter (fun h => bitOf hm h)).flatMap (fun h => (List.range m).map (fun r => (h, arow + r)))

/-- The bytes of accumulator rows of a core (R286). -/
def CoreSt.accBytes (c : CoreSt) (arow m hm : Nat) : List Byte :=
  (rowHalves arow m hm).flatMap (fun p => (c.accRow p.1 p.2).flatMap (leBytes 4))

/-- The accumulator rows read back from bytes in that layout. -/
def CoreSt.accLoad (c : CoreSt) (arow m hm : Nat) (bs : List Byte) : CoreSt :=
  let l := rowHalves arow m hm
  (l.zip (pieces 6144 l.length bs)).foldl (fun c e => c.setAcc e.1.1 e.1.2 ((pieces 4 1536 e.2).map leNat)) c

/-- A heap entry in the save area (R287, R291; the place of its fields is a DESIGN CHOICE: log entry 18). -/
def HeapEnt.bytes (h : HeapEnt) : List Byte := leBytes 4 h.score ++ leBytes 4 h.token ++ leBytes 2 h.gen ++ [1] ++ zeros 5

/-- The row list of a sparse role (R287): its pointer and length at `a`, and the list itself, two bytes a row, at `p`, past the
chain's rows (DESIGN CHOICE: log entry 18). -/
def State.saveRows (s : State) (core : Nat) (t : Option PlaneTag) (a p : Nat) : State :=
  match (s.arr (arrOf core)).planes.find? (fun e => t.any (fun t => t.span ≠ 0) && e.2.tag == t) with
  | some (_, x) =>
    ({ s with dram := s.dram.store p (x.rows.flatMap (leBytes 2)) }).devFields a [(0, 8, p), (8, 4, x.rows.length)]
  | none => s

/-- The matrix save area at a device address (R287). -/
def State.saveMatrix (s : State) (core a : Nat) (cl : Claim) : State :=
  let (op, arow, m, hm) := match cl.opened with | some (r, n, h) => (1, r, n, h) | none => (0, 0, 1, 0)
  let s := { s with dram := s.dram.store a (zeros 384) }
  let s := s.devFields a
    [(0, 8, cl.cls % 16 + (cl.mcfg.getD 0) % 65536 * 2 ^ 4 + op * 2 ^ 20 + arow * 2 ^ 21 + (m - 1) * 2 ^ 27 + hm * 2 ^ 33),
     (8, 8, PlaneTag.word cl.active), (16, 8, PlaneTag.word cl.shadow),
     (24, 4, (cl.active.map (·.span)).getD 0), (28, 4, (cl.shadow.map (·.span)).getD 0)]
  let s := { s with dram := (s.dram.store (a + 64) (cl.epi.take 63)).put (a + 127) (BitVec.ofNat 8 cl.epiBy) }
  let heap := (List.range 64).flatMap (fun r =>
    let l := Tbl.get [] cl.heaps r
    (l.flatMap HeapEnt.bytes) ++ zeros (16 * (72 - l.length)))
  let s := { s with dram := s.dram.store (a + 384) heap }
  let rows := match cl.opened with
    | some (r, n, h) => (s.core core).accBytes r n h
    | none => []
  let s := { s with dram := s.dram.store (a + 74112) rows }
  (s.saveRows core cl.active (a + 128) (a + 74112 + rows.length)).saveRows core cl.shadow (a + 144) (a + 76160 + rows.length)

/-- The fabric save area at a device address (R364): interval, timer, send counts; the receive slots of the slot in ascending number,
its open messages, and its operand queues with entry `k` of 64 in place `k` modulo 64 (log entry 12). Nothing else of the area is
left as it was. -/
def State.saveFabric (s : State) (u a : Nat) (t : Task) : State :=
  let rs := s.fab.recvs.filter (fun e => e.2.unit == u && e.2.seq == t.seq && e.2.ctx == t.ctx)
  let ms := s.fab.sends.filter (fun m => m.unit == u && m.seq == t.seq && m.ctx == t.ctx)
  let qs := (s.core (coreOf u)).oqs.filter (fun e => e.2.bound == some u)
  let mask := (qs.map (fun e => 2 ^ e.1)).sum
  let b0 := a + 576 + 640 * rs.length
  let b1 := b0 + 128 * ms.length
  let s := { s with dram := s.dram.store a (zeros (b1 - a + 16392 * qs.length)) }
  let s := s.devFields a ([(0, 8, rs.length + ms.length * 2 ^ 11 + mask * 2 ^ 18 + t.interval * 2 ^ 26
      + (s.slot u).accIdx * 2 ^ 42), (8, 4, s.ivElapsed t)]
    ++ (s.fab.sentCounts.filter (fun e => e.1 == t.ctx && e.2.1 == t.seq)).map (fun e => (64 + 4 * e.2.2.1, 4, e.2.2.2)))
  let s := (rs.zip (List.range rs.length)).foldl (fun s e =>
    let b := a + 576 + 640 * e.2
    let r := e.1.2
    let s := { s with dram := s.dram.store b r.desc }
    let m := r.msg.getD (0, 0, 0, 0, 0)
    s.devFields b [(64, 8, r.status + r.got * 2 ^ 32), (72, 2, e.1.1 % 1024), (74, 1, m.1), (76, 4, m.2.2.1),
      (80, 4, m.2.2.2.1), (84, 1, m.2.2.2.2), (88, 512, r.units)]) s
  let s := (ms.zip (List.range ms.length)).foldl (fun s e =>
    let b := b0 + 128 * e.2
    let s := { s with dram := s.dram.store b e.1.desc }
    s.devFields b [(64, 8, e.1.status + e.1.sent * 2 ^ 32), (72, 8, e.1.mid)]) s
  (qs.zip (List.range qs.length)).foldl (fun s e =>
    let b := b1 + 16392 * e.2
    let q := e.1.2
    let s := s.devFields b [(0, 4, q.prod), (4, 4, q.cons)]
    (q.entries.zip (List.range q.entries.length)).foldl (fun s x =>
      { s with dram := s.dram.store (b + 8 + 256 * ((q.cons + x.2) % 64)) x.1 }) s) s

/-- A saved task's interval has closed (R351, R364): the area of a member's block has the new number and no counts. -/
def State.savedClose (s : State) (blk iv : Nat) : State :=
  if s.dev (blk + 1800) 8 = 0 then s
  else
    let a := blk + 3 * 2 ^ 20
    let s := s.devFields a [(0, 8, setFld (s.dev a 8) 26 16 iv), (8, 4, 0)]
    { s with dram := s.dram.store (a + 64) (zeros 512) }

/-- The slot's task has something in the fabric to save (R364). -/
def State.usesFabric (s : State) (u : Nat) (t : Task) : Bool :=
  t.interval ≠ 0 || (s.slot u).accIdx ≠ 0 || s.fab.sentCounts.any (fun e => e.1 == t.ctx && e.2.1 == t.seq)
    || s.fab.recvs.any (fun e => e.2.unit == u && e.2.seq == t.seq && e.2.ctx == t.ctx)
    || s.fab.sends.any (fun m => m.unit == u && m.seq == t.seq && m.ctx == t.ctx)
    || (s.core (coreOf u)).oqs.any (fun e => e.2.bound == some u)

/-- Data ring `n` as a slot's save record holds it: a gang's named pipe is saved once, with member 0 (R199). -/
def State.ringSaved (s : State) (u n : Nat) : Ring :=
  let sl := s.slot u
  let r := sl.ring n
  if r.via = 0 then r
  else if sl.gang.head? = some u then Tbl.get Ring.none (Tbl.get (0, []) s.pipes (r.via - 1)).2 n
  else Ring.none

/-- The save record of a slot at a device address, with the causes listed in it (R133, R199, R330). -/
def State.saveSlot (s : State) (u a causes : Nat) : State :=
  let sl := s.slot u
  let t := sl.tk
  let core := coreOf u
  let c := s.core core
  let al := sl.alloc
  let vs := c.validIn al
  let cs := sl.csr
  let claim := match c.claim with | some cl => if cl.ctx = t.ctx && cl.seq = t.seq then some cl else none | none => none
  let fab := s.usesFabric u t
  let cfg (n : Nat) : Nat := (s.ringSaved u n).cfg
  let s := { s with dram := s.dram.store a (zeros 2048) }
  let s := s.devFields a
    ([(0, 8, causes % 16 + 2 ^ 8 + t.seq * 2 ^ 32), (8, 8, sl.pc + sl.node * 2 ^ 32 + 2 ^ 63)]
    ++ (List.range 64).map (fun n => (16 + 8 * n, 8, (Tbl.get 0 sl.g n).toNat))
    ++ (List.range 8).map (fun n => (528 + 8 * n, 8, (Tbl.get 0 sl.g (120 + n)).toNat))
    ++ [(592, 8, sl.preds.toNat + sl.estage.toNat * 2 ^ 8)]
    ++ ((sl.loops.zip (List.range 4)).flatMap (fun e => e.1.fields.map (fun f => (600 + 32 * e.2 + f.1, f.2))))
    ++ [(728, 8, cs.corectl.toNat), (736, 8, cs.aflags.toNat), (744, 8, cs.faultst.toNat), (752, 8, cs.uivec.toNat),
        (760, 8, cs.uipend.toNat), (768, 8, cs.uipcWord), (776, 8, cs.viewv.toNat), (784, 8, cs.viewt.toNat),
        (792, 8, cs.viewm.toNat), (800, 8, sl.loopst), (808, 8, cs.mctl.toNat),
        (816, 8, sl.clocks + (s.clock - sl.since))]
    ++ (List.range 64).map (fun n => (824 + 2 * n, 2, sl.sem n))
    ++ (List.range 4).map (fun e => (952 + 8 * e, 8, (sl.tl e).toNat))
    ++ (List.range 32).flatMap (fun n => [(984 + 8 * n, 4, (s.ringSaved u n).prod), (988 + 8 * n, 4, (s.ringSaved u n).cons)])
    ++ (List.range 4).flatMap (fun n => [(1240 + 8 * n, 4, (sl.cring n).prod), (1244 + 8 * n, 4, (sl.cring n).cons)])
    ++ [(1272, 8, vs.length + al.spLen * 2 ^ 16), (1280, 512, (vs.map (fun k => 2 ^ k)).sum),
        (1792, 8, if claim.isSome then a + 2 ^ 21 else 0), (1800, 8, if fab then a + 3 * 2 ^ 20 else 0),
        (1808, 8, cs.vsridx.toNat), (1816, 8, cs.vsrtid.toNat), (1824, 8, cs.nodest.toNat), (1832, 8, cs.trcfg.toNat)])
  let s := (vs.zip (List.range vs.length)).foldl (fun s e =>
    { s with dram := Mem.copyRange s.dram (a + 2048 + 64 * e.2) c.regs (al.regBase + 64 * e.1) 64 }) s
  let b := a + 2048 + 64 * vs.length
  let s := { s with dram := Mem.copyRange s.dram b c.scratch al.spBase al.spLen }
  let b := b + al.spLen
  let s := s.devFields b ((List.range 32).map (fun n => (8 * n, 8, cfg n)))
  let b := b + 256
  let s := s.devFields b ((List.range 16).flatMap (fun n =>
    let ch := sl.chan n
    [(32 * n, 8, ch.base), (32 * n + 8, 8, ch.len), (32 * n + 16, 1, ch.kind), (32 * n + 17, 1, b2n ch.armed),
     (32 * n + 24, 8, ch.w)]))
  let b := b + 512
  let s := s.devFields b ((List.range 32).map (fun n => (8 * n, 8, (sl.bar n).word)))
  let b := b + 256
  let sc := sl.sched
  let s := s.devFields b [(0, 8, sc.blk), (8, 8, sc.table), (16, 4, sc.stage), (20, 4, sc.entry), (24, 4, sc.released),
    (28, 1, sc.state), (30, 1, sc.sig), (31, 1, sc.ch), (32, 4, sc.first), (36, 4, sc.e), (40, 4, sc.s),
    (48, 8, sc.word), (56, 8, 0)]
  let s := match claim with | some cl => (s.saveMatrix core (a + 2 ^ 21) cl).modSlot u (fun x => { x with kept := some cl }) | none => s
  if fab then s.saveFabric u (a + 3 * 2 ^ 20) t else s

/-- The slot's registers and state from its save record, for its new allocations (R133, R134): what the record holds
replaces what the slot held. -/
def State.loadSlot (s : State) (u a : Nat) : State :=
  let sl := s.slot u
  let al := sl.alloc
  let core := coreOf u
  let f (o n : Nat) : Nat := s.dev (a + o) n
  let bv (n o k : Nat) : BitVec n := BitVec.ofNat n (f o k)
  let g := (List.range 64).foldl (fun g n => Tbl.set 0 g n (bv 64 (16 + 8 * n) 8)) ([] : Tbl Word)
  let g := (List.range 8).foldl (fun g n => Tbl.set 0 g (120 + n) (bv 64 (528 + 8 * n) 8)) g
  let depth := fld (f 800 8) 16 3
  let nv := f 1272 2
  let sp := f 1274 4
  let vs := (List.range 4096).filter (fun k => bitOf (f 1280 512) k)
  let b := a + 2048 + 64 * nv + sp
  let ringOf (n : Nat) : Ring :=
    { Ring.ofCfg (s.dev (b + 8 * n) 8) with prod := f (984 + 8 * n) 4, cons := f (988 + 8 * n) 4 }
  let s := if sl.gang.head? = some u then
      (List.range 32).foldl (fun s n =>
        let v := (sl.ring n).via
        if v = 0 then s
        else
          let l := Tbl.put (Tbl.get (0, []) s.pipes (v - 1)).2 n (ringOf n)
          { s with pipes := Tbl.put s.pipes (v - 1) (al.spBase, l) }) s
    else s
  let sl := { sl with
    pc := f 8 4
    g := g
    preds := bv 8 592 1
    estage := bv 8 593 1
    loops := (List.range depth).map (fun k => s.loopAt (a + 600 + 32 * k))
    csr := { corectl := bv 11 728 8, aflags := bv 7 736 8, faultst := bv 18 744 8, uivec := bv 64 752 8 &&& 0xFFFFFFFF0000FFFF#64,
             uipend := bv 16 760 8, uiact := bitOf (f 768 8) 63, uipc := bv 32 768 4, viewv := bv 10 776 8,
             viewt := bv 10 784 8, viewm := bv 10 792 8, mctl := bv 64 808 8 &&& 0xFFFFFFFFFFFF000F#64, vsridx := bv 64 1808 8,
             vsrtid := bv 12 1816 8, nodest := bv 14 1824 8, trcfg := bv 32 1832 8 &&& 0x1F0F#32 }
    clocks := f 816 8
    sems := (List.range 64).foldl (fun t n => Tbl.set 0 t n (bv 16 (824 + 2 * n) 2)) []
    tls := (List.range 4).foldl (fun t e => Tbl.set 0 t e (bv 64 (952 + 8 * e) 8)) []
    rings := (List.range 32).foldl (fun t n =>
      Tbl.set Ring.none t n (if (sl.ring n).via = 0 then ringOf n else sl.ring n)) []
    crings := (List.range 4).foldl (fun t n =>
      Tbl.put t n { Tbl.get Ring.none sl.crings n with prod := f (1240 + 8 * n) 4, cons := f (1244 + 8 * n) 4 }) sl.crings
    chans := (List.range 16).foldl (fun t n =>
      let p := b + 256 + 32 * n
      let w := s.dev (p + 24) 8
      Tbl.set default t n ⟨s.dev (p + 17) 1 = 1, s.dev p 8, s.dev (p + 8) 8, s.dev (p + 16) 1, w, [(s.dev p 8, w)], none, none⟩) []
    bars := (List.range 32).foldl (fun t n => Tbl.set default t n (Bar.ofWord (s.dev (b + 768 + 8 * n) 8))) []
    sched :=
      let p := b + 1024
      { blk := s.dev p 8, table := s.dev (p + 8) 8, stage := s.dev (p + 16) 4, entry := s.dev (p + 20) 4,
        released := s.dev (p + 24) 4, state := s.dev (p + 28) 1, sig := s.dev (p + 30) 1,
        ch := s.dev (p + 31) 1, first := s.dev (p + 32) 4, e := s.dev (p + 36) 4, s := s.dev (p + 40) 4,
        word := s.dev (p + 48) 8, tab := sl.sched.tab } }
  let s := s.setSlot u sl
  let c := (s.core core).regClear (granules al.regBase al.regLen)
  let c := (vs.zip (List.range nv)).foldl (fun c e =>
    { c with regs := Mem.copyRange c.regs (al.regBase + 64 * e.1) s.dram (a + 2048 + 64 * e.2) 64
             valid := setFld c.valid (al.regBase / 64 + e.1) 1 1 }) c
  s.setCore core { c with scratch := Mem.copyRange c.scratch al.spBase s.dram (a + 2048 + 64 * nv) sp }

/-- A plane tag read back; an untagged plane's own number comes from the claim as it was saved. -/
def PlaneTag.ofWord (w ctx btype span : Nat) (old : Option PlaneTag) : Option PlaneTag :=
  if bitOf w 29 then
    some ⟨ctx, fld w 0 12, fld w 12 16, bitOf w 28, btype, span, (old.map (·.uid)).getD 0⟩
  else none

/-- The claim restored from the matrix save area (R287). -/
def State.loadMatrix (s : State) (u a : Nat) : State :=
  let w := s.dev a 8
  let core := coreOf u
  let t := (s.slot u).tk
  let arow := fld w 21 6
  let m := fld w 27 6 + 1
  let hm := fld w 33 2
  let mcfg := fld w 4 16
  let old := (s.slot u).kept
  let cl : Claim := {
    ctx := t.ctx, seq := t.seq, cls := fld w 0 4, mcfg := if mcfg = 0 then none else some mcfg
    opened := if bitOf w 20 then some (arow, m, hm) else none
    active := PlaneTag.ofWord (s.dev (a + 8) 8) t.ctx (fld mcfg 5 5) (s.dev (a + 24) 4) (old.bind (·.active))
    shadow := PlaneTag.ofWord (s.dev (a + 16) 8) t.ctx (fld mcfg 5 5) (s.dev (a + 28) 4) (old.bind (·.shadow))
    epi := s.dram.bytes (a + 64) 63 ++ [0]
    epiBy := s.dev (a + 127) 1
    heaps := (List.range 64).foldl (fun t r =>
      Tbl.set [] t r ((((List.range 72).map (fun k => a + 384 + 16 * (72 * r + k))).filter (fun p => s.dev (p + 10) 1 = 1)).map
        (fun p => (⟨s.dev p 4, s.dev (p + 4) 4, s.dev (p + 8) 2⟩ : HeapEnt)))) []
    caps := (old.map (·.caps)).getD [] }
  let c := { s.core core with claim := some cl }
  (s.setCore core (if bitOf w 20 then
    c.accLoad arow m hm (s.dram.bytes (a + 74112) (m * (b2n (bitOf hm 0) + b2n (bitOf hm 1)) * 6144)) else c)).modSlot u
      (fun x => { x with kept := none })

/-! The save pool (R473) -/

/-- Block `k` of a context's save pool. Blocks 0 to 511 are the reserved ones, block `u` for the slot of that number
(DESIGN CHOICE, log entry 13). -/
def State.saveBlock (s : State) (ctx k : Nat) : Nat := s.savebase ctx + 2 ^ 22 * k

/-- The free unreserved blocks of a context's save pool. -/
def State.freeBlocks (s : State) (ctx : Nat) : List Nat :=
  let c := s.ctx ctx
  if c.saveInit then c.saveFree else (List.range (s.savecnt ctx - 512)).map (512 + ·)

def State.takeBlock (s : State) (ctx : Nat) : Option (Nat × State) :=
  match s.freeBlocks ctx with
  | [] => none
  | k :: t => some (k, s.modCtx ctx (fun c => { c with saveFree := t, saveInit := true }))

def State.giveBlock (s : State) (ctx a : Nat) : State :=
  let k := (a - s.savebase ctx) / 2 ^ 22
  if k < 512 then s
  else s.modCtx ctx (fun c => { c with saveFree := k :: s.freeBlocks ctx, saveInit := true })

end Sys2Proof.Machine
end

