-- ==== Sys2Proof/Machine/Ops.lean ====
section
/-! DEFINITION. The named operations every meaning is made of: regions (05 R159 to R164), the end of an engine entry
(06 R181), TAKING AN EXCEPTION (04 R128 to R131: `coreStop`) with the resume beside it, the tile-fault abort (05 R165),
pre-emption (R132), hardware loops (R113 to R115), a word's waits and signals (R34, R35), and the frame of a sequencer
word (`seqWord`, `closingWord`) and of an engine entry (`engWord`). -/

namespace Sys2Proof.Machine
open Sys2Proof

/-! Regions -/

/-- The live-ins of a full capture: what the slot holds once every result in flight is written (R159). -/
def Slot.capture (sl : Slot) : LiveIns :=
  let x := sl.flush
  ⟨x.g, x.preds, x.estage, x.loops⟩

/-- The spawns among held entries, which count as live tasks from issue (R385). -/
def spawnsOf (l : List Held) : List Task := l.filterMap (fun h => match h.eff with | .spawn t _ => some t | _ => none)

/-- Held entries are discarded: the spawns among them no longer count (R160, R165). -/
def State.discard (s : State) (l : List Held) : State := (spawnsOf l).foldl State.taskGone s

/-- A slot's open region is committed: its entries join the closed regions, or are discarded when the task is
cancel-pending, and a new region opens at `pc` with a full capture (R159, R160). -/
def State.closeRegion (s : State) (u pc : Nat) (auto : Bool) : State :=
  let sl := s.slot u
  let s := if sl.tk.cpend then
      (sl.opened.filter (fun h => match h.eff with | .store .. | .nst .. => false | _ => true) |> s.discard)
    else s
  let out := if sl.tk.cpend then sl.opened.filter (fun h => match h.eff with | .store .. | .nst .. => true | _ => false)
    else sl.opened
  s.setSlot u { sl with
    closed := sl.closed ++ out
    opened := []
    region := ⟨sl.region.num + 1, auto, pc, sl.capture⟩ }

/-- The address a fault names for a slot: its word, or the PFX before it (R130). -/
def Slot.recPc (sl : Slot) : Nat := if sl.pfx.isSome then sl.pfxPc else sl.pc

/-! The end of an engine entry -/

/-- Stream number of an engine, and back (frame offset 3, R130). -/
def engNum (m : Stream) : Nat := m.num - 1

/-- Occupancy of a ring, and its room (R189). -/
def Ring.occ (r : Ring) : Nat := (r.prod + 2 ^ 32 - r.cons) % 2 ^ 32
def Ring.room (r : Ring) : Nat := 2 ^ r.logn - r.occ

/-- Data ring `n` of a gang's named pipes (R218). -/
def State.pipe (s : State) (key n : Nat) : Ring := Tbl.get Ring.none (Tbl.get (0, []) s.pipes key).2 n
def State.setPipe (s : State) (key n : Nat) (r : Ring) : State :=
  let p := Tbl.get (0, []) s.pipes key
  { s with pipes := Tbl.put s.pipes key (p.1, Tbl.put p.2 n r) }

def State.setRing (s : State) (u n : Nat) (r : Ring) : State :=
  s.modSlot u (fun sl => { sl with rings := Tbl.set Ring.none sl.rings n r })

/-- The gang member index of a slot (R24). -/
def State.member (s : State) (u : Nat) : Nat := ((s.slot u).gang.takeWhile (· ≠ u)).length

/-- The owner code of a slot's stream (R189). -/
def Slot.owner (sl : Slot) (u : Nat) (m : Stream) : Nat := m.num + 8 * (if sl.gang.isEmpty then 0 else (sl.gang.takeWhile (· ≠ u)).length)

/-- Bytes an entry writes in its core: in register space, or from 2^32 on in the scratchpad. -/
def CoreSt.entryWrite (c : CoreSt) (w : Nat × List Byte) : CoreSt :=
  if w.1 < 2 ^ 32 then c.regWrite w.1 w.2 else { c with scratch := c.scratch.store (w.1 - 2 ^ 32) w.2 }

/-- What a completed entry writes in its core: marked sources are cleared first, then the results are written (R101). -/
def CoreSt.entryRegs (c : CoreSt) (f : InFlight) : CoreSt := f.writes.foldl CoreSt.entryWrite (c.regClear f.clears)

/-- The lowest flag of an entry whose trap is enabled (R82, R125). -/
def Slot.trapFlag (sl : Slot) (fl : Nat) : Option Nat := (List.range 7).find? (fun k => bitOf fl k && sl.corectl (k + 4))

/-- A current grant is returned to a die's governor (R477). -/
def State.grantBack (s : State) (die n : Nat) : State :=
  { s with hub := { s.hub with used := Tbl.set 0 s.hub.used die (Tbl.get 0 s.hub.used die - n) } }

/-- The slot an entry acts for, as its task sees it: the slot itself, or the ended task's share of it for a draining
ring (R202). -/
def State.view (s : State) (u : Nat) (drain : Bool) : Slot :=
  let sl := s.slot u
  if drain then
    match sl.drain with
    | some d => { sl with
        task := some d.task, gang := d.gang, alloc := d.alloc, rings := d.rings, crings := d.crings, csr := d.csr,
        eng := d.eng, sems := d.sems, bars := d.bars, tls := d.tls, sched := d.sched, accIdx := d.accIdx, pend := d.pend }
    | none => sl
  else sl

def State.setView (s : State) (u : Nat) (drain : Bool) (sl : Slot) : State :=
  if drain then
    s.modSlot u (fun x => { x with drain := x.drain.map (fun d => { d with
      rings := sl.rings, crings := sl.crings, csr := sl.csr, eng := sl.eng, sems := sl.sems, bars := sl.bars,
      tls := sl.tls, sched := sl.sched, accIdx := sl.accIdx, pend := sl.pend }) })
  else s.setSlot u sl

/-- What is due in a slot, and in the draining rings of an ended task there, takes effect. -/
def State.settled (s : State) (u : Nat) : State :=
  let s := s.modSlot u (fun sl => sl.settle s.clock)
  if (s.slot u).drain.isSome then s.setView u true ((s.view u true).settle s.clock) else s

/-- A pointer of a data ring of such a slot advances; the first advance binds its owner (R191). A named pipe is
held once (R218). -/
def State.advance (s : State) (u : Nat) (drain : Bool) (n : Nat) (isProd : Bool) (k own : Nat) : State :=
  let step (r : Ring) : Ring :=
    if isProd then { r with prod := (r.prod + k) % 2 ^ 32, prodown := if r.prodown % 8 = 7 then own else r.prodown }
    else { r with cons := (r.cons + k) % 2 ^ 32, consown := if r.consown % 8 = 7 then own else r.consown }
  let sl := s.view u drain
  let r := sl.ring n
  if r.via = 0 then s.setView u drain { sl with rings := Tbl.set Ring.none sl.rings n (step r) }
  else s.setPipe (r.via - 1) n (step (s.pipe (r.via - 1) n))

/-- The signal byte of a word that retires in clock `till` is put in its place: waits see it from the next clock on; or it
stands behind the answer that the word waits for (R35, R36). -/
def Slot.putSignal (sl : Slot) (c : SignalC) (till tag now : Nat) : Slot :=
  match c with
  | .none => sl
  | c => if tag ≠ 0 then { sl with pend := addPend ⟨now, false, tag, .signal c⟩ sl.pend } else sl.later till (.signal c)

/-- An entry of the slot's copy schedule has completed (R325): the schedule moves on, and at the end of a stage applies
its signal, which is dropped once the task has ended (R329). -/
def Slot.schedStep (sl : Slot) (now : Nat) (drain : Bool) : Slot :=
  let c := sl.sched
  if c.entry + 1 < c.e then { sl with sched := { c with entry := c.entry + 1 } }
  else
    let n := c.stage + 1
    let st := if c.state = 4 then 4 else if n = c.s then 3 else if n < c.released then 1 else 2
    let sl := { sl with sched := { c with entry := 0, stage := n, state := st } }
    if drain then sl else match decSignal c.sig with | some g => sl.putSignal g now 0 now | none => sl

/-- The place of a ring in `Slot.engNext`. -/
def engKey (e : Nat) (drain : Bool) : Nat := e + 4 * b2n drain

/-- An engine looks at a slot's ring, its own or its draining one, again from this clock on at the earliest. -/
def Slot.notBefore (sl : Slot) (e : Nat) (drain : Bool) (n : Nat) : Slot :=
  { sl with engNext := Tbl.set 0 sl.engNext (engKey e drain) (max n (Tbl.get 0 sl.engNext (engKey e drain))) }

/-- A stream of a slot does not act again in this clock. -/
def State.passClock (s : State) (u : Nat) (m : Stream) (drain : Bool) : State :=
  s.modSlot u (fun sl => if m = .seq then { sl with nextIssue := max sl.nextIssue (s.clock + 1) }
    else sl.notBefore (engNum m) drain (s.clock + 1))

/-- The packets of these flows, as many of each as are named, are acknowledged (R348). -/
def State.ackedAll (s : State) (l : List (Nat × Nat)) : Bool := l.all (fun a => a.2 ≤ Tbl.get 0 s.fab.unacked a.1)

/-- The writes an RFENCE waits for are acknowledged (R353). -/
def State.acked (s : State) (f : InFlight) : Bool := s.ackedAll f.acks

/-- The tags of an entry whose answers have not come; tag 0 stands for room on its own core. -/
def State.unanswered (s : State) (f : InFlight) : List Nat :=
  f.waits.filter (fun t => t = 0 || s.fab.reqs.any (fun (e : Nat × Req) => e.1 == t))

/-- A fired entry waits for nothing from elsewhere. -/
def State.entryIdle (s : State) (f : InFlight) : Bool := (s.unanswered f).isEmpty && !f.fence && s.acked f

/-- The fired entry of an engine is taken back and fires again later: the semaphore count and the current it took are given
back. -/
def State.unfire (s : State) (u e : Nat) (drain : Bool) : State :=
  let sl := s.view u drain
  match sl.eng.find? (fun x => x.1 == e) with
  | none => s
  | some (_, f) =>
    let s := if 0 < f.grant then s.grantBack (dieOf (coreOf u)) (f.grant - 1) else s
    let sl := f.words.foldl (fun (sl : Slot) w =>
      match decode (Stream.ofNum (e + 1)) w 0 with
      | .ok (ctl, _) => (match ctl.wait with | .sem n => sl.setSem n.toNat (min 0xFFFF (sl.sem n.toNat + 1)) | _ => sl)
      | .error _ => sl) { sl with eng := Tbl.del sl.eng e }
    s.setView u drain sl

/-- What a fired entry of engine `e` of slot `u` does when it completes (R181, R25, R35, R81, R101): results and valid
bits, flags, ring pointers, timeline and signals; the trap of a flag it raises, if any, is returned, and then no signal is
applied (R82). A fault found in its work, a negative variance, leaves the word, and its group, without any effect and
unfinished (R248). The signals of a draining ring are dropped (R202). -/
def State.completeEntry (s : State) (u e : Nat) (f : InFlight) : State × Option Trap :=
  match f.trap with
  | some t => (s.unfire u e f.drain, some t)
  | none =>
    let core := coreOf u
    let s := s.modCore core (fun c => c.entryRegs f)
    let s := f.oqs.foldl (fun s q => s.modCore core (fun c =>
      let oq := Tbl.get default c.oqs q.1
      { c with oqs := Tbl.put c.oqs q.1 { oq with cons := (oq.cons + q.2) % 2 ^ 32, entries := oq.entries.drop q.2 } })) s
    let s := if 0 < f.grant then s.grantBack (dieOf core) (f.grant - 1) else s
    let s := f.advances.foldl (fun s a =>
      s.advance u f.drain a.1 a.2.1 a.2.2 ((s.view u f.drain).owner u (Stream.ofNum (e + 1)))) s
    let sl := s.view u f.drain
    let sl := { sl with eng := Tbl.del sl.eng e }
    let sl := if e = 3 then { sl with accIdx := 0 } else sl
    let sl := sl.modCsr (fun c => { c with
      aflags := c.aflags ||| BitVec.ofNat 7 f.flags
      mctl := if f.clamped then c.mctl ||| 8#64 else c.mctl })
    let trap := (sl.trapFlag f.flags).map (fun k => ⟨cARITH, k, if f.drain then sl.tk.seq else 0⟩)
    let sl := if f.sched then sl.schedStep s.clock f.drain
      else
        let r := sl.cring e
        { (sl.setTl e (sl.tl e + BitVec.ofNat 64 f.words.length)) with
          crings := Tbl.put sl.crings e { r with cons := (r.cons + f.words.length) % 2 ^ 32 } }
    let sl := if trap.isNone && !f.drain then f.signals.foldl (fun sl c => sl.putSignal c s.clock 0 s.clock) sl else sl
    let s := s.setView u f.drain sl
    let s := match e with
      | 0 => s.count0 core 0x04 (some (u % 4)) f.words.length
      | 1 => s.count0 core 0x05 (some (u % 4)) 1
      | _ => s
    (s, trap)

/-! Leaving a slot -/

/-- A lease run ends: its current goes back to the die's governor (R269, R270). -/
def State.endRun (s : State) (a : Nat) : State :=
  let ar := s.arr a
  match ar.holder with
  | none => s
  | some core =>
    let s := if 0 < ar.amps then s.grantBack (dieOf core) ar.amps else s
    let g := s.hub.grants.find? (fun g => g.key == core)
    let s := match g with
      | some g => if g.issued then s.grantBack g.die g.amps else s
      | none => s
    let s := { s with hub := { s.hub with grants := s.hub.grants.filter (fun g => g.key != core) } }
    s.setArr a { ar with holder := none, lastHolder := core + 1, fired := 0, start := 0, amps := 0 }

/-- A matrix claim is released, and with it the lease run and its current (R267, R287). -/
def State.dropClaim (s : State) (core : Nat) : State :=
  let s := s.modCore core (fun c => { c with claim := none })
  if (s.arr (arrOf core)).holder = some core then s.endRun (arrOf core) else s

/-- The core's claim belongs to the task in a slot (R266). -/
def Claim.of (cl : Claim) (sl : Slot) : Bool := sl.task.isSome && cl.ctx = sl.tk.ctx && cl.seq = sl.tk.seq

/-- The place in `State.hidden` of member `m` of a task. -/
def hiddenKey (t : Task) (m : Nat) : Nat := (t.seq * 256 + t.ctx) * 4 + m

/-- Where a task that leaves its slots may go next: the die it left; the core, when an ended member's allocation stays there
(R132, R165, R218). -/
def State.homeOf (s : State) (u : Nat) : Nat :=
  let n := (s.slot u).gang.length
  if n ≠ 0 && ((s.slot u).gang.filter (fun v =>
      (s.slot v).task.any (fun x => x.ctx == (s.slot u).tk.ctx && x.seq == (s.slot u).tk.seq))).length < n
  then 8 + coreOf u else dieOf (coreOf u) + 1

/-- The slots that a task still holds: its gang's members that have not ended, or the one (R24). -/
def State.unitsOf (s : State) (u : Nat) : List Nat :=
  let t := (s.slot u).tk
  u :: (s.slot u).gang.filter (fun v => v ≠ u && (s.slot v).task.any (fun x => x.ctx == t.ctx && x.seq == t.seq))

/-- A pre-emption cause becomes pending at a slot (R29): 0 debug stop, 1 world switch, 2 TTT rule, 3 priority claim. -/
def Slot.addCause (sl : Slot) (k : Nat) : Slot := if sl.causes.contains k then sl else { sl with causes := sl.causes ++ [k] }

/-- It becomes pending at every slot of a slot's task, and is withdrawn there (R30, R132). -/
def State.cause (s : State) (u k : Nat) : State := (s.unitsOf u).foldl (fun s v => s.modSlot v (fun sl => sl.addCause k)) s
def State.uncause (s : State) (u k : Nat) : State :=
  (s.unitsOf u).foldl (fun s v => s.modSlot v (fun sl => { sl with
    causes := sl.causes.filter (· ≠ k), bkpt := if k = 0 then none else sl.bkpt })) s

/-- A cause releases saved tasks. Each cause a task was saved for lets it go in R30's order: a release that comes before an earlier
cause's is kept, as `k + 8`, until that one's. -/
def Task.letGo (t : Task) (k : Nat) : Task :=
  { t with holds := (t.holds.map (fun h => if h = k then k + 8 else h)).dropWhile (8 ≤ ·) }
def State.release (s : State) (k : Nat) (mine : Task → Bool) : State :=
  { s with segs := s.segs.map (fun (e : Nat × List Task) => (e.1, e.2.map (fun t => if mine t then t.letGo k else t))) }

/-- A draining ring of a slot belongs to the task that stood in it (R202). -/
def Slot.drains (sl : Slot) : Bool := sl.drain.any (fun d => d.task.ctx == sl.tk.ctx && d.task.seq == sl.tk.seq)

/-- A command ring of an ended task has not drained (R202). -/
def Drain.busy (d : Drain) (e : Nat) : Bool := (Tbl.get Ring.none d.crings e).occ ≠ 0 || d.eng.any (fun x => x.1 == e)

/-- A claim whose task has left the core is released, once the last matrix entry of its draining rings has completed
(R267). -/
def State.claimDue (s : State) (core : Nat) : State :=
  match (s.core core).claim with
  | none => s
  | some cl =>
    let held := (List.range 4).any (fun k =>
      let sl := s.slot (4 * core + k)
      cl.of sl || sl.drain.any (fun d => d.task.ctx == cl.ctx && d.task.seq == cl.seq && d.busy 1))
    if held then s else s.dropClaim core

/-- Tags of the answers a slot's own words and entries wait for. -/
def State.ownTags (s : State) (u : Nat) : List Nat :=
  let sl := s.slot u
  sl.pend.map (·.tag) ++ sl.eng.flatMap (fun (e : Nat × InFlight) => e.2.waits)
    ++ (match sl.hold with | .remote t _ => [t] | _ => [])
    ++ (if sl.drains then [] else
      (s.core (coreOf u)).oqs.flatMap (fun (e : Nat × OQ) => if e.2.bound == some u then e.2.flight.map (·.1) else []))

/-- The key under which a slot's copy unit asks for current (R317). -/
def copyKey (u : Nat) (drain : Bool) : Nat := 1024 + 8 * u + b2n drain

/-- A slot is emptied, with what its copy unit has asked of the governor (R317). Its draining rings and its overlay stay; a claim and operand queues that draining rings of the same
task still use stay with them (R202, R267). Answers still on their way to it are no longer wanted. -/
def State.vacate (s : State) (u : Nat) : State :=
  let sl := s.slot u
  let core := coreOf u
  let tags := s.ownTags u
  let s := (s.hub.grants.filter (fun g => g.key == copyKey u false && g.issued)).foldl (fun s g => s.grantBack g.die g.amps) s
  let s : State := { s with
    fab := { s.fab with reqs := s.fab.reqs.filter (fun (e : Nat × Req) => !(e.2.unit.isSome && tags.contains e.1)) }
    hub := { s.hub with
      syscalls := s.hub.syscalls.filter (fun e => e.1 != u), grants := s.hub.grants.filter (fun g => g.key != copyKey u false) } }
  let s := s.modCore core (fun c => { c with
    tags := c.tags.filter (fun t => t.owner != u)
    oqs := if sl.drains then c.oqs else c.oqs.map (fun e => if e.2.bound == some u then (e.1, default) else e) })
  (s.setSlot u { Slot.reset with
    drain := sl.drain, overlay := sl.overlay, image := sl.image, seqLen := sl.seqLen, lastTime := sl.lastTime }).claimDue core

/-! Who may act -/

/-- A LOOP on the stack is at no kernel-iteration boundary unless the PC is at the start of its body; a handler is
outside every loop; a PFX and its word are never parted (R29, R45, R122, R132). Of nested LOOPs every one must stand at its
boundary: DEDUCED, R119 and R122 do not say whose boundary counts (log entry 66). -/
def Slot.atBoundary (sl : Slot) : Bool :=
  sl.pfx.isNone && (sl.csr.uiact || sl.loops.all (fun l => !l.piped || sl.pc == l.start))

/-- A slot has a word to issue, or waits for a signal that is on its way (R117): it holds a task, and nothing else holds it. -/
def Slot.live (sl : Slot) : Bool :=
  sl.task.isSome && (sl.hold = .none || (sl.hold = .waiti && sl.pend.any (fun p => p.tag = 0)))

/-- The clock from which a slot may issue; of a slot in WAITI, the clock of the next thing on its way to it. -/
def State.issueAt (s : State) (u : Nat) : Nat :=
  let sl := s.slot u
  if sl.hold = .waiti then
    max s.clock ((sl.pend.filter (fun p => p.tag = 0)).foldl (fun m p => if m = 0 then p.at_ else min m p.at_) 0)
  else max (max s.clock (s.core (coreOf u)).lastIssue.succ) sl.nextIssue

/-- A task that a tile fault aborts acts no more after the clock of the fault (R165, R166). -/
def State.aborted (s : State) (u clock : Nat) : Bool :=
  (s.unitsOf u).any (fun v => !(s.slot v).faults.isEmpty && (s.slot v).faultAt < clock)

/-- A slot has a fired entry that waits for room of its own core (R266, R343, R357). -/
def Slot.roomless (sl : Slot) : Bool := sl.eng.any (fun e => e.2.waits = [0])

/-- A slot's own rings fire nothing more: its task waits for acknowledgements before its first word (R187), is aborted
(R165), or stands, with every member of its gang, at the boundary where it is to be pre-empted, and no fired entry of it waits
for room that its other entries might make (R132). -/
def State.ringsHeld (s : State) (u : Nat) : Bool :=
  let sl := s.slot u
  sl.hold = .acks || s.aborted u s.clock
    || (!sl.causes.isEmpty && (s.unitsOf u).all (fun v => (s.slot v).atBoundary && !(s.slot v).roomless))

/-- The address of an entry of a command ring in the core's scratchpad (R189). -/
def Slot.cmdAddr (sl : Slot) (e k : Nat) : Nat :=
  let r := sl.cring e
  sl.alloc.spBase + 64 * r.base + 8 * ((r.cons + k) % 2 ^ r.logn)

/-- An engine's context of a slot holds a fired entry, of the task or of the draining ring: until it completes the context fires
no other (R181, R308). -/
def State.engBusy (s : State) (u e : Nat) : Bool :=
  let has (t : Tbl InFlight) : Bool := t.any (fun x => x.1 == e)
  has (s.slot u).eng || (s.slot u).drain.any (fun d => has d.eng)

/-- Whether an engine may take the head of a slot's ring, its draining one or its task's: a placed entry, and no entry fired
and not completed (R181, R202). -/
def State.headAt (s : State) (u : Nat) (drain : Bool) (e : Nat) : Bool :=
  (if drain then (s.slot u).drain.isSome else (s.slot u).task.isSome && !s.ringsHeld u)
    && ((s.view u drain).cring e).occ ≠ 0 && !s.engBusy u e

/-- Every fired entry of a slot, or of its draining rings, is taken back. -/
def State.unfireAll (s : State) (u : Nat) (drain : Bool) : State := (List.range 4).foldl (fun s e => s.unfire u e drain) s

/-! Taking an exception: the core stop -/

/-- The stop that a core will make. -/
def State.stopAt (s : State) (core : Nat) (st : Stop) (at_ : Nat) : State :=
  let s := (s.unitsOf st.slot).foldl (fun s v => s.modSlot v (fun sl => { sl with faults := [] })) s
  s.modCore core (fun c => { c with raised := some (st, at_) })

/-- An entry of the pending-store snapshot (R167). -/
def Held.snap (h : Held) (st slot seq : Nat) : List (Nat × Nat × Nat) :=
  let (addr, data, n, sp, kind, op) : Nat × Nat × Nat × Nat × Nat × Nat := match h.eff with
    | .store sp a _ bs => (a, leNat bs, bs.length, sp, 0, 0)
    | .nst r w _ v => (r + 8 * w * 2 ^ 32, v.toNat, 8, 2, 0, 0)
    | .rstore _ a bs _ _ => (a, leNat bs, bs.length, h.space, 1, 0)
    | .atomic sp _ a _ n op b => (a, b.toNat, n, if sp = 4 then h.space else sp, 2, op)
    | _ => (0, 0, 1, 0, 3, h.opc)
  [(0, 8, addr), (8, 8, data), (16, 1, Nat.log2 n + 4 * sp), (17, 1, st), (18, 1, kind), (19, 1, op), (20, 1, slot),
   (21, 3, 0), (24, 4, seq), (28, 4, h.region)]

/-- The status of a drained entry that is not yet acknowledged: visible at the core while a line of the remote cache has held its
bytes, else in flight (R150, R167). -/
def Sent.status (x : Sent) : Nat := match x.held.eff with | .rstore _ _ _ _ 3 => 1 | .rstore .. => 2 | _ => 1

/-- The snapshot of a core's slots: per slot in program order, what has drained and is not yet acknowledged, the closed regions'
entries, the open region's (R167). -/
def State.snapshot (s : State) (core : Nat) : List (List (Nat × Nat × Nat)) :=
  (List.range 4).flatMap (fun k =>
    let sl := s.slot (4 * core + k)
    let isMark (h : Held) : Bool := match h.eff with | .marker _ => false | _ => true
    (sl.sent.filter s.outstanding).map (fun x => x.held.snap x.status k sl.tk.seq)
      ++ (sl.closed.filter isMark).map (fun h => h.snap 1 k sl.tk.seq)
      ++ (sl.opened.filter isMark).map (fun h => h.snap 0 k sl.tk.seq))

/-- A slot at rest (R129, R131): what is in flight is written, and a PFX awaiting its word is backed over. -/
def Slot.rest (sl : Slot) : Slot := let x := sl.flush; { x with pc := x.recPc, pfx := none, faults := [], wm := [] }

/-- The four slots of a core are brought to rest (R129, R187): entries that wait for room of their own core are taken back,
results in flight are written, the dirty lines of the remote cache go home, the tasks' intervals and messages stop (R351,
R363). -/
def State.quiesce (s : State) (core : Nat) : State :=
  let us := (List.range 4).map (4 * core + ·)
  let s := us.foldl (fun s u =>
    let s := if (s.slot u).drain.isSome then s.unfireAll u true else s
    (s.unfireAll u false).modSlot u Slot.rest) s
  let s := s.rcWriteBack core (fun _ => true)
  us.foldl (fun s u => if (s.slot u).task.isSome then (s.ivStop u).suspendTask (s.slot u).tk else s) s

/-- The fault frame's fields (R130). -/
def State.frameFields (s : State) (st : Stop) (drain : Bool) (fa count : Nat) : List (Nat × Nat × Nat) :=
  let u := st.slot
  let core := coreOf u
  let sl (k : Nat) : Slot := s.slot (4 * core + k)
  let v := s.view u drain
  let e := engNum st.strm
  let t := st.trap
  [(0, 2, 1), (2, 1, u % 4), (3, 1, st.strm.num), (4, 1, t.cause), (5, 1, t.sub), (6, 2, core), (8, 8, st.word),
   (16, 8, if drain then v.tk.seq else t.opnd)]
    ++ (List.range 4).map (fun k => (24 + 4 * k, 4, if (sl k).task.isSome then (sl k).tk.seq else 0xFFFFFFFF))
    ++ (List.range 4).map (fun k =>
      (40 + 8 * k, 8, if (sl k).task.isSome then (sl k).pc + (sl k).node * 2 ^ 32 + 2 ^ 63 else 0))
    ++ (List.range 16).map (fun j => (72 + 4 * j, 4, ((sl (j / 4)).cring (j % 4)).cons))
    ++ (List.range 4).flatMap (fun k =>
      let (j, n, ns) : Nat × Nat × Nat := match (sl k).loops with | l :: _ => (l.j, l.n, l.ns - 1) | [] => (0, 0, 0)
      [(136 + 16 * k, 4, if (sl k).task.isSome then (sl k).loopst % 2 ^ 32 else 0), (140 + 16 * k, 4, j),
        (144 + 16 * k, 4, n), (148 + 16 * k, 4, ns)])
    ++ [(200, 8, s.devTime), (208, 8, fa + 4096), (216, 4, count), (220, 4, v.csr.aflags.toNat), (224, 8, fa + 256),
        (232, 8, if st.strm = .seq then 0 else (v.tl e).toNat + (if t.cause = cARITH then 0 else 1)),
        (240, 1, if st.strm = .acc then v.accIdx else 0)]

/-- TAKING AN EXCEPTION (R28 second path, R129, R130), once nothing of the core is in flight: the cause and subcause go to
FAULTST of the faulting slot; each slot is saved in its reserved block, with the matrix and fabric state, and the claim is
released; the frame, the save-record table and the pending-store snapshot are written to the core's frame slot in the
context's fault area; and the core-stop interrupt is raised at the DCC. -/
def State.stopNow (s : State) (st : Stop) : State :=
  let u := st.slot
  let core := coreOf u
  let drain := st.drain
  let s := s.quiesce core
  let s := if drain then s else s.modSlot u (fun sl => { sl.modCsr (fun c => { c with
      faultst := BitVec.ofNat 18 (c.faultst.toNat / 2 ^ 16 * 2 ^ 16 + st.trap.sub % 256 * 2 ^ 8 + st.trap.cause) }) with
      latch := if st.strm = .seq then none else sl.latch, latchWord := if st.strm = .seq then 0 else sl.latchWord
      npc := none })
  let fa := s.faultbase st.ctx + 2 ^ 22 * core
  let occ (k : Nat) : Bool := (s.slot (4 * core + k)).task.isSome
  let blk (k : Nat) : Nat := s.saveBlock (s.slot (4 * core + k)).ctx (4 * core + k)
  let snap := s.snapshot core
  let frame := s.frameFields st drain fa snap.length
  let s := (List.range 4).foldl (fun s k => if occ k then s.saveSlot (4 * core + k) (blk k) 0 else s) s
  let s := if (s.core core).claim.isSome then s.dropClaim core else s
  let s := { s with dram := s.dram.store fa (zeros 256) }
  let s := s.devFields fa frame
  let s := s.devFields (fa + 256) ((List.range 4).map (fun k => (8 * k, 8, if occ k then blk k else 0)))
  let s := (snap.zip (List.range snap.length)).foldl (fun s e => s.devFields (fa + 4096 + 32 * e.2) e.1) s
  let s := s.modCore core (fun c => { c with stopped := some st, raised := none })
  { s with hub := { s.hub with dccIrq := s.hub.dccIrq ++ [(core, st.ctx)] } }

/-- The place of a stream in R129's order of faults raised in one clock. -/
def faultPlace (u : Nat) (m : Stream) : Nat := u % 4 * 8 + m.num

/-- A stream of a core that stands before place `k` could still act in this clock. -/
def State.dueBefore (s : State) (core k : Nat) : Bool :=
  let c := s.core core
  (List.range 4).any (fun j =>
    let u := 4 * core + j
    let sl := s.slot u
    (faultPlace u .seq < k && c.lastIssue < s.clock && sl.live && sl.nextIssue ≤ s.clock)
      || (List.range 4).any (fun e => faultPlace u (Stream.ofNum (e + 1)) < k && Tbl.get 0 c.engFree e ≤ s.clock
        && [false, true].any (fun d => Tbl.get 0 sl.engNext (engKey e d) ≤ s.clock && s.headAt u d e)))

/-- A slot has something in flight that completes before its core stops or its task leaves (R129, R132, R165): a fired entry
that waits for nothing of its own core, a result or an answer on its way. -/
def State.busy (s : State) (u : Nat) : Bool :=
  let sl := s.slot u
  let fired (t : Tbl InFlight) : Bool := t.any (fun e => e.2.waits ≠ [0])
  fired sl.eng || sl.drain.any (fun d => fired d.eng) || sl.pend.any (fun p => p.tag ≠ 0)
    || (match sl.hold with | .syscall .. | .hostAtomic .. | .remote .. => true | _ => false)

/-- A raised fault stops its core once no stream before it can fault in the same clock, nothing of the core is in flight, and
the tasks that tile faults abort have left (R129, R166). -/
def State.tryStop (s : State) (core : Nat) : State :=
  match (s.core core).raised with
  | none => s
  | some (st, at_) =>
    if (at_ = s.clock && s.dueBefore core (faultPlace st.slot st.strm))
        || (List.range 4).any (fun k => s.busy (4 * core + k) || !(s.slot (4 * core + k)).faults.isEmpty) then s
    else s.stopNow st

/-- The trap of an entry whose work is done is kept for when the core runs again (R82, R129). -/
def State.owe (s : State) (st : Stop) : State :=
  if st.trap.cause = cARITH && st.strm ≠ .seq then
    s.modSlot st.slot (fun sl => { sl with owed := sl.owed ++ [(engNum st.strm, st.trap, st.word, st.drain)] })
  else s

/-- A core-stop fault is raised (R129): of the faults of one clock the lowest slot's counts, and within a slot the first
stream's; the other faulting words stay unfinished and raise theirs again when resumed. A tile fault of the same slot gives
way (R166). `word` is the faulting word. The stop is made at once when nothing stands against it. -/
def State.coreStop (s : State) (u : Nat) (m : Stream) (t : Trap) (word : Nat) (drain : Bool) : State :=
  let core := coreOf u
  if (s.core core).stopped.isSome then s
  else
    let x := s.view u drain
    let st : Stop := ⟨u, m, t, word, x.ctx, 0, x.tk.seq, drain⟩
    let s := s.passClock u m drain
    match (s.core core).raised with
    | some (r, at_) =>
      if at_ = s.clock && faultPlace u m < faultPlace r.slot r.strm then
        ((s.owe r).stopAt core st at_).tryStop core
      else (s.owe st).tryStop core
    | none => (s.stopAt core st s.clock).tryStop core

/-- The step that takes an answer from another package, by the packet's type. -/
def answerStep (type : Nat) : Instr :=
  match type with
  | 0x02 => .readDataPacket
  | 0x06 => .atomicResultPacket
  | 0x21 => .intervalResultPacket
  | 0x31 => .nodeResultPacket
  | _ => .errorPacket

/-- The answers that came for a stopped core are taken next, once it runs again. -/
def State.redeliver (s : State) : State :=
  { s with
    agenda := s.agenda ++ (s.fab.inbox.filter (fun p => p.type ≠ 0x10)).map
      (fun p => .event (answerStep p.type) { (default : Occasion) with pkt := p })
    fab := { s.fab with inbox := s.fab.inbox.filter (fun p => p.type = 0x10) } }

/-- A slot waits, before its next word, until the drained remote writes of its task are acknowledged (R187). -/
def State.awaitAcks (s : State) (u : Nat) (l : List (Nat × Nat)) : State :=
  if s.ackedAll l then s
  else s.modSlot u (fun sl => if sl.hold = .none then { sl with hold := .acks, acks := l } else sl)

/-- The return from a core stop (R131): every slot restarts at its recorded PC and every engine at its recorded consumer
pointer, with what the save records now hold, and the scalar L1 is invalidated (R187). A WAITI, DPHASE or TDONE that waited goes
on waiting, unless its record now names another PC. -/
def State.resume (s : State) (core : Nat) : State :=
  let s := (List.range 4).foldl (fun s k =>
    let u := 4 * core + k
    if (s.slot u).task.isNone then s
    else
      let pc := (s.slot u).pc
      let a := s.saveBlock (s.slot u).ctx u
      let s := s.loadSlot u a
      let s := if s.dev (a + 1792) 8 ≠ 0 then s.loadMatrix u (a + 2 ^ 21) else s
      let s := s.modSlot u (fun sl => if sl.pc = pc then sl else { sl with hold := .none, inHand := none, closing := false })
      let s := (s.modSlot u (fun sl => { sl with nextIssue := s.clock + 1, since := s.clock })).awaitAcks u (s.unackedFlows u)
      (s.ivGo u).resumeTask (s.slot u).tk []) s
  (s.modCore core (fun c => { c.l1Flush with stopped := none })).redeliver

/-! Aborts, pre-emption, kill -/

/-- What an aborted or saved task keeps beside its record: the slot as it stood (R165, R330), with the clocks it has held it
(R127). -/
def State.hide (s : State) (u : Nat) : State :=
  let sl := s.slot u
  { s with hidden := Tbl.put s.hidden (hiddenKey sl.tk (s.member u)) { sl with
    task := none, drain := none, overlay := [], clocks := sl.clocks + (s.clock - sl.since), since := s.clock } }

/-- One slot of an aborted task leaves (R165): signals of completed words are applied, entries not yet fired are discarded, the
open region's entries are discarded, and the closed regions drain. -/
def State.abortSlot (s : State) (u : Nat) : State :=
  let s := s.unfireAll u false
  let s := s.modSlot u (fun sl =>
    let sl := sl.settle (s.clock + 1)
    { sl with
      crings := sl.crings.map (fun e => (e.1, { e.2 with prod := e.2.cons })), pend := [], pfx := none, eng := []
      faults := [], owed := [] })
  let s := s.discard (s.slot u).opened
  let s := s.modSlot u (fun sl => { sl with opened := [] })
  let s := s.drainAll u (s.slot u).tk
  let s := (s.rcWriteBack (coreOf u) (fun l => l.unit == u)).ivStop u
  (s.hide u).vacate u

/-- The bytes of host memory an entry touches. -/
def Effect.hostPs : Effect → List Nat
  | .store 3 _ ps _ => ps
  | .atomic 3 _ _ ps _ _ _ => ps
  | _ => []

/-- An entry that may have to wait before it drains: a release, for acknowledgements (R175, R176); a host atomic; a store to
bytes that a host atomic under way touches (R145, R170). -/
def State.slowEntry (s : State) (u : Nat) (h : Held) : Bool :=
  1 ≤ h.rel || (match h.eff with | .atomic 3 _ _ _ _ _ _ => true | _ => false) || s.hostBusy u h.eff.hostPs

/-- Some entry of a slot's regions may have to wait: they drain one by one. -/
def State.slowDrain (s : State) (u : Nat) : Bool := ((s.slot u).closed ++ (s.slot u).opened).any (s.slowEntry u)

/-- An aborted task leaves its slots (R28 first path, R165): they are freed, the tiles are posted, and the task waits in its
context's parked list. -/
def State.leaveNow (s : State) (u : Nat) : State :=
  let us := s.unitsOf u
  let home := s.homeOf u
  let tiles := us.flatMap (fun v => (s.slot v).faults.map (fun x => (v, x)))
  let s := s.count0 (coreOf u) 0x0C (some (u % 4)) 1
  let s := us.foldl State.ivStop s
  let t := (s.slot u).tk
  let s := us.foldl State.abortSlot s
  let s := tiles.foldl (fun s x => if x.2.2.2 then s else s.postTile t.ctx x.2.1 x.2.2.1 x.1) s
  (s.modCtx t.ctx (fun c => { c with
    parked := c.parked ++ [({ t with phase := 1, key := t.key0, home := home, left := u, acks := us.flatMap s.unackedFlows },
      tiles.map (fun x => (x.2.1, x.2.2.1)))] })).allout t.run

/-- Another stream of a task's slots could still act in this clock. -/
def State.dueIn (s : State) (us : List Nat) : Bool :=
  us.any (fun u =>
    let c := s.core (coreOf u)
    let sl := s.slot u
    (c.lastIssue < s.clock && sl.live && sl.nextIssue ≤ s.clock)
      || (List.range 4).any (fun e => Tbl.get 0 c.engFree e ≤ s.clock
        && Tbl.get 0 sl.engNext e ≤ s.clock && s.headAt u false e))

/-- A fired entry of a slot waits for room that its core can still make, so that it completes before the task leaves (R165): the
claim of another slot, or one of the task's messages. An AQLD behind a stream that nothing pops any more does not (log entry
69). -/
def State.roomComing (s : State) (u : Nat) : Bool :=
  (s.core (coreOf u)).raised.isNone
    && (s.slot u).eng.any (fun e => e.2.waits = [0] && !(e.1 = 3 && fld (e.2.words.headD 0) 40 8 = 0))

/-- A task that tile faults abort leaves once no other of its words can fault in the same clock (R166), its fired entries have
completed (R165), and nothing in its closed regions has to wait (R175). -/
def State.tryLeave (s : State) (u : Nat) : State :=
  let us := s.unitsOf u
  if us.all (fun v => (s.slot v).faults.isEmpty) then s
  else if (us.any (fun v => !(s.slot v).faults.isEmpty && (s.slot v).faultAt = s.clock) && s.dueIn us)
      || us.any (fun v => s.busy v || s.roomComing v || (s.slot v).closed.any (s.slowEntry v)) then s
  else s.leaveNow u

/-- A tile fault or page fault of a slot's word (R165), which the tile's home posts when it is another package (R339). Where the
same slot's task has raised a core-stop fault in this clock, that fault alone counts (R166). -/
def State.tileAbort (s : State) (u : Nat) (m : Stream) (tid tile : Nat) (far : Bool := false) : State :=
  let s := s.passClock u m false
  if (s.core (coreOf u)).raised.any (fun r => (s.unitsOf u).contains r.1.slot) then s
  else (s.modSlot u (fun sl => { sl with
      faultAt := if sl.faults.isEmpty then s.clock else sl.faultAt, faults := sl.faults ++ [(tid, tile, far)] })).tryLeave u

/-- A task is killed (R131): its slots are freed, its messages cancelled, what it had committed drains. No join decrement is
sent, since R389 names none. -/
def State.killTask (s : State) (u : Nat) : State :=
  let t := (s.slot u).tk
  let us := s.unitsOf u
  us.foldl (fun s v =>
    let s := s.discard (s.slot v).opened
    let s := s.modSlot v (fun sl => { sl with opened := [] })
    let s := s.drainAll v t
    (s.rcWriteBack (coreOf v) (fun l => l.unit == v)).vacate v) (s.cancelTask t)

/-- A requeued task returns to its queue with its key and sequence number (R131); none when the queue has no room. -/
def State.requeueTask (s : State) (u : Nat) : Option State :=
  let us := s.unitsOf u
  let home := s.homeOf u
  let s := us.foldl State.ivStop s
  let t := (s.slot u).tk
  let s := us.foldl State.abortSlot s
  s.enqueue { t with phase := 1, key := t.key0, home := home, left := u, acks := us.flatMap s.unackedFlows } false

/-! Hardware loops -/

/-- The stage predicates of a loop at its kernel iteration (R113, R114). -/
def LoopRec.preds (l : LoopRec) : BitVec 8 :=
  if l.piped then
    BitVec.ofNat 8 (((List.range l.ns).map (fun k => if k ≤ l.j && l.j < l.n + k then 2 ^ k else 0)).sum)
  else 1

/-- The first byte after a loop's body, and whether a PC lies in the body. -/
def LoopRec.stop (l : LoopRec) : Nat := l.start + 8 * l.words
def LoopRec.inside (l : LoopRec) (pc : Nat) : Bool := l.start ≤ pc && pc < l.stop

/-- The stage predicates in force: the innermost loop's, or e0 alone (R116). -/
def Slot.withLoops (sl : Slot) (ls : List LoopRec) : Slot :=
  { sl with loops := ls, estage := match ls with | l :: _ => l.preds | [] => 1 }

/-- The stage of a word of a body (R114). -/
def LoopRec.stage (l : LoopRec) (pc : Nat) : Nat :=
  ((l.offs.filter (fun b => b ≤ (pc - l.start) / 8)).length) - 1

/-- The word at the slot's PC is squashed: it lies in the innermost body, and the predicate of its stage is 0; in a
handler nothing is guarded (R114, R115, R122). -/
def Slot.squashed (sl : Slot) : Bool :=
  match sl.loops with
  | l :: _ => l.piped && !sl.csr.uiact && l.inside sl.pc && !sl.estage.getLsbD (l.stage sl.pc)
  | [] => false

/-- The loop-end checks of a PC that has moved on to `pc`, innermost loop first (R114, R115): the next PC, the loops left,
the number of loops left by their exits, and whether a kernel iteration began. -/
def loopEnd (pc : Nat) : List LoopRec → Nat × List LoopRec × Nat × Bool
  | [] => (pc, [], 0, false)
  | l :: t =>
    if pc ≠ l.stop then (pc, l :: t, 0, false)
    else if l.j + 1 < l.n + (if l.piped then l.ns - 1 else 0) then (l.start, { l with j := l.j + 1 } :: t, 0, true)
    else
      let (p, ls, k, b) := loopEnd pc t
      (p, ls, k + 1, b)

/-- Bank-conflict snapshots of the loops a slot has left, innermost first, when TRCFG.LSNAP is set: the header names the
loop, its final iteration and that iteration's predicates (R456, R460). -/
def State.loopExits (s : State) (u : Nat) (ls : List LoopRec) : State :=
  if (s.slot u).csr.trcfg.getLsbD 1 then
    ls.foldl (fun s l => s.snapRecord u 2
      ⟨l.id, l.j, 0, l.preds.toNat, (s.slot u).loops.length + 1⟩ (l.n + (s.clock - l.at_) % 2 ^ 32 * 2 ^ 32)) s
  else s

/-! Waits, signals, retirement -/

/-- The ring a word of such a slot means by a number (R218). -/
def State.viewRing (s : State) (sl : Slot) (n : Nat) : Ring :=
  let r := sl.ring n
  if r.via = 0 then r else s.pipe (r.via - 1) n

/-- The scalar L1 of the word's core after a wait it consumed: an acquire at scope core (R149, R173, R182). -/
def State.acquireCore (s : State) (u : Nat) : State := s.modCore (coreOf u) (fun c => { c with l1 := [] })

/-- What the entry already fired in this clock has claimed of a data ring: entries popped, or pushed. -/
def Slot.claimed (sl : Slot) (e n : Nat) (isProd : Bool) : Nat :=
  match sl.eng.find? (fun x => x.1 == e) with
  | some (_, f) => ((f.advances.filter (fun a => a.1 == n && a.2.1 == isProd)).map (·.2.2)).sum
  | none => 0

/-- The wait byte of the word in hand: consumed when its condition holds, else the word waits (R34, R36, R322). -/
def takeWait (s : State) (u : Nat) (w : WaitC) : M State :=
  let sl := s.view u s.cur.drain
  match w with
  | .none => .ok s
  | .sem n =>
    if 1 ≤ sl.sem n.toNat then
      .ok ((s.setView u s.cur.drain (sl.setSem n.toNat (sl.sem n.toNat - 1))).acquireCore u)
    else .error (.wait (s.clock + 1))
  | .bar n =>
    if (sl.bar n.toNat).state ≠ 2 then .error (.wait (s.clock + 1))
    else .ok ((s.acquireCore u).modCore (coreOf u) CoreSt.rcAcquire)
  | .ring n =>
    let r := s.viewRing sl n.toNat
    let c := if s.cur.strm = .seq then 0 else sl.claimed (engNum s.cur.strm) n.toNat false
    if r.logn ≠ 0 && r.decl ≤ r.occ - c then .ok (s.acquireCore u) else .error (.wait (s.clock + 1))

/-- The trap of a wait on a barrier that has counted too many bytes, with CORECTL.BARTRAP (R322). -/
def overTrap (s : State) (u : Nat) (w : WaitC) : Option Trap :=
  match w with
  | .bar n =>
    let sl := s.view u s.cur.drain
    if (sl.bar n.toNat).ovf && sl.corectl 2 then some ⟨cOVER, n.toNat, 0⟩ else none
  | _ => none

/-- A word that would fire raises that trap instead; one that still waits for something else goes on waiting (R322). -/
def orOver {α : Type} (o : Option Trap) (r : M α) : M α :=
  match o with
  | none => r
  | some t =>
    match r with
    | .error (.wait n) => .error (.wait n)
    | .error (.redo f) => .error (.redo f)
    | .error (.stop f) => .error (.stop f)
    | _ => .error (.trap t)

/-- Words whose register result has a latency of one clock (R96), when they write a register. -/
def latOne (w : Nat) : Bool :=
  let op := fld w 40 8
  let rd := fld w 30 6
  if op ≤ 1 || (9 ≤ op && op ≤ 0x18) || op = 0x25 then rd ≠ 0
  else if 0x20 ≤ op && op ≤ 0x24 then rd % 8 ≠ 0
  else op = 0x26 && (fld w 0 17 = 1 || rd ≠ 0)

/-- The clock in which the word in hand retires: when the last of the results it added is written (R35); a result that
waits for an answer has none, and its tag is given instead. -/
def retireAt (old new : List Pend) (now : Nat) : Nat × Nat :=
  let added := new.filter (fun p => p.eff.writes && !old.contains p)
  ((added.filter (fun p => p.tag = 0)).foldl (fun m p => max m p.at_) now,
   ((added.find? (fun p => p.tag ≠ 0)).map (·.tag)).getD 0)

/-- Where the PC goes when a sequencer word retires (R37, R93, R114): to the redirect's target, with the next issue 3
clocks later; else to `next`, or past the word, with the loop-end checks, which a handler does not make (R122). With it
the loops that are left. -/
def Slot.moveOn (sl : Slot) (len stall now : Nat) (next : Option Nat) : Slot × List LoopRec :=
  match sl.npc with
  | some t => ({ sl with pc := t, npc := none, nextIssue := max sl.nextIssue (now + max 3 stall) }, [])
  | none =>
    let p := next.getD (sl.pc + len)
    let x := { sl with nextIssue := max sl.nextIssue (now + max 1 stall) }
    if sl.csr.uiact then ({ x with pc := p }, [])
    else ({ x.withLoops (loopEnd p sl.loops).2.1 with pc := (loopEnd p sl.loops).1 }, sl.loops.take (loopEnd p sl.loops).2.2.1)

/-- What a retired word leaves behind no longer: its prefix, and its places of waiting. After a closing word the new
region's live-ins are captured (R159). -/
def Slot.wordOver (sl : Slot) (closing : Bool) : Slot :=
  let sl := { sl with pfx := none, inHand := none, closing := false, wm := sl.wm.filter (fun w => w.key ≠ 0) }
  if closing then { sl with region := { sl.region with pc := sl.pc, live := sl.capture } } else sl

/-- A latched trap is taken when its word has ended (R82). -/
def State.takeLatch (s : State) (u word : Nat) (sl : Slot) : State :=
  match sl.latch with
  | some t => s.coreStop u .seq t (if sl.latchWord = 0 then word else sl.latchWord) false
  | none => s

/-- The sequencer word of a slot completes (R35, R37, R93, R114): the signal is put in its place, the PC moves, and a
latched trap is taken. `pend0` is what was pending before the word. -/
def State.retire (s : State) (u : Nat) (cur : Cursor) (pend0 : List Pend) (closing : Bool) (next : Option Nat) : State :=
  let sl := s.slot u
  let r := retireAt pend0 sl.pend s.clock
  let till := max r.1 (s.clock + b2n (latOne cur.word))
  let sl := if sl.latch.isNone then sl.putSignal cur.ctl.signal till r.2 s.clock else sl
  let m := sl.moveOn cur.len cur.ctl.stall.toNat s.clock next
  let x := m.1.wordOver closing
  ((s.setSlot u x).loopExits u m.2).takeLatch u cur.word x

/-- The PC after a word that goes on to a place of its own without a redirect: a loop word of no iterations (R113). -/
abbrev NextPc := Option Nat

/-- How a sequencer word that does not complete ends: a fault is taken, a tile fault aborts the task, a wait leaves the
word to issue again. -/
def exitSeq (s : State) (e : Exit) : Out :=
  match e with
  | .trap t => .next (s.coreStop s.cur.u .seq t s.cur.word false)
  | .tile tid tile => .next (s.tileAbort s.cur.u .seq tid tile)
  | .wait n => .next (s.modMe (fun sl => { sl with nextIssue := max n (s.clock + 1) }))
  | .redo f => .next ((f s).modMe (fun sl => { sl with nextIssue := s.clock + 1 }))
  | .stop f => .fault f

/-- The sequencer of the slot's core has issued from the slot in this clock (R92). -/
def State.issued (s : State) (u : Nat) : State :=
  (s.modCore (coreOf u) (fun c => { c with lastSlot := u % 4, lastIssue := s.clock })).count0 (coreOf u) 0x02 (some (u % 4)) 1

/-- A sequencer word: its wait is taken, its effect made, and it retires. -/
def seqWord (body : State → M State) (s : State) : Out :=
  match orOver (overTrap s s.cur.u s.cur.ctl.wait) (takeWait s s.cur.u s.cur.ctl.wait >>= body) with
  | .ok t => .next ((t.issued s.cur.u).retire s.cur.u s.cur s.me.pend false none)
  | .error e => exitSeq s e

/-- A sequencer word with something that comes behind all that its clock counts. -/
def seqWordAnd (body : State → M State) (last : State → State) (s : State) : Out :=
  match orOver (overTrap s s.cur.u s.cur.ctl.wait) (takeWait s s.cur.u s.cur.ctl.wait >>= body) with
  | .ok t => .next (last ((t.issued s.cur.u).retire s.cur.u s.cur s.me.pend false none))
  | .error e => exitSeq s e

/-- A sequencer word that says where the PC goes next without a redirect. -/
def seqWordTo (body : State → M (State × NextPc)) (s : State) : Out :=
  match orOver (overTrap s s.cur.u s.cur.ctl.wait) (takeWait s s.cur.u s.cur.ctl.wait >>= body) with
  | .ok t => .next ((t.1.issued s.cur.u).retire s.cur.u s.cur s.me.pend false t.2)
  | .error e => exitSeq s e

/-- The state in which a closing word acts (R146): the region is closed with a full capture, with the closing word as
the start of the next, and its entries have drained. DESIGN CHOICE (log entry 72): an abort while the word still waits, as a SYSCALL
may, restarts at the word itself: R120 speaks of the region after it alone. -/
def State.closeFor (s : State) (u : Nat) : State :=
  let sl := s.slot u
  (s.closeRegion u sl.recPc sl.region.auto).drainAll u sl.tk

/-- The region is closed and its entries drain before the closing word acts: at once, or, where one may have to wait, one by one
while the word waits. -/
def closeAll (s : State) : M State :=
  let u := s.cur.u
  let sl := s.slot u
  if s.slowDrain u then
    .error (.redo (fun s => if sl.opened.isEmpty then s else s.closeRegion u sl.recPc sl.region.auto))
  else .ok (s.closeFor u)

/-- A closing word (R146): checked on the state as it stands, where a fault is precise and a wait leaves the region
open; then the region closes and drains, and a trap of an atomic that drained is taken before the word (R143); then the
word acts, and a tile fault it meets restarts at the word itself. -/
def closingWord (check : State → M Unit) (body : State → M State) (s : State) : Out :=
  match orOver (overTrap s s.cur.u s.cur.ctl.wait)
      (takeWait s s.cur.u s.cur.ctl.wait >>= (fun t => check t >>= fun _ => closeAll t)) with
  | .error e => exitSeq s e
  | .ok t =>
    match (t.slot s.cur.u).latch with
    | some tr => .next (t.coreStop s.cur.u .seq tr (t.slot s.cur.u).latchWord false)
    | none =>
      match body t with
      | .ok r =>
        if (r.slot s.cur.u).inHand.isSome then .next (r.issued s.cur.u)
        else .next ((r.issued s.cur.u).retire s.cur.u s.cur t.me.pend true none)
      | .error (.trap tr) => .next (s.coreStop s.cur.u .seq tr s.cur.word false)
      | .error (.tile tid tile) => .next (t.tileAbort s.cur.u .seq tid tile)
      | .error e => exitSeq s e

/-- A word that has changed the state waits in its slot for an answer: the slot issues nothing until then. -/
def State.park (s : State) (u : Nat) (h : Hold) (closing : Bool) : State :=
  s.modSlot u (fun sl => { sl with hold := h, inHand := some s.cur, closing := closing })

/-- The answer a parked word waited for has come: the register is written, over the older writes of it that are still in
flight, and the word retires. -/
def State.unpark (s : State) (u : Nat) (rd : Nat) (v : Word) : State :=
  let sl := s.slot u
  let sl := { sl with pend := sl.pend.filter (fun p => !(p.tag = 0 && p.eff.onReg (sl.phys rd))) }
  match sl.inHand with
  | some cur =>
    let s := s.setSlot u ({ sl with hold := .none }.setGreg rd v)
    s.retire u cur sl.pend sl.closing none
  | none => s.modSlot u (fun sl => { sl with hold := .none })

/-! Engine entries -/

/-- The stream of the word in hand, and 8 more for a draining ring's. -/
def Cursor.key (c : Cursor) : Nat := c.strm.num + 8 * b2n c.drain

/-- The slot as the entry in hand sees it. -/
def State.eSlot (s : State) : Slot := s.view s.cur.u s.cur.drain
def State.setESlot (s : State) (sl : Slot) : State := s.setView s.cur.u s.cur.drain sl

/-- An entry that has only its words and signals. -/
def InFlight.of (cur : Cursor) (now : Nat) : InFlight :=
  { (default : InFlight) with words := [cur.word], signals := [cur.ctl.signal], clock := now, drain := cur.drain }

/-- Two entries fired in one clock complete as one (R225). -/
def InFlight.join (a b : InFlight) : InFlight :=
  { a with
    words := a.words ++ b.words, signals := a.signals ++ b.signals, writes := a.writes ++ b.writes,
    reads := a.reads ++ b.reads,
    clears := a.clears ++ b.clears, flags := orF a.flags b.flags, clamped := a.clamped || b.clamped,
    advances := a.advances ++ b.advances, stream := a.stream || b.stream, oqs := a.oqs ++ b.oqs, waits := a.waits ++ b.waits,
    banks := a.banks ++ b.banks, lat := max a.lat b.lat, long := max a.long b.long,
    trap := match a.trap with | some t => some t | none => b.trap }

/-- The vector word in hand may join the entry already fired in this clock (R225): it reads nothing that entry writes, it
writes nothing that entry reads or writes, and at most one of the two is a long word. -/
def InFlight.mayJoin (x y : InFlight) : Bool :=
  let long (w : Nat) : Bool := let op := fld w 40 8; 0x30 ≤ op && op ≠ 0x77
  let hit (a b : Nat × Nat) : Bool := a.1 < b.1 + b.2 && b.1 < a.1 + a.2
  let wr (f : InFlight) : List (Nat × Nat) := f.writes.map (fun w => (w.1, w.2.length))
  !(x.words.any long && y.words.any long)
    && (wr x).all (fun a => y.reads.all (fun b => !hit a b))
    && (wr y).all (fun a => (x.reads ++ wr x).all (fun b => !hit a b))

/-- The register bank that serves most of the vectors a word or group reads, the lowest of equals, and the clocks the word waits
for it (R226). -/
def bankWait (l : List Nat) : Nat × Nat :=
  let m := (List.range 8).foldl (fun (m : Nat × Nat) b =>
    let n := (l.filter (· == b)).length
    if m.2 < n then (b, n) else m) (0, 0)
  (m.1, (m.2 + 1) / 2 - 1)

/-- The clocks between the choice of an entry and its fire (R226). -/
def InFlight.delay (f : InFlight) : Nat := (bankWait f.banks).2

/-- An entry whose fire the register banks delay has words that have yet to fire (R226). -/
def InFlight.chosen (f : InFlight) : Bool := f.delay ≠ 0 && f.again < f.words.length

/-- The vector engine's part of a choice (R225, R226): it fires nothing more until the clocks of the register banks are over,
and a long word holds its unit. -/
def State.vecFire (s : State) (core : Nat) (g : InFlight) : State :=
  s.modCore core (fun c => { c with longFree := if 0 < g.long then s.clock + g.delay + g.long else c.longFree })

/-- The clocks of the register banks are counted when the word or group fires (R226, R456). -/
def State.bankCount (s : State) (core : Nat) (g : InFlight) : State :=
  let (b, e) := bankWait g.banks
  if e = 0 then s
  else (s.modCore core (fun c => c.bcmAdd 8 b e)).count0 core 0x09 none e

/-- The engine can take the word in hand: once in a clock (R192), in the vector engine in the clock of an earlier fire only as the
second of its group (R225), and a long word only when the long unit is free (R225, R226). -/
def engReady (s : State) (old : Option InFlight) (f : InFlight) : M Unit :=
  let c := s.core (coreOf s.cur.u)
  let e := engNum s.cur.strm
  let free := Tbl.get 0 c.engFree e
  if old.isNone && s.clock < free then .error (.wait free)
  else if 0 < f.long && s.clock < c.longFree then .error (.wait c.longFree)
  else match old with
    | none => .ok ()
    | some x => if e = 0 && x.words.length = 1 && x.clock = s.clock && x.mayJoin f then .ok () else .error (.wait (s.clock + 1))

/-- The word's engine has served its slot: its turn goes on from here, and it fires nothing more in these clocks (R192, R226). -/
def State.takeTurn (s : State) (g : InFlight) : State :=
  let e := engNum s.cur.strm
  s.modCore (coreOf s.cur.u) (fun c => { c with
    lastEng := Tbl.set 0 c.lastEng e (s.cur.u % 4 + 1)
    engFree := Tbl.set 0 c.engFree e (s.clock + g.delay + 1) })

/-- The entry `g` stands in the word's engine, and the engine takes the slot's next entry after the word's stall (R37, R224). -/
def State.standEntry (s : State) (sl : Slot) (g : InFlight) : State :=
  (s.setESlot { sl with eng := Tbl.put sl.eng (engNum s.cur.strm) g }).modMe (fun sl => { sl with
    wm := sl.wm.filter (fun w => w.key ≠ s.cur.key)
    engNext := Tbl.set 0 sl.engNext (engKey (engNum s.cur.strm) s.cur.drain) (s.clock + g.delay + s.cur.ctl.stall.toNat) })

/-- A vector word without a stall, with another behind it: the engine looks at that one in the same clock (R225). -/
def State.seekMate (s : State) (sl : Slot) (g : InFlight) : State :=
  if engNum s.cur.strm = 0 && g.words.length = 1 && s.cur.ctl.stall = 0 && 2 ≤ (sl.cring 0).occ then
    { s with mate := some (s.cur.u, s.cur.drain) }
  else s

/-- A fired entry stands in its engine until it completes; a second vector word joins it (R225), or waits. -/
def State.fire (s : State) (f : InFlight) : M State := do
  let sl := s.eSlot
  let old := (sl.eng.find? (fun x => x.1 == engNum s.cur.strm)).map (·.2)
  engReady s old f
  let g := match old with | some g => g.join f | none => f
  let t := s.takeTurn g
  let t := if engNum s.cur.strm = 0 then t.vecFire (coreOf s.cur.u) g else t
  return (t.standEntry sl g).seekMate sl g

/-- How an engine entry that does not fire ends. A tile fault of a draining entry, whose task has ended, stops the core
as PERM UNMAPPED, and the tile is posted (R203). -/
def exitEng (s : State) (e : Exit) : Out :=
  let u := s.cur.u
  let k := engNum s.cur.strm
  match e with
  | .trap t => .next (s.coreStop u s.cur.strm t s.cur.word s.cur.drain)
  | .tile tid tile =>
    if s.cur.drain then
      .next ((s.postTile s.eSlot.ctx tid tile u).coreStop u s.cur.strm ⟨cPERM, pUNMAPPED, s.eSlot.tk.seq⟩ s.cur.word true)
    else .next (s.tileAbort u s.cur.strm tid tile)
  | .wait n => .next (s.modMe (fun sl => sl.notBefore k s.cur.drain (max n (s.clock + 1))))
  | .redo f => .next ((f s).modMe (fun sl => sl.notBefore k s.cur.drain (s.clock + 1)))
  | .stop f => .fault f

/-- While an entry stands in the word's engine, the word behind it fires only to join that entry's issue group (R225):
one that does not fire is not yet at the head, so it waits, and what faults it has are found once it is. -/
def notYetHead (s : State) (e : Exit) : Exit :=
  if (s.eSlot.eng.find? (fun x => x.1 == engNum s.cur.strm)).isSome then .wait (s.clock + 1) else e

/-- The entry chosen earlier whose clock to fire has come, when the word in hand is the next of its words (R226). -/
def State.refire (s : State) : Option InFlight :=
  match s.eSlot.eng.find? (fun x => x.1 == engNum s.cur.strm) with
  | some (_, f) =>
    if engNum s.cur.strm = 0 && f.chosen && f.clock + f.delay ≤ s.clock && s.cur.word = nth 0 f.words f.again then some f
    else none
  | none => none

/-- The slot with the claims of a chosen entry taken out, as the first of its words sees it when it fires. -/
def State.unclaimed (s : State) (f : InFlight) : State :=
  if f.again ≠ 0 then s
  else
    let sl := s.eSlot
    s.setESlot { sl with eng := Tbl.put sl.eng (engNum s.cur.strm) { f with advances := [], oqs := [], writes := [], reads := [] } }

/-- A word of a chosen entry has fired, with what it now reads: the entry goes on with that (R226). -/
def State.fired (s : State) (f g : InFlight) : State :=
  let h := if f.again = 0 then g else f.join g
  let h := { h with words := f.words, signals := f.signals, clock := f.clock, banks := f.banks, again := f.again + 1 }
  let sl := s.eSlot
  let s := s.setESlot { sl with eng := Tbl.put sl.eng (engNum s.cur.strm) h }
  if h.chosen then s else s.bankCount (coreOf s.cur.u) h

/-- An engine word: at the head of its ring, its wait is taken and it fires; what it will do at its completion stands in
the engine until then (R181, R192). A vector word that its register banks delay fires again, on what its operands hold by then,
when those clocks are over: its conditions and its claims stand as they were when it was chosen (R226). -/
def engWord (body : State → M (State × InFlight)) (s : State) : Out :=
  match s.refire with
  | some f =>
    match body (s.unclaimed f) with
    | .ok t => .next (t.1.fired f t.2)
    | .error (.wait n) => exitEng s (.wait n)
    | .error (.redo g) => exitEng s (.redo g)
    | .error e => exitEng (s.unfire s.cur.u (engNum s.cur.strm) s.cur.drain) e
  | none =>
    match orOver (overTrap s s.cur.u s.cur.ctl.wait)
        (takeWait s s.cur.u s.cur.ctl.wait >>= body >>= (fun t => t.1.fire t.2)) with
    | .ok t => .next t
    | .error e => exitEng s (notYetHead s e)

/-- The owner field lets this stream and member advance the pointer (R191). -/
def ownOk (own code : Nat) : Bool := own % 8 = 7 || own = code

/-- Data ring `n` as an entry's input of `k` entries: configured, owned, and holding what the fire rule needs (R191,
R192). -/
def ringIn (s : State) (n k : Nat) : M Ring := do
  let sl := s.eSlot
  let r := s.viewRing sl n
  need (r.logn ≠ 0 && ownOk r.consown (sl.owner s.cur.u s.cur.strm)) cILLEGAL 11 0
  let c := sl.claimed (engNum s.cur.strm) n false
  if max r.decl k ≤ r.occ - c then return { r with cons := (r.cons + c) % 2 ^ 32 } else .error (.wait (s.clock + 1))

/-- Data ring `n` as an entry's output of `k` entries (R191, R192). -/
def ringOut (s : State) (n k : Nat) : M Ring := do
  let sl := s.eSlot
  let r := s.viewRing sl n
  need (r.logn ≠ 0 && ownOk r.prodown (sl.owner s.cur.u s.cur.strm)) cILLEGAL 11 0
  let c := sl.claimed (engNum s.cur.strm) n true
  if k ≤ r.room - c then return { r with prod := (r.prod + c) % 2 ^ 32 } else .error (.wait (s.clock + 1))

/-- Bytes per entry of a data ring, and the offset in its allocation of entry number `m` (R189). -/
def Ring.size (r : Ring) : Nat := 64 * (r.esz + 1)
def Ring.entry (r : Ring) (m : Nat) : Nat := 64 * r.base + m % 2 ^ r.logn * r.size

/-- The scratchpad base a slot's data ring counts from: its own allocation, or member 0's for a named pipe (R218). -/
def State.ringBase (s : State) (sl : Slot) (n : Nat) : Nat :=
  let r := sl.ring n
  if r.via = 0 then sl.alloc.spBase else (Tbl.get (0, []) s.pipes (r.via - 1)).1

/-- A scratchpad byte range of the entry's allocation, for a granule operand: outside it is a permission fault at fire
(R52, DEDUCED RANGE). -/
def granAddr (al : Alloc) (gran n : Nat) : M Nat := do
  need (64 * gran + n ≤ al.spLen) cPERM pRANGE (64 * gran)
  return al.spBase + 64 * gran

end Sys2Proof.Machine
end

