-- ==== Sys2Proof/Machine/Flags.lean ====
section
/-! DEFINITION. Flag computations: AFLAGS of a sequencer word (03 R81, R82), the divide-by-zero trap (04 R103), and the
conditions of CMP (R107) and FCMP (R110). -/

namespace Sys2Proof.Machine
open Sys2Proof

/-- The word in hand sets arithmetic flags; an enabled trap is latched and taken when the word has ended (R82). -/
def State.flags (s : State) (fl : Nat) : State := s.modMe (fun sl => sl.raise fl)

/-- The word in hand divided by zero: with CORECTL.TDIV, subcause 7 once its result is written (R103). -/
def State.divZero (s : State) : State :=
  s.modMe (fun sl => if sl.corectl 3 && sl.latch.isNone then { sl with latch := some ⟨cARITH, 7, 0⟩ } else sl)

/-- The conditions of CMP (R107): eq, ne, lt, ge, ltu, geu, tst, ntst. -/
def cmpCond (cc : Nat) (a b : Word) : Bool :=
  match cc with
  | 0 => a == b
  | 1 => a != b
  | 2 => a.toInt < b.toInt
  | 3 => b.toInt ≤ a.toInt
  | 4 => a.toNat < b.toNat
  | 5 => b.toNat ≤ a.toNat
  | 6 => (a &&& b) != 0
  | _ => (a &&& b) == 0

end Sys2Proof.Machine
end

