-- ==== Sys2Proof/Machine/Operands.lean ====
section
/-! DEFINITION. The operand forms of the sequencer's words (02 R40 to R46): the second operand of S3, predicate fields,
scalar float types, and the memory prefix in force (R44 to R47). -/

namespace Sys2Proof.Machine
open Sys2Proof

/-- The second operand of an S3 word with an immediate form (R103): g[rb], or the sign-extended imm17. -/
def opB (s : State) (f : S3) : M Word := if f.i then .ok (sext64 17 f.funct.toNat) else rdG s f.rb

/-- The predicate a 6-bit field names (R41). -/
def predOf (n : BitVec 6) : Nat := n.toNat % 8

/-- A predicate read with an optional negation (R108). -/
def rdPN (s : State) (n : BitVec 6) (neg : Bool) : M Bool := do return (← rdP s (predOf n)) != neg

/-- The scalar float formats (R109): 0 FP32, 1 BF16, 2 FP16. -/
def scalarFmt (t : Nat) : Fmt := match t with | 0 => fp32 | 1 => bf16 | _ => fp16

/-- The rounding modes of the scalar float words (R109): 0 RNE, 1 RTZ. -/
def scalarRnd (r : Nat) : RMode := if r = 1 then .rtz else .rne

/-- The fields of a memory word's prefix in force: PFX over MEMDEF (R44 to R47). -/
structure Prefix where
  ord : Nat
  scope : Nat
  space : Nat
  cache : Nat
  dw : Bool
  pkg : Nat
  deriving DecidableEq, Repr, Inhabited

/-- MEMDEF's fields (R47): ORD [1:0], SCOPE [4:2], SPACE [7:5], CACHE [9:8], DW [10]. -/
def Prefix.ofMemdef (m : Nat) : Prefix := ⟨fld m 0 2, fld m 2 3, fld m 5 3, fld m 8 2, bitOf m 10, 0⟩

/-- The prefix in force for the word in hand (R47). -/
def State.prefix (s : State) : Prefix :=
  let d := Prefix.ofMemdef (s.ctx s.myCtx).memdef.toNat
  match s.me.pfx with
  | none => d
  | some p =>
    { ord := if p.ovr.getLsbD 4 then p.ord.toNat else d.ord
      scope := if p.ovr.getLsbD 3 then p.scope.toNat else d.scope
      space := if p.ovr.getLsbD 2 then p.space.toNat else d.space
      cache := if p.ovr.getLsbD 1 then p.cache.toNat else d.cache
      dw := if p.ovr.getLsbD 0 then p.dw else d.dw
      pkg := p.pkg.toNat }

end Sys2Proof.Machine
end

