-- ==== Sys2Proof/Machine/Mem.lean ====
section
/-! DEFINITION. The memory words of the sequencer (05 R135 to R154): targets and their checks, watermarks (13 R319),
the store buffer and the effect queue (R160 to R163), loads, stores, atomics, register-space transfers, cache
maintenance, the tag table, PFX, and FENCE with the releases and acquires of other words (06 R173 to R178). -/

namespace Sys2Proof.Machine
open Sys2Proof

/-! Prefix checks -/

/-- The legality of the prefix in force on a word (R44 to R47): whether the word loads only, stores only, or does both
(an atomic), and whether its space may be overridden. -/
def needPrefix (s : State) (load store spaceOk : Bool) : M Prefix := do
  let p := s.prefix
  let o := match s.me.pfx with | some f => f.ovr.toNat | none => 0
  need (!bitOf o 2 || spaceOk) cILLEGAL 3 0
  need (!(bitOf o 0 && p.dw) || (store && !load)) cILLEGAL 3 0
  need (!(load && !store && bitOf p.ord 1)) cILLEGAL 3 0
  need (!(store && !load && bitOf p.ord 0)) cILLEGAL 3 0
  return { p with dw := p.dw && store && !load }

/-! Targets -/

/-- Where an access goes (R135, R137). -/
inductive Target where
  /-- scratchpad: address in the core's scratchpad -/
  | sp (a : Nat)
  /-- a node record of this package: reference, byte offset -/
  | node (ref o : Nat)
  /-- device or host memory: where the bytes stand, and whether the tensor's stores are direct-write -/
  | loc (host : Bool) (ps : List Nat) (dw : Bool)
  | rem (pkg : Nat)
  deriving DecidableEq, Repr, Inhabited

/-- The address a place holds. -/
def Place.addr : Place → Nat
  | .dev a => a
  | .host a => a
  | .remote _ => 0

/-- The package a byte is homed on, if it is another. -/
def Place.away : Place → Option Nat
  | .remote p => some p
  | _ => none

/-- The target of an access of `n` bytes at `ea`, whose address register holds `base`, with the checks of R137, R83 and
R338 in their order. What a held host atomic of the slot is acting on is waited for (R145, R170). -/
def target (s : State) (p : Prefix) (ea base : Word) (n : Nat) (wr : Bool) : M (State × Target) := do
  let a := ea.toNat
  let sp := if p.space = 4 && p.pkg = s.fab.pkg then 0 else p.space
  match sp with
  | 1 =>
    need (a + n ≤ s.me.alloc.spLen) cPERM pRANGE a
    need (a % n = 0) cALIGN 0 a
    return (s, .sp (s.me.alloc.spBase + a))
  | 2 =>
    let r := a % 2 ^ 32
    need (a / 2 ^ 38 = 0) cPERM pRANGE a
    need (nPkg r < 81) cPERM pRANGE a
    need (nPkg r = s.fab.pkg) cPERM pNODEHOME a
    need (a % n = 0) cALIGN 0 a
    need (fld a 32 6 + n ≤ 64) cPERM pRANGE a
    return (s, .node r (fld a 32 6))
  | 4 =>
    need (p.pkg < 81) cPERM pRANGE p.pkg
    need (a / 2 ^ 52 = base.toNat / 2 ^ 52) cPERM pRANGE a
    need (a % n = 0) cALIGN 0 a
    needRoute s p.pkg a
    return (s, .rem p.pkg)
  | sp =>
    need (a / 2 ^ 52 = base.toNat / 2 ^ 52) cPERM pRANGE a
    let core := coreOf s.cur.u
    let (s, d) ← openTensor s core ptSEQ s.myCtx a n wr
    need (d.hosted == (sp == 3)) cPERM pSPACE a
    need (a % n = 0) cALIGN 0 a
    let (s, ps) ← placeBytes core ptSEQ s.myCtx (a / 2 ^ 52 % 4096) d s (a % 2 ^ 52) n
    match ps.findSome? Place.away with
    | some k => do
      needRoute s k a
      return (s, .rem k)
    | none =>
      if d.hosted && s.hostBusy s.cur.u (ps.map Place.addr) then .error (.wait (s.clock + 1))
      else return (s, .loc d.hosted (ps.map Place.addr) d.dw)

/-! Watermarks -/

/-- A channel keeps accesses off a range of its kind: it touches the watched range at a byte at or above the watermark
(R319). -/
def Chan.keeps (c : Chan) (kind a n : Nat) : Bool :=
  c.armed && c.kind = kind && max c.base c.w < a + n && a < c.base + c.len && max c.base c.w < c.base + c.len

/-- A channel of slot `v` watches what slot `u` accesses in a context: tensor ranges by virtual address in the context,
scratchpad ranges in the slot's own allocation (R319). -/
def State.watches (s : State) (v u ctx kind : Nat) : Bool := if kind = 1 then v = u else (s.slot v).ctx = ctx

/-- A channel of the core keeps an access off (R319). -/
def State.kept (s : State) (u ctx kind a n : Nat) : Bool :=
  (List.range 4).any (fun k =>
    let v := 4 * coreOf u + k
    s.watches v u ctx kind && (s.slot v).chans.any (fun e => e.2.keeps kind a n))

/-- An access of the word in hand waits on a watermark, from this clock on if it did not wait yet (R319, R328). -/
def State.markWaiting (s : State) (ctx kind a n : Nat) : State :=
  s.modMe (fun sl => { sl with
    wm := ⟨s.cur.key, ctx, kind, a, n, ((sl.wm.find? (fun w => w.key = s.cur.key)).map (·.since)).getD s.clock⟩
      :: sl.wm.filter (fun w => w.key ≠ s.cur.key) })

/-- The word in hand waits while a watermark keeps its access off; no channel watches the scratchpad of an ended task. -/
def watermark (s : State) (ctx kind a n : Nat) : M Unit :=
  if (kind = 1 && s.cur.drain) || !s.kept s.cur.u ctx kind a n then .ok ()
  else .error (.redo (fun s => s.markWaiting ctx kind a n))

/-- The same for scratchpad bytes of an engine's access, by their place in the core: only the slot's own allocation is watched
(R319). -/
def spMark (s : State) (a n : Nat) : M Unit :=
  let al := s.eSlot.alloc
  if al.spBase ≤ a && a + n ≤ al.spBase + al.spLen then watermark s s.eSlot.ctx 1 (a - al.spBase) n else .ok ()

/-- An access is waiting on a channel of slot `u` (R328). -/
def State.waitsOn (s : State) (u : Nat) (c : Chan) : Bool :=
  (List.range 4).any (fun k =>
    let v := 4 * coreOf u + k
    (s.slot v).wm.any (fun w => s.watches u v w.ctx w.kind && c.keeps w.kind w.addr w.len))

/-- The watermark check of a target. -/
def targetMark (s : State) (t : Target) (ea : Word) (n : Nat) : M Unit :=
  match t with
  | .sp a => watermark s s.myCtx 1 (a - s.me.alloc.spBase) n
  | .loc .. => watermark s s.myCtx 0 ea.toNat n
  | _ => .ok ()

/-! The store buffer and the effect queue -/

/-- Entries that take the store buffer, and the held effects (R160, R161). -/
def Effect.buffered : Effect → Bool
  | .store .. | .nst .. => true
  | _ => false

/-- A buffered store or held effect joins the open region (R161 to R163): when its place is full it waits for the closed
regions to drain; when the open region alone fills it, an auto region closes first, and any other word is a fault. -/
def putEffect (s : State) (e : Effect) (rel : Nat) : M State :=
  let sl := s.me
  let same (h : Held) : Bool := h.eff.buffered == e.buffered && (match h.eff with | .marker _ => false | _ => true)
  let cap := if e.buffered then sl.alloc.sbLen / 16 else 512
  let o := (sl.opened.filter same).length
  let c := (sl.closed.filter same).length
  if o + c < cap then
    .ok (s.modMe (fun sl => { sl with opened := sl.opened ++ [⟨e, fld s.cur.word 40 8, s.cur.word, s.prefix.space, sl.region.num, rel⟩] }))
  else if o < cap then .error (.wait (s.clock + 1))
  else if sl.region.auto && 0 < cap then
    .error (.redo (fun s => s.closeRegion s.cur.u s.me.recPc true))
  else trap cILLEGAL 10 0

/-- The bytes an entry holds for device memory (false) or host memory (true), by physical address (R140). -/
def Effect.physBytes (e : Effect) (host : Bool) : List (Nat × Byte) :=
  match e with
  | .store sp _ ps bs => if sp = 2 || (sp == 3) != host then [] else ps.zip bs
  | _ => []

/-- A node record's key among the records of every package. -/
def nKey (r : Nat) : Nat := 2 ^ 40 * nPkg r + nAddr r

/-- The bytes an entry holds for node memory, by the record's key and the byte. -/
def Effect.nodeBytes (e : Effect) : List (Nat × Byte) :=
  match e with
  | .store 2 a _ bs => ((List.range bs.length).map (fun k => nKey (a % 2 ^ 32) + fld a 32 6 + k)).zip bs
  | .nst r w mask v => (((List.range 8).zip (wordBytes 8 v)).filter (fun b => bitOf mask b.1)).map (fun b => (nKey r + 8 * w + b.1, b.2))
  | _ => []

/-- The bytes a remote store holds for a package, by virtual address (R141 case 2). -/
def Effect.remBytes (e : Effect) (pkg : Nat) : List (Nat × Byte) :=
  match e with
  | .rstore p a bs _ _ => if p = pkg then ((List.range bs.length).map (a + ·)).zip bs else []
  | _ => []

/-- The byte of the youngest entry that holds one at a key (R140). -/
def Slot.youngest (sl : Slot) (f : Effect → List (Nat × Byte)) (key : Nat) : Option Byte :=
  (sl.closed ++ sl.opened).foldl (fun r h =>
    match ((f h.eff).reverse.find? (fun e => e.1 == key)) with
    | some e => some e.2
    | none => r) none

/-- Bytes of a direct-write store are copied into the older entries that cover them (R141 case 3). -/
def Effect.patch (e : Effect) (host : Bool) (l : List (Nat × Byte)) : Effect :=
  match e with
  | .store sp a ps bs =>
    if sp = 2 || (sp == 3) != host then e
    else .store sp a ps ((ps.zip bs).map (fun b => ((l.find? (fun x => x.1 == b.1)).map (·.2)).getD b.2))
  | e => e

/-- The same for node memory. -/
def Effect.patchNode (e : Effect) (l : List (Nat × Byte)) : Effect :=
  match e with
  | .store 2 a ps bs =>
    .store 2 a ps (((List.range bs.length).zip bs).map (fun b =>
      ((l.find? (fun x => x.1 == nKey (a % 2 ^ 32) + fld a 32 6 + b.1)).map (·.2)).getD b.2))
  | .nst r w mask v =>
    .nst r w mask (BitVec.ofNat 64 (leNat (((List.range 8).zip (wordBytes 8 v)).map (fun b =>
      if bitOf mask b.1 then ((l.find? (fun x => x.1 == nKey r + 8 * w + b.1)).map (·.2)).getD b.2 else b.2))))
  | e => e

def Slot.patchAll (sl : Slot) (f : Effect → Effect) : Slot :=
  { sl with opened := sl.opened.map (fun h => { h with eff := f h.eff }), closed := sl.closed.map (fun h => { h with eff := f h.eff }) }

/-! Ordering -/

/-- A release performed at issue waits for the slot's earlier loads, for its closed regions and the answers to their
node operations, and at scope domain or system for every remote access (R175 to R177). -/
def needSettled (s : State) (scope : Nat) : M Unit :=
  let sl := s.me
  if sl.closed.isEmpty && !sl.pend.any (fun p => p.tag ≠ 0) && !s.heldFar s.cur.u
      && (scope < 4 || (!s.unackedOf s.cur.u && !s.awaits s.cur.u)) then .ok ()
  else .error (.wait (s.clock + 1))

/-- The narrower lines of the remote cache go home for the slot's release, and their acknowledgement is awaited. -/
def State.releaseBack (s : State) (u scope : Nat) : State :=
  let t := s.rcRelease (coreOf u) scope
  t.modSlot u (fun sl => { sl with acks := sl.acks ++ s.newFlows t })

/-- A release performed at issue is ready: at scope domain or system the narrower lines of the remote cache go home first, and
the release waits until they too are acknowledged (R176 to R178). A line that another slot dirties in the meantime does not
hold it up. -/
def needReleased (s : State) (p : Prefix) : M Unit :=
  if !bitOf p.ord 1 then .ok ()
  else do
    needSettled s p.scope
    let u := s.cur.u
    if 4 ≤ p.scope && (s.core (coreOf u)).rcache.any (fun l =>
        !l.dirty.isEmpty && l.scope < p.scope && (s.me.acks.isEmpty || l.unit == u)) then
      .error (.redo (fun s => s.releaseBack u p.scope))
    else if 4 ≤ p.scope && !s.ackedAll s.me.acks then .error (.wait (s.clock + 1))
    else .ok ()

/-- A release that is ready writes back the narrower lines of the remote cache (R177). -/
def State.released (s : State) (p : Prefix) : State :=
  if bitOf p.ord 1 then (s.rcRelease (coreOf s.cur.u) p.scope).modMe (fun sl => { sl with acks := [] }) else s

/-- A release performed at issue: what it waits for, and the write-back of narrower remote-cache lines (R177). -/
def release (s : State) (p : Prefix) : M State := do
  needReleased s p
  return s.released p

/-- The release mark of an entry that releases when it drains: its scope plus one (R175). It waits for the slot's
outstanding loads first (R177). -/
def relMark (s : State) (p : Prefix) : M Nat :=
  if bitOf p.ord 1 then
    if 1 ≤ p.scope && s.me.pend.any (fun q => q.tag ≠ 0) then .error (.wait (s.clock + 1)) else .ok (p.scope + 1)
  else .ok 0

/-- An acquire at scope domain or system waits for the slot's remote reads and atomics (R176). -/
def needReturned (s : State) (p : Prefix) : M Unit :=
  if bitOf p.ord 0 && 4 ≤ p.scope && s.awaits s.cur.u then .error (.wait (s.clock + 1)) else .ok ()

/-- What an acquire at a scope drops (R149, R150, R177). -/
def CoreSt.acquire (c : CoreSt) (scope : Nat) : CoreSt :=
  let c := if 1 ≤ scope then c.l1Flush else c
  if 2 ≤ scope then c.rcAcquire else c

/-- An acquire done at once: the caches drop what they must, and the later words issue behind the access (R177). -/
def State.acquired (s : State) (p : Prefix) (lat : Nat) : State :=
  if bitOf p.ord 0 then
    (s.modMyCore (fun c => c.acquire p.scope)).modMe (fun sl => { sl with nextIssue := max sl.nextIssue (s.clock + lat) })
  else s

/-! Loads -/

/-- The clocks to a die's DRAM: own, ring-neighbour and opposite (R152, R331). -/
def dramLat (core a : Nat) : Nat :=
  match (dieOf core + 4 - a / 2 ^ 36 % 4) % 4 with
  | 0 => 160
  | 2 => 280
  | _ => 220

/-- The clocks a load takes from device or host memory (R152; the figures are typical, log entry 15). -/
def memLat (s : State) (core : Nat) (host : Bool) (a : Nat) : Nat :=
  if host then 1 + Config.freeNat 8 s.tick else dramLat core a

/-- A local memory read byte by byte, the store buffer before the cache (R140). -/
def readLocal (core cache : Nat) (host : Bool) (sl : Slot) : State → List Nat → M (State × List Byte)
  | s, [] => .ok (s, [])
  | s, a :: t => do
    let (s, b) ← match sl.youngest (fun e => e.physBytes host) a with
      | some b => pure (s, b)
      | none => l1Read s core cache host a
    let (s, bs) ← readLocal core cache host sl s t
    return (s, b :: bs)

/-- The value of a load from its bytes (R139). -/
def loadVal (signed : Bool) (n : Nat) (bs : List Byte) : Word :=
  if signed then sext64 (8 * n) (leNat bs) else BitVec.ofNat 64 (leNat bs)

/-- The bytes of an undrained remote store of the slot, or of a remote-cache line, that a load can use (R140, R340): under .byp of
a line only what the core has stored there, which has not reached its home (R170). -/
def State.remByte (s : State) (u pkg cache va : Nat) : Option Byte :=
  match (s.slot u).youngest (fun e => e.remBytes pkg) va with
  | some b => some b
  | none =>
    match (s.core (coreOf u)).rcFind pkg (s.slot u).ctx (va / 2 ^ 52 % 4096) (va % 2 ^ 52 / 256) with
    | some l => (l.data.find? (fun e => e.1 == va % 256 && (cache ≠ 3 || l.dirty.contains e.1))).map (·.2)
    | none => none

/-- A remote load (R340): the bytes that are valid here, or a read packet for the line, or for the bytes alone under
.strm and .byp, whose data is awaited. -/
def remoteLoad (s : State) (f : SM) (p : Prefix) (signed : Bool) (pkg va n : Nat) : M State := do
  let u := s.cur.u
  match (List.range n).mapM (fun k => s.remByte u pkg p.cache (va + k)) with
  | some bs =>
    let s ← wrLocked s f.r (loadVal signed n bs) 8
    return s.acquired p 8
  | none =>
    let whole := p.cache = 0 || p.cache = 2
    let (tag, s) := s.newReq (.load u f.r.toNat n signed pkg va p.cache)
    let (q, s) := s.nextFseq (flowKey u 0 pkg (va / 2 ^ 52 % 4096))
    let s := s.sendFlow (flowKey u 0 pkg (va / 2 ^ 52 % 4096)) { s.pkt 0x01 pkg s.myCtx with
      score := u / 4, sslot := u % 4, tensor := va / 2 ^ 52 % 4096, fseq := q,
      offset := if whole then va % 2 ^ 52 / 256 * 256 else va % 2 ^ 52,
      tag := tag, operand := BitVec.ofNat 64 (if whole then 256 else n) }
    let s ← wrTagged s f.r tag
    return if bitOf p.ord 0 then s.modMe (fun sl => { sl with hold := .remote tag (p.scope + 1) }) else s

/-- The bytes of a node record, the store buffer before the record (R138, R140). -/
def State.nodeBytes (s : State) (sl : Slot) (r o n : Nat) : List Byte :=
  (List.range n).map (fun k =>
    (sl.youngest Effect.nodeBytes (nKey r + o + k)).getD (s.nsm.get (nAddr r + o + k)))

/-- The clocks a node record takes to answer: its own die, a neighbour on the ring, the opposite die (R381). -/
def nodeLat (core r : Nat) : Nat :=
  match (nDie r + 4 - dieOf core) % 4 with
  | 0 => 14
  | 2 => 96
  | _ => 70

/-- A load (R139, R140). -/
def loadBody (f : SM) (signed : Bool) (fixed : Option Nat) (s : State) : M State := do
  let p ← needPrefix s true false fixed.isNone
  let p := match fixed with | some k => { p with space := k } | none => p
  let n := 2 ^ f.size.toNat
  let base ← rdG s f.base
  let ea := base + sext64 22 f.off.toNat
  let (s, t) ← target s p ea base n false
  targetMark s t ea n
  needReturned s p
  let core := coreOf s.cur.u
  match t with
  | .sp a =>
    let s ← wrLocked s f.r (loadVal signed n (s.myCore.scratch.bytes a n)) 4
    return s.acquired p 4
  | .node r o =>
    let st := s.nodeSt r
    let s := s.countSt s.myCtx r st
    let v := if st = stSTALE then BitVec.ofNat 64 (2 ^ (8 * n) - 1) else loadVal signed n (s.nodeBytes s.me r o n)
    let s ← wrLocked s f.r v (nodeLat core r)
    return s.acquired p (nodeLat core r)
  | .loc host ps _ =>
    let hit := ps.all (fun a => (s.core core).l1.any (fun l => l.host == host && l.line == a / 64))
    let (s, bs) ← readLocal core (if bitOf p.ord 0 then 3 else p.cache) host s.me s ps
    let lat := if hit && p.cache ≠ 3 && !bitOf p.ord 0 then 5 else memLat s core host (ps.headD 0)
    let s := if host then s.fresh.2 else s
    let s ← wrLocked s f.r (loadVal signed n bs) lat
    return s.acquired p lat
  | .rem pkg => remoteLoad s f p signed pkg ea.toNat n

/-- LD, LDS, LDSP (R139). -/
def execLd (f : SM) (s : State) : Out := seqWord (loadBody f false none) s
def execLds (f : SM) (s : State) : Out := seqWord (loadBody f true none) s
def execLdsp (f : SM) (s : State) : Out := seqWord (loadBody f false (some 1)) s

/-! Stores -/

/-- Physical bytes written at once through the core's scalar L1 (R141 case 3, R149). -/
def writePhys (core : Nat) (host : Bool) : State → List (Nat × Byte) → M State
  | s, [] => .ok s
  | s, e :: t => do
    let s ← wrPhys s core host e.1 e.2
    writePhys core host s t

/-- A store (R139, R141). -/
def storeBody (f : SM) (fixed : Option Nat) (s : State) : M State := do
  let p ← needPrefix s false true fixed.isNone
  let p := match fixed with | some k => { p with space := k } | none => p
  let n := 2 ^ f.size.toNat
  let base ← rdG s f.base
  let v ← rdG s f.r
  let ea := base + sext64 22 f.off.toNat
  let bs := wordBytes n v
  let (s, t) ← target s p ea base n true
  targetMark s t ea n
  match t with
  | .sp a =>
    let s ← release s p
    return s.modMyCore (fun c => { c with scratch := c.scratch.store a bs })
  | .node r o =>
    need (nodeWrOk o n) cPERM pRDONLY ea.toNat
    let l := ((List.range n).map (o + ·)).zip bs
    if p.dw then
      let s ← release s p
      let st := s.nodeSt r
      if st ≠ stOK then return s.countSt s.myCtx r st
      let s := s.nodeWrite s.myCtx r l
      return s.modMe (fun sl => sl.patchAll (fun e => e.patchNode (l.map (fun b => (nKey r + b.1, b.2)))))
    else
      let rel ← relMark s p
      putEffect s (.store 2 ea.toNat [] bs) rel
  | .loc host ps dw =>
    if p.dw || dw then
      let s ← release s p
      let s ← writePhys (coreOf s.cur.u) host s (ps.zip bs)
      return s.modMe (fun sl => sl.patchAll (fun e => e.patch host (ps.zip bs)))
    else
      let rel ← relMark s p
      putEffect s (.store (if host then 3 else 0) ea.toNat ps bs) rel
  | .rem pkg =>
    let rel ← relMark s p
    putEffect s (.rstore pkg ea.toNat bs p.scope p.cache) rel

/-- ST, STSP (R139, R141). -/
def execSt (f : SM) (s : State) : Out := seqWord (storeBody f none) s
def execStsp (f : SM) (s : State) : Out := seqWord (storeBody f (some 1)) s

/-! Atomics -/

/-- Bytes of an atomic's size code (R143). -/
def atomSize (f : S3) : Nat := if f.funct.toNat / 16 % 4 = 2 then 4 else 8

/-- What an atomic needs before it acts (R137, R145, R400): the target and the checks. -/
def atomTarget (s : State) (f : S3) (p : Prefix) (cas : Bool) : M (State × Target × Word) := do
  let ea ← rdG s f.ra
  let n := atomSize f
  let (s, t) ← target s p ea ea n true
  targetMark s t ea n
  match t with
  | .node _ o => need (nodeWrOk o n) cPERM pRDONLY ea.toNat
  | .loc true _ _ => need (cas || f.funct.toNat % 16 ≤ 1) cPERM pSPACE ea.toNat
  | _ => pure ()
  return (s, t, ea)

/-- The new value and the flags of an atomic on `n` bytes that hold `a`: an ATOM, or an ACAS with its compare value. -/
def atomNew (f : S3) (cas : Bool) (n a : Nat) (b c : Word) : Nat × Nat :=
  if cas then (if a = c.toNat % 2 ^ (8 * n) then b.toNat % 2 ^ (8 * n) else a, 0)
  else atomOp (f.funct.toNat % 16) n a (b.toNat % 2 ^ (8 * n))

/-- An atomic of space 1, performed at once (R145, R146). -/
def atomSp (f : S3) (cas : Bool) (s : State) : M State := do
  let p ← needPrefix s true true true
  let (s, t, _) ← atomTarget s f p cas
  let b ← rdG s f.rb
  let c ← if cas then rdG s f.rd else pure 0
  needReturned s p
  let s ← release s p
  match t with
  | .sp a =>
    let n := atomSize f
    let old := s.myCore.scratch.num a n
    let r := atomNew f cas n old b c
    let s := s.modMyCore (fun x => { x with scratch := x.scratch.setNum a n r.1 })
    let s ← wrLocked s f.rd (BitVec.ofNat 64 old) 4
    return (s.flags r.2).acquired p 4
  | _ => return s

/-- A held ATOM (R146): queued, and performed when its region drains. -/
def atomHeld (f : S3) (s : State) : M State := do
  let p ← needPrefix s true true true
  let (s, t, ea) ← atomTarget s f p false
  let b ← rdG s f.rb
  let rel ← relMark s p
  let n := atomSize f
  let op := f.funct.toNat % 16
  match t with
  | .node .. => putEffect s (.atomic 2 s.fab.pkg ea.toNat [] n op b) rel
  | .loc host ps _ => putEffect s (.atomic (if host then 3 else 0) s.fab.pkg ea.toNat ps n op b) rel
  | .rem pkg => putEffect s (.atomic 4 pkg ea.toNat [] n op b) rel
  | .sp _ => return s

/-- The checks of a closing atomic (R146). -/
def atomCheck (f : S3) (cas : Bool) (s : State) : M Unit := do
  let p ← needPrefix s true true true
  let (_, _, _) ← match atomTarget s f p cas with
    | .error (.tile _ _) => pure (s, Target.sp 0, (0 : Word))
    | r => r
  let _ ← rdG s f.rb
  let _ ← if cas then rdG s f.rd else pure 0
  needReturned s p
  if f.rd ≠ 0 then needDest s f.rd
  needReleased s p

/-- A closing atomic acts (R145, R146): at its home here at once; on another package, or in host memory, by a request
whose answer the slot waits for. -/
def atomClosing (f : S3) (cas : Bool) (s : State) : M State := do
  let p ← needPrefix s true true true
  let (s, t, ea) ← atomTarget s f p cas
  let b ← rdG s f.rb
  let c ← if cas then rdG s f.rd else pure 0
  let s := s.released p
  let n := atomSize f
  let u := s.cur.u
  let core := coreOf u
  match t with
  | .node r o =>
    let st := s.nodeSt r
    if st ≠ stOK then
      let s ← wrLocked (s.countSt s.myCtx r st) f.rd
        (BitVec.ofNat 64 (if st = stSTALE then 2 ^ 64 - 1 else 2 ^ (8 * n) - 1)) (nodeLat core r)
      return s.acquired p (nodeLat core r)
    else
      let old := s.nf r o n
      let v := atomNew f cas n old b c
      let s := s.nodeWrite s.myCtx r (((List.range n).map (o + ·)).zip (leBytes n v.1))
      let s ← wrLocked s f.rd (BitVec.ofNat 64 old) (nodeLat core r)
      return (s.flags v.2).acquired p (nodeLat core r)
  | .loc false ps _ =>
    let old := leNat (s.physBytes false ps)
    let v := atomNew f cas n old b c
    let s ← writePhys core false s (ps.zip (leBytes n v.1))
    let lat := memLat s core false (ps.headD 0)
    let s ← wrLocked s f.rd (BitVec.ofNat 64 old) lat
    return (s.flags v.2).acquired p lat
  | .loc true ps _ =>
    return s.park u (.hostAtomic f.rd.toNat n (f.funct.toNat % 16) b (if cas then some c else none) ps ea.toNat
      (if bitOf p.ord 0 then p.scope + 1 else 0)) true
  | .rem pkg =>
    let s := s.rcEvict core pkg s.myCtx ea.toNat
    let (tag, s) := s.newReq (.atomic u f.rd.toNat n)
    let (q, s) := s.nextFseq (flowKey u 0 pkg (ea.toNat / 2 ^ 52 % 4096))
    let s := s.sendFlow (flowKey u 0 pkg (ea.toNat / 2 ^ 52 % 4096)) { s.pkt 0x05 pkg s.myCtx with
      score := u / 4, sslot := u % 4, tensor := ea.toNat / 2 ^ 52 % 4096, fseq := q, offset := ea.toNat % 2 ^ 52,
      tag := tag, aux := (if cas then 0 else f.funct.toNat % 16) + 16 * (if n = 4 then 2 else 3),
      operand := if cas then c else b, payload := if cas then leBytes n b.toNat else [] }
    return s.park u (.remote tag (if bitOf p.ord 0 then p.scope + 1 else 0)) true
  | .sp _ => return s

/-- ATOM (R143, R146). -/
def execAtom (f : S3) (s : State) : Out :=
  if s.prefix.space = 1 then seqWord (atomSp f false) s
  else if f.rd = 0 then seqWord (atomHeld f) s
  else closingWord (atomCheck f false) (atomClosing f false) s

/-- ACAS (R144, R146). -/
def execAcas (f : S3) (s : State) : Out :=
  if s.prefix.space = 1 then seqWord (atomSp f true) s
  else closingWord (atomCheck f true) (atomClosing f true) s

/-! Register-space transfers -/

/-- An address in the slot's register-space allocation (R147): the checks, and where it stands in the core's. -/
def regAddr (s : State) (f : SM) : M (Nat × Nat) := do
  let n := 2 ^ f.size.toNat
  let base ← rdG s f.base
  let a := (base + sext64 22 f.off.toNat).toNat
  need (a + n ≤ s.me.alloc.regLen) cPERM pREGRANGE a
  need (a % n = 0) cALIGN 0 a
  return (s.me.alloc.regBase + a, n)

/-- RSLD (R147): an invalid granule is an invalid-register fault (R100). -/
def execRsld (f : SM) (s : State) : Out :=
  seqWord (fun s => do
    let p ← needPrefix s true false false
    let (a, n) ← regAddr s f
    need (s.myCore.regValid a n) cINVREG 0 (a - s.me.alloc.regBase)
    let s ← wrLocked s f.r (BitVec.ofNat 64 (s.myCore.regs.num a n)) 4
    return s.acquired { p with scope := min p.scope 1 } 4) s

/-- RSST (R147). -/
def execRsst (f : SM) (s : State) : Out :=
  seqWord (fun s => do
    let p ← needPrefix s false true false
    let (a, n) ← regAddr s f
    let v ← rdG s f.r
    let s ← release s { p with scope := min p.scope 1 }
    return s.modMyCore (fun c => c.regWrite a (wordBytes n v))) s

/-! Cache maintenance -/

/-- CINV's prefix rules (R46): ord, cache and dw must be zero or not overridden, and the space may not be overridden. -/
def cinvPrefix (s : State) : M Unit :=
  match s.me.pfx with
  | none => .ok ()
  | some f => need (!f.ovr.getLsbD 2 && f.ord = 0 && f.cache = 0 && !f.dw) cILLEGAL 3 0

/-- The range of a CINV: its start, its end, and whether it takes the whole cache (R148). -/
def cinvRange (s : State) (f : SM) : M (Nat × Nat × Bool) := do
  let base ← rdG s f.base
  let c ← rdG s f.r
  let ea := (base + sext64 22 f.off.toNat).toNat
  return (ea, ea + max c.toNat 1, 2 ^ 20 < c.toNat)

/-- CINV.l1 (R148): the resident lines that cover the bytes of the range leave the core's scalar L1; nothing is tested and
nothing faults. -/
def execCinvL1 (f : SM) (s : State) : Out :=
  seqWord (fun s => do
    cinvPrefix s
    let (a, b, whole) ← cinvRange s f
    if whole then return s.modMyCore (fun c => c.l1Flush)
    let core := coreOf s.cur.u
    let lines := ((List.range (b - a)).map (a + ·)).filterMap (fun va =>
      match openTensor s core ptSEQ s.myCtx va 1 false with
      | .ok (t, d) => (match placeByte t core ptSEQ s.myCtx (va / 2 ^ 52 % 4096) d (va % 2 ^ 52) with
        | .ok (_, .dev p) => some (false, p / 64)
        | .ok (_, .host p) => some (true, p / 64)
        | _ => none)
      | .error _ => none)
    return s.modMyCore (fun c => { c with l1 := c.l1.filter (fun l => !lines.contains (l.host, l.line)) })) s

/-- A remote-cache line lies in a CINV's range. -/
def RLine.within (l : RLine) (ctx a b : Nat) (whole : Bool) : Bool :=
  whole || (l.ctx == ctx && l.tid * 2 ^ 52 + 256 * l.line < b && a < l.tid * 2 ^ 52 + 256 * (l.line + 1))

/-- A CINV stands in flight until its write-backs are acknowledged; the words that must wait for it do (R148). -/
def State.awaitBack (s : State) (u : Nat) (l : List (Nat × Nat)) : State :=
  if l.isEmpty then s
  else s.modSlot u (fun sl => { sl with acks := l, pend := addPend ⟨s.clock, false, cinvTag, .signal .none⟩ sl.pend })

/-- CINV.wb and CINV.wbi (R148): dirty lines go home, and are kept clean or dropped. -/
def cinvBody (f : SM) (drop : Bool) (s : State) : M State := do
  cinvPrefix s
  let (a, b, whole) ← cinvRange s f
  let core := coreOf s.cur.u
  let hit (l : RLine) : Bool := l.within s.myCtx a b whole
  let t := s.rcWriteBack core hit
  let l := s.newFlows t
  let t := if drop then t.modCore core (fun c => { c with rcache := c.rcache.filter (fun l => !hit l) }) else t
  return t.awaitBack s.cur.u l

def execCinvWb (f : SM) (s : State) : Out := seqWord (cinvBody f false) s
def execCinvWbi (f : SM) (s : State) : Out := seqWord (cinvBody f true) s

/-! The tag table -/

/-- The key of a tag-table word (R154): tensor id and tag tile. -/
def tagKey (a : Word) : Nat × Nat := (a.toNat / 2 ^ 52, a.toNat / 2 ^ 12 % 2 ^ 40)

def Tag.is (t : Tag) (u : Nat) (k : Nat × Nat) : Bool := t.owner == u && t.tid == k.1 && t.tile == k.2

/-- TAGLK (R154). -/
def execTaglk (f : S3) (s : State) : Out :=
  seqWord (fun s => do
    let k := tagKey (← rdG s f.ra)
    wrG s f.rd (match s.myCore.tags.find? (fun t => t.is s.cur.u k) with
      | some t => BitVec.ofNat 64 t.slot
      | none => ones64) 3) s

/-- TAGSET (R154). Status 0 inserted, 1 replaced, 2 no free entry, 3 another entry names that scratchpad slot. -/
def tagSet (l : List Tag) (u : Nat) (k : Nat × Nat) (n : Nat) : List Tag × Nat :=
  if l.any (fun t => t.owner == u && t.slot == n && !t.is u k) then (l, 3)
  else if l.any (fun t => t.is u k) then (l.map (fun t => if t.is u k then { t with slot := n } else t), 1)
  else if l.length < 1024 then (l ++ [⟨u, k.1, k.2, n⟩], 0) else (l, 2)

def execTagset (f : S3) (s : State) : Out :=
  seqWord (fun s => do
    let k := tagKey (← rdG s f.ra)
    let n ← rdG s f.rb
    need (n.toNat < s.me.alloc.spLen / 4096) cPERM pRANGE n.toNat
    let (l, st) := tagSet s.myCore.tags s.cur.u k n.toNat
    wrG (s.modMyCore (fun c => { c with tags := l })) f.rd (BitVec.ofNat 64 st) 3) s

/-- TAGCLR (R154). -/
def execTagclr (f : S3) (s : State) : Out :=
  seqWord (fun s => do
    let k := tagKey (← rdG s f.ra)
    let l := s.myCore.tags
    let r := l.filter (fun t => !t.is s.cur.u k)
    wrG (s.modMyCore (fun c => { c with tags := r })) f.rd (if r.length < l.length then 0 else 1) 3) s

/-- TAGCLR.all (R154): the number of entries removed. -/
def execTagclrAll (f : S3) (s : State) : Out :=
  seqWord (fun s => do
    let l := s.myCore.tags
    let r := l.filter (fun t => t.owner != s.cur.u)
    wrG (s.modMyCore (fun c => { c with tags := r })) f.rd (BitVec.ofNat 64 (l.length - r.length)) 3) s

/-! PFX and FENCE -/

/-- PFX (R44, R45): its fields wait for the next word of the slot. -/
def execPfx (f : SP) (s : State) : Out :=
  let u := s.cur.u
  let pc := s.me.pc
  .next (((s.issued u).retire u s.cur s.me.pend false none).modSlot u (fun sl => { sl with pfx := some f, pfxPc := pc }))

/-- FENCE (R178). -/
def execFence (f : SI) (s : State) : Out :=
  seqWord (fun s => do
    let n := f.imm.toNat
    let p : Prefix := { (default : Prefix) with ord := n % 4, scope := n / 4 % 8 }
    needReturned s p
    let s ← release s p
    let s := if bitOf p.ord 1 && !s.me.opened.isEmpty then
        s.modMe (fun sl => { sl with
          opened := sl.opened ++ [⟨.marker p.scope, fld s.cur.word 40 8, s.cur.word, 0, sl.region.num, p.scope + 1⟩] })
      else s
    let s := s.modMe (fun sl => { sl with nextIssue := max sl.nextIssue (s.clock + 2) })
    return s.acquired p (if 1 ≤ p.scope then 4 else 2)) s

end Sys2Proof.Machine
end

