-- ==== Sys2Proof/Machine/CopyEng.lean ====
section
/-! DEFINITION. The copy engine: copy, fill, multicast and striping words, channels, barriers and static schedules
(13 R308 to R331), the sequencer words CSTAGE and CSTAT, and the die's power governor (21 R477). -/

namespace Sys2Proof.Machine
open Sys2Proof

/-- A copy descriptor (R309). -/
structure CopyDesc where
  src : Nat
  dst : Nat
  row : Nat
  n1 : Nat
  n2 : Nat
  ss1 : Int
  ss2 : Int
  ds1 : Int
  ds2 : Int
  sk : Nat
  dk : Nat
  arr : Nat
  cls : Nat
  pat : Nat
  x0 : Nat
  x1 : Nat
  deriving DecidableEq, Repr, Inhabited

def CopyDesc.parse (b : List Byte) : CopyDesc :=
  let f (o n : Nat) : Nat := leNat ((b.drop o).take n)
  ⟨f 0 8, f 8 8, f 16 4, f 20 2, f 22 2, sint 32 (f 24 4), sint 32 (f 28 4), sint 32 (f 32 4), sint 32 (f 36 4),
    f 40 1, f 41 1, f 42 1, f 43 1, f 44 4, f 48 8, f 56 8⟩

/-- The four copy words, and an entry of a schedule (R312, R323). -/
inductive CopyOp where
  | copy | fill | mcast | place | entry
  deriving DecidableEq, Repr, Inhabited

/-- An address keeps the form of its endpoint's kind (R310). -/
def endForm (kind a : Nat) : Bool :=
  match kind with
  | 0 => true
  | 1 => a < 2 ^ 24
  | 2 => a < 2 ^ 30 && fld a 22 2 = 0
  | 3 => a < 32
  | _ => a = 0

/-- The fields that belong to no endpoint are what the word allows (R309, R312, R314, R315). -/
def CopyDesc.fieldsOk (d : CopyDesc) (op : CopyOp) : Bool :=
  1 ≤ d.row && d.row ≤ 2 ^ 24 && 1 ≤ d.n1 && 1 ≤ d.n2 && d.cls < 16
    && (match op with
      | .copy => d.arr = 0 && d.pat = 0 && d.x0 = 0 && d.x1 = 0
      | .fill => d.arr = 0 && d.x0 = 0 && d.x1 = 0
      | .mcast => d.arr = 0 && d.pat = 0 && d.x1 < 2 ^ 17 && (bitOf d.x1 16 == (d.x0 == 0))
      | .place => d.arr = 0 && d.x1 = 0 && d.x0 ≠ 0 && d.pat % 64 = 0 && 64 ≤ d.pat && d.pat ≤ 0x300000
      | .entry => d.pat = 0 && d.arr < 64)

/-- An endpoint's kind, address form and strides are what the word allows (R310, R312, R314, R315, R325). -/
def CopyDesc.srcOk (d : CopyDesc) (op : CopyOp) : Bool :=
  endForm d.sk d.src && (d.sk ≠ 3 || (d.ss1 = 0 && d.ss2 = 0 && (op ≠ .entry || d.x0 = 0)))
    && (if op = .fill then d.sk = 4 else d.sk ≤ 3)
def CopyDesc.dstOk (d : CopyDesc) (op : CopyOp) : Bool :=
  endForm d.dk d.dst && (d.dk ≠ 3 || (d.ds1 = 0 && d.ds2 = 0 && (op ≠ .entry || d.x1 = 0)))
    && (match op with
      | .mcast => if bitOf d.x1 16 then d.dk = 0 else d.dk = 2 && d.dst < 2 ^ 22
      | .place => d.dk = 2 && d.dst < 2 ^ 22
      | _ => d.dk ≤ 3)

/-- The fields and kinds of a descriptor are what its word allows: a fault names the failing endpoint's address, and zero where
no endpoint fails (R309, R316). -/
def CopyDesc.check (d : CopyDesc) (op : CopyOp) : M Unit := do
  need (d.fieldsOk op) cILLEGAL 3 0
  need (d.srcOk op) cILLEGAL 3 d.src
  need (d.dstOk op) cILLEGAL 3 d.dst

/-- A fault of an endpoint names the endpoint's address (R316). -/
def atEnd {α : Type} (a : Nat) (r : M α) : M α :=
  match r with
  | .error (.trap t) => .error (.trap { t with opnd := a })
  | r => r

/-- The rows of a copy in its order: row number, source offset, destination offset (R311). -/
def CopyDesc.rows (d : CopyDesc) : List (Nat × Int × Int) :=
  (List.range d.n2).flatMap (fun p => (List.range d.n1).map (fun r =>
    (p * d.n1 + r, p * d.ss2 + r * d.ss1, p * d.ds2 + r * d.ds1)))

/-- The bounding range of an endpoint, as offsets from its address (R313). -/
def bounds (d : CopyDesc) (s1 s2 : Int) : Int × Int :=
  let a := ((d.n1 - 1 : Nat) : Int) * s1
  let b := ((d.n2 - 1 : Nat) : Int) * s2
  (min 0 a + min 0 b, max 0 a + max 0 b + d.row)

/-- The bytes a copy moves. -/
def CopyDesc.total (d : CopyDesc) : Nat := d.row * d.n1 * d.n2

/-- A tensor endpoint (R316, R83): its descriptor, with its bounding range inside the view. -/
def tensorEnd (s : State) (core port ctx va : Nat) (lo hi : Int) (wr : Bool) : M (State × Desc) := do
  let tid := va / 2 ^ 52
  let off : Int := (va % 2 ^ 52 : Nat)
  let (s, d) ← getDesc s core port ctx tid va
  need (0 ≤ off + lo && off + hi ≤ d.size) cPERM pRANGE va
  need (!wr || !d.ronly) cPERM pRDONLY va
  return (s, d)

/-- The slices of a mask, ascending (R315). -/
def maskSlices (m : Nat) : List Nat := (List.range 64).filter (bitOf m)

/-- How far beyond its offset a striped copy of `n` bytes reaches in a slice, `p` slices sharing stripes of `pat` bytes (R315):
the last stripe may be partial, but a slice before its own holds a whole one of that round. -/
def stripeEnd (n pat p : Nat) : Nat :=
  let q := (n - 1) / pat
  q / p * pat + (if q % p = 0 then (n - 1) % pat + 1 else pat)

/-- The checks of an endpoint at fire (R310, R316). `wr` for the destination; `here` says that a tensor is accessed on
this package. -/
def endCheck (s : State) (sl : Slot) (op : CopyOp) (d : CopyDesc) (wr here : Bool) : M State := do
  let kind := if wr then d.dk else d.sk
  let a := if wr then d.dst else d.src
  let (lo, hi) := if wr then bounds d d.ds1 d.ds2 else bounds d d.ss1 d.ss2
  let core := coreOf s.cur.u
  match kind with
  | 0 =>
    let (s, t) ← tensorEnd s core ptCOPY sl.ctx a lo hi wr
    let tid := a / 2 ^ 52
    let rows := d.rows.map (fun r => (((a % 2 ^ 52 : Nat) : Int) + (if wr then r.2.2 else r.2.1)).toNat)
    need (!wr || tid ≠ 4095 || rows.all (fun o => tableWrOk o d.row)) cPERM pRDONLY a
    need (!here || !t.partd || rows.all (fun o => (List.range d.row).all (fun k =>
      t.home s.fab.pkg (t.pos (o + k) / 65536) = s.fab.pkg))) cPERM pSPACE a
    return s
  | 1 =>
    need (0 ≤ a + lo && a + hi ≤ sl.alloc.spLen) cPERM pRANGE a
    return s
  | 2 =>
    let o : Int := (a % 2 ^ 22 : Nat)
    if op = .place then
      let p := (maskSlices d.x0).length
      need (o + (stripeEnd d.total d.pat p : Nat) ≤ 0x300000) cPERM pRANGE a
    else need (0 ≤ o + lo && o + hi ≤ 0x300000) cPERM pRANGE a
    return s
  | 3 =>
    let r ← atEnd a (if wr then ringOut s a (d.n1 * d.n2) else ringIn s a (d.n1 * d.n2))
    need (d.row ≤ r.size) cILLEGAL 3 a
    return s
  | _ => return s

/-- The bounding ranges of a copy within one memory overlap (R313). -/
def CopyDesc.overlaps (d : CopyDesc) : Bool :=
  let s := bounds d d.ss1 d.ss2
  let t := bounds d d.ds1 d.ds2
  d.sk = d.dk && (d.sk = 1 || (d.sk = 2 && d.src / 2 ^ 24 = d.dst / 2 ^ 24))
    && decide (d.src + s.1 < d.dst + t.2) && decide (d.dst + t.1 < d.src + s.2)

/-! Moving -/

/-- A byte of device or host memory written by an engine: no scalar L1 follows it (R149, R183). -/
def State.putMem (s : State) (p : Place) (b : Byte) : M State :=
  match p with
  | .dev a => if a < dramSize then .ok { s with dram := s.dram.put a b } else .error (.stop (.hole a))
  | .host a => .ok { s with host := s.host.put a b }
  | .remote _ => .ok s

def State.getMem (s : State) (p : Place) : M Byte :=
  match p with
  | .dev a => rdPhys s false a
  | .host a => rdPhys s true a
  | .remote _ => .ok 0

def State.getMems (s : State) : List Place → M (List Byte)
  | [] => .ok []
  | p :: t => do return (← s.getMem p) :: (← s.getMems t)

def State.putMems : State → List (Place × Byte) → M State
  | s, [] => .ok s
  | s, e :: t => do
    let s ← s.putMem e.1 e.2
    State.putMems s t

/-- Bytes of a tensor read by an engine. -/
def tensorRead (s : State) (core port ctx va n : Nat) : M (State × List Byte) := do
  let tid := va / 2 ^ 52
  let (s, d) ← getDesc s core port ctx tid va
  let (s, ps) ← placeBytes core port ctx tid d s (va % 2 ^ 52) n
  return (s, ← s.getMems ps)

/-- Bytes of a tensor written by an engine. -/
def tensorWrite (s : State) (core port ctx va : Nat) (bs : List Byte) : M State := do
  let tid := va / 2 ^ 52
  let (s, d) ← getDesc s core port ctx tid va
  let (s, ps) ← placeBytes core port ctx tid d s (va % 2 ^ 52) bs.length
  s.putMems (ps.zip bs)

/-- An address and an offset modulo 2^64 (R311). -/
def addOff (a : Nat) (o : Int) : Nat := toBits 64 (a + o)

/-- A block of `n` bytes at byte `k` of a row, read from the source. -/
def srcBlock (s : State) (sl : Slot) (d : CopyDesc) (row : Nat × Int × Int) (k n : Nat) : M (State × List Byte) := do
  let core := coreOf s.cur.u
  match d.sk with
  | 0 => tensorRead s core ptCOPY sl.ctx (addOff d.src (row.2.1 + k)) n
  | 1 => return (s, (s.core core).scratch.bytes (sl.alloc.spBase + addOff d.src (row.2.1 + k)) n)
  | 2 =>
    let o := addOff (d.src % 2 ^ 22) (row.2.1 + k)
    return (s.slcTouch (d.src / 2 ^ 24) 0 sl.ctx 0 core o n, s.slices.bytes (sliceAddr (d.src / 2 ^ 24) o) n)
  | 3 =>
    let r := s.viewRing sl d.src
    return (s, (s.core core).scratch.bytes (s.ringBase sl d.src + r.entry (r.cons + row.1) + k) n)
  | _ => return (s, (List.range n).map (fun j => BitVec.ofNat 8 (d.pat / 2 ^ (8 * ((k + j) % 4)))))

/-- A range of addresses written since arming joins a channel's list of written ranges, which rise and stand apart. -/
def addRange (a b : Nat) : List (Nat × Nat) → List (Nat × Nat)
  | [] => [(a, b)]
  | (x, y) :: t =>
    if b < x then (a, b) :: (x, y) :: t
    else if y < a then (x, y) :: addRange a b t
    else addRange (min a x) (max b y) t

/-- A channel's watermark after bytes of its range were written (R319). -/
def Chan.cover (c : Chan) (kind a n : Nat) : Chan :=
  let lo := max a c.base
  let hi := min (a + n) (c.base + c.len)
  if c.armed && c.kind = kind && lo < hi then
    let l := addRange lo hi c.done
    { c with done := l, w := (match l with | (x, y) :: _ => if x = c.base then y else c.base | [] => c.base) }
  else c

/-- The channel a copy names, after bytes of an address form of its kind were written; the channels of an ended task are
gone. -/
def State.coverChan (s : State) (ch kind a n : Nat) : State :=
  if s.cur.drain then s
  else s.modMe (fun sl => { sl with chans := Tbl.set default sl.chans ch ((sl.chan ch).cover kind a n) })

/-- The channel a copy names holds the translation of the tile it writes (R158). No rule gives a copy channel a distance at which it
would translate the next one, so its next-tile register stays empty: DEDUCED (log entry 74). -/
def State.chanTile (s : State) (ch core ctx va : Nat) : State :=
  if s.cur.drain then s
  else s.modMe (fun sl => { sl with chans := Tbl.set default sl.chans ch { sl.chan ch with tile := s.tileAt core ptCOPY ctx va } })

/-- Bytes written to a slice. -/
def State.sliceWrite (s : State) (ch slice off : Nat) (bs : List Byte) : State :=
  let s := s.slcTouch slice 0 s.eSlot.ctx 1 (coreOf s.cur.u) off bs.length
  { s with slices := s.slices.store (sliceAddr slice off) bs }.coverChan ch 2 (2 ^ 24 * slice + off) bs.length

/-- A block of a row written at its destination (R311, R314, R315). -/
def dstBlock (s : State) (sl : Slot) (op : CopyOp) (d : CopyDesc) (ch : Nat) (row : Nat × Int × Int) (k : Nat)
    (bs : List Byte) : M State := do
  let core := coreOf s.cur.u
  let n := bs.length
  let s := s.count0 core 0x06 (some (s.cur.u % 4)) (ceilDiv n 32)
  match d.dk with
  | 0 =>
    let va := addOff d.dst (row.2.2 + k)
    if op = .mcast then
      let g := d.x1 % 2 ^ 16
      let t := sl.tk
      let s ← if bitOf (s.group g) 16 then do
          let s ← tensorWrite s core ptCOPY sl.ctx va bs
          pure (s.coverChan ch 0 va n)
        else pure s
      return s.sendMulticast s.cur.u 3 g sl.ctx (va / 2 ^ 52) (va % 2 ^ 52) t.seq t.interval bs
    else
      let s ← tensorWrite s core ptCOPY sl.ctx va bs
      return (s.coverChan ch 0 va n).chanTile ch core sl.ctx va
  | 1 =>
    let a := addOff d.dst (row.2.2 + k)
    let s := s.modCore core (fun c => { c with scratch := c.scratch.store (sl.alloc.spBase + a) bs })
    return s.coverChan ch 1 a n
  | 2 =>
    let off := addOff (d.dst % 2 ^ 22) (row.2.2 + k)
    match op with
    | .mcast => return (maskSlices d.x0).foldl (fun s i => s.sliceWrite ch i off bs) s
    | .place =>
      let sls := maskSlices d.x0
      return (bs.zip (List.range n)).foldl (fun s e =>
        let b := d.row * row.1 + k + e.2
        let q := b / d.pat
        s.sliceWrite ch (nth 0 sls (q % sls.length)) (d.dst % 2 ^ 22 + q / sls.length * d.pat + b % d.pat) [e.1]) s
    | _ => return s.sliceWrite ch (d.dst / 2 ^ 24) off bs
  | _ =>
    let r := s.viewRing sl d.dst
    let a := s.ringBase sl d.dst + r.entry (r.prod + row.1)
    let bs := if k + n = d.row then bs ++ zeros (r.size - d.row) else bs
    let al := sl.alloc
    let s := s.modCore core (fun c => { c with scratch := c.scratch.store (a + k) bs })
    return if al.spBase ≤ a + k && a + k + bs.length ≤ al.spBase + al.spLen then s.coverChan ch 1 (a + k - al.spBase) bs.length else s

/-- The copies on this package that each byte moved makes (R312). -/
def CopyDesc.copies (d : CopyDesc) (s : State) (op : CopyOp) : Nat :=
  if op = .mcast then
    if bitOf d.x1 16 then b2n (bitOf (s.group (d.x1 % 2 ^ 16)) 16) else (maskSlices d.x0).length
  else 1

/-- Bytes written on this package arrive at the barrier that the copy names (R312, R321). -/
def State.arriveAt (s : State) (bar : Option Nat) (n : Nat) : State :=
  match bar with
  | some b => if n = 0 then s else s.setESlot (s.eSlot.arriving s.clock b n)
  | none => s

/-- The blocks of a copy, in order (R311): the state, and why it could not go on. The bytes of a block arrive at the copy's
barrier as they are written (R312). -/
def moveBlocks (sl : Slot) (op : CopyOp) (d : CopyDesc) (ch : Nat) (bar : Option Nat) :
    State → List ((Nat × Int × Int) × Nat × Nat) → State × Option Exit
  | s, [] => (s, none)
  | s, (row, k, n) :: t =>
    match srcBlock s sl d row k n >>= (fun x => dstBlock x.1 sl op d ch row k x.2) with
    | .ok s => moveBlocks sl op d ch bar (s.arriveAt bar (n * d.copies s op)) t
    | .error e => (s, some e)

/-- The blocks of 256 bytes of every row. -/
def CopyDesc.blocks (d : CopyDesc) : List ((Nat × Int × Int) × Nat × Nat) :=
  d.rows.flatMap (fun r => (List.range (ceilDiv d.row 256)).map (fun j => (r, 256 * j, min 256 (d.row - 256 * j))))

/-! The power governor -/

/-- GOVBUD.BUDGET of a die (R477). -/
def State.budget (s : State) (die : Nat) : Nat := Tbl.get 800 s.hub.budget die
def State.usedAmps (s : State) (die : Nat) : Nat := Tbl.get 0 s.hub.used die

/-- A request for current is put behind those of earlier clocks; those of one clock stand arrays before copies, then by core
(R477). -/
def State.askAmps (s : State) (die key amps : Nat) : State :=
  if s.hub.grants.any (fun g => g.key == key) then s
  else
    let first (g : Grant) : Bool := decide (g.clock < s.clock ∨ g.clock = s.clock ∧ g.key < key)
    { s with hub := { s.hub with
        grants := s.hub.grants.filter first ++ [⟨die, key, amps, s.clock, false⟩] ++ s.hub.grants.filter (fun g => !first g) } }

/-- A granted request is taken up; the clocks it waited are counted (R317, R464). -/
def State.takeAmps (s : State) (g : Grant) (ctx core : Nat) : State :=
  { s with hub := { s.hub with grants := s.hub.grants.filter (fun x => x.key != g.key) } }.fixedAdd
    (s.fnOf ctx) 0 core (s.clock - g.clock)

/-- The current of a copy above 1 MiB (R317): the state and the amperes it holds plus one; without a grant it waits. -/
def copyAmps (s : State) (sl : Slot) (d : CopyDesc) : M (State × Nat) :=
  if d.total ≤ 2 ^ 20 then .ok (s, 0)
  else
    let core := coreOf s.cur.u
    let key := copyKey s.cur.u s.cur.drain
    let amps := 2 * (d.cls + 1)
    match s.hub.grants.find? (fun g => g.key == key && g.issued) with
    | some g => .ok (s.takeAmps g sl.ctx core, amps + 1)
    | none => .error (.redo (fun s => s.askAmps (dieOf core) key amps))

/-! The copy words -/

/-- Every package of a list can be reached (R336). -/
def needRoutes (s : State) (opnd : Nat) : List Nat → M Unit
  | [] => .ok ()
  | p :: t => do
    needRoute s p opnd
    needRoutes s opnd t

/-- The conditions and the checks of a copy at fire (R192, R316). -/
def copyCheck (op : CopyOp) (d : CopyDesc) (s : State) : M State := do
  let sl := s.eSlot
  engReady s ((sl.eng.find? (fun x => x.1 == 2)).map (·.2)) (InFlight.of s.cur s.clock)
  d.check op
  need (op ≠ .mcast || !(bitOf d.x1 16) || bitOf (s.group (d.x1 % 2 ^ 16)) 17) cPERM pRANGE d.dst
  need (!((op = .copy || op = .entry) && d.overlaps)) cILLEGAL 3 d.dst
  let far := op = .mcast && bitOf d.x1 16
  let s ← endCheck s sl op d false true
  let s ← endCheck s sl op d true (!far || bitOf (s.group (d.x1 % 2 ^ 16)) 16)
  if far then needRoutes s d.dst (s.groupPeers (s.group (d.x1 % 2 ^ 16)))
  return s

/-- The clocks from a core to a slice: by quadrant on its die, to a ring-neighbour die, to the opposite die (R152). -/
def sliceLat (core slice : Nat) : Nat :=
  let q := core % 32 / 8
  let k := slice % 16 / 4
  match (dieOf core + 4 - slice / 16) % 4 with
  | 0 => if q = k then 22 else if q + k = 3 then 34 else 28
  | 2 => 96
  | _ => 70

/-- The clocks a copy's bytes take at `r` bytes per clock, of which a copy above 1 MiB in class c gets (c + 1)/16 (R317, R331). -/
def CopyDesc.moving (d : CopyDesc) (r : Nat) : Nat :=
  if d.total ≤ 2 ^ 20 then ceilDiv d.total r else ceilDiv (16 * d.total) (r * (d.cls + 1))

/-- The clocks in which an endpoint moves a copy's bytes: its latency and its bytes per clock (R331). A tensor's die is that
of its first byte: DEDUCED (log entry 15). -/
def endClocks (s : State) (sl : Slot) (op : CopyOp) (d : CopyDesc) (wr : Bool) : Nat :=
  let core := coreOf s.cur.u
  let a := if wr then d.dst else d.src
  let slice (k : Nat) : Nat := sliceLat core k + d.moving (if k / 16 = dieOf core then 1024 else 512)
  match (if wr then d.dk else d.sk) with
  | 0 =>
    match getDesc s core ptCOPY sl.ctx (a / 2 ^ 52) a >>= (fun x => placeBytes core ptCOPY sl.ctx (a / 2 ^ 52) x.2 x.1 (a % 2 ^ 52) 1) with
    | .ok (_, [.dev p]) => dramLat core p + d.moving (if p / 2 ^ 36 = dieOf core then 512 else 256)
    | .ok (_, [.host _]) => 1000 + d.moving 64
    | _ => 0
  | 2 => if op = .mcast || op = .place then (maskSlices d.x0).foldl (fun m k => max m (slice k)) 0 else slice (a / 2 ^ 24)
  | 4 => 0
  | _ => 4 + d.moving 1024

/-- The clocks from a copy's fire to its completion, those of its slower endpoint, for an unloaded machine (R317, R331). -/
def CopyDesc.clocks (d : CopyDesc) (s : State) (sl : Slot) (op : CopyOp) : Nat :=
  12 + max (endClocks s sl op d false) (endClocks s sl op d true) + (d.n1 * d.n2 - 1)

/-- A copy that has fired: its ring pointers advance row by row, it holds the current it took, and it completes after its clocks
(R192, R317, R331). `s` is the state before its bytes move. -/
def CopyDesc.entry (d : CopyDesc) (s : State) (sl : Slot) (op : CopyOp) (amps : Nat) : InFlight :=
  { InFlight.of s.cur s.clock with
    lat := d.clocks s sl op
    advances := (if d.sk = 3 then [(d.src, false, d.n1 * d.n2)] else []) ++ (if d.dk = 3 then [(d.dst, true, d.n1 * d.n2)] else [])
    stream := d.sk = 3 || d.dk = 3
    grant := amps }

/-- A copy fires (R316): its checks, then its bytes move, then it stands in its engine. `s0` is the state before its wait was
taken, which a copy that a fault stops leaves untaken; `missed` is the trap of that wait (R322). -/
def copyFire (op : CopyOp) (d : CopyDesc) (ch : Nat) (bar : Option Nat) (missed : Option Trap)
    (fin : State → InFlight → M State) (s0 s : State) : Out :=
  let sl := s.eSlot
  match orOver missed (copyCheck op d s) >>= (fun t => copyAmps t sl d) with
  | .error e => exitEng s0 e
  | .ok (s1, amps) =>
    match moveBlocks sl op d ch bar (s1.seedTile (coreOf s.cur.u) ptCOPY sl.ctx (sl.chan ch).tile) d.blocks with
    | (s2, some e) =>
      let s2 := if 0 < amps then s2.grantBack (dieOf (coreOf s.cur.u)) (amps - 1) else s2
      exitEng (s2.setESlot { s2.eSlot with sems := s0.eSlot.sems }) e
    | (s2, none) =>
      match fin s2 (d.entry s1 sl op amps) with
      | .ok t => .next t
      | .error e => exitEng s0 e

/-- A copy word's descriptor, read at its granule when it fires (R309), once its wait is taken. -/
def copyOf (f : CD) (s : State) : M (State × CopyDesc) := do
  let t ← takeWait s s.cur.u s.cur.ctl.wait
  let a ← granAddr t.eSlot.alloc f.gran.toNat 64
  return (t, CopyDesc.parse (t.myCore.scratch.bytes a 64))

/-- A copy word. -/
def copyWord (op : CopyOp) (f : CD) (s : State) : Out :=
  let missed := overTrap s s.cur.u s.cur.ctl.wait
  match copyOf f s with
  | .error e => exitEng s (match missed, e with | some t, .trap _ => .trap t | _, e => e)
  | .ok (t, d) => copyFire op d (f.ch.toNat % 16) (if f.be then some f.bar.toNat else none) missed (fun s f => s.fire f) s t

/-- CCOPY, CFILL, CMCAST, CPLACE (R312 to R315). -/
def execCcopy (f : CD) (s : State) : Out := copyWord .copy f s
def execCfill (f : CD) (s : State) : Out := copyWord .fill f s
def execCmcast (f : CD) (s : State) : Out := copyWord .mcast f s
def execCplace (f : CD) (s : State) : Out := copyWord .place f s

/-- CBARSET (R320): set in the clock of its fire, before the arrivals of that clock; waits see it from the next clock on
(R321); it completes 2 clocks later. -/
def execCbarset (f : CK) (s : State) : Out :=
  engWord (fun s =>
    let s := s.setESlot (s.eSlot.later s.clock (.barSet f.idx.toNat f.imm.toNat))
    return (s, { InFlight.of s.cur s.clock with lat := 2 })) s

/-- CCHAN (R318): the channel block is read and the channel armed. -/
def execCchan (f : CK) (s : State) : Out :=
  engWord (fun s => do
    let a ← granAddr s.eSlot.alloc (f.imm.toNat % 2 ^ 15) 64
    let b := s.myCore.scratch.bytes a 64
    let g (o n : Nat) : Nat := leNat ((b.drop o).take n)
    let kind := g 16 1
    need (1 ≤ g 8 8 && g 8 8 ≤ 2 ^ 40 && kind ≤ 2 && g 17 47 = 0 && endForm kind (g 0 8)) cILLEGAL 3 0
    let c : Chan := ⟨true, g 0 8, g 8 8, kind, g 0 8, [], none, none⟩
    let s := if s.cur.drain then s else s.modMe (fun sl => { sl with chans := Tbl.set default sl.chans (f.idx.toNat % 16) c })
    return (s, { InFlight.of s.cur s.clock with lat := 6 })) s

/-- CCHAN.off (R318, R319): the waiting accesses go on. -/
def execCchanOff (f : CK) (s : State) : Out :=
  engWord (fun s =>
    let k := f.idx.toNat % 16
    let s := if s.cur.drain then s
      else s.modMe (fun sl => { sl with chans := Tbl.set default sl.chans k { sl.chan k with armed := false } })
    return (s, { InFlight.of s.cur s.clock with lat := 6 })) s

/-! Schedules -/

/-- CSCHED (R323, R324): the block, then the table's header and entries are read. -/
def execCsched (f : CD) (s : State) : Out :=
  engWord (fun s => do
    let sl := s.eSlot
    let a ← granAddr sl.alloc f.gran.toNat 64
    let b := s.myCore.scratch.bytes a 64
    let g (o n : Nat) : Nat := leNat ((b.drop o).take n)
    need (sl.sched.state ≠ 1 && sl.sched.state ≠ 2) cILLEGAL 3 0
    let t := sl.tk
    let rec_ := s.recF t.ctx t.launch 40 8
    let va := if g 0 8 = 0 then rec_ else g 0 8
    need (g 0 8 ≠ 0 || (bitOf (s.recF t.ctx t.launch 18 1) 1 && va ≠ 0)) cILLEGAL 3 0
    need (g 17 47 = 0 && (decSignal (g 16 1)).isSome) cILLEGAL 3 0
    let core := coreOf s.cur.u
    let (s, _) ← tensorEnd s core ptCOPY sl.ctx va 0 64 false
    let (s, h) ← tensorRead s core ptCOPY sl.ctx va 64
    let k (o n : Nat) : Nat := leNat ((h.drop o).take n)
    let e := k 2 2
    need (k 0 2 = 1 && 1 ≤ e && e ≤ 64 && 1 ≤ k 4 4 && (h.drop 8).all (· = 0)) cILLEGAL 3 0
    need (g 12 4 ≤ k 4 4) cILLEGAL 3 0
    let (s, _) ← tensorEnd s core ptCOPY sl.ctx va 0 (64 + 64 * e) false
    let (s, tab) ← tensorRead s core ptCOPY sl.ctx (va + 64) (64 * e)
    let sc : Sched := {
      state := if 0 < g 12 4 then 1 else 2, table := va, first := g 8 4, stage := 0, entry := 0, released := g 12 4,
      e := e, s := k 4 4, sig := g 16 1, ch := f.ch.toNat % 16, blk := 64 * f.gran.toNat, word := s.cur.word, tab := tab }
    let s := s.setESlot { s.eSlot with sched := sc }
    return (s, InFlight.of s.cur s.clock)) s

/-- CSTOP (R327). -/
def execCstop (s : State) : Out :=
  engWord (fun s =>
    let sl := s.eSlot
    let s := if sl.sched.state = 1 || sl.sched.state = 2 then s.setESlot { sl with sched := { sl.sched with state := 4 } } else s
    return (s, InFlight.of s.cur s.clock)) s

/-- A copy word can fire: its wait holds, its rings are ready, and its current is there (R192, R316, R317). -/
def copyCan (op : CopyOp) (f : CD) (s : State) : Bool :=
  match copyOf f s >>= (fun x => copyCheck op x.2 x.1 >>= (fun t => copyAmps t x.1.eSlot x.2)) with
  | .error (.wait _) => false
  | .error (.redo _) => false
  | _ => true

/-- The head of the slot's copy ring can fire: it comes before a schedule entry (R325). -/
def State.ringFirst (s : State) (u : Nat) (drain : Bool) : Bool :=
  let sl := s.view u drain
  s.headAt u drain 2 &&
    (let w := (s.core (coreOf u)).scratch.num (sl.cmdAddr 2 0) 8
     match decode .copy w 0 with
     | .error _ => true
     | .ok (ctl, i) =>
       let t := { s with cur := ⟨u, .copy, ctl, w, 8, drain⟩ }
       match i with
       | .ccopy f => copyCan .copy f t
       | .cfill f => copyCan .fill f t
       | .cmcast f => copyCan .mcast f t
       | .cplace f => copyCan .place f t
       | _ =>
         match takeWait t u ctl.wait with
         | .error (.wait _) => false
         | _ => true)

/-- SCHEDULE_ENTRY_FIRE (R325): the next entry of a running schedule fires as a copy, once the copy unit is free and the
ring's head cannot fire (R308). -/
def execScheduleEntryFire (s : State) : Out :=
  let u := s.occ.a
  let drain := s.occ.b = 1
  let sl := s.view u drain
  let c := sl.sched
  let k := s.core (coreOf u)
  let s := { s with cur := ⟨u, .copy, ⟨.none, .none, 0⟩, c.word, 8, drain⟩ }
  if k.stopped.isSome || k.raised.isSome || c.state ≠ 1 || c.released ≤ c.stage || s.engBusy u 2 || sl.task.isNone
      || (!drain && s.ringsHeld u) || s.ringFirst u drain then .next s
  else
    let d := CopyDesc.parse ((c.tab.drop (64 * c.entry)).take 64)
    let st := c.first + c.stage
    let e := { d with
      src := addOff d.src (st * sint 64 d.x0), dst := addOff d.dst (st * sint 64 d.x1) }
    copyFire .entry e c.ch (if bitOf d.arr 5 then some (d.arr % 32) else none) none
      (fun s f =>
        let s := s.takeTurn f
        let sl := s.eSlot
        .ok (s.setESlot { sl with eng := Tbl.put sl.eng 2 { f with words := [], signals := [], sched := true } })) s s

/-- The stages a CSTAGE releases (R326). -/
def cstageCount (s : State) (f : SI) : M Nat := do
  let a ← rdG s f.ra
  let c := f.imm.toNat % 2 ^ 16 + a.toNat
  need (c ≠ 0) cILLEGAL 3 0
  return c

/-- CSTAGE (R326): a closing word. -/
def execCstage (f : SI) (s : State) : Out :=
  closingWord (fun s => do
      let _ ← cstageCount s f
      return ())
    (fun s => do
      let n ← cstageCount s f
      return s.modMe (fun sl =>
        let c := sl.sched
        if c.state = 1 || c.state = 2 then
          let r := min (c.released + n) (2 ^ 32 - 1)
          { sl with sched := { c with released := r, state := if c.stage < r then 1 else c.state } }
        else sl)) s

/-- CSTAT (R328). -/
def execCstat (f : S3) (s : State) : Out :=
  seqWord (fun s => do
    let a := (← rdG s f.ra).toNat
    let op := f.funct.toNat % 8
    need (a < (if op ≤ 1 then 16 else if op ≤ 3 then 32 else 1)) cILLEGAL 3 0
    let sl := s.me
    let c := sl.chan a
    let v := match op with
      | 0 => c.w
      | 1 => b2n c.armed + 2 * b2n (c.base + c.len ≤ c.w) + 4 * b2n (s.waitsOn s.cur.u c)
      | 2 => (sl.bar a).word
      | 3 => (sl.bar a).word
      | 4 => sl.sched.stage % 2 ^ 32 + sl.sched.entry % 2 ^ 8 * 2 ^ 32 + sl.sched.state % 8 * 2 ^ 40
      | _ => sl.sched.released
    let s := if op = 3 then s.modMe (fun sl => sl.later s.clock (.barClear a)) else s
    wrG s f.rd (BitVec.ofNat 64 v) 2) s

/-! Governor steps -/

/-- The copy that has its current may go on in the clock of the grant (R317). -/
def State.copyOn (s : State) (key : Nat) : State :=
  if key < 1024 then s
  else s.modSlot ((key - 1024) / 8) (fun sl => { sl with
    engNext := Tbl.set 0 sl.engNext (engKey 2 (key % 2 = 1)) (min s.clock (Tbl.get 0 sl.engNext (engKey 2 (key % 2 = 1)))) })

/-- CURRENT_GRANT (R477): the oldest waiting request of a die is granted when its budget allows. -/
def execCurrentGrant (s : State) : Out :=
  let die := s.occ.a
  match s.hub.grants.find? (fun g => g.die == die && !g.issued) with
  | none => .next s
  | some g =>
    if s.usedAmps die + g.amps ≤ s.budget die then
      let s := s.copyOn g.key
      .next { s with hub := { s.hub with
        used := Tbl.set 0 s.hub.used die (s.usedAmps die + g.amps)
        grants := s.hub.grants.map (fun x => if x.key == g.key then { x with issued := true } else x) } }
    else .next s

/-- BUDGET_REBALANCE (R477): the supervisor moves current between the dies, within 12 000 A for the package. -/
def execBudgetRebalance (s : State) : Out :=
  let l := s.occ.nums.take 4
  if l.length = 4 && l.sum ≤ 12000 && l.all (· < 2 ^ 16) then
    .next { s with hub := { s.hub with budget := (l.zip (List.range 4)).foldl (fun t e => Tbl.put t e.2 e.1) s.hub.budget } }
  else .next s

end Sys2Proof.Machine
end

