-- ==== Sys2Proof/Machine/Ref.lean ====
section
/-! DEFINITION. The reference functions of 08_vector (R237 to R239): their constants and tables, the functions
themselves on FP32 codes, and the special values that bypass them. Flags are collected in a state of AFLAGS bits:
an internal rounding raises NX only, a special value met inside raises the flags its table row gives (R237). -/

namespace Sys2Proof

/-- 0.693147181 (R238). -/
def cC1 : Nat := 0x3F317218
/-- 0.240226507 (R238). -/
def cC2 : Nat := 0x3E75FDF0
/-- 0.0555041087 (R238). -/
def cC3 : Nat := 0x3D635847
/-- 1.44269504 (R238). -/
def cD1 : Nat := 0x3FB8AA3B
/-- -0.721347520 (R238). -/
def cD2 : Nat := 0xBF38AA3B
/-- 0.480898347 (R238). -/
def cD3 : Nat := 0x3EF6384F
/-- 1.12837917 (R238). -/
def cE1 : Nat := 0x3F906EBB
/-- -0.376126389 (R238). -/
def cE3 : Nat := 0xBEC093A3
/-- 0.112837917 (R238). -/
def cE5 : Nat := 0x3DE71791
/-- -0.333333333 (R238). -/
def cH3 : Nat := 0xBEAAAAAB
/-- 0.133333333 (R238). -/
def cH5 : Nat := 0x3E088889
/-- 0.3275911 (R238). -/
def cP : Nat := 0x3EA7BA05
/-- 0.254829592 (R238). -/
def cA1 : Nat := 0x3E827906
/-- -0.284496736 (R238). -/
def cA2 : Nat := 0xBE91A98E
/-- 1.421413741 (R238). -/
def cA3 : Nat := 0x3FB5F0E3
/-- -1.453152027 (R238). -/
def cA4 : Nat := 0xBFBA00E3
/-- 1.061405429 (R238). -/
def cA5 : Nat := 0x3F87DC22
/-- -1.44269504 (R238). -/
def cNL2E : Nat := 0xBFB8AA3B
/-- 2.88539008 (R238). -/
def cTL2E : Nat := 0x4038AA3B
/-- 0.707106781 (R238). -/
def cK1 : Nat := 0x3F3504F3
/-- 0.398942280 (R238). -/
def cK2 : Nat := 0x3ECC422A
/-- -1.38629436 (R238). -/
def cN2L : Nat := 0xBFB17218
/-- 2.515517 (R238). -/
def cG0 : Nat := 0x4020FE3B
/-- 0.802853 (R238). -/
def cG1 : Nat := 0x3F4D87C6
/-- 0.010328 (R238). -/
def cG2 : Nat := 0x3C2936C6
/-- 1.432788 (R238). -/
def cF1 : Nat := 0x3FB76599
/-- 0.189269 (R238). -/
def cF2 : Nat := 0x3E41CFBC
/-- 0.001308 (R238). -/
def cF3 : Nat := 0x3AAB7132
/-- 0.392699082 (R238). -/
def cLAM2 : Nat := 0x3EC90FDB

def tabT0 : List Nat := [0x3F800000, 0x3F80B1ED, 0x3F8164D2, 0x3F8218AF, 0x3F82CD87, 0x3F838359, 0x3F843A29, 0x3F84F1F6, 0x3F85AAC3, 0x3F866491, 0x3F871F62, 0x3F87DB35, 0x3F88980F, 0x3F8955EE, 0x3F8A14D5, 0x3F8AD4C6]
def tabT1 : List Nat := [0x3F8B95C2, 0x3F8C57CA, 0x3F8D1ADF, 0x3F8DDF04, 0x3F8EA43A, 0x3F8F6A81, 0x3F9031DC, 0x3F90FA4D, 0x3F91C3D3, 0x3F928E72, 0x3F935A2B, 0x3F9426FF, 0x3F94F4F0, 0x3F95C3FF, 0x3F96942D, 0x3F97657D]
def tabT2 : List Nat := [0x3F9837F0, 0x3F990B88, 0x3F99E046, 0x3F9AB62B, 0x3F9B8D3A, 0x3F9C6573, 0x3F9D3EDA, 0x3F9E196E, 0x3F9EF532, 0x3F9FD228, 0x3FA0B051, 0x3FA18FAF, 0x3FA27043, 0x3FA3520F, 0x3FA43516, 0x3FA51958]
def tabT3 : List Nat := [0x3FA5FED7, 0x3FA6E595, 0x3FA7CD94, 0x3FA8B6D5, 0x3FA9A15B, 0x3FAA8D26, 0x3FAB7A3A, 0x3FAC6897, 0x3FAD583F, 0x3FAE4934, 0x3FAF3B79, 0x3FB02F0E, 0x3FB123F6, 0x3FB21A32, 0x3FB311C4, 0x3FB40AAF]
def tabT4 : List Nat := [0x3FB504F3, 0x3FB60094, 0x3FB6FD92, 0x3FB7FBF0, 0x3FB8FBAF, 0x3FB9FCD2, 0x3FBAFF5B, 0x3FBC034A, 0x3FBD08A4, 0x3FBE0F68, 0x3FBF179A, 0x3FC0213B, 0x3FC12C4D, 0x3FC238D2, 0x3FC346CD, 0x3FC4563F]
def tabT5 : List Nat := [0x3FC5672A, 0x3FC67991, 0x3FC78D75, 0x3FC8A2D8, 0x3FC9B9BE, 0x3FCAD226, 0x3FCBEC15, 0x3FCD078C, 0x3FCE248C, 0x3FCF4319, 0x3FD06334, 0x3FD184DF, 0x3FD2A81E, 0x3FD3CCF1, 0x3FD4F35B, 0x3FD61B5E]
def tabT6 : List Nat := [0x3FD744FD, 0x3FD87039, 0x3FD99D16, 0x3FDACB94, 0x3FDBFBB8, 0x3FDD2D82, 0x3FDE60F5, 0x3FDF9613, 0x3FE0CCDF, 0x3FE2055B, 0x3FE33F89, 0x3FE47B6D, 0x3FE5B907, 0x3FE6F85B, 0x3FE8396A, 0x3FE97C38]
def tabT7 : List Nat := [0x3FEAC0C7, 0x3FEC0719, 0x3FED4F30, 0x3FEE9910, 0x3FEFE4BA, 0x3FF13231, 0x3FF28177, 0x3FF3D290, 0x3FF5257D, 0x3FF67A41, 0x3FF7D0DF, 0x3FF9295A, 0x3FFA83B3, 0x3FFBDFED, 0x3FFD3E0C, 0x3FFE9E11]
/-- T[i] = rne(2^(i/128)) for i = 0 to 127 (R238). -/
def tabT : List Nat := tabT0 ++ tabT1 ++ tabT2 ++ tabT3 ++ tabT4 ++ tabT5 ++ tabT6 ++ tabT7

def tabL0 : List Nat := [0x00000000, 0x3C37F286, 0x3CB73CB4, 0x3D08E68F, 0x3D35D69C, 0x3D626FD6, 0x3D8759C5, 0x3D9D517F, 0x3DB31FB8, 0x3DC8C50B, 0x3DDE4212, 0x3DF39761, 0x3E0462C4, 0x3E0EE68D, 0x3E19574F, 0x3E23B550]
def tabL1 : List Nat := [0x3E2E00D2, 0x3E383A17, 0x3E42615F, 0x3E4C76E8, 0x3E567AF1, 0x3E606DB6, 0x3E6A4F72, 0x3E74205F, 0x3E7DE0B6, 0x3E83C857, 0x3E88983F, 0x3E8D602E, 0x3E92203D, 0x3E96D888, 0x3E9B8926, 0x3EA03232]
def tabL2 : List Nat := [0x3EA4D3C2, 0x3EA96DF0, 0x3EAE00D2, 0x3EB28C7F, 0x3EB7110E, 0x3EBB8E96, 0x3EC0052B, 0x3EC474E4, 0x3EC8DDD4, 0x3ECD4012, 0x3ED19BB0, 0x3ED5F0C4, 0x3EDA3F60, 0x3EDE8797, 0x3EE2C97D, 0x3EE70525]
def tabL3 : List Nat := [0x3EEB3A9F, 0x3EEF69FF, 0x3EF39355, 0x3EF7B6B4, 0x3EFBD42B, 0x3EFFEBCD, 0x3F01FED4, 0x3F0404E8, 0x3F060828, 0x3F08089E, 0x3F0A0650, 0x3F0C0146, 0x3F0DF989, 0x3F0FEF1F, 0x3F11E20F, 0x3F13D260]
def tabL4 : List Nat := [0x3F15C01A, 0x3F17AB44, 0x3F1993E3, 0x3F1B7A00, 0x3F1D5DA0, 0x3F1F3ECA, 0x3F211D84, 0x3F22F9D5, 0x3F24D3C2, 0x3F26AB53, 0x3F28808C, 0x3F2A5374, 0x3F2C2411, 0x3F2DF268, 0x3F2FBE80, 0x3F31885C]
def tabL5 : List Nat := [0x3F335004, 0x3F35157D, 0x3F36D8CB, 0x3F3899F5, 0x3F3A58FF, 0x3F3C15EE, 0x3F3DD0C8, 0x3F3F8991, 0x3F41404F, 0x3F42F506, 0x3F44A7BA, 0x3F465872, 0x3F480731, 0x3F49B3FB, 0x3F4B5ED7, 0x3F4D07C7]
def tabL6 : List Nat := [0x3F4EAED0, 0x3F5053F7, 0x3F51F740, 0x3F5398AF, 0x3F553848, 0x3F56D60F, 0x3F587209, 0x3F5A0C3A, 0x3F5BA4A4, 0x3F5D3B4E, 0x3F5ED039, 0x3F60636A, 0x3F61F4E5, 0x3F6384AD, 0x3F6512C7, 0x3F669F35]
def tabL7 : List Nat := [0x3F6829FB, 0x3F69B31E, 0x3F6B3A9F, 0x3F6CC083, 0x3F6E44CD, 0x3F6FC781, 0x3F7148A1, 0x3F72C832, 0x3F744636, 0x3F75C2B0, 0x3F773DA4, 0x3F78B714, 0x3F7A2F04, 0x3F7BA578, 0x3F7D1A71, 0x3F7E8DF2]
/-- L[i] = rne(log2(1 + i/128)) for i = 0 to 127 (R238). -/
def tabL : List Nat := tabL0 ++ tabL1 ++ tabL2 ++ tabL3 ++ tabL4 ++ tabL5 ++ tabL6 ++ tabL7


/-- A computation on codes that collects AFLAGS bits. -/
abbrev FM := StateM Nat

/-- Raises flags. -/
def raise (f : Nat) : FM Unit := modify (fun a => orF a f)

/-- The exact value of an FP32 code. -/
def dv (c : Nat) : XR := fp32.dec c

/-- rne of R238: an internal rounding to FP32, which raises NX only (R237). -/
def rneI (x : XR) : FM Nat := do
  let (c, f) := fp32.rne x
  raise (f &&& fNX)
  pure c

/-- The last rounding of a function: NX, and UF when the result is tiny and inexact. -/
def rneL (x : XR) : FM Nat := do
  let (c, f) := fp32.rne x
  raise (f &&& orF fNX fUF)
  pure c

/-- fma of R238. -/
def fmaI (a b c : Nat) : FM Nat := rneI (XR.add (XR.mul (dv a) (dv b)) (dv c))
def mulI (a b : Nat) : FM Nat := rneI (XR.mul (dv a) (dv b))
def addI (a b : Nat) : FM Nat := rneI (XR.add (dv a) (dv b))

def one32 : Nat := 0x3F800000
def inf32 : Nat := 0x7F800000
def nan32 : Nat := 0x7FC00000
def half32 : Nat := 0x3F000000

/-- The code with its sign bit inverted. -/
def negC (c : Nat) : Nat := c ^^^ 0x80000000
/-- The magnitude of `c` with the sign of `x`. -/
def withSign (c x : Nat) : Nat := c % 0x80000000 + x / 0x80000000 * 0x80000000
def absC (c : Nat) : Nat := c % 0x80000000

/-- Q[i] = rne(1/(1 + i/128)) (R238). -/
def tabQ (i : Nat) : Nat := (fp32.rne (XR.div (XR.ofInt 128) (XR.ofInt (128 + i)))).1

/-- S[i] = rne((1 + (i + 0.5)/64)^(−1/2)) (R238): the root of 128/(128 + 2i + 1), the quotient taken on 2^-200. -/
def tabS (i : Nat) : Nat :=
  let d := 128 + 2 * i + 1
  let n := 128 * 2 ^ 200
  let r := XR.isqrt (n / d)
  (fp32.rne ⟨.num, false, r, -100, true, false⟩).1

/-- A nonzero number normalised as m × 2^e with 1 ≤ m < 2: the significand and the exponent. -/
def norm1 (x : XR) : XR × Int := let k := x.log2; ({ x with e := x.e - k, neg := false }, k)

/-- exp2ref of R239. -/
def exp2ref (x : Nat) : FM Nat := do
  let v := dv x
  let k := (v.scale 7).floor
  let i := (k % 128).toNat
  let n := k / 128
  let r := XR.sub v (XR.ofDy k (-7))
  let t ← rneI (XR.mul r (dv cC3))
  let t ← addI t cC2
  let t ← rneI (XR.mul (dv t) r)
  let t ← addI t cC1
  let t ← rneI (XR.mul (dv t) r)
  let ti := nth 0 tabT i
  let p ← mulI ti t
  let y ← addI ti p
  rneL ((dv y).scale n)

/-- log2ref of R239. -/
def log2ref (x : Nat) : FM Nat := do
  let (m, e) := norm1 (dv x)
  let i := ((XR.sub m (XR.ofInt 1)).scale 7).floor.toNat
  let u ← rneI (XR.mul (XR.sub m (XR.ofDy (128 + i) (-7))) (dv (tabQ i)))
  let p ← mulI u cD3
  let p ← addI p cD2
  let p ← mulI p u
  let p ← addI p cD1
  let p ← mulI p u
  let s ← addI (nth 0 tabL i) p
  rneL (XR.add (XR.ofInt e) (dv s))

/-- rcpref of R239. -/
def rcpref (x : Nat) : FM Nat := do
  let v := dv x
  let (m, e) := norm1 v
  let i := ((XR.sub m (XR.ofInt 1)).scale 7).floor.toNat
  let y := tabQ i
  let h ← rneI (XR.add (XR.mul m.flip (dv y)) (XR.ofInt 1))
  let y ← fmaI y h y
  let h ← rneI (XR.add (XR.mul m.flip (dv y)) (XR.ofInt 1))
  let y ← fmaI y h y
  let r := (dv y).scale (-e)
  rneL (if v.neg then r.flip else r)

/-- rsqref of R239. -/
def rsqref (x : Nat) : FM Nat := do
  let (m1, e1) := norm1 (dv x)
  let odd := e1 % 2 != 0
  let m := if odd then m1.scale 1 else m1
  let k := e1 / 2
  let i := ((XR.sub m (XR.ofInt 1)).scale 6).floor.toNat
  let step (y : Nat) : FM Nat := do
    let h ← rneI (XR.mul m (dv y))
    let h ← rneI (XR.add (XR.mul (dv h).flip (dv y)) (XR.ofInt 1))
    let hh ← mulI half32 h
    fmaI hh y y
  let y ← step (tabS i)
  let y ← step y
  rneL ((dv y).scale (-k))

/-- A function called inside another: its own last rounding raises NX only (R237). -/
def inner (f : FM Nat) : FM Nat := do
  let before ← get
  let r ← f
  modify (fun a => orF before (a &&& fNX))
  pure r

/-- What a signalling or quiet NaN input gives (R237, R64). -/
def nanIn (v : XR) : FM Nat := do
  if v.nv then raise fNV
  pure nan32

/-- exp2 with the special values of R237. -/
def exp2S (x : Nat) (f : FM Nat → FM Nat) : FM Nat := do
  let v := dv x
  match v.kind with
  | .nan => nanIn v
  | .inf => pure (if v.neg then 0 else inf32)
  | .num =>
    if XR.le (XR.ofInt 128) v then do raise fOF; pure inf32
    else if XR.lt v (XR.ofInt (-151)) then do raise fUF; pure 0
    else f (exp2ref x)

/-- log2 with the special values of R237. -/
def log2S (x : Nat) (f : FM Nat → FM Nat) : FM Nat := do
  let v := dv x
  match v.kind with
  | .nan => nanIn v
  | .inf => if v.neg then do raise fNV; pure nan32 else pure inf32
  | .num =>
    if v.m = 0 then do raise fDZ; pure (negC inf32)
    else if v.neg then do raise fNV; pure nan32
    else f (log2ref x)

/-- rcp with the special values of R237. -/
def rcpS (x : Nat) (f : FM Nat → FM Nat) : FM Nat := do
  let v := dv x
  match v.kind with
  | .nan => nanIn v
  | .inf => pure (withSign 0 x)
  | .num => if v.m = 0 then do raise fDZ; pure (withSign inf32 x) else f (rcpref x)

/-- rsq with the special values of R237. -/
def rsqS (x : Nat) (f : FM Nat → FM Nat) : FM Nat := do
  let v := dv x
  match v.kind with
  | .nan => nanIn v
  | .inf => if v.neg then do raise fNV; pure nan32 else pure 0
  | .num =>
    if v.m = 0 then do raise fDZ; pure (withSign inf32 x)
    else if v.neg then do raise fNV; pure nan32
    else f (rsqref x)

def lt32 (a b : Nat) : Bool := XR.lt (dv a) (dv b)

/-- erfref of R239. -/
def erfref (x : Nat) : FM Nat := do
  let s := absC x
  if lt32 s 0x3D800000 then do
    let z ← mulI x x
    let p ← fmaI z cE5 cE3
    let p ← fmaI z p cE1
    rneL (XR.mul (dv x) (dv p))
  else if !lt32 s 0x40800000 then pure (withSign one32 x)
  else do
    let d ← fmaI cP s one32
    let t ← rcpS d inner
    let q ← fmaI cA5 t cA4
    let q ← fmaI q t cA3
    let q ← fmaI q t cA2
    let q ← fmaI q t cA1
    let q ← mulI q t
    let ss ← mulI s s
    let a ← mulI ss cNL2E
    let g ← exp2S a inner
    let r ← rneL (XR.add (XR.mul (dv q).flip (dv g)) (XR.ofInt 1))
    pure (withSign r x)

/-- tanhref of R239. -/
def tanhref (x : Nat) : FM Nat := do
  let s := absC x
  if lt32 s 0x3D800000 then do
    let z ← mulI x x
    let p ← fmaI z cH5 cH3
    let xz ← mulI x z
    rneL (XR.add (XR.mul (dv xz) (dv p)) (dv x))
  else if !lt32 s 0x41100000 then pure (withSign one32 x)
  else do
    let a ← mulI s cTL2E
    let g ← exp2S a inner
    let d ← addI one32 g
    let r ← rcpS d inner
    let y ← rneL (XR.add (XR.mul (XR.ofInt (-2)) (dv r)) (XR.ofInt 1))
    pure (withSign y x)

/-- sigmref of R239. -/
def sigmref (x : Nat) : FM Nat := do
  let a ← mulI x cNL2E
  let g ← exp2S a inner
  let d ← addI one32 g
  rcpS d (fun f => f)

/-- erf and tanh with the special values of R237. -/
def erfS (x : Nat) (f : FM Nat → FM Nat) : FM Nat := do
  let v := dv x
  match v.kind with
  | .nan => nanIn v
  | .inf => pure (withSign one32 x)
  | .num => f (erfref x)

def tanhS (x : Nat) (f : FM Nat → FM Nat) : FM Nat := do
  let v := dv x
  match v.kind with
  | .nan => nanIn v
  | .inf => pure (withSign one32 x)
  | .num => f (tanhref x)

def sigmS (x : Nat) (f : FM Nat → FM Nat) : FM Nat := do
  let v := dv x
  match v.kind with
  | .nan => nanIn v
  | .inf => pure (if v.neg then 0 else one32)
  | .num => f (sigmref x)

/-- cdfref of R239, the standard normal Φ. -/
def cdfref (x : Nat) : FM Nat := do
  let a ← mulI x cK1
  let e ← erfS a inner
  let s ← addI one32 e
  mulI half32 s

/-- pdfref of R239, the standard normal φ. -/
def pdfref (x : Nat) : FM Nat := do
  let xx ← mulI x x
  let a ← mulI xx cD2
  let g ← exp2S a inner
  mulI cK2 g

/-- ginvref of R239: the Gaussian inverse of a random word. -/
def ginvref (w : Nat) : FM Nat := do
  let k : Nat := w % 2 ^ 23
  let q := (fp32.rne (XR.ofDy ((2 * k + 1 : Nat) : Int) (-25))).1
  let l ← log2S q inner
  let a ← mulI l cN2L
  let rs ← rsqS a inner
  let t ← mulI a rs
  let n1 ← fmaI cG2 t cG1
  let num ← fmaI n1 t cG0
  let d1 ← fmaI cF3 t cF2
  let d2 ← fmaI d1 t cF1
  let den ← fmaI d2 t one32
  let rd ← rcpS den inner
  let pr ← mulI num rd
  let z ← rneI (XR.sub (dv t) (dv pr))
  pure (if bitOf w 23 then z else negC z)

/-- Which transcendental (R237). -/
inductive TransFn where
  | exp2 | log2 | rcp | rsq | erf | tanh | sigm
  deriving DecidableEq, Repr

def TransFn.run (t : TransFn) (x : Nat) : FM Nat :=
  match t with
  | .exp2 => exp2S x (fun f => f)
  | .log2 => log2S x (fun f => f)
  | .rcp => rcpS x (fun f => f)
  | .rsq => rsqS x (fun f => f)
  | .erf => erfS x (fun f => f)
  | .tanh => tanhS x (fun f => f)
  | .sigm => sigmS x (fun f => f)

/-- One lane of a transcendental word (R237): widened to FP32, the function, then round_ne to the type; OF when a
finite input gives an infinite result outside the special values, UF when the rounding that gives the result is tiny
and inexact (R73; DEDUCED: log entry 2), NX when any rounding was inexact. -/
def TransFn.lane (t : TransFn) (f : Fmt) (code : Nat) : Nat × Nat :=
  let x := f.dec code
  let w := if x.isNan then (if x.nv then 0x7F800001 else nan32) else (fp32.rne x).1
  let (r, fl) := t.run w 0
  let rv := dv r
  let (c, g) := f.rne rv
  let special := fl &&& orF fDZ (orF fNV fOF)
  let ovf := if x.isNum && (f.dec c).isInf && special = 0 then fOF else 0
  let nx := (fl ||| g) &&& fNX
  let uf := (fl ||| g) &&& fUF
  (c, orF (fl &&& orF fDZ (orF fNV fOF)) (orF ovf (orF nx uf)))

end Sys2Proof
end

