-- ==== Sys2Proof/Machine/Vec.lean ====
section
/-! DEFINITION. The vector engine's words (08 R222 to R243): floating-point, integer, logic, conversion, quantisation,
permutes, reductions, transcendentals and transfers. A word's results stand in its in-flight entry until it completes. -/

namespace Sys2Proof.Machine
open Sys2Proof

/-! Elements -/

/-- Bytes of an element by its type code (R49, R222). -/
def tyBytes (t : Nat) : Nat := if t = 0 || t = 3 then 4 else if t = 1 || t = 2 || t = 4 then 2 else 1

/-- The type code names a floating-point format, and which (R49); the variant matters for FP8 only. -/
def tyFloat (t : Nat) : Bool := t ≤ 2 || t = 7
def tyFmt (t : Nat) (e5 : Bool) : Fmt := match t with | 0 => fp32 | 1 => bf16 | 2 => fp16 | _ => if e5 then e5m2 else e4m3

/-- The lanes of bytes, and back (R222). -/
def lanesOf (w : Nat) (bs : List Byte) : List Nat := (pieces w (bs.length / w) bs).map leNat
def packLanes (w : Nat) (l : List Nat) : List Byte := l.flatMap (leBytes w)

/-- The integer of a lane: unsigned for type 6, signed otherwise. -/
def laneInt (t v : Nat) : Int := if t = 6 then (v : Int) else sint (8 * tyBytes t) v

/-- The range of an integer type. -/
def tyRange (t : Nat) : Int × Int := if t = 6 then (0, 255) else (-(2 ^ (8 * tyBytes t - 1)), 2 ^ (8 * tyBytes t - 1) - 1)

/-- All ones of an element, or 0. -/
def maskLane (t : Nat) (b : Bool) : Nat := if b then 2 ^ (8 * tyBytes t) - 1 else 0

/-- A lane-wise result: the bytes and the flags raised. Operands that a word does not have are empty. -/
def laneMap (w : Nat) (a b d : List Byte) (op : Nat → Nat → Nat → Nat → Nat × Nat) : List Byte × Nat :=
  let la := lanesOf w a
  let n := la.length
  let other (x : List Byte) : List Nat := if x.isEmpty then List.replicate n 0 else lanesOf w x
  let r := ((List.range n).zip (la.zip ((other b).zip (other d)))).map (fun x => op x.1 x.2.1 x.2.2.1 x.2.2.2)
  (r.flatMap (fun x => leBytes w x.1), r.foldl (fun m x => orF m x.2) 0)

/-- Zero bytes up to 256 (R222). -/
def padVec (bs : List Byte) : List Byte := bs ++ zeros (256 - bs.length)

/-! Operands -/

/-- `n` vectors from register `reg` under a view whose base is `view` (R98): their byte address in the core's register
space. -/
def vecAddr (s : State) (view reg n : Nat) : M Nat := do
  let al := s.eSlot.alloc
  need (256 * (view + reg + n) ≤ al.regLen) cPERM pREGRANGE (256 * (view + reg))
  return al.regBase + 256 * (view + reg)

/-- Reading `len` bytes from byte `lo` of the `n` vectors of an operand (R100, R226): what the entry reads grows, and a
last-read mark clears the granules of the operand's vectors when it completes (R101). -/
def vread (s : State) (e : InFlight) (view reg n lo len : Nat) (mark : Bool) : M (InFlight × List Byte) := do
  let a ← vecAddr s view reg n
  need (s.myCore.regValid (a + lo) len) cINVREG s.cur.strm.num (256 * (view + reg) + lo)
  return ({ e with
    reads := e.reads ++ [(a + lo, len)]
    banks := e.banks ++ (List.range n).map (fun k => (view + reg + k) % 8)
    clears := if mark then e.clears ++ granules a (256 * n) else e.clears }, s.myCore.regs.bytes (a + lo) len)

/-- Writing bytes from byte `lo` of register `reg`, at the entry's completion (R224). -/
def vwrite (s : State) (e : InFlight) (view reg lo : Nat) (bs : List Byte) : M InFlight := do
  let a ← vecAddr s view reg (ceilDiv (lo + bs.length) 256)
  return { e with writes := e.writes ++ [(a + lo, bs)] }

/-- The base of VIEWV for the entry in hand. -/
def State.vv (s : State) : Nat := s.eSlot.csr.viewv.toNat

/-- A fired vector word with its latency and its clocks in the long unit (R227). -/
def State.vecEntry (s : State) (lat long : Nat) : InFlight := { InFlight.of s.cur s.clock with lat := lat, long := long }

/-- A word of format VR that reads `na` vectors from va, with vb and vd where `useB` and `useD` say so, and writes its
result from vd onward (R222, R223). -/
def vrWord (f : VR) (na : Nat) (useB useD : Bool) (lat long : Nat)
    (op : State → List Byte → List Byte → List Byte → List Byte × Nat) (s : State) : Out :=
  engWord (fun s => do
    let v := s.vv
    let (e, a) ← vread s (s.vecEntry lat long) v f.va.toNat na 0 (256 * na) f.la
    let (e, b) ← if useB then vread s e v f.vb.toNat 1 0 256 f.lb else pure (e, [])
    let (e, d) ← if useD then vread s e v f.vd.toNat 1 0 256 false else pure (e, [])
    let (r, fl) := op s a b d
    let e ← vwrite s e v f.vd.toNat 0 r
    return (s, { e with flags := fl })) s

/-- The random word of element position `j` (R228). -/
def State.vecRand (s : State) (j : Nat) : Nat :=
  let sl := s.eSlot
  let x := sl.csr.vsridx.toNat
  srWord (s.ctx sl.ctx).srkey.toNat sl.csr.vsrtid.toNat (x / 2 ^ 48) ((x % 2 ^ 48 + j) % 2 ^ 48)

/-- A rounding mode code for element position `j` (R73, R228). -/
def State.vecMode (s : State) (code j : Nat) : RMode :=
  match code with
  | 0 => .rne
  | 1 => .rtz
  | _ => .sr (s.vecRand j)

/-! Floating-point words (R229) -/

/-- A rounded arithmetic word on lanes. -/
def vecArith (f : VR) (useD : Bool) (op : XR → XR → XR → XR) (s : State) : Out :=
  let t := tyFmt f.ty.toNat false
  vrWord f 1 true useD 4 0 (fun s a b d =>
    laneMap (tyBytes f.ty.toNat) a b d (fun i x y z =>
      t.rnd (s.vecMode (f.funct.toNat % 4) i) (op (t.dec x) (t.dec y) (t.dec z)))) s

def execVadd (f : VR) (s : State) : Out := vecArith f false (fun a b _ => XR.add a b) s
def execVsub (f : VR) (s : State) : Out := vecArith f false (fun a b _ => XR.sub a b) s
def execVmul (f : VR) (s : State) : Out := vecArith f false (fun a b _ => XR.mul a b) s
def execVfma (f : VR) (s : State) : Out := vecArith f true (fun a b d => XR.add (XR.mul a b) d) s

/-- The format of a lane of a word whose funct[3] is the FP8 variant. -/
def vrFmt (f : VR) : Fmt := tyFmt f.ty.toNat (bitOf f.funct.toNat 3)

/-- A float word on lanes that does not round. -/
def vecMove (f : VR) (useB useD : Bool) (op : Fmt → Nat → Nat → Nat → Nat × Nat) (s : State) : Out :=
  vrWord f 1 useB useD 4 0 (fun _ a b d => laneMap (tyBytes f.ty.toNat) a b d (fun _ x y z => op (vrFmt f) x y z)) s

def execVmin (f : VR) (s : State) : Out := vecMove f true false (fun t x y _ => t.minMax false x y) s
def execVmax (f : VR) (s : State) : Out := vecMove f true false (fun t x y _ => t.minMax true x y) s
/-- VABS and VNEG clear or invert the sign bit; they set no flag and keep a NaN's bits. -/
def execVabs (f : VR) (s : State) : Out := vecMove f false false (fun t x _ _ => (x % t.signBit, 0)) s
def execVneg (f : VR) (s : State) : Out :=
  vecMove f false false (fun t x _ _ => ((x + t.signBit) % (2 * t.signBit), 0)) s
def execVcmp (f : VR) (s : State) : Out :=
  vecMove f true false (fun t x y _ =>
    let r := t.cmpCond (f.funct.toNat % 8) x y
    (maskLane f.ty.toNat r.1, r.2)) s
/-- VSEL reads vd as raw bits. -/
def execVsel (f : VR) (s : State) : Out := vecMove f true true (fun _ x y z => (if z ≠ 0 then x else y, 0)) s
def execVclamp (f : VR) (s : State) : Out :=
  vecMove f true true (fun t x y z =>
    let m := t.minMax true z x
    let r := t.minMax false m.1 y
    (r.1, orF m.2 r.2)) s

/-! Integer and logic words (R230, R231) -/

/-- An integer word on lanes: the operation takes the width in bits and the raw lanes. -/
def vecInt (f : VR) (useB : Bool) (lat : Nat) (op : Nat → Nat → Nat → Nat × Nat) (s : State) : Out :=
  vrWord f 1 useB false lat 0 (fun _ a b _ =>
    laneMap (tyBytes f.ty.toNat) a b [] (fun _ x y _ => op (8 * tyBytes f.ty.toNat) x y)) s

def execViadd (f : VR) (s : State) : Out := vecInt f true 2 (fun w x y => ((x + y) % 2 ^ w, 0)) s
def execVisub (f : VR) (s : State) : Out := vecInt f true 2 (fun w x y => ((x + 2 ^ w - y) % 2 ^ w, 0)) s
def execVimul (f : VR) (s : State) : Out := vecInt f true 3 (fun w x y => (x * y % 2 ^ w, 0)) s
def execVimin (f : VR) (s : State) : Out := vecInt f true 2 (fun w x y => (if sint w x ≤ sint w y then x else y, 0)) s
def execVimax (f : VR) (s : State) : Out := vecInt f true 2 (fun w x y => (if sint w y ≤ sint w x then x else y, 0)) s
def execViminu (f : VR) (s : State) : Out := vecInt f true 2 (fun _ x y => (min x y, 0)) s
def execVimaxu (f : VR) (s : State) : Out := vecInt f true 2 (fun _ x y => (max x y, 0)) s
def execVicmp (f : VR) (s : State) : Out :=
  vecInt f true 2 (fun w x y =>
    (maskLane f.ty.toNat (match f.funct.toNat % 8 with
      | 0 => x == y
      | 1 => x != y
      | 2 => sint w x < sint w y
      | 3 => sint w y ≤ sint w x
      | 4 => x < y
      | _ => y ≤ x), 0)) s
/-- A saturating result of the type (R230). -/
def satLane (t : Nat) (x : Int) : Nat × Nat :=
  let r := satInt (tyRange t).1 (tyRange t).2 x
  (toBits (8 * tyBytes t) r.1, r.2)
def execVsadd (f : VR) (s : State) : Out :=
  vecInt f true 2 (fun _ x y => satLane f.ty.toNat (laneInt f.ty.toNat x + laneInt f.ty.toNat y)) s
def execVssub (f : VR) (s : State) : Out :=
  vecInt f true 2 (fun _ x y => satLane f.ty.toNat (laneInt f.ty.toNat x - laneInt f.ty.toNat y)) s
def execVmulsh (f : VR) (s : State) : Out :=
  vecInt f true 3 (fun w x y =>
    let p := 2 * sint w x * sint w y + (if bitOf f.funct.toNat 0 then 0 else 2 ^ (w - 1))
    satLane f.ty.toNat (p.fdiv (2 ^ w))) s

def execVand (f : VR) (s : State) : Out := vecInt f true 2 (fun _ x y => (x &&& y, 0)) s
def execVor (f : VR) (s : State) : Out := vecInt f true 2 (fun _ x y => (x ||| y, 0)) s
def execVxor (f : VR) (s : State) : Out := vecInt f true 2 (fun _ x y => (x ^^^ y, 0)) s
def execVshl (f : VR) (s : State) : Out := vecInt f true 2 (fun w x y => (if w ≤ y then 0 else x * 2 ^ y % 2 ^ w, 0)) s
def execVshr (f : VR) (s : State) : Out := vecInt f true 2 (fun w x y => (if w ≤ y then 0 else x / 2 ^ y, 0)) s
def execVsar (f : VR) (s : State) : Out :=
  vecInt f true 2 (fun w x y => (toBits w ((sint w x).fdiv (2 ^ min y w)), 0)) s
def execVpopc (f : VR) (s : State) : Out := vecInt f false 2 (fun w x _ => (popCount w x, 0)) s

/-! Conversion and quantisation (R232 to R234) -/

/-- A float rounded to an integer type: a NaN gives 0, and a value outside the range its nearest limit, both with NV. -/
def toIntLane (t : Nat) (r : RMode) (x : XR) : Nat × Nat :=
  let lo := (tyRange t).1
  let hi := (tyRange t).2
  let w := 8 * tyBytes t
  if x.isNan then (0, fNV)
  else if x.isInf then (toBits w (if x.neg then lo else hi), fNV)
  else
    let (n, inx) := roundInt r x
    if n < lo then (toBits w lo, fNV) else if hi < n then (toBits w hi, fNV)
    else (toBits w n, if inx then fNX else 0)

/-- One lane of VCVT: source type and variant, destination type and variant, rounding mode. -/
def cvtLane (st : Nat) (sv : Bool) (dt : Nat) (dv : Bool) (r : RMode) (x : Nat) : Nat × Nat :=
  if tyFloat dt then
    (tyFmt dt dv).rnd r (if tyFloat st then (tyFmt st sv).dec x else XR.ofInt (laneInt st x))
  else if tyFloat st then toIntLane dt r ((tyFmt st sv).dec x)
  else satLane dt (laneInt st x)

/-- VCVT (R232): a narrowing conversion writes only part p of vd, a widening one reads only part p of va. -/
def execVcvt (f : VR) (s : State) : Out :=
  engWord (fun s => do
    let c := f.vb.toNat
    let dt := f.ty.toNat
    let st := fld c 6 3
    let sb := tyBytes st
    let db := tyBytes dt
    let l := 256 / max sb db
    let p := f.funct.toNat % 8
    let v := s.vv
    let (lo, len) := if sb < db then (p * l * sb, l * sb) else (0, 256)
    let (e, a) ← vread s (s.vecEntry 4 1) v f.va.toNat 1 lo len f.la
    let r := laneMap sb a [] [] (fun i x _ _ =>
      cvtLane st (bitOf c 5) dt (bitOf f.funct.toNat 3) (s.vecMode (fld c 3 2) (p * l + i)) x)
    let xs := (lanesOf sb a).zip (List.range l) |>.map (fun x =>
      (cvtLane st (bitOf c 5) dt (bitOf f.funct.toNat 3) (s.vecMode (fld c 3 2) (p * l + x.2)) x.1).1)
    let e ← vwrite s e v f.vd.toNat (if db < sb then p * l * db else 0) (packLanes db xs)
    return (s, { e with flags := r.2 })) s

/-- The elements of a scaled format: its element format, the exponent of its largest element, and whether it packs two
elements in a byte (R66, R233). -/
def qFmt (k : Nat) : Fmt := match k with | 1 => e4m3 | 2 => e5m2 | _ => e2m1
def qEmax (k : Nat) : Int := match k with | 1 => 8 | 2 => 15 | _ => 2
def qPack (k : Nat) (l : List Nat) : List Byte :=
  if k = 1 || k = 2 then packLanes 1 l
  else padVec ((pieces 2 128 l).map (fun p => BitVec.ofNat 8 (nth 0 p 0 + 16 * nth 0 p 1)))
def qUnpack (k : Nat) (bs : List Byte) : List Nat :=
  if k = 1 || k = 2 then bs.map (·.toNat)
  else (bs.take 128).flatMap (fun b => [b.toNat % 16, b.toNat / 16])

/-- The largest of the magnitudes of numbers. -/
def amax (l : List XR) : XR := l.foldl (fun m x => if XR.lt m x.abs then x.abs else m) XR.zero

/-- An element quotient x / d rounded once; beyond the largest finite element it saturates with OF (R233). -/
def qElem (t : Fmt) (r : RMode) (x d : XR) : Nat × Nat :=
  if XR.lt (XR.mul (t.dec t.maxFin) d.abs) x.abs then (t.sgn x.neg + t.maxFin, orF fOF fNX)
  else t.rnd r (XR.div x d)

/-- A block of 32 elements in an MX format: the scale byte, the elements, the flags (R233). -/
def mxBlock (k : Nat) (r : Nat → RMode) (b : Nat) (xs : List XR) : Nat × List Nat × Nat :=
  if xs.any (fun x => !x.isNum) then (0xFF, xs.map (fun _ => 0), fNV)
  else
    let a := amax xs
    if a.isZero then (0, xs.map (fun _ => 0), 0)
    else
      let x := a.log2 - qEmax k + 127
      let sc := if x < 0 then 0 else if 254 < x then 254 else x.toNat
      let es := (xs.zip (List.range 32)).map (fun e => qElem (qFmt k) (r (32 * b + e.2)) e.1 (XR.ofDy 1 ((sc : Int) - 127)))
      (sc, es.map (·.1), es.foldl (fun m e => orF m e.2) 0)

/-- The least E3M5 code whose value is at least a bound, at most 0xFF (R68, R233): `val` × 6 × sb against aj. -/
def leastE3m5 (below : Nat → Bool) : Nat :=
  [7, 6, 5, 4, 3, 2, 1, 0].foldl (fun c k => if below (c + 2 ^ k - 1) then c + 2 ^ k else c) 0

/-- A CF4 block of 256 elements: the block scale, the microscales, the elements, the flags (R233). -/
def cf4Block (r : Nat → RMode) (xs : List XR) : Nat × List Nat × List Nat × Nat :=
  if xs.any (fun x => !x.isNum) then (0x7FC0, List.replicate 32 0, xs.map (fun _ => 0), fNV)
  else
    let a := amax xs
    if a.isZero then (0, List.replicate 32 0, xs.map (fun _ => 0), 0)
    else
      let q := bf16.rne (XR.div a (XR.ofInt 189))
      let sb := if q.1 = 0 then 1 else q.1
      let sv := bf16.dec sb
      let bl := ((pieces 8 32 xs).zip (List.range 32)).map (fun p =>
        let aj := amax p.1
        let u := if aj.isZero then 0
          else leastE3m5 (fun c => XR.lt (XR.mul (XR.mul (e3m5.dec c) (XR.ofInt 6)) sv) aj)
        let es := (p.1.zip (List.range 8)).map (fun e =>
          if u = 0 then (0, 0) else qElem e2m1 (r (8 * p.2 + e.2)) e.1 (XR.mul (e3m5.dec u) sv))
        (u, es))
      let es := bl.flatMap (·.2)
      (sb, bl.map (·.1), es.map (·.1), es.foldl (fun m e => orF m e.2) q.2)

/-- VQNT (R233). -/
def execVqnt (f : VR) (s : State) : Out :=
  let k := f.funct.toNat % 4
  vrWord f (if f.ty = 0 then 4 else 2) false false 10 4 (fun s a _ _ =>
    let xs := (lanesOf (tyBytes f.ty.toNat) a).map (tyFmt f.ty.toNat false).dec
    let r (j : Nat) : RMode := if bitOf f.funct.toNat 3 then .sr (s.vecRand j) else .rne
    if k = 3 then
      let (sb, us, es, fl) := cf4Block r xs
      (qPack k es ++ padVec (packLanes 1 us ++ leBytes 2 sb), fl)
    else
      let bs := ((pieces 32 8 xs).zip (List.range 8)).map (fun p => mxBlock k r p.2 p.1)
      (qPack k (bs.flatMap (·.2.1)) ++ padVec (packLanes 1 (bs.map (·.1))), bs.foldl (fun m b => orF m b.2.2) 0)) s

/-- A BF16 scale is invalid (R72): an infinity, a NaN, or negative other than −0. -/
def badScale (c : Nat) : Bool := let x := bf16.dec c; !x.isNum || (x.neg && x.m ≠ 0)

/-- An element times its scale, none for an invalid one: a zero scale makes +0 (R72, R78). -/
def scaled (t : Fmt) (x : XR) (sc : Option XR) : Nat × Nat :=
  match sc with
  | none => ((t.nanRes false).1, orF fSCL fNV)
  | some v => if v.isZero then (0, 0) else t.rne (XR.mul x v)

/-- VDQNT (R234). -/
def execVdqnt (f : VR) (s : State) : Out :=
  let k := f.funct.toNat % 4
  let t := tyFmt f.ty.toNat false
  vrWord f 2 false false 6 2 (fun _ a _ _ =>
    let es := qUnpack k (a.take 256)
    let sc := a.drop 256
    let scale (i : Nat) : Option XR :=
      if k = 3 then
        let b := leNat ((sc.drop 32).take 2)
        if badScale b then none else some (XR.mul (e3m5.dec (nth 0 sc (i / 8)).toNat) (bf16.dec b))
      else
        let b := (nth 0 sc (i / 32)).toNat
        if b = 255 then none else some (XR.ofDy 1 ((b : Int) - 127))
    let r := (es.zip (List.range 256)).map (fun e => scaled t ((qFmt k).dec e.1) (scale e.2))
    (packLanes (tyBytes f.ty.toNat) (r.map (·.1)), r.foldl (fun m x => orF m x.2) 0)) s

/-! Permutes (R235) -/

def execVpermb (f : VR) (s : State) : Out :=
  vrWord f 1 true false 3 1 (fun _ a b _ => (b.map (fun x => nth 0 a x.toNat), 0)) s

/-- VNIB reads half h of va. -/
def execVnib (f : VR) (s : State) : Out :=
  engWord (fun s => do
    let (e, a) ← vread s (s.vecEntry 3 1) s.vv f.va.toNat 1 (128 * (f.funct.toNat % 2)) 128 f.la
    let ext (n : Nat) : Nat := if f.ty = 5 then toBits 8 (sint 4 n) else n
    let e ← vwrite s e s.vv f.vd.toNat 0 (packLanes 1 (a.flatMap (fun b => [ext (b.toNat % 16), ext (b.toNat / 16)])))
    return (s, e)) s

/-- VBCAST reads lane k of va. -/
def execVbcast (f : VX) (s : State) : Out :=
  engWord (fun s => do
    let w := tyBytes f.ty.toNat
    let (e, a) ← vread s (s.vecEntry 3 1) s.vv f.va.toNat 1 (w * (f.imm.toNat % 256)) w false
    let e ← vwrite s e s.vv f.vd.toNat 0 (List.replicate (256 / w) a).flatten
    return (s, e)) s

def execVshuf (f : VR) (s : State) : Out :=
  vrWord f 1 true false 3 1 (fun _ a b _ =>
    let w := tyBytes f.ty.toNat
    let la := lanesOf w a
    (packLanes w ((lanesOf w b).map (fun n => nth 0 la n)), 0)) s

/-- VCOMP packs the lanes whose bit of vb is set. -/
def execVcomp (f : VR) (s : State) : Out :=
  vrWord f 1 true false 4 1 (fun _ a b _ =>
    let w := tyBytes f.ty.toNat
    let m := leNat b
    let kept := ((lanesOf w a).zip (List.range (256 / w))).filter (fun e => bitOf m e.2)
    (padVec (packLanes w (kept.map (·.1))), 0)) s

def execViota (f : VX) (s : State) : Out :=
  engWord (fun s => do
    let w := tyBytes f.ty.toNat
    let l := (List.range (256 / w)).map (fun (i : Nat) => toBits (8 * w) (sint 15 f.imm.toNat + (i : Nat)))
    let e ← vwrite s (s.vecEntry 3 1) s.vv f.vd.toNat 0 (packLanes w l)
    return (s, e)) s

/-! Reductions and scans (R236) -/

/-- A float lane widened exactly to FP32. -/
def widen (t : Fmt) (c : Nat) : Nat × Nat := fp32.rne (t.dec c)

def execVrsum (f : VR) (s : State) : Out :=
  vrWord f 1 false false 8 2 (fun _ a _ _ =>
    let t := f.ty.toNat
    let l := lanesOf (tyBytes t) a
    if tyFloat t then
      let ws := l.map (widen (vrFmt f))
      let r := treeSum (Nat.log2 l.length) (ws.map (·.1))
      (padVec (leBytes 4 r.1), ws.foldl (fun m x => orF m x.2) r.2)
    else (padVec (leBytes 4 (toBits 32 ((l.map (laneInt t)).sum))), 0)) s

/-- The extreme lane of VRMAX and VRMIN. -/
def laneExtreme (f : VR) (mx : Bool) (l : List Nat) : Nat × Nat :=
  let t := f.ty.toNat
  match l with
  | [] => (0, 0)
  | x :: rest =>
    if tyFloat t then rest.foldl (fun m y => let r := (vrFmt f).minMax mx m.1 y; (r.1, orF m.2 r.2)) (x, 0)
    else (rest.foldl (fun m y =>
      if (if mx then laneInt t m < laneInt t y else laneInt t y < laneInt t m) then y else m) x, 0)

def execVrmax (f : VR) (s : State) : Out :=
  vrWord f 1 false false 8 2 (fun _ a _ _ =>
    let w := tyBytes f.ty.toNat
    let r := laneExtreme f true (lanesOf w a)
    (padVec (leBytes w r.1), r.2)) s
def execVrmin (f : VR) (s : State) : Out :=
  vrWord f 1 false false 8 2 (fun _ a _ _ =>
    let w := tyBytes f.ty.toNat
    let r := laneExtreme f false (lanesOf w a)
    (padVec (leBytes w r.1), r.2)) s

/-- VRARGMAX: NaN lanes are ignored, and +0 counts above −0. -/
def execVrargmax (f : VR) (s : State) : Out :=
  vrWord f 1 false false 8 2 (fun _ a _ _ =>
    let t := f.ty.toNat
    let l := lanesOf (tyBytes t) a
    let less (x y : Nat) : Bool :=
      if tyFloat t then
        let p := (vrFmt f).dec x
        let q := (vrFmt f).dec y
        if p.isZero && q.isZero then p.neg && !q.neg else XR.lt p q
      else laneInt t x < laneInt t y
    let best := (l.zip (List.range l.length)).foldl (fun (m : Option (Nat × Nat)) e =>
      if tyFloat t && (vrFmt f).isNan e.1 then m
      else match m with
        | none => some e
        | some b => if less b.1 e.1 then some e else m) none
    let fl := if tyFloat t && l.any (fun x => ((vrFmt f).dec x).nv) then fNV else 0
    match best with
    | some (v, i) => (padVec (leBytes 4 i ++ leBytes 4 v), fl)
    | none => (padVec (leBytes 4 0xFFFFFFFF ++ leBytes 4 ((vrFmt f).nanRes false).1), fl)) s

/-- The running sums of VSCAN, one lane at a time. -/
def scanSums (float : Bool) : Option Nat → List Nat → List (Nat × Nat)
  | _, [] => []
  | acc, x :: t =>
    let r : Nat × Nat :=
      if float then
        match acc with
        | none => fp32.rne (fp32.dec x)
        | some a => fp32.rne (XR.add (fp32.dec a) (fp32.dec x))
      else ((acc.getD 0 + x) % 2 ^ 32, 0)
    r :: scanSums float (some r.1) t

def execVscan (f : VR) (s : State) : Out :=
  vrWord f 1 false false 10 2 (fun _ a _ _ =>
    let l := lanesOf 4 a
    let excl := bitOf f.funct.toNat 0
    let r := scanSums (f.ty == 0) none (if excl then l.dropLast else l)
    (packLanes 4 ((if excl then [0] else []) ++ r.map (·.1)), r.foldl (fun m x => orF m x.2) 0)) s

def execVmaskb (f : VR) (s : State) : Out :=
  vrWord f 1 false false 3 1 (fun _ a _ _ =>
    let l := lanesOf (tyBytes f.ty.toNat) a
    let n := l.foldr (fun x m => 2 * m + b2n (x ≠ 0)) 0
    (padVec (leBytes (l.length / 8) n), 0)) s

/-! Transcendentals (R237) -/

/-- A transcendental word on lanes. -/
def vecTrans (f : VR) (t : TransFn) (lat : Nat) (s : State) : Out :=
  vrWord f 1 false false lat 2 (fun _ a _ _ =>
    laneMap (tyBytes f.ty.toNat) a [] [] (fun _ x _ _ => t.lane (tyFmt f.ty.toNat false) x)) s

def execVexp2 (f : VR) (s : State) : Out := vecTrans f .exp2 14 s
def execVlog2 (f : VR) (s : State) : Out := vecTrans f .log2 16 s
def execVrcp (f : VR) (s : State) : Out := vecTrans f .rcp 12 s
def execVrsq (f : VR) (s : State) : Out := vecTrans f .rsq 14 s
def execVerf (f : VR) (s : State) : Out := vecTrans f .erf 32 s
def execVtanh (f : VR) (s : State) : Out := vecTrans f .tanh 32 s
def execVsigm (f : VR) (s : State) : Out := vecTrans f .sigm 30 s

/-! Transfers (R241, R242) -/

/-- The scratchpad bytes an entry reads or writes, for the test of R225. -/
def spRange (a n : Nat) : Nat × Nat := (2 ^ 32 + a, n)

def execVld (f : VM) (s : State) : Out :=
  engWord (fun s => do
    let n := f.cnt.toNat + 1
    let a ← granAddr s.eSlot.alloc f.gran.toNat (256 * n)
    watermark s s.eSlot.ctx 1 (64 * f.gran.toNat) (256 * n)
    let e ← vwrite s (s.vecEntry (4 + n) n) s.vv f.vd.toNat 0 (s.myCore.scratch.bytes a (256 * n))
    return (s, { e with reads := e.reads ++ [spRange a (256 * n)] })) s

def execVst (f : VM) (s : State) : Out :=
  engWord (fun s => do
    let n := f.cnt.toNat + 1
    let a ← granAddr s.eSlot.alloc f.gran.toNat (256 * n)
    let (e, bs) ← vread s (s.vecEntry (4 + n) n) s.vv f.vd.toNat n 0 (256 * n) false
    watermark s s.eSlot.ctx 1 (64 * f.gran.toNat) (256 * n)
    return (s, { e with banks := [], writes := e.writes ++ [(2 ^ 32 + a, bs)] })) s

def execVzero (f : VM) (s : State) : Out :=
  engWord (fun s => do
    let n := f.cnt.toNat + 1
    let e ← vwrite s (s.vecEntry (1 + n) n) s.vv f.vd.toNat 0 (zeros (256 * n))
    return (s, e)) s

/-- Popping `k` entries of an operand queue: the queue must be bound to the slot, and its entries have arrived (R342). -/
def oqPop (s : State) (q k : Nat) : M (List (List Byte)) := do
  let oq := Tbl.get default s.myCore.oqs q
  need (oq.bound = some s.cur.u) cILLEGAL 11 0
  let c := match s.eSlot.eng.find? (fun x => x.1 == engNum s.cur.strm) with
    | some (_, f) => ((f.oqs.filter (fun x => x.1 == q)).map (·.2)).sum
    | none => 0
  if k ≤ oq.entries.length - c then return (oq.entries.drop c).take k else .error (.wait (s.clock + 1))

/-- The bytes of `k` entries of a data ring from its consumer pointer, and where each stands. -/
def ringBytes (s : State) (n : Nat) (r : Ring) (k : Nat) : List (Nat × List Byte) :=
  (List.range k).map (fun j =>
    let a := s.ringBase s.eSlot n + r.entry (r.cons + j)
    (a, s.myCore.scratch.bytes a r.size))

def execVldr (f : VX) (s : State) : Out :=
  engWord (fun s => do
    let i := f.imm.toNat
    let n := i % 32
    let k := fld i 6 6 + 1
    if bitOf i 5 then
      let es ← oqPop s n k
      let e ← vwrite s (s.vecEntry (4 + k) k) s.vv f.vd.toNat 0 es.flatten
      return (s, { e with oqs := [(n, k)] })
    else
      let r ← ringIn s n k
      let c := ceilDiv r.size 256
      let bs := ringBytes s n r k
      bs.forM (fun b => spMark s b.1 r.size)
      let e ← (bs.zip (List.range k)).foldlM (fun e b => vwrite s e s.vv (f.vd.toNat + c * b.2) 0 b.1.2)
        (s.vecEntry (4 + k * c) (k * c))
      return (s, { e with reads := bs.map (fun b => spRange b.1 r.size), advances := [(n, false, k)], stream := true })) s

def execVstr (f : VX) (s : State) : Out :=
  engWord (fun s => do
    let i := f.imm.toNat
    let n := i % 32
    let k := fld i 6 6 + 1
    let r ← ringOut s n k
    let c := ceilDiv r.size 256
    let (e, out) ← (List.range k).foldlM (fun (x : InFlight × List (Nat × List Byte)) j => do
      let (e, bs) ← vread s x.1 s.vv (f.vd.toNat + c * j) c 0 r.size false
      return (e, x.2 ++ [(s.ringBase s.eSlot n + r.entry (r.prod + j), bs)])) (s.vecEntry (4 + k * c) (k * c), [])
    out.forM (fun o => spMark s o.1 r.size)
    return (s, { e with
      banks := [], writes := e.writes ++ out.map (fun o => (2 ^ 32 + o.1, o.2)), advances := [(n, true, k)], stream := true })) s

/-- The offsets of VGATH and VSCAT, checked (R242), as scratchpad addresses. -/
def gatherAddrs (s : State) (w : Nat) (b : List Byte) : M (List Nat) := do
  let al := s.eSlot.alloc
  let os := lanesOf 4 b
  os.forM (fun o => need (o % w = 0) cALIGN 0 o)
  os.forM (fun o => need (o + w ≤ al.spLen) cPERM pRANGE o)
  os.forM (fun o => watermark s s.eSlot.ctx 1 o w)
  return os.map (al.spBase + ·)

def execVgath (f : VR) (s : State) : Out :=
  engWord (fun s => do
    let w := tyBytes f.ty.toNat
    let (e, b) ← vread s (s.vecEntry 8 4) s.vv f.vb.toNat 1 0 256 f.lb
    let as_ ← gatherAddrs s w b
    let e ← vwrite s e s.vv f.vd.toNat 0 (padVec (as_.flatMap (fun a => s.myCore.scratch.bytes a w)))
    return (s, { e with reads := e.reads ++ as_.map (fun a => spRange a w) })) s

def execVscat (f : VR) (s : State) : Out :=
  engWord (fun s => do
    let w := tyBytes f.ty.toNat
    let (e, a) ← vread s (s.vecEntry 8 4) s.vv f.va.toNat 1 0 (64 * w) f.la
    let (e, b) ← vread s e s.vv f.vb.toNat 1 0 256 f.lb
    let as_ ← gatherAddrs s w b
    return (s, { e with writes := e.writes ++ (as_.zip (pieces w 64 a)).map (fun x => (2 ^ 32 + x.1, x.2)) })) s

/-- VMOV copies 256 bytes bit for bit (R241). -/
def execVmov (f : VR) (s : State) : Out := vrWord f 1 false false 2 0 (fun _ a _ _ => (a, 0)) s

end Sys2Proof.Machine
end

