-- ==== Sys2Proof/Machine/Access.lean ====
section
/-! DEFINITION. The access core's words (14 R341 to R362): operand queues and their streams, remote reads, writes and
atomics, multicast writes, fences, and the words of bulk messages. -/

namespace Sys2Proof.Machine
open Sys2Proof

/-! Message descriptors' checks -/

def sendOk (b : List Byte) : Bool :=
  1 ≤ sdSize b && sdSize b ≤ 2 ^ 24 && sdSlot b < 1024 && sdPkg b < 81 && sdKind b ≤ 1 && sdPrefix b ≤ 2
    && (b.drop 25).all (· = 0) && (sdKind b = 0 || endForm 2 (sdSrc b))

def recvOk (b : List Byte) : Bool :=
  1 ≤ rdCap b && rdCap b ≤ 2 ^ 24 && rdKind b ≤ 1 && !bitOf (rdSem b) 6 && (b.drop 24).all (· = 0)
    && (rdKind b = 0 || endForm 2 (rdDst b))

/-- A message's end in memory (R355, R316): a tensor range homed here, or a slice range. -/
def msgEnd (s : State) (core ctx kind a n : Nat) (wr : Bool) : M State := do
  if kind = 1 then
    need (a % 2 ^ 22 + n ≤ 0x300000) cPERM pRANGE a
    return s
  else
    let (s, d) ← tensorEnd s core ptACC ctx a 0 n wr
    need (!wr || a / 2 ^ 52 ≠ 4095 || tableWrOk (a % 2 ^ 52) n) cPERM pRDONLY a
    need (!d.partd || (List.range n).all (fun k => d.home s.fab.pkg (d.pos (a % 2 ^ 52 + k) / 65536) = s.fab.pkg)) cPERM pSPACE a
    return s

/-- The check of a status word's address. -/
def statusEnd (s : State) (core ctx va : Nat) : M State := if va = 0 then .ok s else msgEnd s core ctx 0 va 8 true

/-! Access descriptors -/

/-- An access descriptor (R344). -/
structure AccDesc where
  addr : Nat
  stride : Int
  list : Nat
  loc : Nat
  opnd : Nat
  bytes : Nat
  mode : Nat
  pkg : Nat
  group : Nat
  deriving DecidableEq, Repr, Inhabited

def AccDesc.parse (b : List Byte) : AccDesc :=
  ⟨dfld b 0 8, sint 64 (dfld b 8 8), dfld b 16 2, dfld b 18 2, dfld b 20 2, dfld b 22 2, dfld b 24 1, dfld b 25 1, dfld b 26 2⟩

def AccDesc.isList (d : AccDesc) : Bool := bitOf d.mode 0
def AccDesc.toSp (d : AccDesc) : Bool := bitOf d.mode 1
def AccDesc.expl (d : AccDesc) : Bool := bitOf d.mode 2

/-- The words with an access descriptor. -/
inductive AccOp where
  | aqld | rld | rst | atom | mcst
  deriving DecidableEq, Repr, Inhabited

/-- A descriptor's own rules (R52, R344): reserved fields, then field values. -/
def needDesc (b : List Byte) (op : AccOp) : M AccDesc := do
  let d := AccDesc.parse b
  need (d.list < 2 ^ 15 && d.loc < 2 ^ 15 && d.opnd < 2 ^ 15 && d.mode < 8 && d.pkg < 128 && (d.expl || d.pkg = 0)
    && (b.drop 28).all (· = 0)) cILLEGAL 2 0
  need (d.pkg < 81 && (op = .rld || !d.toSp)
    && (if op = .atom then d.bytes = 0 else 8 ≤ d.bytes && d.bytes ≤ 256 && d.bytes % 8 = 0)
    && (match op with | .aqld => !d.isList | .mcst => !d.isList && !d.expl | _ => true)) cILLEGAL 3 0
  return d

/-- The 64 bytes of a descriptor at a granule (R344). -/
def readGran (s : State) (gran : Nat) : M (List Byte) := do
  let a ← granAddr s.eSlot.alloc gran 64
  return s.myCore.scratch.bytes a 64

/-- The addresses of `n` entries (R345). -/
def AccDesc.addrs (s : State) (d : AccDesc) (n : Nat) : M (List Nat) := do
  if d.isList then
    let a ← granAddr s.eSlot.alloc d.list (8 * n)
    return (List.range n).map (fun j => s.myCore.scratch.num (a + 8 * j) 8)
  else return (List.range n).map (fun (j : Nat) => toBits 64 ((d.addr : Int) + (j : Int) * d.stride))

/-- The checks of an entry of `n` bytes (R345, R137, R338): alignment, one aligned 256-byte block, the descriptor of the
context's tensor, the write rules; and where its home is. An explicit package checks its own tables. -/
def entryHome (s : State) (d : AccDesc) (a n : Nat) (wr : Bool) : M (State × Option Nat) := do
  need (a % 8 = 0) cALIGN 0 a
  need (a % 256 + n ≤ 256) cPERM pRANGE a
  if d.expl && d.pkg ≠ s.fab.pkg then
    needRoute s d.pkg a
    return (s, some d.pkg)
  else
    let (s, t) ← openTensor s (coreOf s.cur.u) ptACC s.eSlot.ctx a n wr
    let h := t.home s.fab.pkg (t.pos (a % 2 ^ 52) / 65536)
    if h = s.fab.pkg then return (s, none)
    else
      need (!t.hosted) cPERM pSPACE a
      needRoute s h a
      return (s, some h)

/-- Every entry's home, checked before any access is made (R345). -/
def entryHomes (d : AccDesc) (n : Nat) (wr : Bool) : State → List Nat → M (State × List (Nat × Option Nat))
  | s, [] => .ok (s, [])
  | s, a :: t => do
    let (s, h) ← entryHome s d a n wr
    let (s, l) ← entryHomes d n wr s t
    return (s, (a, h) :: l)

/-- The access core's accesses wait on a watermark (R319): tensor bytes, and bytes of the slot's scratchpad. -/
def accMarks (s : State) (es : List (Nat × Nat)) (sp : List (Nat × Nat)) : M Unit := do
  es.forM (fun e => watermark s s.eSlot.ctx 0 e.1 e.2)
  sp.forM (fun e => spMark s e.1 e.2)

/-! Operand queues -/

def State.oq (s : State) (core q : Nat) : OQ := Tbl.get default (s.core core).oqs q
def State.setOq (s : State) (core q : Nat) (x : OQ) : State :=
  s.modCore core (fun c => { c with oqs := Tbl.set default c.oqs q x })

/-- An operand queue of the slot in hand (R342). -/
def myOq (s : State) (q : Nat) : M OQ := do
  let x := s.oq (coreOf s.cur.u) q
  need (x.bound = some s.cur.u) cILLEGAL 11 0
  return x

/-- Room of a queue for entries issued. -/
def OQ.room (x : OQ) : Nat := 64 - x.entries.length - x.flight.length

/-- Entries become visible in the order they were issued, once they have arrived (R342). -/
def OQ.settle (x : OQ) : OQ :=
  let done := x.flight.takeWhile (fun e => e.2.isSome)
  { x with
    entries := x.entries ++ done.filterMap (·.2), prod := (x.prod + done.length) % 2 ^ 32
    flight := x.flight.drop done.length }

/-- An entry's bytes, zero beyond (R343, R346). -/
def oqEntry (bs : List Byte) : List Byte := bs ++ zeros (256 - bs.length)

/-- The bytes of a remote address that the core's remote cache holds (R340). -/
def State.rcBytes (s : State) (core pkg ctx va n : Nat) : List (Option Byte) :=
  match (s.core core).rcFind pkg ctx (va / 2 ^ 52 % 4096) (va % 2 ^ 52 / 256) with
  | some l => (List.range n).map (fun k => (l.data.find? (fun e => e.1 == va % 256 + k)).map (·.2))
  | none => List.replicate n none

/-- A read packet for bytes of a tensor (R337). -/
def State.sendRead (s : State) (u strm pkg ctx va n : Nat) (r : Req) : State × Nat :=
  let tid := va / 2 ^ 52 % 4096
  let (tag, s) := s.newReq r
  let (q, s) := s.nextFseq (flowKey u strm pkg tid)
  (s.sendFlow (flowKey u strm pkg tid) { s.pkt 0x01 pkg ctx with
    score := u / 4, sslot := u % 4, tensor := tid, fseq := q, offset := va % 2 ^ 52, tag := tag, operand := BitVec.ofNat 64 n }, tag)

/-- The next entry of a queue is read (R343, R346): here at once, elsewhere from the remote cache or by a packet. -/
def oqRead (s : State) (u q a n : Nat) (home : Option Nat) : M (State × Option Nat) := do
  let core := coreOf u
  let ctx := s.eSlot.ctx
  let s := s.count0 core 0x07 (some (u % 4)) 1
  let push (s : State) (e : Nat × Option (List Byte)) : State :=
    let x := s.oq core q
    s.setOq core q { x with flight := x.flight ++ [e] }.settle
  match home with
  | none => do
    let (s, bs) ← tensorRead s core ptACC ctx a n
    return (push s (0, some (oqEntry bs)), none)
  | some pkg =>
    match (s.rcBytes core pkg ctx a n).mapM id with
    | some bs => return (push s (0, some (oqEntry bs)), none)
    | none =>
      let (s, tag) := s.sendRead u 4 pkg ctx a n (.toOq u q pkg a n)
      return (push s (tag, none), some tag)

/-- AQCFG (R343). -/
def execAqcfg (f : AQ) (s : State) : Out :=
  engWord (fun s => do
    let core := coreOf s.cur.u
    let q := f.oq.toNat
    let x := s.oq core q
    need (x.bound.isNone || x.bound = some s.cur.u) cILLEGAL 11 0
    let d := fld f.imm.toNat 0 11
    let x := if x.bound.isSome then { x with dist := d } else { (default : OQ) with bound := some s.cur.u, dist := d }
    return (s.setOq core q x, InFlight.of s.cur s.clock)) s

/-- A stream starts (R343). `pkg` is the explicit package plus one, 0 where the home follows R88. -/
def State.aqStart (s : State) (u q n : Nat) (d : AccDesc) : State :=
  let core := coreOf u
  s.setOq core q { s.oq core q with
    addr := d.addr, stride := toBits 64 d.stride, bytes := d.bytes, left := n, pkg := if d.expl then d.pkg + 1 else 0 }

/-- AQLD (R343): behind an earlier stream of the queue it waits, fired. -/
def execAqld (f : AQ) (s : State) : Out :=
  engWord (fun s => do
    let b ← readGran s f.gran.toNat
    let d ← needDesc b .aqld
    let n := f.imm.toNat
    let x ← myOq s f.oq.toNat
    let as_ ← d.addrs s n
    let (s, _) ← entryHomes d d.bytes false s as_
    let e := InFlight.of s.cur s.clock
    if x.left ≠ 0 then return (s, { e with waits := [0], desc := b })
    else return (s.aqStart s.cur.u f.oq.toNat n d, e)) s

/-- AQSTOP (R343). -/
def execAqstop (f : AQ) (s : State) : Out :=
  engWord (fun s => do
    let x ← myOq s f.oq.toNat
    let x := { x with left := 0, flight := [], entries := [], cons := x.prod }
    return (s.setOq (coreOf s.cur.u) f.oq.toNat (if bitOf f.imm.toNat 0 then default else x), InFlight.of s.cur s.clock)) s

/-- Near the end of its tile a forward stream translates the next one into its register; a tile that is not resident raises
nothing (R158, R343). -/
def State.lookAhead (s : State) (core ctx va dist : Nat) (stride : Int) : State :=
  let ahead := va + 64 * dist
  if dist ≠ 0 && 0 < stride && ahead / 2 ^ 52 = va / 2 ^ 52 then
    match getDesc s core ptACC ctx (va / 2 ^ 52) va with
    | .ok (t, ds) =>
      if ahead % 2 ^ 52 < ds.size then
        match placeByte t core ptACC ctx (va / 2 ^ 52) ds (ahead % 2 ^ 52) with
        | .ok (t, _) => t
        | .error _ => s
      else s
    | .error _ => s
  else s

/-- AQ_STREAM_ENTRY (R343): a running stream issues its next entry when its queue has room, by its tile registers where they hold
its tile (R158). A tile fault aborts the task; any other fault stops the core and names stream 4. -/
def execAqStreamEntry (s : State) : Out :=
  let core := s.occ.a % 128
  let q := s.occ.b % 8
  let x := s.oq core q
  match x.bound with
  | none => .next s
  | some u =>
    let drain := (s.slot u).task.isNone
    let s0 := { s with cur := ⟨u, .acc, ⟨.none, .none, 0⟩, 0, 8, drain⟩ }
    if (s.core core).stopped.isSome || x.left = 0 || x.room = 0 || s0.eSlot.task.isNone then .next s
    else
      let d : AccDesc := { (default : AccDesc) with mode := if x.pkg = 0 then 0 else 4, pkg := x.pkg - 1 }
      let ctx := s0.eSlot.ctx
      let step : M State := do
        let (s, h) ← entryHome ((s0.seedTile core ptACC ctx x.tile).seedTile core ptACC ctx x.nextTile) d x.addr x.bytes false
        accMarks s [(x.addr, x.bytes)] []
        let (s, _) ← oqRead s u q x.addr x.bytes h
        let y := s.oq core q
        let s := s.setOq core q { y with addr := toBits 64 (x.addr + sint 64 x.stride), left := x.left - 1 }
        if h.isSome then return s
        else
          let s := s.lookAhead core ctx x.addr x.dist (sint 64 x.stride)
          let here := s.tileAt core ptACC ctx (x.addr + x.bytes - 1)
          let next := s.tileAt core ptACC ctx (x.addr + 64 * x.dist)
          return s.setOq core q { s.oq core q with tile := here, nextTile := if next = here then none else next }
      match step with
      | .ok t => .next t
      | .error (.trap t) => .next (s.coreStop u .acc { t with opnd := x.addr } 0 drain)
      | .error (.redo g) => .next (g s0)
      | .error (.wait _) => .next s
      | .error e => exitEng s0 e

/-! Remote access words -/

/-- A word whose entries are performed one after another: what came of it, entries already performed standing (R347,
R348). -/
def accDone (s0 : State) (r : State × Option Exit × InFlight) : Out :=
  match r with
  | (s, some e, _) => exitEng (s.setView s.cur.u s.cur.drain { s.eSlot with sems := s0.eSlot.sems }) e
  | (s, none, f) =>
    match s.fire f with
    | .ok t => .next t
    | .error e => exitEng s0 e

/-- The frame of such a word: the wait, the checks, then the entries. -/
def accWord (check : State → M (State × α)) (act : State → α → State × Option Exit × InFlight) (s : State) : Out :=
  match takeWait s s.cur.u s.cur.ctl.wait >>= check with
  | .error e => exitEng s e
  | .ok (t, x) => accDone s (act t x)

/-- Entries in order until one cannot go on. -/
def runEntries {β : Type} (step : State → InFlight → β → M (State × InFlight)) : State → InFlight → List β → State × Option Exit × InFlight
  | s, f, [] => (s, none, f)
  | s, f, e :: t =>
    match step s f e with
    | .ok (s, f) => runEntries step s f t
    | .error x => (s, some x, f)

/-- The scratchpad addresses of entries in LOCAL: `w` bytes every `k` (R345). -/
def localAddrs (s : State) (gran n w k : Nat) : M (List Nat) := do
  let a ← granAddr s.eSlot.alloc gran (k * (n - 1) + w)
  return (List.range n).map (fun j => a + k * j)

/-- RLD (R346). -/
def execRld (f : AR) (s : State) : Out :=
  let n := f.cnt.toNat + 1
  accWord (fun s => do
      let d ← needDesc (← readGran s f.gran.toNat) .rld
      need (!d.toSp || f.oq = 0) cILLEGAL 2 0
      let sp ← if d.toSp then localAddrs s d.loc n d.bytes 256 else pure []
      if !d.toSp then
        let x ← myOq s f.oq.toNat
        need (x.left = 0) cILLEGAL 11 0
        if x.room < n then .error (.wait (s.clock + 1))
      let as_ ← d.addrs s n
      let (s, es) ← entryHomes d d.bytes false s as_
      accMarks s (as_.map (fun a => (a, d.bytes))) (sp.map (fun a => (a, d.bytes)))
      return (s, (d, (es.zip (sp ++ List.replicate n 0)))))
    (fun s x =>
      let d := x.1
      let u := s.cur.u
      let core := coreOf u
      runEntries (fun s g (e : (Nat × Option Nat) × Nat) => do
        let (a, h) := e.1
        if !d.toSp then
          let (s, tag) ← oqRead s u f.oq.toNat a d.bytes h
          return (s, { g with waits := g.waits ++ tag.toList })
        else
          let s := s.count0 core 0x07 (some (u % 4)) 1
          let put (s : State) (bs : List Byte) : State := s.modCore core (fun c => { c with scratch := c.scratch.store e.2 bs })
          match h with
          | none => do
            let (s, bs) ← tensorRead s core ptACC s.eSlot.ctx a d.bytes
            return (put s bs, g)
          | some pkg =>
            match (s.rcBytes core pkg s.eSlot.ctx a d.bytes).mapM id with
            | some bs => return (put s bs, g)
            | none =>
              let (s, tag) := s.sendRead u 4 pkg s.eSlot.ctx a d.bytes (.toSp u e.2 pkg a d.bytes)
              return (s, { g with waits := g.waits ++ [tag] }))
        s (InFlight.of s.cur s.clock) x.2) s

/-- A remote write of the access core updates a resident line as well (R340). -/
def State.rcUpdate (s : State) (core pkg ctx va : Nat) (bs : List Byte) : State :=
  let hit (l : RLine) : Bool := l.at pkg ctx (va / 2 ^ 52 % 4096) (va % 2 ^ 52 / 256)
  s.modCore core (fun c => { c with rcache := c.rcache.map (fun l =>
    if hit l then
      { l with data := (bs.zip (List.range bs.length)).foldl (fun d e => Tbl.put d (va % 256 + e.2) e.1) l.data }
    else l) })

/-- RST (R346, R348). -/
def execRst (f : AR) (s : State) : Out :=
  let n := f.cnt.toNat + 1
  accWord (fun s => do
      let d ← needDesc (← readGran s f.gran.toNat) .rst
      let sp ← localAddrs s d.loc n d.bytes 256
      let as_ ← d.addrs s n
      let (s, es) ← entryHomes d d.bytes true s as_
      accMarks s (as_.map (fun a => (a, d.bytes))) (sp.map (fun a => (a, d.bytes)))
      return (s, (d, es.zip sp)))
    (fun s x =>
      let d := x.1
      let u := s.cur.u
      let core := coreOf u
      runEntries (fun s g (e : (Nat × Option Nat) × Nat) => do
        let (a, h) := e.1
        let s := s.count0 core 0x07 (some (u % 4)) 1
        let bs := (s.core core).scratch.bytes e.2 d.bytes
        match h with
        | none => do
          let s ← tensorWrite s core ptACC s.eSlot.ctx a bs
          return (s, g)
        | some pkg =>
          let t := s.eSlot.tk
          let s := s.rcUpdate core pkg t.ctx a bs
          return (s.sendWrite u 4 pkg t.ctx (a / 2 ^ 52) (a % 2 ^ 52) t.seq t.interval bs, g))
        s (InFlight.of s.cur s.clock) x.2) s

/-- RMCST (R346, R349): written here when the group says so, and sent to the group's peers. -/
def execRmcst (f : AR) (s : State) : Out :=
  let n := f.cnt.toNat + 1
  accWord (fun s => do
      let d ← needDesc (← readGran s f.gran.toNat) .mcst
      let sp ← localAddrs s d.loc n d.bytes 256
      let as_ ← d.addrs s n
      let g := s.group d.group
      need (bitOf g 17) cPERM pRANGE (as_.headD 0)
      let s ← as_.foldlM (fun s a => do
        need (a % 8 = 0) cALIGN 0 a
        need (a % 256 + d.bytes ≤ 256) cPERM pRANGE a
        let (s, t) ← openTensor s (coreOf s.cur.u) ptACC s.eSlot.ctx a d.bytes true
        need (!t.hosted && (!bitOf g 16 || t.home s.fab.pkg (t.pos (a % 2 ^ 52) / 65536) = s.fab.pkg)) cPERM pSPACE a
        return s) s
      needRoutes s (as_.headD 0) (s.groupPeers g)
      accMarks s (as_.map (fun a => (a, d.bytes))) (sp.map (fun a => (a, d.bytes)))
      return (s, (d, as_.zip sp)))
    (fun s x =>
      let d := x.1
      let u := s.cur.u
      let core := coreOf u
      let here := bitOf (s.group d.group) 16
      runEntries (fun s g (e : Nat × Nat) => do
        let s := s.count0 core 0x07 (some (u % 4)) 1
        let bs := (s.core core).scratch.bytes e.2 d.bytes
        let t := s.eSlot.tk
        let s ← if here then tensorWrite s core ptACC t.ctx e.1 bs else pure s
        return (s.sendMulticast u 4 d.group t.ctx (e.1 / 2 ^ 52) (e.1 % 2 ^ 52) t.seq t.interval bs, g))
        s (InFlight.of s.cur s.clock) x.2) s

/-! Remote atomics (R347) -/

/-- What an entry makes of the old value: the new value and the flags (R143, R144). -/
def RemOp.new (r : RemOp) (old : Nat) : Nat × Nat :=
  match r.cas with
  | some v => (if old = r.a.toNat % 2 ^ (8 * r.n) then v.toNat % 2 ^ (8 * r.n) else old, 0)
  | none => atomOp r.op r.n old (r.a.toNat % 2 ^ (8 * r.n))

/-- A result is written where the entry says. -/
def State.putRes (s : State) (core : Nat) (r : RemOp) (old : Nat) : State :=
  if r.res = 0 then s else s.modCore core (fun c => { c with scratch := c.scratch.setNum (r.res - 1) 8 old })

/-- The packet of a remote atomic (R337, R347). -/
def State.sendAtomic (s : State) (u strm ctx : Nat) (r : RemOp) (req : Req) : State × Nat :=
  let tid := r.va / 2 ^ 52 % 4096
  let s := s.rcEvict (coreOf u) r.pkg ctx r.va
  let (tag, s) := s.newReq req
  let (q, s) := s.nextFseq (flowKey u strm r.pkg tid)
  (s.sendFlow (flowKey u strm r.pkg tid) { s.pkt 0x05 r.pkg ctx with
    score := u / 4, sslot := u % 4, tensor := tid, fseq := q, offset := r.va % 2 ^ 52, tag := tag
    aux := r.op + 16 * (if r.n = 4 then 2 else 3), operand := r.a
    payload := match r.cas with | some v => leBytes r.n v.toNat | none => [] }, tag)

/-- Entries are performed in ascending order, each here at once, or elsewhere with its result awaited before the next, so
that none after a stopped one is performed: the state, the flags raised, and the tag awaited, or the trap. -/
def runAtoms (u : Nat) (drain : Bool) : State → Nat → Nat → List RemOp → State × Nat × Except Trap (Option Nat)
  | s, _, fl, [] => (s, fl, .ok none)
  | s, j, fl, r :: t =>
    let sl := s.view u drain
    let core := coreOf u
    let s := s.count0 core 0x07 (some (u % 4)) 1
    if r.pkg ≠ s.fab.pkg then
      let (s, tag) := s.sendAtomic u 4 sl.ctx r (.toRes u drain j (r :: t))
      (s, fl, .ok (some tag))
    else
      let go : M (State × Nat) := do
        let (s, d) ← getDesc s core ptACC sl.ctx (r.va / 2 ^ 52) r.va
        let (s, ps) ← placeBytes core ptACC sl.ctx (r.va / 2 ^ 52) d s (r.va % 2 ^ 52) r.n
        let old := leNat (← s.getMems ps)
        let v := r.new old
        let s ← s.putMems (ps.zip (leBytes r.n v.1))
        return (s.putRes core r old, v.2)
      match go with
      | .ok (s, f) => runAtoms u drain s (j + 1) (orF fl f) t
      | .error (.trap x) => (s, fl, .error { x with sub := x.sub + 256 * j })
      | .error _ => (s, fl, .error ⟨cPERM, pUNMAPPED + 256 * j, r.va⟩)

/-- The stopped entry's index is kept for the resume (R347), and the flags of the entries performed are set. -/
def State.keepIdx (s : State) (u : Nat) (drain : Bool) (j fl : Nat) : State :=
  s.setView u drain ({ s.view u drain with accIdx := j }.modCsr (fun c => { c with aflags := c.aflags ||| BitVec.ofNat 7 fl }))

/-- RATOM and RCAS: `cas` for the latter, `res` when old values are written. -/
def atomWord (f : AR) (cas res : Bool) (s : State) : Out :=
  let n := f.cnt.toNat + 1
  let w := if fld f.funct.toNat 4 2 = 2 then 4 else 8
  accWord (fun s => do
      let d ← needDesc (← readGran s f.gran.toNat) .atom
      need (res || d.loc = 0) cILLEGAL 3 0
      let k := if cas then 16 else 8
      let ops ← localAddrs s d.opnd n k k
      let rs ← if res then localAddrs s d.loc n 8 8 else pure []
      let as_ ← d.addrs s n
      let (s, es) ← entryHomes d w true s as_
      let s ← es.foldlM (fun s e => do
        if e.2.isNone then
          let (s, t) ← getDesc s (coreOf s.cur.u) ptACC s.eSlot.ctx (e.1 / 2 ^ 52) e.1
          need (!t.hosted || cas || f.funct.toNat % 16 ≤ 1) cPERM pSPACE e.1
          return s
        else return s) s
      accMarks s (as_.map (fun a => (a, w))) (ops.map (fun a => (a, k)) ++ rs.map (fun a => (a, 8)))
      let sp := s.myCore.scratch
      let todo := (es.zip (ops.zip (rs.map (· + 1) ++ List.replicate n 0))).map (fun e => (⟨
        e.1.2.getD s.fab.pkg, e.1.1, if cas then 0 else f.funct.toNat % 16, w, BitVec.ofNat 64 (sp.num e.2.1 8),
        if cas then some (BitVec.ofNat 64 (sp.num (e.2.1 + 8) 8)) else none, e.2.2⟩ : RemOp))
      return (s, todo))
    (fun s todo =>
      let k := s.eSlot.accIdx
      let u := s.cur.u
      let (s, fl, r) := runAtoms u s.cur.drain s k 0 (todo.drop k)
      let e := { InFlight.of s.cur s.clock with flags := fl }
      match r with
      | .ok none => (s, none, e)
      | .ok (some tag) => (s, none, { e with waits := [tag] })
      | .error t => (s.keepIdx u s.cur.drain (t.sub / 256) fl, some (.trap t), e)) s

/-- RATOM, RCAS (R347). -/
def execRatom (f : AR) (s : State) : Out := atomWord f false (bitOf f.funct.toNat 6) s
def execRcas (f : AR) (s : State) : Out := atomWord f true true s

/-! RFENCE -/

/-- RFENCE (R353): the narrower lines go home; then it waits, fired, for the slot's remote reads, atomics and writes, and
with C closes the interval and waits for the answers. -/
def execRfence (f : AR) (s : State) : Out :=
  engWord (fun s => do
    let u := s.cur.u
    let s := s.rcRelease (coreOf u) (f.funct.toNat % 8)
    let tags := (s.fab.reqs.filter (fun e => e.2.unit == some u)).map (·.1)
    return (s, { InFlight.of s.cur s.clock with
      waits := tags, acks := s.unackedFlows u, fence := bitOf f.funct.toNat 3, lat := 4 })) s

/-! Messages -/

/-- XSEND (R355, R357): with 64 messages open it waits, fired. -/
def execXsend (f : AX) (s : State) : Out :=
  engWord (fun s => do
    let b ← readGran s f.gran.toNat
    let sl := s.eSlot
    let t := sl.tk
    let core := coreOf s.cur.u
    need (sendOk b) cILLEGAL 3 0
    let s ← msgEnd s core t.ctx (sdKind b) (sdSrc b) (sdSize b) false
    let s ← statusEnd s core t.ctx (sdStatus b)
    if sdPkg b ≠ s.fab.pkg then needRoute s (sdPkg b) (sdSrc b)
    let e := { InFlight.of s.cur s.clock with lat := 16 }
    match s.findMsg t.ctx t.seq f.mid.toNat with
    | some m => return (s.msgResume m, e)
    | none =>
      if 64 ≤ (s.fab.sends.filter (fun m => m.ctx == t.ctx && m.seq == t.seq)).length then
        return (s, { e with waits := [0], desc := b })
      else return (← msgOpen s s.cur.u f.mid.toNat f.pc.toNat t b, e)) s

/-- XPOST (R355, R358). -/
def execXpost (f : AX) (s : State) : Out :=
  engWord (fun s => do
    let b ← readGran s f.gran.toNat
    let t := s.eSlot.tk
    let core := coreOf s.cur.u
    need (recvOk b) cILLEGAL 3 0
    let s ← msgEnd s core t.ctx (rdKind b) (rdDst b) (rdCap b) true
    let s ← statusEnd s core t.ctx (rdStatus b)
    let k := f.mid.toNat % 1024
    let e := { InFlight.of s.cur s.clock with lat := 12 }
    match s.recv t.ctx k with
    | some r =>
      if r.desc = b then return (s, e)
      else
        need (!r.live) cILLEGAL 3 0
        return (s.recvPost s.cur.u t k b, e)
    | none => return (s.recvPost s.cur.u t k b, e)) s

/-- XCANCEL (R361). -/
def execXcancel (f : AX) (s : State) : Out :=
  engWord (fun s =>
    let t := s.eSlot.tk
    let s := match s.findMsg t.ctx t.seq f.mid.toNat with | some m => s.msgCancel m | none => s
    return (s, { InFlight.of s.cur s.clock with lat := 8 })) s

/-- XCANCEL.recv (R361): a slot of the task. -/
def execXcancelRecv (f : AX) (s : State) : Out :=
  engWord (fun s =>
    let t := s.eSlot.tk
    let k := f.mid.toNat % 1024
    let s := match s.recv t.ctx k with
      | some r => if r.live && r.seq = t.seq then s.recvEnd t.ctx k msCANCEL else s
      | none => s
    return (s, { InFlight.of s.cur s.clock with lat := 8 })) s

/-- XRESUME (R362). -/
def execXresume (f : AX) (s : State) : Out :=
  engWord (fun s =>
    let t := s.eSlot.tk
    let s := match s.findMsg t.ctx t.seq f.mid.toNat with | some m => s.msgResume m | none => s
    return (s, { InFlight.of s.cur s.clock with lat := 8 })) s

end Sys2Proof.Machine
end

