-- ==== Sys2Proof/Machine/Turn.lean ====
section
/-! DEFINITION. Who moves next and with what: the sequencer's choice of a slot (04 R92), an engine's choice of a ring
(07 R192), the fetch and the decoding of a word (02 R33, R38, R45), squashing (04 R114, R115), and the hardware steps a
slot takes between words, a user interrupt (R122) and a stop for a pending cause (05 R29, R132). -/

namespace Sys2Proof.Machine
open Sys2Proof

/-- What a step does once the mover is known: it has already done all it will, or it executes an instruction. -/
inductive Ready where
  | done (s : State)
  | run (i : Instr) (s : State)

/-- A user interrupt can be taken (R122): enabled, outside a handler, at a boundary, and no interlocked result awaited: DEDUCED,
any such result in flight holds it off, whether or not a word already waits for it (log entry 67). -/
def Slot.uiReady (sl : Slot) : Bool :=
  !sl.csr.uiact && (sl.csr.uipend &&& sl.csr.uivec.setWidth 16) != 0 && sl.atBoundary
    && !sl.pend.any (fun p => match p.eff with | .greg .. | .pred .. => p.locked | _ => false)

/-- A slot whose task is to be pre-empted issues no more once it stands at its boundary; while another member of its gang does
not yet stand at its own, that one issues on (R132). -/
def State.mayIssue (s : State) (u : Nat) : Bool :=
  let sl := s.slot u
  sl.live && !s.aborted u (s.issueAt u)
    && (sl.causes.isEmpty || !sl.atBoundary
      || (s.unitsOf u).all (fun v => (s.slot v).atBoundary || (s.slot v).hold ≠ .none))

/-- The slot a core's sequencer issues from next: the one that may issue soonest, and among these the first after the
slot that issued last (R92). -/
def State.pickSlot (s : State) (c : Nat) : Option Nat :=
  let order := (List.range 4).map (fun k => 4 * c + ((s.core c).lastSlot + 1 + k) % 4)
  (order.filter s.mayIssue).foldl (fun best u =>
    match best with
    | none => some u
    | some v => if s.issueAt u < s.issueAt v then some u else best) none

/-- The words a PFX may stand before (R45). -/
def takesPfx (i : Instr) : Bool :=
  match i with
  | .ld _ | .lds _ | .st _ | .ldsp _ | .stsp _ | .atom _ | .acas _ | .cinvL1 _ | .cinvWb _ | .cinvWbi _ | .rsld _
  | .rsst _ => true
  | _ => false

/-- Bytes of PC a squashed word passes: a loop word with its whole body (R115). -/
def squashLen (i : Instr) : Nat :=
  match i with
  | .loop f _ => 16 + 8 * (f.imm.toNat / 4096)
  | .loopx f => 8 + 8 * (f.imm.toNat / 4096)
  | _ => 8

/-- A squashed word takes its issue clock and has no effect (R92, R114). -/
def State.squash (s : State) (u : Nat) (i : Instr) : State :=
  let sl := { s.slot u with pfx := none }
  let (p, ls, k, _) := loopEnd (sl.pc + squashLen i) sl.loops
  let s := s.setSlot u { sl.withLoops ls with pc := p, nextIssue := s.clock + 1 }
  let s := s.modCore (coreOf u) (fun c => { c with lastSlot := u % 4, lastIssue := s.clock })
  (s.count0 (coreOf u) 0x03 (some (u % 4)) 1).loopExits u (sl.loops.take k)

/-- The words that issue behind a CINV without waiting for it (R148). -/
def passesCinv (word : Nat) : Bool :=
  let op := fld word 40 8
  op ≤ 0x3B || op = 0xA0 || op = 0xA1 || op = 0xA4 || op = 0x57 || op = 0x53

/-- A word that cannot be fetched or decoded: a precise fault at its address. -/
def State.badWord (s : State) (u : Nat) (t : Trap) (word : Nat) : State := s.coreStop u .seq t word false

/-- The fault operand of a word that does not decode: the control-register number of a CSRRD or CSRWR that names none
(R124, R130). -/
def badOperand (sub w : Nat) : Nat := if sub = 3 && (fld w 40 8 = 0xA0 || fld w 40 8 = 0xA1) then w % 4096 else 0

/-- The sequencer of a slot at its next word (R93: the PC must lie in the program image). A trap left over is taken first
(R82, R129); a WAITI that has been woken retires. -/
def State.readySeq (s : State) (u : Nat) : Ready :=
  let s := { s with clock := s.issueAt u }.settled u
  let sl := s.slot u
  if sl.hold ≠ .none then .done s
  else if sl.latch.isSome then .done (s.takeLatch u 0 sl)
  else if let some cur := sl.inHand then .done (s.retire u cur sl.pend sl.closing none)
  else if !sl.causes.isEmpty && sl.atBoundary then .run .preemptSlot { s with occ := { (default : Occasion) with a := u } }
  else if sl.uiReady then .run .userInterruptEntry { s with occ := { (default : Occasion) with a := u } }
  else if sl.pc % 8 ≠ 0 then .done (s.badWord u ⟨cALIGN, 0, sl.pc⟩ 0)
  else if 8 * sl.seqLen ≤ sl.pc then .done (s.badWord u ⟨cPERM, pPCRANGE, sl.pc⟩ 0)
  else
    let w := Tbl.get 0 sl.overlay (sl.pc / 8)
    let w2 := Tbl.get 0 sl.overlay (sl.pc / 8 + 1)
    match decode .seq w w2 with
    | .error sub => .done (s.badWord u ⟨cILLEGAL, sub, badOperand sub w⟩ w)
    | .ok (ctl, i) =>
      let len := i.len
      if 8 * sl.seqLen < sl.pc + len then .done (s.badWord u ⟨cPERM, pPCRANGE, sl.pc⟩ w)
      else if sl.squashed then .done (s.squash u i)
      else if sl.pfx.isSome && !takesPfx i then .done (s.badWord u ⟨cILLEGAL, 3, 0⟩ w)
      else if sl.pend.any (fun p => p.tag = cinvTag) && !passesCinv w then
        .done (s.modSlot u (fun sl => { sl with nextIssue := s.clock + 1 }))
      else .run i { s with cur := ⟨u, .seq, ctl, w, len, false⟩ }

/-- What is due in a core's slots takes effect, and tasks that tile faults abort leave when they can (R165). -/
def State.tend (s : State) (c : Nat) : State :=
  let us := (List.range 4).map (4 * c + ·)
  let s := us.foldl State.settled s
  us.foldl (fun s u => if (s.slot u).faults.isEmpty then s else s.tryLeave u) s

/-- The turn of a core's sequencer. Once a fault is raised its slots issue only in that clock (R129). -/
def State.turnSeq (s : State) (c : Nat) : Ready :=
  if (s.core c).stopped.isSome then .done s
  else
    let s := s.tend c
    match (s.core c).raised, s.pickSlot c with
    | none, none => .done s
    | none, some u => s.readySeq u
    | some (_, at_), some u => if at_ = s.clock && s.issueAt u = s.clock then s.readySeq u else .done (s.tryStop c)
    | some _, none => .done (s.tryStop c)

/-- The heads an engine of a core may look at, in the order of its search: within a slot the draining ring first
(R192). -/
def State.heads (s : State) (c e : Nat) : List (Nat × Bool) :=
  ((List.range 4).map (fun k => 4 * c + (Tbl.get 0 (s.core c).lastEng e + k) % 4)).flatMap (fun u =>
    ([true, false].filter (fun d => s.headAt u d e)).map (fun d => (u, d)))

/-- The clock from which an engine may look at a head. -/
def State.lookAt (s : State) (e : Nat) (h : Nat × Bool) : Nat :=
  max (max s.clock (Tbl.get 0 (s.core (coreOf h.1)).engFree e)) (Tbl.get 0 (s.slot h.1).engNext (engKey e h.2))

/-- The head an engine looks at next: of those it may look at soonest the first of its search (R192). -/
def State.pickHead (s : State) (c e : Nat) : Option (Nat × Bool) :=
  (s.heads c e).foldl (fun best h =>
    match best with
    | none => some h
    | some b => if s.lookAt e h < s.lookAt e b then some h else best) none

/-- An engine at an entry of a ring, the head or, `k` = 1, the one behind it: the word is checked before its wait is looked at
(R38). -/
def State.readyEng (s : State) (e u : Nat) (drain : Bool) (k : Nat) : Ready :=
  let m := Stream.ofNum (e + 1)
  let w := (s.core (coreOf u)).scratch.num ((s.view u drain).cmdAddr e k) 8
  match decode m w 0 with
  | .error sub => .done (if k = 0 then s.coreStop u m ⟨cILLEGAL, sub, 0⟩ w drain else s)
  | .ok (ctl, i) => .run i { s with cur := ⟨u, m, ctl, w, 8, drain⟩ }

/-- The chosen entry of a core's vector engine whose words are yet to fire (R226). -/
def State.chosenOf (s : State) (c : Nat) : Option (Nat × Bool × InFlight) :=
  (List.range 4).findSome? (fun j =>
    let u := 4 * c + j
    let of (t : Tbl InFlight) (d : Bool) : Option (Nat × Bool × InFlight) :=
      (t.find? (fun x => x.1 == 0 && x.2.chosen)).map (fun x => (u, d, x.2))
    match (s.slot u).drain.bind (fun d => of d.eng true) with
    | some x => some x
    | none => of (s.slot u).eng false)

/-- The next word of a chosen entry fires when the clocks of its register banks are over (R226). -/
def State.readyChosen (s : State) (u : Nat) (drain : Bool) (f : InFlight) : Ready :=
  let s := { s with clock := max s.clock (f.clock + f.delay) }.settled u
  let w := nth 0 f.words f.again
  match decode .vec w 0 with
  | .error _ => .done s
  | .ok (ctl, i) => .run i { s with cur := ⟨u, .vec, ctl, w, 8, drain⟩ }

/-- A trap that an entry of the core's engines still has to raise (R82, R129). -/
def State.owing (s : State) (c : Nat) : Option (Nat × (Nat × Trap × Nat × Bool)) :=
  (List.range 4).findSome? (fun j => ((s.slot (4 * c + j)).owed.head?).map (fun x => (4 * c + j, x)))

/-- The turn of an engine of a core: the next head of its search. Once a fault is raised the engines fire only in that clock, but
for a word already chosen (R129, R226). -/
def State.turnEng (s : State) (c e : Nat) : Ready :=
  if (s.core c).stopped.isSome then .done s
  else
    let s := s.tend c
    match (if e = 0 then s.chosenOf c else none), (s.core c).raised, s.owing c, s.pickHead c e with
    | some (u, d, f), _, _, _ => s.readyChosen u d f
    | none, none, some (u, (k, t, w, d)), _ =>
      .done ((s.modSlot u (fun sl => { sl with owed := sl.owed.drop 1 })).coreStop u (Stream.ofNum (k + 1)) t w d)
    | none, none, none, some h => ({ s with clock := s.lookAt e h }.settled h.1).readyEng e h.1 h.2 0
    | none, some (_, at_), _, some h =>
      if at_ = s.clock && s.lookAt e h = s.clock then s.readyEng e h.1 h.2 0 else .done (s.tryStop c)
    | none, some _, _, none => .done (s.tryStop c)
    | none, none, none, none => .done s

/-- The vector engine at the word behind the one it has just fired for a ring (R225). -/
def State.turnMate (s : State) (u : Nat) (drain : Bool) : Ready :=
  let s := { s with mate := none }
  let v := s.view u drain
  if (s.core (coreOf u)).stopped.isNone && 2 ≤ (v.cring 0).occ
      && v.eng.any (fun x => x.1 == 0 && x.2.words.length == 1 && x.2.clock == s.clock) then s.readyEng 0 u drain 1
  else .done s

/-- The hardware steps that the package takes by itself, with no packet, host or management core taking part. -/
def autoEvents : List Instr :=
  [.interlockedResultWrite, .leaseRunGrant, .leaseRunEnd, .currentGrant, .scheduleEntryFire, .aqStreamEntry,
   .tokenGrant, .dispatchTask, .stealExchange, .segmentRefill, .agingTick, .launchStart, .launchComplete, .tttFire,
   .heldEffectDrain, .joinDecrement, .walkerVisitNode, .batchWindowExpire, .batchArm, .engineEntryComplete,
   .restoreSlot, .preemptSlot, .domainPhaseEnd, .traceSample, .invalidationComplete]

/-- Who moves when nothing has been decided: any sequencer, any engine, any hardware step, or time passes (log
entry 6). -/
def freeMove (t : Nat) : Turn :=
  let x := Config.freeTurn t
  match x % 4 with
  | 0 => .seq (x / 4 % 128)
  | 1 => .engine (x / 4 % 128) (x / 512 % 4)
  | 2 => .event (nth .nop autoEvents (x / 4 % autoEvents.length))
      { (default : Occasion) with
        a := Config.freeNat 3 t, b := Config.freeNat 4 t, c := Config.freeNat 5 t, d := Config.freeNat 6 t }
  | _ => .pass (x / 4)

end Sys2Proof.Machine
end

