-- ==== Sys2Proof/Machine/Ctrl.lean ====
section
/-! DEFINITION. Branches, hardware loops, waits, traps and system words of the sequencer (04 R98, R99, R102, R112 to
R127). -/

namespace Sys2Proof.Machine
open Sys2Proof

/-! Branches and calls -/

/-- A redirect's target must be a multiple of 8 that lies inside the program image (R112). -/
def needTarget (s : State) (t : Int) : M Nat := do
  need (t % 8 = 0) cALIGN 0 (toBits 64 t)
  need (0 ≤ t && t < 8 * s.me.seqLen) cPERM pPCRANGE (toBits 64 t)
  return t.toNat

/-- The loops that a taken BR or JMP inside the innermost body leaves: that loop, and then each whose body does not hold
the target (R115). -/
def leaveLoops (t : Nat) : List LoopRec → List LoopRec
  | [] => []
  | l :: r => if l.inside t then l :: r else leaveLoops t r

/-- The PC is redirected. -/
def State.goTo (s : State) (t : Nat) : State := s.modMe (fun sl => { sl with npc := some t })

/-- A taken BR or JMP (R112, R115). DESIGN CHOICE (log entry 72): from a word outside every body, a target inside the innermost body of
a LOOP of two or more stages is no fault. -/
def branch (s : State) (t : Int) : M State := do
  let t ← needTarget s t
  let sl := s.me
  match sl.loops with
  | [] => return s.goTo t
  | l :: _ =>
    if sl.csr.uiact || !l.inside sl.pc then return s.goTo t
    else if l.inside t then
      need (l.ns ≤ 1) cILLEGAL 7 0
      return s.goTo t
    else
      let ls := leaveLoops t sl.loops
      let out := sl.loops.take (sl.loops.length - ls.length)
      return ((s.modMe (fun sl => sl.withLoops ls)).loopExits s.cur.u out).goTo t

/-- The target of a branch by a word offset from the branch's own address. -/
def offTarget (s : State) (off : BitVec 32) : Int := (s.me.pc : Int) + 8 * off.toInt

/-- BR (R112). -/
def execBr (f : SB) (s : State) : Out :=
  seqWord (fun s => do
    if (← rdP s f.pred.toNat) != f.n then branch s (offTarget s f.off) else return s) s

/-- JMP (R112). -/
def execJmp (f : S3) (s : State) : Out :=
  seqWord (fun s => do
    let a ← rdG s f.ra
    branch s a.toNat) s

/-- CALL (R112): the return address goes to g63 of the bank in force. CALL leaves no loop (R115). -/
def execCall (f : SB) (s : State) : Out :=
  seqWord (fun s => do
    let t ← needTarget s (offTarget s f.off)
    let s ← wrLocked s 63 (BitVec.ofNat 64 (s.me.pc + 8)) 1
    return s.goTo t) s

/-- RET (R112). -/
def execRet (s : State) : Out :=
  seqWord (fun s => do
    let a ← rdG s 63
    return s.goTo (← needTarget s a.toNat)) s

/-- NOP (R112). -/
def execNop (s : State) : Out := seqWord (fun s => return s) s

/-! Hardware loops -/

/-- The stage offsets of a stage word (R43). -/
def stageStarts (f : Stages) : List Nat :=
  ([f.b0, f.b1, f.b2, f.b3, f.b4, f.b5, f.b6, f.b7].map (·.toNat)).take (f.ns1.toNat + 1)

/-- A loop word (R113, R115): its body must lie in the body around it, at most four loops nest, and the count is bounded;
with no iteration the PC goes past the body. -/
def loopBody (f : SI) (piped : Bool) (offs : List Nat) (s : State) : M (State × NextPc) := do
  let n ← rdG s f.ra
  let n := n.toNat
  let ns := offs.length
  let start := s.me.pc + s.cur.len
  let words := f.imm.toNat / 4096
  let stop := start + 8 * words
  match s.me.loops with
  | l :: _ => need (l.start ≤ start && stop ≤ l.stop) cILLEGAL 3 0
  | [] => pure ()
  need (s.me.loops.length < 4) cILLEGAL 6 0
  need (n < 2 ^ 32 && (!piped || n + ns - 1 ≤ 2 ^ 32 - 1)) cILLEGAL 9 0
  if n = 0 then return (s, some stop)
  let l : LoopRec := ⟨f.imm.toNat % 256, piped, start, words, ns, offs, n, 0, s.clock⟩
  return (s.modMe (fun sl => sl.withLoops (l :: sl.loops)), none)

/-- LOOP, LOOPX (R113, R114). -/
def execLoop (f : SI) (st : Stages) (s : State) : Out := seqWordTo (loopBody f true (stageStarts st)) s
def execLoopx (f : SI) (s : State) : Out := seqWordTo (loopBody f false [0]) s

/-! Waits, traps, breakpoints -/

/-- WAITI (R117): complete at once when an enabled user interrupt is pending outside a handler, else the slot waits. -/
def execWaiti (s : State) : Out :=
  match takeWait s s.cur.u s.cur.ctl.wait with
  | .error e => exitSeq s e
  | .ok t =>
    let sl := t.slot s.cur.u
    if !sl.csr.uiact && (sl.csr.uipend &&& sl.csr.uivec.setWidth 16) != 0 then
      .next ((t.issued s.cur.u).retire s.cur.u s.cur sl.pend false none)
    else .next ((t.issued s.cur.u).park s.cur.u .waiti false)

/-- TRAP (R118): the stop names the word after it. -/
def execTrap (f : SI) (s : State) : Out :=
  seqWord (fun s =>
    let n := f.imm.toNat
    return s.modMe (fun sl => { sl with latch := some ⟨cTRAP, n % 256, n⟩ })) s

/-- BKPT (R119). -/
def execBkpt (f : SI) (s : State) : Out :=
  seqWord (fun s => return if s.me.corectl 1 then (s.cause s.cur.u 0).modMe (fun sl => { sl with bkpt := some f.imm.toNat }) else s) s

/-- UIRET (R123). -/
def execUiret (s : State) : Out :=
  seqWord (fun s => do
    need s.me.csr.uiact cILLEGAL 8 0
    return (s.modMe (fun sl => sl.modCsr (fun c => { c with uiact := false }))).goTo s.me.csr.uipc.toNat) s

/-- USER_INTERRUPT_ENTRY (R122): the lowest pending enabled vector is taken. -/
def execUserInterruptEntry (s : State) : Out :=
  let u := s.occ.a
  let sl := s.slot u
  if sl.live && sl.uiReady && (s.core (coreOf u)).stopped.isNone && (s.core (coreOf u)).raised.isNone then
    let m := (sl.csr.uipend &&& sl.csr.uivec.setWidth 16).toNat
    let n := ((List.range 16).find? (bitOf m)).getD 0
    .next (s.setSlot u { sl.modCsr (fun c => { c with
        uipend := c.uipend &&& ~~~(1#16 <<< n), uipc := BitVec.ofNat 32 sl.pc, uiact := true }) with
      pc := sl.csr.uivec.toNat / 2 ^ 32 + 64 * n
      acks := if sl.pend.any (fun p => p.tag = cinvTag) then sl.acks else [], wm := sl.wm.filter (fun w => w.key ≠ 0)
      nextIssue := max sl.nextIssue (s.clock + 3) })
  else .next s

/-! Views, valid bits, time -/

/-- Entries placed in a slot's command ring of engine `e` that have not fired. -/
def Slot.unfired (sl : Slot) (e : Nat) : Nat :=
  (sl.cring e).occ - (match sl.eng.find? (fun x => x.1 == e) with
    | some (_, f) => if f.sched then 0 else f.words.length
    | none => 0)

/-- SETVIEW's wait (R99): every entry placed in any command ring of the slot has fired. -/
def needFired (s : State) : M Unit :=
  if (List.range 4).all (fun e => s.me.unfired e = 0) then .ok () else .error (.wait (s.clock + 1))

/-- SETVIEW (R99): funct[1:0] selects the view; bits [63:10] of the source must be zero. -/
def execSetview (f : S3) (s : State) : Out :=
  seqWord (fun s => do
    let a ← rdG s f.ra
    need (a.toNat < 1024) cILLEGAL 3 0
    needFired s
    let v := BitVec.ofNat 10 a.toNat
    return s.modMe (fun sl => sl.modCsr (fun c =>
      match f.funct.toNat % 4 with
      | 0 => { c with viewv := v }
      | 1 => { c with viewt := v }
      | _ => { c with viewm := v }))) s

/-- GRANCLR (R102). -/
def execGranclr (f : S3) (s : State) : Out :=
  seqWord (fun s => do
    let a ← rdG s f.ra
    let n ← rdG s f.rb
    needFired s
    let al := s.me.alloc
    need (n = 0 || 64 * (a.toNat + n.toNat) ≤ al.regLen) cPERM pREGRANGE (64 * a.toNat)
    return s.modMyCore (fun c => c.regClear ((List.range n.toNat).map (fun k => al.regBase / 64 + a.toNat + k)))) s

/-- TIME.dev (R127): successive readings in a slot never decrease. -/
def execTimeDev (f : S3) (s : State) : Out :=
  seqWord (fun s => do
    let t := max s.me.lastTime s.devTime
    let s := s.modMe (fun sl => { sl with lastTime := t })
    wrG s f.rd (BitVec.ofNat 64 t) 2) s

/-- TIME.clk (R127). -/
def execTimeClk (f : S3) (s : State) : Out :=
  seqWord (fun s => wrG s f.rd (BitVec.ofNat 64 (s.me.clocks + (s.clock - s.me.since))) 2) s

/-! Control registers -/

/-- DOMREG (R219). -/
def CoreSt.domreg (c : CoreSt) : Nat := c.level % 8 + c.phase.toNat * 2 ^ 8 + c.domid % 2 ^ 16 * 2 ^ 16

/-- PKGID (R333). -/
def State.pkgid (s : State) (core : Nat) : Nat :=
  s.fab.pkg + s.fab.pkg / 9 * 2 ^ 7 + s.fab.pkg % 9 * 2 ^ 11 + dieOf core * 2 ^ 15 + core * 2 ^ 17

/-- The value a control register reads as (R124). -/
def State.csrRead (s : State) (u n : Nat) : Word :=
  let sl := s.slot u
  let c := sl.csr
  let x := s.ctx sl.ctx
  let w (k : Nat) : Word := BitVec.ofNat 64 k
  match n with
  | 0x000 => w c.corectl.toNat
  | 0x001 => w c.aflags.toNat
  | 0x002 => w c.faultst.toNat
  | 0x003 => c.uivec
  | 0x004 => w c.uipend.toNat
  | 0x005 => w c.uipcWord
  | 0x006 => w c.viewv.toNat
  | 0x007 => w c.viewt.toNat
  | 0x008 => w c.viewm.toNat
  | 0x009 => w sl.loopst
  | 0x00A => c.mctl
  | 0x00B => c.vsridx
  | 0x00C => w c.vsrtid.toNat
  | 0x010 => w x.memdef.toNat
  | 0x011 => x.srkey
  | 0x012 => x.keyctl
  | 0x013 => x.bfctl
  | 0x015 => w c.nodest.toNat
  | 0x016 => w x.gramctl.toNat
  | 0x020 => w (s.core (coreOf u)).pmowner
  | 0x021 => w (s.core (coreOf u)).domreg
  | _ => w (s.pkgid (coreOf u))

/-- CSRRD (R124), with a fixed latency of 2 clocks (R96). -/
def execCsrrd (f : SI) (s : State) : Out :=
  seqWord (fun s => wrG s f.rd (s.csrRead s.cur.u (f.imm.toNat % 4096)) 2) s

/-- A BF16 field of a control register must be finite. -/
def bfFinite (c : Nat) : Bool := (bf16.dec c).isNum

/-- A correlation of MCTL (R245): finite, from −1 to 1. -/
def rhoOk (c : Nat) : Bool :=
  let x := fp32.dec c
  x.isNum && XR.le x.abs (XR.ofInt 1)

/-- A control register written by a program, with the register's own checks (R124, R126, R123, R246, R47, R409). -/
def csrWrite (s : State) (n : Nat) (a : Word) : M State :=
  let v := a.toNat
  let put (f : Csrs → Csrs) : State := s.modMe (fun sl => sl.modCsr f)
  let ctx (f : Ctx → Ctx) : State := s.modCtx s.myCtx f
  match n with
  | 0x000 => .ok (put (fun c => { c with corectl := a.setWidth 11 }))
  | 0x001 => .ok (put (fun c => { c with aflags := c.aflags &&& ~~~(a.setWidth 7) }))
  | 0x002 => .ok (put (fun c => { c with faultst := c.faultst &&& ~~~(a.setWidth 18 &&& 0x30000#18) }))
  | 0x003 => do
    need (v / 2 ^ 32 % 64 = 0) cILLEGAL 3 n
    return put (fun c => { c with uivec := a &&& 0xFFFFFFFF0000FFFF#64 })
  | 0x004 => .ok (put (fun c => { c with uipend := c.uipend &&& ~~~(a.setWidth 16) }))
  | 0x005 => do
    need s.me.csr.uiact cILLEGAL 8 n
    return put (fun c => { c with uipc := a.setWidth 32 })
  | 0x00A => do
    need (v % 4 ≠ 3 && fld v 4 12 = 0 && rhoOk (fld v 32 32) && bfFinite (fld v 16 16)) cILLEGAL 3 n
    return put (fun c => { c with mctl := (a &&& ~~~8#64) ||| (c.mctl &&& ~~~a &&& 8#64) })
  | 0x00B => .ok (put (fun c => { c with vsridx := a }))
  | 0x00C => .ok (put (fun c => { c with vsrtid := a.setWidth 12 }))
  | 0x010 => do
    need (fld v 5 3 ≤ 3 && fld v 2 3 ≤ 5) cILLEGAL 3 n
    return ctx (fun x => { x with memdef := a.setWidth 11 })
  | 0x011 => .ok (ctx (fun x => { x with srkey := a }))
  | 0x012 => do
    need (bfFinite (fld v 32 16) && bfFinite (fld v 16 16) && bfFinite (fld v 0 16)) cILLEGAL 3 n
    return ctx (fun x => { x with keyctl := a })
  | 0x013 => .ok (ctx (fun x => { x with bfctl := a &&& 3#64 }))
  | 0x015 => .ok (put (fun c => { c with nodest := c.nodest &&& ~~~(a.setWidth 14 &&& 0x3F00#14) }))
  | 0x016 => .ok (ctx (fun x => { x with gramctl := a.setWidth 12 }))
  | _ => trap cPERM pPRIV n

/-- CSRWR (R124). -/
def execCsrwr (f : SI) (s : State) : Out :=
  seqWord (fun s => do
    let a ← rdG s f.ra
    csrWrite s (f.imm.toNat % 4096) a) s

/-! SYSCALL -/

/-- SYSCALL (R120): the region closes, the request goes to the DCC firmware, and the slot waits for the status. -/
def execSyscall (f : SI) (s : State) : Out :=
  closingWord (fun s => do
      let _ ← rdG s f.ra
      needDest s f.rd)
    (fun s => do
      let a ← rdG s f.ra
      let u := s.cur.u
      let code := f.imm.toNat
      let s := { s with hub := { s.hub with syscalls := s.hub.syscalls ++ [(u, code, a, s.clock)] } }
      return s.park u (.syscall f.rd.toNat code a) true) s

/-- A waiting SYSCALL completes with a status (R120). -/
def State.syscallDone (s : State) (u : Nat) (v : Word) : State :=
  match (s.slot u).hold with
  | .syscall rd _ _ =>
    { s with hub := { s.hub with syscalls := s.hub.syscalls.filter (fun e => e.1 != u) } }.unpark u rd v
  | _ => s

/-- SYSCALL_REPLY (R120): a reply that no slot waits for is discarded. -/
def execSyscallReply (s : State) : Out := .next (s.syscallDone s.occ.a s.occ.w)

/-- SYSCALL_TIMEOUT (R120): no reply within 1 ms. -/
def execSyscallTimeout (s : State) : Out :=
  if s.hub.syscalls.any (fun e => e.1 == s.occ.a && usClk 1000 ≤ s.clock - e.2.2.2) then
    .next (s.syscallDone s.occ.a 0xFFFFFFFFFFFFFFFE)
  else .next s

/-- INTERLOCKED_RESULT_WRITE (R96): the clock reaches the slot's next interlocked result, which is written. -/
def execInterlockedResultWrite (s : State) : Out :=
  let u := s.occ.a
  match (s.slot u).pend.find? (fun p => p.locked && p.tag = 0) with
  | some p =>
    let s := { s with clock := max s.clock p.at_ }
    .next (s.modSlot u (fun sl => sl.settle s.clock))
  | none => .next s

/-! Trace control -/

/-- TRCTL.wr (20 R459): the new value governs events from the next clock on. -/
def execTrctlWr (f : S3) (s : State) : Out :=
  seqWord (fun s => do
    let a ← rdG s f.ra
    let v := a.toNat
    need (fld v 13 51 = 0 && fld v 4 4 = 0 && fld v 8 5 ≤ 20) cILLEGAL 3 0
    return s.modMe (fun sl => sl.later s.clock (.trcfg (a.setWidth 32)))) s

/-- TRCTL.rd (20 R459). -/
def execTrctlRd (f : S3) (s : State) : Out :=
  seqWord (fun s => wrG s f.rd (s.me.csr.trcfg.setWidth 64) 2) s

end Sys2Proof.Machine
end

