-- ==== Sys2Proof/Machine/Search.lean ====
section
/-! DEFINITION. The task and node words of the sequencer that end no task (16 R379 to R411). -/

namespace Sys2Proof.Machine
open Sys2Proof

/-- A reference a word names: its package must exist, or it is null where the word accepts null (R376). -/
def needRef (a : Word) (null : Bool) : M Nat := do
  let r := a.toNat % 2 ^ 32
  need (nPkg r < 81 || (null && r = nullRef)) cPERM pRANGE a.toNat
  return r

/-- A word performed at issue writes its status to NODEST.ST (R380). -/
def State.nodest (s : State) (st : Nat) : State := s.modMe (fun sl => sl.setSt st)

/-- A held word of this chapter: queued, with 0x80 QUEUED in NODEST.ST (R380). -/
def heldNode (s : State) (e : Effect) : M State := do
  let s ← putEffect s e 0
  return s.nodest 0x80

/-! Spawns and the queue -/

/-- The record a spawn reads at issue (R382, R386), with the fields hardware fills. -/
def spawnRecord (s : State) (f : S3) (batch : Bool) : M Task := do
  let a ← rdG s f.ra
  let key ← rdG s f.rb
  let a := a.toNat
  let k := f.funct.getLsbD 0
  need (a % 32 = 0) cALIGN 0 a
  need (a + 32 ≤ s.me.alloc.spLen) cPERM pRANGE a
  need (!k || key.toNat < 2 ^ 32) cILLEGAL 3 0
  watermark s s.myCtx 1 a 32
  let t := Task.parse (s.myCore.scratch.bytes (s.me.alloc.spBase + a) 32)
  let t := if k then { t with key := key.toNat } else t
  let me := s.me.tk
  let tree := t.tree = nullRef || nPkg t.tree < 81
  need (fpFinite t.key && t.ws < 256 && t.ctx = 0 && t.queue = 0 && t.seq = 0 && (!batch || t.batch)) cILLEGAL 3 0
  need tree cPERM pRANGE t.tree
  need (t.tree = nullRef || nPkg t.tree = s.fab.pkg) cPERM pNODEHOME t.tree
  need (t.jt = nullRef || nPkg t.jt < 81) cPERM pRANGE t.jt
  return { t with
    ctx := me.ctx, queue := me.queue, launch := me.launch, run := me.run, key0 := t.key, phase := 0 }

/-- A spawn: a live task of its launch from issue (R385, R386). -/
def spawnBody (f : S3) (batch : Bool) (s : State) : M State := do
  let t ← spawnRecord s f batch
  let s ← heldNode s (.spawn t batch)
  return s.liveAdd t.run 1

/-- TSPAWN, TSPAWNB (R386). -/
def execTspawn (f : S3) (s : State) : Out := seqWord (spawnBody f false) s
def execTspawnb (f : S3) (s : State) : Out := seqWord (spawnBody f true) s

/-- TCANCEL (R395). -/
def execTcancel (f : S3) (s : State) : Out :=
  seqWord (fun s => do
    let r ← needRef (← rdG s f.ra) false
    let n := f.funct.toNat
    heldNode s (.cancel r (bitOf n 0) (if bitOf n 1 then some (fld n 2 6) else none))) s

/-- TREPRIO (R387). -/
def execTreprio (f : S3) (s : State) : Out :=
  seqWord (fun s => do
    let a ← rdG s f.ra
    let b ← rdG s f.rb
    need (b.toNat < 2 ^ 32 && fpFinite b.toNat) cILLEGAL 3 0
    let node := f.funct.getLsbD 0
    let x ← if node then needRef a false else pure (a.toNat % 2 ^ 32)
    heldNode s (.reprio node x b.toNat)) s

/-- TJOIN (R388). -/
def execTjoin (f : S3) (s : State) : Out :=
  seqWord (fun s => do
    let r ← needRef (← rdG s f.ra) false
    let b ← rdG s f.rb
    need (b.toNat < 2 ^ 28 && b.toNat % 2 ^ 16 ≠ 0) cILLEGAL 3 0
    heldNode s (.tjoin r (b.toNat % 2 ^ 16) (fld b.toNat 16 12))) s

/-- The queued tasks of the package that a test picks. -/
def State.countQueued (s : State) (p : Nat → Task → Bool) : Nat :=
  (s.segs.map (fun e => (e.2.filter (p e.1)).length)).sum

/-- TSELF (R393). -/
def execTself (f : S3) (s : State) : Out :=
  seqWord (fun s =>
    let t := s.me.tk
    let v := match f.funct.toNat % 8 with
      | 0 => t.seq
      | 1 => t.tree
      | 2 => t.jt
      | 3 => t.key0
      | 4 => leNat (t.bytes.take 8)
      | 5 => t.user
      | _ => t.ws
    wrG s f.rd (BitVec.ofNat 64 v) 2) s

/-- REGION with F = 0: the live-ins named (R394). -/
def Slot.captureSome (sl : Slot) (lo hi : Nat) (pr : Bool) : LiveIns :=
  let x := sl.flush
  let keep := if lo = 0 then [] else (List.range (hi + 1 - lo)).map (fun k => sl.phys (lo + k))
  ⟨x.g.filter (fun e => keep.contains e.1), if pr then x.preds else 1, 1, []⟩

/-- REGION (R394). -/
def execRegion (f : SI) (s : State) : Out :=
  let n := f.imm.toNat
  let auto := !bitOf n 12
  if bitOf n 13 then
    match takeWait s s.cur.u s.cur.ctl.wait with
    | .error e => exitSeq s e
    | .ok t => .next ((((t.closeRegion t.cur.u t.me.pc auto)).issued s.cur.u).retire s.cur.u s.cur s.me.pend true none)
  else
    seqWord (fun s => do
      need s.me.loops.isEmpty cILLEGAL 10 0
      let sl := s.me
      let s := s.closeRegion s.cur.u (sl.pc + 8) auto
      return s.modMe (fun x => { x with region :=
        { x.region with live := sl.captureSome (fld n 0 6) (fld n 6 6) (bitOf n 14) } })) s

/-! Node words -/

/-- A node word whose answer comes from another package: the request, and the packet that asks (R337, R406). -/
def askNode (s : State) (j : NodeJob) (op ref : Nat) (args : List Nat) : Nat × State :=
  let (tag, s) := s.newReq (.node s.cur.u j)
  (tag, (s.nodeOp s.myCtx op ref args (s.fab.pkg, tag)).stampNode s.cur.u s.fab.outbox.length)

/-- The same, with the destination of the word reserved for the answer. -/
def askInto (s : State) (rd : BitVec 6) (j : NodeJob) (op ref : Nat) (args : List Nat) : M State := do
  let (tag, s) := askNode s j op ref args
  wrTagged s rd tag

/-- The same for a closing word, whose slot waits. -/
def askPark (s : State) (j : NodeJob) (op ref : Nat) (args : List Nat) : State :=
  let (tag, s) := askNode s j op ref args
  s.park s.cur.u (.remote tag 0) true

/-- A job of a word with nothing scored yet. -/
def NodeJob.of (op rd : Nat) : NodeJob := { (default : NodeJob) with op := op, rd := rd }

/-- The 64 bytes of a record. -/
def State.nodeRec (s : State) (r : Nat) : List Byte := s.nsm.bytes (nAddr r) 64

/-- A field of a record's bytes. -/
def recFld (b : List Byte) (o n : Nat) : Nat := leNat ((b.drop o).take n)

/-- TQUERY (R392). -/
def execTquery (f : S3) (s : State) : Out :=
  seqWord (fun s => do
    let a ← rdG s f.ra
    match f.funct.toNat % 4 with
    | 0 =>
      let t := s.me.tk
      wrG s f.rd (BitVec.ofNat 64 (b2n t.cpend + 2 * b2n t.exempt)) 2
    | 1 =>
      let r ← needRef a false
      if nPkg r ≠ s.fab.pkg then askInto s f.rd { NodeJob.of 0x67 f.rd.toNat with node := r } 0x72 r [8]
      else
        let st := s.nodeSt r
        let s := (s.countSt s.myCtx r st).nodest st
        wrLate s f.rd (if st = stSTALE then ones64
          else BitVec.ofNat 64 (s.nf r 22 2 + min (s.countQueued (fun _ t => t.tree == r)) 0xFFFF * 2 ^ 16))
    | _ =>
      let die := dieOf (coreOf s.cur.u)
      let n := s.countQueued (fun k t => t.ctx == s.myCtx && k / 16 == die)
      wrG s f.rd (BitVec.ofNat 64 n) 2) s

/-- NLD (R399). -/
def execNld (f : S3) (s : State) : Out :=
  seqWord (fun s => do
    let r ← needRef (← rdG s f.ra) false
    let w := f.funct.toNat % 8
    if nPkg r ≠ s.fab.pkg then
      let ys := (List.range 8).map (fun k => s.me.youngest Effect.nodeBytes (nKey r + 8 * w + k))
      let mask := ((ys.zip (List.range 8)).map (fun e => if e.1.isSome then 2 ^ e.2 else 0)).sum
      askInto s f.rd { NodeJob.of 0x72 f.rd.toNat with node := r, m := mask, ctl := leNat (ys.map (·.getD 0)) } 0x72 r [w]
    else
      let st := s.nodeSt r
      let s := (s.countSt s.myCtx r st).nodest st
      wrLocked s f.rd (if st = stSTALE then ones64 else BitVec.ofNat 64 (leNat (s.nodeBytes s.me r (8 * w) 8)))
        (nodeLat (coreOf s.cur.u) r)) s

/-- NST (R400): one buffered store. -/
def execNst (f : S3) (s : State) : Out :=
  seqWord (fun s => do
    let r ← needRef (← rdG s f.ra) false
    let v ← rdG s f.rb
    heldNode s (.nst r (fld f.funct.toNat 0 3) (fld f.funct.toNat 3 8) v)) s

/-- NFREE (R401). -/
def execNfree (f : S3) (s : State) : Out :=
  seqWord (fun s => do
    let r ← needRef (← rdG s f.ra) false
    heldNode s (.nfree r)) s

/-- NLINK (R404). -/
def execNlink (f : S3) (s : State) : Out :=
  seqWord (fun s => do
    let c ← needRef (← rdG s f.ra) false
    let p ← needRef (← rdG s f.rb) false
    heldNode s (.nlink c p)) s

/-- The operands of NALLOC: the parent, and P (R398). -/
def nallocArgs (s : State) (f : S3) : M (Nat × Nat) := do
  let par ← needRef (← rdG s f.ra) true
  let p ← rdG s f.rb
  need (p.toNat < 2 ^ 16) cILLEGAL 3 0
  return (par, p.toNat)

/-- NALLOC (R398): a closing word. Under a parent elsewhere the record comes from there with HOME, or is linked there. -/
def execNalloc (f : S3) (s : State) : Out :=
  closingWord (fun s => do
      let _ ← nallocArgs s f
      needDest s f.rd)
    (fun s => do
      let (par, p) ← nallocArgs s f
      let here := dieOf (coreOf s.cur.u)
      let home := f.funct.getLsbD 0 && par ≠ nullRef
      if par ≠ nullRef && nPkg par ≠ s.fab.pkg then
        if home then return askPark s (NodeJob.of 0x70 f.rd.toNat) 0x70 par [p]
        else match s.nodeTake s.myCtx here with
          | none => wrLate (s.nodest stNOSPACE) f.rd 0xFFFFFFFF
          | some (r, s) =>
            let s := (s.nodeInit r p).linkChild par r
            return askPark s { NodeJob.of opLINK f.rd.toNat with node := r } opLINK par [r, 1]
      else
        let (s, r, st) := s.nalloc s.myCtx (if home then nDie par else here) par p
        wrLate (s.nodest st) f.rd (BitVec.ofNat 64 r)) s

/-- NADD (R402): held without a destination, else closing. -/
def execNadd (f : S3) (s : State) : Out :=
  let fl := f.funct.toNat % 8
  if f.rd = 0 then
    seqWord (fun s => do
      let r ← needRef (← rdG s f.ra) false
      let v ← rdG s f.rb
      heldNode s (.nadd r fl v)) s
  else
    closingWord (fun s => do
        let _ ← needRef (← rdG s f.ra) false
        let _ ← rdG s f.rb
        needDest s f.rd)
      (fun s => do
        let r ← needRef (← rdG s f.ra) false
        let v ← rdG s f.rb
        if nPkg r ≠ s.fab.pkg then return askPark s (NodeJob.of 0x74 f.rd.toNat) 0x74 r [fl, v.toNat]
        else
          let (s, old, st) := s.nadd s.myCtx r fl v
          wrLate (s.nodest st) f.rd (BitVec.ofNat 64 old)) s

/-- NCAS performed (R403): the old value and the status. -/
def State.ncas (s : State) (ctx r w cmp v : Nat) : State × Nat × Nat :=
  let st := s.nodeSt r
  if st = stSTALE then (s.countSt ctx r st, 2 ^ 64 - 1, st)
  else
    let old := s.nf r (8 * w) 8
    if st ≠ stOK then (s.countSt ctx r st, old, st)
    else if old = cmp then
      let l := ((List.range 8).zip (leBytes 8 v)).filter (fun e => nodeSoft (8 * w + e.1))
      (s.nodeWrite ctx r (l.map (fun e => (8 * w + e.1, e.2))), old, stOK)
    else (s, old, stOK)

/-- NCAS (R403): a closing word. -/
def execNcas (f : S3) (s : State) : Out :=
  let w := f.funct.toNat % 8
  closingWord (fun s => do
      let _ ← needRef (← rdG s f.ra) false
      let _ ← rdG s f.rb
      let _ ← rdG s f.rd
      needDest s f.rd)
    (fun s => do
      let r ← needRef (← rdG s f.ra) false
      let v ← rdG s f.rb
      let c ← rdG s f.rd
      if nPkg r ≠ s.fab.pkg then return askPark s (NodeJob.of 0x75 f.rd.toNat) 0x75 r [w, c.toNat, v.toNat]
      else
        let (s, old, st) := s.ncas s.myCtx r w c.toNat v.toNat
        wrLate (s.nodest st) f.rd (BitVec.ofNat 64 old)) s

/-! Paths -/

/-- Fields of KEYCTL (R409). -/
def kcVLU (k : Nat) : Nat := fld k 56 8
def kcLOSS (k : Nat) : Int := sint 8 (fld k 48 8)
def kcGAMMA (k : Nat) : Nat := fld k 32 16
def kcKAPPA (k : Nat) : Nat := fld k 16 16
def kcC (k : Nat) : Nat := fld k 0 16
def State.keyctl (s : State) : Nat := (s.ctx s.myCtx).keyctl.toNat

/-- NVLOSS (R407). -/
def execNvloss (f : S3) (s : State) : Out :=
  seqWord (fun s => do
    let r ← needRef (← rdG s f.ra) false
    heldNode s (.nvloss r (fld f.funct.toNat 0 8) (kcVLU s.keyctl))) s

/-- NBACKUP (R408): the value, and with M the variance, captured at issue. -/
def execNbackup (f : S3) (s : State) : Out :=
  seqWord (fun s => do
    let r ← needRef (← rdG s f.ra) false
    let b ← rdG s f.rb
    let n := f.funct.toNat
    let k := s.keyctl
    let put (s : State) (x : Nat) (v : Option Nat) : M State := do
      let bad := (fp32.dec x).isNan || (v.map (fun c => (fp32.dec c).isNan)).getD false
      let s := if bad then s.flags fNV else s
      heldNode s (.nbackup r (fld n 0 8) (if bad then 0 else x) (if bad then v.map (fun _ => 0) else v) n (kcVLU k) (kcGAMMA k))
    if bitOf n 8 then
      let o := b.toNat
      let al := s.me.alloc
      need (o + 8 ≤ al.regLen) cPERM pREGRANGE o
      need (o % 8 = 0) cALIGN 0 o
      need (s.myCore.regValid (al.regBase + o) 8) cINVREG 0 o
      let x := s.myCore.regs.num (al.regBase + o) 4
      let v := s.myCore.regs.num (al.regBase + o + 4) 4
      let neg := XR.lt (fp32.dec v) XR.zero && !(fp32.dec v).isNan
      if neg && !(bitOf s.me.csr.mctl.toNat 2) then trap cNEGVAR 0 (o + 4)
      else if neg then
        put (s.modMe (fun sl => sl.modCsr (fun c => { c with mctl := c.mctl ||| 8#64 }))) x (some 0)
      else put s x (some v)
    else
      need (b.toNat < 2 ^ 32) cILLEGAL 3 0
      put s b.toNat none) s

/-! Keys -/

/-- round_ne to FP32 of an exact value. -/
def rne32 (x : XR) : Nat := (fp32.rne x).1

/-- S1 and S2 of a record as reals (R405). -/
def recS1 (b : List Byte) : XR := XR.ofDy (sint 64 (recFld b 0 8)) (-32)
def recS2 (b : List Byte) : XR := XR.ofDy (recFld b 8 8) (-32)
def recN (b : List Byte) : Nat := recFld b 16 4
def recVL (b : List Byte) : Nat := recFld b 20 2

/-- The key of a record (R410): PUCT against its parent's record, if it has one that can be read, or UCB. -/
def nodeKey (ctl m : Nat) (b : List Byte) (par : Option (List Byte)) : Nat :=
  if m = 0 then
    let n := recN b + recVL b
    let q := if n = 0 then 0
      else rne32 (XR.div (XR.add (recS1 b) (XR.ofInt (recVL b * kcLOSS ctl))) (XR.ofInt n))
    let np := match par with | some p => recN p + recVL p | none => n
    let sq := rne32 (XR.sqrt (fp32.dec (rne32 (XR.ofInt np))))
    let cp := XR.mul (bf16.dec (kcC ctl)) (bf16.dec (recFld b 24 2))
    let u := rne32 (XR.div (XR.mul cp (fp32.dec sq)) (XR.ofInt (1 + n)))
    rne32 (XR.add (fp32.dec q) (fp32.dec u))
  else if recN b = 0 then 0x7F7FFFFF
  else
    let n := recN b
    let mean := fp32.dec (rne32 (XR.div (recS1 b) (XR.ofInt n)))
    let e2 := fp32.dec (rne32 (XR.div (recS2 b) (XR.ofInt n)))
    let var := fp32.dec (rne32 (XR.sub e2 (XR.mul mean mean)))
    let var := if XR.le var XR.zero then XR.zero else var
    let sd := fp32.dec (rne32 (XR.sqrt (fp32.dec (rne32 (XR.div var (XR.ofInt (n + 1)))))))
    rne32 (XR.add mean (XR.mul (bf16.dec (kcKAPPA ctl)) sd))

/-- −∞ (R410). -/
def negInf32 : Nat := 0xFF800000

/-- What a scan or a key does next: it has its result (value, status), or it needs a record of another package. -/
inductive NodeNext where
  | done (v st : Nat)
  | ask (ref : Nat) (j : NodeJob)

/-- A record of this package as a read finds it: its status, and its bytes. -/
def State.nodeGet (s : State) (r : Nat) : Nat × List Byte := (s.nodeSt r, s.nodeRec r)

/-- The end of a scan (R411). -/
def NodeJob.result (j : NodeJob) : NodeNext :=
  match j.best with
  | some (r, k) => .done (r + k * 2 ^ 32) stOK
  | none => .done 0xFFFFFFFF stNONE

/-- A child's record has come (R411): it is scored unless it is STALE, DEAD or CPEND, and the scan goes on at its next
sibling. -/
def NodeJob.score (j : NodeJob) (st : Nat) (b : List Byte) : NodeJob :=
  let ok := st = stOK && !bitOf (recFld b 22 2) flCPEND
  let k := nodeKey j.ctl j.m b (some j.rootRec)
  let better := match j.best with
    | none => true
    | some (_, k') => XR.lt (fp32.dec k') (fp32.dec k)
  { j with
    best := if ok && better then some (j.node, k) else j.best
    node := if st = stSTALE then nullRef else recFld b 36 4
    left := j.left - 1 }

/-- The children of a scan, one after another; it stops at one of another package, whose record must be asked for. -/
def State.scan (s : State) : Nat → NodeJob → NodeNext
  | 0, j => j.result
  | fuel + 1, j =>
    if j.left = 0 || j.node = nullRef then j.result
    else if nPkg j.node ≠ s.fab.pkg then .ask j.node { j with stage := 2 }
    else
      let (st, b) := s.nodeGet j.node
      State.scan s fuel (j.score st b)

/-- A record has come for a key or a scan (R410, R411). Stage 0: the node of NKEY, or g[ra] of NSELECT; stage 1: the
parent of NKEY; stage 2: a child. -/
def State.nodeStep (s : State) (j : NodeJob) (st : Nat) (b : List Byte) : NodeNext :=
  match j.stage with
  | 0 =>
    if j.op = 0x79 then
      if st ≠ stOK then .done negInf32 st
      else
        let par := recFld b 28 4
        if j.m ≠ 0 || par = nullRef || 81 ≤ nPkg par then .done (nodeKey j.ctl j.m b none) stOK
        else if nPkg par ≠ s.fab.pkg then .ask par { j with stage := 1, nodeRec := b }
        else
          let (sp, p) := s.nodeGet par
          .done (nodeKey j.ctl j.m b (if sp = stSTALE then none else some p)) stOK
    else if st ≠ stOK then .done 0xFFFFFFFF st
    else s.scan 65 { j with rootRec := b, node := recFld b 32 4 }
  | 1 => .done (nodeKey j.ctl j.m j.nodeRec (if st = stSTALE then none else some b)) stOK
  | _ => s.scan 65 (j.score st b)

/-- The first record of a key or a scan. -/
def State.nodeStart (s : State) (j : NodeJob) (r : Nat) : NodeNext :=
  if nPkg r ≠ s.fab.pkg then .ask r j
  else
    let (st, b) := s.nodeGet r
    s.nodeStep j st b

/-- NKEY and NSELECT (R410, R411). -/
def keyWord (f : S3) (op left : Nat) (lat : State → Nat → M State) (s : State) : M State := do
  let r ← needRef (← rdG s f.ra) false
  let j : NodeJob := { NodeJob.of op f.rd.toNat with m := f.funct.toNat % 2, ctl := s.keyctl, left := left, root := r, node := r }
  match s.nodeStart j r with
  | .done v st => lat ((s.countSt s.myCtx r (if st = stNONE then stOK else st)).nodest st) v
  | .ask r' j => askInto s f.rd j 0x72 r' [8]

/-- The children a scan from a record of this package looks at; a stale one is the last (R411). -/
def State.scanned (s : State) : Nat → Nat → Nat
  | 0, _ => 0
  | n + 1, r =>
    if r = nullRef || nPkg r ≠ s.fab.pkg then 0
    else 1 + (if s.nodeSt r = stSTALE then 0 else State.scanned s n (s.nf r 36 4))

def execNkey (f : S3) (s : State) : Out :=
  seqWord (keyWord f 0x79 0 (fun s v => wrLate s f.rd (BitVec.ofNat 64 v))) s

def execNselect (f : S3) (s : State) : Out :=
  let n := fld f.funct.toNat 1 6 + 1
  seqWord (keyWord f 0x78 n (fun s v =>
    let r := (s.me.greg f.ra.toNat).toNat % 2 ^ 32
    let k := if s.nodeSt r = stOK then s.scanned n (s.nf r 32 4) else 0
    wrLocked s f.rd (BitVec.ofNat 64 v) (20 + 16 * k))) s

/-! The batch former's words -/

/-- A weight set must be 0 to 255 (R413, R417). -/
def needSet (a : Word) : M Nat := do
  need (a.toNat < 256) cILLEGAL 3 0
  return a.toNat

/-- The batch area of a weight set: a UINT8 layout-0 tensor of the context, homed here, that holds its buffers (R413). -/
def State.areaOk (s : State) (ctx va nb : Nat) : Bool :=
  let d := Desc.parse (s.dram.bytes (s.ttbase ctx + 64 * (va / 2 ^ 52 % 4096)) 64)
  d.fmt = 0xC && d.layout = 0 && d.ok && d.owner = ctx && !d.partd && !d.hosted && va % 2 ^ 52 + nb * 8320 ≤ d.size

/-- BFCFG (R413). -/
def execBfcfg (f : S3) (s : State) : Out :=
  seqWord (fun s => do
    let ws ← needSet (← rdG s f.ra)
    let a := (← rdG s f.rb).toNat
    let ctx := s.myCtx
    need (a % 32 = 0) cALIGN 0 a
    need (a + 32 ≤ s.me.alloc.spLen) cPERM pRANGE a
    watermark s ctx 1 a 32
    let b := s.myCore.scratch.bytes (s.me.alloc.spBase + a) 32
    let g (o n : Nat) : Nat := recFld b o n
    let max := g 0 2
    let va := g 8 8
    let nb := g 16 1
    need (g 17 15 = 0) cILLEGAL 3 0
    need (max = 0 || (max ≤ 256 && g 2 2 < 4096 && 1 ≤ g 4 4 && g 4 4 ≤ 10000000 && va % 64 = 0 && 1 ≤ nb && nb ≤ 16
      && s.areaOk ctx va nb))
      cILLEGAL 3 0
    let old := s.set ctx ws
    let same := old.maxrows = max && (max = 0 || (old.record = g 2 2 && old.window = g 4 4 && old.area = va && old.nb = nb))
    if same then return s.nodest stOK
    else
      let s := s.batchForm ctx ws 2
      let was := s.set ctx ws
      if max = 0 then
        return ((s.modSet ctx ws (fun o => { o with maxrows := 0 })).disown was ctx ws old.record).nodest stOK
      else
        let r := g 2 2
        if !(s.recState ctx r = 0 && (!s.recBit ctx r 6 || was.holds r)) then return s.nodest stBUSY
        else
          let s := s.modSet ctx ws (fun o => { o with
            maxrows := max, record := r, window := g 4 4, area := va, nb := nb, count := 0, revoked := 0 })
          return ((s.disown was ctx ws old.record).setRecBit ctx r 6 true).nodest stOK) s

/-- BFSTAT (R417). -/
def execBfstat (f : S3) (s : State) : Out :=
  seqWord (fun s => do
    let ws ← needSet (← rdG s f.ra)
    let b := s.set s.myCtx ws
    let v := match f.funct.toNat % 4 with
      | 0 => b.rows.length
      | 1 => b.waiting.length
      | 2 => b.count % 2 ^ 32
      | _ => b.revoked
    wrLocked s f.rd (BitVec.ofNat 64 v) 4) s

/-- BFFLUSH (R417). -/
def execBfflush (f : SI) (s : State) : Out :=
  seqWord (fun s =>
    let n := f.imm.toNat
    let ctx := s.myCtx
    let l := if bitOf n 8 then (s.ctx ctx).sets.map (·.1) else [n % 256]
    return l.foldl (fun s ws => s.batchForm ctx ws 2) s) s

end Sys2Proof.Machine
end

