-- ==== Sys2Proof/Machine/Fabric.lean ====
section
/-! DEFINITION. The fabric's hardware steps (14 R334 to R363, 16 R406): packets performed at this package, answers to what
it has sent, fence intervals, pull tokens, and links. The occasion of a packet holds, beside the packet, the stream of its
source agent, which the header does not carry (log entry 22), and the port it came in by. -/

namespace Sys2Proof.Machine
open Sys2Proof

/-- The result of a hardware step. -/
abbrev Ev := Except Fault State

def evOut (r : Ev) : Out := match r with | .ok s => .next s | .error f => .fault f

/-- A packet is dropped and counted (R337, R349, R465). -/
def State.dropPkt (s : State) : State :=
  { s with fab := { s.fab with dropped := s.fab.dropped + 1 } }.count2 (s.occ.b % 128) 0x06 1

/-- Data are discarded and counted (R360, R465). -/
def State.dropData (s : State) : State :=
  { s with fab := { s.fab with dropped := s.fab.dropped + 1 } }.count2 (s.occ.b % 128) 0x07 1

/-- A packet arrives: one of another type is dropped, one for another package goes on (R334, R335, R337). -/
def arriving (type : Nat) (act : State → Packet → Ev) (s : State) : Out :=
  let p := s.occ.pkt
  if p.type ≠ type then .next s.dropPkt
  else if p.dst ≠ s.fab.pkg then
    .next ((if p.detour then s.count2 (s.occ.b % 128) 0x05 1 else s).send { p with hops := p.hops + 1 })
  else evOut (act s p)

/-- The unit of a packet's source. -/
def pUnit (p : Packet) : Nat := 4 * p.score + p.sslot

/-- A flow at its target (R334): source package, agent, tensor. -/
def inKey (p : Packet) (strm : Nat) : Nat := (p.src * 4096 + pUnit p * 8 + strm % 8) * 4096 + p.tensor

/-- An answer to a packet, which carries its names back. -/
def State.reply (s : State) (p : Packet) (type : Nat) : Packet :=
  { s.pkt type p.src p.ctx with
    score := p.score, sslot := p.sslot, tensor := p.tensor, fseq := p.fseq, offset := p.offset, interval := p.interval, tag := p.tag }

/-- An error packet (R338, R339): the refused packet's type in AUX, and in OPERAND the subcause and cause, or bit 31 and a
tile (log entry 11). -/
def State.refuse (s : State) (p : Packet) (cause sub : Nat) (tile : Option Nat) : State :=
  s.send { s.reply p 0x3F with
    aux := p.type
    operand := BitVec.ofNat 64 (sub % 256 + cause * 2 ^ 8 + (match tile with | some t => 2 ^ 31 + t * 2 ^ 32 | none => 0)) }

/-! Fence intervals at the target (R350 to R352) -/

/-- Counted packets received of an interval. -/
def State.gotCount (s : State) (src ctx seq iv : Nat) : Nat :=
  ((s.fab.counts.find? (fun e => e.1 == src && e.2.1 == ctx && e.2.2.1 == seq && e.2.2.2.1 == iv)).map (·.2.2.2.2)).getD 0

/-- The answer to an interval close: the interval's count is done with, and a mismatch is also placed in the fabric event
queue here. OPERAND is 1 for a mismatch, with the count received (log entry 11). -/
def State.closeAnswer (s : State) (c : Packet) (got : Nat) : State :=
  let want := c.operand.toNat
  let mine (p : Packet) : Bool := p.src == c.src && p.ctx == c.ctx && p.tag == c.tag && p.interval == c.interval
  let s := { s with fab := { s.fab with
    counts := s.fab.counts.filter (fun e => !(e.1 == c.src && e.2.1 == c.ctx && e.2.2.1 == c.tag && e.2.2.2.1 == c.interval))
    closes := s.fab.closes.filter (fun e => !mine e.2)
    events := if got = want then s.fab.events
      else s.fab.events ++ ([[c.ctx, c.src, c.tag, c.interval, want, got]] : List (List Nat)) } }
  s.send { s.reply c 0x21 with operand := BitVec.ofNat 64 (b2n (got ≠ want) + got * 2 ^ 32) }

/-- A counted packet has arrived (R350): a close that waits for it may be answered now. -/
def State.countGot (s : State) (p : Packet) : State :=
  let n := s.gotCount p.src p.ctx p.tag p.interval + 1
  let hit (e : Nat × Nat × Nat × Nat × Nat) : Bool :=
    e.1 == p.src && e.2.1 == p.ctx && e.2.2.1 == p.tag && e.2.2.2.1 == p.interval
  let s := { s with fab := { s.fab with
    counts := (p.src, p.ctx, p.tag, p.interval, n) :: s.fab.counts.filter (fun e => !hit e) } }
  match s.fab.closes.find? (fun e => e.2.src == p.src && e.2.ctx == p.ctx && e.2.tag == p.tag && e.2.interval == p.interval) with
  | some (_, c) => if c.operand.toNat ≤ n then s.closeAnswer c n else s
  | none => s

/-- A write packet counts in its source's interval (R350). -/
def counted (p : Packet) : Bool := p.type = 0x03 || p.type = 0x07 || p.type = 0x12

/-- A multicast packet that another package has forwarded (R349). -/
def forwarded (p : Packet) : Bool := p.type = 0x07 && 2 ≤ p.hops

/-! Accesses at their home (R338, R339) -/

/-- The context of a packet is set up here: its register block has been written (DEDUCED: log entry 22). -/
def needCtx (s : State) (p : Packet) : M Unit := need (!(s.ctx p.ctx).block.isEmpty) cPERM pNOCTX 0

/-- Where `n` bytes of a packet's tensor stand, through this package's own tables, with the checks of a local access. -/
def fabPlace (s : State) (p : Packet) (n : Nat) (wr : Bool) : M (List Place) := do
  needCtx s p
  let va := p.tensor * 2 ^ 52 + p.offset
  let (s, d) ← openTensor { s with cores := [] } 0 ptACC p.ctx va n wr
  need (!d.hosted) cPERM pSPACE va
  let (_, ps) ← placeBytes 0 ptACC p.ctx p.tensor d s p.offset n
  need (ps.all (fun q => match q with | .dev _ => true | _ => false)) cPERM pSPACE va
  return ps

/-- READ (R338, R340): a line that a sequencer load fetches is cut to the tensor's view. -/
def serveRead (s : State) (strm : Nat) (p : Packet) : M State := do
  needCtx s p
  let va := p.tensor * 2 ^ 52 + p.offset
  let (_, d) ← getDesc { s with cores := [] } 0 ptACC p.ctx p.tensor va
  need (p.offset < d.size) cPERM pRANGE va
  let n := p.operand.toNat
  let n := if strm = 0 && n = 256 then min n (d.size - p.offset) else n
  let bs ← s.getMems (← fabPlace s p n false)
  return s.send { s.reply p 0x02 with operand := BitVec.ofNat 64 bs.length, payload := bs }

/-- WRITE (R348). -/
def serveWrite (s : State) (p : Packet) : M State := do
  let ps ← fabPlace s p p.payload.length true
  s.putMems (ps.zip p.payload)

/-- ATOMIC (R143, R144, R347): one with a payload compares with OPERAND and writes the payload. -/
def serveAtomic (s : State) (p : Packet) : M State := do
  let n := if fld p.aux 4 2 = 2 then 4 else 8
  let ps ← fabPlace s p n true
  let old := leNat (← s.getMems ps)
  let cas := if p.payload.isEmpty then none else some (BitVec.ofNat 64 (leNat p.payload))
  let r := RemOp.new ⟨0, 0, p.aux % 16, n, p.operand, cas, 0⟩ old
  let s ← s.putMems (ps.zip (leBytes n r.1))
  return s.send { s.reply p 0x06 with operand := BitVec.ofNat 64 old, aux := r.2 }

/-- The fabric error interrupt at the DCC (R349). -/
def fabricIrq : Nat := 256

/-- The flow of the multicast packets that this package forwards from a source agent to a package: it numbers them anew, as the
source's own numbers are those of the flow to this package (DESIGN CHOICE: log entry 22). -/
def passKey (p : Packet) (strm pkg : Nat) : Nat := 2 ^ 60 + inKey p strm * 128 + pkg

/-- A multicast packet is forwarded to every peer that the group's entry names, but the one it came from (R349). -/
def State.forward (s : State) (strm : Nat) (p : Packet) : State :=
  ((s.groupPeers (s.group (p.operand.toNat % 2 ^ 16))).filter (fun k => k ≠ p.src)).foldl (fun s k =>
    let (q, s) := s.nextFseq (passKey p strm k)
    s.send { p with dst := k, hops := p.hops + 1, fseq := q }) s

/-- A multicast packet at this package (R349): dropped, with an interrupt, when the group's entry is not valid; else forwarded, but
after two hops, and then written here when L is set. Answers whether it is to be written. -/
def State.mcast (s : State) (strm : Nat) (p : Packet) : State × Bool :=
  let g := s.group (p.operand.toNat % 2 ^ 16)
  if !bitOf g 17 then
    ({ s.dropPkt with hub := { s.hub with dccIrq := s.hub.dccIrq ++ [(fabricIrq, p.ctx)] } }, false)
  else (if forwarded p then s else s.forward strm p, bitOf g 16)

/-- Pull data (R354, R357, R360): taken for a live token, or as the request's prefix, when its unit is not received. -/
def State.pullData (s : State) (p : Packet) : State :=
  let o := p.operand.toNat
  let k := fld o 16 10
  let j := p.offset / 4096
  let tok := o / 2 ^ 32
  match s.recv p.ctx k with
  | none => s.dropData
  | some r =>
    let mine := match r.msg with | some (src, seq, mid, _, _) => src = p.src && seq = p.tag && mid = o % 2 ^ 16 | none => false
    let live := (tok = 0 && j < r.due) || s.fab.tokens.any (fun t =>
      t.id % 2 ^ 32 == tok && t.ctx == p.ctx && t.slot == k && t.first ≤ j && j < t.first + t.count)
    if mine && live && !bitOf r.units j && !r.saved then s.recvData p.ctx k p.offset p.payload else s.dropData

/-- A request that meets an error at its home: the tile is posted and the source's management core is to be told when it
is resident (R339); any other breach goes back as the fault it would be (R338). -/
def served (s : State) (p : Packet) (r : M State) : Ev :=
  match r with
  | .ok t => .ok t
  | .error (.trap t) => .ok (s.refuse p t.cause t.sub none)
  | .error (.tile tid tile) =>
    .ok ({ s.postTile p.ctx tid tile (pUnit p) with
      fab := { s.fab with notices := s.fab.notices ++ [(p.ctx, tid, tile, p.src)] } }.refuse p 0 0 (some tile))
  | .error (.stop f) => .error f
  | .error _ => .ok s

/-! Node operations (R406) -/

/-- The result of a node operation goes to the package that asked, when it wants one. -/
def State.nodeReply (s : State) (p : Packet) (st : Nat) (vals : List Byte) : State :=
  if p.tag = 0 then s
  else s.send { s.pkt 0x31 p.interval p.ctx with
    aux := p.aux, operand := BitVec.ofNat 64 st, tag := p.tag, payload := vals }

/-- A path that goes on at another package answers from there; a clamp met here is told at once, marked as not the last
word (INTERVAL 1, log entry 11). -/
def State.pathReply (s0 : State) (p : Packet) (r : State × Nat) : State :=
  let (s, st) := r
  if s0.fab.outbox.length < s.fab.outbox.length then
    if st = stOK || p.tag = 0 then s
    else s.send { s.pkt 0x31 p.interval p.ctx with aux := p.aux, operand := BitVec.ofNat 64 st, tag := p.tag, interval := 1 }
  else s.nodeReply p st []

/-- A cancel from another package (R395, R396 step 7): a walk here, or the one that covers the node already, acknowledged when it is
done, for a child with its next sibling; a node STALE or DEAD is acknowledged at once. -/
def State.cancelFar (s : State) (p : Packet) (r : Nat) (sub kid : Bool) : State :=
  let after := if kid && s.nodeSt r ≠ stSTALE then some (s.nf r 36 4) else none
  let re := if p.tag = 0 then [] else [(p.interval, p.tag, after)]
  match s.nodeSt r, s.nflag r flCPEND, s.walkOf r with
  | 0, false, _ =>
    let s := s.setNflag r flCPEND true
    { s with
      walks := s.walks ++ ([⟨s.nextWalk, p.ctx, r, sub, [], [r], 0, [], re, none⟩] : List Walk), nextWalk := s.nextWalk + 1 }
  | st, true, some w =>
    if st = stSTALE then (s.countSt p.ctx r st).nodeReply p st []
    else s.modWalk w.id (fun v => { v with replies := v.replies ++ re })
  | st, _, _ => (s.countSt p.ctx r st).nodeReply p st ((after.map (leBytes 4)).getD [])

/-- A child homed elsewhere is linked under a parent of this package (R398, R404): the old FIRST, which becomes the child's
NEXT, and the grammar fields. -/
def State.linkFar (s : State) (p : Packet) (par c mode : Nat) : State :=
  let st := s.nodeSt par
  if st ≠ stOK then (s.countSt p.ctx par st).nodeReply p st []
  else
    let old := s.nf par 32 4
    let s := (s.setNf par 32 4 c).setNf par 26 2 (min (s.nf par 26 2 + 1) 0xFFFF)
    let s := if mode = 0 then s.nodeOp p.ctx opNEXT c [old] else s
    s.nodeReply p stOK (leBytes 4 old ++ leBytes 4 (s.nf par 52 4) ++ leBytes 4 (s.nf par 56 4))

/-- NST performed at a node's home (R400). -/
def State.nst (s : State) (ctx r w mask v : Nat) : State × Nat :=
  let st := s.nodeSt r
  if st ≠ stOK then (s.countSt ctx r st, st)
  else
    let l := (((List.range 8).zip (leBytes 8 v)).filter (fun e => bitOf mask e.1 && nodeSoft (8 * w + e.1))).map
      (fun e => (8 * w + e.1, e.2))
    (s.nodeWrite ctx r l, stOK)

/-- The run of a launch record of a context. -/
def State.runOf (s : State) (ctx record : Nat) : Nat :=
  ((s.runs.find? (fun r => r.ctx == ctx && r.record == record)).map (·.id)).getD 0

/-- A node operation is performed (R406). -/
def State.serveNode (s : State) (p : Packet) : State :=
  let r := p.operand.toNat % 2 ^ 32
  let a := (pieces 8 (p.payload.length / 8) p.payload).map leNat
  let x := nth 0 a 0
  let y := nth 0 a 1
  let z := nth 0 a 2
  let mk (s : State) : (Nat × Nat) × State := ((p.interval, p.tag), s)
  if (s.ctx p.ctx).block.isEmpty then s.refuse p cPERM pNOCTX none
  else match p.aux with
    | 0x72 =>
      let st := s.nodeSt r
      let b := s.nsm.bytes (nAddr r) 64
      (s.countSt p.ctx r st).nodeReply p st (if x = 8 then b else (b.drop (8 * x)).take 8)
    | 0x64 => let (s, st) := s.tjoin p.ctx r x y; s.nodeReply p st []
    | 0x70 => let (s, c, st) := s.nalloc p.ctx (nDie r) r x; s.nodeReply p st (leBytes 8 c)
    | 0x71 => let (s, st) := s.nfree p.ctx r; (s.countSt p.ctx r (if st = stSTALE then st else stOK)).nodeReply p st []
    | 0x73 => let (s, st) := s.nst p.ctx r x y z; s.nodeReply p st []
    | 0x74 => let (s, old, st) := s.nadd p.ctx r x (BitVec.ofNat 64 y); s.nodeReply p st (leBytes 8 old)
    | 0x75 => let (s, old, st) := s.ncas p.ctx r x y z; s.nodeReply p st (leBytes 8 old)
    | 0x76 => s.pathReply p (State.pathVloss p.ctx y mk chainFuel s r x)
    | 0x77 =>
      let fl := nth 0 a 3
      s.pathReply p (State.pathBackup p.ctx fl (nth 0 a 4) (nth 0 a 5) mk chainFuel s r x y (if bitOf fl 8 then some z else none))
    | 0x7A => s.pathReply p (s.nlink p.ctx r x mk)
    | 0xE0 => { s with joins := s.joins ++ ([⟨r, p.ctx, x, s.runOf p.ctx x, 512, y, (p.interval, p.tag)⟩] : List JoinDec) }
    | 0xE1 => s.dropChild p.ctx r x y
    | 0xE2 => s.cancelFar p r (x ≠ 0) (y ≠ 0)
    | 0xE3 => s.linkFar p r x y
    | 0xE4 => if s.nodeSt r = stOK then s.setNf r 36 4 x else s
    | 0xE5 => State.skipChild p.ctx x y chainFuel s r
    | _ => s.dropPkt

/-! Flow order (R334, R335) -/

/-- A packet of a flow is performed. -/
def perform (s : State) (strm : Nat) (p : Packet) : Ev :=
  match p.type with
  | 0x01 => served s p (serveRead s strm p)
  | 0x03 => served s p (serveWrite s p)
  | 0x05 => served s p (serveAtomic s p)
  | 0x07 => let (s, wr) := s.mcast strm p; if wr then served s p (serveWrite s p) else .ok s
  | 0x12 => .ok (s.pullData p)
  | 0x30 => .ok (s.serveNode p)
  | _ => .ok s

/-- The next sequence number a flow performs. -/
def State.expect (s : State) (k : Nat) : Nat := Tbl.get 0 s.fab.recvSeq k % 4096

/-- A flow passes its next number, which is no longer missing. -/
def State.passed (s : State) (k : Nat) : State :=
  let e := s.expect k
  { s with fab := { s.fab with
    recvSeq := Tbl.set 0 s.fab.recvSeq k ((e + 1) % 4096), gaps := s.fab.gaps.filter (fun g => !(g.1 == k && g.2.1 == e)) } }

/-- A counted write is performed in its flow: a forwarded copy counts among those of its source agent (R348). -/
def State.copied (s : State) (strm : Nat) (p : Packet) : State :=
  if forwarded p then
    { s with fab := { s.fab with copies := Tbl.set 0 s.fab.copies (inKey p strm) (Tbl.get 0 s.fab.copies (inKey p strm) + 1) } }
  else s

/-- The early packets of a flow that now come next are performed. -/
def drainEarly (k strm : Nat) : Nat → State → Ev
  | 0, s => .ok s
  | n + 1, s =>
    match s.fab.early.find? (fun e => e.1 == k && e.2.fseq == s.expect k) with
    | some e =>
      match perform { s with fab := { s.fab with early := s.fab.early.erase e } } strm e.2 with
      | .ok s => drainEarly k strm n ((s.passed k).copied strm e.2)
      | .error f => .error f
    | none => .ok s

/-- The cumulative acknowledgement of a flow's writes (R348): the last number performed, with the source's stream in AUX; of
forwarded copies their count from 0, with 8 more in AUX (log entry 11). -/
def State.ackFlow (s : State) (p : Packet) (strm k : Nat) : State :=
  let far := forwarded p
  s.send { s.reply p 0x04 with
    fseq := ((if far then Tbl.get 0 s.fab.copies (inKey p strm) else s.expect k) + 4095) % 4096
    aux := strm + 8 * b2n far, tag := 0, offset := 0 }

/-- The flow that a packet stands in at this package: its source agent's, or for a forwarded copy that of the package it came
from, which the occasion says (R334, R349). -/
def State.flowOf (s : State) (strm : Nat) (p : Packet) : Nat :=
  inKey p strm + (if forwarded p then (s.occ.c % 81 + 1) * 2 ^ 60 else 0)

/-- The numbers of a flow that a later packet shows to be missing, with the clock. -/
def State.missing (s : State) (k d : Nat) : List (Nat × Nat × Nat) :=
  (((List.range d).map (fun i => (s.expect k + i) % 4096)).filter (fun q =>
    !s.fab.early.any (fun e => e.1 == k && e.2.fseq == q) && !s.fab.gaps.any (fun g => g.1 == k && g.2.1 == q))).map
      (fun q => (k, q, s.clock))

/-- A packet of a flow in its place, early, or too late to be performed (R335). A write is counted in each case (R350); pull data
of this package for itself are neither counted nor in a flow (R348). -/
def inFlow (s : State) (strm : Nat) (p : Packet) : Ev :=
  if p.src = s.fab.pkg then perform s strm p
  else
  let k := s.flowOf strm p
  let s := if counted p then s.countGot p else s
  let d := (p.fseq + 4096 - s.expect k) % 4096
  if d = 0 then
    let ack := counted p || s.fab.early.any (fun e => e.1 == k && counted e.2)
    match perform s strm p with
    | .error f => .error f
    | .ok s =>
      match drainEarly k strm 4096 ((s.passed k).copied strm p) with
      | .error f => .error f
      | .ok s => .ok (if ack then s.ackFlow p strm k else s)
  else if d < 2048 then
    .ok { s with fab := { s.fab with early := s.fab.early ++ [(k, p)], gaps := s.fab.gaps ++ s.missing k d } }
  else .ok { s with fab := { s.fab with late := s.fab.late + 1 } }

/-- REORDER_GAP_TIMEOUT (R335): 10 µs after a later one, a missing number is passed over and the gap recorded. -/
def execReorderGapTimeout (s : State) : Out :=
  let k := (s.occ.a * 4096 + s.occ.b) * 4096 + s.occ.c + s.occ.d * 2 ^ 60
  match s.fab.gaps.find? (fun g => g.1 == k && g.2.1 == s.expect k) with
  | none => .next s
  | some g =>
    if s.clock < g.2.2 + usClk 10 then .next s
    else
      let ack := s.fab.early.find? (fun x => x.1 == k && counted x.2)
      match drainEarly k (s.occ.b % 8) 4096 ((s.passed k).bump 11) with
      | .error f => .fault f
      | .ok s => .next (match ack with | some x => s.ackFlow x.2 (s.occ.b % 8) k | none => s)

def execReadPacket (s : State) : Out := arriving 0x01 (fun s p => inFlow s s.occ.a p) s
def execWritePacket (s : State) : Out := arriving 0x03 (fun s p => inFlow s s.occ.a p) s
def execAtomicPacket (s : State) : Out := arriving 0x05 (fun s p => inFlow s s.occ.a p) s

def execMulticastWritePacket (s : State) : Out := arriving 0x07 (fun s p => inFlow s s.occ.a p) s

def execPullDataPacket (s : State) : Out := arriving 0x12 (fun s p => inFlow s s.occ.a p) s

/-- NODE_OPERATION_PACKET: those of a slot stand in its flow (stream 5), those of the hub's walker and of chains passed on
do not. -/
def execNodeOperationPacket (s : State) : Out :=
  arriving 0x30 (fun s p => if s.occ.a = 5 then inFlow s 5 p else .ok (s.serveNode p)) s

/-! Answers at the source -/

/-- The largest number of packets of a flow that an acknowledgement of sequence number `f` can mean. -/
def ackCount (sent f : Nat) : Nat := sent - (sent + 4096 - (f + 1) % 4096) % 4096

/-- Slots whose CINV or release has all its acknowledgements go on, as do the first words of tasks that waited for theirs (R148,
R187). -/
def State.acksCame (s : State) : State :=
  s.slots.foldl (fun s (e : Nat × Slot) =>
    let sl := s.slot e.1
    if sl.acks.isEmpty || !s.ackedAll sl.acks then s
    else if sl.pend.any (fun p => p.tag = cinvTag) then s.modSlot e.1 (fun sl => { sl.answer cinvTag 0 s.clock with acks := [] })
    else if sl.hold = .acks then s.modSlot e.1 (fun sl => { sl with hold := .none, acks := [] })
    else s) s

/-- WRITE_ACK_PACKET (R348): cumulative. -/
def execWriteAckPacket (s : State) : Out :=
  arriving 0x04 (fun s p =>
    let k := flowKey (pUnit p) (p.aux % 8) p.src p.tensor
    let k := if bitOf p.aux 3 then farKey k else k
    let n := ackCount (Tbl.get 0 s.fab.sendSeq k) p.fseq
    let s := { s with fab := { s.fab with unacked := Tbl.set 0 s.fab.unacked k (max n (Tbl.get 0 s.fab.unacked k)) } }
    .ok (s.flowDone k (fun q => (p.fseq + 4096 - q) % 4096 < 2048)).acksCame) s

/-- A read or an atomic is answered: its number no longer stands against its flow (R334). -/
def State.answered (s : State) (strm : Nat) (p : Packet) : State :=
  s.flowDone (flowKey (pUnit p) strm p.src p.tensor) (fun q => q = p.fseq)

/-- The request that a tag names. -/
def State.req (s : State) (tag : Nat) : Option Req := (s.fab.reqs.find? (fun e => e.1 == tag)).map (·.2)
def State.dropReq (s : State) (tag : Nat) : State := { s with fab := { s.fab with reqs := Tbl.del s.fab.reqs tag } }

/-- The stream of the flow in which a request went out. -/
def Req.strm : Req → Nat
  | .load .. | .atomic .. | .held .. => 0
  | .toOq .. | .toSp .. | .toRes .. => 4
  | _ => 5

/-- A request has its answer. -/
def State.closeReq (s : State) (p : Packet) : State :=
  (match s.req p.tag with | some r => s.answered r.strm p | none => s).dropReq p.tag

/-- An answer for a stopped core waits until the core runs again. -/
def unlessStopped (s : State) (u : Nat) (p : Packet) (r : Ev) : Ev :=
  if (s.core (coreOf u)).stopped.isSome then .ok { s with fab := { s.fab with inbox := s.fab.inbox ++ [p] } } else r

/-- The engine entries of a slot, its own or its draining rings', changed. -/
def State.mapEng (s : State) (u : Nat) (f : InFlight → InFlight) : State :=
  s.modSlot u (fun sl => { sl with
    eng := sl.eng.map (fun e => (e.1, f e.2))
    drain := sl.drain.map (fun d => { d with eng := d.eng.map (fun e => (e.1, f e.2)) }) })

/-- What a tag stood for has come: no entry waits for it. -/
def State.dropWait (s : State) (u tag : Nat) : State :=
  s.mapEng u (fun f => { f with waits := f.waits.filter (· ≠ tag) })

/-- The access-core entry that waits for a tag: whether a draining ring's, and the entry. -/
def State.waiter (s : State) (u tag : Nat) : Option (Bool × InFlight) :=
  [false, true].findSome? (fun d =>
    if d && (s.slot u).drain.isNone then none
    else ((s.view u d).eng.find? (fun e => e.1 == 3 && e.2.waits.contains tag)).map (fun e => (d, e.2)))

/-- The access-core entry of a slot leaves its engine without completing. -/
def State.dropEntry (s : State) (u : Nat) (drain : Bool) : State :=
  let sl := s.view u drain
  s.setView u drain { sl with eng := Tbl.del sl.eng 3 }

/-- What a slot reserved for an answer is given up: the pending write, and the hold of a word that waited for it. -/
def State.forgo (s : State) (u tag : Nat) : State :=
  s.modSlot u (fun sl =>
    let sl := { sl with pend := sl.pend.filter (fun p => p.tag ≠ tag) }
    match sl.hold with
    | .remote t _ => if t = tag then { sl with hold := .none, inHand := none } else sl
    | _ => sl)

/-- An acquire that a remote access carried is done, and its hold ends (R176, R177). -/
def State.acquiredBy (s : State) (u tag : Nat) : State :=
  match (s.slot u).hold with
  | .remote t a =>
    if t ≠ tag then s
    else
      let s := if 0 < a then s.modCore (coreOf u) (fun c => c.acquire (a - 1)) else s
      if (s.slot u).inHand.isNone then s.modSlot u (fun sl => { sl with hold := .none }) else s
  | _ => s

/-- Bytes that came for a line enter it below its valid bytes (R340). -/
def State.fillLine (s : State) (u pkg va cache : Nat) (off : Nat) (bs : List Byte) : State :=
  let ctx := (s.slot u).ctx
  let tid := va / 2 ^ 52 % 4096
  let line := va % 2 ^ 52 / 256
  let l := ((s.core (coreOf u)).rcFind pkg ctx tid line).getD ⟨pkg, ctx, tid, line, [], [], 0, false, (s.slot u).tk.seq, u⟩
  let data := (bs.zip (List.range bs.length)).foldl (fun d e =>
    let k := off % 256 + e.2
    if d.any (fun x => x.1 == k) then d else Tbl.put d k e.1) l.data
  s.rcInsert (coreOf u) { l with data := data, keep := l.keep || cache = 2 }

/-- A load's data (R340): the line is filled, the register takes the bytes, those of the store buffer and of valid line
bytes first. Bytes still missing lie beyond the view: the fault comes on stream 4 (R338). -/
def State.gotLoad (s : State) (tag u n : Nat) (signed : Bool) (pkg va cache : Nat) (p : Packet) : State :=
  let s := if cache = 0 || cache = 2 then s.fillLine u pkg va cache p.offset p.payload else s
  let byte (k : Nat) : Option Byte :=
    match s.remByte u pkg cache (va + k) with
    | some b => some b
    | none =>
      let o := va % 2 ^ 52 + k
      if p.offset ≤ o && o < p.offset + p.payload.length then some (nth 0 p.payload (o - p.offset)) else none
  match (List.range n).mapM byte with
  | some bs => (s.modSlot u (fun sl => sl.answer tag (loadVal signed n bs) s.clock)).acquiredBy u tag
  | none => (s.forgo u tag).coreStop u .acc ⟨cPERM, pRANGE, va⟩ 0 false

/-- READ_DATA_PACKET (R340, R342, R346). -/
def execReadDataPacket (s : State) : Out :=
  arriving 0x02 (fun s p =>
    match s.req p.tag with
    | some (.load u _ n signed pkg va cache) =>
      unlessStopped s u p (.ok ((s.closeReq p).gotLoad p.tag u n signed pkg va cache p))
    | some (.toOq u q pkg va n) =>
      let core := coreOf u
      let ctx := if (s.slot u).task.isSome then (s.slot u).ctx else (s.view u true).ctx
      let bs := ((s.rcBytes core pkg ctx va n).zip p.payload).map (fun e => e.1.getD e.2)
      let x := s.oq core q
      let x := { x with flight := x.flight.map (fun (e : Nat × Option (List Byte)) => if e.1 == p.tag then (0, some (oqEntry bs)) else e) }.settle
      unlessStopped s u p (.ok (((s.closeReq p).setOq core q x).dropWait u p.tag))
    | some (.toSp u a pkg va n) =>
      let core := coreOf u
      let ctx := (s.view u ((s.waiter u p.tag).map (·.1) = some true)).ctx
      let bs := ((s.rcBytes core pkg ctx va n).zip p.payload).map (fun e => e.1.getD e.2)
      unlessStopped s u p (.ok (((s.closeReq p).modCore core (fun c => { c with scratch := c.scratch.store a bs })).dropWait u p.tag))
    | _ => .ok s) s

/-- A remote entry of a RATOM or RCAS has come back, or been refused (R347). -/
def State.gotRes (s : State) (u : Nat) (drain : Bool) (j : Nat) (todo : List RemOp) (tag : Nat) (r : Except Trap (Nat × Nat)) :
    State :=
  let word := ((s.view u drain).eng.find? (fun e => e.1 == 3)).bind (fun e => e.2.words.head?)
  let stop (s : State) (t : Trap) (j fl : Nat) : State :=
    let fl := orF fl ((((s.view u drain).eng.find? (fun e => e.1 == 3)).map (·.2.flags)).getD 0)
    ((s.keepIdx u drain j fl).dropEntry u drain).coreStop u .acc t (word.getD 0) drain
  match r, todo with
  | .error t, _ => stop s { t with sub := t.sub + 256 * j } j 0
  | .ok (old, fl), o :: rest =>
    let (s, fl, res) := runAtoms u drain (s.putRes (coreOf u) o old) (j + 1) fl rest
    match res with
    | .error t => stop s t (t.sub / 256) fl
    | .ok next =>
      s.mapEng u (fun f => if f.waits.contains tag then { f with waits := next.toList, flags := orF f.flags fl } else f)
  | .ok _, [] => s.dropWait u tag

/-- ATOMIC_RESULT_PACKET (R145, R347): the old value in OPERAND, the flags in AUX (log entry 11). -/
def execAtomicResultPacket (s : State) : Out :=
  arriving 0x06 (fun s p =>
    match s.req p.tag with
    | some (.atomic u rd _) =>
      unlessStopped s u p (.ok ((((s.closeReq p).raiseAt u p.aux 0 0).acquiredBy u p.tag).unpark u rd p.operand))
    | some (.held u word addr ctx seq) =>
      let s' := s.closeReq p
      unlessStopped s u p (.ok (
        if (s'.slot u).task.any (fun t => t.ctx == ctx && t.seq == seq) then
          let x := s'.raiseAt u p.aux addr word
          match (x.slot u).latch with
          | some t => if (s'.slot u).latch.isNone then x.coreStop u .seq t word false else x
          | none => x
        else s'))
    | some (.toRes u drain j todo) =>
      unlessStopped s u p (.ok ((s.closeReq p).gotRes u drain j todo p.tag (.ok (p.operand.toNat, p.aux))))
    | _ => .ok s) s

/-! Errors at the source (R338, R339) -/

/-- A tile that is not resident at its home aborts the task (R339, R165); the home posts it, not this package. -/
def State.abortFar (s : State) (u tid tile : Nat) : State := s.tileAbort u .acc tid tile true

/-- A task's error: an abort for a tile, else a stop of its core on stream 4. A tile of a draining ring, whose task has
ended, stops the core as UNMAPPED (R203). -/
def State.farError (s : State) (u : Nat) (drain : Bool) (word cause sub va : Nat) (tile : Option Nat) : State :=
  match tile with
  | some t => if drain then s.coreStop u .acc ⟨cPERM, pUNMAPPED, va⟩ word true else s.abortFar u (va / 2 ^ 52 % 4096) t
  | none => s.coreStop u .acc ⟨cause, sub, va⟩ word drain

/-- ERROR_PACKET (R338, R339, R347, R348). -/
def execErrorPacket (s : State) : Out :=
  arriving 0x3F (fun s p =>
    let o := p.operand.toNat
    let sub := o % 256
    let cause := fld o 8 8
    let tile := if bitOf o 31 then some (o / 2 ^ 32) else none
    let at_ := p.tensor * 2 ^ 52 + p.offset
    match (if p.aux = 0x01 || p.aux = 0x05 || p.aux = 0x30 then s.req p.tag else none) with
    | some (.load u _ _ _ _ va _) => unlessStopped s u p (.ok (((s.closeReq p).forgo u p.tag).farError u false 0 cause sub va tile))
    | some (.atomic u _ _) => unlessStopped s u p (.ok (((s.closeReq p).forgo u p.tag).farError u false 0 cause sub at_ tile))
    | some (.held u word addr ctx seq) =>
      let s' := s.closeReq p
      unlessStopped s u p (.ok (if (s'.slot u).task.any (fun t => t.ctx == ctx && t.seq == seq)
        then s'.farError u false word cause sub addr tile else s'))
    | some (.toOq u q _ va _) =>
      let s' := s.closeReq p
      let w := s'.waiter u p.tag
      let x := s'.oq (coreOf u) q
      let s' := s'.setOq (coreOf u) q { x with flight := x.flight.filter (fun e => e.1 != p.tag) }
      let drain := match w with | some (d, _) => d | none => (s'.slot u).task.isNone
      let s' := if w.isSome then s'.dropEntry u drain else s'
      unlessStopped s u p (.ok (s'.farError u drain ((w.bind (fun x => x.2.words.head?)).getD 0) cause sub va tile))
    | some (.toSp u _ _ va _) =>
      let s' := s.closeReq p
      let w := s'.waiter u p.tag
      let drain := (w.map (·.1)).getD false
      unlessStopped s u p (.ok ((if w.isSome then s'.dropEntry u drain else s').farError u drain
        ((w.bind (fun x => x.2.words.head?)).getD 0) cause sub va tile))
    | some (.toRes u drain j todo) =>
      let t : Trap := if tile.isSome then ⟨cPERM, pUNMAPPED, at_⟩ else ⟨cause, sub, at_⟩
      unlessStopped s u p (.ok ((s.closeReq p).gotRes u drain j todo p.tag (.error t)))
    | some (.node u _) => unlessStopped s u p (.ok (((s.closeReq p).forgo u p.tag).coreStop u .acc ⟨cause, sub, at_⟩ 0 false))
    | some (.nodeHeld u ctx seq) =>
      unlessStopped s u p (.ok (if (s.slot u).task.any (fun t => t.ctx == ctx && t.seq == seq)
        then (s.closeReq p).coreStop u .acc ⟨cause, sub, at_⟩ 0 false else s.closeReq p))
    | some (.walk w x) => .ok ((s.closeReq p).walkAck p.ctx w x none)
    | _ =>
      let u := pUnit p
      let msg := p.aux = 0x10
      let seq := if msg then p.offset else p.tag
      let s := if msg then
          match s.findMsg p.ctx seq (p.tag % 2 ^ 16) with | some m => s.msgStatus m msFAULT | none => s
        else s
      let at_ := if msg then 0 else at_
      let is (t : Task) : Bool := t.ctx == p.ctx && t.seq == seq
      unlessStopped s u p (.ok (
        if (s.slot u).task.any is then s.farError u false 0 cause sub at_ tile
        else if (s.slot u).drain.any (fun d => is d.task) then s.farError u true 0 cause sub at_ tile
        else s))) s

/-! Results of node operations -/

/-- A node word that waited in the slot has its result and its status (R380). -/
def State.nodeDone (s : State) (u rd : Nat) (v : Word) (st : Nat) : State :=
  (s.modSlot u (fun sl => sl.setSt st)).unpark u rd v

/-- The result of a node word (R392, R398, R399, R402, R403, R410, R411). -/
def State.gotNode (s : State) (tag u : Nat) (j : NodeJob) (p : Packet) : State :=
  let st := p.operand.toNat
  let v := leNat (p.payload.take 8)
  let answer (s : State) (v : Word) (st : Nat) : State :=
    s.modSlot u (fun sl => (sl.answer tag v s.clock).setSt st)
  if j.op = opLINK then
    let ctx := (s.slot u).ctx
    if st = stOK then
      let s := (s.setNf j.node 36 4 (recFld p.payload 0 4)).setNf j.node 52 4 (recFld p.payload 4 4)
      let s := (s.setNf j.node 56 4 (recFld p.payload 8 4)).frameRaise ctx (recFld p.payload 8 4)
      s.nodeDone u j.rd (BitVec.ofNat 64 j.node) st
    else
      (s.modCtx ctx (fun c => { c with
        nsmFree := Tbl.put c.nsmFree (nDie j.node) (nIdx j.node :: Tbl.get [] c.nsmFree (nDie j.node)) })).nodeDone
        u j.rd 0xFFFFFFFF st
  else match j.op with
    | 0x67 =>
      answer s (if st = stSTALE then ones64
        else BitVec.ofNat 64 (recFld p.payload 22 2 + min (s.countQueued (fun _ t => t.tree == j.node)) 0xFFFF * 2 ^ 16)) st
    | 0x72 =>
      let own := leBytes 8 j.ctl
      let bs := (List.range 8).map (fun k => if bitOf j.m k then nth 0 own k else nth 0 p.payload k)
      answer s (if st = stSTALE then ones64 else BitVec.ofNat 64 (leNat bs)) st
    | 0x70 | 0x74 | 0x75 => s.nodeDone u j.rd (BitVec.ofNat 64 v) st
    | _ =>
      match s.nodeStep j st p.payload with
      | .done v st => answer s (BitVec.ofNat 64 v) st
      | .ask r j =>
        let s := { s with fab := { s.fab with reqs := Tbl.put s.fab.reqs tag (.node u j) } }
        (s.nodeOp (s.slot u).ctx 0x72 r [8] (s.fab.pkg, tag)).stampNode u s.fab.outbox.length

/-- NODE_RESULT_PACKET (R380, R395, R406). -/
def execNodeResultPacket (s : State) : Out :=
  arriving 0x31 (fun s p =>
    match s.req p.tag with
    | some (.node u j) => unlessStopped s u p (.ok ((s.dropReq p.tag).gotNode p.tag u j p))
    | some (.nodeHeld u ctx seq) =>
      let s := if p.interval = 1 then s else s.dropReq p.tag
      .ok (s.report u { (default : Task) with ctx := ctx, seq := seq } p.operand.toNat)
    | some (.walk w x) =>
      let s := match (s.walks.find? (fun v => v.id == w)).bind (·.asker) with
        | some (u, seq) => s.report u { (default : Task) with ctx := p.ctx, seq := seq } p.operand.toNat
        | none => s
      .ok ((s.dropReq p.tag).walkAck p.ctx w x (if p.payload.length = 4 then some (leNat p.payload) else none))
    | _ => .ok s) s

/-! Closing an interval at the source (R350 to R352) -/

/-- A task's interval number moves on, in every slot that holds the task or drains its rings (R351). -/
def State.nextInterval (s : State) (u : Nat) (t : Task) : State :=
  let step (x : Task) : Task :=
    if x.ctx = t.ctx && x.seq = t.seq then { x with interval := (x.interval + 1) % 2 ^ 16, ivTime := 0 } else x
  ((u :: (s.slot u).gang).eraseDups).foldl (fun s v => s.modSlot v (fun sl =>
    { sl.modTask step with drain := sl.drain.map (fun d => { d with task := step d.task }) })) s

/-- A task closes its interval (R351); one with no target closes with no traffic. The tags of the answers awaited. -/
def State.closeInterval (s : State) (u strm : Nat) (t : Task) : State × List Nat :=
  let (s, tags) := s.closeCounts u strm t
  (s.nextInterval u t, tags)

/-- INTERVAL_TIMER_EXPIRE (R351): 100 µs of the task's time in a slot since the interval's first counted packet. -/
def execIntervalTimerExpire (s : State) : Out :=
  let u := s.occ.a % 512
  let t := (s.slot u).tk
  if (s.slot u).task.isSome && (s.core (coreOf u)).stopped.isNone && 100 ≤ s.ivElapsed t
      && s.fab.sentCounts.any (fun e => e.1 == t.ctx && e.2.1 == t.seq) then
    .next (s.closeInterval u 4 t).1
  else .next s

/-- INTERVAL_CLOSE_PACKET (R351): answered at once, unless packets are still missing. -/
def execIntervalClosePacket (s : State) : Out :=
  arriving 0x20 (fun s p =>
    let got := s.gotCount p.src p.ctx p.tag p.interval
    .ok (if p.operand.toNat ≤ got then s.closeAnswer p got
      else { s with fab := { s.fab with closes := s.fab.closes ++ [(s.clock, p)] } })) s

/-- INTERVAL_SHORT_TIMEOUT (R351): still short 10 µs after the close. -/
def execIntervalShortTimeout (s : State) : Out :=
  let o := s.occ
  match s.fab.closes.find? (fun e => e.2.src == o.a && e.2.ctx == o.b && e.2.tag == o.c && e.2.interval == o.d) with
  | some (t, c) => if s.clock < t + usClk 10 then .next s else .next (s.closeAnswer c (s.gotCount c.src c.ctx c.tag c.interval))
  | none => .next s

/-- The slot that holds a task, or drains its rings. -/
def State.findTask (s : State) (ctx seq : Nat) : Option (Nat × Bool) :=
  s.slots.findSome? (fun e =>
    if e.2.task.any (fun t => t.ctx == ctx && t.seq == seq) then some (e.1, false)
    else if e.2.drain.any (fun d => d.task.ctx == ctx && d.task.seq == seq) then some (e.1, true) else none)

/-- A mismatch (R352): COUNT on the task's core, on stream 4 for an RFENCE or the timer and on stream 0 for a DPHASE,
naming the target and the interval; with no slot left, an event of the management core. An RFENCE or DPHASE resumed
afterwards closes a fresh interval, so neither completes. -/
def State.countFault (s : State) (tag u strm pkg ctx seq iv got : Nat) : State :=
  let t : Trap := ⟨cCOUNT, 0, pkg + iv * 2 ^ 16⟩
  let note (s : State) : State := { s with fab := { s.fab with
    events := s.fab.events ++ ([[ctx, pkg, seq, iv, 0, got]] : List (List Nat)) } }
  if strm = 7 then note s
  else match s.findTask ctx seq with
    | none => note s
    | some (v, drain) =>
      if strm = 0 then
        let w := ((s.slot v).inHand.map (·.word)).getD 0
        let s := (s.modSlot v (fun sl => { sl with hold := .none, inHand := none })).modCore (coreOf v) (fun c => { c with arrive := none })
        s.coreStop v .seq t w drain
      else match s.waiter u tag with
        | some (d, f) =>
          let s := { s with fab := { s.fab with reqs := s.fab.reqs.filter (fun e => !f.waits.contains e.1) } }
          (s.dropEntry u d).coreStop u .acc t (f.words.headD 0) d
        | none => s.coreStop v .acc t 0 drain

/-- INTERVAL_RESULT_PACKET (R352). -/
def execIntervalResultPacket (s : State) : Out :=
  arriving 0x21 (fun s p =>
    let hit (e : Nat × Req) : Bool := match e.2 with
      | .fence _ _ pkg ctx seq iv => pkg == p.src && ctx == p.ctx && seq == p.tag && iv == p.interval
      | _ => false
    match s.fab.reqs.find? hit with
    | some (tag, .fence u strm pkg ctx seq iv) =>
      let v := ((s.findTask ctx seq).map (·.1)).getD u
      unlessStopped s v p (.ok (
        let s := s.dropReq tag
        if bitOf p.operand.toNat 0 then s.countFault tag u strm pkg ctx seq iv (p.operand.toNat / 2 ^ 32)
        else s.dropWait u tag))
    | _ => .ok s) s

/-! Messages (R354 to R363) -/

/-- PULL_REQUEST_PACKET (R357): with 4096 requests in the table it waits at the ingress. -/
def State.pullRequest (s : State) (p : Packet) : State :=
  let k := reqSlot p
  match s.recv p.ctx k with
  | some r =>
    match r.msg with
    | some (src, seq, mid, _, _) =>
      if src = p.src && seq = p.offset && mid = reqMid p then s
      else s.tellSender p.ctx p.src p.offset (reqMid p) p.cls msBUSY 0
    | none =>
      if r.posted && r.status = msOPEN then s.recvBind p (reqPrefix p) s.clock
      else { s with fab := { s.fab with held := s.fab.held ++ [(s.clock, p)] } }
  | none => { s with fab := { s.fab with held := s.fab.held ++ [(s.clock, p)] } }

def execPullRequestPacket (s : State) : Out :=
  arriving 0x10 (fun s p =>
    if (s.ctx p.ctx).block.isEmpty then .ok (s.refuse p cPERM pNOCTX none)
    else if 4096 ≤ s.requests then .ok { s with fab := { s.fab with inbox := s.fab.inbox ++ [p] } }
    else .ok (s.pullRequest p)) s

/-- TOKEN_GRANT (R359); a request that waited at the ingress enters the table once there is room. -/
def execTokenGrant (s : State) : Out :=
  match s.fab.inbox.find? (fun p => p.type = 0x10) with
  | some p =>
    if s.requests < 4096 then .next ({ s with fab := { s.fab with inbox := s.fab.inbox.erase p } }.pullRequest p)
    else .next s.grantToken
  | none => .next s.grantToken

/-- TOKEN_PACKET (R359): exactly the token's units, from a message whose task runs; a source that is not resident is posted
and ends the message in FAULT (log entry 22). -/
def execTokenPacket (s : State) : Out :=
  arriving 0x11 (fun s p =>
    let o := p.operand.toNat
    let first := fld o 16 16
    let count := o / 2 ^ 32
    match s.findMsg p.ctx p.offset (o % 2 ^ 16) with
    | some m =>
      if m.status = msOPEN || m.status = msACTIVE then
        match s.sendUnits m p.tag first count with
        | some s => .ok (s.msgStatus { m with sent := min (sdSize m.desc) (m.sent + runBytes (sdSize m.desc) first count) } msACTIVE)
        | none =>
          let va := sdSrc m.desc + 4096 * first
          let d := Desc.parse (s.dram.bytes (s.ttbase m.ctx + 64 * (va / 2 ^ 52)) 64)
          .ok ((s.postTile m.ctx (va / 2 ^ 52) (d.pos (va % 2 ^ 52) / 65536) m.unit).msgStatus m msFAULT)
      else .ok s
    | none => .ok s) s

/-- MESSAGE_CANCEL_PACKET (R361): the message leaves its slot, or the requests held for one. -/
def execMessageCancelPacket (s : State) : Out :=
  arriving 0x13 (fun s p =>
    let k := reqSlot p
    let s := { s with fab := { s.fab with
      held := s.fab.held.filter (fun q => !(q.2.src == p.src && q.2.ctx == p.ctx && q.2.offset == p.offset && reqMid q.2 == reqMid p)) } }
    match s.recv p.ctx k with
    | some r => .ok (if (match r.msg with | some (src, seq, mid, _, _) => src = p.src && seq = p.offset && mid = reqMid p | none => false)
        then s.recvEnd p.ctx k msCANCEL else s)
    | none => .ok s) s

/-- RESUME_PACKET (R362): the scheduler grants what is missing, or the request is gone. -/
def execResumePacket (s : State) : Out :=
  arriving 0x14 (fun s p =>
    let k := reqSlot p
    let mine := match s.recv p.ctx k with
      | some r => (match r.msg with | some (src, seq, mid, _, _) => src = p.src && seq = p.offset && mid = reqMid p | none => false)
      | none => false
    let held := s.fab.held.any (fun q => q.2.src == p.src && q.2.ctx == p.ctx && q.2.offset == p.offset && reqMid q.2 == reqMid p)
    .ok (if mine || held then s else s.tellSender p.ctx p.src p.offset (reqMid p) p.cls msORPHAN 0)) s

/-- MESSAGE_STATUS_PACKET (R356, R357): the sender's message takes the status its receiver reports. -/
def execMessageStatusPacket (s : State) : Out :=
  arriving 0x15 (fun s p =>
    match s.findMsg p.ctx p.offset (reqMid p) with
    | some m => .ok (s.msgStatus m (fld p.operand.toNat 16 8))
    | none => .ok s) s

/-- TOKEN_EXPIRE (R360): 20 µs after issue; units not whole become eligible again. -/
def execTokenExpire (s : State) : Out :=
  match s.fab.tokens.find? (fun t => t.id == s.occ.a) with
  | none => .next s
  | some t =>
    if s.clock < t.issued + usClk 20 then .next s
    else
      let s := { s with fab := { s.fab with tokens := s.fab.tokens.filter (fun x => x.id != t.id) } }
      let s := match s.recv t.ctx t.slot with
        | some r =>
          let drop : Tbl Nat := r.packets.filter (fun (e : Nat × Nat) => t.first ≤ e.1 && e.1 < t.first + t.count)
          s.setRecv t.ctx t.slot { r with
            packets := r.packets.filter (fun e => !(t.first ≤ e.1 && e.1 < t.first + t.count))
            got := r.got - partBytes r.size drop }
        | none => s
      .next (s.stopOrphan t.ctx t.slot)

/-- ORPHAN_TIMEOUT (R360): 1 ms with an outstanding token and no data. -/
def execOrphanTimeout (s : State) : Out :=
  let ctx := s.occ.a % 256
  let k := s.occ.b % 1024
  match s.recv ctx k with
  | none => .next s
  | some r =>
    if r.msg.isSome && !r.saved && !(s.tokensOf ctx k).isEmpty && usClk 1000 ≤ s.clock - r.orphanAt then
      .next { s.recvEnd ctx k msORPHAN with fab := { (s.recvEnd ctx k msORPHAN).fab with orphans := s.fab.orphans + 1 } }
    else .next s

/-! Links (R335, R336) -/

/-- A port goes down: the peer's other ports take what it held and what follows (R336; log entry 73). -/
def State.portDown (s : State) (port : Nat) : State :=
  if s.fab.down.contains port then s
  else { s with fab := { s.fab with down := port :: s.fab.down, fails := Tbl.set 0 s.fab.fails port 0 } }.count2 port 0x08 1

/-- FLIT_RECEIVE (R336): accepted in sequence with a good check, else refused; when the flit that is next in sequence has failed
eight times in a row the port goes down. A flit behind it is refused too, but has not failed by that. -/
def execFlitReceive (s : State) : Out :=
  let port := s.occ.a % 128
  let want := Tbl.get 0 s.fab.linkSeq port
  if s.fab.down.contains port then .next s
  else if s.occ.flag && s.occ.b % 256 = want then
    .next ({ s with fab := { s.fab with
      linkSeq := Tbl.set 0 s.fab.linkSeq port ((want + 1) % 256), fails := Tbl.set 0 s.fab.fails port 0 } }.count2 port 0x02 1)
  else
    let n := Tbl.get 0 s.fab.fails port + b2n (s.occ.b % 256 = want)
    let s := if s.occ.flag then s else s.count2 port 0x04 1
    let s := (s.count2 port 0x03 1)
    if 8 ≤ n then .next (s.portDown port)
    else .next { s with fab := { s.fab with fails := Tbl.set 0 s.fab.fails port n } }

/-- LANE_TRAINING_LOSS. -/
def execLaneTrainingLoss (s : State) : Out := .next (s.portDown (s.occ.a % 128))

/-- PORT_RETRAIN: the port is live again, its link sequence at its start. -/
def execPortRetrain (s : State) : Out :=
  let port := s.occ.a % 128
  if s.fab.down.contains port then
    .next { s with fab := { s.fab with
      down := s.fab.down.filter (· ≠ port), linkSeq := Tbl.set 0 s.fab.linkSeq port 0, fails := Tbl.set 0 s.fab.fails port 0 } }
  else .next s

/-- PACKET_DETOUR (R335): for a packet whose egress has held more than 64 KiB for longer than 2 µs, in place of its next hop two
hops through a package of the same row or column as that hop, the one whose egress towards the hop's end holds the least; once,
never beyond three hops, not for multicast packets and tokens. The occasion gives the flow's stream, the bytes queued at the egress
and their clocks, and by package what the others hold. -/
def execPacketDetour (s : State) : Out :=
  let o := s.occ
  let p := o.pkt
  let via := o.a
  let me := s.fab.pkg
  let row (a b : Nat) : Bool := a / 9 = b / 9
  let col (a b : Nat) : Bool := a % 9 = b % 9
  let left := if row me p.dst || col me p.dst then 1 else 2
  match s.route (flowKey (pUnit p) (o.b % 8) p.dst p.tensor) p.dst with
  | none => .next s
  | some (hop, _) =>
    let may (k : Nat) : Bool := s.inGrid k && k ≠ me && k ≠ hop && (if row me hop then row k me else col k me)
    let least := (List.range 81).all (fun k => !may k || nth 0 o.nums via ≤ nth 0 o.nums k)
    if s.fab.outbox.contains p && !p.detour && p.type ≠ 0x07 && p.type ≠ 0x11 && p.hops + left ≤ 3
        && 65536 < o.c && usClk 2 < o.d && may via && least then
      let q := { p with detour := true }
      .next { s with fab := { s.fab with
        outbox := s.fab.outbox.map (fun x => if x == p then q else x), vias := s.fab.vias ++ [(q, via)] } }
    else .next s

end Sys2Proof.Machine
end

