-- ==== Sys2Proof/Machine/Rings.lean ====
section
/-! DEFINITION. The ring, semaphore, timeline, launch-record and domain words of the sequencer (07 R193 to R198, R207
to R210, R219 to R221). -/

namespace Sys2Proof.Machine
open Sys2Proof

/-! Command rings -/

/-- The engine a word selects by its low two bits (R193, R194, R198): 0 vec, 1 mtx, 2 copy, 3 acc. -/
def engSel (f : BitVec 17) : Nat := f.toNat % 4

/-- The loop tag of an entry, as a SAMPLE record lays one out (R453, R460). -/
def LoopTag.word (t : LoopTag) : Nat := t.id % 256 + t.k % 8 * 2 ^ 8 + t.j % 2 ^ 32 * 2 ^ 32

/-- `c` entries of the slot's command ring of engine `e` are placed, with the tag of the word in hand (R193, R194,
R453). -/
def Slot.place (sl : Slot) (e c : Nat) : Slot :=
  let r := sl.cring e
  let w := (match sl.loops with
    | l :: _ => if l.inside sl.pc && !sl.csr.uiact then LoopTag.word ⟨l.id, l.j, if l.piped then l.stage sl.pc else 0, 0, 0⟩ else 0
    | [] => 0)
  { sl with
    crings := Tbl.put sl.crings e { r with prod := (r.prod + c) % 2 ^ 32 }
    tags := (List.range c).foldl (fun t k => Tbl.set 0 t (4096 * e + (r.prod + k) % 2 ^ r.logn) w) sl.tags }

/-- ENQ (R193). -/
def execEnq (f : S3) (s : State) : Out :=
  seqWord (fun s => do
    let v ← rdG s f.ra
    let e := engSel f.funct
    let sl := s.me
    let r := sl.cring e
    need (r.logn ≠ 0) cILLEGAL 11 0
    if r.room = 0 then .error (.wait (s.clock + 1))
    else
      needSettled s 1
      let a := sl.alloc.spBase + 64 * r.base + 8 * (r.prod % 2 ^ r.logn)
      let s := s.modMyCore (fun c => { c with scratch := c.scratch.setNum a 8 v.toNat })
      return s.modMe (fun sl => sl.place e 1)) s

/-- REL (R194). As ENQ it orders the slot's earlier words before the entry's fire (R182). -/
def execRel (f : SI) (s : State) : Out :=
  seqWord (fun s => do
    let a ← rdG s f.ra
    let e := f.imm.toNat % 4
    let c := fld f.imm.toNat 2 12 + a.toNat
    let r := s.me.cring e
    need (r.logn ≠ 0 && 1 ≤ c && c ≤ 2 ^ r.logn) cILLEGAL 11 0
    if r.room < c then .error (.wait (s.clock + 1))
    else
      needSettled s 1
      return s.modMe (fun sl => sl.place e c)) s

/-! Data rings -/

/-- The data ring a word names (R195). -/
def ringNo (f : S3) : Nat := f.funct.toNat % 64

/-- Every entry placed in the slot's command rings has completed (R195). -/
def needQuiet (s : State) : M Unit :=
  if (List.range 4).all (fun e => (s.me.cring e).occ = 0 && !(s.me.eng.any (fun x => x.1 == e))) then .ok ()
  else .error (.wait (s.clock + 1))

/-- A value keeps the map of RINGCFG (R189); PIPE is hardware's. -/
def ringCfgOk (v : Nat) : Bool :=
  let logn := fld v 15 4
  let d := fld v 25 13
  let own (o : Nat) : Bool := o % 8 ≠ 5 && o % 8 ≠ 6
  v / 2 ^ 49 = 0 && logn ≤ 12 && 1 ≤ d && d ≤ 2 ^ logn && own (fld v 38 5) && own (fld v 43 5)

/-- A data ring as the slot sees it, written back where it stands (R218). -/
def State.putRing (s : State) (u n : Nat) (r : Ring) : State :=
  let v := ((s.slot u).ring n).via
  if v = 0 then s.setRing u n r else s.setPipe (v - 1) n r

/-- RINGSET.cfg (R195). -/
def execRingsetCfg (f : S3) (s : State) : Out :=
  seqWord (fun s => do
    let a ← rdG s f.ra
    let v := a.toNat
    let r := s.me.ring (ringNo f)
    needQuiet s
    need (r.via = 0 && !r.pipe && r.occ = 0 && ringCfgOk v) cILLEGAL 11 0
    let n := Ring.ofCfg v
    need (n.logn = 0 || 64 * n.base + 2 ^ n.logn * n.size ≤ s.me.alloc.spLen) cPERM pRANGE (64 * n.base)
    return s.setRing s.cur.u (ringNo f) { n with pipe := r.pipe, prod := r.prod, cons := r.cons }) s

/-- RINGSET.decl (R195): fires use the new DECL from the next clock on. -/
def execRingsetDecl (f : S3) (s : State) : Out :=
  seqWord (fun s => do
    let a ← rdG s f.ra
    let v := a.toNat
    let r := s.me.ring (ringNo f)
    need (r.via = 0 && !r.pipe && r.logn ≠ 0 && v / 2 ^ 13 = 0 && 1 ≤ v && v ≤ 2 ^ r.logn) cILLEGAL 11 0
    return s.modMe (fun sl => sl.later s.clock (.decl (ringNo f) v))) s

/-- RINGSET.prod (R195): a release at scope core. -/
def execRingsetProd (f : S3) (s : State) : Out :=
  seqWord (fun s => do
    let a ← rdG s f.ra
    let n := ringNo f
    let r := s.viewRing s.me n
    need (r.logn ≠ 0 && 1 ≤ a.toNat && a.toNat ≤ r.room && ownOk r.prodown (s.me.owner s.cur.u .seq)) cILLEGAL 11 0
    needSettled s 1
    let s := s.rcRelease (coreOf s.cur.u) 1
    return s.advance s.cur.u false n true a.toNat (s.me.owner s.cur.u .seq)) s

/-- RINGSET.cons (R195). -/
def execRingsetCons (f : S3) (s : State) : Out :=
  seqWord (fun s => do
    let a ← rdG s f.ra
    let n := ringNo f
    let r := s.viewRing s.me n
    need (r.logn ≠ 0 && 1 ≤ a.toNat && a.toNat ≤ r.occ && ownOk r.consown (s.me.owner s.cur.u .seq)) cILLEGAL 11 0
    return s.advance s.cur.u false n false a.toNat (s.me.owner s.cur.u .seq)) s

/-- RINGSET.own (R195). -/
def execRingsetOwn (f : S3) (s : State) : Out :=
  seqWord (fun s => do
    let a ← rdG s f.ra
    let v := a.toNat
    let own (o : Nat) : Bool := o % 8 ≠ 5 && o % 8 ≠ 6
    need (v % 2 ^ 38 = 0 && v / 2 ^ 48 = 0 && own (fld v 38 5) && own (fld v 43 5)) cILLEGAL 11 0
    let n := ringNo f
    let r := s.viewRing s.me n
    return s.putRing s.cur.u n { r with prodown := fld v 38 5, consown := fld v 43 5 }) s

/-- RINGSET.reset (R195). -/
def execRingsetReset (f : S3) (s : State) : Out :=
  seqWord (fun s => do
    let _ ← rdG s f.ra
    let r := s.me.ring (ringNo f)
    needQuiet s
    need (r.via = 0 && !r.pipe) cILLEGAL 11 0
    return s.setRing s.cur.u (ringNo f) { r with prod := 0, cons := 0, prodown := 7, consown := 7 }) s

/-- RINGGET (R195): q0 to q31 at 0 to 31, the command rings at 32 to 35 (R189, R191). -/
def execRingget (f : S3) (s : State) : Out :=
  seqWord (fun s => do
    let n := ringNo f
    let sl := s.me
    let op := fld f.funct.toNat 6 4
    let e := n - 32
    let r := if n < 32 then s.viewRing sl n else sl.cring e
    need (op < 4 || r.logn ≠ 0) cILLEGAL 11 0
    let cfg := if n < 32 then Ring.cfg r
      else r.base % 2 ^ 15 + r.logn % 16 * 2 ^ 15 + sl.owner s.cur.u .seq * 2 ^ 38 + sl.owner s.cur.u (Stream.ofNum (e + 1)) * 2 ^ 43
    let off (m : Nat) : Nat := if n < 32 then r.entry m else 64 * r.base + 8 * (m % 2 ^ r.logn)
    let v := match op with
      | 0 => cfg
      | 1 => r.prod
      | 2 => r.cons
      | 3 => r.occ
      | 4 => off r.cons
      | _ => off r.prod
    wrG s f.rd (BitVec.ofNat 64 v) 2) s

/-! Semaphores and timelines -/

/-- SEMSIG (R196): the count is added when the word retires. -/
def execSemsig (f : SI) (s : State) : Out :=
  seqWord (fun s =>
    let n := f.imm.toNat
    return s.modMe (fun sl => { sl with pend := addPend ⟨s.clock + 1, false, 0, .sem (fld n 0 6) (fld n 6 8)⟩ sl.pend })) s

/-- SEMSIG.peer (R196): a held effect on another member of the gang. -/
def execSemsigPeer (f : SI) (s : State) : Out :=
  seqWord (fun s => do
    let n := f.imm.toNat
    let m := fld n 15 2
    need (m < s.me.gang.length && m ≠ s.member s.cur.u) cILLEGAL 3 0
    putEffect s (.peer m (fld n 0 6) (fld n 6 8)) 0) s

/-- SEMWAIT (R197): an acquire at scope core. -/
def execSemwait (f : SI) (s : State) : Out :=
  seqWord (fun s => do
    let n := fld f.imm.toNat 0 6
    let k := fld f.imm.toNat 6 8
    if s.me.sem n < k then .error (.wait (s.clock + 1))
    else
      let v := s.me.sem n - k
      let s := s.modMe (fun sl => sl.setSem n v)
      wrLate (s.modMyCore (fun c => c.acquire 1)) f.rd (BitVec.ofNat 64 v)) s

/-- TLWAIT (R198): an acquire at scope die (R181). -/
def execTlwait (f : S3) (s : State) : Out :=
  seqWord (fun s => do
    let a ← rdG s f.ra
    let e := engSel f.funct
    let tl := (s.me.tl e).toNat
    need (a.toNat ≤ tl + (s.me.cring e).occ) cILLEGAL 12 0
    if tl < a.toNat then .error (.wait (s.clock + 1))
    else return s.modMyCore (fun c => c.acquire 2)) s

/-- TLREAD (R198). -/
def execTlread (f : S3) (s : State) : Out :=
  seqWord (fun s => wrG s f.rd (s.me.tl (engSel f.funct)) 2) s

/-! Launch records -/

/-- A record index must be below 4096 (R209). -/
def needRecord (a : Word) : M Nat := do
  need (a.toNat < 4096) cPERM pRANGE a.toNat
  return a.toNat

/-- An entry of the context's template table (R204, R472): node 0 of template `t`, and the count of nodes. -/
def State.tmplEntry (s : State) (ctx t : Nat) : Nat × Nat :=
  let a := s.tmplbase ctx + 16 * t
  (s.dev a 8, s.dev (a + 8) 2 % 4096 + 1)

/-- The software fields of a record keep R207, and its template is used (R472). -/
def State.recOk (s : State) (ctx i : Nat) : Bool :=
  let f (o n : Nat) : Nat := s.recF ctx i o n
  f 1 1 < 16 && f 2 2 < 4096 && f 4 4 ≤ 2 ^ 20 && fpFinite (f 12 4) && f 18 1 < 4 && f 19 1 < 4 && f 20 1 < 64
    && f 21 3 = 0 && fpFinite (f 24 4) && (f 24 4 < 2 ^ 31 || f 24 4 = 2 ^ 31) && f 28 4 = 0 && f 32 8 < 2 ^ 11
    && f 80 176 = 0 && (s.tmplEntry ctx (f 0 1)).1 ≠ 0

/-- The arm of a record by a program or the TTT (R209, R216): the state and the status. -/
def State.armRecord (s : State) (ctx i : Nat) : State × Nat :=
  if s.recBit ctx i 6 then (s, 2)
  else if s.recState ctx i ≠ 0 then (s, 1)
  else if s.recOk ctx i then (s.armTail ctx i, 0)
  else (s.setRecBit ctx i 5 true, 3)

/-- LPATCH (R209): performed at issue. -/
def execLpatch (f : S3) (s : State) : Out :=
  seqWord (fun s => do
    let a ← rdG s f.ra
    let v ← rdG s f.rb
    let i ← needRecord a
    let ctx := s.myCtx
    if s.recState ctx i = 1 then wrLate s f.rd 1
    else if s.recBit ctx i 6 then wrLate s f.rd 2
    else wrLate (s.setRecF ctx i (256 + 8 * (f.funct.toNat % 32)) 8 v.toNat) f.rd 0) s

/-- The record LARM names. -/
def larmRecord (s : State) (f : SI) : M Nat := do
  let a ← rdG s f.ra
  needRecord (a + BitVec.ofNat 64 (f.imm.toNat % 4096))

/-- LARM (R209): a closing word. -/
def execLarm (f : SI) (s : State) : Out :=
  closingWord (fun s => do
      let _ ← larmRecord s f
      return ())
    (fun s => do
      let i ← larmRecord s f
      let (s, st) := s.armRecord s.myCtx i
      wrLate s f.rd (BitVec.ofNat 64 st)) s

/-- LSTAT (R209). -/
def execLstat (f : S3) (s : State) : Out :=
  seqWord (fun s => do
    let a ← rdG s f.ra
    let i ← needRecord a
    let off := match f.funct.toNat % 4 with | 0 => 48 | 1 => 56 | 2 => 64 | _ => 72
    wrLate s f.rd (BitVec.ofNat 64 (s.recF s.myCtx i off 8))) s

/-! Domains -/

/-- Two cores are in one level-`k` scope of the package: a die at level 2, the package above it (R219). -/
def sameScope (k a b : Nat) : Bool := k ≠ 2 || dieOf a = dieOf b

/-- The cores of the package that are members of the level-`k` domain of id `id` whose scope holds core `c` (R219). -/
def State.domain (s : State) (k c id : Nat) : List Nat :=
  (List.range 128).filter (fun x => k ≤ (s.core x).level && (s.core x).domid = id && sameScope k c x)

/-- The phase bit of level `k` (R219). -/
def CoreSt.ph (c : CoreSt) (k : Nat) : Bool := c.phase.getLsbD (k - 2)

/-- A core's arrival stands at a level it has not passed. -/
def CoreSt.standsAt (c : CoreSt) (k : Nat) : Bool := c.arrive.any (fun a => k ≤ a.1 && !a.2.contains k)

/-- SETDOM (R220). -/
def execSetdom (f : SI) (s : State) : Out :=
  seqWord (fun s => do
    let a ← rdG s f.ra
    let L := f.imm.toNat % 8
    let core := coreOf s.cur.u
    let c := s.myCore
    let t := s.me.tk
    need (a.toNat < 2 ^ 16) cILLEGAL 3 0
    need (c.level = 0 || c.domRun = t.run || (s.run? c.domRun).isNone) cILLEGAL 3 0
    let mine := (List.range 3).any (fun k =>
      k + 2 ≤ c.level && (s.domain (k + 2) core c.domid).any (fun x => (s.core x).standsAt (k + 2)))
    if mine then .error (.wait (s.clock + 1))
    else
      let ph := (List.range 3).foldl (fun (p : Nat) k =>
        let d := s.domain (k + 2) core a.toNat
        if k + 2 ≤ L then
          match (d.filter (· ≠ core) ++ d.filter (· = core)).head? with
          | some x => p + b2n ((s.core x).ph (k + 2)) * 2 ^ k
          | none => p
        else p) 0
      return s.setMyCore { c with
        level := L, domid := a.toNat, phase := BitVec.ofNat 3 ph, domCtx := t.ctx, domLaunch := t.launch, domRun := t.run }) s

/-- DPHASE's checks (R185, R221): its level, and what it must wait for before its arrival is recorded. It closes the region at
once, and the core's remote-cache lines go home; it then waits until what it closed has drained and is acknowledged. -/
def dphaseCheck (L : Nat) (s : State) : M Unit := do
  let c := s.myCore
  let core := coreOf s.cur.u
  need (2 ≤ L && L ≤ c.level) cILLEGAL 3 0
  need (match c.arrive with | some (k, _) => k = L | none => true) cILLEGAL 3 0
  if !s.me.opened.isEmpty then
    .error (.redo (fun s => s.closeRegion s.cur.u s.me.recPc s.me.region.auto))
  else if !s.me.closed.isEmpty then .error (.wait (s.clock + 1))
  else if c.rcache.any (fun l => !l.dirty.isEmpty && l.scope < 4) then .error (.redo (fun s => s.rcRelease core 4))
  else if (List.range 4).any (fun k => s.unackedOf (4 * core + k) || s.awaits (4 * core + k)) || s.heldFar s.cur.u then .error (.wait (s.clock + 1))
  else return ()

/-- DPHASE (R221): a closing word. The first of the core records its arrival; the slot waits for the phase to end. -/
def execDphase (f : SI) (s : State) : Out :=
  let L := f.imm.toNat % 8
  closingWord (dphaseCheck L)
    (fun s =>
      let s := s.modMyCore (fun c => if c.arrive.isNone then { c with arrive := some (L, []) } else c)
      return s.park s.cur.u (.dphase L (coreOf s.cur.u)) true) s

end Sys2Proof.Machine
end

