-- ==== Sys2Proof/Machine/Load.lean ====
section
/-! DEFINITION. Graph templates and program images as the dispatcher reads them (07 R190, R200, R201, R204 to R206,
01 R21, 07 R218). -/

namespace Sys2Proof.Machine
open Sys2Proof

/-- Why a task cannot be placed: a malformed node or image (R206), or an image whose tile is not resident. -/
inductive LoadFail where
  | bad
  | tile (tid tile : Nat)
  deriving DecidableEq, Repr

abbrev Load := Except LoadFail

/-- A check of R200, R201 or R204. -/
def okLoad (b : Bool) : Load Unit := if b then .ok () else .error .bad

/-- A template node (R204): its number in the template, image, sizes in bytes, gang byte, leader, the argument masks, arguments as (base, stride), and
pipe words. -/
structure TNode where
  num : Nat
  img : Nat
  size : Nat
  regs : Nat
  sp : Nat
  sb : Nat
  gang : Nat
  leader : Nat
  args : Nat
  patch : Nat
  argv : List (Nat × Nat)
  pipes : List Nat
  deriving DecidableEq, Repr, Inhabited

/-- A node is a member of a gang, its index, and the count of members. -/
def TNode.ganged (n : TNode) : Bool := bitOf n.gang 7
def TNode.index (n : TNode) : Nat := fld n.gang 5 2
def TNode.members (n : TNode) : Nat := fld n.gang 0 2 + 1

/-- A pipe word keeps R204. -/
def pipeOk (w : Nat) : Bool := w / 2 ^ 54 = 0 && w % 2 ^ 15 = 0 && fld w 38 11 = 0 && 1 ≤ fld w 15 4 && ringCfgOk (w % 2 ^ 49)

/-- Template node `k` from its 256 bytes, checked (R204 to R206). -/
def TNode.parse (k : Nat) (b : List Byte) : Load TNode := do
  let f (o n : Nat) : Nat := leNat ((b.drop o).take n)
  let n : TNode := {
    num := k, img := f 0 8, size := f 8 4, regs := 4096 * f 12 2, sp := 4096 * f 14 2, sb := 4096 * f 16 1
    gang := f 17 1, leader := f 18 2, args := f 20 1, patch := f 21 1
    argv := (List.range 8).map (fun k => (f (32 + 16 * k) 8, f (40 + 16 * k) 8))
    pipes := (List.range (f 22 1)).map (fun k => f (160 + 8 * k) 8) }
  okLoad (n.size % 64 = 0 && 128 ≤ n.size && n.size ≤ 65536)
  okLoad (1 ≤ f 12 2 && f 12 2 ≤ 64 && 1 ≤ f 14 2 && f 14 2 ≤ 384 && f 16 1 ≤ 64)
  okLoad (if n.ganged then fld n.gang 2 3 = 0 && 2 ≤ n.members && n.index < n.members else n.gang = 0)
  okLoad (n.leader < 4096 && f 22 1 ≤ 4 && (f 22 1 = 0 || (n.ganged && n.index = 0)))
  okLoad (f 23 9 = 0 && f 192 64 = 0 && n.pipes.all pipeOk)
  okLoad ((List.range 8).all (fun k => !bitOf n.patch k || (nth (0, 0) n.argv k).1 < 32))
  return n

/-- A program image (R200): engine mask, overflow rule of the first region, the sequencer's words, for each engine its
section and LOGN, and the data ring table. -/
structure Image where
  mask : Nat
  auto : Bool
  words : List Nat
  sections : List (List Nat × Nat)
  rings : List Nat
  deriving DecidableEq, Repr, Inhabited

/-- An image from its bytes, checked against its trailer (R200, R201). -/
def Image.parse (b : List Byte) : Load Image := do
  let t := b.length - 64
  let f (o n : Nat) : Nat := leNat ((b.drop (t + o)).take n)
  let w (o n : Nat) : List Nat := (pieces 8 n (b.drop (8 * o))).map leNat
  let inside (o n : Nat) : Bool := 8 * (o + n) ≤ t
  okLoad (f 0 2 = 1 && f 2 1 < 16 && f 3 1 ≤ 1 && 1 ≤ f 4 2 && f 4 2 ≤ 4096 && f 6 2 = 0 && inside 0 (f 4 2))
  okLoad ((List.range 4).all (fun e =>
    let o := f (8 + 4 * e) 2
    let n := f (10 + 4 * e) 2
    let lg := f (24 + e) 1
    lg ≤ 12 && inside o n && (if lg = 0 then n = 0 else n ≤ 2 ^ lg)))
  okLoad (f 30 1 ≤ 32 && inside (f 28 2) (f 30 1) && (b.drop (t + 31)).all (· = 0))
  let rings := w (f 28 2) (f 30 1)
  okLoad (rings.all (fun r => r % 2 ^ 15 = 0 && fld r 38 11 = 0 && r / 2 ^ 49 = 0 && (fld r 15 4 = 0 || ringCfgOk r)))
  return {
    mask := f 2 1, auto := f 3 1 = 1, words := w 0 (f 4 2)
    sections := (List.range 4).map (fun e => (w (f (8 + 4 * e) 2) (f (10 + 4 * e) 2), f (24 + e) 1))
    rings := rings }

/-- `n` bytes at an address of a context, as hardware reads them through the context's tables. -/
def State.hwRead (s : State) (ctx va n : Nat) : Load (List Byte) :=
  match (do
    let (s, d) ← openTensor { s with cores := [] } 0 ptSEQ ctx va n false
    placeBytes 0 ptSEQ ctx (va / 2 ^ 52 % 4096) d s (va % 2 ^ 52) n : M (State × List Place)) with
  | .ok (_, ps) =>
    ps.mapM (fun p => match p with
      | .dev a => if a < dramSize then .ok (s.dram.get a) else .error .bad
      | .host a => .ok (s.host.get a)
      | .remote _ => .error .bad)
  | .error (.tile tid tile) => .error (.tile tid tile)
  | .error _ => .error .bad

/-- Node `k` of a launch's template (R204). -/
def State.tnode (s : State) (ctx tmpl k : Nat) : Load TNode := do
  let (a, n) := s.tmplEntry ctx tmpl
  okLoad (a ≠ 0 && k < n)
  TNode.parse k (s.dram.bytes (a + 256 * k) 256)

/-- What a slot is loaded from: the member's node and image. -/
structure Member where
  node : TNode
  image : Image
  deriving DecidableEq, Repr, Inhabited

def State.loadMember (s : State) (ctx : Nat) (n : TNode) : Load Member := do
  let b ← s.hwRead ctx n.img n.size
  return ⟨n, ← Image.parse b⟩

/-- Member `j` of the gang a leader leads: the node of the template that names the leader with that index (R218). -/
def State.gangNode (s : State) (ctx tmpl leader j : Nat) (l : TNode) : Load TNode :=
  if j = 0 then .ok l
  else
    let ns := (List.range (s.tmplEntry ctx tmpl).2).filterMap (fun k =>
      match s.tnode ctx tmpl k with
      | .ok n => if n.ganged && n.leader = leader && n.index = j && n.members = l.members then some n else none
      | .error _ => none)
    match ns with | [n] => .ok n | _ => .error .bad

/-- Everything a task is loaded from (R206, R218): one member, or the gang's in order. GANG of the record must match the
node, and a gang is named by its leader. -/
def State.loadTask (s : State) (t : Task) (tmpl : Nat) : Load (List Member) := do
  let n ← s.tnode t.ctx tmpl t.node
  okLoad (t.gang = n.ganged)
  if n.ganged then
    okLoad (n.index = 0 && n.leader = t.node)
    let ns ← (List.range n.members).mapM (fun j => s.gangNode t.ctx tmpl t.node j n)
    ns.mapM (fun n => s.loadMember t.ctx n)
  else return [← s.loadMember t.ctx n]

/-- The rings a member's image and the gang's pipes take in its allocation (R190, R218): the command rings, the data rings
and the pipes, each with its place in bytes, and the bytes they take together. -/
structure RingPlan where
  crings : Tbl Ring
  rings : Tbl Ring
  pipes : Tbl Ring
  bytes : Nat
  deriving DecidableEq, Repr, Inhabited

/-- A data ring from a RINGCFG word, placed at a byte offset, with its owners unbound. -/
def placedRing (w o : Nat) (pipe : Bool) : Ring :=
  { Ring.ofCfg (w % 2 ^ 49) with base := o / 64, prodown := 7, consown := 7, pipe := pipe }

def Member.plan (m : Member) : RingPlan :=
  let p0 : RingPlan := ⟨[], [], [], 0⟩
  let p := (List.range 4).foldl (fun (p : RingPlan) e =>
    let lg := (nth ([], 0) m.image.sections e).2
    if lg = 0 then p
    else { p with
      crings := Tbl.put p.crings e { Ring.none with base := p.bytes / 64, logn := lg }
      bytes := p.bytes + roundUp (8 * 2 ^ lg) 64 }) p0
  let size (w : Nat) : Nat := 2 ^ fld w 15 4 * (64 * (fld w 19 6 + 1))
  let p := (m.image.rings.zip (List.range 32)).foldl (fun (p : RingPlan) e =>
    if fld e.1 15 4 = 0 then p
    else { p with rings := Tbl.put p.rings e.2 (placedRing e.1 p.bytes false), bytes := p.bytes + size e.1 }) p
  m.node.pipes.foldl (fun (p : RingPlan) w =>
    { p with pipes := Tbl.put p.pipes (fld w 49 5) (placedRing w p.bytes true), bytes := p.bytes + size w }) p

/-- The rings of every member fit in its allocation (R190). -/
def fitRings (ms : List Member) : Bool := ms.all (fun m => m.plan.bytes ≤ m.node.sp)

/-- Argument `k` of a task (R21, R205): its value, or the address that is out of range. -/
def argOf (n : TNode) (window : Tbl Word) (inst k : Nat) : Except Nat Nat :=
  let (b, st) := nth (0, 0) n.argv k
  let base := if bitOf n.patch k then (Tbl.get 0 window (b % 32)).toNat else b
  let off := base % 2 ^ 52 + inst * st
  if !bitOf n.args k then .ok 0
  else if off < 2 ^ 52 then .ok (base / 2 ^ 52 * 2 ^ 52 + off)
  else .error ((base + inst * st) % 2 ^ 64)

end Sys2Proof.Machine
end

