-- ==== Sys2Proof/Machine/MatArith.lean ====
section
/-! DEFINITION. The arithmetic of the matrix arrays (03 R68 to R80, 10 R263 to R282, R290): A row records, B elements and
scales, microblocks, slabs, semirings, the accumulator's combine, and the epilogue's element rules. -/

namespace Sys2Proof.Machine
open Sys2Proof

/-! Elements and scales by format code (R61) -/

/-- The floating-point format of a format code, where it has one. -/
def elFmt (c : Nat) : Option Fmt :=
  match c with
  | 0 => some fp32
  | 1 => some bf16
  | 2 => some fp16
  | 3 => some e4m3
  | 4 => some e5m2
  | 5 => some e2m1
  | 6 => some e2m1
  | 7 => some e4m3
  | 8 => some e5m2
  | _ => none

/-- The exact value of an element; −0 counts as +0 in the array (R272). -/
def elVal (c code : Nat) : XR :=
  match elFmt c with
  | some f => let x := f.dec code; if x.isZero then XR.zero else x
  | none =>
    match c with
    | 0xA => XR.ofInt (sint 16 code)
    | 0xB => XR.ofInt (sint 8 code)
    | 0xD => XR.ofInt (sint 4 code)
    | 9 => XR.ofInt (sint 32 code)
    | _ => XR.ofInt code

/-- The codes of packed elements, from the low bits (R66). -/
def unpackBits (bits : Nat) (bs : List Byte) : List Nat :=
  if 8 ≤ bits then (pieces (bits / 8) bs.length bs).map leNat
  else bs.flatMap (fun b => (List.range (8 / bits)).map (fun k => b.toNat / 2 ^ (bits * k) % 2 ^ bits))

/-- Scale bytes of a record of `k` elements (R280). -/
def scaleBytes (c k : Nat) : Nat :=
  match c with
  | 5 => k / 8 + 2 * (k / 256)
  | 0xD => 2 * (k / 128)
  | c => if 6 ≤ c && c ≤ 8 then k / 32 else 0

/-- Bytes of a record of `k` elements (R280). -/
def recordBytes (c k : Nat) : Nat := roundUp (k * fmtBits c / 8 + scaleBytes c k) 64

/-- The scale codes of a row, from the microscale and block-scale arrays of its format: one code per microblock, one
factor per 128-row group (R264). -/
def scaleCodes (c : Nat) (mic blk : List Byte) : List Nat × List Nat :=
  match c with
  | 5 => (mic.map (·.toNat), (pieces 2 blk.length blk).flatMap (fun p => [leNat p, leNat p]))
  | 0xD => ([], (pieces 2 blk.length blk).map leNat)
  | _ => (mic.flatMap (fun b => List.replicate 4 b.toNat), [])

/-- An A row record, or a B column record: its element codes and scale codes (R280). -/
def parseRecord (c k : Nat) (bs : List Byte) : List Nat × List Nat × List Nat :=
  let e := k * fmtBits c / 8
  let sc := bs.drop e
  let mic := if c = 5 then sc.take (k / 8) else if c = 0xD then [] else sc.take (k / 32)
  let blk := if c = 5 then (sc.drop (k / 8)).take (2 * (k / 256)) else sc.take (2 * (k / 128))
  let x := if fmtScaled c then scaleCodes c mic blk else ([], [])
  (unpackBits (fmtBits c) (bs.take e), x.1, x.2)

/-- The scale of microblock `j`, none when it is invalid (R72, R78). -/
def scaleOf (c : Nat) (sc : List Nat × List Nat) (j : Nat) : Option XR :=
  if c = 5 then
    let b := nth 0 sc.2 (j / 16)
    if badScale b then none else some (XR.mul (e3m5.dec (nth 0 sc.1 j)) (bf16.dec b))
  else if c = 0xD then
    let b := nth 0 sc.2 (j / 16)
    if badScale b then none else some (bf16.dec b)
  else if 6 ≤ c && c ≤ 8 then
    let b := nth 0 sc.1 j
    if b = 255 then none else some (XR.ofDy 1 ((b : Int) - 127))
  else some (XR.ofInt 1)

/-- A B element squared (R278): exact for FP4 and FP8; for BF16 on the magnitudes the cell holds, and whether it was held
at the largest of them. -/
def squareOf (c : Nat) (x : XR) : XR × Bool :=
  let y := XR.mul x x
  if c ≠ 1 || !x.isNum || x.m = 0 then (y, false)
  else if XR.lt y (XR.ofDy 1 (-133)) then (XR.zero, false)
  else
    let r := bf16.roundMag .rne y.m y.e false
    if bf16.maxFin < r.1 then (bf16.dec bf16.maxFin, true) else (bf16.dec r.1, false)

/-- A B element squared `n` times over (R278), and whether the last squaring met the largest magnitude. -/
def squares (c : Nat) : Nat → XR → XR × Bool
  | 0, x => (x, false)
  | n + 1, x => squareOf c (squares c n x).1

/-- The value of a plane's cell: none for an absent element (R265). -/
def cellVal (c n cell : Nat) : Option XR :=
  if cell = 0 then none else some (squares c n (elVal c (cell - 1))).1

/-! Products -/

/-- AFLAGS bits the matrix may set (R281). -/
def mtxFlags (f : Nat) : Nat := f &&& orF (orF fNV fOF) (orF fSAT fSCL)

/-- An FP32 result in the array: a zero is +0, and neither NX nor UF is set (R272, R281). -/
def mtxRound (x : XR) : Nat × Nat :=
  let r := fp32.rne x
  (if r.1 = 0x80000000 then 0 else r.1, mtxFlags r.2)

/-- The value of a microblock (R64, R72, R77, R78): its products, each with the scale product that governs it, none when a
scale is invalid. A product of an invalid scale is a NaN also where the other operand's scale is zero (DESIGN CHOICE: log
entry 65). A product of a zero scale is +0 and takes no further part. `free` stands for the sum of products whose scales
differ, which no rule states (log entry 19). -/
def blockVal (l : List (XR × Option XR)) (free : Nat) : Nat × Nat :=
  if l.any (·.2.isNone) then (nan32, orF fSCL fNV)
  else
    let l := l.filter (fun p => !p.2.any XR.isZero)
    let ps := l.map (·.1)
    let up := ps.any (fun p => p.isInf && !p.neg)
    let dn := ps.any (fun p => p.isInf && p.neg)
    let nv := if ps.any XR.nv || (up && dn) then fNV else 0
    if ps.any XR.isNan || (up && dn) then (nan32, nv)
    else if up || dn then (if dn then negC inf32 else inf32, nv)
    else match l with
      | [] => (0, 0)
      | x :: t =>
        if t.all (fun y => y.2 == x.2) then
          let (s, e) := alignProduct ps
          let r := mtxRound (XR.mul (XR.ofDy s (e - 48)) (x.2.getD (XR.ofInt 1)))
          (r.1, orF r.2 nv)
        else (free % 2 ^ 32, nv)

/-- tree_sum over 128 microblock values in the array (R79, R272). -/
def slabTree (l : List Nat) : Nat × Nat :=
  let r := treeSum 7 (l ++ List.replicate (128 - l.length) 0)
  (if r.1 = 0x80000000 then 0 else r.1, mtxFlags r.2)

/-- What a row of A brings to the array, in the order of the plane's rows: the elements, and the scale that governs each, none
for an invalid one. -/
structure ARow where
  els : List XR
  scale : Nat → Option XR

/-- A's row as a dense plane reads it. -/
def denseRow (c : Nat) (r : List Nat × List Nat × List Nat) : ARow :=
  ⟨r.1.map (elVal c), fun k => scaleOf c r.2 (k / 8)⟩

/-- A's row packed by a sparse plane's row list (R277). -/
def packedRow (c : Nat) (r : List Nat × List Nat × List Nat) (rows : List Nat) : ARow :=
  ⟨rows.map (fun k => elVal c (nth 0 r.1 k)), fun j => scaleOf c r.2 (nth 0 rows j / 8)⟩

/-- The product of the scales on the two operands (R78), none when one is invalid. -/
def scalePair (a b : Option XR) : Option XR :=
  match a, b with
  | some x, some y => some (XR.mul x y)
  | _, _ => none

/-- The microblocks of a row against a column: by eights, the products with their scale products, absent elements left
out. -/
def blocksOf (a : ARow) (b : List (Option XR)) (sb : Nat → Option XR) : List (List (XR × Option XR)) :=
  (pieces 8 128 ((a.els.zip b).zip (List.range a.els.length))).map (fun p => p.filterMap (fun e =>
    e.1.2.map (fun y => (XR.mul e.1.1 y, scalePair (a.scale e.2) (sb (e.2 / 8))))))

/-- The slab of floating-point plus-times (R72, R77 to R79); `sq` squares the B scales (R278). DESIGN CHOICE (log entry 65): of an
invalid and a zero scale of one product the invalid one decides. -/
def floatSlab (a : ARow) (b : List (Option XR)) (sb : Nat → Option XR) (sq : Bool) (free : Nat → Nat) : Nat × Nat :=
  let bl := blocksOf a b (fun j => if sq then (sb j).map (fun x => XR.mul x x) else sb j)
  let vs := (bl.zip (List.range bl.length)).map (fun p => blockVal p.1 (free p.2))
  let r := slabTree (vs.map (·.1))
  (r.1, vs.foldl (fun m v => orF m v.2) r.2)

/-! Semirings (R265, R272) -/

/-- MCFG's fields (R271). -/
structure Cfg where
  atype : Nat
  btype : Nat
  semi : Nat
  sat : Bool
  rs : Bool
  mom : Bool
  deriving DecidableEq, Repr, Inhabited

def Cfg.of (v : Nat) : Cfg := ⟨fld v 0 5, fld v 5 5, fld v 10 3, bitOf v 13, bitOf v 14, bitOf v 15⟩

/-- Integer accumulation (R272). -/
def Cfg.int (c : Cfg) : Bool := c.semi = 0 && (c.atype = 0xB || c.atype = 0xC) && (c.btype = 0xB || c.btype = 0xC)

/-- The identity of a semiring's reduction, as an accumulator holds it (R265). -/
def Cfg.identity (c : Cfg) : Nat :=
  match c.semi with
  | 1 => 0x7FFFFFFF
  | 2 => 0x80000000
  | 3 => negC inf32
  | _ => 0

/-- The integer of a number that is one. -/
def xrInt (x : XR) : Int := if 0 ≤ x.e then x.sm * 2 ^ x.e.toNat else x.sm / 2 ^ (-x.e).toNat

/-- The slab of one column: an integer (plus-times on integers, exact) or a 32-bit pattern, with its flags. -/
def colSlab (c : Cfg) (a : ARow) (b : List (Option XR)) (sb : Nat → Option XR) (sq : Bool) (free : Nat → Nat) : Int × Nat :=
  let ps : List (XR × XR) := (a.els.zip b).filterMap (fun e => e.2.map (fun y => (e.1, y)))
  match c.semi with
  | 0 =>
    if c.int then ((ps.map (fun p => xrInt (XR.mul p.1 p.2))).sum, 0)
    else let r := floatSlab a b sb sq free; ((r.1 : Int), r.2)
  | 3 =>
    let vs := (if ps.length < 1024 then [(c.identity, 0)] else []) ++ ps.map (fun p =>
      let r := mtxRound (XR.mul p.1 p.2)
      (r.1, r.2 &&& orF fOF fNV))
    (((vs.foldl (fun m v => (fp32.minMax true m v.1).1) (vs.head?.map (·.1) |>.getD c.identity) : Nat) : Int),
      vs.foldl (fun m v => orF m v.2) 0)
  | 4 => ((b2n (ps.any (fun p => !p.1.isZero && !p.2.isZero)) : Nat), 0)
  | k =>
    match ps.map (fun p => xrInt p.1 + xrInt p.2) with
    | [] => (sint 32 c.identity, 0)
    | x :: t => (t.foldl (fun m y => if k = 1 then min m y else max m y) x, 0)

/-- An accumulator element and a slab (R79, R80, R272): a = 0 writes the slab. -/
def Cfg.combine (c : Cfg) (keep : Bool) (acc : Nat) (slab : Int) : Nat × Nat :=
  if !keep then (toBits 32 slab, 0)
  else match c.semi with
    | 0 =>
      if c.int then
        let v := sint 32 acc + slab
        if c.sat then let r := satS32 v; (toBits 32 r.1, r.2) else (toBits 32 v, 0)
      else mtxRound (XR.add (dv acc) (dv (toBits 32 slab)))
    | 1 => (toBits 32 (min (sint 32 acc) (sint 32 (toBits 32 slab))), 0)
    | 2 => (toBits 32 (max (sint 32 acc) (sint 32 (toBits 32 slab))), 0)
    | 3 =>
      let r := fp32.minMax true acc (toBits 32 slab)
      (if r.1 = 0x80000000 then 0 else r.1, mtxFlags r.2)
    | _ => (acc ||| toBits 32 slab, 0)

/-- One row of accumulators after a slab row. -/
def Cfg.combineRow (c : Cfg) (keep : Bool) (row : List Nat) (slab : List Int) : List Nat × Nat :=
  let r := (row.zip slab).map (fun p => c.combine keep p.1 p.2)
  (r.map (·.1), r.foldl (fun m x => orF m x.2) 0)

/-- The columns of a plane in order. -/
def Plane.columns (p : Plane) : List (List Nat) := Tbl.slice [] p.cells 0 1536

/-- A row of A against a plane: a slab per column, and the flags (R281). Column 1535 is the row sum with RS (R274). -/
def streamRow (c : Cfg) (p : Plane) (a : ARow) (free : Nat → Nat) : List Int × Nat :=
  let t := p.tag.getD default
  let scs := Tbl.slice ([], []) p.scales 0 1536
  let cols := p.columns.zip (scs.zip (List.range 1536))
  let r := cols.map (fun x =>
    if c.rs && x.2.2 = 1535 then
      colSlab c a (a.els.map (fun _ => some (XR.ofInt 1))) (fun _ => some (XR.ofInt 1)) false (fun j => free (1535 * 128 + j))
    else
      colSlab c a (x.1.map (cellVal t.btype p.sqs)) (scaleOf t.btype x.2.1) t.squared (fun j => free (x.2.2 * 128 + j)))
  (r.map (·.1), r.foldl (fun m x => orF m x.2) 0)

/-! The epilogue's element rules (R290) -/

/-- The epilogue parameter block (R288). -/
structure Epi where
  mode : Nat
  otype : Nat
  act : Nat
  flags : Nat
  nc : Nat
  k : Nat
  g : Nat
  bias : Nat
  mult : Nat
  shift : Nat
  zb : Nat
  ozp : Nat
  maskt : Nat
  livet : Nat
  morg : Nat
  mstride : Nat
  liveb : Nat
  tokbase : Nat
  deriving DecidableEq, Repr, Inhabited

def Epi.parse (b : List Byte) : Epi :=
  let f (o n : Nat) : Nat := leNat ((b.drop o).take n)
  ⟨f 0 1, f 1 1, f 2 1, f 3 1, f 4 2, f 6 1, f 7 1, f 8 2, f 10 2, f 12 2, f 14 2, f 16 4, f 20 2, f 22 2, f 24 8, f 32 4,
    f 36 4, f 40 4⟩

def Epi.hasBias (e : Epi) : Bool := bitOf e.flags 0
def Epi.rsc (e : Epi) : Bool := bitOf e.flags 1
def Epi.mask (e : Epi) : Bool := bitOf e.flags 2
def Epi.heap (e : Epi) : Bool := bitOf e.flags 3
def Epi.rowout (e : Epi) : Bool := bitOf e.flags 4
def Epi.live (e : Epi) : Bool := bitOf e.flags 5

/-- What MEPI accepts (R288). `rs` is MCFG.RS. -/
def Epi.ok (e : Epi) (b : List Byte) (rs : Bool) : Bool :=
  e.mode ≤ 2
    && (match e.mode with | 0 => e.otype ≤ 4 | 1 => e.otype = 9 || e.otype = 0xB || e.otype = 0xC | _ => e.otype = 0x10)
    && e.act ≤ (match e.mode with | 0 => 3 | 1 => 1 | _ => 0) && e.flags < 64
    && 1 ≤ e.nc && e.nc ≤ (if rs then 1535 else 1536)
    && (if e.heap then 1 ≤ e.k && e.k ≤ 64 && e.g ≤ 8 else e.k = 0 && e.g = 0)
    && [e.bias, e.mult, e.shift, e.zb].all (· < 32768)
    && (!e.rsc || (rs && e.mode = 1)) && (e.mode = 0 || (!e.mask && !e.heap)) && !(e.live && e.mode = 1)
    && e.maskt < 4096 && e.livet < 4096 && ((b.drop 44).take 20).all (· == 0)

/-- Bytes of an output element (R288). -/
def Epi.width (e : Epi) : Nat := if e.mode = 2 then 8 else fmtBits e.otype / 8

/-- The epilogue block at claim acquisition (R288): float, FP32, no flags, NC = 1536. -/
def epiReset : List Byte := zeros 4 ++ leBytes 2 1536 ++ zeros 58

/-- One output element in integer mode: accumulator, row sum, and the column's bias, multiplier, shift and ZB. -/
def epiInt (e : Epi) (acc rsum bias m sh zb : Nat) : Nat × Nat :=
  let x := sint 32 acc
  let x := if e.rsc then x - sint 32 zb * sint 32 rsum else x
  let x := if e.hasBias then x + sint 32 bias else x
  if e.otype = 9 then let r := satS32 x; (toBits 32 r.1, r.2)
  else
    let t := (x * sint 32 m + 2 ^ 30).fdiv (2 ^ 31)
    let k := sh % 32
    let t := if 0 < k then (t + 2 ^ (k - 1)).fdiv (2 ^ k) else t
    let z := sint 32 e.ozp
    let y := t + z
    let y := if e.act = 1 then max y z else y
    let r := if e.otype = 0xC then satInt 0 255 y else satInt (-128) 127 y
    (toBits 8 r.1, r.2)

/-- The value of a column in float mode before masking: bias and activation. -/
def epiFloat (e : Epi) (acc bias : Nat) : FM Nat := do
  let x ← if e.hasBias then do
      let (c, f) := fp32.rne (XR.add (dv acc) (dv bias))
      raise f
      pure c
    else pure acc
  match e.act with
  | 1 => pure (if XR.lt (dv x) XR.zero && !(dv x).isNan then 0 else x)
  | 2 => sigmS x (fun f => f)
  | 3 => tanhS x (fun f => f)
  | _ => pure x

/-- A float output: −∞ in a format without infinities is the most negative finite value and sets no flag. -/
def epiOut (e : Epi) (x : Nat) : Nat × Nat :=
  let f := (elFmt e.otype).getD fp32
  if x = negC inf32 then (if f.hasInf then f.sgn true + f.maxFin + 1 else f.sgn true + f.maxFin, 0)
  else f.rne (dv x)

/-- One heap entry ranks above another (R291): score, with −0 below +0, then the lower token. -/
def HeapEnt.above (a b : HeapEnt) : Bool :=
  let x := dv a.score
  let y := dv b.score
  let c := if x.isZero && y.isZero then (if x.neg = y.neg then 0 else if x.neg then -1 else 1) else XR.cmp x y
  0 < c || (c = 0 && a.token < b.token)

/-- A candidate joins a heap of at most `n` entries (R291). -/
def heapInsert (n : Nat) (l : List HeapEnt) (h : HeapEnt) : List HeapEnt :=
  (l.takeWhile (fun x => !h.above x) ++ [h] ++ l.dropWhile (fun x => !h.above x)).take n

end Sys2Proof.Machine
end

