-- ==== Sys2Proof/Machine/Moment.lean ====
section
/-! DEFINITION. The moment words (09 R244 to R261). A moment register's 32 elements are pairs of FP32 codes, mean and
variance. The flags of a word are those of the roundings that give a written half, of its square roots (12 R304's run: the
inexact sqrt_ne sets NX) and of the reference functions (R249, DEDUCED: log entry 17). -/

namespace Sys2Proof.Machine
open Sys2Proof

/-- A mean and a variance, as FP32 codes (R67). -/
structure Mom where
  mu : Nat
  v : Nat
  deriving DecidableEq, Repr, Inhabited

/-- The pair of NaNs (R249). -/
def Mom.nan : Mom := ⟨nan32, nan32⟩

/-- The elements of a moment register's bytes (R244). -/
def momsOf (bs : List Byte) : List Mom := (pieces 8 32 bs).map (fun p => ⟨leNat (p.take 4), leNat (p.drop 4)⟩)
def momBytes (l : List Mom) : List Byte := l.flatMap (fun m => leBytes 4 m.mu ++ leBytes 4 m.v)

/-- MCTL's fields (R245). -/
def State.mctl (s : State) : Nat := s.eSlot.csr.mctl.toNat
def momClamp (mctl : Nat) : Bool := bitOf mctl 2

/-- The correlation in force (R252). -/
def momRho (mctl : Nat) : XR :=
  match mctl % 4 with
  | 0 => XR.zero
  | 1 => XR.ofInt 1
  | _ => dv (mctl / 2 ^ 32)

/-- A variance below zero (R247): −0 and a NaN are not. -/
def negVar (c : Nat) : Bool := let x := dv c; !x.isNan && x.neg && !x.isZero

/-- −0 as +0; and below zero, +0 (R247, R248). -/
def fixVar (c : Nat) : Nat := if c = 0x80000000 || negVar c then 0 else c

/-- The variances of a register as they are read: the elements, and whether any was clamped (R247). -/
def readVars (l : List Mom) : List Mom × Bool := (l.map (fun m => { m with v := fixVar m.v }), l.any (fun m => negVar m.v))

/-- The register-space offset of the first variance below zero among registers read together, ma before mb within an
element (R247): each register by its byte offset. -/
def firstNeg (regs : List (Nat × List Mom)) : Option Nat :=
  (List.range 32).findSome? (fun i =>
    regs.findSome? (fun r => if negVar (nth default r.2 i).v then some (r.1 + 8 * i + 4) else none))

/-- The final rounding of a formula: its flags are the word's (R249). -/
def fin (x : XR) : FM Nat := do
  let (c, f) := fp32.rne x
  raise f
  pure c

/-- A rounding on the way (R251). -/
def mid (x : XR) : Nat := (fp32.rne x).1

/-- A rounded square root: NX when it is inexact. -/
def sqrtNe (c : Nat) : FM Nat := do
  let r := fp32.rne (XR.sqrt (dv c))
  raise (r.2 &&& fNX)
  pure r.1

/-- The roots of two variances, which only the terms that carry the correlation read (R252). -/
def momRoots (rho : XR) (a b : Mom) : FM (XR × XR) :=
  if rho.isZero then pure (XR.zero, XR.zero)
  else do
    let t ← sqrtNe a.v
    let u ← sqrtNe b.v
    pure (dv t, dv u)

def XR.sq (x : XR) : XR := XR.mul x x

/-- A sum of exact terms. -/
def XR.sum : List XR → XR
  | [] => XR.zero
  | x :: t => t.foldl XR.add x

/-- A product of exact factors. -/
def XR.prod : List XR → XR
  | [] => XR.ofInt 1
  | x :: t => t.foldl XR.mul x

/-- A term that carries the correlation: absent when it is zero (R252). -/
def rhoTerm (rho : XR) (l : List XR) : List XR := if rho.isZero then [] else [XR.prod (rho :: l)]

/-! Each word's element rule, on an element whose halves are numbers, or (linear words) infinities -/

def momAdd (rho : XR) (sub : Bool) (a b : Mom) : FM Mom := do
  let (t, u) ← momRoots rho a b
  let mu ← fin (if sub then XR.sub (dv a.mu) (dv b.mu) else XR.add (dv a.mu) (dv b.mu))
  let v ← fin (XR.sum ([dv a.v, dv b.v] ++ rhoTerm rho [XR.ofInt (if sub then -2 else 2), t, u]))
  pure ⟨mu, v⟩

def momMul (rho : XR) (a b : Mom) : FM Mom := do
  let (t, u) ← momRoots rho a b
  let mu ← fin (XR.sum (XR.mul (dv a.mu) (dv b.mu) :: rhoTerm rho [t, u]))
  let v ← fin (XR.sum ([XR.mul (XR.sq (dv a.mu)) (dv b.v), XR.mul (XR.sq (dv b.mu)) (dv a.v),
    XR.prod [XR.add (XR.ofInt 1) (XR.sq rho), dv a.v, dv b.v]]
    ++ rhoTerm rho [XR.ofInt 2, dv a.mu, dv b.mu, t, u]))
  pure ⟨mu, v⟩

/-- MSCL, and MAFF with its constant e (R253). -/
def momScale (aff : Bool) (a k : Mom) : FM Mom := do
  let c := dv k.mu
  let p := XR.mul c (dv a.mu)
  let mu ← fin (if aff then XR.add p (dv k.v) else p)
  let v ← fin (XR.mul (XR.sq c) (dv a.v))
  pure ⟨mu, v⟩

def momRelu (a : Mom) : FM Mom := do
  let sc ← sqrtNe a.v
  let s := dv sc
  let m := dv a.mu
  if s.isZero then pure ⟨if m.neg || m.isZero then 0 else a.mu, 0⟩
  else do
    let al := mid (XR.div m s)
    let p := dv (← cdfref al)
    let q := dv (← pdfref al)
    let mu ← fin (XR.add (XR.mul m p) (XR.mul s q))
    let e2 := mid (XR.add (XR.mul (XR.add (XR.sq m) (dv a.v)) p) (XR.prod [m, s, q]))
    let v ← fin (XR.sub (dv e2) (XR.sq (dv mu)))
    pure ⟨mu, v⟩

/-- sigmref as a function inside another: its last rounding raises NX only (R237). -/
def sigmInner (x : Nat) : FM Nat := do
  let g ← exp2S (← mulI x cNL2E) inner
  rcpS (← addI one32 g) inner

/-- LAM2 = π/8 (R256). The mean's own function is run as `sig`, the variance's rounding as `last`. -/
def momSigm (sig : Nat → FM Nat) (last : XR → FM Nat) (a : Mom) : FM Mom := do
  let k ← rsqS (mid (XR.add (XR.ofInt 1) (dv (mid (XR.mul (dv cLAM2) (dv a.v)))))) inner
  let mu ← sig (mid (XR.mul (dv a.mu) (dv k)))
  let m := dv mu
  let v ← last (XR.prod [m, XR.sub (XR.ofInt 1) m, XR.sub (XR.ofInt 1) (dv k)])
  pure ⟨mu, v⟩

def momExp (a : Mom) : FM Mom := do
  let h := mid (XR.add (dv a.mu) (XR.scale (dv a.v) (-1)))
  let mu ← exp2S (mid (XR.mul (dv h) (dv cD1))) (fun f => f)
  let g ← exp2S (mid (XR.mul (dv a.v) (dv cD1))) inner
  if mu = inf32 then do
    raise fOF
    pure ⟨mu, inf32⟩
  else do
    let v ← fin (XR.mul (XR.sq (dv mu)) (XR.sub (dv g) (XR.ofInt 1)))
    pure ⟨mu, v⟩

def momTanh (a : Mom) : FM Mom := do
  let m2 := mid (XR.scale (dv a.mu) 1)
  let v4 := mid (XR.scale (dv a.v) 2)
  if (dv m2).isInf || (dv v4).isInf then do
    raise fNV
    pure Mom.nan
  else do
    let r ← momSigm (fun x => sigmS x (fun _ => sigmInner x)) (fun x => pure (mid x)) ⟨m2, v4⟩
    let mu ← fin (XR.sub (XR.scale (dv r.mu) 1) (XR.ofInt 1))
    let v ← fin (XR.scale (dv r.v) 2)
    pure ⟨mu, v⟩

def momMax2 (rho : XR) (a b : Mom) : FM Mom := do
  let m := dv a.mu
  let n := dv b.mu
  let (t, u) ← momRoots rho a b
  let th2 := mid (XR.sum ([dv a.v, dv b.v] ++ rhoTerm rho [XR.ofInt (-2), t, u]))
  if XR.le (dv th2) XR.zero then pure (if XR.lt m n then b else a)
  else do
    let th := dv (← sqrtNe th2)
    let al := mid (XR.div (XR.sub m n) th)
    let pa := dv (← cdfref al)
    let pb := dv (← cdfref (negC al))
    let q := dv (← pdfref al)
    let mu ← fin (XR.sum [XR.mul m pa, XR.mul n pb, XR.mul th q])
    let e2 := mid (XR.sum [XR.mul (XR.add (XR.sq m) (dv a.v)) pa, XR.mul (XR.add (XR.sq n) (dv b.v)) pb,
      XR.prod [XR.add m n, th, q]])
    let v ← fin (XR.sub (dv e2) (XR.sq (dv mu)))
    pure ⟨mu, v⟩

/-! The word -/

/-- An element of a checked word (R249): a NaN read gives the pair of NaNs, NV only for a signalling one; in a non-linear
word an infinity gives it too, with NV. `codes` are the halves the word reads. -/
def momElem (nonlin : Bool) (codes : List Nat) (f : FM Mom) : FM Mom := do
  let xs := codes.map dv
  if xs.any XR.nv then raise fNV
  if xs.any XR.isNan then pure Mom.nan
  else if nonlin && xs.any XR.isInf then do
    raise fNV
    pure Mom.nan
  else f

/-- The written elements of a moment word (R248): −0 as +0; below zero, +0 and CLAMPED, or NEGVAR at completion, where
the entry then writes nothing, though its group is formed as if it did (R225). `off` is the destination's register-space offset, `a` its address. -/
def momResult (e : InFlight) (mctl a off : Nat) (clamped : Bool) (fl : Nat) (l : List Mom) : InFlight :=
  match firstNeg [(off, l)] with
  | some o =>
    if momClamp mctl then
      { e with writes := e.writes ++ [(a, momBytes (readVars l).1)], flags := fl, clamped := true }
    else { e with writes := e.writes ++ [(a, momBytes l)], trap := some ⟨cNEGVAR, 0, o⟩ }
  | none => { e with writes := e.writes ++ [(a, momBytes (readVars l).1)], flags := fl, clamped := clamped }

/-- Reading and checking a moment register at fire (R247). -/
def momChecked (s : State) (regs : List (Nat × List Mom)) : M Unit :=
  if momClamp s.mctl then .ok ()
  else match firstNeg regs with
    | some o => trap cNEGVAR 0 o
    | none => .ok ()

/-- The base of VIEWM for the entry in hand. -/
def State.vm (s : State) : Nat := s.eSlot.csr.viewm.toNat

/-- A word that reads ma, and mb when `two`; `chkB` says that mb's variances are checked as well. `codes` are the halves of
mb whose NaNs count. -/
def momWord (f : VR) (two chkB nonlin : Bool) (lat long : Nat) (codes : Mom → List Nat)
    (op : XR → Mom → Mom → FM Mom) (s : State) : Out :=
  engWord (fun s => do
    let v := s.vm
    let (e, x) ← vread s (s.vecEntry lat long) v f.va.toNat 1 0 256 f.la
    let (e, y) ← if two then vread s e v f.vb.toNat 1 0 256 f.lb else pure (e, [])
    let a := momsOf x
    let b := if two then momsOf y else a
    momChecked s ([(256 * (v + f.va.toNat), a)] ++ if chkB then [(256 * (v + f.vb.toNat), b)] else [])
    let ra := readVars a
    let rb := if chkB then readVars b else (b, false)
    let out := (ra.1.zip rb.1).mapM (fun p =>
      momElem nonlin ([p.1.mu, p.1.v] ++ (if two then codes p.2 else [])) (op (momRho s.mctl) p.1 p.2))
    let (l, fl) := out.run 0
    let d ← vecAddr s v f.vd.toNat 1
    return (s, momResult e s.mctl d (256 * (v + f.vd.toNat)) (ra.2 || rb.2) fl l)) s

/-- Both halves of an element. -/
def Mom.both (m : Mom) : List Nat := [m.mu, m.v]

def execMadd (f : VR) (s : State) : Out :=
  momWord f true true false 6 2 Mom.both (fun rho a b => momAdd rho false a b) s
def execMsub (f : VR) (s : State) : Out :=
  momWord f true true false 6 2 Mom.both (fun rho a b => momAdd rho true a b) s
def execMmul (f : VR) (s : State) : Out := momWord f true true false 8 2 Mom.both momMul s
def execMscl (f : VR) (s : State) : Out :=
  momWord f true false false 5 1 (fun k => [k.mu]) (fun _ a k => momScale false a k) s
def execMaff (f : VR) (s : State) : Out :=
  momWord f true false false 5 1 Mom.both (fun _ a k => momScale true a k) s
def execMrelu (f : VR) (s : State) : Out := momWord f false false true 40 4 Mom.both (fun _ a _ => momRelu a) s
def execMsigm (f : VR) (s : State) : Out :=
  momWord f false false true 36 4 Mom.both (fun _ a _ => momSigm (fun x => sigmS x (fun f => f)) fin a) s
def execMexp (f : VR) (s : State) : Out := momWord f false false true 34 4 Mom.both (fun _ a _ => momExp a) s
def execMtanh (f : VR) (s : State) : Out := momWord f false false true 38 4 Mom.both (fun _ a _ => momTanh a) s
def execMmax2 (f : VR) (s : State) : Out := momWord f true true true 48 4 Mom.both momMax2 s

/-- MFROM (R254): means and variances from lanes 32h on of va and vb. -/
def execMfrom (f : VR) (s : State) : Out :=
  engWord (fun s => do
    let form := f.funct.toNat % 4
    let lo := 128 * (f.funct.toNat / 4 % 2)
    let (e, x) ← vread s (s.vecEntry 3 1) s.vv f.va.toNat 1 lo 128 f.la
    let (e, y) ← if form = 2 then pure (e, zeros 128) else vread s e s.vv f.vb.toNat 1 lo 128 f.lb
    let out : FM (List Mom) := ((lanesOf 4 x).zip (lanesOf 4 y)).mapM (fun p =>
      if form = 1 then do
        let v ← fin (XR.sq (dv p.2))
        pure ⟨p.1, v⟩
      else pure ⟨p.1, p.2⟩)
    let (l, fl) := out.run 0
    let v := s.vm
    let d ← vecAddr s v f.vd.toNat 1
    return (s, momResult e s.mctl d (256 * (v + f.vd.toNat)) false fl l)) s

/-- MSPLIT (R254): half h of vd and of vd + 1. -/
def execMsplit (f : VR) (s : State) : Out :=
  engWord (fun s => do
    let lo := 128 * (f.funct.toNat / 4 % 2)
    let (e, x) ← vread s (s.vecEntry 3 1) s.vm f.va.toNat 1 0 256 f.la
    let _ ← vecAddr s s.vv f.vd.toNat 2
    let l := momsOf x
    let e ← vwrite s e s.vv f.vd.toNat lo (packLanes 4 (l.map (·.mu)))
    let e ← vwrite s e s.vv (f.vd.toNat + 1) lo (packLanes 4 (l.map (·.v)))
    return (s, e)) s

/-- One lane of MCOL (R261). -/
def mcolLane (s : State) (form h : Nat) (i : Nat) (m : Mom) : FM Nat :=
  if form = 0 then pure m.mu
  else do
    let r ← momElem true m.both (do
      match form with
      | 1 => do
        let c ← fin (XR.sqrt (dv m.v))
        pure ⟨c, 0⟩
      | 2 => do
        let sd ← sqrtNe m.v
        let c ← fin (XR.add (dv m.mu) (XR.mul (bf16.dec (s.mctl / 2 ^ 16 % 2 ^ 16)) (dv sd)))
        pure ⟨c, 0⟩
      | _ => do
        let sd ← sqrtNe m.v
        let z ← ginvref (s.vecRand (32 * h + i))
        let c ← fin (XR.add (dv m.mu) (XR.mul (dv sd) (dv z)))
        pure ⟨c, 0⟩)
    pure r.mu

/-- MCOL (R261): lanes 32h on of vd; the other lanes stay. -/
def execMcol (f : VR) (s : State) : Out :=
  engWord (fun s => do
    let form := f.funct.toNat % 4
    let h := f.funct.toNat / 4 % 2
    let (e, x) ← vread s (s.vecEntry (if form = 3 then 36 else 8) (if form = 3 then 4 else 2)) s.vm f.va.toNat 1 0 256 f.la
    let a := momsOf x
    momChecked s [(256 * (s.vm + f.va.toNat), a)]
    let r := readVars a
    let out : FM (List Nat) := (r.1.zip (List.range 32)).mapM (fun p => mcolLane s form h p.2 p.1)
    let (l, fl) := out.run 0
    let e ← vwrite s e s.vv f.vd.toNat (128 * h) (packLanes 4 l)
    return (s, { e with flags := fl, clamped := r.2 })) s

/-- MCHK (R260): lanes 32 to 63 are written 0. -/
def execMchk (f : VR) (s : State) : Out :=
  engWord (fun s => do
    let (e, x) ← vread s (s.vecEntry 3 1) s.vm f.va.toNat 1 0 256 f.la
    let hit (m : Mom) : Bool := match f.funct.toNat % 4 with
      | 0 => negVar m.v
      | 1 => negVar m.v || (dv m.v).isNan
      | _ => (dv m.v).isNan || (dv m.mu).isNan
    let e ← vwrite s e s.vv f.vd.toNat 0 (padVec (packLanes 4 ((momsOf x).map (fun m => if hit m then 0xFFFFFFFF else 0))))
    return (s, e)) s

end Sys2Proof.Machine
end

