-- ==== Sys2Proof/Machine/Matrix.lean ====
section
/-! DEFINITION. The matrix words (10 R262 to R294): claims and lease runs, configuration, B planes, A streams, accumulator
loads, chains and saves, the epilogue and the top-k heaps. A command's effects on the array are made at its fire; its
flags and ring pointers follow at completion. -/

namespace Sys2Proof.Machine
open Sys2Proof

/-! Claims and checks -/

/-- Planes of an A format (R263, R273). -/
def planeCount (c : Nat) : Nat :=
  match c with
  | 5 => 2
  | 6 => 2
  | 4 => 3
  | 8 => 3
  | 3 => 4
  | 7 => 4
  | 0xD => 4
  | 0xA => 16
  | 0xF => 1
  | _ => 8

/-- The claim of the issuing slot's task (R268: NOCLAIM without one). -/
def myClaim (s : State) : M Claim :=
  match s.myCore.claim with
  | some cl => if cl.of s.eSlot then .ok cl else trap cLEASE 1 0
  | none => trap cLEASE 1 0

def State.setClaim (s : State) (cl : Claim) : State := s.modMyCore (fun c => { c with claim := some cl })

/-- MCFG's fields; unconfigured is MODE (R268). -/
def Claim.cfg (cl : Claim) : Option Cfg := cl.mcfg.map Cfg.of
def Claim.mom (cl : Claim) : Bool := (cl.cfg.map (·.mom)).getD false
def needCfg (cl : Claim) : M Cfg :=
  match cl.cfg with
  | some c => .ok c
  | none => trap cLEASE 6 0

/-- Named rows and halves lie inside the open chain (R285). -/
def needRows (cl : Claim) (arow m : Nat) (hs : List Nat) : M Unit :=
  match cl.opened with
  | some (r, n, hm) => need (r ≤ arow && arow + m ≤ r + n && hs.all (bitOf hm)) cLEASE 4 0
  | none => trap cLEASE 4 0

/-- The unit that runs a command (R284): 0 A unit, 1 drain unit, 2 alone. -/
def mtxUnit (i : Instr) : Nat :=
  match i with
  | .mbld _ | .mbcsr _ | .mbsq | .mbswap | .mstr _ | .mstrm _ | .maccld _ | .mzero _ => 0
  | .mdrain _ | .mheaprd _ | .mheapclr _ | .msave _ => 1
  | _ => 2

/-- The accumulator row-halves a command touches. -/
def mtxRows (cl : Claim) (i : Instr) : List (Nat × Nat) :=
  let rows (f : MA) (both : Bool) : List (Nat × Nat) :=
    rowHalves f.arow.toNat (f.nrow.toNat + 1) (if both then 3 else if f.h then 2 else 1)
  match i with
  | .mstr f => rows f false
  | .mstrm f => rows f true
  | .maccld f | .mzero f | .mdrain f => rows f cl.mom
  | .msave _ => match cl.opened with | some (r, n, hm) => rowHalves r n hm | none => []
  | _ => []

/-- Two commands of a claim may run at once (R284). -/
def mtxApart (cl : Claim) (i j : Instr) : Bool :=
  mtxUnit i ≠ 2 && mtxUnit j ≠ 2 && mtxUnit i ≠ mtxUnit j
    && (mtxRows cl i).all (fun r => !(mtxRows cl j).contains r)

/-- The slots of a core as their tasks see them, an ended task's share among them. -/
def State.views (s : State) (core : Nat) : List (Nat × Bool) :=
  (List.range 4).flatMap (fun k =>
    let u := 4 * core + k
    (if (s.slot u).drain.isSome then [(u, true)] else []) ++ (if (s.slot u).task.isSome then [(u, false)] else []))

/-- The commands of a claim that have fired and not completed. -/
def State.mtxFlying (s : State) (core : Nat) (cl : Claim) : List Instr :=
  (s.views core).filterMap (fun v =>
    let sl := s.view v.1 v.2
    if cl.of sl then
      match sl.eng.find? (fun x => x.1 == 1) with
      | some (_, f) => (match decode .mtx (nth 0 f.words 0) 0 with | .ok (_, j) => some j | .error _ => none)
      | none => none
    else none)

/-- The units let a command fire (R284). -/
def unitFree (s : State) (cl : Claim) (i : Instr) : M Unit :=
  if (s.mtxFlying (coreOf s.cur.u) cl).all (mtxApart cl i) then .ok () else .error (.wait (s.clock + 1))

/-! Records in and out -/

/-- A list cut into stretches of given lengths. -/
def cutAt {α : Type} : List Nat → List α → List (List α)
  | [], _ => []
  | n :: t, l => l.take n :: cutAt t (l.drop n)

/-- Records of given sizes in bytes from a data ring, which streams, or an operand queue (R280, R192). The A feed waits on a
watermark (R319). -/
def mtxIn (s : State) (e : InFlight) (oq : Bool) (src : Nat) (nbs : List Nat) : M (InFlight × List (List Byte)) := do
  let recs (ks : List Nat) (es : List (List Byte)) : List (List Byte) :=
    ((cutAt ks es).zip nbs).map (fun l => l.1.flatten.take l.2)
  if oq then
    let ks := nbs.map (ceilDiv · 256)
    let es ← oqPop s src ks.sum
    return ({ e with oqs := [(src, ks.sum)] }, recs ks es)
  else
    let ks := nbs.map (ceilDiv · (s.viewRing s.eSlot src).size)
    let r ← ringIn s src ks.sum
    let bs := ringBytes s src r ks.sum
    if !s.cur.drain && (s.eSlot.ring src).via = 0 then
      bs.forM (fun b => spMark s b.1 r.size)
    return ({ e with advances := [(src, false, ks.sum)], stream := true }, recs ks (bs.map (·.2)))

/-- Records written to a data ring, which streams (R280, R289). -/
def mtxOut (s : State) (e : InFlight) (dst nb : Nat) (recs : List (List Byte)) : M (State × InFlight) := do
  let k := ceilDiv nb (s.viewRing s.eSlot dst).size
  let r ← ringOut s dst (recs.length * k)
  let base := s.ringBase s.eSlot dst
  let s := (recs.zip (List.range recs.length)).foldl (fun s x =>
    ((pieces r.size k x.1).zip (List.range k)).foldl (fun s p =>
      s.modMyCore (fun c => { c with scratch := c.scratch.store (base + r.entry (r.prod + k * x.2 + p.2)) p.1 })) s) s
  return (s, { e with advances := [(dst, true, recs.length * k)], stream := true })

/-- Bytes of a tensor read by the matrix layout unit; a tile homed elsewhere cannot be reached (DEDUCED: log entry 20). -/
def mtxRead (s : State) (core ctx tid off n : Nat) : M (State × List Byte) := do
  let va := tid * 2 ^ 52 + off % 2 ^ 52
  let (s, d) ← getDesc s core ptMTX ctx tid va
  need (off + n ≤ d.size) cPERM pRANGE va
  let (s, ps) ← placeBytes core ptMTX ctx tid d s off n
  need (ps.all (fun p => match p with | .remote _ => false | _ => true)) cPERM pSPACE va
  return (s, ← s.getMems ps)

/-- `n` bits of a tensor from a bit index of its linear view. -/
def mtxBits (s : State) (core ctx tid b n : Nat) : M (State × List Bool) := do
  let (s, bs) ← mtxRead s core ctx tid (b / 8) (ceilDiv (b % 8 + n) 8)
  let v := leNat bs
  return (s, (List.range n).map (fun k => bitOf v (b % 8 + k)))

/-! B planes -/

/-- The scale codes of row `n` of a tensor from reduction element `k0` on (R69 to R71). -/
def tensorScales (s : State) (core ctx : Nat) (d : Desc) (n k0 rows : Nat) : M (State × List Nat × List Nat) := do
  if !fmtScaled d.fmt then return (s, [], [])
  let (s, t) ← getDesc s core ptMTX ctx d.scale (d.scale * 2 ^ 52)
  need (t.fmt = 0xC && t.layout = 0) cPERM pBADDESC (d.scale * 2 ^ 52)
  match d.fmt with
  | 5 =>
    let rb := roundUp (d.e0 / 8) 32
    let (s, mic) ← mtxRead s core ctx d.scale (d.soff + n * rb + k0 / 8) (rows / 8)
    let (s, blk) ← mtxRead s core ctx d.scale
      (roundUp (d.soff + d.rows * rb) 64 + n / 64 * roundUp (2 * (d.e0 / 256)) 32 + 2 * (k0 / 256)) (2 * (rows / 256))
    return (s, scaleCodes 5 mic blk)
  | 0xD =>
    let (s, blk) ← mtxRead s core ctx d.scale (d.soff + n * roundUp (2 * (d.e0 / 128)) 32 + 2 * (k0 / 128)) (2 * (rows / 128))
    return (s, scaleCodes 0xD [] blk)
  | c =>
    let (s, mic) ← mtxRead s core ctx d.scale (d.soff + n * roundUp (d.e0 / 32) 32 + k0 / 32) (rows / 32)
    return (s, scaleCodes c mic [])

/-- A column of a plane from a tensor: elements `k0` onward of row `n`, and their scales. -/
def tensorColumn (s : State) (core ctx tid : Nat) (d : Desc) (n k0 rows : Nat) : M (State × List Nat × List Nat × List Nat) := do
  let w := fmtBits d.fmt
  let b := (n * d.e0 + k0) * w
  let (s, bs) ← mtxRead s core ctx tid (b / 8) (ceilDiv (b % 8 + rows * w) 8)
  let v := leNat bs
  let (s, mic, blk) ← tensorScales s core ctx d n k0 rows
  return (s, (List.range rows).map (fun k => fld v (b % 8 + w * k) w), mic, blk)

/-- A column enters a plane. -/
def Plane.putColumn (p : Plane) (j : Nat) (codes mic blk : List Nat) : Plane :=
  { p with
    cells := Tbl.set [] p.cells j (codes.map (· + 1))
    scales := Tbl.set ([], []) p.scales j (mic, blk) }

/-- The descriptor of a dense B tensor and its tile: first reduction row, rows, first column, columns (R275). -/
def denseTile (s : State) (core ctx tid tile btype : Nat) : M (State × Desc × Nat × Nat × Nat × Nat) := do
  let (s, d) ← getDesc s core ptMTX ctx tid (tid * 2 ^ 52)
  need (d.fmt = btype && d.rank = 2) cLEASE 6 0
  let kt := ceilDiv d.e0 1024
  let k0 := 1024 * (tile % kt)
  let n0 := 1536 * (tile / kt)
  need (k0 < d.e0 && n0 < d.e1) cPERM pRANGE (tid * 2 ^ 52)
  return (s, d, k0, min 1024 (d.e0 - k0), n0, min 1536 (d.e1 - n0))

/-- A dense plane read from its tensor tile (R275). -/
def densePlane (s : State) (core : Nat) (t : PlaneTag) : M (State × Plane) := do
  let (s, d, k0, rows, n0, cols) ← denseTile s core t.ctx t.tid t.tile t.btype
  (List.range cols).foldlM (fun (x : State × Plane) j => do
    let (s, codes, mic, blk) ← tensorColumn x.1 core t.ctx t.tid d (n0 + j) k0 rows
    return (s, x.2.putColumn j codes mic blk)) (s, ⟨some t, [], [], [], 0⟩)

/-- What a CSR tensor's tile holds (R276, R277): the packed rows, each with its stored (column, code) pairs. -/
def csrRows (s : State) (core ctx tid tile btype : Nat) : M (State × Nat × Nat × List (Nat × List (Nat × Nat))) := do
  let va := tid * 2 ^ 52
  let (s, d) ← getDesc s core ptMTX ctx tid va
  need (d.layout = 5 && d.fmt = btype && (d.fmt = 1 || d.fmt = 3 || d.fmt = 4 || d.fmt = 0xB)) cLEASE 6 0
  need (4096 * tile < d.e1) cPERM pRANGE va
  let (s, pb) ← mtxRead s core ctx tid 0 (4 * (d.e1 + 1))
  let ptrs := (pieces 4 (d.e1 + 1) pb).map leNat
  let last := nth 0 ptrs d.e1
  need ((ptrs.zip (ptrs.drop 1)).all (fun p => p.1 ≤ p.2) && last ≤ d.e2) cPERM pBADDESC va
  let (s, ib) ← mtxRead s core ctx tid (4 * (d.e1 + 1)) (2 * d.e2)
  let idx := (pieces 2 d.e2 ib).map leNat
  need (idx.all (· < d.e0)) cPERM pBADDESC va
  let w := fmtBits d.fmt / 8
  let (s, vb) ← mtxRead s core ctx tid (4 * (d.e1 + 1) + roundUp (2 * d.e2) 64) (w * last)
  let vals := (pieces w last vb).map leNat
  let lo := 4096 * tile
  let n := min 4096 (d.e1 - lo)
  let rows := (List.range n).map (fun r =>
    let a := nth 0 ptrs (lo + r)
    let b := nth 0 ptrs (lo + r + 1)
    (r, ((idx.drop a).take (b - a)).zip ((vals.drop a).take (b - a))))
  return (s, d.e0, roundUp n 1024, rows.filter (fun r => !r.2.isEmpty))

/-- A plane built from a CSR tensor (R277). The value of a cell that a row stores more than once is not stated: a free
choice among them (log entry 21). -/
def csrPlane (s : State) (core : Nat) (t : PlaneTag) : M (State × Plane) := do
  let (s, e0, kl, rows) ← csrRows s core t.ctx t.tid t.tile t.btype
  need (rows.length ≤ 1024) cILLEGAL 13 0
  let (k, s) := s.fresh
  let cell (r : List (Nat × Nat)) (j : Nat) : Nat :=
    match (r.filter (fun e => e.1 == j)).map (·.2) with
    | [] => 0
    | v :: l => nth v (v :: l) (Config.freeNat 11 (k * 2 ^ 11 + j) % (l.length + 1))
  return (s, (List.range e0).foldl (fun p j => p.putColumn j (rows.map (fun r => cell r.2 j)) [] [])
    ⟨some { t with span := kl }, rows.map (·.1), [], [], 0⟩)

/-- The physical plane of a role (R270). -/
def Arr.plane (a : Arr) (role : Nat) : Plane := Tbl.get default a.planes ((a.role + role) % 2)
def Arr.setPlane (a : Arr) (role : Nat) (p : Plane) : Arr := { a with planes := Tbl.put a.planes ((a.role + role) % 2) p }

/-- The plane a claim expects in a role, when it is there. -/
def State.rolePlane (s : State) (cl : Claim) (role : Nat) : Option Plane :=
  let p := (s.arr (arrOf (coreOf s.cur.u))).plane role
  match if role = 0 then cl.active else cl.shadow with
  | some t => if p.tag = some t then some p else none
  | none => none

/-- A plane whose tag is not resident is reloaded, and rebuilt by MBSQ when it is marked squared; an untagged one cannot
be (R270). -/
def reloadPlane (s : State) (core : Nat) (t : PlaneTag) : M (State × Plane) := do
  need (t.tid ≠ 4095) cLEASE 5 0
  let b := { t with squared := false }
  let (s, p) ← if t.span ≠ 0 then csrPlane s core b else densePlane s core b
  return (s, { p with tag := some t, sqs := b2n t.squared })

/-- The planes of a claim are re-established (R270). -/
def establish (s : State) (core : Nat) (cl : Claim) : M State := do
  let a := arrOf core
  let ar := s.arr a
  let at_ (role k : Nat) (t : Option PlaneTag) : Nat :=
    match t with
    | some t => b2n ((Tbl.get default ar.planes ((role + k) % 2)).tag = some t)
    | none => 0
  let fit (role : Nat) : Nat := at_ role 0 cl.active + at_ role 1 cl.shadow
  let role := if fit ar.role < fit (1 - ar.role) then 1 - ar.role else ar.role
  let s := s.setArr a { ar with role := role }
  let put (s : State) (k : Nat) (t : Option PlaneTag) : M State :=
    match t with
    | some t =>
      if ((s.arr a).plane k).tag = some t then .ok s
      else do
        let (s, p) ← reloadPlane s core t
        return s.setArr a ((s.arr a).setPlane k p)
    | none => .ok s
  let s ← put s 0 cl.active
  put s 1 cl.shadow

/-! Lease runs -/

/-- The core's lease run lets a command fire (R269, R270): the array is the core's, its current has been granted, its
planes are re-established, and the run is not over. -/
def needRun (s : State) (cl : Claim) : M State := do
  let core := coreOf s.cur.u
  let a := arrOf core
  let ar := s.arr a
  if ar.holder ≠ some core then .error (.wait (s.clock + 1))
  else if ar.amps = 0 then
    match s.hub.grants.find? (fun g => g.key == core && g.issued) with
    | none => .error (.redo (fun s => s.askAmps (dieOf core) core (6 * (cl.cls + 1))))
    | some g => do
      let _ ← establish s core cl
      .error (.redo (fun s =>
        match establish s core cl with
        | .ok t => (t.takeAmps g cl.ctx core).setArr a { t.arr a with amps := g.amps }
        | .error _ => s))
  else if 64 ≤ ar.fired || (0 < ar.fired && ar.start + usClk 16 ≤ s.clock) then .error (.wait (s.clock + 1))
  else return s.setArr a { ar with fired := ar.fired + 1, start := if ar.fired = 0 then s.clock else ar.start }

/-- The clocks of a core that its array's work of `n` array clocks takes: the arrays of a die that is not characterised run
at half the arithmetic clock (R13). -/
def State.arrClocks (s : State) (core n : Nat) : Nat := if s.hub.fullClk.getLsbD (dieOf core) then n else 2 * n

/-- A command's entry with its latency (R294). -/
def State.mtxEntry (s : State) (lat : Nat) : InFlight :=
  { InFlight.of s.cur s.clock with lat := s.arrClocks (coreOf s.cur.u) lat }

/-! The commands -/

/-- A fresh claim (R266). -/
def Claim.fresh (sl : Slot) (cls : Nat) : Claim :=
  ⟨sl.tk.ctx, sl.tk.seq, cls, none, none, none, none, epiReset, 0, [], []⟩

/-- MLEASE (R266): with another holder it waits, fired; by a holder it fires, and is refused, once the units are idle
(R284). -/
def mleaseBody (f : MC) (s : State) : M (State × InFlight) := do
  let e := s.mtxEntry 4
  match s.myCore.claim with
  | none => return (s.setClaim (Claim.fresh s.eSlot f.cls.toNat), e)
  | some cl =>
    if cl.of s.eSlot then
      unitFree s cl (.mlease f)
      trap cLEASE 2 0
    else return (s, { e with waits := [0] })

/-- MFREE (R267). -/
def mfreeBody (s : State) (cl : Claim) : M (State × InFlight) := do
  need cl.opened.isNone cLEASE 3 0
  return (s.dropClaim (coreOf s.cur.u), s.mtxEntry 2)

/-- MCFG (R271). -/
def mcfgBody (f : MC) (s : State) (cl : Claim) : M (State × InFlight) := do
  need cl.opened.isNone cLEASE 3 0
  return (s.setClaim { cl with mcfg := some f.imm.toNat }, s.mtxEntry 2)

/-- MCHAIN.open and MCHAIN.close (R285). -/
def mchainOpenBody (f : MC) (s : State) (cl : Claim) : M (State × InFlight) := do
  need cl.opened.isNone cLEASE 3 0
  let i := f.imm.toNat
  need (!cl.mom || fld i 14 2 = 3) cILLEGAL 3 0
  return (s.setClaim { cl with opened := some (fld i 2 6, fld i 8 6 + 1, fld i 14 2) }, s.mtxEntry 1)
def mchainCloseBody (s : State) (cl : Claim) : M (State × InFlight) := do
  need cl.opened.isSome cLEASE 3 0
  return (s.setClaim { cl with opened := none }, s.mtxEntry 1)

/-- MEPI (R288). -/
def mepiBody (f : MC) (s : State) (cl : Claim) : M (State × InFlight) := do
  let a ← granAddr s.eSlot.alloc f.gran.toNat 64
  let b := s.myCore.scratch.bytes a 64
  need ((Epi.parse b).ok b ((cl.cfg.map (·.rs)).getD false)) cILLEGAL 3 0
  let k := (s.eSlot.gang.takeWhile (· ≠ s.cur.u)).length
  return (s.setClaim { cl with epi := b, epiBy := if s.eSlot.gang.isEmpty then 0 else k }, s.mtxEntry 8)

/-- The claim with a role's expected tag. -/
def Claim.expect (cl : Claim) (role : Nat) (t : PlaneTag) : Claim :=
  if role = 0 then { cl with active := some t } else { cl with shadow := some t }

/-- A new plane takes its role, and its tag is expected there. -/
def State.takePlane (s : State) (cl : Claim) (role : Nat) (t : PlaneTag) (p : Plane) : State :=
  let a := arrOf (coreOf s.cur.u)
  (s.setArr a ((s.arr a).setPlane role p)).setClaim (cl.expect role t)

/-- A skipped load is counted (R275, R465). -/
def State.skipLoad (s : State) : State :=
  (s.count0 (coreOf s.cur.u) 0x0B (some (s.cur.u % 4)) 1).fixedAdd (s.fnOf s.eSlot.ctx) 4 (coreOf s.cur.u) 1

/-- MBLD (R275). -/
def mbldBody (f : MT) (s : State) (cl : Claim) : M (State × InFlight) := do
  let c ← needCfg cl
  let core := coreOf s.cur.u
  let role := b2n f.pl
  let tid := f.tid.toNat
  let t : PlaneTag := ⟨cl.ctx, tid, f.tile.toNat, false, c.btype, 0, 0⟩
  if tid ≠ 4095 && (s.rolePlane cl role).any (fun p => p.tag = some t) then return (s.skipLoad, s.mtxEntry 2)
  let lat (rows cols : Nat) : Nat :=
    32 + max (ceilDiv (rows * cols * fmtBits c.btype / 8) 2048) (ceilDiv (scaleBytes c.btype rows * cols) 1024)
  if f.s then
    let (t, rows, cols, s) : PlaneTag × Nat × Nat × State ← if tid = 4095 then
        let (k, s) := s.fresh
        pure ({ t with uid := k + 1 }, 1024, 1536, s)
      else do
        let (s, _, _, rows, _, cols) ← denseTile s core cl.ctx tid f.tile.toNat c.btype
        pure (t, rows, cols, s)
    let (e, recs) ← mtxIn s (s.mtxEntry (lat rows cols)) false f.ring.toNat
      (List.replicate cols (recordBytes c.btype 1024))
    let p := (recs.zip (List.range cols)).foldl (fun (p : Plane) r =>
      let x := parseRecord c.btype 1024 r.1
      p.putColumn r.2 (x.1.take rows) x.2.1 x.2.2) ⟨some t, [], [], [], 0⟩
    return (s.takePlane cl role t p, e)
  else
    let (s, _, _, rows, _, cols) ← denseTile s core cl.ctx tid f.tile.toNat c.btype
    let (s, p) ← densePlane s core t
    return (s.takePlane cl role t p, s.mtxEntry (lat rows cols))

/-- MBCSR (R277). -/
def mbcsrBody (f : MT) (s : State) (cl : Claim) : M (State × InFlight) := do
  let c ← needCfg cl
  let role := b2n f.pl
  let same (p : Plane) : Bool := p.tag.any (fun t =>
    t.ctx = cl.ctx && t.tid = f.tid.toNat && t.tile = f.tile.toNat && t.btype = c.btype && !t.squared)
  if (s.rolePlane cl role).any same then return (s.skipLoad, s.mtxEntry 2)
  let (s, p) ← csrPlane s (coreOf s.cur.u) ⟨cl.ctx, f.tid.toNat, f.tile.toNat, false, c.btype, 0, 0⟩
  let stored := (p.cells.map (fun e => (e.2.filter (· ≠ 1)).length)).sum
  let lat := 64 + 2 * p.rows.length + ceilDiv (stored * fmtBits c.btype / 8) 2048
  return (s.takePlane cl role (p.tag.getD default) p, s.mtxEntry lat)

/-- MBSQ (R278). -/
def mbsqBody (s : State) (cl : Claim) : M (State × InFlight) := do
  let c ← needCfg cl
  need c.mom cLEASE 6 0
  match s.rolePlane cl 0, cl.active with
  | some p, some t =>
    need (t.btype = c.btype) cLEASE 6 0
    let beyond := p.cells.any (fun e => e.2.any (fun x => x ≠ 0 && (squares t.btype (p.sqs + 1) (elVal t.btype (x - 1))).2))
    let t := { t with squared := true }
    return (s.takePlane cl 1 t { p with tag := some t, sqs := p.sqs + 1 },
      { s.mtxEntry 96 with flags := if beyond then fOF else 0 })
  | _, _ => trap cLEASE 6 0

/-- MBSWAP (R279). -/
def mbswapBody (s : State) (cl : Claim) : M (State × InFlight) := do
  let a := arrOf (coreOf s.cur.u)
  let ar := s.arr a
  return ((s.setArr a { ar with role := 1 - ar.role }).setClaim { cl with active := cl.shadow, shadow := cl.active }, s.mtxEntry 1)

/-- A record of A against a plane (R281): the slab of each column, and the flags. -/
def streamRecord (s : State) (c : Cfg) (p : Plane) (r : List Nat × List Nat × List Nat) : State × List Int × Nat :=
  let sparse := (p.tag.map (·.span)).getD 0 ≠ 0
  let (k, s) := s.fresh
  (s, streamRow c p (if sparse then packedRow c.atype r p.rows else denseRow c.atype r)
    (fun j => Config.freeNat 10 (k * 2 ^ 20 + j)))

/-- Elements an A record has against the plane of a tag (R277, R280). -/
def tagSpan (t : Option PlaneTag) : Nat := let n := (t.map (·.span)).getD 0; if n = 0 then 1024 else n
def Plane.span (p : Plane) : Nat := tagSpan p.tag

/-- A slab row joins a row of accumulators. -/
def State.accJoin (s : State) (c : Cfg) (keep : Bool) (h r : Nat) (slab : List Int) : State × Nat :=
  let (l, fl) := c.combineRow keep (s.myCore.accRow h r) slab
  (s.modMyCore (fun x => x.setAcc h r l), fl)

/-- Clocks of `n` planes at a class (R270, R294). -/
def classClocks (cls n : Nat) : Nat := ceilDiv (n * 16) (cls + 1)

/-- MSTR (R281). -/
def mstrBody (f : MA) (s : State) (cl : Claim) : M (State × InFlight) := do
  let c ← needCfg cl
  let m := f.nrow.toNat + 1
  let h := b2n f.h
  let lat := 16 + classClocks cl.cls (m * planeCount c.atype)
  let (e, recs) ← mtxIn s (s.mtxEntry lat) f.s f.src.toNat (List.replicate m (recordBytes c.atype (tagSpan cl.active)))
  needRows cl f.arow.toNat m [h]
  need (!c.mom) cLEASE 6 0
  match s.rolePlane cl 0 with
  | none => trap cLEASE 6 0
  | some p =>
    need ((p.tag.map (·.btype)) = some c.btype) cLEASE 6 0
    let (s, fl) := (recs.zip (List.range m)).foldl (fun (x : State × Nat) r =>
      let (s, slab, f1) := streamRecord x.1 c p (parseRecord c.atype p.span r.1)
      let (s, f2) := s.accJoin c f.a h (f.arow.toNat + r.2) slab
      (s, orF x.2 (orF f1 f2))) (s, 0)
    return (s, { e with flags := fl })

/-- A negative variance element (R282): neither a zero nor a NaN. -/
def negEl (c code : Nat) : Bool := let x := elVal c code; !x.isNan && x.neg && !x.isZero

/-- The sizes of the records of `m` A units, a row of means and a row of variances each, by the span of the plane that each
is streamed against (R277, R282). -/
def unitRecordBytes (c : Nat) (cl : Claim) (m : Nat) : List Nat :=
  (List.replicate m [recordBytes c (tagSpan cl.active), recordBytes c (tagSpan cl.shadow)]).flatten

/-- MSTRM (R282). -/
def mstrmBody (f : MA) (s : State) (cl : Claim) : M (State × InFlight) := do
  let c ← needCfg cl
  let m := f.nrow.toNat + 1
  let lat := 16 + classClocks cl.cls (2 * m * planeCount c.atype)
  let (e, recs) ← mtxIn s (s.mtxEntry lat) f.s f.src.toNat (unitRecordBytes c.atype cl m)
  needRows cl f.arow.toNat m [0, 1]
  need c.mom cLEASE 6 0
  match s.rolePlane cl 0, s.rolePlane cl 1 with
  | some p, some q =>
    need ((p.tag.map (·.btype)) = some c.btype && (q.tag.map (·.btype)) = some c.btype
      && q.tag.any (·.squared)) cLEASE 6 0
    let units := ((pieces 2 m recs).map (fun l =>
      [parseRecord c.atype p.span (nth [] l 0), parseRecord c.atype q.span (nth [] l 1)])).zip (List.range m)
    let reads (k : Nat) : Bool := (q.tag.map (·.span)) = some 0 || q.rows.contains k
    let bad := units.findSome? (fun u =>
      ((nth default u.1 1).1.zip (List.range q.span)).findSome? (fun x =>
        if negEl c.atype x.1 && reads x.2 then some (x.2 + u.2 * 2 ^ 16) else none))
    let clamp := momClamp s.mctl
    match bad with
    | some k => if !clamp then trap cNEGVAR 0 k
    | none => pure ()
    let (s, fl) := units.foldl (fun (x : State × Nat) u =>
      let v := nth default u.1 1
      let (s, sm, f1) := streamRecord x.1 c p (nth default u.1 0)
      let (s, sv, f2) := streamRecord s c q (v.1.map (fun e => if negEl c.atype e then 0 else e), v.2)
      let (s, f3) := s.accJoin c f.a 0 (f.arow.toNat + u.2) sm
      let (s, f4) := s.accJoin c f.a 1 (f.arow.toNat + u.2) sv
      (s, orF x.2 (orF (orF f1 f2) (orF f3 f4)))) (s, 0)
    return (s, { e with flags := fl, clamped := bad.isSome })
  | _, _ => trap cLEASE 6 0

/-- The halves a row command names: both, with h = 0, in moment mode (R283, R289). -/
def halvesOf (cl : Claim) (h : Bool) : M (List Nat) := do
  need (!cl.mom || !h) cILLEGAL 3 0
  return if cl.mom then [0, 1] else [b2n h]

/-- MACCLD (R283). -/
def maccldBody (f : MA) (s : State) (cl : Claim) : M (State × InFlight) := do
  let c ← needCfg cl
  let m := f.nrow.toNat + 1
  let hs ← halvesOf cl f.h
  let (e, recs) ← mtxIn s (s.mtxEntry (4 + 3 * m * hs.length)) f.s f.src.toNat (List.replicate m (6144 * hs.length))
  needRows cl f.arow.toNat m hs
  let (s, fl) := (recs.zip (List.range m)).foldl (fun (x : State × Nat) r =>
    (hs.zip (pieces 6144 2 r.1)).foldl (fun (x : State × Nat) b =>
      let (s, fl) := x.1.accJoin c f.a b.1 (f.arow.toNat + r.2) ((pieces 4 1536 b.2).map (fun w => sint 32 (leNat w)))
      (s, orF x.2 fl)) x) (s, 0)
  return (s, { e with flags := fl })

/-- Rows set to the identity (R265). -/
def State.clearRows (s : State) (c : Cfg) (arow m : Nat) (hs : List Nat) : State :=
  (List.range m).foldl (fun s r => hs.foldl (fun s h =>
    s.modMyCore (fun x => x.setAcc h (arow + r) (List.replicate 1536 c.identity))) s) s

/-- MZERO (R283). -/
def mzeroBody (f : MA) (s : State) (cl : Claim) : M (State × InFlight) := do
  let c ← needCfg cl
  let m := f.nrow.toNat + 1
  let hs := if cl.mom then [0, 1] else [b2n f.h]
  needRows cl f.arow.toNat m hs
  return (s.clearRows c f.arow.toNat m hs, s.mtxEntry (2 + m))

/-! The epilogue -/

/-- A vector of the epilogue, read in an allocation (R288). -/
def epiVec (s : State) (al : Alloc) (use : Bool) (gran w n : Nat) : M (List Nat) := do
  if !use then return []
  let a ← granAddr al gran (w * n)
  return (pieces w n (s.myCore.scratch.bytes a (w * n))).map leNat

/-- The generation of a tensor (R89). -/
def tensorGen (s : State) (ctx tid : Nat) : M Nat := do return leNat (← rdDram s (s.ttbase ctx + 64 * tid + 50) 2)

/-- A row's live bit (R290): true without LIVE. -/
def rowLive (s : State) (ctx : Nat) (e : Epi) (row : Nat) : M (State × Bool) := do
  if !e.live then return (s, true)
  let (s, b) ← mtxBits s (coreOf s.cur.u) ctx e.livet (e.liveb + row) 1
  return (s, nth false b 0)

/-- A row's mask bits (R290), all set without MASK. -/
def rowMask (s : State) (ctx : Nat) (e : Epi) (row : Nat) : M (State × List Bool) := do
  if !e.mask then return (s, List.replicate e.nc true)
  mtxBits s (coreOf s.cur.u) ctx e.maskt (e.morg + row * e.mstride) e.nc

/-- One row in float mode: output codes, flags, heap candidates as (score, column). -/
def epiFloatRow (e : Epi) (acc bias : List Nat) (live : Bool) (mask : List Bool) : List Nat × Nat × List (Nat × Nat) :=
  let r := (List.range e.nc).map (fun n =>
    let (x, fl) := (epiFloat e (nth 0 acc n) (nth 0 bias n)).run 0
    let on := live && nth true mask n
    let x := if on then x else negC inf32
    let y := epiOut e x
    (y.1, mtxFlags (orF fl y.2), if on && !(dv x).isNan then some (x, n) else none))
  (r.map (·.1), r.foldl (fun m x => orF m x.2.1) 0, r.filterMap (·.2.2))

/-- One row in moment mode: output bytes and flags. -/
def epiMomRow (e : Epi) (mu v bias : List Nat) (live : Bool) : List Byte × Nat :=
  let r := (List.range e.nc).map (fun n =>
    if !live then (negC inf32, 0, 0)
    else if e.hasBias then
      let c := fp32.rne (XR.add (dv (nth 0 mu n)) (dv (nth 0 bias n)))
      (c.1, nth 0 v n, mtxFlags c.2)
    else (nth 0 mu n, nth 0 v n, 0))
  (r.flatMap (fun x => leBytes 4 x.1 ++ leBytes 4 x.2.1), r.foldl (fun m x => orF m x.2.2) 0)

/-- The capacity of a row's heap, k + g (R291). -/
def Claim.cap (cl : Claim) (row : Nat) : Nat := let c := Tbl.get 0 cl.caps row; c % 256 + c / 256

/-- MDRAIN's vectors: bias, multiplier, shift, ZB. -/
structure EpiVecs where
  bias : List Nat
  mult : List Nat
  shift : List Nat
  zb : List Nat

/-- One row through the epilogue (R290): the claim with its heaps, the output bytes, the flags. -/
def drainRow (s : State) (cl : Claim) (e : Epi) (v : EpiVecs) (h row : Nat) : M (State × Claim × List Byte × Nat) := do
  let acc := s.myCore.accRow h row
  match e.mode with
  | 1 =>
    let r := (List.range e.nc).map (fun n =>
      epiInt e (nth 0 acc n) (nth 0 acc 1535) (nth 0 v.bias n) (nth 0 v.mult n) (nth 0 v.shift n) (nth 0 v.zb n))
    return (s, cl, r.flatMap (fun x => leBytes e.width x.1), r.foldl (fun m x => orF m x.2) 0)
  | 2 =>
    let (s, live) ← rowLive s cl.ctx e row
    let r := epiMomRow e acc (s.myCore.accRow 1 row) v.bias live
    return (s, cl, r.1, r.2)
  | _ =>
    let gen ← if e.mask then tensorGen s cl.ctx e.maskt else pure 0
    let (s, live) ← rowLive s cl.ctx e row
    let (s, mask) ← rowMask s cl.ctx e row
    let (ys, fl, cand) := epiFloatRow e acc v.bias live mask
    let heap := if e.heap then
        cand.foldl (fun l c => heapInsert (cl.cap row) l ⟨c.1, (e.tokbase + c.2) % 2 ^ 32, gen⟩) (Tbl.get [] cl.heaps row)
      else Tbl.get [] cl.heaps row
    return (s, { cl with heaps := Tbl.set [] cl.heaps row heap }, ys.flatMap (leBytes e.width), fl)

/-- The allocation of member `k` of the gang of the entry in hand, ended or not (R218). -/
def State.memberAlloc (s : State) (k : Nat) : Alloc :=
  let sl := s.eSlot
  let v := nth s.cur.u sl.gang k
  let is (t : Task) : Bool := t.ctx == sl.tk.ctx && t.seq == sl.tk.seq
  if (s.slot v).task.any is then (s.slot v).alloc
  else match (s.slot v).drain with
    | some d => if is d.task then d.alloc else Tbl.get default s.myCore.reserved (hiddenKey sl.tk k)
    | none => Tbl.get default s.myCore.reserved (hiddenKey sl.tk k)

/-- MDRAIN (R289). -/
def mdrainBody (f : MA) (s : State) (cl : Claim) : M (State × InFlight) := do
  let c ← needCfg cl
  let m := f.nrow.toNat + 1
  let arow := f.arow.toNat
  let hs ← halvesOf cl f.h
  let e := Epi.parse cl.epi
  let nb := roundUp (e.nc * e.width) 64
  if e.rowout then
    let _ ← ringOut s f.src.toNat (m * ceilDiv nb (s.viewRing s.eSlot f.src.toNat).size)
  needRows cl arow m hs
  need ((e.mode = 2 : Bool) == c.mom) cLEASE 6 0
  need (e.rowout || f.src = 0) cILLEGAL 3 0
  let al := if s.eSlot.gang.isEmpty then s.eSlot.alloc else s.memberAlloc cl.epiBy
  let quant := e.mode = 1 && e.otype ≠ 9
  let v : EpiVecs := ⟨← epiVec s al e.hasBias e.bias 4 e.nc, ← epiVec s al quant e.mult 4 e.nc,
    ← epiVec s al quant e.shift 1 e.nc, ← epiVec s al e.rsc e.zb 4 e.nc⟩
  let (s, cl, outs, fl) ← (List.range m).foldlM (fun (x : State × Claim × List (List Byte) × Nat) j => do
    let (s, cl, b, fl) ← drainRow x.1 x.2.1 e v (nth 0 hs 0) (arow + j)
    return (s, cl, x.2.2.1 ++ [b], orF x.2.2.2 fl)) (s, cl, [], 0)
  let s := s.setClaim cl
  let x := { s.mtxEntry (20 + 3 * m * hs.length) with flags := fl }
  let (s, x) ← if e.rowout then mtxOut s x f.src.toNat nb (outs.map (fun b => b ++ zeros (nb - b.length))) else pure (s, x)
  return (if f.a then s else s.clearRows c arow m hs, x)

/-! Top-k heaps -/

/-- The rows a heap word names: first, count (R292). -/
def heapRows (f : MC) : M (Nat × Nat) := do
  let r := fld f.imm.toNat 0 6
  let m := fld f.imm.toNat 6 6 + 1
  need (r + m ≤ 64) cPERM pRANGE 0
  return (r, m)

/-- The entries of a heap that pass re-validation, until k are kept (R292). -/
def heapValid (ctx : Nat) (e : Epi) (gen row : Nat) : State → Nat → List HeapEnt → M (State × List HeapEnt)
  | s, 0, _ => .ok (s, [])
  | s, _, [] => .ok (s, [])
  | s, k + 1, h :: t => do
    let (s, on) ← if e.mask && h.gen ≠ gen then do
        let (s, b) ← mtxBits s (coreOf s.cur.u) ctx e.maskt
          (e.morg + row * e.mstride + (h.token + 2 ^ 32 - e.tokbase) % 2 ^ 32) 1
        pure (s, nth false b 0)
      else pure (s, true)
    if on then
      let (s, l) ← heapValid ctx e gen row s k t
      return (s, h :: l)
    else heapValid ctx e gen row s (k + 1) t

/-- The k of a row's heap: the block's k as the last MHEAPCLR of the row adopted it (R291, R293). -/
def Claim.heapK (cl : Claim) (row : Nat) : Nat := Tbl.get 0 cl.caps row % 256

/-- Bytes of a heap's record (R292). -/
def heapSize (k : Nat) : Nat := 64 * ceilDiv (16 + 8 * k) 64

/-- The record of a row's heap (R292). The generation of MASKT is read whether or not MASK is set. -/
def heapRecord (s : State) (cl : Claim) (e : Epi) (row : Nat) : M (State × List Byte) := do
  let k := cl.heapK row
  let gen ← tensorGen s cl.ctx e.maskt
  let (s, live) ← rowLive s cl.ctx e row
  let (s, l) ← if live then heapValid cl.ctx e gen row s k (Tbl.get [] cl.heaps row) else pure (s, [])
  let n := l.length
  let st := if n = 0 then 2 else if n = k then 0 else 1
  let b := leBytes 4 n ++ leBytes 1 st ++ leBytes 1 k ++ leBytes 2 gen ++ zeros 8
    ++ l.flatMap (fun h => leBytes 4 h.score ++ leBytes 4 h.token)
  return (s, b ++ zeros (heapSize k - b.length))

/-- MHEAPRD (R292). -/
def mheaprdBody (f : MC) (s : State) (cl : Claim) : M (State × InFlight) := do
  let (r, m) ← heapRows f
  let e := Epi.parse cl.epi
  let a ← granAddr s.eSlot.alloc f.gran.toNat (((List.range m).map (fun j => heapSize (cl.heapK (r + j)))).sum)
  let (s, _) ← (List.range m).foldlM (fun (x : State × Nat) j => do
    let (s, b) ← heapRecord x.1 cl e (r + j)
    return (s.modMyCore (fun c => { c with scratch := c.scratch.store x.2 b }), x.2 + b.length)) (s, a)
  return (s, s.mtxEntry (8 + 4 * m))

/-- MHEAPCLR (R293). -/
def mheapclrBody (f : MC) (s : State) (cl : Claim) : M (State × InFlight) := do
  let (r, m) ← heapRows f
  let e := Epi.parse cl.epi
  let cl := (List.range m).foldl (fun (cl : Claim) j =>
    { cl with heaps := Tbl.del cl.heaps (r + j), caps := Tbl.set 0 cl.caps (r + j) (e.k + 256 * e.g) }) cl
  return (s.setClaim cl, s.mtxEntry (2 + m))

/-- MSAVE (R286). -/
def msaveBody (f : MT) (s : State) (cl : Claim) : M (State × InFlight) := do
  match cl.opened with
  | none => trap cLEASE 4 0
  | some (r, n, hm) =>
    let core := coreOf s.cur.u
    let bs := s.myCore.accBytes r n hm
    let va := f.tid.toNat * 2 ^ 52 + 65536 * f.tile.toNat
    let (s, d) ← getDesc s core ptMTX cl.ctx f.tid.toNat va
    need (d.fmt = 0xC && d.layout = 0) cLEASE 6 0
    let (s, d) ← tensorEnd s core ptMTX cl.ctx va 0 bs.length true
    need (f.tid ≠ 4095) cPERM pRDONLY va
    let (s, ps) ← placeBytes core ptMTX cl.ctx f.tid.toNat d s (65536 * f.tile.toNat) bs.length
    need (ps.all (fun p => match p with | .remote _ => false | _ => true)) cPERM pSPACE va
    let s ← s.putMems (ps.zip bs)
    return (s, s.mtxEntry (8 + 24 * (bs.length / 6144)))

/-- The commands that need the array (R269). -/
def mtxBody (i : Instr) : Option (State → Claim → M (State × InFlight)) :=
  match i with
  | .mcfg f => some (mcfgBody f)
  | .mbld f => some (mbldBody f)
  | .mbcsr f => some (mbcsrBody f)
  | .mbsq => some mbsqBody
  | .mbswap => some mbswapBody
  | .mstr f => some (mstrBody f)
  | .mstrm f => some (mstrmBody f)
  | .maccld f => some (maccldBody f)
  | .mzero f => some (mzeroBody f)
  | .mdrain f => some (mdrainBody f)
  | .mepi f => some (mepiBody f)
  | .mheaprd f => some (mheaprdBody f)
  | .mheapclr f => some (mheapclrBody f)
  | .msave f => some (msaveBody f)
  | .mchainOpen f => some (mchainOpenBody f)
  | .mchainClose => some mchainCloseBody
  | _ => none

/-- The command at the head of a slot's matrix ring would fire, or fault, if the array were the core's and its planes
re-established (R269, R270). -/
def State.mtxReady (s : State) (u : Nat) (drain : Bool) : Option (Instr × Claim) :=
  let sl := s.view u drain
  if (sl.cring 1).occ = 0 || sl.eng.any (fun x => x.1 == 1) then none
  else
    let w := (s.core (coreOf u)).scratch.num (sl.cmdAddr 1 0) 8
    match decode .mtx w 0, (s.core (coreOf u)).claim with
    | .ok (ctl, i), some cl =>
      match mtxBody i with
      | some b =>
        let s := { s with cur := ⟨u, .mtx, ctl, w, 8, drain⟩ }
        if !cl.of sl then none
        else
          match takeWait s u ctl.wait >>= (fun s => do
              unitFree s cl i
              let s ← establish s (coreOf u) cl
              b s cl) with
          | .ok _ => some (i, cl)
          | .error (.wait _) => none
          | .error (.redo _) => none
          | .error _ => some (i, cl)
      | none => none
    | _, _ => none

/-- A lower member of the gang has a command of the other unit that could fire now and touches a common row-half: it goes
first (R284). -/
def lowerFirst (s : State) (cl : Claim) (i : Instr) : M Unit :=
  let lower := s.eSlot.gang.takeWhile (· ≠ s.cur.u)
  if lower.any (fun v =>
      match s.mtxReady v s.cur.drain with
      | some (j, _) => mtxUnit i ≠ 2 && mtxUnit j ≠ 2 && mtxUnit i ≠ mtxUnit j && !mtxApart cl i j
      | none => false) then .error (.wait (s.clock + 1))
  else .ok ()

/-- A matrix command (R268, R269, R284). -/
def mtxWord (i : Instr) (b : State → Claim → M (State × InFlight)) (s : State) : Out :=
  engWord (fun s => do
    let cl ← myClaim s
    unitFree s cl i
    if (mtxBody i).isSome then
      lowerFirst s cl i
      let s ← needRun s cl
      b s cl
    else b s cl) s

def execMlease (f : MC) (s : State) : Out := engWord (mleaseBody f) s
def execMfree (s : State) : Out := mtxWord .mfree mfreeBody s
def execMcfg (f : MC) (s : State) : Out := mtxWord (.mcfg f) (mcfgBody f) s
def execMbld (f : MT) (s : State) : Out := mtxWord (.mbld f) (mbldBody f) s
def execMbcsr (f : MT) (s : State) : Out := mtxWord (.mbcsr f) (mbcsrBody f) s
def execMbsq (s : State) : Out := mtxWord .mbsq mbsqBody s
def execMbswap (s : State) : Out := mtxWord .mbswap mbswapBody s
def execMstr (f : MA) (s : State) : Out := mtxWord (.mstr f) (mstrBody f) s
def execMstrm (f : MA) (s : State) : Out := mtxWord (.mstrm f) (mstrmBody f) s
def execMaccld (f : MA) (s : State) : Out := mtxWord (.maccld f) (maccldBody f) s
def execMzero (f : MA) (s : State) : Out := mtxWord (.mzero f) (mzeroBody f) s
def execMdrain (f : MA) (s : State) : Out := mtxWord (.mdrain f) (mdrainBody f) s
def execMepi (f : MC) (s : State) : Out := mtxWord (.mepi f) (mepiBody f) s
def execMheaprd (f : MC) (s : State) : Out := mtxWord (.mheaprd f) (mheaprdBody f) s
def execMheapclr (f : MC) (s : State) : Out := mtxWord (.mheapclr f) (mheapclrBody f) s
def execMsave (f : MT) (s : State) : Out := mtxWord (.msave f) (msaveBody f) s
def execMchainOpen (f : MC) (s : State) : Out := mtxWord (.mchainOpen f) (mchainOpenBody f) s
def execMchainClose (s : State) : Out := mtxWord .mchainClose mchainCloseBody s

/-! Lease run events -/

/-- The launch level of the first ready matrix command of a core (R212, R269). -/
def State.mtxLevel (s : State) (core : Nat) : Option Nat :=
  if (s.core core).stopped.isSome then none
  else (s.views core).findSome? (fun v => (s.mtxReady v.1 v.2).map (fun _ => s.level (s.view v.1 v.2).tk))

/-- LEASE_RUN_GRANT (R269, R270): a free array goes to the core whose command belongs to the highest level, and among
equals to the first after the last holder; current is asked for. -/
def execLeaseRunGrant (s : State) : Out :=
  let a := s.occ.a % 32
  let ar := s.arr a
  if ar.holder.isSome then .next s
  else
    let order := (List.range 4).map (fun k => 4 * a + (ar.lastHolder + k) % 4)
    let best := order.foldl (fun (m : Option (Nat × Nat)) c =>
      match s.mtxLevel c with
      | some l => (match m with | some (_, l') => if l' < l then some (c, l) else m | none => some (c, l))
      | none => m) none
    match best with
    | none => .next s
    | some (c, _) =>
      let cls := ((s.core c).claim.map (·.cls)).getD 0
      .next ((s.setArr a { ar with holder := some c, fired := 0, start := 0, amps := 0 }).askAmps (dieOf c) c (6 * (cls + 1)))

/-- LEASE_RUN_END (R269): after its 64th command or 16 µs, or with nothing fireable, once the commands running have
completed. -/
def execLeaseRunEnd (s : State) : Out :=
  let a := s.occ.a % 32
  let ar := s.arr a
  match ar.holder with
  | none => .next s
  | some c =>
    let running := (s.views c).any (fun v => (s.view v.1 v.2).eng.any (fun x => x.1 == 1 && x.2.waits.isEmpty))
    let spent := 64 ≤ ar.fired || (0 < ar.fired && ar.start + usClk 16 ≤ s.clock)
    if !running && (spent || (s.mtxLevel c).isNone) then .next (s.endRun a) else .next s

end Sys2Proof.Machine
end

