-- ==== Sys2Proof/Machine/Place.lean ====
section
/-! DEFINITION. A task enters and leaves its slots: dispatch and restore (07 R217, R218, 01 R21, R22, R24, 04 R94, R134), the
end of a task (07 R202, 16 R390), pre-emption and yield (04 R132, R133, 16 R391), and the completion of engine entries (06
R181). -/

namespace Sys2Proof.Machine
open Sys2Proof

/-! Room on a core -/

/-- The lowest address at which `len` bytes fit in a space of `size` bytes beside the ranges in use (R217). -/
def lowestFit (size len : Nat) (used : List (Nat × Nat)) : Option Nat :=
  let ok (a : Nat) : Bool := a + len ≤ size && used.all (fun (u : Nat × Nat) => u.2 = 0 || a + len ≤ u.1 || u.1 + u.2 ≤ a)
  let l := (0 :: used.map (fun (u : Nat × Nat) => u.1 + u.2)).filter ok
  match l with | [] => none | a :: t => some (t.foldl min a)

/-- The allocations of a core that are in use: of tasks, of draining rings, and of ended members of gangs (R202, R218). -/
def State.allocs (s : State) (core : Nat) : List Alloc :=
  (List.range 4).flatMap (fun k =>
    let sl := s.slot (4 * core + k)
    (if sl.task.isSome then [sl.alloc] else []) ++ (sl.drain.map (·.alloc)).toList)
    ++ (s.core core).reserved.map (fun (e : Nat × Alloc) => e.2)

def regUse (l : List Alloc) : List (Nat × Nat) := l.map (fun a => (a.regBase, a.regLen))
def spUse (l : List Alloc) : List (Nat × Nat) := l.flatMap (fun a => [(a.spBase, a.spLen), (a.sbBase, a.sbLen)])

/-- The sizes a member needs: register space, scratchpad, store buffer (R204). -/
def TNode.need (n : TNode) : Nat × Nat × Nat := (n.regs, n.sp, n.sb)

/-- Allocations for a task's members, in order, each at the lowest address that fits (R151, R217). -/
def placeAll : List Alloc → List (Nat × Nat × Nat) → Option (List Alloc)
  | _, [] => some []
  | l, (r, p, b) :: t =>
    match lowestFit (2 ^ 18) r (regUse l), lowestFit (3 * 2 ^ 19) p (spUse l) with
    | some rb, some pb =>
      match lowestFit (3 * 2 ^ 19) b ((pb, p) :: spUse l) with
      | some bb =>
        let a : Alloc := ⟨rb, r, pb, p, if b = 0 then 0 else bb, b⟩
        (placeAll (a :: l) t).map (a :: ·)
      | none => none
    | _, _ => none

/-- The slots of a core that can take a task (R217). -/
def State.freeSlots (s : State) (core : Nat) : List Nat :=
  if (s.core core).stopped.isSome || (s.core core).raised.isSome then []
  else ((List.range 4).map (4 * core + ·)).filter (fun u => (s.slot u).task.isNone)

/-- The members of a saved or aborted task that have not ended, with what each kept. -/
def State.away (s : State) (t : Task) : List (Nat × Slot) :=
  (List.range 4).filterMap (fun m => (s.hidden.find? (fun e => e.1 == hiddenKey t m)).map (fun e => (m, e.2)))

/-- A core can take a task's members (R217, R24): enough free slots and room; the function it serves (R463); for a task
that returns, the place it is bound to, its matrix claim and its operand queues free (DEDUCED: log entry 30). -/
def State.roomOn (s : State) (t : Task) (needs : List (Nat × Nat × Nat)) (core : Nat) : Option (List Nat × List Alloc) :=
  let c := s.core core
  let us := (s.freeSlots core).take needs.length
  let kept := if t.phase = 2 then (s.away t).map (·.2) else []
  let bound := t.home = 0 || t.home = dieOf core + 1 || t.home = 8 + core
  let claim := c.claim.isNone || kept.all (fun sl => sl.kept.isNone)
  let oqs := kept.all (fun sl => sl.keptOqs.all (fun (q : Nat × OQ) => (s.oq core q.1).bound.isNone))
  if us.length = needs.length && c.pmowner = s.fnOf t.ctx && bound && claim && oqs then
    (placeAll (s.allocs core) needs).map (fun l => (us, l))
  else none

/-- The lowest-numbered core of a die that can take them. -/
def State.findRoom (s : State) (t : Task) (needs : List (Nat × Nat × Nat)) (die : Nat) : Option (List Nat × List Alloc) :=
  (List.range 32).findSome? (fun k => s.roomOn t needs (32 * die + k))

/-! The best head of a die -/

/-- A queued task may be dispatched: its run is not HELD (R216), and every cause that saved it has released it (R30). -/
def State.ready (s : State) (t : Task) : Bool :=
  t.holds.isEmpty && (match s.run? t.run with | some r => r.state ≠ 4 | none => true)

/-- The die a task must stay on, plus one; 0 for any. -/
def Task.homeDie (t : Task) : Nat := if t.home < 8 then t.home else (t.home - 8) / 32 + 1

/-- The heads a die's dispatcher sees, as segment, place and task: of its 16 segments, and of the others the tasks that must
return to it (R22, R132). -/
def State.headsOf (s : State) (die : Nat) : List (Nat × Nat × Task) :=
  (List.range 64).filterMap (fun k =>
    let mine (t : Task) : Bool := if k / 16 = die then t.homeDie = 0 || t.homeDie = die + 1 else t.homeDie = die + 1
    (((s.seg k).zip (List.range (s.seg k).length)).find? (fun e => s.ready e.1 && mine e.1)).map (fun e => (k, e.2, e.1)))

/-- One head goes before another: level and key (R22, R212), then round-robin by context, then sequence number. -/
def State.first (s : State) (rr : Nat) (a b : Task) : Bool :=
  let la := s.level a
  let lb := s.level b
  let ka := keyOrd a.key
  let kb := keyOrd b.key
  let turn (c : Nat) : Nat := (c + 256 - rr) % 256
  lb < la || (la = lb && (kb < ka || (ka = kb &&
    (if a.ctx = b.ctx then seqLower a.seq b.seq else turn a.ctx < turn b.ctx))))

/-- The best head of a die. -/
def State.bestOf (s : State) (die : Nat) : Option (Nat × Nat × Task) :=
  (s.headsOf die).foldl (fun (m : Option (Nat × Nat × Task)) x =>
    match m with
    | none => some x
    | some y => if s.first (Tbl.get 0 s.rrCtx die) x.2.2 y.2.2 then some x else m) none

/-! The end of a task -/

/-- A task has members in slots, or rings that drain, on a core. -/
def State.taskOn (s : State) (core : Nat) (t : Task) : Bool :=
  (List.range 4).any (fun k =>
    let sl := s.slot (4 * core + k)
    let is (x : Task) : Bool := x.ctx == t.ctx && x.seq == t.seq
    sl.task.any is || sl.drain.any (fun d => is d.task))

/-- A member of a task has ended on a core and its rings have drained: with the last of them the allocations are released and
the task no longer counts as live (R202, R208, R218). -/
def State.memberGone (s : State) (core : Nat) (t : Task) : State :=
  if s.taskOn core t then s
  else
    let k := hiddenKey t 0 / 4
    let s := s.modCore core (fun c => { c with reserved := c.reserved.filter (fun (e : Nat × Alloc) => e.1 / 4 ≠ k) })
    { s with pipes := s.pipes.filter (fun e => e.1 / 4 ≠ k) }.taskGone t

/-- A task that holds no slot is gone, once no rings of an ended member drain anywhere (R202, R208). -/
def State.taskLeft (s : State) (t : Task) : State :=
  if (List.range 128).any (fun c => s.taskOn c t) then s
  else
    let k := hiddenKey t 0 / 4
    let s : State := { s with
      cores := s.cores.map (fun (e : Nat × CoreSt) =>
        (e.1, { e.2 with reserved := e.2.reserved.filter (fun (r : Nat × Alloc) => r.1 / 4 ≠ k) }))
      pipes := s.pipes.filter (fun e => e.1 / 4 ≠ k) }
    s.taskGone t

/-- What a waiting task keeps outside the slots is discarded: its save blocks go back to the pool (R396, R473). -/
def State.discardAway (s : State) (t : Task) : State :=
  let s := (s.away t).foldl (fun s e => if t.phase = 2 then s.giveBlock t.ctx e.2.block else s) s
  { s with hidden := s.hidden.filter (fun e => e.1 / 4 ≠ hiddenKey t 0 / 4) }

/-- What still drains of an ended task in a slot. -/
def Drain.live (d : Drain) : Bool := (List.range 4).any d.busy || d.sched.state = 1

/-- The draining rings of a slot are looked at after one of their entries completed (R202): the register space goes with the
last vector and matrix entry, the rest with the last entry. -/
def State.reap (s : State) (u : Nat) : State :=
  match (s.slot u).drain with
  | none => s
  | some d =>
    let core := coreOf u
    let s := s.claimDue core
    if d.live then
      if d.busy 0 || d.busy 1 then s
      else s.modSlot u (fun sl => { sl with drain := some { d with alloc := { d.alloc with regLen := 0 } } })
    else
      let t := d.task
      let alive := (List.range 4).any (fun k => (s.slot (4 * core + k)).task.any (fun x => x.ctx == t.ctx && x.seq == t.seq))
      let m := (d.gang.takeWhile (· ≠ u)).length
      let s := s.modSlot u (fun sl => { sl with drain := none })
      let s := if alive && t.gang then s.modCore core (fun c => { c with
          reserved := Tbl.put c.reserved (hiddenKey t m) { d.alloc with regLen := 0 } })
        else s
      let s := if (s.slot u).task.isNone then
          s.modCore core (fun c => { c with oqs := c.oqs.filter (fun (e : Nat × OQ) => e.2.bound != some u) })
        else s
      s.memberGone core t

/-- The rings of a slot that must drain before its task may leave it (R202): those its mask names, and every one, with the
schedule, while another ended task's rings drain in the slot. -/
def State.mayEnd (s : State) (u : Nat) : Bool :=
  let sl := s.slot u
  let quiet (e : Nat) : Bool := (sl.cring e).occ = 0 && !sl.eng.any (fun x => x.1 == e)
  (List.range 4).all (fun e => quiet e || !(bitOf sl.mask e || sl.drain.isSome))
    && !(sl.drain.isSome && sl.sched.state = 1)

/-- A task ends in its slot (R202, R390, R187, R351, R361): its region has drained. The join decrement goes out with the last
member of a gang. -/
def State.endTask (s : State) (u : Nat) : State :=
  let core := coreOf u
  let s := s.rcWriteBack core (fun _ => true)
  let t := (s.slot u).tk
  let last := (s.unitsOf u).length = 1
  let s := if last then
      (if s.fab.sentCounts.any (fun e => e.1 == t.ctx && e.2.1 == t.seq) then (s.closeInterval u 7 t).1 else s).cancelTask t
    else s
  let sl := s.slot u
  let t := sl.tk
  let s := if last then s.joinDec u t else s
  let d : Drain := {
    task := t, alloc := { sl.alloc with sbLen := 0 }, crings := sl.crings, rings := sl.rings, csr := sl.csr, eng := sl.eng
    sems := sl.sems, bars := sl.bars, tls := sl.tls, gang := sl.gang, sched := sl.sched, accIdx := sl.accIdx, pend := [] }
  let d := if d.busy 0 || d.busy 1 then d else { d with alloc := { d.alloc with regLen := 0 } }
  let m := s.member u
  let s := if d.live then s.modSlot u (fun x => { x with
      eng := [], drain := some { d with eng := d.eng.map (fun (e : Nat × InFlight) => (e.1, { e.2 with drain := true })) } })
    else if t.gang && !last then s.modCore core (fun c => { c with
      reserved := Tbl.put c.reserved (hiddenKey t m) { sl.alloc with sbLen := 0, regLen := 0 } })
    else s
  (s.vacate u).memberGone core t

/-- The requests a draining entry waits for name the draining ring from now on. -/
def Req.toDrain (u : Nat) : Req → Req
  | .toRes v _ j todo => if v = u then .toRes v true j todo else .toRes v false j todo
  | r => r

/-- A TDONE whose rings have drained ends its task; its signal is applied to a slot that no longer holds it, so it has no
effect (R35, R202). -/
def State.tryEnd (s : State) (u : Nat) : State :=
  if (s.slot u).hold = .tdone && s.mayEnd u then
    let own := s.ownTags u
    let s := { s with fab := { s.fab with reqs := s.fab.reqs.map (fun (e : Nat × Req) =>
      if own.contains e.1 then (e.1, e.2.toDrain u) else e) } }
    s.endTask u
  else s

/-! Putting a task in its slots -/

/-- A slot's registers at a first dispatch (R94): the arguments, the instance, and the control registers at reset but for
CORECTL. -/
def freshSlot (t : Task) (gang : List Nat) (al : Alloc) (m : Member) (args : List Nat) (corectl : BitVec 11) : Slot :=
  let g := (args.zip (List.range 8)).foldl (fun (g : Tbl Word) e => Tbl.set 0 g (e.2 + 1) (BitVec.ofNat 64 e.1)) []
  let sl : Slot := { Slot.reset with
    task := some t, node := m.node.num, gang := gang, alloc := al, csr := { Csrs.reset with corectl := corectl }
    g := Tbl.set 0 g 9 (BitVec.ofNat 64 t.inst) }
  { sl with region := ⟨0, m.image.auto, 0, sl.capture⟩ }

/-- A slot's registers when an aborted task starts its region again (R165): the captured live-ins; what the abort left as it
stood stays (R330; DEDUCED: log entry 31). -/
def againSlot (h : Slot) (t : Task) (gang : List Nat) (al : Alloc) : Slot :=
  let lv := h.region.live
  { h with
    task := some t, gang := gang, alloc := al, hold := .none, pc := h.region.pc, g := lv.g, preds := lv.preds, estage := lv.estage
    loops := lv.loops, pend := [], pfx := none, npc := none, latch := none, latchWord := 0, inHand := none, closing := false
    acks := [], faults := [], owed := [], opened := [], closed := [], sent := [], eng := [], engNext := [], accIdx := 0
    causes := [], bkpt := none, wm := [] }

/-- The rings are placed, and each engine's section is copied into its command ring, the rest of it zeroed (R190, R217).
`pk` is the key of the gang's pipes. -/
def State.layRings (s : State) (u pk : Nat) (m : Member) (pipes : Tbl Ring) : State :=
  let p := m.plan
  let al := (s.slot u).alloc
  let via := pipes.map (fun (e : Nat × Ring) => (e.1, ({ Ring.none with pipe := true, via := pk + 1 } : Ring)))
  let s := s.modSlot u (fun sl => { sl with crings := p.crings, tags := []
                                            rings := via.foldl (fun t e => Tbl.put t e.1 e.2) p.rings })
  p.crings.foldl (fun s (e : Nat × Ring) =>
    let ws := (nth ([], 0) m.image.sections e.1).1
    let bs := ws.flatMap (leBytes 8)
    s.modCore (coreOf u) (fun c => { c with
      scratch := c.scratch.store (al.spBase + 64 * e.2.base) (bs ++ zeros (8 * 2 ^ e.2.logn - bs.length)) })) s

/-- The image comes into force in a slot (R217): with the same image in the overlay the first word issues 32 clocks later,
else after the fetch, whose time is free (log entry 15). -/
def State.enterImage (s : State) (u : Nat) (old : Slot) (m : Member) : State :=
  let words := (m.image.words.zip (List.range 4096)).foldl (fun (t : Tbl Nat) e => Tbl.set 0 t e.2 e.1) []
  let same := old.image = m.node.img && old.seqLen = m.image.words.length && old.overlay == words
  let (k, s) := s.fresh
  s.modSlot u (fun sl => { sl with
    image := m.node.img, seqLen := m.image.words.length, mask := m.image.mask, overlay := words
    lastTime := old.lastTime, drain := old.drain, since := s.clock
    nextIssue := s.clock + (if same then 32 else 33 + Config.freeNat 8 k) })

/-- What every entry into a slot does to its core (R94, R100, R153, R187): the register-space allocation is invalid, no tag
names the slot, the scalar L1 is empty. -/
def State.clearFor (s : State) (u : Nat) : State :=
  let al := (s.slot u).alloc
  s.modCore (coreOf u) (fun c => { (c.regClear (granules al.regBase al.regLen)).l1Flush with
    tags := c.tags.filter (fun t => t.owner != u) })

/-- A receive slot of a task as its 640 bytes in the fabric save area hold it (R364): what the area does not name stays as it
was. -/
def RecvSlot.load (r : RecvSlot) (b : List Byte) : RecvSlot :=
  let n (o k : Nat) : Nat := dfld b o k
  { r with
    desc := b.take 64, status := n 64 1, got := n 68 4, units := n 88 512
    msg := r.msg.map (fun m => (n 74 1, m.2.1, n 76 4, n 80 4, n 84 1)) }

/-- A saved slot's share of its task's fabric state is read back (R342, R364): interval and send counts, receive slots, messages,
operand queues, and its access core's entry index. -/
def State.loadFabric (s : State) (u a : Nat) : State :=
  let core := coreOf u
  let t := (s.slot u).tk
  let w := s.dev a 8
  let nr := fld w 0 11
  let nm := fld w 11 7
  let qs := (s.slot u).keptOqs
  let counts := ((List.range 81).map (fun k => (t.ctx, t.seq, k, s.dev (a + 64 + 4 * k) 4))).filter (fun e => e.2.2.2 ≠ 0)
  let s : State := { s with fab := { s.fab with
    sentCounts := s.fab.sentCounts.filter (fun e => !(e.1 == t.ctx && e.2.1 == t.seq)) ++ counts } }
  let s := (List.range nr).foldl (fun s i =>
    let b := s.dram.bytes (a + 576 + 640 * i) 640
    let k := dfld b 72 2
    match s.recv t.ctx k with
    | some r => s.setRecv t.ctx k (r.load b)
    | none => s) s
  let b0 := a + 576 + 640 * nr
  let s := (List.range nm).foldl (fun s i =>
    let b := s.dram.bytes (b0 + 128 * i) 128
    match s.findMsg t.ctx t.seq (dfld b 72 8) with
    | some m => s.setMsg { m with desc := b.take 64, status := dfld b 64 1, sent := dfld b 68 4 }
    | none => s) s
  let b1 := b0 + 128 * nm
  let s := (qs.zip (List.range qs.length)).foldl (fun s e =>
    let b := b1 + 16392 * e.2
    let p := s.dev b 4
    let c := s.dev (b + 4) 4
    let n := min 64 ((p + 2 ^ 32 - c) % 2 ^ 32)
    s.setOq core e.1.1 { e.1.2 with
      bound := some u, prod := p, cons := c
      entries := (List.range n).map (fun i => s.dram.bytes (b + 8 + 256 * ((c + i) % 64)) 256), flight := [] }) s
  s.modSlot u (fun sl => { sl with accIdx := fld w 42 8, keptOqs := [] }.modTask (fun t => { t with
    interval := fld w 26 16, ivTime := s.dev (a + 8) 4 }))

/-- A member of a saved task is restored from its block (R134, R287, R363). A WAITI that was pending completes (R117); a
DPHASE waits again, unless its phase has ended in the meantime (R221). -/
def State.restoreMember (s : State) (u : Nat) (t : Task) (gang : List Nat) (al : Alloc) (h : Slot) (m : Member) : State :=
  let old := s.slot u
  let a := h.block
  let s := s.setSlot u { h with task := some t, gang := gang, alloc := al, engNext := [], causes := [], bkpt := none, block := 0, acks := [], sent := [] }
  let s := (s.enterImage u old m).clearFor u
  let s := s.loadSlot u a
  let s := if s.dev (a + 1792) 8 ≠ 0 then s.loadMatrix u (a + 2 ^ 21) else s
  let s := if s.dev (a + 1800) 8 ≠ 0 then s.loadFabric u (a + 3 * 2 ^ 20) else s
  let s := s.giveBlock t.ctx a
  match h.hold with
  | .waiti => s.modSlot u (fun sl => { sl with hold := .none })
  | .dphase 0 _ => s.unpark u 0 0
  | _ => s

/-- A task's members enter their slots (R217, R218, R134); their first words wait until the task's drained writes are
acknowledged (R187). -/
def State.enter (s : State) (t : Task) (ms : List (Nat × Member × Option Slot)) (us : List Nat) (als : List Alloc) (n : Nat)
    (run : Run) (args : List (List Nat)) : State :=
  let gang := if t.gang then (List.range n).map (fun j =>
      match ((ms.map (·.1)).zip us).find? (fun e => e.1 == j) with | some e => e.2 | none => 512 + j) else []
  let pipes := match ms with | (0, m, _) :: _ => m.plan.pipes | _ => []
  let pk := hiddenKey t 0
  let l := ms.zip (us.zip (als.zip args))
  let s := l.foldl (fun s e =>
    let (j, m, h) := e.1
    let u := e.2.1
    let al := e.2.2.1
    let old := s.slot u
    match h with
    | some h =>
      if t.phase = 2 then s.restoreMember u t gang al h m
      else
        let keep := h.rings.filter (fun (r : Nat × Ring) => r.2.via ≠ 0)
        let s := s.setSlot u (againSlot h t gang al)
        let s := (s.enterImage u old m).clearFor u
        let s := s.layRings u pk m []
        let s := s.modSlot u (fun sl => { sl with rings := keep.foldl (fun (r : Tbl Ring) e => Tbl.put r e.1 e.2) sl.rings })
        match keep with
        | e :: _ => if j = 0 then { s with pipes := Tbl.put s.pipes (e.2.via - 1) (al.spBase, m.plan.pipes) } else s
        | [] => s
    | none =>
      let s := s.setSlot u (freshSlot t gang al m e.2.2.2 run.corectl)
      let s := (s.enterImage u old m).clearFor u
      let s := if j = 0 && !pipes.isEmpty then { s with pipes := Tbl.put s.pipes pk (al.spBase, pipes) } else s
      s.layRings u pk m pipes) s
  let s : State := { s with hidden := s.hidden.filter (fun e => e.1 / 4 ≠ hiddenKey t 0 / 4) }
  let moved := l.filterMap (fun e => e.1.2.2.map (fun h => (nth t.left h.gang e.1.1, e.2.1)))
  let s := us.foldl (fun s u => (s.ivGo u).awaitAcks u t.acks) (s.resumeTask t moved)
  us.foldl State.tryEnd s

/-! Dispatch -/

/-- A malformed task is discarded as a cancelled one is (R206). -/
def State.badImage (s : State) (t : Task) : State :=
  let s := (s.discardAway t).cancelTask t
  let s := match s.run? t.run with | some r => s.setRecBit r.ctx r.record 4 true | none => s
  ((s.joinDec 512 t).taskLeft t).allout t.run

/-- The victims of the pre-empt right (R212): with no slot of the die free and no such claim pending there, the running task
of the lowest level below, of the lowest key, of the highest sequence number; for a gang, as many slots of its core as
the gang needs. -/
def State.claimSlots (s : State) (die : Nat) (t : Task) (n : Nat) : State :=
  let us := (List.range 128).map (128 * die + ·)
  let run := us.filter (fun u => (s.slot u).task.isSome && s.level (s.slot u).tk < s.level t)
  let worse (u v : Nat) : Bool :=
    let a := (s.slot u).tk
    let b := (s.slot v).tk
    let la := s.level a
    let lb := s.level b
    let ka := keyOrd a.key0
    let kb := keyOrd b.key0
    la < lb || (la = lb && (ka < kb || (ka = kb && a.ctx == b.ctx && seqLower b.seq a.seq)))
  let pick (l : List Nat) : Option Nat := l.foldl (fun (m : Option Nat) u =>
    match m with | none => some u | some v => if worse u v then some u else m) none
  if !bitOf (s.lq t.ctx t.queue) 3 || us.any (fun u => (s.slot u).task.isNone || (s.slot u).causes.contains 3) then s
  else match pick run with
    | none => s
    | some u =>
      let rest := (run.filter (fun v => coreOf v = coreOf u && v ≠ u)).take (n - 1)
      (u :: rest).foldl (fun s v => s.cause v 3) s

/-- The priority claim releases the tasks it took from a die's slots once no head of the die that holds the pre-empt right has a
level above theirs (R30, R212; DEDUCED: log entry 31). -/
def State.freeClaims (s : State) (die : Nat) : State :=
  let hs := (s.headsOf die).filter (fun x => bitOf (s.lq x.2.2.ctx x.2.2.queue) 3)
  s.release 3 (fun t => dieOf (coreOf t.left) = die && !hs.any (fun x => s.level t < s.level x.2.2))

/-- The head of a die leaves its queue for a slot, or is discarded, or parked with its image's tile; with no room it stays
(R206, R217, R21). -/
def State.dispatchAt (s : State) (die k i : Nat) (t : Task) : State :=
  let out (s : State) : State :=
    let s := s.slcLog k 3 (s.fnOf t.ctx) 4 (i < Tbl.get 0 s.resident k) 255 t.seq
    { s.dequeue k i with rrCtx := Tbl.set 0 s.rrCtx die ((t.ctx + 1) % 256) }
  let run := s.runFor t.ctx t.queue t.launch t.run
  match s.loadTask t run.tmpl with
  | .error .bad => (out s).badImage t
  | .error (.tile tid tile) =>
    let s := (out s).postTile t.ctx tid tile (128 * die)
    (s.modCtx t.ctx (fun c => { c with parked := c.parked ++ [(t, [(tid, tile)])] })).allout t.run
  | .ok all =>
    let kept := s.away t
    let ms := if t.phase = 0 then (List.range all.length).zip (all.map (fun m => (m, (none : Option Slot))))
      else kept.map (fun e => (e.1, nth default all e.1, some e.2))
    if !fitRings all then (out s).badImage t
    else match s.findRoom t (ms.map (fun e => e.2.1.node.need)) die with
      | none => s.claimSlots die t ms.length
      | some (us, als) =>
        let vals := ms.map (fun e => (List.range 8).map (argOf e.2.1.node run.window t.inst))
        let t := { t with key0 := t.key, home := 0 }
        let args := vals.map (fun l => l.map (fun v => match v with | .ok x => x | .error _ => 0))
        let s := ((out s).enter t ms us als all.length run args).allout t.run
        match (vals.zip us).findSome? (fun e => e.1.findSome? (fun v => match v with | .error x => some (e.2, x) | .ok _ => none)) with
        | some (u, va) => if t.phase = 0 then s.coreStop u .seq ⟨cPERM, pARGRANGE, va⟩ 0 false else s
        | none => s

/-- The best head of a die is dispatched when it is (not) a saved task (R217). -/
def State.dispatchBest (s : State) (die : Nat) (saved : Bool) : State :=
  let s := s.freeClaims die
  if !s.dieUp die then s
  else match s.bestOf die with
    | some (k, i, t) => if (t.phase = 2 : Bool) = saved then s.dispatchAt die k i t else s
    | none => s

/-- DISPATCH_TASK (R217). -/
def execDispatchTask (s : State) : Out := .next (s.dispatchBest (s.occ.a % 4) false)

/-- RESTORE_SLOT (R134): the best head of the die is a task that was saved. -/
def execRestoreSlot (s : State) : Out := .next (s.dispatchBest (s.occ.a % 4) true)

/-- One task goes before another by level and key alone (R22, R212). -/
def State.outranks (s : State) (a b : Task) : Bool :=
  let la := s.level a
  let lb := s.level b
  lb < la || (la = lb && keyOrd b.key < keyOrd a.key)

/-- A die with a free slot steals one task from the die whose best head goes before every other's, when it goes before its own. Where
the owner takes that task in this clock, as it does when it has room for it, its dispatch stands, and the steal takes its next-best,
if that still goes before the thief's best (R22). DESIGN CHOICE (log entry 70): a die whose best head is bound to it (R132) is passed
over, and of owners whose best heads are equal the lowest-numbered is taken. -/
def State.steal (s : State) (die : Nat) : State :=
  let free := (List.range 32).any (fun k => !(s.freeSlots (32 * die + k)).isEmpty)
  let cand (s : State) (d : Nat) : Option (Nat × Nat × Task) := (s.bestOf d).bind (fun x => if x.2.2.homeDie = 0 then some x else none)
  let may (s : State) (t : Task) : Bool := match s.bestOf die with | some y => s.outranks t y.2.2 | none => true
  let best := (List.range 4).foldl (fun (m : Option (Nat × Nat × Nat × Task)) d =>
    if d = die then m
    else match m, cand s d with
      | m, none => m
      | none, some x => some (d, x)
      | some y, some x => if s.outranks x.2.2 y.2.2.2 then some (d, x) else m) none
  match best with
  | some (d, k, i, t) =>
    if !free || !s.dieUp die || !may s t then s
    else
      let o := if s.dieUp d then s.dispatchAt d k i t else s
      if (o.seg k).any (fun x => x.ctx == t.ctx && x.seq == t.seq) then s.dispatchAt die k i t
      else match cand o d with
        | some (k, i, t) => if may o t then o.dispatchAt die k i t else o
        | none => o
  | none => s

/-- STEAL_EXCHANGE (R22): every 64 clocks. The dies steal one after another in ascending order: DESIGN CHOICE (log entry 70). -/
def execStealExchange (s : State) : Out :=
  if s.clock / 64 ≤ s.hub.stolen then .next s
  else
    let s := { s with hub := { s.hub with stolen := s.clock / 64 } }
    .next ((List.range 4).foldl State.steal s)

/-- TDONE (R202, R390): a closing word. It waits in the slot for the rings, or ends the task at once. -/
def execTdone (s : State) : Out :=
  let o := closingWord (fun s =>
      if s.me.pend.any (fun p => p.tag ≠ 0) then .error (.wait (s.clock + 1)) else .ok ())
    (fun s => return s.park s.cur.u .tdone true) s
  match o with
  | .next r => .next (r.tryEnd s.cur.u)
  | o => o

/-! The completion of an engine entry -/

/-- The word of an entry, decoded. -/
def InFlight.instr (e : Nat) (f : InFlight) : Option Instr :=
  match decode (Stream.ofNum (e + 1)) (f.words.headD 0) 0 with
  | .ok (_, i) => some i
  | .error _ => none

/-- A fired entry that waits for room on its own core goes on when there is room: MLEASE for the claim (R266), AQLD for the
stream before it (R343), XSEND for one of the 64 open messages (R357). Answers nothing while it still waits. -/
def State.roomFor (s : State) (u e : Nat) (f : InFlight) : M (Option State) :=
  let sl := s.view u f.drain
  let core := coreOf u
  match f.instr e with
  | some (.mlease x) =>
    return if (s.core core).claim.isNone then
      some (s.modCore core (fun c => { c with claim := some (Claim.fresh sl x.cls.toNat) }))
    else none
  | some (.aqld x) =>
    return if (s.oq core x.oq.toNat).left = 0 then
      some (s.aqStart u x.oq.toNat x.imm.toNat (AccDesc.parse f.desc))
    else none
  | some (.xsend x) =>
    let t := sl.tk
    if 64 ≤ (s.fab.sends.filter (fun m => m.ctx == t.ctx && m.seq == t.seq)).length then return none
    else return some (← msgOpen s u x.mid.toNat x.pc.toNat t f.desc)
  | _ => return some s

/-- A fired entry has all it waits for, or starts to wait for the answers to the interval it closes (R353). Answers
whether it completes. -/
def State.entryWaits (s : State) (u e : Nat) (f : InFlight) : M (State × Bool) :=
  if f.waits = [0] then do
    match ← s.roomFor u e f with
    | some s => return (s, true)
    | none => return (s, false)
  else if !(s.unanswered f).isEmpty || !s.acked f then return (s, false)
  else if f.fence then
    let (s, tags) := s.closeInterval u 4 (s.view u f.drain).tk
    let sl := s.view u f.drain
    let s := s.setView u f.drain { sl with eng := Tbl.put sl.eng e { f with waits := tags, fence := false } }
    return (s, tags.isEmpty)
  else return (s, true)

/-- A streaming entry moves one entry of a ring (R192): the ring is looked at again, and a fault found leaves what has moved
moved (R243). What the entry writes in the scratchpad stands there before the pointer passes it. -/
def State.streamStep (s : State) (u e : Nat) (f : InFlight) : M State :=
  match f.advances with
  | [] => .ok s
  | (n, isProd, k) :: rest => do
    let sl := s.view u f.drain
    let own := sl.owner u (Stream.ofNum (e + 1))
    let r := s.viewRing sl n
    need (r.logn ≠ 0 && ownOk (if isProd then r.prodown else r.consown) own && 1 ≤ (if isProd then r.room else r.occ)) cILLEGAL 11 0
    let here (w : Nat × List Byte) : Bool := 2 ^ 32 ≤ w.1
    let s := s.modCore (coreOf u) (fun c => (f.writes.filter here).foldl CoreSt.entryWrite c)
    let g := { f with
      writes := f.writes.filter (fun w => !here w)
      advances := rest ++ (if 2 ≤ k then [(n, isProd, k - 1)] else []) }
    let s := s.advance u f.drain n isProd 1 own
    let sl := s.view u f.drain
    return s.setView u f.drain { sl with eng := Tbl.put sl.eng e g }

/-- What waits for the entries of a slot goes on when one has completed: an ended task's rings, a TDONE, a task that a tile fault
aborts, a core stop (R129, R165, R202). -/
def State.afterEntry (s : State) (u : Nat) (drain : Bool) : State :=
  (((if drain then s.reap u else s).tryEnd u).tryLeave u).tryStop (coreOf u)

/-- ENGINE_ENTRY_COMPLETE (R181): a streaming entry first moves its ring entries, one a time (R192). No entry completes before its
latency has passed, nor before what it waits for has come. Then its effects are made; a trap among them stops the core; and
what waited for it goes on. -/
def execEngineEntryComplete (s : State) : Out :=
  let u := s.occ.a % 512
  let e := s.occ.b % 4
  let drain := bitOf s.occ.b 2
  if (s.core (coreOf u)).stopped.isSome || (drain && (s.slot u).drain.isNone) then .next s
  else match (s.view u drain).eng.find? (fun (x : Nat × InFlight) => x.1 == e) with
    | none => .next s
    | some (_, f) =>
      let s := { s with cur := { s.cur with u := u, strm := Stream.ofNum (e + 1), word := f.words.headD 0, drain := drain } }
      if f.chosen then .next s
      else if f.stream && !f.advances.isEmpty then
        let s := { s with clock := max s.clock (f.clock + f.delay) }
        match s.streamStep u e f with
        | .error x => exitEng (s.unfire u e drain) x
        | .ok s => .next s
      else
        let s := { s with clock := max s.clock (f.clock + f.delay + f.lat) }
        match s.entryWaits u e f with
        | .error x => exitEng (s.unfire u e drain) x
        | .ok (s, false) => .next s
        | .ok (s, true) =>
          let (s, trap) := s.completeEntry u e f
          match trap with
          | some t => .next (s.coreStop u (Stream.ofNum (e + 1)) t (f.words.headD 0) drain)
          | none => .next (s.afterEntry u drain)

end Sys2Proof.Machine
end

