-- ==== Sys2Proof/Machine/Trace.lean ====
section
/-! DEFINITION. The trace and counter words and their hardware steps (20 R457 to R468). -/

namespace Sys2Proof.Machine
open Sys2Proof

/-- The loop tag of the slot's next word (R453). -/
def Slot.loopTag (sl : Slot) : LoopTag :=
  match sl.loops with
  | l :: _ =>
    if l.inside sl.pc && !sl.csr.uiact then ⟨l.id, l.j, if l.piped then l.stage sl.pc else 0, sl.estage.toNat, sl.loops.length⟩
    else { LoopTag.none with depth := sl.loops.length }
  | [] => LoopTag.none

/-- TRMARK (R462). -/
def execTrmark (f : SI) (s : State) : Out :=
  seqWord (fun s => do
    let a ← rdG s f.ra
    let sl := s.me
    let u := s.cur.u
    if sl.csr.trcfg.getLsbD 0 then
      return s.trace (coreOf u) sl.ctx
        (traceBytes 1 1 (coreOf u) (u % 4) 0 sl.tk.seq s.devTime sl.loopTag f.imm.toNat (wordBytes 8 a))
    else return s) s

/-- BCMSNAP (R457). -/
def execBcmsnap (s : State) : Out :=
  seqWord (fun s => return s.snapRecord s.cur.u 3 s.me.loopTag 0) s

/-! Counters -/

/-- A counter select (R464): counter, unit, group; it must name a counter that exists. -/
structure CtrSel where
  k : Nat
  unit : Nat
  group : Nat
  deriving DecidableEq, Repr, Inhabited

def CtrSel.of (a : Word) : CtrSel := ⟨fld a.toNat 0 3, fld a.toNat 8 8, fld a.toNat 16 2⟩

def ctrSelOk (a : Word) : Bool :=
  let n := a.toNat
  let c := CtrSel.of a
  fld n 3 5 = 0 && n / 2 ^ 18 = 0 &&
    (match c.group with
     | 0 => c.unit = 0
     | 1 => c.unit < 64 && c.k < 4
     | 2 => c.unit < 128
     | _ => c.unit = 0)

/-- The event codes of a group (R465). -/
def eventOk (group ev : Nat) : Bool :=
  match group with
  | 0 => ev ≤ 0x0E
  | 1 => ev ≤ 0x07
  | _ => ev ≤ 0x08

/-- A program may configure or clear a slice counter of its own function, and a port counter from the physical function
only (R466). -/
def needCtr (s : State) (c : CtrSel) : M Unit :=
  let fn := s.fnOf s.myCtx
  match c.group with
  | 1 => need (Tbl.get 0 s.hub.slcowner c.unit % 16 = fn) cPERM pPRIV 0
  | 2 => need (fn = 0) cPERM pPRIV 0
  | _ => .ok ()

/-- The configuration of a counter, and the state with it changed. -/
def State.ctrCfg (s : State) (c : CtrSel) : Nat :=
  match c.group with
  | 0 => Tbl.get 0 s.myCore.cfgs c.k
  | 1 => Tbl.get 0 s.hub.slccfg (4 * c.unit + c.k)
  | 2 => Tbl.get 0 s.hub.portcfg (8 * c.unit + c.k)
  | _ => 0

def State.setCtrCfg (s : State) (c : CtrSel) (v : Nat) : State :=
  match c.group with
  | 0 => s.modMyCore (fun x => { x with cfgs := Tbl.set 0 x.cfgs c.k v })
  | 1 => { s with hub := { s.hub with slccfg := Tbl.set 0 s.hub.slccfg (4 * c.unit + c.k) v } }
  | 2 => { s with hub := { s.hub with portcfg := Tbl.set 0 s.hub.portcfg (8 * c.unit + c.k) v } }
  | _ => s

/-- The value of a counter as a program reads it (R464). -/
def State.ctrVal (s : State) (c : CtrSel) : Nat :=
  let fn := s.fnOf s.myCtx
  let core := coreOf s.cur.u
  match c.group with
  | 0 => Tbl.get 0 s.myCore.ctrs c.k
  | 1 => if Tbl.get 0 s.hub.slcowner c.unit % 16 = fn then Tbl.get 0 s.hub.slcctr (4 * c.unit + c.k) else 0
  | 2 => if fn = 0 then Tbl.get 0 s.hub.portctr (8 * c.unit + c.k) else 0
  | _ =>
    match c.k with
    | 0 => Tbl.get 0 s.hub.fixedctr (fixedKey fn 0 core)
    | 1 => Tbl.get 0 s.hub.fixedctr (fixedKey fn 1 (dieOf core))
    | 2 => Tbl.get 0 s.stale (4 * fn + dieOf core)
    | 3 => Tbl.get 0 s.dead (4 * fn + dieOf core)
    | 4 => Tbl.get 0 s.hub.fixedctr (fixedKey fn 4 core)
    | _ => 0

/-- The place of a counter in its group. -/
def State.ctrIdx (s : State) (c : CtrSel) : Nat :=
  match c.group with
  | 0 => 8 * coreOf s.cur.u + c.k
  | 1 => 4 * c.unit + c.k
  | _ => 8 * c.unit + c.k

/-- A clear of the value loses an overflow of its clock: OVFLOST is set for it, OVF stands as before, and the interrupt is not
raised (R467). -/
def State.loseOverflow (s : State) (c : CtrSel) : State :=
  match s.hub.ovfs.find? (fun o => o.group == c.group && o.idx == s.ctrIdx c && o.clock == s.clock) with
  | none => s
  | some o =>
    let s := s.setCtrCfg c (setFld (setFld (s.ctrCfg c) 14 1 (b2n o.was)) 15 1 1)
    let h := s.hub
    { s with hub := { h with
      ovfs := h.ovfs.erase o
      msix := match o.fn with
        | some f => (h.msix.reverse.erase (f, Tbl.get 0 h.pmvec f)).reverse
        | none => h.msix } }

/-- The clear of a counter: V its value, S its sticky bits behind the clock's setting of them (R466, R467; log entry 77). -/
def State.ctrClear (s : State) (c : CtrSel) (v st : Bool) : State :=
  let s := if v then s.loseOverflow c else s
  let s := if st then s.setCtrCfg c (s.ctrCfg c % 2 ^ 14) else s
  if v then
    match c.group with
    | 0 => s.modMyCore (fun x => { x with ctrs := Tbl.set 0 x.ctrs c.k 0 })
    | 1 => { s with hub := { s.hub with slcctr := Tbl.set 0 s.hub.slcctr (4 * c.unit + c.k) 0 } }
    | 2 => { s with hub := { s.hub with portctr := Tbl.set 0 s.hub.portctr (8 * c.unit + c.k) 0 } }
    | _ =>
      let fn := s.fnOf s.myCtx
      let core := coreOf s.cur.u
      let k := fixedKey fn c.k (if c.k = 1 then dieOf core else core)
      if c.k = 2 then { s with stale := Tbl.set 0 s.stale (4 * fn + dieOf core) 0 }
      else if c.k = 3 then { s with dead := Tbl.set 0 s.dead (4 * fn + dieOf core) 0 }
      else { s with hub := { s.hub with fixedctr := Tbl.set 0 s.hub.fixedctr k 0 } }
  else s

/-- Codes of events that are clocks of waiting, occupancy or contention, whose number the manual does not fix (log entry
16): group 0, and the flits that a port sends. -/
def looseEvent (group ev : Nat) : Bool :=
  (group = 0 && [0x01, 0x08, 0x0A, 0x0E].contains ev) || (group = 2 && ev = 0x01)

/-- A counter that counts such events takes a free value (log entry 16). -/
def State.settleCtr (s : State) (c : CtrSel) : State :=
  let cfg := s.ctrCfg c
  if (bitOf cfg 8 && looseEvent c.group (fld cfg 0 8)) || (c.group = 3 && c.k = 1) then
    let (t, s) := s.fresh
    let v := Config.freeNat 9 t % 2 ^ 48
    match c.group with
    | 0 => s.modMyCore (fun x => { x with ctrs := Tbl.set 0 x.ctrs c.k v })
    | 2 => { s with hub := { s.hub with portctr := Tbl.set 0 s.hub.portctr (8 * c.unit + c.k) v } }
    | _ => { s with hub := { s.hub with
        fixedctr := Tbl.set 0 s.hub.fixedctr (fixedKey (s.fnOf s.myCtx) 1 (dieOf (coreOf s.cur.u))) v } }
  else s

/-- PMCFG (R466): the sticky bits and the value are kept; it takes effect from the next clock (R467). -/
def execPmcfg (f : S3) (s : State) : Out :=
  let b := s.me.greg f.rb.toNat
  let c := CtrSel.of (s.me.greg f.ra.toNat)
  seqWordAnd (fun s => do
      let a ← rdG s f.ra
      let _ ← rdG s f.rb
      need (ctrSelOk a && c.group ≠ 3 && b.toNat < 2 ^ 14 && eventOk c.group (b.toNat % 256)) cILLEGAL 3 0
      needCtr s c
      return s.settleCtr c)
    (fun t => t.setCtrCfg c (t.ctrCfg c / 2 ^ 14 * 2 ^ 14 + b.toNat)) s

/-- The clocks a counter's read takes (R466). -/
def ctrLat (group : Nat) : Nat := match group with | 1 => 30 | 2 => 200 | _ => 4

/-- PMRD (R466): funct[0] = 1 reads the configuration. -/
def execPmrd (f : S3) (s : State) : Out :=
  seqWord (fun s => do
    let a ← rdG s f.ra
    need (ctrSelOk a) cILLEGAL 3 0
    let c := CtrSel.of a
    let fn := s.fnOf s.myCtx
    let hidden := (c.group = 1 && Tbl.get 0 s.hub.slcowner c.unit % 16 ≠ fn) || (c.group = 2 && fn ≠ 0)
    let s := if hidden then s else s.settleCtr c
    let v := if f.funct.getLsbD 0 then (if hidden then 0 else s.ctrCfg c) else s.ctrVal c
    wrLocked s f.rd (BitVec.ofNat 64 v) (ctrLat c.group)) s

/-- The event of the word's own issue would wrap this counter: its clear loses that overflow (R467). -/
def State.issueWraps (s : State) (c : CtrSel) : Bool :=
  c.group = 0 && ctrOn (s.ctrCfg c) 0x02 (some (s.cur.u % 4)) && 2 ^ 48 ≤ s.ctrVal c + 1

/-- PMCLR (R466): what the clock counts comes first, and is lost to a clear of the value; an overflow that is lost sets OVFLOST,
and raises nothing (R467). -/
def execPmclr (f : S3) (s : State) : Out :=
  let c := CtrSel.of (s.me.greg f.ra.toNat)
  let v := f.funct.getLsbD 0
  let st := f.funct.getLsbD 1
  seqWordAnd (fun s => do
      let a ← rdG s f.ra
      need (ctrSelOk a) cILLEGAL 3 0
      needCtr s c
      let s := if v && s.issueWraps c then s.setCtrCfg c (setFld (s.ctrCfg c) 15 1 1) else s
      return if v then s.ctrClear c true false else s)
    (fun t => t.ctrClear c v st) s

/-- TRACE_SAMPLE (R460): a sampled slot that holds a task writes a SAMPLE record: its PC, and for each engine the tag of
its ring's head entry. -/
def execTraceSample (s : State) : Out :=
  let u := s.occ.a
  let sl := s.slot u
  let per := fld sl.csr.trcfg.toNat 8 5
  if sl.task.isSome && sl.csr.trcfg.getLsbD 3 && s.clock % 2 ^ (per + 10) = 0 then
    let heads := (List.range 4).flatMap (fun e =>
      leBytes 8 (if (sl.cring e).occ = 0 then 2 ^ 64 - 1
        else Tbl.get 0 sl.tags (e * 4096 + (sl.cring e).cons % 2 ^ (sl.cring e).logn)))
    .next (s.trace (coreOf u) sl.ctx
      (traceBytes 5 1 (coreOf u) (u % 4) 0 sl.tk.seq s.devTime sl.loopTag (sl.pc % 2 ^ 32) heads))
  else .next s

/-- CLOCK_EVENT_OVERFLOW (R467): a counter that counts clocks has counted them past its end; its value wraps, OVF is set
and with OVIE the owner's interrupt is raised. The clocks since the wrap are a free value (log entry 16). -/
def execClockEventOverflow (s : State) : Out :=
  let o := s.occ
  let (t, s) := s.fresh
  let v := Config.freeNat 9 t % 2 ^ 48
  match o.a with
  | 0 =>
    let c := s.core o.b
    let cfg := Tbl.get 0 c.cfgs (o.c % 8)
    if bitOf cfg 8 && looseEvent 0 (fld cfg 0 8) then
      let s := s.setCore o.b { c with ctrs := Tbl.set 0 c.ctrs (o.c % 8) v, cfgs := Tbl.set 0 c.cfgs (o.c % 8) (setFld cfg 14 1 1) }
      .next (if bitOf cfg 9 then s.pmIrq c.pmowner else s)
    else .next s
  | 2 =>
    let i := 8 * (o.b % 128) + o.c % 8
    let cfg := Tbl.get 0 s.hub.portcfg i
    if bitOf cfg 8 && looseEvent 2 (fld cfg 0 8) then
      let s := { s with hub := { s.hub with
        portctr := Tbl.set 0 s.hub.portctr i v, portcfg := Tbl.set 0 s.hub.portcfg i (setFld cfg 14 1 1) } }
      .next (if bitOf cfg 9 then s.pmIrq 0 else s)
    else .next s
  | _ => .next s

end Sys2Proof.Machine
end

