-- ==== Sys2Proof/Machine/Leave.lean ====
section
/-! DEFINITION. A task leaves its slots to come back: pre-emption for its causes (01 R29, R30, 04 R132, R133), TYIELD (16
R391), world switches (20 R463), and debug stops (20 R468). -/

namespace Sys2Proof.Machine
open Sys2Proof

/-- A save that cannot be made now, with the state as it goes on instead, if anything has changed. -/
abbrev Leave := Except (Option State)

/-- Every slot of a task that is being pre-empted hears of every cause (R30, R132). -/
def State.spreadCauses (s : State) (us : List Nat) : State :=
  let ks := us.flatMap (fun u => (s.slot u).causes)
  us.foldl (fun s u => s.modSlot u (fun sl => ks.foldl Slot.addCause sl)) s

/-- A slot stands where it can be saved (R29, R132): at a boundary, in no word that waits for an answer, its fired entries
completed. -/
def State.saveable (s : State) (u : Nat) : Bool :=
  let sl := s.slot u
  let held := match sl.hold with
    | .none | .waiti | .dphase _ _ | .tdone => true
    | _ => false
  held && sl.atBoundary && sl.eng.isEmpty && !sl.pend.any (fun p => p.tag ≠ 0)

/-- The region of a slot closes and drains (R164); behind a release at scope domain or system its entries drain one by one
first. -/
def State.settleRegion (s : State) (u : Nat) : Leave State :=
  let sl := s.slot u
  if s.slowDrain u then .error (if sl.opened.isEmpty then none else some (s.closeRegion u sl.recPc sl.region.auto))
  else
    let s := s.closeFor u
    match (s.slot u).latch with
    | some t => .error (some (s.coreStop u .seq t (s.slot u).latchWord false))
    | none => return s

/-- The record of a debug stop (R460, R468), and of a BKPT (R119): the causes, the code and the PC. -/
def State.stopRecord (s : State) (u causes : Nat) : State :=
  let sl := s.slot u
  if bitOf causes 0 && sl.csr.trcfg.getLsbD 2 then
    s.trace (coreOf u) sl.ctx (traceBytes 4 1 (coreOf u) (u % 4) 0 sl.tk.seq s.devTime sl.loopTag
      (causes + sl.bkpt.getD 0 % 2 ^ 24 * 2 ^ 8 + sl.pc % 2 ^ 32 * 2 ^ 32) [])
  else s

/-- One slot is saved in a block of its context's pool (R133, R364). -/
def State.saveIn (s : State) (u a causes : Nat) : State :=
  let s := (s.rcWriteBack (coreOf u) (fun _ => true)).stopRecord u causes
  let s := s.saveSlot u a causes
  let qs := (s.core (coreOf u)).oqs.filter (fun (e : Nat × OQ) => e.2.bound == some u)
  s.modSlot u (fun sl => { sl with block := a, keptOqs := qs, causes := [], bkpt := none })

/-- A task that yields is known by its new sequence number from here on: its messages and receive slots, its gang's pipes and
reserved places (R391; DEDUCED: log entry 31). -/
def State.reseq (s : State) (us : List Nat) (t : Task) (seq : Nat) : State :=
  let t' := { t with seq := seq }
  let k := hiddenKey t 0
  let k' := hiddenKey t' 0
  let via (r : Ring) : Ring := if r.via = k + 1 then { r with via := k' + 1 } else r
  let s := us.foldl (fun s u => s.modSlot u (fun sl =>
    { sl.modTask (fun x => { x with seq := seq }) with rings := sl.rings.map (fun (e : Nat × Ring) => (e.1, via e.2)) })) s
  let s := s.modCore (coreOf (us.headD 0)) (fun c => { c with
    reserved := c.reserved.map (fun (e : Nat × Alloc) => if e.1 / 4 = k / 4 then (k' + e.1 % 4, e.2) else e)
    claim := c.claim.map (fun cl => if cl.ctx = t.ctx && cl.seq = t.seq then { cl with seq := seq } else cl) })
  let s : State := match s.pipes.find? (fun e => e.1 == k) with
    | some (_, p) => { s with pipes := Tbl.put (Tbl.del s.pipes k) k' p }
    | none => s
  { s with fab := { s.fab with
    sends := s.fab.sends.map (fun m => if m.ctx == t.ctx && m.seq == t.seq then { m with seq := seq } else m)
    recvs := s.fab.recvs.map (fun (e : Nat × RecvSlot) =>
      if e.2.ctx == t.ctx && e.2.seq == t.seq then (e.1, { e.2 with seq := seq }) else e) } }

/-- A task is saved, all members of a gang together, and goes back to its segment, held by every cause (R29, R30, R132, R133). For a
yield the
open interval closes and the task takes a new number (R391). A full pool or queue is waited for. -/
def State.saveOut (s : State) (u : Nat) (yield : Bool) : Leave State := do
  let us := s.unitsOf u
  if !us.all s.saveable then .error none
  if us.any s.awaits then .error none
  let s := us.foldl (fun s v => s.modSlot v Slot.flush) s
  let s ← (us.filter (fun v => !(yield && v = u))).foldlM State.settleRegion s
  let t := (s.slot u).tk
  let (s, as_) ← us.foldlM (fun (x : State × List Nat) _ =>
    match x.1.takeBlock t.ctx with
    | some (k, s) => (.ok (s, x.2 ++ [s.saveBlock t.ctx k]) : Leave (State × List Nat))
    | none => .error none) (s, [])
  let ks := us.flatMap (fun v => (s.slot v).causes)
  let bits := ((List.range 4).map (fun k => if ks.contains k then 2 ^ k else 0)).sum
  let home := s.homeOf u
  let s := us.foldl State.ivStop s
  let s := if yield && s.fab.sentCounts.any (fun e => e.1 == t.ctx && e.2.1 == t.seq) then (s.closeInterval u 7 t).1 else s
  let s := s.suspendTask (s.slot u).tk
  let s := (us.zip as_).foldl (fun s e => s.saveIn e.1 e.2 bits) s
  let s := if yield then s.reseq us t ((s.ctx t.ctx).seqCtr + 1).toNat else s
  let t := (s.slot u).tk
  let acks := us.flatMap s.unackedFlows
  let s := us.foldl State.hide s
  let s := us.foldl State.vacate s
  match s.enqueue { t with
      phase := 2, key := t.key0, holds := [0, 1, 2, 3].filter ks.contains, home := home, left := u, acks := acks } yield with
  | some s => return s
  | none => .error none

/-- PREEMPT_SLOT (R29, R30, R132): a slot with a pending cause is stopped where it may be, and saved once under every
cause. -/
def execPreemptSlot (s : State) : Out :=
  let u := s.occ.a % 512
  if (s.slot u).task.isNone || (s.core (coreOf u)).stopped.isSome || (s.core (coreOf u)).raised.isSome then .next s
  else
    let us := s.unitsOf u
    let s := s.spreadCauses us
    let wait (s : State) : State := us.foldl (fun s v => s.modSlot v (fun sl => { sl with nextIssue := max sl.nextIssue (s.clock + 1) })) s
    if (s.slot u).causes.isEmpty then .next s
    else match s.saveOut u false with
      | .ok t => .next t
      | .error (some t) => .next (wait t)
      | .error none => .next (wait s)

/-- TYIELD (R391): a closing word; the task is saved past it. -/
def execTyield (s : State) : Out :=
  let u := s.cur.u
  let check (s : State) : M Unit := do
    need s.me.tk.yield cILLEGAL 3 0
    if s.me.pend.any (fun p => p.tag ≠ 0) then .error (.wait (s.clock + 1))
  match takeWait s u s.cur.ctl.wait >>= (fun t => check t >>= fun _ => closeAll t) with
  | .error e => exitSeq s e
  | .ok t =>
    match (t.slot u).latch with
    | some tr => .next (t.coreStop u .seq tr (t.slot u).latchWord false)
    | none =>
      match ((t.issued u).retire u s.cur t.me.pend true none).saveOut u true with
      | .ok r => .next r
      | .error _ =>
        let slow := (s.unitsOf u).filter (fun v => v ≠ u && s.slowDrain v && !(s.slot v).opened.isEmpty)
        exitSeq s (if slow.isEmpty then .wait (s.clock + 1)
          else .redo (fun s => slow.foldl (fun s v => s.closeRegion v (s.slot v).recPc (s.slot v).region.auto) s))

/-! Releases, debug stops, world switches -/


/-- DEBUG_STOP_REQUEST (R468): DBGCTL asks for a stop of a slot. -/
def execDebugStopRequest (s : State) : Out :=
  let u := s.occ.a % 512
  if (s.slot u).task.isSome then .next (s.cause u 0) else .next s

/-- DEBUG_STOP_RELEASE (R468): the task that a debug stop took from a slot is released; a stop not yet made is withdrawn
(log entry 31). -/
def execDebugStopRelease (s : State) : Out :=
  let u := s.occ.a % 512
  let mine (t : Task) : Bool := t.left = u || (s.away t).any (fun e => e.2.gang.contains u)
  .next ((s.uncause u 0).release 0 mine)

/-- Place of a core's counters in its function's counter save area: eight counters, their configurations, and the nine rows
of its matrix (R463; the layout is a DESIGN CHOICE: log entry 32). -/
def cntAddr (base core : Nat) : Nat := base + 1024 * core

/-- The counters of a core, their configurations and its matrix cells are saved for its owner. Counters of clocks and the
cells of bank conflicts take free values first (log entry 16). -/
def State.saveCounters (s : State) (core : Nat) : State :=
  let a := cntAddr (Tbl.get 0 s.hub.cntSave (s.core core).pmowner) core
  let s := (List.range 8).foldl (fun s k =>
    let c := s.core core
    let cfg := Tbl.get 0 c.cfgs k
    if bitOf cfg 8 && looseEvent 0 (fld cfg 0 8) then
      let (t, s) := s.fresh
      s.setCore core { c with ctrs := Tbl.set 0 c.ctrs k (Config.freeNat 9 t % 2 ^ 48) }
    else s) s
  let (t, s) := s.fresh
  let c := s.core core
  let s := s.devFields a ((List.range 8).flatMap (fun k => [(8 * k, 8, Tbl.get 0 c.ctrs k), (64 + 8 * k, 8, Tbl.get 0 c.cfgs k)]))
  { s with dram := s.dram.store (a + 128) (c.bcmBytes t) }

/-- The counters of a function are loaded into a core, which it owns from now on. -/
def State.loadCounters (s : State) (core fn : Nat) : State :=
  let a := cntAddr (Tbl.get 0 s.hub.cntSave fn) core
  let tbl (l : List Nat) : Tbl Nat := ((List.range l.length).zip l).foldl (fun t e => Tbl.set 0 t e.1 e.2) []
  s.modCore core (fun c => { c with
    ctrs := tbl ((List.range 8).map (fun k => s.dev (a + 8 * k) 8 % 2 ^ 48))
    cfgs := tbl ((List.range 8).map (fun k => s.dev (a + 64 + 8 * k) 8 % 2 ^ 16))
    bcm := tbl ((List.range 144).map (fun k => s.dev (a + 128 + 4 * k) 4))
    pmowner := fn })

/-- WORLD_SWITCH (R29, R463): tasks of other functions on the core are pre-empted; once the core is empty its counters change
hands, and the tasks of the function it now serves that an earlier switch saved are released. -/
def execWorldSwitch (s : State) : Out :=
  let core := s.occ.a % 128
  let fn := s.occ.b % 16
  let c := s.core core
  let us := (List.range 4).map (4 * core + ·)
  let back (s : State) : State := s.release 1 (fun t => s.fnOf t.ctx = fn &&
    (t.home = 0 || t.home = dieOf core + 1 || t.home = 8 + core))
  if c.stopped.isSome || c.raised.isSome then .next s
  else if c.pmowner = fn then .next (back s)
  else if us.any (fun u => (s.slot u).task.isSome || (s.slot u).drain.isSome) then
    .next (us.foldl (fun s u => if (s.slot u).task.isSome then s.cause u 1 else s) s)
  else .next (back ((s.saveCounters core).loadCounters core fn))

end Sys2Proof.Machine
end

