-- ==== Sys2Proof/Machine/Launch.lean ====
section
/-! DEFINITION. The launch processor and the task queue's own hardware: segments, aging, launches, the time-triggered table
(07 R207 to R216, 16 R384), batches (16 R414 to R416), join decrements (16 R389) and the cancellation walker (16 R396). -/

namespace Sys2Proof.Machine
open Sys2Proof

/-! Segments -/

/-- SEGMENT_REFILL (R384): below 1536 resident entries, the best spilled ones come back until there are 1792. -/
def execSegmentRefill (s : State) : Out :=
  let k := s.occ.a % 64
  let l := s.seg k
  let r := Tbl.get 0 s.resident k
  let n := min 1792 l.length
  if r < 1536 && r < n then
    let s := ((l.take n).drop r).foldl (fun (s : State) (t : Task) =>
      (s.slcLog k 4 (s.fnOf t.ctx) 2 false 255 t.seq).count1 k 0x05 (s.fnOf t.ctx) 1) s
    .next { s with resident := Tbl.set 0 s.resident k n }
  else .next s

/-- A key after one tick of aging (R214). -/
def ageKey (key rate : Nat) : Nat :=
  let k := (fp32.rne (XR.add (fp32.dec key) (fp32.dec rate))).1
  if fpFinite k then k else 0x7F7FFFFF

/-- The queued tasks of launches that age are aged, and take their new places (R214). -/
def State.ageAll (s : State) : State :=
  let rs := s.runs.filter (fun r => r.aging % 2 ^ 31 ≠ 0)
  if rs.isEmpty then s
  else
    let age (t : Task) : Task := match rs.find? (fun r => r.id == t.run) with
      | some r => { t with key := ageKey t.key r.aging }
      | none => t
    { s with segs := s.segs.map (fun (e : Nat × List Task) => (e.1, (e.2.map age).foldl (fun l t => s.rankIn t l) [])) }

/-- AGING_TICK (R214): one microsecond of device time is made up for; a step back starts anew. -/
def execAgingTick (s : State) : Out :=
  let now := s.devTime / 1000
  if s.hub.aged < now then .next { s with hub := { s.hub with aged := s.hub.aged + 1 } }.ageAll
  else .next { s with hub := { s.hub with aged := now } }

/-! Launches -/

/-- A task that the launch processor or a join makes (R208, R389). -/
def State.newTask (s : State) (ctx queue launch run node aff inst key tree jt : Nat) : State :=
  let tmpl := (s.runFor ctx queue launch run).tmpl
  let gang := match s.tnode ctx tmpl node with | .ok n => n.ganged | .error _ => false
  let t : Task := { (default : Task) with
    node := node, gang := gang, aff := aff % 2 ^ 16, inst := inst % 2 ^ 32, key := key, key0 := key, tree := tree, jt := jt
    ctx := ctx, queue := queue, launch := launch, run := run }
  match (s.liveAdd run 1).enqueue t true with
  | some s => s
  | none => (s.liveAdd run 1).spawnDrop 512 t

/-- LIVE of a record's state word (R208). -/
def State.liveWord (s : State) (ctx i : Nat) : State :=
  s.setRecF ctx i 52 4 ((s.runs.filter (fun x => x.ctx == ctx && x.record == i)).map (·.live)).sum

/-- The tasks of a run in slots get a pre-emption cause (R216). -/
def State.causeRun (s : State) (run k : Nat) : State :=
  (s.slots.map (·.1)).foldl (fun s u =>
    if (s.slot u).task.any (fun t => t.run == run) then s.cause u k else s) s

/-- It is withdrawn where the task has not been saved yet (R216). -/
def State.uncauseRun (s : State) (run k : Nat) : State :=
  (s.slots.map (·.1)).foldl (fun s u =>
    if (s.slot u).task.any (fun t => t.run == run) then s.uncause u k else s) s

/-- The armed batch of a record whose launch has completed (R415): each row that has not sent its join decrement sends it, no row
counts as live any more, and the buffer is free. -/
def State.batchDone (s : State) (ctx ws i : Nat) : State :=
  let b := s.set ctx ws
  match b.armed.find? (fun w => w.record == i) with
  | none => s
  | some w =>
    let s := w.rows.foldl (fun (s : State) (r : Task × Bool × Bool) =>
      (if r.2.1 then s else s.joinDec 512 r.1).taskGone r.1) s
    ((s.modSet ctx ws (fun b => { b with armed := b.armed.erase w })).disown b ctx ws i).batchArm ctx ws

/-- A run has completed (R208, R216, R219): counts and times, a run set aside takes its place again, domains it set are left,
a batch's rows end, a waiting arm is made, and the completion action is raised. -/
def State.completeRun (s : State) (r : Run) : State :=
  let ctx := r.ctx
  let i := r.record
  let s := s.setRecF ctx i 56 8 (s.recF ctx i 56 8 + 1)
  let s := s.setRecF ctx i 64 8 s.devTime
  let s : State := { s with
    runs := s.runs.filter (fun x => x.id != r.id)
    cores := s.cores.map (fun (e : Nat × CoreSt) => (e.1, if e.2.level ≠ 0 && e.2.domRun = r.id then { e.2 with level := 0 } else e.2)) }
  let s := s.modCtx ctx (fun c => { c with
    running := Tbl.set [] c.running r.queue ((Tbl.get [] c.running r.queue).filter (· ≠ r.id)) })
  let s := if r.state = 4 then s
    else match s.runs.find? (fun x => x.ctx == ctx && x.record == i && x.state == 4) with
      | some h =>
        let s := (s.modRun h.id (fun x => { x with state := x.prior })).setRecState ctx i h.prior
        ((s.modCtx ctx (fun c => { c with running := Tbl.set [] c.running h.queue (h.id :: Tbl.get [] c.running h.queue)
                                          lastRun := Tbl.put c.lastRun h.queue h.id })).uncauseRun
          h.id 2).release 2 (fun t => t.run = h.id)
      | none => s.setRecState ctx i 0
  let s := s.liveWord ctx i
  let idle := s.recState ctx i = 0
  let s := if idle && s.recBit ctx i 3 then ((s.setRecBit ctx i 3 false).armRecord ctx i).1 else s
  let s := if s.recBit ctx i 6 then
      (s.ctx ctx).sets.foldl (fun s e => s.batchDone ctx e.1 i) s
    else s
  let act := s.recF ctx i 19 1
  let s : State := if bitOf act 0 then { s with hub := { s.hub with msix := s.hub.msix ++ [(s.fnOf ctx, s.recF ctx i 20 1 % 64)] } } else s
  if bitOf act 1 then { s with hub := { s.hub with dccIrq := s.hub.dccIrq ++ [(512 + i, ctx)] } } else s

/-- The head of a queue may start (R208, R211, R213): with OVL it may overlap the run started before it, when no earlier one still
runs. -/
def State.mayStart (s : State) (ctx q : Nat) : Option Nat :=
  match Tbl.get [] (s.ctx ctx).armed q with
  | [] => none
  | i :: _ =>
    let ok := match Tbl.get [] (s.ctx ctx).running q with
      | [] => true
      | [id] => bitOf (s.recF ctx i 18 1) 0 && Tbl.get id (s.ctx ctx).lastRun q = id
        && (match s.run? id with | some r => r.state = 3 | none => true)
      | _ => false
    if bitOf (s.lq ctx q) 4 && ok then some i else none

/-- A launch starts (R208): the window is latched and the root tasks are spawned in instance order. -/
def State.startRun (s : State) (ctx q i : Nat) : State :=
  let id := s.nextRun
  let f (o n : Nat) : Nat := s.recF ctx i o n
  let r : Run := s.runFrom ctx q i id
  let s := s.modCtx ctx (fun c => { c with
    armed := Tbl.set [] c.armed q ((Tbl.get [] c.armed q).drop 1)
    running := Tbl.set [] c.running q (Tbl.get [] c.running q ++ [id]), lastRun := Tbl.put c.lastRun q id })
  let s := (s.setRecState ctx i 2).setRecF ctx i 72 8 s.devTime
  let s : State := { s with runs := s.runs ++ [r], nextRun := id + 1 }
  let s := (List.range (f 4 4)).foldl (fun s k =>
    s.newTask ctx q i id (f 2 2 % 4096) (f 16 2 + k) (f 8 4 + k) (f 12 4) nullRef nullRef) s
  if f 4 4 = 0 then match s.run? id with | some r => s.completeRun r | none => s else s

/-- LAUNCH_START (R208). -/
def execLaunchStart (s : State) : Out :=
  let ctx := s.occ.a % 256
  let q := s.occ.b % 16
  match s.mayStart ctx q with
  | some i => .next (s.startRun ctx q i)
  | none => .next s

/-- LAUNCH_COMPLETE (R208): no task of the run is live, and no join decrement of it is on its way here, whose continuation
would be (DEDUCED: log entry 33). -/
def execLaunchComplete (s : State) : Out :=
  match s.runs.find? (fun r => r.ctx == s.occ.a % 256 && r.record == s.occ.b % 4096 && r.live == 0
      && !s.joins.any (fun j => j.run == r.id)) with
  | some r => .next (s.completeRun r)
  | none => .next s

/-! The time-triggered table -/

def State.tttF (s : State) (k off n : Nat) : Nat := Mem.num (Tbl.get [] s.hub.ttt k) off n
def State.setTttF (s : State) (k off n v : Nat) : State :=
  { s with hub := { s.hub with ttt := Tbl.set [] s.hub.ttt k (Mem.setNum (Tbl.get [] s.hub.ttt k) off n v) } }

/-- The outcome of a firing on a record (R216): the state and the outcome code. -/
def State.tttAct (s : State) (ctx i rule : Nat) : State × Nat :=
  let st := s.recState ctx i
  if s.recBit ctx i 6 then (s, 4)
  else if st = 0 then
    let (s, r) := s.armRecord ctx i
    (s, if r = 0 then 0 else 5)
  else if rule = 1 then (if s.recBit ctx i 3 then (s, 1) else (s.setRecBit ctx i 3 true, 2))
  else
    let mine (r : Run) : Bool := r.ctx == ctx && r.record == i
    match s.runs.find? (fun r => mine r && r.state ≠ 4) with
    | some r =>
      if rule = 2 && (st = 2 || st = 3) && !s.runs.any (fun r => mine r && r.state == 4) then
        if !s.recOk ctx i then (s.setRecBit ctx i 5 true, 5)
        else
          let s := (s.modRun r.id (fun x => { x with prior := x.state, state := 4 })).causeRun r.id 2
          let q := s.recF ctx i 1 1 % 16
          let s := s.modCtx ctx (fun c => { c with
            running := Tbl.set [] c.running r.queue ((Tbl.get [] c.running r.queue).filter (· ≠ r.id))
            armed := Tbl.set [] c.armed q (i :: Tbl.get [] c.armed q) })
          (s.setRecState ctx i 1, 3)
      else (s, 1)
    | none => (s, 1)

/-- TTT_FIRE (R215, R216): an enabled entry whose start time is reached. Outcomes 1, 4 and 5 arm nothing. -/
def execTttFire (s : State) : Out :=
  let k := s.occ.a % 256
  let f (o n : Nat) : Nat := s.tttF k o n
  let ctl := f 19 1
  let start := f 0 8
  let per := f 8 8
  let rule := fld ctl 1 2
  let now := s.devTime
  if !bitOf ctl 0 then .next s
  else if rule = 3 || (1 ≤ per && per < 1000) || 8 ≤ ctl || 4096 ≤ f 16 2 then
    .next ((s.setTttF k 19 1 (setFld ctl 0 1 0)).setTttF k 20 1 6)
  else if now < start then .next s
  else
    let late := if per = 0 then 0 else (now - start) / per
    let (s, out) := s.tttAct (f 18 1) (f 16 2) rule
    let miss := f 24 4 + late + b2n (out = 1 || out = 4 || out = 5)
    let s := ((s.setTttF k 20 1 out).setTttF k 24 4 (miss % 2 ^ 32)).setTttF k 28 4 ((f 28 4 + 1) % 2 ^ 32)
    .next (if per = 0 then s.setTttF k 19 1 (setFld ctl 0 1 0) else s.setTttF k 0 8 (start + (late + 1) * per))

/-! Batches -/

/-- BATCH_WINDOW_EXPIRE (R414): device time has reached the window's length after the first arrival. -/
def execBatchWindowExpire (s : State) : Out :=
  let ctx := s.occ.a % 256
  let ws := s.occ.b % 256
  let b := s.set ctx ws
  if !b.rows.isEmpty && b.since + b.window ≤ s.devTime then .next (s.batchForm ctx ws 1) else .next s

/-- BATCH_ARM (R414): a waiting batch arms once its record is IDLE and a buffer is free. -/
def execBatchArm (s : State) : Out := .next (s.batchArm (s.occ.a % 256) (s.occ.b % 256))

/-! Join decrements -/

/-- What a join decrement came to is told to the slot whose task sent it (R389). -/
def State.joinTold (s : State) (j : JoinDec) (st : Nat) : State :=
  if j.re.2 = 0 then s.report j.u { (default : Task) with ctx := j.ctx, seq := j.seq } st
  else s.send { s.pkt 0x31 j.re.1 j.ctx with aux := opJOINDEC, operand := BitVec.ofNat 64 st, tag := j.re.2 }

/-- A join decrement at its target (R389). -/
def State.joinAt (s : State) (j : JoinDec) : State :=
  let st := s.nodeSt j.ref
  let n := s.nf j.ref 40 2
  if st = stSTALE then (s.countSt j.ctx j.ref st).joinTold j stOK
  else if n = 0 then s.joinTold j stJOINUF
  else
    let s := (s.setNf j.ref 40 2 (n - 1)).joinTold j stOK
    if n ≠ 1 then s
    else
      let cont := s.nf j.ref 42 2 % 4096
      let par := s.nf j.ref 28 4
      let s := s.setNf j.ref 42 2 0xFFFF
      if st = stDEAD then
        s.joinDec j.u { (default : Task) with jt := par, ctx := j.ctx, launch := j.launch, run := j.run, seq := j.seq }
      else
        let q := ((s.run? j.run).map (·.queue)).getD (s.recF j.ctx j.launch 1 1 % 16)
        s.newTask j.ctx q j.launch j.run cont (j.ref % 2 ^ 16) j.ref 0x7F7FFFFF j.ref par

/-- JOIN_DECREMENT (R389): the oldest one under way reaches its target here, or goes to the target's package, which answers the
task that sent it. -/
def execJoinDecrement (s : State) : Out :=
  match s.joins with
  | [] => .next s
  | j :: rest =>
    let s := { s with joins := rest }
    if nPkg j.ref = s.fab.pkg then .next (s.joinAt j)
    else
      let (re, s) := s.askHeld j.u { (default : Task) with ctx := j.ctx, seq := j.seq }
      .next (s.nodeOp j.ctx opJOINDEC j.ref [j.launch, j.seq] re)

/-! The cancellation walker -/

/-- A waiting task is revoked (R396 step 3). -/
def State.recall (s : State) (t : Task) : State :=
  ((((s.discardAway t).cancelTask t).joinDec 512 t).taskLeft t).allout t.run

/-- Every queued or parked task of a node is revoked, but for those marked EXEMPT. -/
def State.recallNode (s : State) (x : Nat) : State :=
  let hit (t : Task) : Bool := t.tree == x && !t.exempt
  let q := s.segs.flatMap (fun (e : Nat × List Task) => ((e.2.zip (List.range e.2.length)).filter (fun p => hit p.1)).map
    (fun p => (e.1, p.1, decide (p.2 < Tbl.get 0 s.resident e.1))))
  let p := s.ctxs.flatMap (fun (e : Nat × Ctx) => (e.2.parked.filter (fun t => hit t.1)).map (·.1))
  let res := s.segs.foldl (fun r (e : Nat × List Task) =>
    let n := ((e.2.take (Tbl.get 0 s.resident e.1)).filter hit).length
    Tbl.set 0 r e.1 (Tbl.get 0 r e.1 - n)) s.resident
  let s : State := { s with
    segs := s.segs.map (fun (e : Nat × List Task) => (e.1, e.2.filter (fun t => !hit t)))
    resident := res
    ctxs := s.ctxs.map (fun (e : Nat × Ctx) => (e.1, { e.2 with parked := e.2.parked.filter (fun t => !hit t.1) })) }
  let s := q.foldl (fun (s : State) (e : Nat × Task × Bool) => s.slcLog e.1 5 (s.fnOf e.2.1.ctx) 3 e.2.2 255 e.2.1.seq) s
  (q.map (·.2.1) ++ p).foldl State.recall s

/-- The generation of a tensor advances (R89). -/
def State.genNext (s : State) (ctx tid : Nat) : State :=
  let a := s.ttbase ctx + 64 * tid + 50
  s.setDev a 2 ((s.dev a 2 + 1) % 2 ^ 16)

/-- Rows of a formed batch whose node is `x` are revoked (R416): which ones still were live, and the batch. -/
def Batch.revoke (b : Batch) (x : Nat) : List (Nat × Task × Bool) × Batch :=
  let l := (b.rows.zip (List.range b.rows.length)).filter (fun e => e.1.1.tree == x && e.1.2.2)
  (l.map (fun e => (e.2, e.1.1, e.1.2.1)),
   { b with rows := b.rows.map (fun r => if r.1.tree == x && r.2.2 then (r.1, true, false) else r) })

/-- The batch former lets a node's rows go (R416). -/
def State.unbatch (s : State) (ctx ws x : Nat) : State :=
  let b := s.set ctx ws
  let out := b.rows.filter (fun t => t.tree == x)
  let wait := b.waiting.map (fun w => w.revoke x)
  let arm := b.armed.map (fun w => (w.area + 8320 * w.buf, w.revoke x))
  let n := out.length + (wait.map (·.1.length)).sum + (arm.map (·.2.1.length)).sum
  if n = 0 then s
  else
    let s := s.modSet ctx ws (fun b => { b with
      rows := b.rows.filter (fun t => t.tree != x), waiting := wait.map (·.2), armed := arm.map (·.2.2)
      revoked := (b.revoked + n) % 2 ^ 32 })
    let s := out.foldl (fun (s : State) t => (s.joinDec 512 t).taskGone t) s
    let s := arm.foldl (fun s (e : Nat × List (Nat × Task × Bool) × Batch) =>
      e.2.1.foldl (fun s r =>
        let va := e.1 + 8256 + r.1 / 8
        let s := match s.hwAddr ctx va with
          | some a => s.setDev a 1 (setFld (s.dev a 1) (r.1 % 8) 1 0)
          | none => s
        s.genNext ctx (e.1 / 2 ^ 52)) s) s
    ((wait.flatMap (·.1)) ++ arm.flatMap (·.2.1)).foldl (fun s r => if r.2.2 then s else s.joinDec 512 r.2.1) s

/-- One node is cancelled (R396 steps 1 to 8). A node with children on other packages is freed once they have acknowledged. -/
def State.cancelNode (s : State) (w : Walk) (x : Nat) : State :=
  if s.nodeSt x ≠ stOK then s
  else
    let s := (s.setNflag x flDEAD true).setNflag x flLIVE false
    let s := s.recallNode x
    let s := (s.ctx w.ctx).sets.foldl (fun s e => s.unbatch w.ctx e.1 x) s
    let s := ((s.nodeRelease w.ctx x).setNf x 44 4 nullRef).setNf x 56 4 0
    let s : State := { s with slots := s.slots.map (fun (e : Nat × Slot) =>
      (e.1, e.2.modTask (fun t => if t.tree = x && !t.exempt then { t with cpend := true } else t))) }
    let s := State.walkKids w.ctx w.id x chainFuel s (s.nf x 32 4)
    if s.walkAsks w.id x then s.modWalk w.id (fun v => { v with late := v.late ++ [x] })
    else if s.nflag x flPIN then s else s.nodeFree w.ctx x

/-- A walk has visited every node and every package has acknowledged (R395, R396). A root that stays covers no walk any
more. -/
def State.walkEnd (s : State) (w : Walk) : State :=
  let s := if nPkg w.root = s.fab.pkg && s.nodeSt w.root ≠ stSTALE then s.setNflag w.root flCPEND false else s
  let s := w.sigs.foldl State.walkSig { s with walks := s.walks.filter (fun v => v.id != w.id) }
  w.replies.foldl (fun (s : State) (e : Nat × Nat × Option Nat) =>
    s.send { s.pkt 0x31 e.1 w.ctx with aux := opCANCEL, tag := e.2.1, payload := (e.2.2.map (leBytes 4)).getD [] }) s

/-- WALKER_VISIT_NODE (R396): the next node of a walk, breadth-first, or its end. -/
def execWalkerVisitNode (s : State) : Out :=
  match s.walks.find? (fun w => w.id == s.occ.a) with
  | none => .next s
  | some w =>
    match w.queue with
    | [] => if w.acks = 0 then .next (s.walkEnd w) else .next s
    | x :: rest =>
      let s := s.modWalk w.id (fun v => { v with queue := rest })
      if w.sub && x = w.root then
        let s := State.walkKids w.ctx w.id x chainFuel s (s.nf x 32 4)
        .next ((s.setNf x 32 4 nullRef).setNf x 26 2 0)
      else .next (s.cancelNode w x)

end Sys2Proof.Machine
end

