-- ==== Sys2Proof/Machine/Stops.lean ====
section
/-! DEFINITION. Faults and what follows them: held effects that drain, tile faults and their tiles' return (05 R160, R165),
core stops, the fault policy and its hook (04 R129 to R131, 07 R203, 17 R431, R432), watchdogs (13 R319, 21 R480), host
atomics (05 R145), and the ends of domain phases (07 R221). -/

namespace Sys2Proof.Machine
open Sys2Proof

/-! Tiles, and what a draining entry waits for -/

/-- The oldest entry of a slot's closed regions waits before it is performed (R175): for a host atomic under way on its bytes
(R145); as a release for the answers to the slot's node operations, and at scope domain or system for the acknowledgement of its
remote writes, with the narrower lines of the remote cache gone home first (R150, R176). Answers the state as it then goes on. -/
def State.drainWaits (s : State) (u : Nat) (h : Held) : Option State :=
  if s.hostBusy u h.eff.hostPs || (1 ≤ h.rel && s.heldFar u) then some s
  else if h.rel < 5 then none
  else if (s.core (coreOf u)).rcache.any (fun l =>
      !l.dirty.isEmpty && l.scope < h.rel - 1 && ((s.slot u).acks.isEmpty || l.unit == u)) then some (s.releaseBack u (h.rel - 1))
  else if s.unackedOf u || !s.ackedAll (s.slot u).acks then some s
  else none

/-- An entry of a core's closed regions may have to wait before it drains. -/
def State.slowOn (s : State) (core : Nat) : Bool :=
  (List.range 4).any (fun k => (s.slot (4 * core + k)).closed.any (s.slowEntry (4 * core + k)))

/-- Parked tasks that waited for a tile alone go back to their queues; with no room in one its tasks stay parked (R165). -/
def State.unpark1 (s : State) (ctx tid tile : Nat) (p : Task × List (Nat × Nat)) : State :=
  let left := p.2.filter (fun x => x != (tid, tile))
  if !p.2.contains (tid, tile) then s.modCtx ctx (fun c => { c with parked := c.parked ++ [p] })
  else if !left.isEmpty then s.modCtx ctx (fun c => { c with parked := c.parked ++ [(p.1, left)] })
  else match s.enqueue p.1 false with
    | some s => s
    | none => s.modCtx ctx (fun c => { c with parked := c.parked ++ [p] })

/-- TILE_RESIDENT_REQUEUE (R165, R339): the driver, or the DCC of the tile's home, has told the DCC that a tile is resident. The
DCCs of other packages whose accesses met it are told. -/
def execTileResidentRequeue (s : State) : Out :=
  let ctx := s.occ.a % 256
  let tid := s.occ.b
  let tile := s.occ.c
  let l := (s.ctx ctx).parked
  let s := s.modCtx ctx (fun c => { c with parked := [] })
  let s := l.foldl (fun s p => s.unpark1 ctx tid tile p) s
  let mine (n : Nat × Nat × Nat × Nat) : Bool := n.1 == ctx && n.2.1 == tid && n.2.2.1 == tile
  .next { s with fab := { s.fab with
    notices := s.fab.notices.filter (fun n => !mine n), told := s.fab.told ++ s.fab.notices.filter mine } }

/-! Core stops -/

/-- The word a stream of a slot stands at. -/
def State.wordAt (s : State) (u : Nat) (m : Stream) : Nat :=
  let sl := s.slot u
  match m with
  | .seq => Tbl.get 0 sl.overlay (sl.pc / 8)
  | m => (s.core (coreOf u)).scratch.num (sl.cmdAddr (engNum m) 0) 8

/-- CORE_STOP_FAULT (R129): a fault that the hardware finds by itself, such as a parity or memory error (R480), at the word a
stream of a slot stands at. -/
def execCoreStopFault (s : State) : Out :=
  let u := 4 * (s.occ.a % 128) + s.occ.b % 4
  let m := Stream.ofNum (s.occ.c % 5)
  let cause := s.occ.d % 256
  if (s.slot u).task.isSome && 1 ≤ cause && cause ≤ 14 then
    .next (s.coreStop u m ⟨cause, s.occ.d / 256 % 256, s.occ.w.toNat⟩ (s.wordAt u m) false)
  else .next s

/-- The tasks in a core's slots, each by its first slot. -/
def State.tasksOn (s : State) (core : Nat) : List Nat :=
  ((List.range 4).map (4 * core + ·)).filter (fun u =>
    (s.slot u).task.isSome && ((s.unitsOf u).filter (· < u)).isEmpty)

/-- The core runs again, its slots as they now are: the answers that came for it are taken, the scalar L1 is empty (R187). -/
def State.restart (s : State) (core : Nat) : State :=
  let s : State := { s with hub := { s.hub with hooks := s.hub.hooks.filter (fun h => h.1 != core) } }
  (s.modCore core (fun c => { c.l1Flush with stopped := none })).redeliver

/-- The entries of a draining ring are discarded (R203), with the answers they wait for. -/
def State.dropDrain (s : State) (u : Nat) : State :=
  match (s.slot u).drain with
  | none => s
  | some d =>
    let core := coreOf u
    let tags := d.eng.flatMap (fun (e : Nat × InFlight) => e.2.waits)
    let amps := (d.eng.map (fun (e : Nat × InFlight) => e.2.grant - 1)).sum
    let s := if amps = 0 then s else s.grantBack (dieOf core) amps
    let s := (s.hub.grants.filter (fun g => g.key == copyKey u true && g.issued)).foldl (fun s g => s.grantBack g.die g.amps) s
    let s : State := { s with hub := { s.hub with grants := s.hub.grants.filter (fun g => g.key != copyKey u true) } }
    let s : State := { s with fab := { s.fab with reqs := s.fab.reqs.filter (fun (e : Nat × Req) =>
      !(e.2.unit.isSome && tags.contains e.1)) } }
    let s := s.modSlot u (fun sl => { sl with drain := none })
    let s := if (s.slot u).task.isNone then s.modCore core (fun c => { c with
        oqs := c.oqs.filter (fun (e : Nat × OQ) => e.2.bound != some u) }) else s
    (s.claimDue core).memberGone core d.task

/-- Kill (R131, R203): the core's slots are freed; the entries of a faulting draining ring are discarded. -/
def State.killCore (s : State) (core : Nat) (st : Stop) : State :=
  let s := (s.tasksOn core).foldl (fun s u =>
    let t := (s.slot u).tk
    ((s.killTask u).taskLeft t).allout t.run) s
  (if st.drain then s.dropDrain st.slot else s).restart core

/-- Requeue (R131): every task of the core goes back to its queue. None while one of the queues has no room. -/
def State.requeueCore (s : State) (core : Nat) : Option State :=
  ((s.tasksOn core).foldlM State.requeueTask s).map (·.restart core)

/-- What is to become of the stopped core: a phase of `Stop`. -/
def State.setPhase (s : State) (core ph : Nat) : State :=
  s.modCore core (fun c => { c with stopped := c.stopped.map (fun st => { st with phase := ph }) })

/-- A stopped core whose tasks are to be killed or requeued, once no entry of its closed regions has to wait (R131, R165): none
has been requeued while one of the queues has no room. -/
def State.leaveStop (s : State) (core : Nat) : State :=
  match (s.core core).stopped with
  | none => s
  | some st =>
    if st.phase < 3 || s.slowOn core then s
    else if st.phase = 3 then s.killCore core st
    else (s.requeueCore core).getD (s.setPhase core 0)

/-- What the DCC does with a stopped core (R131, R203, R432): 0 kill, 1 resume, 2 requeue, 3 hold. A draining entry can only
be killed or held. Nothing ends a hold: DESIGN CHOICE, no rule names a step that does (log entry 72). -/
def State.dispose (s : State) (core act : Nat) : State :=
  match (s.core core).stopped with
  | none => s
  | some st =>
    let s : State := { s with hub := { s.hub with hooks := s.hub.hooks.filter (fun h => h.1 != core) } }
    if act = 3 then s.setPhase core 2
    else if st.drain then (s.setPhase core 3).leaveStop core
    else match act with
      | 1 => s.resume core
      | 2 => (s.setPhase core 4).leaveStop core
      | _ => (s.setPhase core 3).leaveStop core

/-- FAULT_POLICY_APPLY (R431): kill, requeue, call the user hook, or hold, by CTXFPOL. -/
def execFaultPolicyApply (s : State) : Out :=
  let core := s.occ.a % 128
  match (s.core core).stopped with
  | none => .next s
  | some st =>
    if st.phase ≠ 0 then .next s
    else match (s.ctx st.ctx).reg 0x70 8 % 4 with
      | 0 => .next (s.dispose core 0)
      | 1 => .next (s.dispose core 2)
      | 2 =>
        if (s.ctx st.ctx).reg 0x78 4 = 0 || st.drain then .next (s.dispose core 0)
        else
          .next ({ s with hub := { s.hub with hooks := (core, s.devTime, st.ctx) :: s.hub.hooks } }.setPhase core 1)
      | _ => .next (s.dispose core 3)

/-- The doublewords a hook wrote in the save records that the frame names (R432). -/
def State.hookWrites (s : State) (core : Nat) : List Nat → State
  | a :: v :: t =>
    let ok := (List.range 4).any (fun k =>
      let u := 4 * core + k
      let b := s.saveBlock (s.slot u).ctx u
      (s.slot u).task.isSome && b ≤ a && a + 8 ≤ b + 2 ^ 22)
    State.hookWrites (if ok then s.setDev a 8 v else s) core t
  | _ => s

/-- FAULT_HOOK_RETURN (R432): any other value is taken as KILL and counted. -/
def execFaultHookReturn (s : State) : Out :=
  let core := s.occ.a % 128
  match (s.core core).stopped with
  | none => .next s
  | some st =>
    if st.phase ≠ 1 then .next s
    else
      let s := State.hookWrites s core s.occ.nums
      .next (if s.occ.b ≤ 3 then s.dispose core s.occ.b else (s.bump 12).dispose core 0)

/-- FAULT_HOOK_TIMEOUT (R432): a hook that has run for more than 50 µs of device time is taken as KILL and counted. -/
def execFaultHookTimeout (s : State) : Out :=
  let core := s.occ.a % 128
  match (s.core core).stopped, s.hub.hooks.find? (fun h => h.1 == core) with
  | some st, some h =>
    if st.phase = 1 && h.2.1 + 50000 < s.devTime then .next ((s.bump 12).dispose core 0) else .next s
  | _, _ => .next s

/-! Regions and tiles -/

/-- HELD_EFFECT_DRAIN (R160): the oldest entry of a slot's closed regions is performed, once it waits for nothing (R175, R176). A
trap stops the core (R143). A stopped core drains nothing until it is decided that its tasks leave it (R131, R167). -/
def execHeldEffectDrain (s : State) : Out :=
  let u := s.occ.a % 512
  let core := coreOf u
  match (s.slot u).closed with
  | [] => .next s
  | h :: _ =>
    if (s.core core).stopped.any (fun st => st.phase < 3) then .next s
    else match s.drainWaits u h with
      | some s => .next s
      | none =>
        let old := (s.slot u).latch
        let s := s.drainOne u (s.slot u).tk
        let s := if (s.slot u).pend.any (fun p => p.tag = cinvTag) || h.rel < 5 then s else s.modSlot u (fun sl => { sl with acks := [] })
        match old, (s.slot u).latch with
        | none, some t => .next ((s.coreStop u .seq t (s.slot u).latchWord false).leaveStop core)
        | _, _ => .next ((s.tryLeave u).leaveStop core)

/-- TILE_FAULT_ABORT (R165). -/
def execTileFaultAbort (s : State) : Out :=
  let u := s.occ.a % 512
  if (s.slot u).task.isSome && (s.core (coreOf u)).stopped.isNone then .next (s.tileAbort u .seq s.occ.b s.occ.c) else .next s

/-! Watchdogs and host atomics -/

/-- ENGINE_WATCHDOG_EXPIRE (R480): an entry that has not completed within 50 ms, or that has waited so long on a watermark before
it fires (R319). It stays unfinished; a RATOM or RCAS goes on at the entry it had come to. -/
def execEngineWatchdogExpire (s : State) : Out :=
  let u := s.occ.a % 512
  let e := s.occ.b % 4
  let drain := bitOf s.occ.b 2
  let m := Stream.ofNum (e + 1)
  let trap : Trap := ⟨cWATCHDOG, e + 1, (s.view u drain).tk.seq * b2n drain⟩
  if (s.core (coreOf u)).stopped.isSome || (drain && (s.slot u).drain.isNone) then .next s
  else match (s.view u drain).eng.find? (fun (x : Nat × InFlight) => x.1 == e) with
    | none =>
      match (s.slot u).wm.find? (fun w => w.key = m.num + 8 * b2n drain) with
      | some w =>
        if s.clock < w.since + usClk 50000 then .next s
        else
          let word := (s.core (coreOf u)).scratch.num ((s.view u drain).cmdAddr e 0) 8
          .next ((s.modSlot u (fun sl => { sl with wm := sl.wm.filter (fun x => x.key ≠ w.key) })).coreStop u m trap word drain)
      | none => .next s
    | some (_, f) =>
      if s.clock < f.clock + usClk 50000 then .next s
      else
        let j := (f.waits.findSome? (fun t => match s.req t with | some (.toRes _ _ j _) => some j | _ => none)).getD (s.view u drain).accIdx
        let s : State := { s with fab := { s.fab with reqs := s.fab.reqs.filter (fun (x : Nat × Req) => !f.waits.contains x.1) } }
        let s := s.unfire u e drain
        let s := if e = 3 then s.setView u drain { s.view u drain with accIdx := j } else s
        .next (s.coreStop u m trap (f.words.headD 0) drain)

/-- WATERMARK_WATCHDOG (R319): a sequencer word has waited 50 ms on a watermark. -/
def execWatermarkWatchdog (s : State) : Out :=
  let u := s.occ.a % 512
  match (s.slot u).wm.find? (fun w => w.key = 0) with
  | none => .next s
  | some w =>
    if (s.slot u).task.isNone || s.clock < w.since + usClk 50000 || (s.core (coreOf u)).stopped.isSome then .next s
    else .next ((s.modSlot u (fun sl => { sl with wm := sl.wm.filter (fun x => x.key ≠ 0) })).coreStop u .seq ⟨cWATCHDOG, 0, 0⟩
      (s.wordAt u .seq) false)

/-- A fault that a held host atomic raises when it completes stops the core; of a core that is already stopped, once it runs
again. -/
def State.lateStop (s : State) (u : Nat) (t : Trap) (word : Nat) : State :=
  let s := s.modSlot u (fun sl => if sl.latch.isNone then { sl with latch := some t, latchWord := word } else sl)
  if (s.core (coreOf u)).stopped.isSome then s else s.coreStop u .seq t word false

/-- The oldest held atomic of a slot that the host has not answered. -/
def State.hostOldest (s : State) (u : Nat) : Option (Nat × Req) :=
  s.fab.reqs.find? (fun e => match e.2 with
    | .hostHeld v _ _ _ _ _ _ _ => v == u
    | _ => false)

/-- The host's answer to a held atomic (R143, R145). -/
def State.hostAnswer (s : State) (u tag : Nat) (r : Req) (ok : Bool) (old : Nat) : State :=
  let s : State := { s with fab := { s.fab with reqs := s.fab.reqs.filter (fun (e : Nat × Req) => e.1 != tag) } }
  match r with
  | .hostHeld _ word addr ctx seq on b ps =>
    let n := on / 16
    if ok then s.putPhys (coreOf u) true ps (leBytes n (atomOp (on % 16) n (old % 2 ^ (8 * n)) b).1)
    else if (s.slot u).task.any (fun x => x.ctx == ctx && x.seq == seq) then s.lateStop u ⟨cPERM, pSPACE, addr⟩ word
    else s
  | _ => s

/-- HOST_ATOMIC_COMPLETION (R143 to R145): the host has answered an AtomicOp, with the old value, or with an error, which is
PERM SPACE: the oldest of the slot's held ones, else the one that its word waits for. -/
def execHostAtomicCompletion (s : State) : Out :=
  let u := s.occ.a % 512
  let core := coreOf u
  match s.hostOldest u, (s.slot u).hold with
  | some (tag, r), _ => .next (s.hostAnswer u tag r s.occ.flag s.occ.w.toNat)
  | none, .hostAtomic rd n op b cmp ps va acq =>
    if (s.core core).stopped.isSome then .next s
    else if s.occ.flag then
      let old := s.occ.w.toNat % 2 ^ (8 * n)
      let new := match cmp with
        | some c => if old = c.toNat % 2 ^ (8 * n) then b.toNat % 2 ^ (8 * n) else old
        | none => (atomOp op n old (b.toNat % 2 ^ (8 * n))).1
      let s := s.putPhys core true ps (leBytes n new)
      let s := if 0 < acq then s.modCore core (fun c => c.acquire (acq - 1)) else s
      .next (s.unpark u rd (BitVec.ofNat 64 old))
    else
      let w := ((s.slot u).inHand.map (·.word)).getD 0
      .next ((s.modSlot u (fun sl => { sl with hold := .none, inHand := none })).coreStop u .seq ⟨cPERM, pSPACE, va⟩ w false)
  | none, _ => .next s

/-! Domain phases -/

/-- The arrivals of a domain pass a level, and its phase bit toggles (R221). -/
def State.phasePass (s : State) (k : Nat) (ms : List Nat) : State :=
  ms.foldl (fun s c => s.modCore c (fun x => { x with
    phase := x.phase ^^^ (1#3 <<< (k - 2)), fenced := false
    arrive := x.arrive.map (fun a => if a.2.contains k then a else (a.1, k :: a.2)) })) s

/-- The domains of a lower level that end with an ending one: those that lie in it, when an arrival of theirs has not passed that
level (R19, R221). -/
def State.nested (s : State) (j : Nat) (ms : List Nat) : List (List Nat) :=
  (ms.filter (fun c => j ≤ (s.core c).level)).filterMap (fun c =>
    let d := s.domain j c (s.core c).domid
    if d.head? = some c && d.all ms.contains && d.any (fun x => (s.core x).standsAt j) then some d else none)

/-- The domains whose phases end together, with their levels (R221). -/
def State.endsWith (s : State) (k : Nat) (ms : List Nat) : List (Nat × List Nat) :=
  (k, ms) :: ((if 4 ≤ k then (s.nested 3 ms).map (fun d => (3, d)) else [])
    ++ (if 3 ≤ k then (s.nested 2 ms).map (fun d => (2, d)) else []))

/-- A core whose arrival has passed every level completes its DPHASE words (R221). -/
def State.arrived (s : State) (c : Nat) : State :=
  match (s.core c).arrive with
  | none => s
  | some (L, passed) =>
    if (List.range (L - 1)).all (fun i => passed.contains (i + 2)) then
      let mine (h : Hold) : Bool := match h with
        | .dphase _ x => x == c
        | _ => false
      let s := s.modCore c (fun x => { x.acquire 4 with arrive := none })
      let s : State := { s with hidden := s.hidden.map (fun (e : Nat × Slot) =>
        (e.1, if mine e.2.hold then { e.2 with hold := .dphase 0 c } else e.2)) }
      ((s.slots.filter (fun (e : Nat × Slot) => mine e.2.hold)).map (·.1)).foldl (fun s u =>
        (s.modCore (coreOf u) (fun x => x.acquire 4)).unpark u 0 0) s
    else s

/-- The tasks that have run on a core: those in its slots, and those that were saved from it or aborted there, each with a slot of
its own. -/
def State.tasksOf (s : State) (core : Nat) : List (Nat × Task) :=
  (s.tasksOn core).map (fun u => (u, (s.slot u).tk))
    ++ ((s.segs.flatMap (fun (e : Nat × List Task) => e.2) ++ s.ctxs.flatMap (fun (e : Nat × Ctx) => e.2.parked.map (·.1))).filter
      (fun t => t.phase ≠ 0 && coreOf t.left = core)).map (fun t => (t.left, t))

/-- A task's interval closes wherever the task is: its number moves on (R351). -/
def State.closeTask (s : State) (u : Nat) (t : Task) : State :=
  if (s.slot u).task.any (fun x => x.ctx == t.ctx && x.seq == t.seq) then (s.closeInterval u 0 t).1
  else
    let next (x : Task) : Task := if x.ctx == t.ctx && x.seq == t.seq then
        { x with interval := (x.interval + 1) % 2 ^ 16, ivTime := 0 } else x
    let s := (s.closeCounts u 0 t).1
    let s := (s.away t).foldl (fun s e => if t.phase = 2 then s.savedClose e.2.block (next t).interval else s) s
    { s with
      segs := s.segs.map (fun (e : Nat × List Task) => (e.1, e.2.map next))
      ctxs := s.ctxs.map (fun (e : Nat × Ctx) => (e.1, { e.2 with parked := e.2.parked.map (fun p => (next p.1, p.2)) })) }

/-- The tasks of these cores close their intervals at the end of a communication phase, once (R185, R351). Answers whether
every answer is there. -/
def State.phaseFence (s : State) (ms : List Nat) : State × Bool :=
  let s := (ms.filter (fun c => !(s.core c).fenced)).foldl (fun s c =>
    ((s.tasksOf c).foldl (fun s x => s.closeTask x.1 x.2) s).modCore c (fun x => { x with fenced := true })) s
  (s, !s.fab.reqs.any (fun e => match e.2 with
    | .fence u strm _ _ _ _ => strm = 0 && ms.contains (coreOf u)
    | _ => false))

/-- DOMAIN_PHASE_END (R221): a domain ends its phase when every member's arrival stands at its level; at level 4 the other
packages of the fabric group must have arrived too, which the occasion says. Each domain that ends a communication phase, this
one or one that ends with it, needs its counted fence first. -/
def execDomainPhaseEnd (s : State) : Out :=
  let k := 2 + s.occ.a % 3
  let id := s.occ.c % 65536
  let c0 := if k = 2 then 32 * (s.occ.b % 4) else 0
  let ms := s.domain k c0 id
  let all := !ms.isEmpty && ms.all (fun c => (s.core c).standsAt k) && (k ≠ 4 || s.occ.flag)
  if !all || ms.any (fun c => (s.core c).stopped.isSome || (s.core c).raised.isSome) then .next s
  else
    let ends := s.endsWith k ms
    let comm := (ends.filter (fun e => e.2.any (fun c => (s.core c).ph e.1))).flatMap (·.2)
    let (s, done) := s.phaseFence comm
    if !done then .next s
    else .next (ms.foldl State.arrived (ends.foldl (fun s e => s.phasePass e.1 e.2) s))

end Sys2Proof.Machine
end

