-- ==== Sys2Proof/Machine/Dcc.lean ====
section
/-! DEFINITION. The generation loop of the DCC's firmware (17 R433 to R437): snapshots of the batch table, the forward
launches, sampling, and the commit predicate. The addresses in batch table entries are taken as device addresses (DEDUCED:
log entry 35). -/

namespace Sys2Proof.Machine
open Sys2Proof

/-! Batch table entries -/

def beCmd (b : List Byte) : Nat := dfld b 12 1
def beGroup (b : List Byte) : Nat := dfld b 15 1

/-- The body of an entry keeps the table (R433). -/
def beOk (b : List Byte) : Bool :=
  let t := dfld b 16 4
  let p := dfld b 20 4
  beCmd b ≤ 2 && dfld b 13 1 < 4 && dfld b 14 1 ≤ 8 && fpFinite t && t < 2 ^ 31 && 0 < t
    && 0 < p && p ≤ 0x3F800000

def State.modGen (s : State) (ctx : Nat) (f : GenLoop → GenLoop) : State := s.modCtx ctx (fun c => { c with gen := f c.gen })
def State.genOf (s : State) (ctx : Nat) : GenLoop := (s.ctx ctx).gen

/-- The status entry of a sequence (R433). -/
def State.btstat (s : State) (ctx i : Nat) : Nat := (s.ctx ctx).reg 0x58 8 + 32 * i

/-- The status of a sequence is written. -/
def State.setStat (s : State) (ctx i st : Nat) : State :=
  let a := s.btstat ctx i + 4
  if s.dev a 1 = st then s else (s.setDev a 1 st).modGen ctx (fun g => { g with changed := true })

/-- The snapshot of one entry (R434): an entry the host is writing keeps its last copy; so does one whose body breaks the
table, which the status tells. The step is indivisible, so SEQW does not change in it. -/
def State.snapEntry (s : State) (ctx i : Nat) : State :=
  let a := (s.ctx ctx).reg 0x50 8 + 64 * i
  let b := s.dram.bytes a 64
  if dfld b 0 8 % 2 = 1 then s
  else if !beOk b then s.setStat ctx i 6
  else s.modGen ctx (fun g => { g with snap := Tbl.put g.snap i b })

/-- One group's forward launch is fed (R435): the ring, the patch words, the arm. A record that is not IDLE or cannot be armed
gives its entries status NOCAND. -/
def State.feed (s : State) (ctx g : Nat) (es : List Nat) : State :=
  let rec_ := (s.ctx ctx).reg 0x62 2 % 4096 + g
  let none_ (s : State) : State :=
    (es.foldl (fun s i => s.setStat ctx i 3) s).modGen ctx (fun x => { x with todo := x.todo.filter (fun i => !es.contains i) })
  if 4096 ≤ rec_ || s.recState ctx rec_ ≠ 0 then none_ s
  else
    let tail := Tbl.get 0 (s.genOf ctx).tails g
    let ring := (s.ctx ctx).reg 0x68 8 + 8192 * g
    let s := (es.zip (List.range es.length)).foldl (fun s e => s.setDev (ring + 2 * ((tail + e.2) % 4096)) 2 e.1) s
    let new := (tail + es.length) % 4096
    let s := s.modGen ctx (fun x => { x with tails := Tbl.set 0 x.tails g new })
    let s := s.setRecF ctx rec_ 256 8 ((s.ctx ctx).reg 0x50 8)
    let s := s.setRecF ctx rec_ 264 8 ((s.genOf ctx).iter % 2 ^ 32)
    let s := s.setRecF ctx rec_ 272 8 tail
    let s := s.setRecF ctx rec_ 280 8 new
    let (s, st) := s.armRecord ctx rec_
    if st ≠ 0 then none_ s
    else
      let s : State := { s with hub := { s.hub with dccIrq := s.hub.dccIrq.filter (fun q => q != (512 + rec_, ctx)) } }
      s.modGen ctx (fun x => { x with recs := x.recs ++ [rec_] })

/-- GEN_LOOP_ITERATION (R434, R435): the table is copied, and the forward launches are armed. -/
def execGenLoopIteration (s : State) : Out :=
  let ctx := s.occ.a % 256
  if (s.genOf ctx).phase ≠ 0 then .next s
  else
    let n := min ((s.ctx ctx).reg 0x60 2) 4096
    let s := s.modGen ctx (fun g => { g with changed := false, recs := [], toks := [], nocand := false, entry := n, phase := 1 })
    let s := (List.range n).foldl (fun s i => s.snapEntry ctx i) s
    let of (cmd : Nat) (i : Nat) : Bool := ((s.genOf ctx).snap.find? (fun e => e.1 == i)).any (fun e => beCmd e.2 = cmd)
    let run := (List.range n).filter (of 1)
    let grp (i : Nat) : Nat := beGroup (Tbl.get [] (s.genOf ctx).snap i)
    let s := s.modGen ctx (fun g => { g with todo := (List.range n).filter (fun i => of 1 i || of 2 i) })
    .next ((List.range 256).foldl (fun s g =>
      let es := run.filter (fun i => grp i = g)
      if es.isEmpty then s else s.feed ctx g es) s)

/-! Sampling (R436) -/

/-- The scores and tokens of a candidate record; none for a count of 0 or status EMPTY. -/
def State.candidates (s : State) (a : Nat) : Option (List (Nat × Nat)) :=
  let c := min (s.dev a 4) (s.dev (a + 5) 1)
  if c = 0 || s.dev (a + 4) 1 = 2 then none
  else some ((List.range c).map (fun i => (s.dev (a + 16 + 8 * i) 4, s.dev (a + 20 + 8 * i) 4)))

/-- The token picked at a position (R436): the first when greedy, else by the sampled number. Where the rule finds no place, as
when a product rounds up to the whole sum, the place is a free value (DESIGN CHOICE: log entry 35). -/
def State.pickToken (s : State) (b : List Byte) (l : List (Nat × Nat)) (n q : Nat) : Nat × State :=
  let tok (i : Nat) : Nat := (nth (0, 0) l i).2
  if bitOf (dfld b 13 1) 0 then (tok 0, s)
  else
    let r (x : XR) : Nat := (fp32.rne x).1
    let s0 := (nth (0, 0) l 0).1
    let w := l.map (fun e => (TransFn.run .exp2 (r (XR.div (XR.mul (XR.sub (dv e.1) (dv s0)) (dv cD1)) (dv (dfld b 16 4))))).run 0 |>.1)
    let cum := (w.foldl (fun (c : List Nat × Nat) x => let y := r (XR.add (dv c.2) (dv x)); (c.1 ++ [y], y)) ([0], 0)).1
    let c := l.length
    let ge (a b : Nat) : Bool := !(dv a).isNan && !(dv b).isNan && XR.le (dv b) (dv a)
    let gt (a b : Nat) : Bool := !(dv a).isNan && !(dv b).isNan && XR.lt (dv b) (dv a)
    let goal := r (XR.mul (dv (dfld b 20 4)) (dv (nth 0 cum c)))
    let keep := ((List.range c).map (· + 1)).find? (fun j => ge (nth 0 cum j) goal)
    let u := XR.ofDy (srWord (dfld b 24 8) 0 (n % 2 ^ 16) q % 2 ^ 24 : Nat) (-24)
    let x := r (XR.mul u (dv (nth 0 cum (keep.getD c))))
    match (List.range (keep.getD 0)).find? (fun i => gt (nth 0 cum (i + 1)) x) with
    | some i => (tok i, s)
    | none => let (t, s) := s.fresh; (tok (Config.freeNat 13 t % keep.getD c), s)

/-- The tokens sampled for an entry from position `q` on, and whether a position had no candidate (R436): drafts are tested
in order, and the first that differs, or the token after the last, ends the list. -/
def State.sampleTokens (s : State) (b : List Byte) (n q : Nat) : Nat → Nat → State × List Nat × Bool
  | 0, _ => (s, [], false)
  | fuel + 1, j =>
    let a := dfld b 32 8
    let size := 64 * ceilDiv (16 + 8 * s.dev (a + 5) 1) 64
    match s.candidates (a + size * j) with
    | none => (s, [], true)
    | some l =>
      let (t, s) := s.pickToken b l n (q + j)
      if bitOf (dfld b 13 1) 1 && j < dfld b 14 1 && t = s.dev (dfld b 40 8 + 4 * j) 4 then
        let (s, ts, e) := State.sampleTokens s b n q fuel (j + 1)
        (s, t :: ts, e)
      else (s, [t], false)

/-! Commits (R437) -/

/-- A token is committed: the output word, then the status entry. Answers whether the sequence may go on. -/
def State.commitToken (s : State) (ctx i : Nat) (b : List Byte) (t : Nat) : State × Bool :=
  let a := s.btstat ctx i
  let n := s.dev a 4
  let lim := dfld b 56 4
  if lim ≤ n then (s.setStat ctx i 2, false)
  else
    let s := s.setDev (dfld b 48 8 + 4 * n) 4 t
    let s := (((s.setDev a 4 (n + 1)).setDev (a + 8) 4 t).setDev (a + 12) 4 ((s.genOf ctx).iter % 2 ^ 32)).setDev (a + 16) 8 s.devTime
    (s.setStat ctx i (if lim ≤ n + 1 then 2 else 0), n + 1 < lim)

/-- The tokens of the entry at hand are dropped; what was known of a position without candidates as well. -/
def State.dropToks (s : State) (ctx : Nat) : State := s.modGen ctx (fun g => { g with toks := [], nocand := false })

/-- The entry's next token is committed. -/
def State.commitNext (s : State) (ctx t : Nat) : State :=
  let g := s.genOf ctx
  let (s, go) := s.commitToken ctx g.entry (Tbl.get [] g.snap g.entry) t
  if go then s.modGen ctx (fun g => { g with toks := g.toks.drop 1, pos := g.pos + 1 }) else s.dropToks ctx

/-- The iteration ends (R435, R437): the host is told once when a status has changed. The vector is not given: a free value
(log entry 35). -/
def State.genEnd (s : State) (ctx : Nat) : State :=
  let g := s.genOf ctx
  let s := s.modGen ctx (fun g => { g with iter := (g.iter + 1) % 2 ^ 32, phase := 0 })
  if g.changed then
    let (t, s) := s.fresh
    { s with hub := { s.hub with msix := s.hub.msix ++ [(s.fnOf ctx, Config.freeNat 13 t % 64)] } }
  else s

/-- The predicate is called with a record in TCM, at an address the firmware picks (free), of the sequence id, the position,
the token and the user word (R437). -/
def State.callPredicate (s : State) (ctx : Nat) (b : List Byte) (pos t : Nat) : State :=
  let (k, s) := s.fresh
  let a := Config.freeNat 14 k % (2 ^ 18 - 16)
  let rec_ := leBytes 4 (dfld b 8 4) ++ leBytes 4 pos ++ leBytes 4 t ++ leBytes 4 (dfld b 60 4)
  let s : State := { s with hub := { s.hub with tcm := s.hub.tcm.store a rec_ } }
  s.modGen ctx (fun g => { g with phase := 2, called := s.devTime })

/-- Entries are sampled and tokens committed until the predicate must be asked or the iteration ends (R435 to R437). -/
def State.genRun (ctx : Nat) : Nat → State → State
  | 0, s => s
  | fuel + 1, s =>
    let g := s.genOf ctx
    match g.toks with
    | t :: _ =>
      let b := Tbl.get [] g.snap g.entry
      if (s.ctx ctx).reg 0x7C 4 = 0 then State.genRun ctx fuel (s.commitNext ctx t) else s.callPredicate ctx b g.pos t
    | [] =>
      let s := if g.nocand then (s.setStat ctx g.entry 3).modGen ctx (fun g => { g with nocand := false }) else s
      match g.todo with
      | [] => s.genEnd ctx
      | i :: rest =>
        let b := Tbl.get [] g.snap i
        let s := s.modGen ctx (fun g => { g with todo := rest, entry := i })
        if beCmd b = 2 then State.genRun ctx fuel (s.setStat ctx i 1)
        else
          let q := s.dev (s.btstat ctx i) 4
          let (s, ts, e) := s.sampleTokens b g.iter q 9 0
          State.genRun ctx fuel (s.modGen ctx (fun g => { g with toks := ts, nocand := e, pos := q }))

/-- Steps of an iteration at most: every entry with nine tokens, and its end. -/
def genFuel : Nat := 65536

/-- GEN_LOOP_SAMPLE_COMMIT (R435, R436): every forward launch armed has completed and told the DCC so. -/
def execGenLoopSampleCommit (s : State) : Out :=
  let ctx := s.occ.a % 256
  let g := s.genOf ctx
  if g.phase ≠ 1 || !g.recs.all (fun r => s.hub.dccIrq.contains (512 + r, ctx)) then .next s
  else
    let s : State := { s with hub := { s.hub with dccIrq := s.hub.dccIrq.filter (fun q => !(q.2 == ctx && g.recs.any (fun r => 512 + r == q.1))) } }
    .next (State.genRun ctx genFuel (s.modGen ctx (fun g => { g with recs := [] })))

/-- COMMIT_PREDICATE_RETURN (R437): accept, veto, stop or rewrite; a user-mode fault is CALLBACK-FAULT. -/
def execCommitPredicateReturn (s : State) : Out :=
  let ctx := s.occ.a % 256
  let g := s.genOf ctx
  if g.phase ≠ 2 then .next s
  else
    let s := s.modGen ctx (fun g => { g with phase := 1 })
    let a0 := s.occ.w.toNat
    let s := if s.occ.flag then (s.setStat ctx g.entry 5).dropToks ctx
      else match a0 % 4 with
        | 0 => s.commitNext ctx (g.toks.headD 0)
        | 1 => s.dropToks ctx
        | 2 => (s.setStat ctx g.entry 1).dropToks ctx
        | _ => (s.commitToken ctx g.entry (Tbl.get [] g.snap g.entry) (a0 / 2 ^ 32)).1.dropToks ctx
    .next (State.genRun ctx genFuel s)

/-- PREDICATE_TIMEOUT (R437): a call that has not returned 2 µs after entry is abandoned, and the entry's tokens with it. -/
def execPredicateTimeout (s : State) : Out :=
  let ctx := s.occ.a % 256
  let g := s.genOf ctx
  if g.phase ≠ 2 || s.devTime < g.called + 2000 then .next s
  else .next (State.genRun ctx genFuel (((s.modGen ctx (fun g => { g with phase := 1 })).setStat ctx g.entry 4).dropToks ctx))

end Sys2Proof.Machine
end

