-- ==== Sys2Proof/Machine/Float.lean ====
section
/-! DEFINITION. The scalar floating-point words (04 R109 to R111). -/

namespace Sys2Proof.Machine
open Sys2Proof

/-- A scalar float result: written zero-extended, with its flags (R95, R109). -/
def wrFloat (s : State) (rd : BitVec 6) (r : Nat × Nat) (lat : Nat) : M State := do
  return (← wrG s rd (BitVec.ofNat 64 r.1) lat).flags r.2

/-- A rounded operation on two scalar floats (R109). -/
def fltOp (f : S3) (op : XR → XR → XR) (lat : Nat) (s : State) : Out :=
  seqWord (fun s => do
    let t := scalarFmt (f.funct.toNat % 4)
    let x ← rdG s f.ra
    let y ← rdG s f.rb
    wrFloat s f.rd (t.rnd (scalarRnd (f.funct.toNat / 4 % 4)) (op (t.dec x.toNat) (t.dec y.toNat))) lat) s

def execFadd (f : S3) (s : State) : Out := fltOp f XR.add 4 s
def execFsub (f : S3) (s : State) : Out := fltOp f XR.sub 4 s
def execFmul (f : S3) (s : State) : Out := fltOp f XR.mul 4 s

/-- FMA (R109): x × y + g[rd], rounded once. -/
def execFma (f : S3) (s : State) : Out :=
  seqWord (fun s => do
    let t := scalarFmt (f.funct.toNat % 4)
    let x ← rdG s f.ra
    let y ← rdG s f.rb
    let z ← rdG s f.rd
    wrFloat s f.rd (t.rnd (scalarRnd (f.funct.toNat / 4 % 4))
      (XR.add (XR.mul (t.dec x.toNat) (t.dec y.toNat)) (t.dec z.toNat))) 5) s

/-- FMIN and FMAX (R109). -/
def fltMinMax (f : S3) (mx : Bool) (s : State) : Out :=
  seqWord (fun s => do
    let t := scalarFmt (f.funct.toNat % 4)
    let x ← rdG s f.ra
    let y ← rdG s f.rb
    wrFloat s f.rd (t.minMax mx (x.toNat % 2 ^ t.width) (y.toNat % 2 ^ t.width)) 4) s

def execFmin (f : S3) (s : State) : Out := fltMinMax f false s
def execFmax (f : S3) (s : State) : Out := fltMinMax f true s

/-- FCMP (R110): funct[6:4] is the condition. -/
def execFcmp (f : S3) (s : State) : Out :=
  seqWord (fun s => do
    let t := scalarFmt (f.funct.toNat % 4)
    let x ← rdG s f.ra
    let y ← rdG s f.rb
    let r := t.cmpCond (f.funct.toNat / 16 % 8) x.toNat y.toNat
    return (← wrP s (predOf f.rd) r.1 2).flags r.2) s

/-- The integer result of FCVT from an exact value: a NaN gives 0 and a value outside the range the nearest limit, both
with NV (R111). -/
def cvtInt (w : Nat) (r : RMode) (x : XR) : Int × Nat :=
  let lo : Int := -(2 ^ (w - 1))
  let hi : Int := 2 ^ (w - 1) - 1
  if x.isNan then (0, fNV)
  else if x.isInf then (if x.neg then lo else hi, fNV)
  else
    let (n, inx) := roundInt r x
    if n < lo then (lo, fNV) else if hi < n then (hi, fNV) else (n, if inx then fNX else 0)

/-- The exact value of a source of FCVT by its kind (R111): 3 INT64, 4 INT32. -/
def cvtSrc (kind : Nat) (a : Word) : XR :=
  match kind with
  | 3 => XR.ofInt a.toInt
  | 4 => XR.ofInt (sint 32 a.toNat)
  | k => (scalarFmt k).dec a.toNat

/-- The result of FCVT by its kind: the word and the flags. -/
def cvtDst (kind : Nat) (r : RMode) (x : XR) : Word × Nat :=
  match kind with
  | 3 => let v := cvtInt 64 r x; (BitVec.ofInt 64 v.1, v.2)
  | 4 => let v := cvtInt 32 r x; (BitVec.ofInt 64 v.1, v.2)
  | k => let v := (scalarFmt k).rnd r x; (BitVec.ofNat 64 v.1, v.2)

/-- FCVT (R111): funct[2:0] the source kind, [5:3] the result kind, [7:6] the rounding mode. -/
def execFcvt (f : S3) (s : State) : Out :=
  seqWord (fun s => do
    let n := f.funct.toNat
    let a ← rdG s f.ra
    let r := cvtDst (n / 8 % 8) (scalarRnd (n / 64 % 4)) (cvtSrc (n % 8) a)
    return (← wrG s f.rd r.1 3).flags r.2) s

end Sys2Proof.Machine
end

