-- ==== Sys2Proof/Machine/Hub.lean ====
section
/-! DEFINITION. What the host, the driver and the management core do to the package (21 R470 to R480, 17 R423, 14 R332, 06
R186): registers of BAR0, invalidations, context register blocks, bring-up, firmware, time, scrubbing, attestation, BAR2. -/

namespace Sys2Proof.Machine
open Sys2Proof

/-- A write that is dropped and counted (R470). -/
def State.dropWrite (s : State) : State := s.bump 13

/-! Invalidation (R91, R471) -/

/-- The layout units drop a context's descriptors and tile entries: of one tensor, or of all. -/
def State.dropDesc (s : State) (w : BitVec 64) : State :=
  let ctx := fld w.toNat 12 8
  let tid := fld w.toNat 0 12
  let all := w.getLsbD 62
  { s with cores := s.cores.map (fun (e : Nat × CoreSt) => (e.1, { e.2 with
      descs := e.2.descs.filter (fun d => !(d.2.1 == ctx && (all || d.2.2.1 == tid)))
      tiles := e.2.tiles.filter (fun d => !(d.2.1 == ctx && (all || d.2.2.1 == tid))) })) }.dropTiles ctx
        (fun x => all || x.1 == tid)

/-- INVCTL of a function as it reads, BUSY included. -/
def State.setInv (s : State) (fn : Nat) (w : BitVec 64) (busy : Bool) : State :=
  let v := (w &&& 0x40000000000FFFFF#64) ||| (if busy then 0x8000000000000000#64 else 0)
  { s with hub := { s.hub with invctl := Tbl.put s.hub.invctl fn v } }

/-- INVCTL_WRITE (R471): an invalidation starts, or is held until the one under way is done. The context must be the
function's; the reserved bits and BUSY are ignored (R3). -/
def execInvctlWrite (s : State) : Out :=
  let fn := s.occ.a % 16
  let w := s.occ.w &&& 0x40000000000FFFFF#64
  if s.hub.fwst = 2 || s.fnOf (fld w.toNat 12 8) ≠ fn then .next s.dropWrite
  else if s.hub.invNow.any (fun e => e.1 == fn) then
    .next ({ s with hub := { s.hub with invHeld := s.hub.invHeld ++ [(fn, w)] } }.setInv fn w true)
  else .next ({ s with hub := { s.hub with invNow := s.hub.invNow ++ [(fn, w)] } }.setInv fn w true)

/-- INVALIDATION_COMPLETE (R471): every layout unit has dropped the entries; those held start together. -/
def execInvalidationComplete (s : State) : Out :=
  let fn := s.occ.a % 16
  let mine := s.hub.invNow.filter (fun e => e.1 == fn)
  if mine.isEmpty then .next s
  else
    let s := mine.foldl (fun s e => s.dropDesc e.2) s
    let held := s.hub.invHeld.filter (fun e => e.1 == fn)
    let s : State := { s with hub := { s.hub with
      invNow := s.hub.invNow.filter (fun e => e.1 != fn) ++ held, invHeld := s.hub.invHeld.filter (fun e => e.1 != fn) } }
    .next (s.setInv fn (Tbl.get 0 s.hub.invctl fn) (!held.isEmpty))

/-! Context register blocks (R472) -/

/-- The fields of a block: offset, bytes, alignment or 1, least and greatest value. Addresses lie in device memory. -/
def ctxFields : List (Nat × Nat × Nat × Nat × Nat) :=
  let adr (o al : Nat) : Nat × Nat × Nat × Nat × Nat := (o, 8, al, 0, dramSize - 1)
  [adr 0x00 64, adr 0x08 512, adr 0x10 1, adr 0x18 65536, (0x20, 4, 2048, 0, 2 ^ 32 - 1), (0x24, 1, 1, 0, 63), (0x25, 3, 1, 0, 0),
   adr 0x28 (2 ^ 22), adr 0x30 (2 ^ 22), (0x38, 4, 1, 512, 2 ^ 20), (0x3C, 4, 1, 0, 2 ^ 26), adr 0x40 65536, adr 0x48 32]
  ++ [adr 0x50 1, adr 0x58 1, (0x60, 2, 1, 0, 4096), (0x62, 2, 1, 0, 4095), (0x64, 4, 1, 0, 0), adr 0x68 64, (0x70, 8, 1, 0, 3),
      (0x78, 4, 1, 0, 2 ^ 32 - 1), (0x7C, 4, 1, 0, 2 ^ 32 - 1)]

/-- The context is idle (R472): no launch armed or under way, no task queued, parked or saved. -/
def State.ctxIdle (s : State) (ctx : Nat) : Bool :=
  !s.runs.any (fun r => r.ctx == ctx) && (s.ctx ctx).armed.all (fun (e : Nat × List Nat) => e.2.isEmpty)
    && (s.ctx ctx).parked.isEmpty && !s.segs.any (fun (e : Nat × List Task) => e.2.any (fun t => t.ctx == ctx))

/-- The page free list is built (R423). -/
def State.kvBuild (s : State) (ctx : Nat) : State := s.modCtx ctx (fun c => { c with kvfree := List.range (c.reg 0x3C 4) })

/-- A write to a context's register block (R472): bytes at an offset; a field that would be out of range keeps its value. -/
def State.blockWrite (s : State) (ctx off n v : Nat) : State :=
  let drop (s : State) : State := s.modCtx ctx (fun c => { c with dropped := c.dropped + 1 })
  if !s.ctxIdle ctx || !(n = 1 || n = 2 || n = 4 || n = 8) || off % n ≠ 0 || 256 < off + n then drop s
  else
    let old := (s.ctx ctx).block
    let new := old.setNum off n v
    let hit (f : Nat × Nat × Nat × Nat × Nat) : Bool := f.1 < off + n && off < f.1 + f.2.1
    let bad (f : Nat × Nat × Nat × Nat × Nat) : Bool :=
      let x := Mem.num new f.1 f.2.1
      x % f.2.2.1 ≠ 0 || x < f.2.2.2.1 || f.2.2.2.2 < x
    let wrong := ctxFields.filter (fun f => hit f && bad f)
    let new := wrong.foldl (fun (m : Mem) f => m.setNum f.1 f.2.1 (Mem.num old f.1 f.2.1)) new
    let tail := 0x80 < off + n && v ≠ 0
    let new := if tail then new.setNum 0x80 128 0 else new
    let s := s.modCtx ctx (fun c => { c with block := new })
    let s := if off < 0x3C && 0x30 < off + n then s.modCtx ctx (fun c => { c with saveInit := false, saveFree := [] }) else s
    let s := if off < 0x40 && 0x3C < off + n then s.kvBuild ctx else s
    if wrong.isEmpty && !tail then s else drop s

/-- CONTEXT_BLOCK_WRITE (R472). In recovery no context exists (R478). -/
def execContextBlockWrite (s : State) : Out :=
  .next (if s.hub.fwst = 2 then s.dropWrite else s.blockWrite (s.occ.a % 256) s.occ.b s.occ.c s.occ.w.toNat)

/-- KVPAGES_WRITE (R423, R472). -/
def execKvpagesWrite (s : State) : Out :=
  .next (if s.hub.fwst = 2 then s.dropWrite else s.blockWrite (s.occ.a % 256) 0x3C 4 (s.occ.w.toNat % 2 ^ 32))

/-! BAR0 -/

/-- A function reaches a register (R470): the physical function every one; a virtual function the launch queues of its
contexts, the TTT entries that name them, its overflow vector, and the trace registers of the slices it owns. -/
def State.reachesReg (s : State) (fn : Nat) (r : Bar0Reg) : Bool :=
  fn = 0 || (match r with
    | .lqcfg c _ => s.fnOf (c % 256) = fn
    | .ttt n _ => s.fnOf (s.tttF (n % 256) 18 1) = fn
    | .trbctl k => fld (Tbl.get 0 s.hub.trbctl (k % 64)) 16 4 = fn
    | .trbptr k | .trbdrop k => fld (Tbl.get 0 s.hub.trbctl (k % 64)) 16 4 = fn
    | .invctl f => f % 16 = fn
    | .logctl k | .loglo k | .loghi k => fld (Tbl.get 0 s.hub.logctl (k % 64)) 16 4 = fn
    | .pmvec f => f = fn
    | _ => false)

/-- DEVST as it reads (R476). -/
def State.devst (s : State) : Nat :=
  let h := s.hub
  h.dieUp.toNat + h.fullClk.toNat * 2 ^ 4 + b2n s.fab.trained * 2 ^ 8 + b2n h.timeOk * 2 ^ 9 + h.timeSrc % 4 * 2 ^ 10 + h.fwst.toNat * 2 ^ 12

/-- GOVBUD of a die as it reads (R477). -/
def State.govbud (s : State) (die : Nat) : Nat := s.budget die % 2 ^ 16 + s.usedAmps die % 2 ^ 16 * 2 ^ 16

/-- What a function reads of a BAR0 register (R470): zero of one out of its reach, and of every one in recovery but for the window
(R478). A register the manual gives no layout reads as a free value. -/
def State.bar0Read (s : State) (fn : Nat) (r : Bar0Reg) : Nat :=
  let h := s.hub
  if h.fwst = 2 || !s.reachesReg fn r then 0
  else match r with
    | .lqcfg c q => s.lqWord (c % 256) (q % 16)
    | .ttt n d => if d % 4 = 3 then 0 else s.tttF (n % 256) (8 * (d % 4)) 8
    | .gscfg => s.fab.gscfg.toNat
    | .mcast g => Tbl.get 0 s.fab.groups (g % 65536)
    | .trbctl k => Tbl.get 0 h.trbctl (k % 64)
    | .logctl k => Tbl.get 0 h.logctl (k % 64)
    | .loglo k => Tbl.get 0 h.loglo (k % 64)
    | .loghi k => Tbl.get 0 h.loghi (k % 64)
    | .slcowner k => Tbl.get 0 h.slcowner (k % 64)
    | .pmowner c => (s.core (c % 128)).pmowner
    | .pmvec f => Tbl.get 0 h.pmvec (f % 16)
    | .tcm a => h.tcm.num (a % (2 ^ 18 - 7)) 8
    | .trbptr k => Tbl.get 0 h.trbptr (k % 64)
    | .trbdrop k => Tbl.get 0 h.trbdrop (k % 64)
    | .devst => s.devst
    | .govbud d => s.govbud (d % 4)
    | .invctl f => (Tbl.get 0 h.invctl (f % 16)).toNat
    | .timeSource => h.timeSrc
    | .bcmClear _ | .ctxFunction _ | .nsmFree .. | .cntSave _ | .other _ => Config.freeNat 16 s.tick

/-- A launch queue's level has changed: the segments keep their order (R211, R384). -/
def State.resort (s : State) : State :=
  { s with segs := s.segs.map (fun (e : Nat × List Task) => (e.1, e.2.foldl (fun l t => s.rankIn t l) [])) }

/-- The effect of a write to a BAR0 register, its Reserved fields ignored (R3); none for a value it does not take. -/
def State.bar0 (s : State) (r : Bar0Reg) (w : BitVec 64) : Option State :=
  let v := w.toNat
  let h := s.hub
  match r with
  | .lqcfg c q => some ((s.modCtx (c % 256) (fun x => { x with lqcfg := Tbl.set 0 x.lqcfg (q % 16) (v % 32) })).resort)
  | .ttt n d =>
    if d % 4 = 3 then some s
    else if d % 4 = 2 then some (s.setTttF (n % 256) 16 4 (v % 2 ^ 32))
    else some (s.setTttF (n % 256) (8 * (d % 4)) 8 v)
  | .gscfg =>
    if fld v 32 32 < 64 then none
    else
      let x := setFld v 3 13 0
      some { s with fab := { s.fab with gscfg := BitVec.ofNat 64 (if 5 ≤ v % 8 then setFld x 0 3 2 else x) } }
  | .mcast g => some { s with fab := { s.fab with groups := Tbl.set 0 s.fab.groups (g % 65536) (v % 2 ^ 18) } }
  | .trbctl k => some { s with hub := { h with trbctl := Tbl.set 0 h.trbctl (k % 64) (setFld v 2 14 0 % 2 ^ 20) } }
  | .logctl k => some { s with hub := { h with logctl := Tbl.set 0 h.logctl (k % 64) (setFld v 10 6 0 % 2 ^ 20) } }
  | .loglo k => some { s with hub := { h with loglo := Tbl.set 0 h.loglo (k % 64) v } }
  | .loghi k => some { s with hub := { h with loghi := Tbl.set 0 h.loghi (k % 64) v } }
  | .slcowner k => some { s with hub := { h with slcowner := Tbl.set 0 h.slcowner (k % 64) (v % 16) } }
  | .pmowner c => some (s.modCore (c % 128) (fun x => { x with pmowner := v % 16 }))
  | .pmvec f => some { s with hub := { h with pmvec := Tbl.set 0 h.pmvec (f % 16) (v % 64) } }
  | .bcmClear c => some (s.modCore (c % 128) (fun x => { x with bcm := [] }))
  | .ctxFunction c => some (s.modCtx (c % 256) (fun x => { x with fn := v % 16 }))
  | .nsmFree c d i => some (s.modCtx (c % 256) (fun x => { x with
      nsmFree := Tbl.put x.nsmFree (d % 4) (Tbl.get [] x.nsmFree (d % 4) ++ [i % 131072]) }))
  | .cntSave f => some { s with hub := { h with cntSave := Tbl.set 0 h.cntSave (f % 16) v } }
  | .timeSource => if 2 < v then none else some { s with hub := { h with timeSrc := v } }
  | .tcm a => some { s with hub := { h with tcm := h.tcm.setNum (a % (2 ^ 18 - 7)) 8 v } }
  | .trbptr _ | .trbdrop _ | .devst | .govbud _ | .invctl _ => some s
  | .other _ => none

/-- BAR0_REGISTER_WRITE (R470): out of the function's reach it is dropped and counted. In recovery nothing else is written
(R478). -/
def execBar0RegisterWrite (s : State) : Out :=
  let fn := s.occ.a % 16
  if s.hub.fwst = 2 || !s.reachesReg fn s.occ.reg then .next s.dropWrite
  else match s.bar0 s.occ.reg s.occ.w with
    | some s => .next s
    | none => .next s.dropWrite

/-! Bring-up -/

/-- PACKAGE_NUMBER_WRITE (R332, R475): a number whose row and column the grid has; fabric training begins. -/
def execPackageNumberWrite (s : State) : Out :=
  let p := s.occ.a
  let g := s.occ.b
  if s.hub.fwst ≠ 2 && p < 81 && 1 ≤ g && g ≤ 9 && p / 9 < g && p % 9 < g then
    .next { s with fab := { s.fab with pkg := p, grid := g, trained := false } }
  else .next s.dropWrite

/-- FABRIC_TRAINED (R475): once the package number has been written. -/
def execFabricTrained (s : State) : Out :=
  if s.fab.grid = 0 then .next s else .next { s with fab := { s.fab with trained := true } }

/-- The management core verifies the image (R475, R478): the package runs, or stays in recovery; what was loaded is
measured (R479). -/
def State.boot (s : State) : State :=
  let h := s.hub
  { s with hub := { h with
    fwst := if Config.verified h.fwImage then 1 else 2
    fwLog := if Config.verified h.fwImage then h.fwLog ++ [Config.measure h.fwImage] else h.fwLog } }

/-- PACKAGE_RESET (R475, R478): everything is at reset but for the memories, which stay as they are (DESIGN CHOICE: log entry
36), and the firmware image, which is verified again. -/
def execPackageReset (s : State) : Out :=
  let h := { Hub.reset with fwImage := s.hub.fwImage, fwVersion := s.hub.fwVersion }
  .next { State.reset with
    agenda := s.agenda, tick := s.tick, clock := s.clock, host := s.host, dram := s.dram, hub := h }.boot

/-- FIRMWARE_RECOVERY_LOAD (R478): in recovery the host sends the image again, through a window of 4 MiB. -/
def execFirmwareRecoveryLoad (s : State) : Out :=
  if s.hub.fwst = 2 && s.occ.bytes.length ≤ 2 ^ 22 then
    .next { s with hub := { s.hub with fwImage := s.occ.bytes } }.boot
  else .next s

/-- FIRMWARE_UPDATE_ACTIVATE (R478): an update that does not verify is never run. -/
def execFirmwareUpdateActivate (s : State) : Out :=
  let h := s.hub
  if h.fwst = 1 && Config.verified s.occ.bytes then
    .next { s with hub := { h with
      fwImage := s.occ.bytes, fwVersion := h.fwVersion + 1, fwLog := h.fwLog ++ [Config.measure s.occ.bytes] } }
  else .next s

/-- DIE_OFFERED (R475, R476): a die whose DRAM has trained is offered for work. -/
def execDieOffered (s : State) : Out :=
  let d := s.occ.a % 4
  if s.hub.fwst = 1 then .next { s with hub := { s.hub with dieUp := s.hub.dieUp ||| (1#4 <<< d) } } else .next s

/-- DIE_CHARACTERISED (R13, R475): the die's arrays run at full clock. -/
def execDieCharacterised (s : State) : Out :=
  let d := s.occ.a % 4
  if s.hub.dieUp.getLsbD d then .next { s with hub := { s.hub with fullClk := s.hub.fullClk ||| (1#4 <<< d) } } else .next s

/-! Time, reliability, identity -/

/-- TIME_SYNC_SAMPLE (R474): the source's time less device time. Under 1 ms it is slewed away, else stepped. -/
def execTimeSyncSample (s : State) : Out :=
  let off := s.occ.off
  let h := s.hub
  if h.timeSrc = 0 then .next s
  else
    let base := h.timeOff + s.slewed
    if off.natAbs < 1000000 then
      .next { s with hub := { h with timeOff := base, slew := off, slewAt := s.clock, timeOk := off.natAbs ≤ 1000 } }
    else .next { s with hub := { h with timeOff := base + off, slew := 0, slewAt := s.clock, timeOk := true } }

/-- PATROL_SCRUB (R480): latent faults of DRAM rows are reported to the DCC's event queue, and counted. -/
def execPatrolScrub (s : State) : Out :=
  let l := s.occ.nums
  .next { s with hub := { s.hub with corrected := s.hub.corrected + l.length, rows := s.hub.rows ++ l } }

/-- ATTESTATION_REQUEST (R479): the log, the nonce, device time and the serial number, signed. -/
def execAttestationRequest (s : State) : Out :=
  let n := s.occ.bytes
  if n.length ≠ 32 then .next s.dropWrite
  else
    let r := s.hub.fwLog.flatten ++ n ++ leBytes 8 s.devTime ++ Config.serial
    .next { s with hub := { s.hub with attest := s.hub.attest ++ [r ++ Config.sign r] } }

/-- A posted write of the host may be performed: no earlier one of its function waits, or it carries Relaxed Ordering (R186). -/
def State.mayPost (s : State) (k : Nat) : Bool :=
  match s.hub.posted.drop k with
  | [] => false
  | e :: _ => e.2.1 || !(s.hub.posted.take k).any (fun x => x.1 == e.1)

/-- A posted write is performed. -/
def State.doPost (s : State) (e : Nat × Bool × Nat × List Byte) : State :=
  { s with dram := s.dram.store e.2.2.1 e.2.2.2, hub := { s.hub with posted := s.hub.posted.erase e } }

/-- HOST_BAR2_ACCESS (R186, R470): a plain access to device memory; one beyond it is dropped and counted. A write is posted, and
performed by a later such step, of one function in order but for Relaxed Ordering; a read comes after its function's earlier
writes. The management core's own accesses come by this step too, each performed at once and so in program order, which leaves its
FENCE nothing to order (log entry 56). -/
def execHostBar2Access (s : State) : Out :=
  let o := s.occ
  let fn := o.a % 16
  let n := if o.flag then o.bytes.length else o.c
  if o.d % 4 = 1 then
    .next (match s.hub.posted.drop o.c with
      | e :: _ => if s.mayPost o.c then s.doPost e else s
      | [] => s)
  else if dramSize < o.b + n then .next s.dropWrite
  else if o.flag && o.d % 4 = 2 then .next { s with dram := s.dram.store o.b o.bytes }
  else if o.flag then .next { s with hub := { s.hub with posted := s.hub.posted ++ [(fn, o.w.getLsbD 0, o.b, o.bytes)] } }
  else
    let s := (s.hub.posted.filter (fun e => e.1 == fn)).foldl State.doPost s
    .next { s with hub := { s.hub with bar2log := s.hub.bar2log ++ [s.dram.bytes o.b n] } }

end Sys2Proof.Machine
end

