-- ==== Sys2Proof/Machine/Int.lean ====
section
/-! DEFINITION. The integer, address, comparison and predicate words of the sequencer (04 R103 to R108). -/

namespace Sys2Proof.Machine
open Sys2Proof

/-- A word of the integer group with a fixed latency: g[rd] := op(a, b) (R103). -/
def intOp (f : S3) (op : Word → Word → Word) (lat : Nat) (s : State) : Out :=
  seqWord (fun s => do
    let a ← rdG s f.ra
    let b ← opB s f
    wrG s f.rd (op a b) lat) s

/-- The bit length that a division's latency depends on (R481). -/
def divLen (signed : Bool) (a : Word) : Nat := bitLen (if signed then a.toInt.natAbs else a.toNat)

/-- The latency of a division (R96, R481). -/
def divLat (signed : Bool) (a : Word) : Nat := 10 + (divLen signed a - 8 + 1) / 2

/-- Quotient and remainder (R103). -/
def divRem (signed : Bool) (a b : Word) : Word × Word :=
  if b = 0 then (ones64, a)
  else if signed then
    if a.toInt = -(2 ^ 63) ∧ b.toInt = -1 then (BitVec.ofInt 64 (-(2 ^ 63)), 0)
    else (BitVec.ofInt 64 (a.toInt.tdiv b.toInt), BitVec.ofInt 64 (a.toInt.tmod b.toInt))
  else (BitVec.ofNat 64 (a.toNat / b.toNat), BitVec.ofNat 64 (a.toNat % b.toNat))

/-- A division word: an interlocked result, and the divide-by-zero trap (R103). -/
def divOp (f : S3) (signed quot : Bool) (s : State) : Out :=
  seqWord (fun s => do
    let a ← rdG s f.ra
    let b ← opB s f
    let r := divRem signed a b
    let s ← wrLocked s f.rd (if quot then r.1 else r.2) (divLat signed a)
    return if b = 0 then s.divZero else s) s

def execAdd (f : S3) (s : State) : Out := intOp f (fun a b => a + b) 1 s
def execSub (f : S3) (s : State) : Out := intOp f (fun a b => a - b) 1 s
def execMul (f : S3) (s : State) : Out := intOp f (fun a b => a * b) 3 s
def execMulh (f : S3) (s : State) : Out := intOp f (fun a b => BitVec.ofInt 64 (a.toInt * b.toInt / 2 ^ 64)) 3 s
def execMulhu (f : S3) (s : State) : Out := intOp f (fun a b => BitVec.ofNat 64 (a.toNat * b.toNat / 2 ^ 64)) 3 s
def execDiv (f : S3) (s : State) : Out := divOp f true true s
def execDivu (f : S3) (s : State) : Out := divOp f false true s
def execRem (f : S3) (s : State) : Out := divOp f true false s
def execRemu (f : S3) (s : State) : Out := divOp f false false s
def execAnd (f : S3) (s : State) : Out := intOp f (fun a b => a &&& b) 1 s
def execOr (f : S3) (s : State) : Out := intOp f (fun a b => a ||| b) 1 s
def execXor (f : S3) (s : State) : Out := intOp f (fun a b => a ^^^ b) 1 s
def execShl (f : S3) (s : State) : Out := intOp f (fun a b => a <<< (b.toNat % 64)) 1 s
def execShr (f : S3) (s : State) : Out := intOp f (fun a b => a >>> (b.toNat % 64)) 1 s
def execSar (f : S3) (s : State) : Out := intOp f (fun a b => a.sshiftRight (b.toNat % 64)) 1 s
def execRol (f : S3) (s : State) : Out := intOp f (fun a b => a.rotateLeft (b.toNat % 64)) 1 s
def execMin (f : S3) (s : State) : Out := intOp f (fun a b => if a.toInt ≤ b.toInt then a else b) 1 s
def execMax (f : S3) (s : State) : Out := intOp f (fun a b => if a.toInt ≤ b.toInt then b else a) 1 s
def execMinu (f : S3) (s : State) : Out := intOp f (fun a b => if a.toNat ≤ b.toNat then a else b) 1 s
def execMaxu (f : S3) (s : State) : Out := intOp f (fun a b => if a.toNat ≤ b.toNat then b else a) 1 s

/-- A word of one source register (R104). -/
def unOp (f : S3) (op : Word → Word) (s : State) : Out :=
  seqWord (fun s => do wrG s f.rd (op (← rdG s f.ra))) s

/-- CLZ, POPC (R104). -/
def execClz (f : S3) (s : State) : Out := unOp f (fun a => BitVec.ofNat 64 (64 - bitLen a.toNat)) s
def execPopc (f : S3) (s : State) : Out := unOp f (fun a => BitVec.ofNat 64 (popCount 64 a.toNat)) s

/-- LEA (R105): the offset moves modulo 2^52 and the tensor id stays. -/
def execLea (f : SI) (s : State) : Out :=
  seqWord (fun s => do
    let a ← rdG s f.ra
    let off := (a.toNat % 2 ^ 52 + (sext64 24 f.imm.toNat).toNat) % 2 ^ 52
    wrG s f.rd (BitVec.ofNat 64 (a.toNat / 2 ^ 52 * 2 ^ 52 + off))) s

/-- LI, LIS (R106). -/
def execLi (f : SL) (s : State) : Out := seqWord (fun s => wrG s f.rd (sext64 30 f.imm.toNat)) s
def execLis (f : SL) (s : State) : Out :=
  seqWord (fun s => do
    let a ← rdG s f.rd
    wrG s f.rd (a <<< 30 ||| BitVec.ofNat 64 f.imm.toNat)) s

/-- CMP (R107). -/
def execCmp (f : S3) (s : State) : Out :=
  seqWord (fun s => do
    let a ← rdG s f.ra
    let b ← rdG s f.rb
    wrP s (predOf f.rd) (cmpCond (f.funct.toNat % 16) a b)) s

/-- A predicate word of two optionally negated predicates (R108). -/
def predOp (f : S3) (op : Bool → Bool → Bool) (s : State) : Out :=
  seqWord (fun s => do
    let a ← rdPN s f.ra (f.funct.getLsbD 0)
    let b ← rdPN s f.rb (f.funct.getLsbD 1)
    wrP s (predOf f.rd) (op a b)) s

def execPand (f : S3) (s : State) : Out := predOp f and s
def execPor (f : S3) (s : State) : Out := predOp f or s
def execPxor (f : S3) (s : State) : Out := predOp f (fun a b => a != b) s

/-- PNOT (R108). -/
def execPnot (f : S3) (s : State) : Out :=
  seqWord (fun s => do wrP s (predOf f.rd) (!(← rdP s (predOf f.ra)))) s

/-- SEL (R108): funct[2:0] names the predicate, funct[3] negates it. -/
def execSel (f : S3) (s : State) : Out :=
  seqWord (fun s => do
    let p ← rdP s (f.funct.toNat % 8)
    let a ← rdG s f.ra
    let b ← rdG s f.rb
    wrG s f.rd (if p != f.funct.getLsbD 3 then a else b)) s

/-- The predicates that a word reads one after the other. -/
def rdPs (s : State) : List Nat → M Nat
  | [] => .ok 0
  | k :: t => do return (if (← rdP s k) then 2 ^ k else 0) + (← rdPs s t)

/-- PMOV.rd (R108): p7 to p0, with bit 0 = 1. -/
def execPmovRd (f : S3) (s : State) : Out :=
  seqWord (fun s => do wrG s f.rd (BitVec.ofNat 64 (← rdPs s (List.range 8)))) s

/-- Several predicates written from the bits of a word. -/
def wrPs (v : Word) : State → List Nat → M State
  | s, [] => .ok s
  | s, k :: t => do wrPs v (← wrP s k (v.getLsbD k)) t

/-- PMOV.wr (R108): p1 to p7 from bits [7:1]. -/
def execPmovWr (f : S3) (s : State) : Out :=
  seqWord (fun s => do wrPs (← rdG s f.ra) s [1, 2, 3, 4, 5, 6, 7]) s

/-- PMOV.st (R108): e7 to e0. -/
def execPmovSt (f : S3) (s : State) : Out := seqWord (fun s => wrG s f.rd (s.me.estage.setWidth 64)) s

end Sys2Proof.Machine
end

