-- ==== Sys2Proof/Machine/Kv.lean ====
section
/-! DEFINITION. The key-value page words and the prefix words (17 R423 to R430). -/

namespace Sys2Proof.Machine
open Sys2Proof

/-- A page reference a word names: its index must lie in the pool, or it is null where the word accepts null (R423). -/
def needPage (s : State) (r : Nat) (null : Bool) : M Unit :=
  need ((null && r = nullRef) || r % 2 ^ 26 < s.kvpages s.myCtx) cPERM pRANGE r

/-- The pages KVALLOC names (R426): PREV and LG. -/
def kvallocArgs (s : State) (f : S3) : M (Nat × Nat) := do
  let a ← rdG s f.ra
  let b ← rdG s f.rb
  let r := a.toNat % 2 ^ 32
  needPage s r true
  need (b.toNat < 256) cILLEGAL 3 0
  return (r, b.toNat)

/-- KVALLOC performed (R426): the reference and the status. -/
def State.kvalloc (s : State) (ctx prev lg : Nat) : State × Nat × Nat :=
  let none_ := prev = nullRef
  if !none_ && s.pgStale ctx prev then (s, nullRef, stSTALE)
  else if !none_ && s.pgF ctx prev 4 2 = 0xFFFF then (s, nullRef, stSAT)
  else match (s.ctx ctx).kvfree with
    | [] => (s, nullRef, stNOSPACE)
    | i :: rest =>
      let s := if none_ then s else (s.pgRaise ctx prev).1
      let s := s.modCtx ctx (fun c => { c with kvfree := rest })
      let s := s.setPgF ctx i 0 4 prev
      let s := s.setPgF ctx i 4 2 1
      let s := s.setPgF ctx i 6 2 0
      let s := s.setPgF ctx i 8 2 0
      let s := s.setPgF ctx i 10 1 lg
      let s := s.setPgF ctx i 11 1 1
      (s, s.pgRef ctx i, stOK)

/-- KVALLOC (R426): a closing word. -/
def execKvalloc (f : S3) (s : State) : Out :=
  closingWord (fun s => do
      let _ ← kvallocArgs s f
      return ())
    (fun s => do
      let (prev, lg) ← kvallocArgs s f
      let (s, r, st) := s.kvalloc s.myCtx prev lg
      wrLate (s.nodest st) f.rd (BitVec.ofNat 64 r)) s

/-- A held word of one page (R426). -/
def heldPage (f : S3) (e : Nat → Effect) (s : State) : M State := do
  let a ← rdG s f.ra
  let r := a.toNat % 2 ^ 32
  needPage s r false
  heldNode s (e r)

/-- KVFREE, KVPIN, KVUNPIN (R426). -/
def execKvfree (f : S3) (s : State) : Out := seqWord (heldPage f .kvfree) s
def execKvpin (f : S3) (s : State) : Out := seqWord (heldPage f (fun r => .kvpin r true)) s
def execKvunpin (f : S3) (s : State) : Out := seqWord (heldPage f (fun r => .kvpin r false)) s

/-- KVLINK (R427). -/
def execKvlink (f : S3) (s : State) : Out :=
  seqWord (fun s => do
    let a ← rdG s f.ra
    let b ← rdG s f.rb
    let va := a.toNat
    let r := b.toNat % 2 ^ 32
    let (s, d) ← openTensor s (coreOf s.cur.u) ptSEQ s.myCtx va 1 false
    need (d.layout = 4) cPERM pRANGE va
    need (d.home s.fab.pkg (d.pos (va % 2 ^ 52) / 65536) = s.fab.pkg) cPERM pSPACE va
    need (!d.ronly) cPERM pRDONLY va
    needPage s r true
    heldNode s (.kvlink r va)) s

/-- KVINV.inv and KVINV.val (R426). -/
def kvinvBody (f : S3) (val : Bool) (s : State) : M State := do
  let a ← rdG s f.ra
  let b ← rdG s f.rb
  let ctx := s.myCtx
  let r := a.toNat % 2 ^ 32
  needPage s r false
  need (b.toNat < 2 ^ 16) cILLEGAL 3 0
  if s.pgStale ctx r || s.pgF ctx r 11 1 = 0 then wrLocked (s.nodest stSTALE) f.rd ones64 18
  else
    let v := s.pgF ctx r 8 2
    let w := v + s.pgF ctx r 4 2 * 2 ^ 16 + s.pgF ctx r 6 2 * 2 ^ 32 + s.pgF ctx r 10 1 * 2 ^ 48
    let v' := if val then v ||| b.toNat else v &&& (0xFFFF ^^^ b.toNat)
    wrLocked ((s.setPgF ctx r 8 2 v').nodest stOK) f.rd (BitVec.ofNat 64 w) 18

def execKvinvInv (f : S3) (s : State) : Out := seqWord (kvinvBody f false) s
def execKvinvVal (f : S3) (s : State) : Out := seqWord (kvinvBody f true) s

/-! Prefixes -/

/-- pfx_hash (R428). -/
def pfxHash (prev : Word) (toks : List Nat) : Word :=
  let h := toks.foldl (fun (h : Word) t =>
    let h := (h ^^^ BitVec.ofNat 64 t) * 0xD1B54A32D192ED03#64
    h ^^^ (h >>> 29)) (prev ^^^ 0x6A1D93C752E0B84F#64)
  let h := h ^^^ (h >>> 32)
  if h = 0 then 1 else h

/-- PFXHASH (R430). -/
def execPfxhash (f : S3) (s : State) : Out :=
  seqWord (fun s => do
    let a := (← rdG s f.ra).toNat
    let prev ← rdG s f.rb
    need (a + 64 ≤ s.me.alloc.spLen) cPERM pRANGE a
    need (a % 64 = 0) cALIGN 0 a
    watermark s s.myCtx 1 a 64
    let b := s.myCore.scratch.bytes (s.me.alloc.spBase + a) 64
    let toks := (List.range 16).map (fun k => recFld b (4 * k) 4)
    wrLocked s f.rd (pfxHash prev toks) 24) s

/-- The prefix-table entry of a key, by its place (R429). -/
def State.pfxFind (s : State) (ctx lg hash : Nat) : Option (Nat × Pfx) :=
  s.hub.pfx.find? (fun e => e.2.ctx == ctx && e.2.lg == lg && e.2.hash == hash)

/-- An entry takes the counter's next value as its stamp (R429). -/
def State.pfxStamp (s : State) (k : Nat) (p : Pfx) : State :=
  let n := s.hub.stamp + 1
  { s with hub := { s.hub with stamp := n, pfx := Tbl.put s.hub.pfx k { p with stamp := n.toNat } } }

/-- The blocks of a PFXLOOK, in order, until one does not match: the references pinned (R430). -/
def State.pfxMatch (ctx lg : Nat) : State → List Nat → State × List Nat
  | s, [] => (s, [])
  | s, h :: t =>
    match s.pfxFind ctx lg h with
    | none => (s, [])
    | some (k, p) =>
      let (s', st) := s.pgPin ctx p.page
      if st ≠ stOK then (s, [])
      else
        let (s, l) := State.pfxMatch ctx lg (s'.pfxStamp k p) t
        (s, p.page :: l)

/-- The operands of PFXLOOK (R430): where the hashes stand in the allocation, how many, LG and the hashes. -/
def pfxlookArgs (s : State) (f : S3) : M (Nat × Nat × Nat × List Nat) := do
  let a := (← rdG s f.ra).toNat
  let b := (← rdG s f.rb).toNat
  need (b < 2 ^ 16) cILLEGAL 3 0
  let n := b % 256 + 1
  need (a + 12 * n ≤ s.me.alloc.spLen) cPERM pRANGE a
  need (a % 8 = 0) cALIGN 0 a
  watermark s s.myCtx 1 a (12 * n)
  let bs := s.myCore.scratch.bytes (s.me.alloc.spBase + a) (8 * n)
  let hs := (List.range n).map (fun k => recFld bs (8 * k) 8)
  need (hs.all (· ≠ 0)) cILLEGAL 3 0
  return (a, n, b / 256, hs)

/-- PFXLOOK (R430): a closing word. -/
def execPfxlook (f : S3) (s : State) : Out :=
  closingWord (fun s => do
      let _ ← pfxlookArgs s f
      return ())
    (fun s => do
      let (a, n, lg, hs) ← pfxlookArgs s f
      let (s, l) := State.pfxMatch s.myCtx lg s hs
      let out := (l ++ List.replicate (n - l.length) nullRef).flatMap (leBytes 4)
      let s := s.modMyCore (fun c => { c with scratch := c.scratch.store (s.me.alloc.spBase + a + 8 * n) out })
      wrLate (s.nodest stOK) f.rd (BitVec.ofNat 64 l.length)) s

/-- PFXINS performed (R430). -/
def State.pfxIns (s : State) (ctx lg hash page : Nat) : State × Nat :=
  if (s.pfxFind ctx lg hash).isSome then (s, stBUSY)
  else
    let place : Option (Nat × Option Pfx) :=
      match (List.range 64).find? (fun k => !(s.hub.pfx.any (fun e => e.1 == k))) with
      | some k => some (k, none)
      | none =>
        let free := s.hub.pfx.filter (fun e => s.pgF e.2.ctx e.2.page 6 2 = 0)
        (free.foldl (fun (b : Option (Nat × Pfx)) e => match b with
          | none => some e
          | some x => if e.2.stamp < x.2.stamp then some e else some x) none).map (fun e => (e.1, some e.2))
    match place with
    | none => (s, if s.pgStale ctx page then stSTALE else stNOSPACE)
    | some (k, old) =>
      let (s', st) := s.pgRaise ctx page
      if st ≠ stOK then (s, st)
      else
        let s := s'.pfxStamp k ⟨ctx, lg, hash, page, 0⟩
        (match old with | some p => (State.pgLower chainFuel s p.ctx p.page).1 | none => s, stOK)

/-- The operands of PFXINS (R430): hash, page and LG. -/
def pfxinsArgs (s : State) (f : S3) : M (Nat × Nat × Nat) := do
  let h ← rdG s f.ra
  let b ← rdG s f.rb
  need (h ≠ 0 && b.toNat < 2 ^ 40) cILLEGAL 3 0
  let r := b.toNat % 2 ^ 32
  needPage s r false
  return (h.toNat, r, b.toNat / 2 ^ 32)

/-- PFXINS (R430): a closing word. -/
def execPfxins (f : S3) (s : State) : Out :=
  closingWord (fun s => do
      let _ ← pfxinsArgs s f
      return ())
    (fun s => do
      let (h, r, lg) ← pfxinsArgs s f
      let (s, st) := s.pfxIns s.myCtx lg h r
      wrLate (s.nodest st) f.rd (BitVec.ofNat 64 st)) s

/-- PFXEVICT (R430). -/
def execPfxevict (f : S3) (s : State) : Out :=
  seqWord (fun s => do
    let h ← rdG s f.ra
    let b ← rdG s f.rb
    need (h ≠ 0 && b.toNat < 256) cILLEGAL 3 0
    heldNode s (.pfxevict false h.toNat b.toNat)) s

/-- PFXEVICT.all (R430). -/
def execPfxevictAll (_f : S3) (s : State) : Out :=
  seqWord (fun s => heldNode s (.pfxevict true 0 0)) s

end Sys2Proof.Machine
end

