-- ==== Sys2Proof/Machine/Dispatch.lean ====
section
/-! DEFINITION. The dispatch of every instruction and hardware step to its meaning. -/

namespace Sys2Proof.Machine
open Sys2Proof

/-- One arm per constructor of `Instr`. -/
def exec (i : Instr) (s : State) : Host.Outcome State Fault Refusal :=
  match i with
  | .add f => Sys2Proof.Machine.execAdd f s
  | .sub f => Sys2Proof.Machine.execSub f s
  | .mul f => Sys2Proof.Machine.execMul f s
  | .mulh f => Sys2Proof.Machine.execMulh f s
  | .mulhu f => Sys2Proof.Machine.execMulhu f s
  | .div f => Sys2Proof.Machine.execDiv f s
  | .divu f => Sys2Proof.Machine.execDivu f s
  | .rem f => Sys2Proof.Machine.execRem f s
  | .remu f => Sys2Proof.Machine.execRemu f s
  | .and f => Sys2Proof.Machine.execAnd f s
  | .or f => Sys2Proof.Machine.execOr f s
  | .xor f => Sys2Proof.Machine.execXor f s
  | .shl f => Sys2Proof.Machine.execShl f s
  | .shr f => Sys2Proof.Machine.execShr f s
  | .sar f => Sys2Proof.Machine.execSar f s
  | .rol f => Sys2Proof.Machine.execRol f s
  | .min f => Sys2Proof.Machine.execMin f s
  | .max f => Sys2Proof.Machine.execMax f s
  | .minu f => Sys2Proof.Machine.execMinu f s
  | .maxu f => Sys2Proof.Machine.execMaxu f s
  | .clz f => Sys2Proof.Machine.execClz f s
  | .popc f => Sys2Proof.Machine.execPopc f s
  | .lea f => Sys2Proof.Machine.execLea f s
  | .li f => Sys2Proof.Machine.execLi f s
  | .lis f => Sys2Proof.Machine.execLis f s
  | .cmp f => Sys2Proof.Machine.execCmp f s
  | .pand f => Sys2Proof.Machine.execPand f s
  | .por f => Sys2Proof.Machine.execPor f s
  | .pxor f => Sys2Proof.Machine.execPxor f s
  | .pnot f => Sys2Proof.Machine.execPnot f s
  | .sel f => Sys2Proof.Machine.execSel f s
  | .pmovRd f => Sys2Proof.Machine.execPmovRd f s
  | .pmovWr f => Sys2Proof.Machine.execPmovWr f s
  | .pmovSt f => Sys2Proof.Machine.execPmovSt f s
  | .fadd f => Sys2Proof.Machine.execFadd f s
  | .fsub f => Sys2Proof.Machine.execFsub f s
  | .fmul f => Sys2Proof.Machine.execFmul f s
  | .fma f => Sys2Proof.Machine.execFma f s
  | .fmin f => Sys2Proof.Machine.execFmin f s
  | .fmax f => Sys2Proof.Machine.execFmax f s
  | .fcmp f => Sys2Proof.Machine.execFcmp f s
  | .fcvt f => Sys2Proof.Machine.execFcvt f s
  | .br f => Sys2Proof.Machine.execBr f s
  | .jmp f => Sys2Proof.Machine.execJmp f s
  | .call f => Sys2Proof.Machine.execCall f s
  | .loop f st => Sys2Proof.Machine.execLoop f st s
  | .loopx f => Sys2Proof.Machine.execLoopx f s
  | .trap f => Sys2Proof.Machine.execTrap f s
  | .bkpt f => Sys2Proof.Machine.execBkpt f s
  | .ld f => Sys2Proof.Machine.execLd f s
  | .lds f => Sys2Proof.Machine.execLds f s
  | .st f => Sys2Proof.Machine.execSt f s
  | .ldsp f => Sys2Proof.Machine.execLdsp f s
  | .stsp f => Sys2Proof.Machine.execStsp f s
  | .atom f => Sys2Proof.Machine.execAtom f s
  | .acas f => Sys2Proof.Machine.execAcas f s
  | .fence f => Sys2Proof.Machine.execFence f s
  | .taglk f => Sys2Proof.Machine.execTaglk f s
  | .tagset f => Sys2Proof.Machine.execTagset f s
  | .tagclr f => Sys2Proof.Machine.execTagclr f s
  | .tagclrAll f => Sys2Proof.Machine.execTagclrAll f s
  | .cinvL1 f => Sys2Proof.Machine.execCinvL1 f s
  | .cinvWb f => Sys2Proof.Machine.execCinvWb f s
  | .cinvWbi f => Sys2Proof.Machine.execCinvWbi f s
  | .rsld f => Sys2Proof.Machine.execRsld f s
  | .rsst f => Sys2Proof.Machine.execRsst f s
  | .pfx f => Sys2Proof.Machine.execPfx f s
  | .enq f => Sys2Proof.Machine.execEnq f s
  | .rel f => Sys2Proof.Machine.execRel f s
  | .ringsetCfg f => Sys2Proof.Machine.execRingsetCfg f s
  | .ringsetDecl f => Sys2Proof.Machine.execRingsetDecl f s
  | .ringsetProd f => Sys2Proof.Machine.execRingsetProd f s
  | .ringsetCons f => Sys2Proof.Machine.execRingsetCons f s
  | .ringsetOwn f => Sys2Proof.Machine.execRingsetOwn f s
  | .ringsetReset f => Sys2Proof.Machine.execRingsetReset f s
  | .ringget f => Sys2Proof.Machine.execRingget f s
  | .semsig f => Sys2Proof.Machine.execSemsig f s
  | .semsigPeer f => Sys2Proof.Machine.execSemsigPeer f s
  | .semwait f => Sys2Proof.Machine.execSemwait f s
  | .tlwait f => Sys2Proof.Machine.execTlwait f s
  | .tlread f => Sys2Proof.Machine.execTlread f s
  | .lpatch f => Sys2Proof.Machine.execLpatch f s
  | .larm f => Sys2Proof.Machine.execLarm f s
  | .lstat f => Sys2Proof.Machine.execLstat f s
  | .dphase f => Sys2Proof.Machine.execDphase f s
  | .setdom f => Sys2Proof.Machine.execSetdom f s
  | .cstage f => Sys2Proof.Machine.execCstage f s
  | .cstat f => Sys2Proof.Machine.execCstat f s
  | .tspawn f => Sys2Proof.Machine.execTspawn f s
  | .tspawnb f => Sys2Proof.Machine.execTspawnb f s
  | .tcancel f => Sys2Proof.Machine.execTcancel f s
  | .treprio f => Sys2Proof.Machine.execTreprio f s
  | .tjoin f => Sys2Proof.Machine.execTjoin f s
  | .tquery f => Sys2Proof.Machine.execTquery f s
  | .tself f => Sys2Proof.Machine.execTself f s
  | .region f => Sys2Proof.Machine.execRegion f s
  | .nalloc f => Sys2Proof.Machine.execNalloc f s
  | .nfree f => Sys2Proof.Machine.execNfree f s
  | .nld f => Sys2Proof.Machine.execNld f s
  | .nst f => Sys2Proof.Machine.execNst f s
  | .nadd f => Sys2Proof.Machine.execNadd f s
  | .ncas f => Sys2Proof.Machine.execNcas f s
  | .nvloss f => Sys2Proof.Machine.execNvloss f s
  | .nbackup f => Sys2Proof.Machine.execNbackup f s
  | .nselect f => Sys2Proof.Machine.execNselect f s
  | .nkey f => Sys2Proof.Machine.execNkey f s
  | .nlink f => Sys2Proof.Machine.execNlink f s
  | .bfcfg f => Sys2Proof.Machine.execBfcfg f s
  | .bfstat f => Sys2Proof.Machine.execBfstat f s
  | .bfflush f => Sys2Proof.Machine.execBfflush f s
  | .kvalloc f => Sys2Proof.Machine.execKvalloc f s
  | .kvfree f => Sys2Proof.Machine.execKvfree f s
  | .kvlink f => Sys2Proof.Machine.execKvlink f s
  | .kvinvInv f => Sys2Proof.Machine.execKvinvInv f s
  | .kvinvVal f => Sys2Proof.Machine.execKvinvVal f s
  | .kvpin f => Sys2Proof.Machine.execKvpin f s
  | .kvunpin f => Sys2Proof.Machine.execKvunpin f s
  | .pfxhash f => Sys2Proof.Machine.execPfxhash f s
  | .pfxlook f => Sys2Proof.Machine.execPfxlook f s
  | .pfxins f => Sys2Proof.Machine.execPfxins f s
  | .pfxevict f => Sys2Proof.Machine.execPfxevict f s
  | .pfxevictAll f => Sys2Proof.Machine.execPfxevictAll f s
  | .pmcfg f => Sys2Proof.Machine.execPmcfg f s
  | .pmrd f => Sys2Proof.Machine.execPmrd f s
  | .pmclr f => Sys2Proof.Machine.execPmclr f s
  | .trmark f => Sys2Proof.Machine.execTrmark f s
  | .trctlWr f => Sys2Proof.Machine.execTrctlWr f s
  | .trctlRd f => Sys2Proof.Machine.execTrctlRd f s
  | .csrrd f => Sys2Proof.Machine.execCsrrd f s
  | .csrwr f => Sys2Proof.Machine.execCsrwr f s
  | .setview f => Sys2Proof.Machine.execSetview f s
  | .granclr f => Sys2Proof.Machine.execGranclr f s
  | .timeDev f => Sys2Proof.Machine.execTimeDev f s
  | .timeClk f => Sys2Proof.Machine.execTimeClk f s
  | .syscall f => Sys2Proof.Machine.execSyscall f s
  | .vadd f => Sys2Proof.Machine.execVadd f s
  | .vsub f => Sys2Proof.Machine.execVsub f s
  | .vmul f => Sys2Proof.Machine.execVmul f s
  | .vfma f => Sys2Proof.Machine.execVfma f s
  | .vmin f => Sys2Proof.Machine.execVmin f s
  | .vmax f => Sys2Proof.Machine.execVmax f s
  | .vabs f => Sys2Proof.Machine.execVabs f s
  | .vneg f => Sys2Proof.Machine.execVneg f s
  | .vcmp f => Sys2Proof.Machine.execVcmp f s
  | .vsel f => Sys2Proof.Machine.execVsel f s
  | .vclamp f => Sys2Proof.Machine.execVclamp f s
  | .viadd f => Sys2Proof.Machine.execViadd f s
  | .visub f => Sys2Proof.Machine.execVisub f s
  | .vimul f => Sys2Proof.Machine.execVimul f s
  | .vimin f => Sys2Proof.Machine.execVimin f s
  | .vimax f => Sys2Proof.Machine.execVimax f s
  | .viminu f => Sys2Proof.Machine.execViminu f s
  | .vimaxu f => Sys2Proof.Machine.execVimaxu f s
  | .vicmp f => Sys2Proof.Machine.execVicmp f s
  | .vsadd f => Sys2Proof.Machine.execVsadd f s
  | .vssub f => Sys2Proof.Machine.execVssub f s
  | .vmulsh f => Sys2Proof.Machine.execVmulsh f s
  | .vand f => Sys2Proof.Machine.execVand f s
  | .vor f => Sys2Proof.Machine.execVor f s
  | .vxor f => Sys2Proof.Machine.execVxor f s
  | .vshl f => Sys2Proof.Machine.execVshl f s
  | .vshr f => Sys2Proof.Machine.execVshr f s
  | .vsar f => Sys2Proof.Machine.execVsar f s
  | .vpopc f => Sys2Proof.Machine.execVpopc f s
  | .vcvt f => Sys2Proof.Machine.execVcvt f s
  | .vqnt f => Sys2Proof.Machine.execVqnt f s
  | .vdqnt f => Sys2Proof.Machine.execVdqnt f s
  | .vpermb f => Sys2Proof.Machine.execVpermb f s
  | .vnib f => Sys2Proof.Machine.execVnib f s
  | .vbcast f => Sys2Proof.Machine.execVbcast f s
  | .vshuf f => Sys2Proof.Machine.execVshuf f s
  | .vcomp f => Sys2Proof.Machine.execVcomp f s
  | .viota f => Sys2Proof.Machine.execViota f s
  | .vrsum f => Sys2Proof.Machine.execVrsum f s
  | .vrmax f => Sys2Proof.Machine.execVrmax f s
  | .vrmin f => Sys2Proof.Machine.execVrmin f s
  | .vrargmax f => Sys2Proof.Machine.execVrargmax f s
  | .vscan f => Sys2Proof.Machine.execVscan f s
  | .vmaskb f => Sys2Proof.Machine.execVmaskb f s
  | .vexp2 f => Sys2Proof.Machine.execVexp2 f s
  | .vlog2 f => Sys2Proof.Machine.execVlog2 f s
  | .vrcp f => Sys2Proof.Machine.execVrcp f s
  | .vrsq f => Sys2Proof.Machine.execVrsq f s
  | .verf f => Sys2Proof.Machine.execVerf f s
  | .vtanh f => Sys2Proof.Machine.execVtanh f s
  | .vsigm f => Sys2Proof.Machine.execVsigm f s
  | .vld f => Sys2Proof.Machine.execVld f s
  | .vst f => Sys2Proof.Machine.execVst f s
  | .vldr f => Sys2Proof.Machine.execVldr f s
  | .vstr f => Sys2Proof.Machine.execVstr f s
  | .vgath f => Sys2Proof.Machine.execVgath f s
  | .vscat f => Sys2Proof.Machine.execVscat f s
  | .vzero f => Sys2Proof.Machine.execVzero f s
  | .vmov f => Sys2Proof.Machine.execVmov f s
  | .madd f => Sys2Proof.Machine.execMadd f s
  | .msub f => Sys2Proof.Machine.execMsub f s
  | .mmul f => Sys2Proof.Machine.execMmul f s
  | .mscl f => Sys2Proof.Machine.execMscl f s
  | .maff f => Sys2Proof.Machine.execMaff f s
  | .mfrom f => Sys2Proof.Machine.execMfrom f s
  | .msplit f => Sys2Proof.Machine.execMsplit f s
  | .mcol f => Sys2Proof.Machine.execMcol f s
  | .mchk f => Sys2Proof.Machine.execMchk f s
  | .mrelu f => Sys2Proof.Machine.execMrelu f s
  | .msigm f => Sys2Proof.Machine.execMsigm f s
  | .mexp f => Sys2Proof.Machine.execMexp f s
  | .mtanh f => Sys2Proof.Machine.execMtanh f s
  | .mmax2 f => Sys2Proof.Machine.execMmax2 f s
  | .mlease f => Sys2Proof.Machine.execMlease f s
  | .mcfg f => Sys2Proof.Machine.execMcfg f s
  | .mbld f => Sys2Proof.Machine.execMbld f s
  | .mbcsr f => Sys2Proof.Machine.execMbcsr f s
  | .mstr f => Sys2Proof.Machine.execMstr f s
  | .mstrm f => Sys2Proof.Machine.execMstrm f s
  | .maccld f => Sys2Proof.Machine.execMaccld f s
  | .mzero f => Sys2Proof.Machine.execMzero f s
  | .mdrain f => Sys2Proof.Machine.execMdrain f s
  | .mepi f => Sys2Proof.Machine.execMepi f s
  | .mheaprd f => Sys2Proof.Machine.execMheaprd f s
  | .mheapclr f => Sys2Proof.Machine.execMheapclr f s
  | .msave f => Sys2Proof.Machine.execMsave f s
  | .mchainOpen f => Sys2Proof.Machine.execMchainOpen f s
  | .ccopy f => Sys2Proof.Machine.execCcopy f s
  | .cfill f => Sys2Proof.Machine.execCfill f s
  | .cmcast f => Sys2Proof.Machine.execCmcast f s
  | .cplace f => Sys2Proof.Machine.execCplace f s
  | .csched f => Sys2Proof.Machine.execCsched f s
  | .cbarset f => Sys2Proof.Machine.execCbarset f s
  | .cchan f => Sys2Proof.Machine.execCchan f s
  | .cchanOff f => Sys2Proof.Machine.execCchanOff f s
  | .aqcfg f => Sys2Proof.Machine.execAqcfg f s
  | .aqld f => Sys2Proof.Machine.execAqld f s
  | .aqstop f => Sys2Proof.Machine.execAqstop f s
  | .rld f => Sys2Proof.Machine.execRld f s
  | .rst f => Sys2Proof.Machine.execRst f s
  | .ratom f => Sys2Proof.Machine.execRatom f s
  | .rcas f => Sys2Proof.Machine.execRcas f s
  | .rmcst f => Sys2Proof.Machine.execRmcst f s
  | .xsend f => Sys2Proof.Machine.execXsend f s
  | .xpost f => Sys2Proof.Machine.execXpost f s
  | .xcancel f => Sys2Proof.Machine.execXcancel f s
  | .xcancelRecv f => Sys2Proof.Machine.execXcancelRecv f s
  | .xresume f => Sys2Proof.Machine.execXresume f s
  | .rfence f => Sys2Proof.Machine.execRfence f s
  | .ret => Sys2Proof.Machine.execRet s
  | .nop => Sys2Proof.Machine.execNop s
  | .uiret => Sys2Proof.Machine.execUiret s
  | .waiti => Sys2Proof.Machine.execWaiti s
  | .tdone => Sys2Proof.Machine.execTdone s
  | .tyield => Sys2Proof.Machine.execTyield s
  | .bcmsnap => Sys2Proof.Machine.execBcmsnap s
  | .syscallReply => Sys2Proof.Machine.execSyscallReply s
  | .syscallTimeout => Sys2Proof.Machine.execSyscallTimeout s
  | .interlockedResultWrite => Sys2Proof.Machine.execInterlockedResultWrite s
  | .userInterruptEntry => Sys2Proof.Machine.execUserInterruptEntry s
  | .mfree => Sys2Proof.Machine.execMfree s
  | .mbsq => Sys2Proof.Machine.execMbsq s
  | .mbswap => Sys2Proof.Machine.execMbswap s
  | .mchainClose => Sys2Proof.Machine.execMchainClose s
  | .leaseRunGrant => Sys2Proof.Machine.execLeaseRunGrant s
  | .leaseRunEnd => Sys2Proof.Machine.execLeaseRunEnd s
  | .currentGrant => Sys2Proof.Machine.execCurrentGrant s
  | .budgetRebalance => Sys2Proof.Machine.execBudgetRebalance s
  | .cstop => Sys2Proof.Machine.execCstop s
  | .scheduleEntryFire => Sys2Proof.Machine.execScheduleEntryFire s
  | .aqStreamEntry => Sys2Proof.Machine.execAqStreamEntry s
  | .readPacket => Sys2Proof.Machine.execReadPacket s
  | .readDataPacket => Sys2Proof.Machine.execReadDataPacket s
  | .writePacket => Sys2Proof.Machine.execWritePacket s
  | .writeAckPacket => Sys2Proof.Machine.execWriteAckPacket s
  | .atomicPacket => Sys2Proof.Machine.execAtomicPacket s
  | .atomicResultPacket => Sys2Proof.Machine.execAtomicResultPacket s
  | .multicastWritePacket => Sys2Proof.Machine.execMulticastWritePacket s
  | .pullRequestPacket => Sys2Proof.Machine.execPullRequestPacket s
  | .tokenPacket => Sys2Proof.Machine.execTokenPacket s
  | .pullDataPacket => Sys2Proof.Machine.execPullDataPacket s
  | .messageCancelPacket => Sys2Proof.Machine.execMessageCancelPacket s
  | .resumePacket => Sys2Proof.Machine.execResumePacket s
  | .messageStatusPacket => Sys2Proof.Machine.execMessageStatusPacket s
  | .intervalClosePacket => Sys2Proof.Machine.execIntervalClosePacket s
  | .intervalResultPacket => Sys2Proof.Machine.execIntervalResultPacket s
  | .nodeOperationPacket => Sys2Proof.Machine.execNodeOperationPacket s
  | .nodeResultPacket => Sys2Proof.Machine.execNodeResultPacket s
  | .errorPacket => Sys2Proof.Machine.execErrorPacket s
  | .reorderGapTimeout => Sys2Proof.Machine.execReorderGapTimeout s
  | .flitReceive => Sys2Proof.Machine.execFlitReceive s
  | .laneTrainingLoss => Sys2Proof.Machine.execLaneTrainingLoss s
  | .portRetrain => Sys2Proof.Machine.execPortRetrain s
  | .intervalTimerExpire => Sys2Proof.Machine.execIntervalTimerExpire s
  | .intervalShortTimeout => Sys2Proof.Machine.execIntervalShortTimeout s
  | .tokenGrant => Sys2Proof.Machine.execTokenGrant s
  | .tokenExpire => Sys2Proof.Machine.execTokenExpire s
  | .orphanTimeout => Sys2Proof.Machine.execOrphanTimeout s
  | .dispatchTask => Sys2Proof.Machine.execDispatchTask s
  | .stealExchange => Sys2Proof.Machine.execStealExchange s
  | .segmentRefill => Sys2Proof.Machine.execSegmentRefill s
  | .agingTick => Sys2Proof.Machine.execAgingTick s
  | .launchStart => Sys2Proof.Machine.execLaunchStart s
  | .launchComplete => Sys2Proof.Machine.execLaunchComplete s
  | .tttFire => Sys2Proof.Machine.execTttFire s
  | .heldEffectDrain => Sys2Proof.Machine.execHeldEffectDrain s
  | .joinDecrement => Sys2Proof.Machine.execJoinDecrement s
  | .walkerVisitNode => Sys2Proof.Machine.execWalkerVisitNode s
  | .batchWindowExpire => Sys2Proof.Machine.execBatchWindowExpire s
  | .batchArm => Sys2Proof.Machine.execBatchArm s
  | .engineEntryComplete => Sys2Proof.Machine.execEngineEntryComplete s
  | .engineWatchdogExpire => Sys2Proof.Machine.execEngineWatchdogExpire s
  | .watermarkWatchdog => Sys2Proof.Machine.execWatermarkWatchdog s
  | .hostAtomicCompletion => Sys2Proof.Machine.execHostAtomicCompletion s
  | .tileFaultAbort => Sys2Proof.Machine.execTileFaultAbort s
  | .tileResidentRequeue => Sys2Proof.Machine.execTileResidentRequeue s
  | .coreStopFault => Sys2Proof.Machine.execCoreStopFault s
  | .faultPolicyApply => Sys2Proof.Machine.execFaultPolicyApply s
  | .faultHookReturn => Sys2Proof.Machine.execFaultHookReturn s
  | .faultHookTimeout => Sys2Proof.Machine.execFaultHookTimeout s
  | .preemptSlot => Sys2Proof.Machine.execPreemptSlot s
  | .restoreSlot => Sys2Proof.Machine.execRestoreSlot s
  | .worldSwitch => Sys2Proof.Machine.execWorldSwitch s
  | .domainPhaseEnd => Sys2Proof.Machine.execDomainPhaseEnd s
  | .traceSample => Sys2Proof.Machine.execTraceSample s
  | .genLoopIteration => Sys2Proof.Machine.execGenLoopIteration s
  | .genLoopSampleCommit => Sys2Proof.Machine.execGenLoopSampleCommit s
  | .commitPredicateReturn => Sys2Proof.Machine.execCommitPredicateReturn s
  | .predicateTimeout => Sys2Proof.Machine.execPredicateTimeout s
  | .invctlWrite => Sys2Proof.Machine.execInvctlWrite s
  | .invalidationComplete => Sys2Proof.Machine.execInvalidationComplete s
  | .contextBlockWrite => Sys2Proof.Machine.execContextBlockWrite s
  | .kvpagesWrite => Sys2Proof.Machine.execKvpagesWrite s
  | .debugStopRequest => Sys2Proof.Machine.execDebugStopRequest s
  | .debugStopRelease => Sys2Proof.Machine.execDebugStopRelease s
  | .bar0RegisterWrite => Sys2Proof.Machine.execBar0RegisterWrite s
  | .packageNumberWrite => Sys2Proof.Machine.execPackageNumberWrite s
  | .fabricTrained => Sys2Proof.Machine.execFabricTrained s
  | .packageReset => Sys2Proof.Machine.execPackageReset s
  | .firmwareRecoveryLoad => Sys2Proof.Machine.execFirmwareRecoveryLoad s
  | .firmwareUpdateActivate => Sys2Proof.Machine.execFirmwareUpdateActivate s
  | .dieOffered => Sys2Proof.Machine.execDieOffered s
  | .dieCharacterised => Sys2Proof.Machine.execDieCharacterised s
  | .timeSyncSample => Sys2Proof.Machine.execTimeSyncSample s
  | .patrolScrub => Sys2Proof.Machine.execPatrolScrub s
  | .attestationRequest => Sys2Proof.Machine.execAttestationRequest s
  | .hostBar2Access => Sys2Proof.Machine.execHostBar2Access s
  | .packetDetour => Sys2Proof.Machine.execPacketDetour s
  | .clockEventOverflow => Sys2Proof.Machine.execClockEventOverflow s

end Sys2Proof.Machine
end

