-- ==== Sys2Proof/Machine/Serve.lean ====
section
/-! DEFINITION. What comes first of the things that could happen in one clock: the streams of a slot that wait on one semaphore
(02 R36, 07 R197), the requests that reach one home (06 R172, 16 R422), the arms of a record (07 R209, R210); and the next
turn, taken in that order. -/

namespace Sys2Proof.Machine
open Sys2Proof

/-! The order of one clock -/

/-- What is served before what in one clock (log entry 75): a counter is read as it stood (R467); engine entries complete, so that
the next may fire in that clock, behind the CSRWR words of their slot, whose clears they survive (R82, R246); looks at a launch
record (R209); the arms of the time-triggered table and of the batch former, and dispatches (R210, R422); reads, atomics,
revocations, writes (R172, R422); the walker; starts and completions of launches (R209) and of matrix runs; grants of current,
when all requests of the clock are in (R477), and the copies that they let go on (R317); the control core, the management core and the host (R172); counters are configured
and cleared when the clock's events are counted (R467). -/
inductive Kind where
  | look | done | record | table | former | read | atomic | revoke | write | walker | launch | current | heavy | outside | counter
  deriving DecidableEq, Repr

def Kind.num : Kind → Nat
  | .look => 0
  | .done => 1
  | .record => 2
  | .table => 3
  | .former => 4
  | .read => 5
  | .atomic => 6
  | .revoke => 7
  | .write => 8
  | .walker => 9
  | .launch => 10
  | .current => 11
  | .heavy => 12
  | .outside => 13
  | .counter => 14

/-- A place in the order: the kind, then core, slot and stream (R172). What comes from no core of the package stands behind
them. -/
def Kind.at (k : Kind) (place : Nat) : Nat := 8192 * k.num + place

/-- The place of a stream of a slot. -/
def placeOf (u : Nat) (m : Stream) : Nat := 8 * u + m.num

/-- The place of what comes from outside the cores. -/
def placeOut : Nat := 4096

/-- All that a move does stands at one place of its kind. -/
def Kind.only (k : Kind) (place : Nat) : Option (Nat × Nat) := some (k.at place, k.at place)

/-- The open region of a slot may close by itself, since its place is full (R162, R163). -/
def Slot.mayFill (sl : Slot) : Bool := min (sl.alloc.sbLen / 16) 512 ≤ sl.opened.length + sl.closed.length

/-- A control register of scope context (R124). -/
def ctxScope (n : Nat) : Bool := (0x010 ≤ n && n ≤ 0x013) || n = 0x016

/-- The kind of a drained entry. -/
def Effect.kind : Effect → Kind
  | .store .. | .nst .. | .rstore .. | .marker _ => .write
  | .cancel .. | .reprio .. => .revoke
  | _ => .atomic

/-- The copy of a slot has the current it asked for (R317). -/
def State.mayCopy (s : State) (u : Nat) (drain : Bool) : Bool :=
  s.hub.grants.any (fun g => g.key = copyKey u drain && g.issued)

/-- Where a move stands in the order of its clock: the least place it may be served at and the place behind which it leaves the
clock, two where it reads or acts first and then writes; none for a move that stands anywhere in its clock. -/
def State.placed (s : State) (i : Instr) : Option (Nat × Nat) :=
  let p := placeOf s.cur.u s.cur.strm
  let sl := s.slot s.cur.u
  let o := s.occ
  let unit := placeOf (o.a % 512) (Stream.ofNum (o.b % 4 + 1))
  let reads : Option (Nat × Nat) := Kind.only .read p
  let both (k : Kind) (p : Nat) : Option (Nat × Nat) := some (k.at (if k = .read then 8191 else p), Kind.at .write p)
  let closing : Option (Nat × Nat) := if sl.opened.isEmpty && sl.closed.isEmpty then Kind.only .atomic p else both .atomic p
  let holds : Option (Nat × Nat) := if sl.mayFill then both .atomic p else reads
  match i with
  | .pmrd _ | .trmark _ => Kind.only .look p
  | .traceSample => Kind.only .look (placeOf (o.a % 512) .seq)
  | .lpatch _ | .lstat _ => Kind.only .record p
  | .pmcfg _ | .pmclr _ => Kind.only .counter p
  | .ld _ | .lds _ | .ldsp _ | .rsld _ | .nld _ | .nselect _ | .nkey _ | .tquery _ | .bfstat _ | .csrrd _ => reads
  | .st _ => if s.prefix.space = 1 || s.prefix.dw then Kind.only .write p else if sl.mayFill then both .atomic p else both .read p
  | .csrwr f => Kind.only (if ctxScope (f.imm.toNat % 4096) then .write else .done) p
  | .stsp _ | .rsst _ | .enq _ | .cinvWb _ | .cinvWbi _ => Kind.only .write p
  | .atom f => if s.prefix.space = 1 then Kind.only .atomic p else if f.rd = 0 then holds else closing
  | .acas _ => if s.prefix.space = 1 then Kind.only .atomic p else closing
  | .nadd f => if f.rd = 0 then holds else closing
  | .nst _ | .nvloss _ | .nbackup _ | .nlink _ | .nfree _ | .tspawn _ | .tspawnb _ | .tcancel _ | .treprio _ | .tjoin _
  | .kvfree _ | .kvpin _ | .kvunpin _ | .kvlink _ | .kvinvInv _ | .kvinvVal _ | .pfxevict _ | .pfxevictAll _ | .semsigPeer _
  | .fence _ => holds
  | .larm _ | .nalloc _ | .ncas _ | .kvalloc _ | .pfxlook _ | .pfxins _ | .cstage _ | .dphase _ | .syscall _ | .region _
  | .bfflush _ | .tdone | .tyield => closing
  | .ccopy _ | .cfill _ | .cplace _ | .cmcast _ => if s.mayCopy s.cur.u s.cur.drain then Kind.only .heavy p else both .read p
  | .vadd _ | .vsub _ | .vmul _ | .vfma _ | .vld _ | .vldr _ | .vgath _ | .vst _ | .vstr _ | .vscat _
  | .mbld _ | .mbcsr _ | .mstr _ | .mstrm _ | .maccld _ | .mheaprd _ | .csched _ | .aqcfg _ | .aqld _ | .rld _ | .rst _ | .ratom _
  | .rcas _ | .rmcst _ | .xsend _ | .xpost _ => reads
  | .engineEntryComplete => Kind.only .done unit
  | .scheduleEntryFire =>
    let p := placeOf (o.a % 512) .copy
    if s.mayCopy (o.a % 512) false then Kind.only .heavy p else both .read p
  | .aqStreamEntry => Kind.only .read (placeOf (4 * (o.a % 128)) .acc)
  | .heldEffectDrain =>
    match (s.slot (o.a % 512)).closed with
    | h :: _ => Kind.only h.eff.kind (placeOf (o.a % 512) .seq)
    | [] => none
  | .hostAtomicCompletion => Kind.only .atomic (placeOf (o.a % 512) .seq)
  | .joinDecrement => match s.joins with | j :: _ => Kind.only .atomic (placeOf (j.u % 512) .seq) | [] => none
  | .readPacket => Kind.only .read placeOut
  | .atomicPacket | .nodeOperationPacket => Kind.only .atomic placeOut
  | .writePacket | .multicastWritePacket | .pullDataPacket => Kind.only .write placeOut
  | .tttFire => Kind.only .table placeOut
  | .batchWindowExpire | .batchArm | .dispatchTask | .restoreSlot | .stealExchange => Kind.only .former placeOut
  | .walkerVisitNode => Kind.only .walker placeOut
  | .launchStart | .launchComplete | .leaseRunGrant => Kind.only .launch placeOut
  | .currentGrant => Kind.only .current placeOut
  | .hostBar2Access | .bar0RegisterWrite | .contextBlockWrite | .kvpagesWrite | .invctlWrite | .genLoopIteration
  | .genLoopSampleCommit | .commitPredicateReturn | .faultHookReturn | .syscallReply | .worldSwitch => Kind.only .outside placeOut
  | _ => none

/-- The clock in which an engine entry is to complete, or a streaming one to move its next ring entry. -/
def State.entryAt (s : State) : Nat :=
  let drain := bitOf s.occ.b 2
  match (s.view (s.occ.a % 512) drain).eng.find? (fun (x : Nat × InFlight) => x.1 == s.occ.b % 4) with
  | some (_, f) => f.clock + f.delay + (if f.stream && !f.advances.isEmpty then 0 else f.lat)
  | none => 0

/-- A move in the clock in which it happens. -/
def State.timed (s : State) (i : Instr) : State :=
  match i with
  | .engineEntryComplete => { s with clock := max s.clock s.entryAt }
  | _ => s

/-- How far the order of the clock has come. -/
def State.reached (s : State) : Nat := if s.rankAt = s.clock then s.rank else 0

/-- Where a move stands in its clock: one without a place of its own behind the reads of counters and before the words that
configure and clear them, since it may count events (R467). -/
def State.span (s : State) (i : Instr) : Nat × Nat :=
  (s.placed i).getD (Kind.counter.at 0 - 1, max s.reached (Kind.done.at 0))

/-- A move whose place in the order of its clock has not passed is made, and the clock is that far; another waits for the next
clock. -/
def State.inOrder (s old : State) (tn : Turn) (i : Instr) : Ready :=
  let s := s.timed i
  if s.reached ≤ (s.span i).1 then .run i { s with rank := (s.span i).2, rankAt := s.clock }
  else .done { old with agenda := tn :: old.agenda, clock := s.clock + 1 }

/-! Streams of a slot that wait on one semaphore -/

/-- The semaphore that a word takes from. -/
def semTaken (i : Instr) (s : State) : Option Nat :=
  match i with
  | .semwait f => some (f.imm.toNat % 64)
  | _ => match s.cur.ctl.wait with
    | .sem n => some n.toNat
    | _ => none

/-- What a stream would execute now, the word of slot `u` and its semaphore `n`, and it could: the word takes from the
semaphore. -/
def State.takes (s : State) (u : Nat) (drain : Bool) (n : Nat) (r : Ready) : Bool :=
  match r with
  | .done _ => false
  | .run i t =>
    t.clock = s.clock && t.cur.u = u && t.cur.drain = drain && semTaken i t = some n
      && (match exec i t with
        | .next x => (x.view u drain).sem n ≠ (t.view u drain).sem n
        | _ => false)

/-- The streams before engine `e`, in the order in which they are served (R36). -/
def turnsBefore (c e : Nat) : List Turn := .seq c :: (List.range e).map (fun k => .engine c k)

/-- What a turn comes to. -/
def State.turn (s : State) (tn : Turn) : Ready :=
  match tn with
  | .seq c => s.turnSeq c
  | .engine c e => s.turnEng c e
  | .event i o => .run i { s with occ := o }
  | .pass n => .done { s with clock := s.clock + n }

/-- The turn that comes first: an earlier stream of the slot that takes, in the same clock, from the semaphore that the word of an
engine waits on, is served before it (R36, R197). -/
def State.firstOf (s : State) (tn : Turn) : Turn :=
  match tn with
  | .engine c e =>
    match s.turn tn with
    | .run i t =>
      match semTaken i t with
      | some n =>
        let s := { s with clock := t.clock }
        ((turnsBefore c e).find? (fun b => s.takes t.cur.u t.cur.drain n (s.turn b))).getD tn
      | none => tn
    | .done _ => tn
  | _ => tn

/-! The next turn -/

/-- A turn with its place in the order of its clock. -/
def State.serve (s : State) (tn : Turn) : Ready :=
  let b := s.firstOf tn
  let back (x : State) : State := if b = tn then x else { x with agenda := tn :: x.agenda }
  match s.turn b with
  | .done t => .done (back t)
  | .run i t => (back t).inOrder (back s) b i

/-- The next turn is taken: it is done, or an instruction is to be executed. The second word of an issue group comes before
anything else (R225). -/
def State.prepare (s : State) : Ready :=
  match s.mate with
  | some (u, d) => s.turnMate u d
  | none =>
    match s.agenda with
    | tn :: rest => { s with agenda := rest }.serve tn
    | [] => { s with tick := s.tick + 1 }.serve (freeMove s.tick)

end Sys2Proof.Machine
end

