-- ==== Sys2Proof/Machine/Step.lean ====
section
/-! DEFINITION. One step of the package: the next turn is taken, and what it calls for is executed; and the placing of
one instruction where the next step fetches it. -/

namespace Sys2Proof.Machine
open Sys2Proof

/-- One step. -/
def step (s : State) : Host.Outcome State Fault Refusal :=
  match s.prepare with
  | .done t => .next t
  | .run i t => exec i t

/-- The slot of core 0 that the next sequencer turn issues from, made free to issue: it holds a task, nothing holds it,
and it stands outside loops and handlers' calls. -/
def Slot.clear (sl : Slot) (w0 w1 : Nat) : Slot :=
  let pc := if sl.pc / 8 < 4094 then sl.pc / 8 * 8 else 0
  { sl with
    task := some sl.tk
    hold := .none
    causes := []
    faults := []
    owed := []
    pfx := none
    pc := pc
    seqLen := 4096
    loops := []
    estage := 1
    csr := { sl.csr with uipend := 0 }
    overlay := Tbl.put (Tbl.put sl.overlay (pc / 8) w0) (pc / 8 + 1) w1 }

/-- The instruction with these bits, put where step fetches its next one (log entry 14): a sequencer word in the overlay
of the slot that core 0 issues from next, at its PC; an engine word at the head of slot 0's command ring. -/
def State.withFetchWord (s : State) (nbits w : Nat) : State :=
  let st := tableStream nbits w
  let s := { s with mate := none, rank := 0 }.modCore 0 (fun c => { c with stopped := none, raised := none })
  if st = .seq then
    let u := (s.pickSlot 0).getD 0
    { s.modSlot u (fun sl => sl.clear (fld w 0 64) (if nbits = 72 then 0 else fld w 64 64)) with agenda := [.seq 0] }
  else
    let e := engNum st
    let s := s.modSlot 0 (fun sl => { sl with
      task := some sl.tk
      drain := none
      hold := .none
      causes := []
      faults := []
      owed := []
      crings := Tbl.put sl.crings e { Ring.none with logn := 1, prod := 1 }
      eng := Tbl.del sl.eng e
      engNext := Tbl.del sl.engNext e })
    let a := (s.slot 0).alloc.spBase
    let s := s.modCore 0 (fun c => { c with
      lastEng := Tbl.del c.lastEng e, engFree := Tbl.del c.engFree e, scratch := c.scratch.setNum a 8 (fld w 0 64) })
    { s with agenda := [.engine 0 e] }

end Sys2Proof.Machine
end

