-- ==== Sys2Proof/Safety.lean ====
section
/-! DEFINITION. The terms that statements about the machine are made in: what of a state a word leaves alone, when a
sequencer word issues unhindered, what a completed word leaves, and runs that go on. -/

namespace Sys2Proof.Machine
open Sys2Proof

/-- A step that goes on. -/
def State.goesOn (s : State) : Prop := ∃ t, step s = .next t

/-- A core without its issue bookkeeping and its event counters: what the words of other slots see of it. -/
def CoreSt.quiet (c : CoreSt) : CoreSt :=
  { c with lastSlot := 0, lastIssue := 0, ctrs := [], cfgs := [] }

/-- The hub without its trace buffers, event counters and counter interrupts. -/
def Hub.quiet (h : Hub) : Hub :=
  { h with msix := [], traces := [], trbptr := [], trbdrop := [], slcctr := [], slccfg := [], ovfs := [], snaps := [] }

/-- Everything but the slots and the cores, without the trace buffers, the counters, the count of free values used and what the
order of one clock turns on: every memory, every context, the fabric, the queues, the arrays. -/
def State.rest (s : State) : State :=
  { s with slots := [], cores := [], hub := s.hub.quiet, tick := 0, mate := none, rank := 0, rankAt := 0 }

/-- A slot without the general registers, the predicates, and what every word moves: PC, loop stack, results in flight,
the prefix, and the places a waiting word stands in. What is left are the control registers, semaphores, timelines,
barriers, channels, rings, allocations, the open and the closed regions, the fired entries and the task. -/
def Slot.frame (sl : Slot) : Slot :=
  { sl with
    g := [], preds := 0, pc := 0, loops := [], estage := 0, pend := [], nextIssue := 0, pfx := none, npc := none
    inHand := none, closing := false, wm := [] }

/-- The word in hand issues unhindered: it has no wait byte, its slot has no result in flight, and no trap or redirect
is left over. -/
structure State.Issues (s : State) : Prop where
  wait : s.cur.ctl.wait = .none
  pend : (s.slot s.cur.u).pend = []
  latch : (s.slot s.cur.u).latch = none
  npc : (s.slot s.cur.u).npc = none

/-- The PC and the loop stack after a word that does not redirect, whose next place is `p` (R93, R114, R122). -/
def Slot.movesTo (sl : Slot) (p : Nat) (pc : Nat) (loops : List LoopRec) : Prop :=
  if sl.csr.uiact then pc = p ∧ loops = sl.loops else pc = (loopEnd p sl.loops).1 ∧ loops = (loopEnd p sl.loops).2.1

/-- `t` is `s` with the word in hand completed, wherever its PC has gone: the slot holds the general registers `g` and the
predicates `p` from `lat` clocks on, and nothing else differs but the PC and the loop stack, counters, traces and results in
flight. For a word that does more than write registers, `s` is the state with that effect made. -/
structure WordKeeps (s t : State) (lat : Nat) (g : Nat → Word) (p : Nat → Bool) : Prop where
  rest : t.rest = s.rest
  cores : ∀ c, (t.core c).quiet = (s.core c).quiet
  others : ∀ v, v ≠ s.cur.u → t.slot v = s.slot v
  frame : (t.slot s.cur.u).frame = (s.slot s.cur.u).frame
  gregs : ∀ n, n < 64 → ((t.slot s.cur.u).settle (s.clock + lat)).greg n = g n
  preds : ∀ n, n < 8 → ((t.slot s.cur.u).settle (s.clock + lat)).pred n = p n

/-- The word has completed without a redirect: the PC has gone on to `next`. -/
def WordDone (s t : State) (lat : Nat) (g : Nat → Word) (p : Nat → Bool) (next : Nat) : Prop :=
  WordKeeps s t lat g p ∧ (s.slot s.cur.u).movesTo next (t.slot s.cur.u).pc (t.slot s.cur.u).loops

/-- The word has completed with a redirect: the PC is at `target`, with these loops left, and the slot issues again three
clocks later at the earliest (R37). -/
def WordJumps (s t : State) (lat : Nat) (g : Nat → Word) (p : Nat → Bool) (target : Nat) (loops : List LoopRec) : Prop :=
  WordKeeps s t lat g p ∧ (t.slot s.cur.u).pc = target ∧ (t.slot s.cur.u).loops = loops
    ∧ s.clock + 3 ≤ (t.slot s.cur.u).nextIssue

/-- A closing word's region closes and drains without a wait or a trap: `c` is the state in which the word then acts
(R146). -/
structure State.Closes (s c : State) : Prop where
  slow : s.slowDrain s.cur.u = false
  closed : c = s.closeFor s.cur.u
  latch : (c.slot s.cur.u).latch = none
  pend : (c.slot s.cur.u).pend = []
  npc : (c.slot s.cur.u).npc = none
  inHand : (c.slot s.cur.u).inHand = none
  cur : c.cur = s.cur
  clock : c.clock = s.clock

/-- `t` is `m` with the closing word in hand completed: as `WordDone`, and the open region now starts at the word's
successor, with what the slot then holds as its live-ins (R146, R159). -/
structure ClosingDone (m t : State) (lat : Nat) (g : Nat → Word) (p : Nat → Bool) (next : Nat) : Prop where
  rest : t.rest = m.rest
  cores : ∀ c, (t.core c).quiet = (m.core c).quiet
  others : ∀ v, v ≠ m.cur.u → t.slot v = m.slot v
  frame : (t.slot m.cur.u).frame = { (m.slot m.cur.u).frame with
    region := { (m.slot m.cur.u).region with pc := (t.slot m.cur.u).pc, live := (t.slot m.cur.u).capture } }
  gregs : ∀ n, n < 64 → ((t.slot m.cur.u).settle (m.clock + lat)).greg n = g n
  preds : ∀ n, n < 8 → ((t.slot m.cur.u).settle (m.clock + lat)).pred n = p n
  moves : (m.slot m.cur.u).movesTo next (t.slot m.cur.u).pc (t.slot m.cur.u).loops

/-- The word in hand is an engine entry of its slot's own task that fires unhindered: it has no wait byte, its engine holds
no other entry of the slot, the engine may fire in this clock, and, in the vector stream, its long unit is free. -/
structure State.EngineFree (s : State) : Prop where
  wait : s.cur.ctl.wait = .none
  own : s.cur.drain = false
  idle : (s.slot s.cur.u).eng.find? (fun x => x.1 == engNum s.cur.strm) = none
  free : Tbl.get 0 (s.core (coreOf s.cur.u)).engFree (engNum s.cur.strm) ≤ s.clock
  long : engNum s.cur.strm = 0 → (s.core (coreOf s.cur.u)).longFree ≤ s.clock

/-- A core without what a fire moves: the engines' turns and clocks, and the counters. -/
def CoreSt.unfired (c : CoreSt) : CoreSt :=
  { c with
    lastSlot := 0, lastIssue := 0, lastEng := [], engFree := [], longFree := 0, bcm := [], ctrs := [], cfgs := [] }

/-- `t` is `s` with the entry in hand fired: it stands in its engine as `f` says until it completes, and nothing else
differs but the engines' turns and clocks, what the entry waited for, counters and traces. -/
structure EntryFires (s t : State) (f : InFlight) : Prop where
  rest : t.rest = s.rest
  cores : ∀ c, (t.core c).unfired = (s.core c).unfired
  others : ∀ v, v ≠ s.cur.u → t.slot v = s.slot v
  slot : ∃ n, t.slot s.cur.u = { s.slot s.cur.u with
    eng := Tbl.put (s.slot s.cur.u).eng (engNum s.cur.strm) f, engNext := n
    wm := (s.slot s.cur.u).wm.filter (fun w => w.key ≠ s.cur.key) }

/-- The general registers of the word's slot with register `rd` replaced; writes to g0 are discarded (R41). -/
def State.gWith (s : State) (rd : BitVec 6) (v : Word) : Nat → Word :=
  fun n => if n = rd.toNat ∧ n ≠ 0 then v else (s.slot s.cur.u).greg n

/-- The predicates of the word's slot with predicate `pd` replaced; writes to p0 are discarded (R41). -/
def State.pWith (s : State) (pd : Nat) (v : Bool) : Nat → Bool :=
  fun n => if n = pd ∧ n ≠ 0 then v else (s.slot s.cur.u).pred n

end Sys2Proof.Machine
end

