-- ==== Sys2Proof/Certificates/Slice0/Obligations.lean ====
section
/-! DEFINITION. The statements made of the model, one `def Obligations.<Name> : Prop` each, with the terms they are made
in. Helper definitions restate a rule of the spec; they call no meaning. -/

namespace Sys2Proof.Claim
open Sys2Proof Sys2Proof.Machine

/-! Terms -/

/-- A general register of the slot of the word in hand, by its field (R41: g0 reads as zero). -/
def gr (s : State) (n : BitVec 6) : Word := (s.slot s.cur.u).greg n.toNat

/-- A predicate of the slot of the word in hand (R41: p0 reads as true; field values above 7 name n mod 8, refused by the
decoder). -/
def pr (s : State) (n : BitVec 6) : Bool := (s.slot s.cur.u).pred (n.toNat % 8)

/-- The second operand of an S3 word with an immediate form (R103). -/
def srcB (s : State) (f : S3) : Word := if f.i then BitVec.ofInt 64 (sint 17 f.funct.toNat) else gr s f.rb

/-- The predicates of the word's slot as they are. -/
def preds (s : State) : Nat → Bool := (s.slot s.cur.u).pred

/-- The general registers of the word's slot as they are. -/
def gregs (s : State) : Nat → Word := (s.slot s.cur.u).greg

/-- The byte after the word in hand. -/
def after (s : State) : Nat := (s.slot s.cur.u).pc + s.cur.len

/-! The integer group (R103 to R106) -/

/-- The result of a word of two operands, and the clocks from which it is seen (R96, R103). -/
def intWord : Instr → Option (S3 × (Word → Word → Word) × Nat)
  | .add f => some (f, fun a b => a + b, 1)
  | .sub f => some (f, fun a b => a - b, 1)
  | .mul f => some (f, fun a b => a * b, 3)
  | .mulh f => some (f, fun a b => BitVec.ofInt 64 (a.toInt * b.toInt / 2 ^ 64), 3)
  | .mulhu f => some (f, fun a b => BitVec.ofNat 64 (a.toNat * b.toNat / 2 ^ 64), 3)
  | .and f => some (f, fun a b => a &&& b, 1)
  | .or f => some (f, fun a b => a ||| b, 1)
  | .xor f => some (f, fun a b => a ^^^ b, 1)
  | .shl f => some (f, fun a b => a <<< (b.toNat % 64), 1)
  | .shr f => some (f, fun a b => a >>> (b.toNat % 64), 1)
  | .sar f => some (f, fun a b => a.sshiftRight (b.toNat % 64), 1)
  | .rol f => some (f, fun a b => a.rotateLeft (b.toNat % 64), 1)
  | .min f => some (f, fun a b => if a.toInt ≤ b.toInt then a else b, 1)
  | .max f => some (f, fun a b => if a.toInt ≤ b.toInt then b else a, 1)
  | .minu f => some (f, fun a b => if a.toNat ≤ b.toNat then a else b, 1)
  | .maxu f => some (f, fun a b => if a.toNat ≤ b.toNat then b else a, 1)
  | _ => none

/-- The result of a division word, without the corner cases of R103. -/
def divWord : Instr → Option (S3 × (Word → Word → Word))
  | .div f => some (f, fun a b => BitVec.ofInt 64 (a.toInt.tdiv b.toInt))
  | .divu f => some (f, fun a b => BitVec.ofNat 64 (a.toNat / b.toNat))
  | .rem f => some (f, fun a b => BitVec.ofInt 64 (a.toInt.tmod b.toInt))
  | .remu f => some (f, fun a b => BitVec.ofNat 64 (a.toNat % b.toNat))
  | _ => none

/-- The clocks of a division (R481): by the bit length of the dividend, or of its magnitude. -/
def divClocks (i : Instr) (a : Word) : Nat :=
  let n := match i with
    | .div _ | .rem _ => a.toInt.natAbs
    | _ => a.toNat
  let L := if n = 0 then 0 else Nat.log2 n + 1
  10 + (max L 8 - 8 + 1) / 2

/-- The result of a division by zero (R103): all ones for a quotient, the dividend for a remainder. -/
def divByZero : Instr → Word → Word
  | .div _, _ => 0xFFFFFFFFFFFFFFFF
  | .divu _, _ => 0xFFFFFFFFFFFFFFFF
  | _, a => a

/-- The result of a word of one register or none, with its destination (R104 to R106). -/
def moveWord (s : State) : Instr → Option (BitVec 6 × Word)
  | .clz f => some (f.rd, BitVec.ofNat 64 (64 - bitLen (gr s f.ra).toNat))
  | .popc f => some (f.rd, BitVec.ofNat 64 (popCount 64 (gr s f.ra).toNat))
  | .lea f => some (f.rd, BitVec.ofNat 64 ((gr s f.ra).toNat / 2 ^ 52 * 2 ^ 52
      + ((gr s f.ra).toNat % 2 ^ 52 + (BitVec.ofInt 64 (sint 24 f.imm.toNat)).toNat) % 2 ^ 52))
  | .li f => some (f.rd, BitVec.ofInt 64 (sint 30 f.imm.toNat))
  | .lis f => some (f.rd, (gr s f.rd <<< 30) ||| BitVec.ofNat 64 f.imm.toNat)
  | .sel f => some (f.rd,
      if (preds s (f.funct.toNat % 8) != f.funct.getLsbD 3) = true then gr s f.ra else gr s f.rb)
  | .pmovSt f => some (f.rd, (s.slot s.cur.u).estage.setWidth 64)
  | .pmovRd f => some (f.rd, BitVec.ofNat 64 (((List.range 8).map (fun k => if preds s k then 2 ^ k else 0)).sum))
  | _ => none

/-- The conditions of CMP (R107). -/
def cmpHolds (cc : Nat) (a b : Word) : Bool :=
  match cc with
  | 0 => a == b
  | 1 => a != b
  | 2 => decide (a.toInt < b.toInt)
  | 3 => decide (b.toInt ≤ a.toInt)
  | 4 => decide (a.toNat < b.toNat)
  | 5 => decide (b.toNat ≤ a.toNat)
  | 6 => a &&& b != 0
  | _ => a &&& b == 0

/-- The result of a word that writes one predicate, with the predicate (R107, R108). -/
def predWord (s : State) : Instr → Option (Nat × Bool)
  | .cmp f => some (f.rd.toNat % 8, cmpHolds (f.funct.toNat % 16) (gr s f.ra) (gr s f.rb))
  | .pand f => some (f.rd.toNat % 8, (pr s f.ra != f.funct.getLsbD 0) && (pr s f.rb != f.funct.getLsbD 1))
  | .por f => some (f.rd.toNat % 8, (pr s f.ra != f.funct.getLsbD 0) || (pr s f.rb != f.funct.getLsbD 1))
  | .pxor f => some (f.rd.toNat % 8, (pr s f.ra != f.funct.getLsbD 0) != (pr s f.rb != f.funct.getLsbD 1))
  | .pnot f => some (f.rd.toNat % 8, !pr s f.ra)
  | _ => none

/-! The scalar floating-point group (R109 to R111) -/

/-- The format a scalar float word works in. -/
def fltFmt (f : S3) : Fmt := match f.funct.toNat % 4 with | 0 => fp32 | 1 => bf16 | _ => fp16

/-- The rounding a scalar float word asks for (R109: 0 RNE, 1 RTZ). -/
def fltRnd (n : Nat) : RMode := if n = 1 then .rtz else .rne

/-- The value of a register in the word's format. -/
def fltArg (s : State) (f : S3) (n : BitVec 6) : XR := (fltFmt f).dec (gr s n).toNat

/-- The rounded result of an exact value in the word's format and rounding, with its flags. -/
def fltRound (f : S3) (x : XR) : Nat × Nat := (fltFmt f).rnd (fltRnd (f.funct.toNat / 4 % 4)) x

/-- The result of a scalar float word that writes a register: the destination, the value with its flags, and the clocks
from which it is seen (R96, R109, R111). -/
def fltWord (s : State) : Instr → Option (BitVec 6 × (Word × Nat) × Nat)
  | .fadd f => let r := fltRound f (XR.add (fltArg s f f.ra) (fltArg s f f.rb)); some (f.rd, (BitVec.ofNat 64 r.1, r.2), 4)
  | .fsub f => let r := fltRound f (XR.sub (fltArg s f f.ra) (fltArg s f f.rb)); some (f.rd, (BitVec.ofNat 64 r.1, r.2), 4)
  | .fmul f => let r := fltRound f (XR.mul (fltArg s f f.ra) (fltArg s f f.rb)); some (f.rd, (BitVec.ofNat 64 r.1, r.2), 4)
  | .fma f =>
    let r := fltRound f (XR.add (XR.mul (fltArg s f f.ra) (fltArg s f f.rb)) (fltArg s f f.rd))
    some (f.rd, (BitVec.ofNat 64 r.1, r.2), 5)
  | .fmin f =>
    let r := (fltFmt f).minMax false ((gr s f.ra).toNat % 2 ^ (fltFmt f).width) ((gr s f.rb).toNat % 2 ^ (fltFmt f).width)
    some (f.rd, (BitVec.ofNat 64 r.1, r.2), 4)
  | .fmax f =>
    let r := (fltFmt f).minMax true ((gr s f.ra).toNat % 2 ^ (fltFmt f).width) ((gr s f.rb).toNat % 2 ^ (fltFmt f).width)
    some (f.rd, (BitVec.ofNat 64 r.1, r.2), 4)
  | .fcvt f =>
    some (f.rd, cvtDst (f.funct.toNat / 8 % 8) (fltRnd (f.funct.toNat / 64 % 4)) (cvtSrc (f.funct.toNat % 8) (gr s f.ra)), 3)
  | _ => none

/-- No flag of `fl` has its trap enabled in the slot of the word in hand (R82, R125). -/
def untrapped (s : State) (fl : Nat) : Prop :=
  ∀ k, k < 7 → bitOf fl k = true → (s.slot s.cur.u).csr.corectl.getLsbD (k + 4) = false

/-- The state with a control register of the word's slot changed. -/
def withCsr (s : State) (f : Csrs → Csrs) : State :=
  s.setSlot s.cur.u { s.slot s.cur.u with csr := f (s.slot s.cur.u).csr }

/-- The state with arithmetic flags set (R81). -/
def withFlags (s : State) (fl : Nat) : State := withCsr s (fun c => { c with aflags := c.aflags ||| BitVec.ofNat 7 fl })

/-! Branches, loops and system words (R99, R102, R112 to R127, R459) -/

/-- The state with the word's slot changed. -/
def onSlot (s : State) (f : Slot → Slot) : State := s.setSlot s.cur.u (f (s.slot s.cur.u))

/-- A PC a redirect may go to (R112). -/
def targetOk (s : State) (t : Int) : Prop := t % 8 = 0 ∧ 0 ≤ t ∧ t < 8 * (s.slot s.cur.u).seqLen

/-- Whether BR or JMP is taken, and its target (R112). -/
def branchTo (s : State) : Instr → Option (Bool × Int)
  | .br f => some (preds s f.pred.toNat != f.n, ((s.slot s.cur.u).pc : Int) + 8 * f.off.toInt)
  | .jmp f => some (true, ((gr s f.ra).toNat : Int))
  | _ => none

/-- A loop's body holds a PC. -/
def holdsPc (l : LoopRec) (pc : Nat) : Bool := decide (l.start ≤ pc ∧ pc < l.start + 8 * l.words)

/-- A BR or JMP of this slot stands inside the innermost body, outside a handler (R115, R122). -/
def inBody (sl : Slot) : Prop := sl.csr.uiact = false ∧ ∃ l r, sl.loops = l :: r ∧ holdsPc l sl.pc = true

/-- The loops left after a taken BR or JMP to `t` (R115): one inside the innermost body leaves every loop, from the
innermost outward, whose body does not hold the target; any other leaves none. -/
def loopsAfter (sl : Slot) (t : Nat) : List LoopRec :=
  match sl.loops with
  | [] => []
  | l :: r =>
    if sl.csr.uiact = false ∧ holdsPc l sl.pc = true then (l :: r).dropWhile (fun x => !holdsPc x t) else l :: r

/-- The loop a loop word starts: whether it is a LOOP, and its stage offsets (R43, R113). -/
def loopWord : Instr → Option (SI × Bool × List Nat)
  | .loop f st => some (f, true,
      ([st.b0, st.b1, st.b2, st.b3, st.b4, st.b5, st.b6, st.b7].map (·.toNat)).take (st.ns1.toNat + 1))
  | .loopx f => some (f, false, [0])
  | _ => none

/-- The stage predicates of kernel iteration 0 of a loop (R113, R114): e0 alone, for a loop of at least one iteration. -/
def firstStages : BitVec 8 := 1

/-- What a word that changes one control state of its slot or core makes of the state (R99, R102, R119, R459), with the
condition under which it completes. -/
def ctrlEffect (s : State) : Instr → Option (Prop × State)
  | .nop => some (True, s)
  | .bkpt f => some (True,
      if (s.slot s.cur.u).csr.corectl.getLsbD 1 then
        onSlot ((s.unitsOf s.cur.u).foldl (fun s v => s.setSlot v { s.slot v with
            causes := if (s.slot v).causes.contains 0 then (s.slot v).causes else (s.slot v).causes ++ [0] }) s)
          (fun sl => { sl with bkpt := some f.imm.toNat })
      else s)
  | .setview f => some ((gr s f.ra).toNat < 1024 ∧ ∀ e, e < 4 → (s.slot s.cur.u).unfired e = 0,
      withCsr s (fun c =>
        if f.funct.toNat % 4 = 0 then { c with viewv := BitVec.ofNat 10 (gr s f.ra).toNat }
        else if f.funct.toNat % 4 = 1 then { c with viewt := BitVec.ofNat 10 (gr s f.ra).toNat }
        else { c with viewm := BitVec.ofNat 10 (gr s f.ra).toNat }))
  | .granclr f => some ((∀ e, e < 4 → (s.slot s.cur.u).unfired e = 0) ∧
        ((gr s f.rb).toNat = 0 ∨ 64 * ((gr s f.ra).toNat + (gr s f.rb).toNat) ≤ (s.slot s.cur.u).alloc.regLen),
      s.setCore (coreOf s.cur.u) ((s.core (coreOf s.cur.u)).regClear
        ((List.range (gr s f.rb).toNat).map (fun k => (s.slot s.cur.u).alloc.regBase / 64 + (gr s f.ra).toNat + k))))
  | _ => none

/-- The value of a control register (R98, R116, R124 to R126, R219, R333). -/
def csrValue (s : State) (n : Nat) : Word :=
  let sl := s.slot s.cur.u
  let c := sl.csr
  let x := s.ctx sl.ctx
  let k := s.core (coreOf s.cur.u)
  let w (v : Nat) : Word := BitVec.ofNat 64 v
  if n = 0x000 then w c.corectl.toNat
  else if n = 0x001 then w c.aflags.toNat
  else if n = 0x002 then w c.faultst.toNat
  else if n = 0x003 then c.uivec
  else if n = 0x004 then w c.uipend.toNat
  else if n = 0x005 then w (c.uipc.toNat + (if c.uiact then 2 ^ 63 else 0))
  else if n = 0x006 then w c.viewv.toNat
  else if n = 0x007 then w c.viewt.toNat
  else if n = 0x008 then w c.viewm.toNat
  else if n = 0x009 then w sl.loopst
  else if n = 0x00A then c.mctl
  else if n = 0x00B then c.vsridx
  else if n = 0x00C then w c.vsrtid.toNat
  else if n = 0x010 then w x.memdef.toNat
  else if n = 0x011 then x.srkey
  else if n = 0x012 then x.keyctl
  else if n = 0x013 then x.bfctl
  else if n = 0x015 then w c.nodest.toNat
  else if n = 0x016 then w x.gramctl.toNat
  else if n = 0x020 then w k.pmowner
  else if n = 0x021 then w (k.level % 8 + k.phase.toNat * 2 ^ 8 + k.domid % 2 ^ 16 * 2 ^ 16)
  else w (s.pkgid (coreOf s.cur.u))

/-- The result of a word that reads a control state, with its destination; each is seen 2 clocks later (R96, R124, R127,
R459). -/
def readWord (s : State) : Instr → Option (BitVec 6 × Word)
  | .csrrd f => some (f.rd, csrValue s (f.imm.toNat % 4096))
  | .trctlRd f => some (f.rd, (s.slot s.cur.u).csr.trcfg.setWidth 64)
  | .timeClk f => some (f.rd, BitVec.ofNat 64 ((s.slot s.cur.u).clocks + (s.clock - (s.slot s.cur.u).since)))
  | _ => none

/-- What CSRWR makes of a control register that a program may write, and the condition it asks for (R47, R123, R124, R126,
R228, R245, R379, R409, R418). -/
def csrEffect (s : State) (n : Nat) (a : Word) : Option (Prop × State) :=
  let inCtx (f : Ctx → Ctx) : State := s.setCtx (s.slot s.cur.u).ctx (f (s.ctx (s.slot s.cur.u).ctx))
  let v := a.toNat
  if n = 0x000 then some (True, withCsr s (fun c => { c with corectl := a.setWidth 11 }))
  else if n = 0x001 then some (True, withCsr s (fun c => { c with aflags := c.aflags &&& ~~~(a.setWidth 7) }))
  else if n = 0x002 then
    some (True, withCsr s (fun c => { c with faultst := c.faultst &&& ~~~(a.setWidth 18 &&& 0x30000#18) }))
  else if n = 0x003 then
    some (v / 2 ^ 32 % 64 = 0, withCsr s (fun c => { c with uivec := a &&& 0xFFFFFFFF0000FFFF#64 }))
  else if n = 0x004 then some (True, withCsr s (fun c => { c with uipend := c.uipend &&& ~~~(a.setWidth 16) }))
  else if n = 0x005 then some ((s.slot s.cur.u).csr.uiact = true, withCsr s (fun c => { c with uipc := a.setWidth 32 }))
  else if n = 0x00A then
    some (v % 4 ≠ 3 ∧ fld v 4 12 = 0 ∧ rhoOk (fld v 32 32) = true ∧ (bf16.dec (fld v 16 16)).isNum = true,
      withCsr s (fun c => { c with mctl := (a &&& ~~~8#64) ||| (c.mctl &&& ~~~a &&& 8#64) }))
  else if n = 0x00B then some (True, withCsr s (fun c => { c with vsridx := a }))
  else if n = 0x00C then some (True, withCsr s (fun c => { c with vsrtid := a.setWidth 12 }))
  else if n = 0x010 then some (fld v 5 3 ≤ 3 ∧ fld v 2 3 ≤ 5, inCtx (fun x => { x with memdef := a.setWidth 11 }))
  else if n = 0x011 then some (True, inCtx (fun x => { x with srkey := a }))
  else if n = 0x012 then
    some ((bf16.dec (fld v 32 16)).isNum = true ∧ (bf16.dec (fld v 16 16)).isNum = true ∧ (bf16.dec (fld v 0 16)).isNum = true,
      inCtx (fun x => { x with keyctl := a }))
  else if n = 0x013 then some (True, inCtx (fun x => { x with bfctl := a &&& 3#64 }))
  else if n = 0x015 then some (True, withCsr s (fun c => { c with nodest := c.nodest &&& ~~~(a.setWidth 14 &&& 0x3F00#14) }))
  else if n = 0x016 then some (True, inCtx (fun x => { x with gramctl := a.setWidth 12 }))
  else none

/-- A slot that a user interrupt may be taken in, and its lowest pending enabled vector (R122). -/
def takesVector (sl : Slot) (n : Nat) : Prop :=
  sl.live = true ∧ sl.uiReady = true ∧ n < 16 ∧ sl.csr.uipend.getLsbD n = true ∧ sl.csr.uivec.getLsbD n = true ∧
    ∀ k, k < n → ¬(sl.csr.uipend.getLsbD k = true ∧ sl.csr.uivec.getLsbD k = true)

/-! Memory words (R44 to R47, R135 to R154, R173 to R178) -/

/-- A packet of flow `k` goes out from `m`, or waits at the source while 2048 of its flow are unacknowledged (R334). -/
def sentOn (m t : State) (k : Nat) (q : Packet) : Prop :=
  if 2048 ≤ (Tbl.get [] m.fab.going k).length || m.fab.stalled.any (fun e => e.1 == k) then
    t.fab.stalled = m.fab.stalled ++ [(k, q)]
  else t.fab.outbox = m.fab.outbox ++ [q]

/-- The flow of a slot's sequencer towards a package, for the tensor of an address (R334). -/
def seqFlow (s : State) (pkg : Nat) (a : Word) : Nat := flowKey s.cur.u 0 pkg (a.toNat / 2 ^ 52 % 4096)

/-- A load: its fields, whether it is signed, and the space it fixes (R139). -/
def loadForm : Instr → Option (SM × Bool × Option Nat)
  | .ld f => some (f, false, none)
  | .lds f => some (f, true, none)
  | .ldsp f => some (f, false, some 1)
  | _ => none

/-- A store: its fields, and the space it fixes (R139). -/
def storeForm : Instr → Option (SM × Option Nat)
  | .st f => some (f, none)
  | .stsp f => some (f, some 1)
  | _ => none

/-- The prefix with the space a word fixes. -/
def inSpace (p : Prefix) (fixed : Option Nat) : Prefix := match fixed with | some k => { p with space := k } | none => p

/-- The address of a memory word: its base register plus the sign-extended offset (R139). -/
def memAddr (s : State) (f : SM) : Word := gr s f.base + BitVec.ofInt 64 (sint 22 f.off.toNat)

/-- The value a load writes for the bytes it read: zero-extended, or sign-extended (R139). -/
def loaded (signed : Bool) (n : Nat) (bs : List Byte) : Word :=
  if signed then BitVec.ofInt 64 (sint (8 * n) (leNat bs)) else BitVec.ofNat 64 (leNat bs)

/-- A buffered store or held effect has room in its place without a fault or a wait (R161, R162). -/
def hasRoom (s : State) (e : Effect) : Prop :=
  let sl := s.slot s.cur.u
  let same (h : Held) : Bool := h.eff.buffered == e.buffered && (match h.eff with | .marker _ => false | _ => true)
  (sl.opened.filter same).length + (sl.closed.filter same).length < (if e.buffered then sl.alloc.sbLen / 16 else 512)

/-- The state with an effect joined to the open region of the word's slot (R160, R161). -/
def queued (s : State) (e : Effect) (rel : Nat) : State :=
  onSlot s (fun sl => { sl with
    opened := sl.opened ++ [⟨e, fld s.cur.word 40 8, s.cur.word, s.prefix.space, sl.region.num, rel⟩] })

/-- The state with bytes stored in the scratchpad of the word's core. -/
def withScratch (s : State) (a : Nat) (bs : List Byte) : State :=
  s.setCore (coreOf s.cur.u) { s.core (coreOf s.cur.u) with scratch := (s.core (coreOf s.cur.u)).scratch.store a bs }

/-- The state with the tag table of the word's core replaced (R153). -/
def withTags (s : State) (l : List Tag) : State :=
  s.setCore (coreOf s.cur.u) { s.core (coreOf s.cur.u) with tags := l }

/-- The key of a tag-table word: tensor id and tag tile (R154). -/
def tagIs (s : State) (a : Word) (e : Tag) : Bool :=
  e.owner == s.cur.u && e.tid == a.toNat / 2 ^ 52 && e.tile == a.toNat / 2 ^ 12 % 2 ^ 40

/-- The tag table after a tag-table word, and its result (R154); TAGSET needs a slot of the allocation. -/
def tagWord (s : State) : Instr → Option (BitVec 6 × List Tag × Word)
  | .taglk f =>
    let l := (s.core (coreOf s.cur.u)).tags
    some (f.rd, l, match l.find? (tagIs s (gr s f.ra)) with
      | some e => BitVec.ofNat 64 e.slot
      | none => 0xFFFFFFFFFFFFFFFF)
  | .tagset f =>
    let l := (s.core (coreOf s.cur.u)).tags
    let n := (gr s f.rb).toNat
    let mine := tagIs s (gr s f.ra)
    if (s.slot s.cur.u).alloc.spLen / 4096 ≤ n then none
    else if l.any (fun e => e.owner == s.cur.u && e.slot == n && !mine e) then some (f.rd, l, 3)
    else if l.any mine then some (f.rd, l.map (fun e => if mine e then { e with slot := n } else e), 1)
    else if l.length < 1024 then
      some (f.rd, l ++ [⟨s.cur.u, (gr s f.ra).toNat / 2 ^ 52, (gr s f.ra).toNat / 2 ^ 12 % 2 ^ 40, n⟩], 0)
    else some (f.rd, l, 2)
  | .tagclr f =>
    let l := (s.core (coreOf s.cur.u)).tags
    some (f.rd, l.filter (fun e => !tagIs s (gr s f.ra) e), if l.any (tagIs s (gr s f.ra)) then 0 else 1)
  | .tagclrAll f =>
    let l := (s.core (coreOf s.cur.u)).tags
    some (f.rd, l.filter (fun e => e.owner != s.cur.u),
      BitVec.ofNat 64 (l.length - (l.filter (fun e => e.owner != s.cur.u)).length))
  | _ => none

/-- The prefix in force overrides no space, and suits a word that only loads, or only stores (R44 to R47). -/
def spaceKept (s : State) : Prop := ∀ x, (s.slot s.cur.u).pfx = some x → x.ovr.getLsbD 2 = false
def loadPfx (s : State) : Prop :=
  spaceKept s ∧ bitOf s.prefix.ord 1 = false ∧
    ∀ x, (s.slot s.cur.u).pfx = some x → x.ovr.getLsbD 0 = true → s.prefix.dw = false
def storePfx (s : State) : Prop := spaceKept s ∧ bitOf s.prefix.ord 0 = false

/-- A PFX that a CINV may stand behind (R46, R148). -/
def cinvPfx (s : State) : Prop :=
  ∀ x, (s.slot s.cur.u).pfx = some x → x.ovr.getLsbD 2 = false ∧ x.ord = 0 ∧ x.cache = 0 ∧ x.dw = false

/-- Every earlier effect of the slot has been performed and answered (R175, R182): a word that orders them before what it
publishes does not wait. -/
def effectsDone (s : State) : Prop := (s.slot s.cur.u).closed = [] ∧ s.heldFar s.cur.u = false

/-- A release at a scope waits for nothing (R176 to R178): the earlier effects are performed and, at scope domain or system, the
slot's remote accesses are answered, no narrower line of the remote cache is dirty, and what it has sent home is acknowledged. -/
structure ReleaseReady (s : State) (scope : Nat) : Prop where
  effects : effectsDone s
  far : 4 ≤ scope → s.unackedOf s.cur.u = false ∧ s.awaits s.cur.u = false ∧ s.ackedAll (s.slot s.cur.u).acks = true
  lines : 4 ≤ scope → ∀ l, l ∈ (s.core (coreOf s.cur.u)).rcache → l.dirty = [] ∨ scope ≤ l.scope

/-- The orders of a FENCE (R178). -/
def fenceOrder (f : SI) : Prefix := { (default : Prefix) with ord := f.imm.toNat % 4, scope := f.imm.toNat / 4 % 8 }

/-- The line of the scalar L1 that covers a byte of a tensor, where its translation is resident. -/
def l1Line (s : State) (va : Nat) : Option (Bool × Nat) :=
  match openTensor s (coreOf s.cur.u) ptSEQ (s.slot s.cur.u).ctx va 1 false with
  | .error _ => none
  | .ok (t, d) =>
    match placeByte t (coreOf s.cur.u) ptSEQ (s.slot s.cur.u).ctx (va / 2 ^ 52 % 4096) d (va % 2 ^ 52) with
    | .ok (_, .dev a) => some (false, a / 64)
    | .ok (_, .host a) => some (true, a / 64)
    | _ => none

/-! Rings, semaphores, timelines, domains (R189 to R198, R219 to R221) and counters (R457 to R467) -/

/-- A ring's owner code lets the slot's sequencer advance the pointer (R191). -/
def seqOwns (s : State) (own : Nat) : Bool := own % 8 == 7 || own == (s.slot s.cur.u).owner s.cur.u .seq

/-- A data ring's number in a RINGSET or RINGGET word (R195). -/
def ringIdx (f : S3) : Nat := f.funct.toNat % 64

/-- No entry of the slot's command rings is unfinished (R195). -/
def ringsQuiet (s : State) : Prop :=
  ∀ e, e < 4 → ((s.slot s.cur.u).cring e).occ = 0 ∧ (s.slot s.cur.u).eng.any (fun x => x.1 == e) = false

/-- What a ring or timeline word that writes no register makes of the state, and the condition under which it completes
(R182, R193 to R196, R198). -/
def ringEffect (s : State) : Instr → Option (Prop × State)
  | .enq f =>
    let r := (s.slot s.cur.u).cring (f.funct.toNat % 4)
    some (r.logn ≠ 0 ∧ r.room ≠ 0 ∧ effectsDone s,
      onSlot (withScratch s ((s.slot s.cur.u).alloc.spBase + 64 * r.base + 8 * (r.prod % 2 ^ r.logn))
        (leBytes 8 (gr s f.ra).toNat)) (fun sl => sl.place (f.funct.toNat % 4) 1))
  | .rel f =>
    let r := (s.slot s.cur.u).cring (f.imm.toNat % 4)
    let c := fld f.imm.toNat 2 12 + (gr s f.ra).toNat
    some (r.logn ≠ 0 ∧ 1 ≤ c ∧ c ≤ 2 ^ r.logn ∧ c ≤ r.room ∧ effectsDone s, onSlot s (fun sl => sl.place (f.imm.toNat % 4) c))
  | .ringsetCfg f =>
    let r := (s.slot s.cur.u).ring (ringIdx f)
    let n := Ring.ofCfg (gr s f.ra).toNat
    some (ringsQuiet s ∧ r.via = 0 ∧ r.pipe = false ∧ r.occ = 0 ∧ ringCfgOk (gr s f.ra).toNat = true ∧
        (n.logn = 0 ∨ 64 * n.base + 2 ^ n.logn * n.size ≤ (s.slot s.cur.u).alloc.spLen),
      s.setRing s.cur.u (ringIdx f) { n with pipe := false, prod := r.prod, cons := r.cons })
  | .ringsetProd f =>
    let r := s.viewRing (s.slot s.cur.u) (ringIdx f)
    some (r.logn ≠ 0 ∧ 1 ≤ (gr s f.ra).toNat ∧ (gr s f.ra).toNat ≤ r.room ∧ seqOwns s r.prodown = true ∧ effectsDone s,
      (s.rcRelease (coreOf s.cur.u) 1).advance s.cur.u false (ringIdx f) true (gr s f.ra).toNat
        ((s.slot s.cur.u).owner s.cur.u .seq))
  | .ringsetCons f =>
    let r := s.viewRing (s.slot s.cur.u) (ringIdx f)
    some (r.logn ≠ 0 ∧ 1 ≤ (gr s f.ra).toNat ∧ (gr s f.ra).toNat ≤ r.occ ∧ seqOwns s r.consown = true,
      s.advance s.cur.u false (ringIdx f) false (gr s f.ra).toNat ((s.slot s.cur.u).owner s.cur.u .seq))
  | .ringsetOwn f =>
    let v := (gr s f.ra).toNat
    let own (o : Nat) : Prop := o % 8 ≠ 5 ∧ o % 8 ≠ 6
    some (v % 2 ^ 38 = 0 ∧ v < 2 ^ 48 ∧ own (fld v 38 5) ∧ own (fld v 43 5),
      s.putRing s.cur.u (ringIdx f)
        { s.viewRing (s.slot s.cur.u) (ringIdx f) with prodown := fld v 38 5, consown := fld v 43 5 })
  | .ringsetReset f =>
    let r := (s.slot s.cur.u).ring (ringIdx f)
    some (ringsQuiet s ∧ r.via = 0 ∧ r.pipe = false,
      s.setRing s.cur.u (ringIdx f) { r with prod := 0, cons := 0, prodown := 7, consown := 7 })
  | .semsigPeer f =>
    let n := f.imm.toNat
    some (fld n 15 2 < (s.slot s.cur.u).gang.length ∧ fld n 15 2 ≠ s.member s.cur.u ∧
        hasRoom s (.peer (fld n 15 2) (fld n 0 6) (fld n 6 8)),
      queued s (.peer (fld n 15 2) (fld n 0 6) (fld n 6 8)) 0)
  | .tlwait f =>
    let tl := ((s.slot s.cur.u).tl (f.funct.toNat % 4)).toNat
    some ((gr s f.ra).toNat ≤ tl,
      s.setCore (coreOf s.cur.u) ((s.core (coreOf s.cur.u)).acquire 2))
  | _ => none

/-- The value RINGGET or TLREAD reads, with its destination (R195, R198). -/
def ringRead (s : State) : Instr → Option (Prop × BitVec 6 × Nat)
  | .ringget f =>
    let n := ringIdx f
    let sl := s.slot s.cur.u
    let op := fld f.funct.toNat 6 4
    let r := if n < 32 then s.viewRing sl n else sl.cring (n - 32)
    some (op < 4 ∨ r.logn ≠ 0, f.rd,
      if op = 0 then
        (if n < 32 then Ring.cfg r
          else r.base % 2 ^ 15 + r.logn % 16 * 2 ^ 15 + sl.owner s.cur.u .seq * 2 ^ 38
            + sl.owner s.cur.u (Stream.ofNum (n - 32 + 1)) * 2 ^ 43)
      else if op = 1 then r.prod
      else if op = 2 then r.cons
      else if op = 3 then r.occ
      else if op = 4 then (if n < 32 then r.entry r.cons else 64 * r.base + 8 * (r.cons % 2 ^ r.logn))
      else (if n < 32 then r.entry r.prod else 64 * r.base + 8 * (r.prod % 2 ^ r.logn)))
  | .tlread f => some (True, f.rd, ((s.slot s.cur.u).tl (f.funct.toNat % 4)).toNat)
  | _ => none

/-- A counter the function of the word's context may not see (R466). -/
def hiddenCtr (s : State) (c : CtrSel) : Bool :=
  (c.group = 1 && Tbl.get 0 s.hub.slcowner c.unit % 16 ≠ s.fnOf (s.slot s.cur.u).ctx)
    || (c.group = 2 && s.fnOf (s.slot s.cur.u).ctx ≠ 0)

/-- A counter that the program may configure and clear (R466): a slice's of its own function, a port's of the physical
function. -/
def ctrMine (s : State) (c : CtrSel) : Prop :=
  (c.group = 1 → Tbl.get 0 s.hub.slcowner c.unit % 16 = s.fnOf (s.slot s.cur.u).ctx) ∧
    (c.group = 2 → s.fnOf (s.slot s.cur.u).ctx = 0)

/-- The record TRACE_SAMPLE writes for a slot (R460): its PC, and for each engine the loop tag of its ring's head. -/
def sampleRecord (s : State) (u : Nat) : List Byte :=
  let sl := s.slot u
  traceBytes 5 1 (coreOf u) (u % 4) 0 sl.tk.seq s.devTime sl.loopTag (sl.pc % 2 ^ 32)
    ((List.range 4).flatMap (fun e =>
      leBytes 8 (if (sl.cring e).occ = 0 then 2 ^ 64 - 1
        else Tbl.get 0 sl.tags (e * 4096 + (sl.cring e).cons % 2 ^ (sl.cring e).logn))))

/-! Part copy -/

/-- The granule block of `n` bytes an engine word names lies in its slot's scratchpad allocation (R48, R316). -/
def granOk (s : State) (gran n : Nat) : Prop := 64 * gran + n ≤ (s.slot s.cur.u).alloc.spLen

/-- Its address in the core's scratchpad, and its bytes. -/
def granAt (s : State) (gran : Nat) : Nat := (s.slot s.cur.u).alloc.spBase + 64 * gran
def granBytes (s : State) (gran n : Nat) : List Byte := (s.core (coreOf s.cur.u)).scratch.bytes (granAt s gran) n

/-- A little-endian field of a block. -/
def blockF (b : List Byte) (o n : Nat) : Nat := leNat ((b.drop o).take n)

/-- The copy words (R312). -/
def copyForm : Instr → Option (CD × CopyOp)
  | .ccopy f => some (f, .copy)
  | .cfill f => some (f, .fill)
  | .cmcast f => some (f, .mcast)
  | .cplace f => some (f, .place)
  | _ => none

/-- A multicast to a group of packages (R314). -/
def toGroup (op : CopyOp) (d : CopyDesc) : Bool := op = .mcast && bitOf d.x1 16

/-- The fired entry of a copy: the ring entries it pops and pushes, one by one as it moves its rows, and the current it holds
(R191, R192, R317); it completes after its clocks (R331). -/
def firedCopy (s : State) (d : CopyDesc) (lat amps : Nat) : InFlight :=
  { InFlight.of s.cur s.clock with
    lat := lat
    advances := (if d.sk = 3 then [(d.src, false, d.n1 * d.n2)] else []) ++
      (if d.dk = 3 then [(d.dst, true, d.n1 * d.n2)] else [])
    stream := d.sk = 3 || d.dk = 3
    grant := amps }

/-- A channel of the word's slot replaced. -/
def withChan (s : State) (n : Nat) (c : Chan) : State := onSlot s (fun sl => { sl with chans := Tbl.set default sl.chans n c })

/-- What a barrier, channel or schedule word of the copy ring makes of the state, and the condition it asks for (R318,
R320, R327). -/
def copyEffect (s : State) : Instr → Option (Prop × State)
  | .cbarset f => some (True, onSlot s (fun sl => sl.later s.clock (.barSet f.idx.toNat f.imm.toNat)))
  | .cchan f =>
    let b := granBytes s (f.imm.toNat % 2 ^ 15) 64
    some (granOk s (f.imm.toNat % 2 ^ 15) 64 ∧ 1 ≤ blockF b 8 8 ∧ blockF b 8 8 ≤ 2 ^ 40 ∧ blockF b 16 1 ≤ 2 ∧
        blockF b 17 47 = 0 ∧ endForm (blockF b 16 1) (blockF b 0 8) = true,
      withChan s (f.idx.toNat % 16)
        { armed := true, base := blockF b 0 8, len := blockF b 8 8, kind := blockF b 16 1, w := blockF b 0 8, done := []
          tile := none, nextTile := none })
  | .cchanOff f => some (True, withChan s (f.idx.toNat % 16)
      { (s.slot s.cur.u).chan (f.idx.toNat % 16) with armed := false })
  | .cstop => some (True,
      if (s.slot s.cur.u).sched.state = 1 ∨ (s.slot s.cur.u).sched.state = 2 then
        onSlot s (fun sl => { sl with sched := { sl.sched with state := 4 } })
      else s)
  | _ => none

/-- The clocks that a barrier or channel word of the copy ring takes (R320, R331). -/
def copyStateLat : Instr → Nat
  | .cbarset _ => 2
  | .cchan _ => 6
  | .cchanOff _ => 6
  | _ => 0

/-- The index a CSTAT form takes, and what it reads (R328). -/
def cstatLimit (op : Nat) : Nat := if op ≤ 1 then 16 else if op ≤ 3 then 32 else 1
def cstatView (s : State) (op a : Nat) : Nat :=
  let sl := s.slot s.cur.u
  let c := sl.chan a
  let b := sl.bar a
  let d := sl.sched
  if op = 0 then c.w
  else if op = 1 then (if c.armed then 1 else 0) + (if c.base + c.len ≤ c.w then 2 else 0) + (if s.waitsOn s.cur.u c then 4 else 0)
  else if op = 2 ∨ op = 3 then b.count + 2 ^ 32 * b.state + (if b.ovf then 2 ^ 34 else 0)
  else if op = 4 then d.stage % 2 ^ 32 + 2 ^ 32 * (d.entry % 2 ^ 8) + 2 ^ 40 * (d.state % 8)
  else d.released

/-! Part search -/

/-- A reference a node word accepts (R376), and a page reference (R423). -/
def refOk (a : Word) : Prop := a.toNat % 2 ^ 32 / 2 ^ 25 < 81
def pageOk (s : State) (a : Word) : Prop := a.toNat % 2 ^ 32 % 2 ^ 26 < s.kvpages (s.slot s.cur.u).ctx

/-- The reference in a register. -/
def ref (a : Word) : Nat := a.toNat % 2 ^ 32

/-- The state with NODEST.ST of the word's slot set (R380). -/
def withSt (s : State) (st : Nat) : State := onSlot s (fun sl => sl.setSt st)

/-- KEYCTL.VLU and KEYCTL.GAMMA of the word's context (R409). -/
def vlu (s : State) : Nat := (s.ctx (s.slot s.cur.u).ctx).keyctl.toNat / 2 ^ 56 % 2 ^ 8
def gammaOf (s : State) : Nat := (s.ctx (s.slot s.cur.u).ctx).keyctl.toNat / 2 ^ 32 % 2 ^ 16

/-- The effect a held word puts in the open region, and the condition its operands must meet (R381, R387, R388, R395, R400
to R404, R407, R426, R430). -/
def heldWord (s : State) : Instr → Option (Prop × Effect)
  | .tcancel f => some (refOk (gr s f.ra), .cancel (ref (gr s f.ra)) (f.funct.getLsbD 0)
      (if f.funct.getLsbD 1 then some (f.funct.toNat / 4 % 64) else none))
  | .treprio f => some ((gr s f.rb).toNat < 2 ^ 32 ∧ fpFinite (gr s f.rb).toNat = true ∧
      (f.funct.getLsbD 0 = true → refOk (gr s f.ra)),
      .reprio (f.funct.getLsbD 0) (ref (gr s f.ra)) (gr s f.rb).toNat)
  | .tjoin f => some (refOk (gr s f.ra) ∧ (gr s f.rb).toNat < 2 ^ 28 ∧ (gr s f.rb).toNat % 2 ^ 16 ≠ 0,
      .tjoin (ref (gr s f.ra)) ((gr s f.rb).toNat % 2 ^ 16) ((gr s f.rb).toNat / 2 ^ 16 % 2 ^ 12))
  | .nfree f => some (refOk (gr s f.ra), .nfree (ref (gr s f.ra)))
  | .nst f => some (refOk (gr s f.ra),
      .nst (ref (gr s f.ra)) (f.funct.toNat % 8) (f.funct.toNat / 8 % 256) (gr s f.rb))
  | .nadd f =>
    if f.rd = 0 then some (refOk (gr s f.ra), .nadd (ref (gr s f.ra)) (f.funct.toNat % 8) (gr s f.rb)) else none
  | .nvloss f => some (refOk (gr s f.ra), .nvloss (ref (gr s f.ra)) (f.funct.toNat % 256) (vlu s))
  | .nlink f => some (refOk (gr s f.ra) ∧ refOk (gr s f.rb), .nlink (ref (gr s f.ra)) (ref (gr s f.rb)))
  | .kvfree f => some (pageOk s (gr s f.ra), .kvfree (ref (gr s f.ra)))
  | .kvpin f => some (pageOk s (gr s f.ra), .kvpin (ref (gr s f.ra)) true)
  | .kvunpin f => some (pageOk s (gr s f.ra), .kvpin (ref (gr s f.ra)) false)
  | .pfxevict f => some (gr s f.ra ≠ 0 ∧ (gr s f.rb).toNat < 256, .pfxevict false (gr s f.ra).toNat (gr s f.rb).toNat)
  | .pfxevictAll _ => some (True, .pfxevict true 0 0)
  | _ => none

/-- The bytes of scratchpad a word reads at an offset of its slot's allocation. -/
def spBytes (s : State) (a n : Nat) : List Byte :=
  (s.core (coreOf s.cur.u)).scratch.bytes ((s.slot s.cur.u).alloc.spBase + a) n

/-- The offset and length lie in the allocation, and no watermark holds them (R140, R319). -/
def spReadable (s : State) (a n : Nat) : Prop :=
  a + n ≤ (s.slot s.cur.u).alloc.spLen ∧ s.kept s.cur.u (s.slot s.cur.u).ctx 1 a n = false

/-- The task record a spawn captures is one it accepts (R382, R386). -/
def spawnOk (s : State) (t : Task) (batch : Bool) : Prop :=
  fpFinite t.key = true ∧ t.ws < 256 ∧ t.ctx = 0 ∧ t.queue = 0 ∧ t.seq = 0 ∧ (batch = true → t.batch = true) ∧
    (t.tree = nullRef ∨ t.tree / 2 ^ 25 = s.fab.pkg ∧ s.fab.pkg < 81) ∧ (t.jt = nullRef ∨ nPkg t.jt < 81)

/-- A node word that reads the machine and writes one register: its condition, the state with what it counts and reports,
its destination, its value, and its latency where the spec gives one (R392, R393, R399, R410, R411, R417). Records of this
package only. -/
def nodeRead (s : State) : Instr → Option (Prop × State × BitVec 6 × Nat × Option Nat)
  | .tself f =>
    let t := (s.slot s.cur.u).tk
    some (True, s, f.rd,
      (match f.funct.toNat % 8 with
        | 0 => t.seq
        | 1 => t.tree
        | 2 => t.jt
        | 3 => t.key0
        | 4 => leNat (t.bytes.take 8)
        | 5 => t.user
        | _ => t.ws), some 2)
  | .tquery f =>
    let t := (s.slot s.cur.u).tk
    let r := ref (gr s f.ra)
    if f.funct.toNat % 4 = 0 then
      some (True, s, f.rd, (if t.cpend then 1 else 0) + (if t.exempt then 2 else 0), some 2)
    else if f.funct.toNat % 4 = 1 then
      some (r / 2 ^ 25 = s.fab.pkg ∧ s.fab.pkg < 81, withSt (s.countSt (s.slot s.cur.u).ctx r (s.nodeSt r)) (s.nodeSt r), f.rd,
        (if s.nodeSt r = stSTALE then 2 ^ 64 - 1
          else s.nf r 22 2 + 2 ^ 16 * min (s.countQueued (fun _ t => t.tree == r)) 0xFFFF), none)
    else
      some (True, s, f.rd,
        s.countQueued (fun k t => t.ctx == (s.slot s.cur.u).ctx && k / 16 == dieOf (coreOf s.cur.u)), some 2)
  | .nld f =>
    let r := ref (gr s f.ra)
    some (r / 2 ^ 25 = s.fab.pkg ∧ s.fab.pkg < 81, withSt (s.countSt (s.slot s.cur.u).ctx r (s.nodeSt r)) (s.nodeSt r), f.rd,
      (if s.nodeSt r = stSTALE then 2 ^ 64 - 1 else leNat (s.nodeBytes (s.slot s.cur.u) r (8 * (f.funct.toNat % 8)) 8)),
      some (nodeLat (coreOf s.cur.u) r))
  | .bfstat f =>
    let b := s.set (s.slot s.cur.u).ctx (gr s f.ra).toNat
    some ((gr s f.ra).toNat < 256, s, f.rd,
      (match f.funct.toNat % 4 with
        | 0 => b.rows.length
        | 1 => b.waiting.length
        | 2 => b.count % 2 ^ 32
        | _ => b.revoked), some 4)
  | _ => none

/-- A field of a node record of this package. -/
def nodeF (s : State) (r o n : Nat) : Nat := leNat ((s.nsm.bytes (nAddr r) 64).drop o |>.take n)

/-- Real values of the key formulas (R410): a BF16 or FP32 code, and an exact value rounded to FP32. -/
def bf (c : Nat) : XR := bf16.dec c
def fl (c : Nat) : XR := fp32.dec c
def rn (x : XR) : XR := fl (fp32.rne x).1
def q32 (x : Int) : XR := XR.ofDy x (-32)

/-- The PUCT key of a node with n = N + VL visits (R410): `np` is the parent's N + VL, or n. -/
def puct (ctl : Nat) (s1 : Int) (n np vl p : Nat) : Nat :=
  let q := if n = 0 then XR.zero
    else rn (XR.div (XR.add (q32 s1) (XR.ofInt (vl * sint 8 (ctl / 2 ^ 48 % 2 ^ 8)))) (XR.ofInt n))
  let root := rn (XR.sqrt (rn (XR.ofInt np)))
  let u := rn (XR.div (XR.mul (XR.mul (bf (ctl % 2 ^ 16)) (bf p)) root) (XR.ofInt (1 + n)))
  (fp32.rne (XR.add q u)).1

/-- The UCB key of a node (R410). -/
def ucb (ctl : Nat) (s1 : Int) (s2 n : Nat) : Nat :=
  if n = 0 then 0x7F7FFFFF
  else
    let mean := rn (XR.div (q32 s1) (XR.ofInt n))
    let e2 := rn (XR.div (q32 s2) (XR.ofInt n))
    let d := rn (XR.sub e2 (XR.mul mean mean))
    let var := if XR.le d XR.zero then XR.zero else d
    let sd := rn (XR.sqrt (rn (XR.div var (XR.ofInt (n + 1)))))
    (fp32.rne (XR.add mean (XR.mul (bf (ctl / 2 ^ 16 % 2 ^ 16)) sd))).1

/-- The key of the record at `r`, against the record at `par` if there is one (R410). -/
def keyAt (s : State) (m r : Nat) (par : Option Nat) : Nat :=
  let ctl := (s.ctx (s.slot s.cur.u).ctx).keyctl.toNat
  let s1 := sint 64 (nodeF s r 0 8)
  if m = 0 then
    puct ctl s1 (nodeF s r 16 4 + nodeF s r 20 2)
      (match par with
        | some p => nodeF s p 16 4 + nodeF s p 20 2
        | none => nodeF s r 16 4 + nodeF s r 20 2) (nodeF s r 20 2) (nodeF s r 24 2)
  else ucb ctl s1 (nodeF s r 8 8) (nodeF s r 16 4)

/-- The children a scan looks at (R411): at most `n`, from the first, until a null reference or one that is stale. -/
def scanOf (s : State) : Nat → Nat → List Nat
  | 0, _ => []
  | n + 1, c => if c = nullRef then [] else c :: (if s.nodeSt c = stSTALE then [] else scanOf s n (nodeF s c 36 4))

/-- The best of the children scanned: the greatest key, the earliest of equals (R411). -/
def bestOf (s : State) (m root : Nat) : List Nat → Option (Nat × Nat) → Option (Nat × Nat)
  | [], b => b
  | c :: t, b =>
    let k := keyAt s m c (some root)
    let ok := s.nodeSt c = stOK ∧ bitOf (nodeF s c 22 2) 4 = false
    bestOf s m root t (match b with
      | none => if ok then some (c, k) else none
      | some (c', k') => if ok ∧ XR.lt (fl k') (fl k) = true then some (c, k) else some (c', k'))

/-- A closing node or page word with what it answers: its check, what it makes of the state in which it acts, its value and
its status (R398, R402, R403, R426, R430). Records of this package only. -/
def closingRead (c : State) (i : Instr) : Option (Prop × BitVec 6 × State × Nat × Nat) :=
  let x := (c.slot c.cur.u).ctx
  match i with
  | .nalloc f =>
    let par := ref (gr c f.ra)
    let r := c.nalloc x (if f.funct.getLsbD 0 && par ≠ nullRef then nDie par else dieOf (coreOf c.cur.u)) par (gr c f.rb).toNat
    some ((gr c f.rb).toNat < 2 ^ 16 ∧ (par = nullRef ∨ par / 2 ^ 25 = c.fab.pkg ∧ c.fab.pkg < 81), f.rd, r.1, r.2.1, r.2.2)
  | .nadd f =>
    let r := ref (gr c f.ra)
    let v := c.nadd x r (f.funct.toNat % 8) (gr c f.rb)
    if f.rd = 0 then none else some (r / 2 ^ 25 = c.fab.pkg ∧ c.fab.pkg < 81, f.rd, v.1, v.2.1, v.2.2)
  | .ncas f =>
    let r := ref (gr c f.ra)
    let w := 8 * (f.funct.toNat % 8)
    let st := c.nodeSt r
    let l := ((List.range 8).zip (leBytes 8 (gr c f.rb).toNat)).filter (fun e => nodeSoft (w + e.1))
    some (r / 2 ^ 25 = c.fab.pkg ∧ c.fab.pkg < 81, f.rd,
      (if st ≠ stOK then c.countSt x r st
        else if c.nf r w 8 = (gr c f.rd).toNat then c.nodeWrite x r (l.map (fun e => (w + e.1, e.2))) else c),
      (if st = stSTALE then 2 ^ 64 - 1 else c.nf r w 8), st)
  | .kvalloc f =>
    let r := c.kvalloc x (ref (gr c f.ra)) (gr c f.rb).toNat
    some ((gr c f.rb).toNat < 256 ∧ (ref (gr c f.ra) = nullRef ∨ pageOk c (gr c f.ra)), f.rd, r.1, r.2.1, r.2.2)
  | .pfxlook f =>
    let a := (gr c f.ra).toNat
    let n := (gr c f.rb).toNat % 256 + 1
    let hs := (List.range n).map (fun k => blockF (spBytes c a (8 * n)) (8 * k) 8)
    let r := State.pfxMatch x ((gr c f.rb).toNat / 256) c hs
    some ((gr c f.rb).toNat < 2 ^ 16 ∧ spReadable c a (12 * n) ∧ a % 8 = 0 ∧ hs.all (· ≠ 0) = true, f.rd,
      r.1.setCore (coreOf c.cur.u) { r.1.core (coreOf c.cur.u) with
        scratch := (r.1.core (coreOf c.cur.u)).scratch.store ((c.slot c.cur.u).alloc.spBase + a + 8 * n)
          ((r.2 ++ List.replicate (n - r.2.length) nullRef).flatMap (leBytes 4)) },
      r.2.length, stOK)
  | .pfxins f =>
    let p := (gr c f.rb).toNat % 2 ^ 32
    let r := c.pfxIns x ((gr c f.rb).toNat / 2 ^ 32) (gr c f.ra).toNat p
    some (gr c f.ra ≠ 0 ∧ (gr c f.rb).toNat < 2 ^ 40 ∧ p % 2 ^ 26 < c.kvpages x, f.rd, r.1, r.2, r.2)
  | _ => none

/-- The destination and the node of a closing node word that another package must answer, with the packet's arguments
(R337, R398, R402, R403). -/
def farNode (s : State) : Instr → Option (BitVec 6 × Nat × Nat × List Nat)
  | .nalloc f => if f.funct.getLsbD 0 then some (f.rd, ref (gr s f.ra), 0x70, [(gr s f.rb).toNat]) else none
  | .nadd f =>
    if f.rd = 0 then none else some (f.rd, ref (gr s f.ra), 0x74, [f.funct.toNat % 8, (gr s f.rb).toNat])
  | .ncas f => some (f.rd, ref (gr s f.ra), 0x75, [f.funct.toNat % 8, (gr s f.rd).toNat, (gr s f.rb).toNat])
  | _ => none

/-! Part kv -/

/-- pfx_hash, one token at a time (R428). -/
def hashStep (h : Word) (tok : Nat) : Word :=
  let x := (h ^^^ BitVec.ofNat 64 tok) * 0xD1B54A32D192ED03#64
  x ^^^ (x >>> 29)
def hashEnd (h : Word) : Word := if h ^^^ (h >>> 32) = 0 then 1 else h ^^^ (h >>> 32)

/-! Part vec -/

/-- Bytes of a vector word's element (R222), and its float format (R49, R229). -/
def eltBytes (ty : BitVec 3) : Nat := match ty.toNat with | 0 => 4 | 3 => 4 | 1 => 2 | 2 => 2 | 4 => 2 | _ => 1
def eltFmt (ty : BitVec 3) (e5 : Bool) : Fmt :=
  match ty.toNat with | 0 => fp32 | 1 => bf16 | 2 => fp16 | _ => if e5 then e5m2 else e4m3

/-- Where vector `n` under a view stands in the core's register space, and whether `k` vectors from there lie in the
allocation (R98). -/
def regAt (s : State) (view n : Nat) : Nat := (s.slot s.cur.u).alloc.regBase + 256 * (view + n)
def regsIn (s : State) (view n k : Nat) : Prop := 256 * (view + n + k) ≤ (s.slot s.cur.u).alloc.regLen

/-- Bytes from `lo` of those vectors, all valid (R100), and the bytes. -/
def regsValid (s : State) (view n lo len : Nat) : Prop :=
  (s.core (coreOf s.cur.u)).regValid (regAt s view n + lo) len = true
def regBytes (s : State) (view n lo len : Nat) : List Byte := (s.core (coreOf s.cur.u)).regs.bytes (regAt s view n + lo) len

/-- VIEWV and VIEWM of the word's slot (R98). -/
def viewV (s : State) : Nat := (s.slot s.cur.u).csr.viewv.toNat
def viewM (s : State) : Nat := (s.slot s.cur.u).csr.viewm.toNat

/-- The SR mode for element position `j` (R228), and the mode of a code (R73). -/
def srAt (s : State) (j : Nat) : RMode :=
  .sr (srWord (s.ctx (s.slot s.cur.u).ctx).srkey.toNat (s.slot s.cur.u).csr.vsrtid.toNat
    ((s.slot s.cur.u).csr.vsridx.toNat / 2 ^ 48) (((s.slot s.cur.u).csr.vsridx.toNat % 2 ^ 48 + j) % 2 ^ 48))
def modeAt (s : State) (code j : Nat) : RMode := match code with | 0 => .rne | 1 => .rtz | _ => srAt s j

/-- A vector word of format VR: its fields, the vectors it reads from va, whether it reads vb and vd, its latency and its
clocks in the long unit (R227), and its result and flags from the bytes read. -/
structure VecForm where
  f : VR
  na : Nat
  useB : Bool
  useD : Bool
  lat : Nat
  long : Nat
  op : List Byte → List Byte → List Byte → List Byte × Nat

/-- The rounded result of a lane of the arithmetic words (R229). -/
def arithLane (s : State) (f : VR) (op : XR → XR → XR → XR) (i x y z : Nat) : Nat × Nat :=
  (eltFmt f.ty false).rnd (modeAt s (f.funct.toNat % 4) i)
    (op ((eltFmt f.ty false).dec x) ((eltFmt f.ty false).dec y) ((eltFmt f.ty false).dec z))

/-- The float format of a word whose funct[3] names the FP8 variant (R229). -/
def varFmt (f : VR) : Fmt := eltFmt f.ty (bitOf f.funct.toNat 3)

/-- A lane's integer, and a saturated result (R230). -/
def intOf (f : VR) (x : Nat) : Int := if f.ty = 6 then (x : Int) else sint (8 * eltBytes f.ty) x
def satOf (f : VR) (x : Int) : Nat × Nat :=
  let lo : Int := if f.ty = 6 then 0 else -(2 ^ (8 * eltBytes f.ty - 1))
  let hi : Int := if f.ty = 6 then 255 else 2 ^ (8 * eltBytes f.ty - 1) - 1
  (toBits (8 * eltBytes f.ty) (satInt lo hi x).1, (satInt lo hi x).2)

/-- All ones or zero of an element. -/
def onesIf (f : VR) (b : Bool) : Nat := if b then 2 ^ (8 * eltBytes f.ty) - 1 else 0

/-- The lane rule of a lane-wise word: its fields, whether it reads vb and vd, its latency, and lane i of the result from
lanes i of va, vb and vd, with its flags (R227, R229 to R231). -/
def laneForm (s : State) : Instr → Option (VR × Bool × Bool × Nat × (Nat → Nat → Nat → Nat → Nat × Nat))
  | .vadd f => some (f, true, false, 4, arithLane s f (fun a b _ => XR.add a b))
  | .vsub f => some (f, true, false, 4, arithLane s f (fun a b _ => XR.sub a b))
  | .vmul f => some (f, true, false, 4, arithLane s f (fun a b _ => XR.mul a b))
  | .vfma f => some (f, true, true, 4, arithLane s f (fun a b d => XR.add (XR.mul a b) d))
  | .vmin f => some (f, true, false, 4, fun _ a b _ => (varFmt f).minMax false a b)
  | .vmax f => some (f, true, false, 4, fun _ a b _ => (varFmt f).minMax true a b)
  | .vabs f => some (f, false, false, 4, fun _ a _ _ => (a % (varFmt f).signBit, 0))
  | .vneg f => some (f, false, false, 4, fun _ a _ _ => ((a + (varFmt f).signBit) % (2 * (varFmt f).signBit), 0))
  | .vcmp f => some (f, true, false, 4, fun _ a b _ =>
      (onesIf f ((varFmt f).cmpCond (f.funct.toNat % 8) a b).1, ((varFmt f).cmpCond (f.funct.toNat % 8) a b).2))
  | .vsel f => some (f, true, true, 4, fun _ a b d => (if d ≠ 0 then a else b, 0))
  | .vclamp f => some (f, true, true, 4, fun _ a b d =>
      let m := (varFmt f).minMax true d a
      (((varFmt f).minMax false m.1 b).1, m.2 ||| ((varFmt f).minMax false m.1 b).2))
  | .viadd f => some (f, true, false, 2, fun _ a b _ => ((a + b) % 2 ^ (8 * eltBytes f.ty), 0))
  | .visub f => some (f, true, false, 2, fun _ a b _ =>
      ((a + 2 ^ (8 * eltBytes f.ty) - b) % 2 ^ (8 * eltBytes f.ty), 0))
  | .vimul f => some (f, true, false, 3, fun _ a b _ => (a * b % 2 ^ (8 * eltBytes f.ty), 0))
  | .vimin f => some (f, true, false, 2, fun _ a b _ =>
      (if sint (8 * eltBytes f.ty) a ≤ sint (8 * eltBytes f.ty) b then a else b, 0))
  | .vimax f => some (f, true, false, 2, fun _ a b _ =>
      (if sint (8 * eltBytes f.ty) b ≤ sint (8 * eltBytes f.ty) a then a else b, 0))
  | .viminu f => some (f, true, false, 2, fun _ a b _ => (min a b, 0))
  | .vimaxu f => some (f, true, false, 2, fun _ a b _ => (max a b, 0))
  | .vicmp f => some (f, true, false, 2, fun _ a b _ =>
      (onesIf f (match f.funct.toNat % 8 with
        | 0 => a == b
        | 1 => a != b
        | 2 => decide (sint (8 * eltBytes f.ty) a < sint (8 * eltBytes f.ty) b)
        | 3 => decide (sint (8 * eltBytes f.ty) b ≤ sint (8 * eltBytes f.ty) a)
        | 4 => decide (a < b)
        | _ => decide (b ≤ a)), 0))
  | .vsadd f => some (f, true, false, 2, fun _ a b _ => satOf f (intOf f a + intOf f b))
  | .vssub f => some (f, true, false, 2, fun _ a b _ => satOf f (intOf f a - intOf f b))
  | .vmulsh f => some (f, true, false, 3, fun _ a b _ =>
      satOf f ((2 * sint (8 * eltBytes f.ty) a * sint (8 * eltBytes f.ty) b +
        (if bitOf f.funct.toNat 0 then 0 else 2 ^ (8 * eltBytes f.ty - 1))).fdiv (2 ^ (8 * eltBytes f.ty))))
  | .vand f => some (f, true, false, 2, fun _ a b _ => (a &&& b, 0))
  | .vor f => some (f, true, false, 2, fun _ a b _ => (a ||| b, 0))
  | .vxor f => some (f, true, false, 2, fun _ a b _ => (a ^^^ b, 0))
  | .vshl f => some (f, true, false, 2, fun _ a b _ =>
      (if 8 * eltBytes f.ty ≤ b then 0 else a * 2 ^ b % 2 ^ (8 * eltBytes f.ty), 0))
  | .vshr f => some (f, true, false, 2, fun _ a b _ => (if 8 * eltBytes f.ty ≤ b then 0 else a / 2 ^ b, 0))
  | .vsar f => some (f, true, false, 2, fun _ a b _ =>
      (toBits (8 * eltBytes f.ty) ((sint (8 * eltBytes f.ty) a).fdiv (2 ^ min b (8 * eltBytes f.ty))), 0))
  | .vpopc f => some (f, false, false, 2, fun _ a _ _ => (popCount (8 * eltBytes f.ty) a, 0))
  | _ => none

/-- The lanes of a vector's bytes. -/
def lanes (f : VR) (bs : List Byte) : List Nat := lanesOf (eltBytes f.ty) bs

/-- Bytes at the start of a vector whose other bytes are zero (R222). -/
def filled (bs : List Byte) : List Byte := bs ++ List.replicate (256 - bs.length) 0

/-- The extreme lane of VRMAX and VRMIN (R236): of floats under the rule of R109, of integers by value. -/
def extremeLane (f : VR) (mx : Bool) (l : List Nat) : Nat × Nat :=
  match l with
  | [] => (0, 0)
  | x :: r =>
    if f.ty.toNat ≤ 2 ∨ f.ty = 7 then
      r.foldl (fun m y => (((varFmt f).minMax mx m.1 y).1, m.2 ||| ((varFmt f).minMax mx m.1 y).2)) (x, 0)
    else (r.foldl (fun m y => if (if mx then intOf f m < intOf f y else intOf f y < intOf f m) then y else m) x, 0)

/-- The reference function of a transcendental word, with its latency (R227, R237). -/
def transForm : Instr → Option (VR × TransFn × Nat)
  | .vexp2 f => some (f, .exp2, 14)
  | .vlog2 f => some (f, .log2, 16)
  | .vrcp f => some (f, .rcp, 12)
  | .vrsq f => some (f, .rsq, 14)
  | .verf f => some (f, .erf, 32)
  | .vtanh f => some (f, .tanh, 32)
  | .vsigm f => some (f, .sigm, 30)
  | _ => none

/-- A word that works on whole vectors (R233 to R236, R241). -/
def wholeForm (s : State) : Instr → Option VecForm
  | .vmov f => some ⟨f, 1, false, false, 2, 0, fun a _ _ => (a, 0)⟩
  | .vpermb f => some ⟨f, 1, true, false, 3, 1, fun a b _ => (b.map (fun n => nth 0 a n.toNat), 0)⟩
  | .vshuf f => some ⟨f, 1, true, false, 3, 1, fun a b _ =>
      ((lanes f b).flatMap (fun n => leBytes (eltBytes f.ty) (nth 0 (lanes f a) n)), 0)⟩
  | .vcomp f => some ⟨f, 1, true, false, 4, 1, fun a b _ =>
      (filled ((((lanes f a).zip (List.range (256 / eltBytes f.ty))).filter (fun e => bitOf (leNat b) e.2)).flatMap
        (fun e => leBytes (eltBytes f.ty) e.1)), 0)⟩
  | .vmaskb f => some ⟨f, 1, false, false, 3, 1, fun a _ _ =>
      (filled (leBytes (256 / eltBytes f.ty / 8) ((lanes f a).foldr (fun x m => 2 * m + (if x ≠ 0 then 1 else 0)) 0)), 0)⟩
  | .vrsum f => some ⟨f, 1, false, false, 8, 2, fun a _ _ =>
      if f.ty.toNat ≤ 2 ∨ f.ty = 7 then
        let w := (lanes f a).map (fun x => fp32.rne ((varFmt f).dec x))
        let r := treeSum (Nat.log2 (lanes f a).length) (w.map (·.1))
        (filled (leBytes 4 r.1), w.foldl (fun m x => m ||| x.2) r.2)
      else (filled (leBytes 4 (toBits 32 (((lanes f a).map (intOf f)).sum))), 0)⟩
  | .vrmax f => some ⟨f, 1, false, false, 8, 2, fun a _ _ =>
      (filled (leBytes (eltBytes f.ty) (extremeLane f true (lanes f a)).1), (extremeLane f true (lanes f a)).2)⟩
  | .vrmin f => some ⟨f, 1, false, false, 8, 2, fun a _ _ =>
      (filled (leBytes (eltBytes f.ty) (extremeLane f false (lanes f a)).1), (extremeLane f false (lanes f a)).2)⟩
  | .vscan f => some ⟨f, 1, false, false, 10, 2, fun a _ _ =>
      let l := if bitOf f.funct.toNat 0 then (lanesOf 4 a).dropLast else lanesOf 4 a
      let r := scanSums (f.ty == 0) none l
      ((if bitOf f.funct.toNat 0 then List.replicate 4 0 else []) ++ r.flatMap (fun x => leBytes 4 x.1),
        r.foldl (fun m x => m ||| x.2) 0)⟩
  | .vqnt f => some ⟨f, if f.ty = 0 then 4 else 2, false, false, 10, 4, fun a _ _ =>
      let k := f.funct.toNat % 4
      let xs := (lanes f a).map (eltFmt f.ty false).dec
      let r (j : Nat) : RMode := if bitOf f.funct.toNat 3 then srAt s j else .rne
      if k = 3 then
        let c := cf4Block r xs
        (qPack k c.2.2.1 ++ filled (c.2.1.flatMap (leBytes 1) ++ leBytes 2 c.1), c.2.2.2)
      else
        let bs := ((pieces 32 8 xs).zip (List.range 8)).map (fun p => mxBlock k r p.2 p.1)
        (qPack k (bs.flatMap (·.2.1)) ++ filled ((bs.map (·.1)).flatMap (leBytes 1)), bs.foldl (fun m b => m ||| b.2.2) 0)⟩
  | .vdqnt f => some ⟨f, 2, false, false, 6, 2, fun a _ _ =>
      let k := f.funct.toNat % 4
      let sc := a.drop 256
      let scale (i : Nat) : Option XR :=
        if k = 3 then
          if badScale (leNat ((sc.drop 32).take 2)) then none
          else some (XR.mul (e3m5.dec (nth 0 sc (i / 8)).toNat) (bf16.dec (leNat ((sc.drop 32).take 2))))
        else if (nth 0 sc (i / 32)).toNat = 255 then none
        else some (XR.ofDy 1 (((nth 0 sc (i / 32)).toNat : Int) - 127))
      let r := ((qUnpack k (a.take 256)).zip (List.range 256)).map (fun e =>
        scaled (eltFmt f.ty false) ((qFmt k).dec e.1) (scale e.2))
      ((r.map (·.1)).flatMap (leBytes (eltBytes f.ty)), r.foldl (fun m x => m ||| x.2) 0)⟩
  | _ => none

/-- The operands of a VR word lie in the allocation and are valid, and its result, of `n` bytes, has room (R98, R100, R223). -/
def vecReadable (s : State) (v : VecForm) (n : Nat) : Prop :=
  regsIn s (viewV s) v.f.va.toNat v.na ∧ regsValid s (viewV s) v.f.va.toNat 0 (256 * v.na) ∧
    (v.useB = true → regsIn s (viewV s) v.f.vb.toNat 1 ∧ regsValid s (viewV s) v.f.vb.toNat 0 256) ∧
    (v.useD = true → regsIn s (viewV s) v.f.vd.toNat 1 ∧ regsValid s (viewV s) v.f.vd.toNat 0 256) ∧
    regsIn s (viewV s) v.f.vd.toNat ((n + 255) / 256)

/-- The banks of `n` vectors (R226). -/
def banksOf (view reg n : Nat) : List Nat := (List.range n).map (fun k => (view + reg + k) % 8)

/-- Its result and flags, and the fired entry (R101, R224, R226, R227). -/
def vecResult (s : State) (v : VecForm) : List Byte × Nat :=
  v.op (regBytes s (viewV s) v.f.va.toNat 0 (256 * v.na))
    (if v.useB then regBytes s (viewV s) v.f.vb.toNat 0 256 else [])
    (if v.useD then regBytes s (viewV s) v.f.vd.toNat 0 256 else [])
def vecFired (s : State) (v : VecForm) : InFlight :=
  { InFlight.of s.cur s.clock with
    lat := v.lat
    long := v.long
    reads := [(regAt s (viewV s) v.f.va.toNat, 256 * v.na)] ++
      (if v.useB then [(regAt s (viewV s) v.f.vb.toNat, 256)] else []) ++
      (if v.useD then [(regAt s (viewV s) v.f.vd.toNat, 256)] else [])
    banks := banksOf (viewV s) v.f.va.toNat v.na ++ (if v.useB then banksOf (viewV s) v.f.vb.toNat 1 else []) ++
      (if v.useD then banksOf (viewV s) v.f.vd.toNat 1 else [])
    clears := (if v.f.la then granules (regAt s (viewV s) v.f.va.toNat) (256 * v.na) else []) ++
      (if v.useB && v.f.lb then granules (regAt s (viewV s) v.f.vb.toNat) 256 else [])
    writes := [(regAt s (viewV s) v.f.vd.toNat, (vecResult s v).1)]
    flags := (vecResult s v).2 }

/-- An entry with vectors written from `lo` of register `reg` at its completion. -/
def writesReg (s : State) (e : InFlight) (view reg lo : Nat) (bs : List Byte) : InFlight :=
  { e with writes := e.writes ++ [(regAt s view reg + lo, bs)] }

/-- An entry with an operand read. -/
def readsReg (s : State) (e : InFlight) (view reg n lo len : Nat) (mark : Bool) : InFlight :=
  { e with
    reads := e.reads ++ [(regAt s view reg + lo, len)]
    banks := e.banks ++ banksOf view reg n
    clears := if mark then e.clears ++ granules (regAt s view reg) (256 * n) else e.clears }

/-- A fresh entry of the vector engine. -/
def vecNew (s : State) (lat long : Nat) : InFlight := { InFlight.of s.cur s.clock with lat := lat, long := long }

/-- A conversion of one lane (R232). -/
def convLane (s : State) (f : VR) (j x : Nat) : Nat × Nat :=
  let c := f.vb.toNat
  cvtLane (c / 64) (bitOf c 5) f.ty.toNat (bitOf f.funct.toNat 3) (modeAt s (c / 8 % 4) j) x

/-! Part xfer -/

/-- A scratchpad range of an entry, as it is compared with others (R225), and bytes it will write there. -/
def spanOf (a n : Nat) : Nat × Nat := (2 ^ 32 + a, n)
def inScratch (a : Nat) (bs : List Byte) : Nat × List Byte := (2 ^ 32 + a, bs)

/-- No watermark keeps bytes of the core's scratchpad from the word (R319): channels watch the slot's own allocation. -/
def spFree (s : State) (a n : Nat) : Prop :=
  let al := (s.slot s.cur.u).alloc
  al.spBase ≤ a → a + n ≤ al.spBase + al.spLen → s.kept s.cur.u (s.slot s.cur.u).ctx 1 (a - al.spBase) n = false

/-- Data ring `n` gives the word's engine `k` entries, or takes them (R191, R192); the ring as the entry sees it. -/
def ringGives (s : State) (n k : Nat) (r : Ring) : Prop :=
  let x := s.viewRing (s.slot s.cur.u) n
  x.logn ≠ 0 ∧ ownOk x.consown ((s.slot s.cur.u).owner s.cur.u s.cur.strm) = true ∧ max x.decl k ≤ x.occ ∧
    r = { x with cons := x.cons % 2 ^ 32 }
def ringTakes (s : State) (n k : Nat) (r : Ring) : Prop :=
  let x := s.viewRing (s.slot s.cur.u) n
  x.logn ≠ 0 ∧ ownOk x.prodown ((s.slot s.cur.u).owner s.cur.u s.cur.strm) = true ∧ k ≤ x.room ∧
    r = { x with prod := x.prod % 2 ^ 32 }

/-- Where entry number `m` of a data ring stands in the scratchpad (R189). -/
def entryAt (s : State) (n : Nat) (r : Ring) (m : Nat) : Nat := s.ringBase (s.slot s.cur.u) n + r.entry m

/-- The vectors an entry of `size` bytes fills (R241). -/
def vecsOf (size : Nat) : Nat := (size + 255) / 256

/-- The offsets of VGATH and VSCAT: aligned, inside the allocation, and below every watermark (R242). -/
def offsetsOk (s : State) (w : Nat) (l : List Nat) : Prop :=
  ∀ o, o ∈ l → o % w = 0 ∧ spReadable s o w

/-- Words of the moment unit that read moment registers and write one (R251 to R259): fields, whether mb is read and its
variances checked, whether an infinity is refused, the latency and long-unit clocks (R250), which halves of mb are looked at
for NaNs, and the element rule. -/
structure MomForm where
  f : VR
  useB : Bool
  chkB : Bool
  nonlin : Bool
  lat : Nat
  long : Nat
  halves : Mom → List Nat
  op : XR → Mom → Mom → FM Mom

/-- Both halves. -/
def halves2 (m : Mom) : List Nat := [m.mu, m.v]

def momForm : Instr → Option MomForm
  | .madd f => some ⟨f, true, true, false, 6, 2, halves2, fun rho a b => momAdd rho false a b⟩
  | .msub f => some ⟨f, true, true, false, 6, 2, halves2, fun rho a b => momAdd rho true a b⟩
  | .mmul f => some ⟨f, true, true, false, 8, 2, halves2, momMul⟩
  | .mscl f => some ⟨f, true, false, false, 5, 1, fun k => [k.mu], fun _ a k => momScale false a k⟩
  | .maff f => some ⟨f, true, false, false, 5, 1, halves2, fun _ a k => momScale true a k⟩
  | .mrelu f => some ⟨f, false, false, true, 40, 4, halves2, fun _ a _ => momRelu a⟩
  | .msigm f => some ⟨f, false, false, true, 36, 4, halves2, fun _ a _ => momSigm (fun x => sigmS x (fun f => f)) fin a⟩
  | .mexp f => some ⟨f, false, false, true, 34, 4, halves2, fun _ a _ => momExp a⟩
  | .mtanh f => some ⟨f, false, false, true, 38, 4, halves2, fun _ a _ => momTanh a⟩
  | .mmax2 f => some ⟨f, true, true, true, 48, 4, halves2, momMax2⟩
  | _ => none

/-- MCTL.CLAMP and the correlation in force (R245, R252). -/
def clampOn (s : State) : Bool := (s.slot s.cur.u).csr.mctl.getLsbD 2
def rhoOf (s : State) : XR :=
  match (s.slot s.cur.u).csr.mctl.toNat % 4 with
  | 0 => XR.zero
  | 1 => XR.ofInt 1
  | _ => fp32.dec ((s.slot s.cur.u).csr.mctl.toNat / 2 ^ 32)

/-- The elements of a moment register (R244), and what a word reads of a variance (R247). -/
def momsAt (s : State) (view reg : Nat) : List Mom := momsOf (regBytes s view reg 0 256)
def clampedVars (l : List Mom) : List Mom := l.map (fun m => { m with v := fixVar m.v })
def anyNeg (l : List Mom) : Bool := l.any (fun m => negVar m.v)

/-- The fired entry of a word that writes a moment register (R247, R248): −0 as +0, a variance below zero as +0 with CLAMPED
set, or, with MCTL.CLAMP clear, the entry that raises NEGVAR when it would complete: its write then is not made, and stands in the entry only for the
order of its issue group (R225). -/
def momFired (s : State) (e : InFlight) (vd : Nat) (clamped : Bool) (fl : Nat) (l : List Mom) : InFlight :=
  match (List.range 32).find? (fun i => negVar (nth default l i).v) with
  | some i =>
    if clampOn s then
      { e with
        writes := e.writes ++ [(regAt s (viewM s) vd, momBytes (clampedVars l))], flags := fl, clamped := true }
    else { e with
      writes := e.writes ++ [(regAt s (viewM s) vd, momBytes l)], trap := some ⟨cNEGVAR, 0, 256 * (viewM s + vd) + 8 * i + 4⟩ }
  | none => { e with
      writes := e.writes ++ [(regAt s (viewM s) vd, momBytes (clampedVars l))], flags := fl, clamped := clamped }

/-! Part mtx -/

/-- The word's core's lease run lets command `i` of claim `cl` fire (R268 to R270, R284): the claim is the task's, no other
command of the claim is in the way, the array is the core's with its current granted and its planes in place, and the run is
not over. -/
structure ArrayReady (s : State) (cl : Claim) (i : Instr) : Prop where
  claim : (s.core (coreOf s.cur.u)).claim = some cl
  mine : cl.of (s.slot s.cur.u) = true
  units : unitFree s cl i = .ok ()
  lower : lowerFirst s cl i = .ok ()
  holder : (s.arr (arrOf (coreOf s.cur.u))).holder = some (coreOf s.cur.u)
  amps : (s.arr (arrOf (coreOf s.cur.u))).amps ≠ 0
  fired : (s.arr (arrOf (coreOf s.cur.u))).fired < 64
  time : 0 < (s.arr (arrOf (coreOf s.cur.u))).fired → s.clock < (s.arr (arrOf (coreOf s.cur.u))).start + usClk 16

/-- The command is counted in its lease run, whose 16 µs begin with its first (R269). -/
def inRun (s : State) : State :=
  let ar := s.arr (arrOf (coreOf s.cur.u))
  s.setArr (arrOf (coreOf s.cur.u)) { ar with
    fired := ar.fired + 1, start := if ar.fired = 0 then s.clock else ar.start }

/-- A fired matrix command of a latency (R294), and the state with the claim replaced. -/
def mtxNew (s : State) (lat : Nat) : InFlight :=
  { InFlight.of s.cur s.clock with
    lat := if s.hub.fullClk.getLsbD (dieOf (coreOf s.cur.u)) = true then lat else 2 * lat }
def withClaim (s : State) (cl : Claim) : State :=
  s.setCore (coreOf s.cur.u) { s.core (coreOf s.cur.u) with claim := some cl }

/-- MCFG's moment-mode bit and row-sum bit (R271). -/
def momOn (cl : Claim) : Bool := match cl.mcfg with | some v => bitOf v 15 | none => false
def rowSumOn (cl : Claim) : Bool := match cl.mcfg with | some v => bitOf v 14 | none => false

/-- The member of its gang the word's slot is. -/
def memberNo (s : State) : Nat :=
  if (s.slot s.cur.u).gang.isEmpty then 0 else ((s.slot s.cur.u).gang.takeWhile (· ≠ s.cur.u)).length

/-- A matrix command that only changes the claim: its condition, the claim, and its latency (R271, R285, R288, R293). -/
def claimChange (s : State) (cl : Claim) : Instr → Option (Prop × Claim × Nat)
  | .mcfg f => some (cl.opened = none, { cl with mcfg := some f.imm.toNat }, 2)
  | .mchainOpen f =>
    let v := f.imm.toNat
    some (cl.opened = none ∧ (momOn cl = true → v / 2 ^ 14 % 4 = 3),
      { cl with opened := some (v / 4 % 64, v / 2 ^ 8 % 64 + 1, v / 2 ^ 14 % 4) }, 1)
  | .mchainClose => some (cl.opened.isSome = true, { cl with opened := none }, 1)
  | .mepi f =>
    let b := granBytes s f.gran.toNat 64
    some (granOk s f.gran.toNat 64 ∧ (Epi.parse b).ok b (rowSumOn cl) = true,
      { cl with epi := b, epiBy := memberNo s }, 8)
  | .mheapclr f =>
    let r := f.imm.toNat % 64
    let m := f.imm.toNat / 64 % 64 + 1
    some (r + m ≤ 64,
      (List.range m).foldl (fun (c : Claim) j => { c with
        heaps := Tbl.del c.heaps (r + j)
        caps := Tbl.set 0 c.caps (r + j) ((Epi.parse cl.epi).k + 256 * (Epi.parse cl.epi).g) }) cl, 2 + m)
  | _ => none

/-- Rows `arow` to `arow + m - 1` and halves `hs` lie inside the open chain (R285). -/
def rowsOpen (cl : Claim) (arow m : Nat) (hs : List Nat) : Prop :=
  ∃ r n hm, cl.opened = some (r, n, hm) ∧ r ≤ arow ∧ arow + m ≤ r + n ∧ ∀ h, h ∈ hs → bitOf hm h = true

/-- The halves a row command names (R283, R289). -/
def halvesAt (cl : Claim) (h : Bool) : List Nat := if momOn cl then [0, 1] else [if h then 1 else 0]

/-- Accumulator rows set to the identity of the configured semiring (R265, R283). -/
def zeroRows (s : State) (c : Cfg) (arow m : Nat) (hs : List Nat) : State :=
  (List.range m).foldl (fun s r => hs.foldl (fun s h =>
    s.setCore (coreOf s.cur.u)
      ((s.core (coreOf s.cur.u)).setAcc h (arow + r) (List.replicate 1536 c.identity))) s) s

/-- Clocks of `n` A planes at the claim's class (R270, R294). -/
def planeClocks (cl : Claim) (n : Nat) : Nat := (16 * n + cl.cls) / (cl.cls + 1)

/-- A new plane in a role, with its tag expected there (R275). -/
def planeIn (s : State) (cl : Claim) (pl : Bool) (t : PlaneTag) (p : Plane) : State :=
  let a := arrOf (coreOf s.cur.u)
  let ar := s.arr a
  withClaim (s.setArr a { ar with planes := Tbl.put ar.planes ((ar.role + (if pl then 1 else 0)) % 2) p })
    (if pl then { cl with shadow := some t } else { cl with active := some t })

/-- The plane that stands in a role and carries the tag the claim expects there (R270). -/
def planeOf (s : State) (cl : Claim) (pl : Bool) : Option Plane :=
  let ar := s.arr (arrOf (coreOf s.cur.u))
  let p := Tbl.get default ar.planes ((ar.role + (if pl then 1 else 0)) % 2)
  match if pl then cl.shadow else cl.active with
  | some t => if p.tag = some t then some p else none
  | none => none

/-- A load that is skipped is counted (R275, R465). -/
def skipped (s : State) : State :=
  (s.count0 (coreOf s.cur.u) 0x0B (some (s.cur.u % 4)) 1).fixedAdd (s.fnOf (s.slot s.cur.u).ctx) 4 (coreOf s.cur.u) 1

/-- The clocks of a plane load (R294). -/
def loadClocks (btype rows cols : Nat) : Nat :=
  32 + max ((rows * cols * fmtBits btype / 8 + 2047) / 2048) ((scaleBytes btype rows * cols + 1023) / 1024)

/-- MHEAPRD's record of a row (R292). -/
def heapBytes (k gen size : Nat) (l : List HeapEnt) : List Byte :=
  let b := leBytes 4 l.length ++ leBytes 1 (if l.length = 0 then 2 else if l.length = k then 0 else 1) ++ leBytes 1 k ++
    leBytes 2 gen ++ List.replicate 8 0 ++ l.flatMap (fun h => leBytes 4 h.score ++ leBytes 4 h.token)
  b ++ List.replicate (size - b.length) 0

/-! Part task -/

/-- A slot holds nothing of a task but the task itself: no entry in flight, no result, no prefix, no held entry, and no
handler that has begun. -/
structure SlotAtRest (sl : Slot) : Prop where
  eng : sl.eng = []
  pend : sl.pend = []
  pfx : sl.pfx = none
  held : sl.opened = [] ∧ sl.closed = []
  plain : sl.csr.uiact = false

/-- No other slot of the machine holds or drains a slot's task. -/
def sole (s : State) (u : Nat) : Prop :=
  ∀ v, v ≠ u → ∀ x, ((s.slot v).task = some x ∨ ((s.slot v).drain.map (·.task)) = some x) →
    ¬(x.ctx = (s.slot u).tk.ctx ∧ x.seq = (s.slot u).tk.seq)

/-- Every command ring of a slot is empty and every engine free of its entries. -/
def ringsDrained (s : State) (u : Nat) : Prop :=
  ∀ e, e < 4 → ((s.slot u).cring e).occ = 0 ∧ (s.slot u).eng.any (fun x => x.1 == e) = false

/-! Part launch -/

/-- A task's key after an aging tick: aged by the rate of its launch, if that ages (R214). -/
def agedTask (s : State) (t : Task) : Task :=
  match s.runs.find? (fun r => r.aging % 2 ^ 31 ≠ 0 && r.id == t.run) with
  | some r => { t with key := ageKey t.key r.aging }
  | none => t

/-! Part acc -/

/-- An access descriptor within its own rules (R344, R345, R346, R349). -/
def accOk (op : AccOp) (b : List Byte) : Prop :=
  let d := AccDesc.parse b
  d.list < 2 ^ 15 ∧ d.loc < 2 ^ 15 ∧ d.opnd < 2 ^ 15 ∧ d.mode < 8 ∧ d.pkg < (if d.expl then 81 else 1) ∧
    (∀ x ∈ b.drop 28, x = 0) ∧ (op ≠ .rld → d.toSp = false) ∧
    (if op = .atom then d.bytes = 0 else 8 ≤ d.bytes ∧ d.bytes ≤ 256 ∧ d.bytes % 8 = 0) ∧
    (op = .aqld ∨ op = .mcst → d.isList = false) ∧ (op = .mcst → d.expl = false)

/-- `n` scratchpad entries of `w` bytes, one every `k`, lie in the slot's allocation; where entry `j` lies (R345). -/
def entriesOk (s : State) (gran n w k : Nat) : Prop := 64 * gran + (k * (n - 1) + w) ≤ (s.slot s.cur.u).alloc.spLen
def localAt (s : State) (gran k j : Nat) : Nat := granAt s gran + k * j

/-- The addresses of a word's entries: strided, or doublewords of the list (R345). -/
def entryAddrs (s : State) (d : AccDesc) (n : Nat) : List Nat :=
  (List.range n).map (fun j =>
    if d.isList then (s.core (coreOf s.cur.u)).scratch.num (localAt s d.list 8 j) 8
    else toBits 64 ((d.addr : Int) + (j : Int) * d.stride))

/-- An access word's descriptor at its granule passes, and so does the list it may name. -/
structure AccReady (op : AccOp) (s : State) (gran n : Nat) (d : AccDesc) : Prop where
  free : s.EngineFree
  readable : granOk s gran 64
  desc : d = AccDesc.parse (granBytes s gran 64)
  ok : accOk op (granBytes s gran 64)
  list : d.isList = true → entriesOk s d.list n 8 8

/-- The bytes of an entry of LOCAL. -/
def localBytes (s : State) (a n : Nat) : List Byte := (s.core (coreOf s.cur.u)).scratch.bytes a n

/-- One more request countedReq (R465). -/
def countedReq (s : State) : State := s.count0 (coreOf s.cur.u) 0x07 (some (s.cur.u % 4)) 1

/-- Entry (aj, home), LOCAL of an RLD into the scratchpad: the bytes at aj go to LOCAL; from another package a packet asks
for them and its tag is awaited (R346). -/
def rldEntry (s : State) (n : Nat) (e : (Nat × Option Nat) × Nat) : M (State × List Nat) :=
  let m := countedReq s
  let put (m : State) (bs : List Byte) : State :=
    m.modCore (coreOf s.cur.u) (fun c => { c with scratch := c.scratch.store e.2 bs })
  match e.1.2 with
  | none => do
    let (m, bs) ← tensorRead m (coreOf s.cur.u) ptACC (s.slot s.cur.u).ctx e.1.1 n
    return (put m bs, [])
  | some pkg =>
    match (m.rcBytes (coreOf s.cur.u) pkg (s.slot s.cur.u).ctx e.1.1 n).mapM id with
    | some bs => .ok (put m bs, [])
    | none =>
      let (m, tag) := m.sendRead s.cur.u 4 pkg (s.slot s.cur.u).ctx e.1.1 n (.toSp s.cur.u e.2 pkg e.1.1 n)
      .ok (m, [tag])

/-- An entry of an RLD into a queue (R346). -/
def rldQueue (s : State) (q n : Nat) (e : (Nat × Option Nat) × Nat) : M (State × List Nat) := do
  let (m, tag) ← oqRead s s.cur.u q e.1.1 n e.1.2
  return (m, tag.toList)

/-- An entry of an RST: LOCAL's bytes are written at aj, or sent there as one countedReq write packet (R346, R348, R350); a
resident line of the remote cache is updated as well (R340). -/
def rstEntry (s : State) (n : Nat) (e : (Nat × Option Nat) × Nat) : M (State × List Nat) :=
  let m := countedReq s
  let bs := localBytes m e.2 n
  let t := (s.slot s.cur.u).tk
  match e.1.2 with
  | none => do
    let m ← tensorWrite m (coreOf s.cur.u) ptACC (s.slot s.cur.u).ctx e.1.1 bs
    return (m, [])
  | some pkg =>
    .ok ((m.rcUpdate (coreOf s.cur.u) pkg t.ctx e.1.1 bs).sendWrite s.cur.u 4 pkg t.ctx (e.1.1 / 2 ^ 52)
      (e.1.1 % 2 ^ 52) t.seq t.interval bs, [])

/-- An entry of an RMCST: written here when the group says so, and sent to the group's peers (R349). -/
def mcstEntry (s : State) (g n : Nat) (e : (Nat × Option Nat) × Nat) : M (State × List Nat) := do
  let m := countedReq s
  let bs := localBytes m e.2 n
  let t := (s.slot s.cur.u).tk
  let m ← if bitOf (m.group g) 16 then tensorWrite m (coreOf s.cur.u) ptACC t.ctx e.1.1 bs else pure m
  return (m.sendMulticast s.cur.u 4 g t.ctx (e.1.1 / 2 ^ 52) (e.1.1 % 2 ^ 52) t.seq t.interval bs, [])

/-- Entries in ascending order, with the tags awaited (R346). -/
def runInOrder (step : State → (Nat × Option Nat) × Nat → M (State × List Nat)) :
    State → List ((Nat × Option Nat) × Nat) → M (State × List Nat)
  | s, [] => .ok (s, [])
  | s, e :: t => do
    let (s, a) ← step s e
    let (s, b) ← runInOrder step s t
    return (s, a ++ b)

/-- The checks of an RMCST's entry: alignment, one 256-byte block, a tensor of device memory that may be written, with its
home here when the group writes here (R345, R349). -/
def mcstCheck (g n : Nat) (s : State) (a : Nat) : M State := do
  need (a % 8 = 0) cALIGN 0 a
  need (a % 256 + n ≤ 256) cPERM pRANGE a
  let (m, d) ← openTensor s (coreOf s.cur.u) ptACC (s.slot s.cur.u).ctx a n true
  need (!d.hosted && (!bitOf (s.group g) 16 || d.home s.fab.pkg (d.pos (a % 2 ^ 52) / 65536) = s.fab.pkg)) cPERM pSPACE a
  return m

/-- The check that a hosted tensor's atomics are of its kinds (R143, R319). -/
def hostCheck (cas : Bool) (op : Nat) (s : State) (e : Nat × Option Nat) : M State := do
  if e.2 = none then
    let (m, d) ← getDesc s (coreOf s.cur.u) ptACC (s.slot s.cur.u).ctx (e.1 / 2 ^ 52) e.1
    need (!d.hosted || cas || op ≤ 1) cPERM pSPACE e.1
    return m
  else return s

/-- An entry of a RATOM or RCAS whose home is here: the old value is read, the new one written, the old one put in its result
(R143, R144, R347). -/
def atomEntry (s : State) (r : RemOp) : M (State × Nat) := do
  let m := countedReq s
  let (m, d) ← getDesc m (coreOf s.cur.u) ptACC (s.slot s.cur.u).ctx (r.va / 2 ^ 52) r.va
  let (m, ps) ← placeBytes (coreOf s.cur.u) ptACC (s.slot s.cur.u).ctx (r.va / 2 ^ 52) d m (r.va % 2 ^ 52) r.n
  let old := leNat (← m.getMems ps)
  let a := r.a.toNat % 2 ^ (8 * r.n)
  let x := match r.cas with
    | some v => (if old = a then v.toNat % 2 ^ (8 * r.n) else old, 0)
    | none => atomOp r.op r.n old a
  let m ← m.putMems (ps.zip (leBytes r.n x.1))
  return (if r.res = 0 then m
    else m.modCore (coreOf s.cur.u) (fun c => { c with scratch := c.scratch.setNum (r.res - 1) 8 old }), x.2)

/-- The entries of such a word from entry `j` on, in ascending order, with the flags they raise, up to the first whose home is
another package: that one goes out as a packet, and its tag is awaited (R347). -/
def runAtomEntries : State → Nat → List RemOp → M (State × Nat × List Nat)
  | s, _, [] => .ok (s, 0, [])
  | s, j, r :: t => do
    if r.pkg ≠ s.fab.pkg then
      let (m, tag) := (countedReq s).sendAtomic s.cur.u 4 (s.slot s.cur.u).ctx r (.toRes s.cur.u false j (r :: t))
      return (m, 0, [tag])
    else
      let (s, a) ← atomEntry s r
      let (s, b, w) ← runAtomEntries s (j + 1) t
      return (s, orF a b, w)

/-- What the entries of a RATOM or RCAS are, from its descriptor (R345, R346): operand j, result j (its address plus one, 0
without one), and the value an RCAS writes. -/
def atomEntries (s : State) (f : AR) (cas res : Bool) (d : AccDesc) (es : List (Nat × Option Nat)) : List RemOp :=
  (es.zip (List.range es.length)).map (fun e =>
    let k := if cas then 16 else 8
    let o := localAt s d.opnd k e.2
    { pkg := e.1.2.getD s.fab.pkg
      va := e.1.1
      op := if cas then 0 else f.funct.toNat % 16
      n := if fld f.funct.toNat 4 2 = 2 then 4 else 8
      a := BitVec.ofNat 64 ((s.core (coreOf s.cur.u)).scratch.num o 8)
      cas := if cas then some (BitVec.ofNat 64 ((s.core (coreOf s.cur.u)).scratch.num (o + 8) 8)) else none
      res := if res then localAt s d.loc 8 e.2 + 1 else 0 })

/-- RATOM and RCAS: a compare, and a result (R346). -/
def atomForm : Instr → Option (AR × Bool × Bool)
  | .ratom f => some (f, false, f.funct.getLsbD 6)
  | .rcas f => some (f, true, true)
  | _ => none

/-- The word's slot's task. -/
def myTask (s : State) : Task := (s.slot s.cur.u).tk

/-- What XCANCEL, XCANCEL.recv and XRESUME make of the state (R361, R362), and the clocks they take. -/
def msgWord (s : State) : Instr → Option State
  | .xcancel f => some (match s.findMsg (myTask s).ctx (myTask s).seq f.mid.toNat with | some m => s.msgCancel m | none => s)
  | .xcancelRecv f => some (match s.recv (myTask s).ctx (f.mid.toNat % 1024) with
      | some r => if r.live = true ∧ r.seq = (myTask s).seq then s.recvEnd (myTask s).ctx (f.mid.toNat % 1024) msCANCEL else s
      | none => s)
  | .xresume f => some (match s.findMsg (myTask s).ctx (myTask s).seq f.mid.toNat with | some m => s.msgResume m | none => s)
  | _ => none

/-! Part fab -/

/-- The packets that stand in a flow (R334, R337), and those that count in an interval (R350). -/
def flowPacket : Instr → Option Nat
  | .readPacket => some 0x01
  | .writePacket => some 0x03
  | .atomicPacket => some 0x05
  | .multicastWritePacket => some 0x07
  | .pullDataPacket => some 0x12
  | .nodeOperationPacket => some 0x30
  | _ => none
def countsIn (type : Nat) : Bool := type = 0x03 || type = 0x07 || type = 0x12

/-- The packet of the occasion, of a type, is for this package. -/
def Here (s : State) (type : Nat) (p : Packet) : Prop := p = s.occ.pkt ∧ p.type = type ∧ p.dst = s.fab.pkg

/-- The packet is the next of its flow, and none of the flow has come early; with what its count leaves (R335, R350). -/
structure NextOfFlow (s : State) (type : Nat) (p : Packet) (k : Nat) (s1 : State) : Prop where
  here : Here s type p
  far : p.src ≠ s.fab.pkg
  slots : type = 0x30 → s.occ.a = 5
  key : k = s.flowOf s.occ.a p
  next : p.fseq = s.expect k
  alone : ∀ e ∈ s.fab.early, e.1 ≠ k
  got : s1 = if countsIn type then s.countGot p else s

/-- A packet of a flow has been performed: the flow's next number follows it and is no longer missing, a forwarded copy counts
among those of its source agent, and a write is acknowledged (R335, R348). -/
def flowDone (m : State) (type : Nat) (p : Packet) (strm k : Nat) : State :=
  let x := (m.passed k).copied strm p
  if countsIn type then x.ackFlow p strm k else x

/-- A packet about a message leaves by the fabric; one for this package itself is taken by a step of its own (R348). -/
def posted (s t : State) (q : Packet) : Prop :=
  if q.dst = s.fab.pkg then t.fab.outbox = s.fab.outbox ∧
    t.agenda = s.agenda ++ [.event (msgStep q.type) { (default : Occasion) with a := 4, pkt := q }]
  else t.fab.outbox = s.fab.outbox ++ [q] ∧ t.agenda = s.agenda

/-- A package that a packet may be sent through in place of its next hop: another one in the row, or the column, in which the hop
lies (R335). -/
def mayVia (s : State) (hop k : Nat) : Prop :=
  s.inGrid k = true ∧ k ≠ s.fab.pkg ∧ k ≠ hop ∧ (if s.fab.pkg / 9 = hop / 9 then s.fab.pkg / 9 = k / 9 else s.fab.pkg % 9 = k % 9)

/-- The slot stands in a word that waits for an answer of a tag, which will retire without a redirect. -/
structure AwaitsTag (s : State) (u tag : Nat) (cur : Cursor) : Prop where
  run : (s.core (coreOf u)).stopped = none
  hold : (s.slot u).hold = .remote tag 0
  word : (s.slot u).inHand = some cur
  latch : (s.slot u).latch = none
  npc : (s.slot u).npc = none
  loops : (s.slot u).loops = []

/-- The waiting word has its value and has retired: the slot holds it, every other register is as it was, and the PC has
moved on. -/
def Answered (s t : State) (u rd : Nat) (v : Word) (cur : Cursor) : Prop :=
  (t.slot u).hold = .none ∧ (t.slot u).pc = (s.slot u).pc + cur.len ∧
    (∀ n, n < 64 → (t.slot u).greg n = if n = rd ∧ n ≠ 0 then v else (s.slot u).greg n) ∧ ∀ w, w ≠ u → t.slot w = s.slot w

/-! Part stop -/

/-- A core is stopped by a fault: slot, stream and trap. -/
def stoppedBy (s : State) (core u : Nat) (m : Stream) (t : Trap) : Prop :=
  ∃ x, (s.core core).stopped = some x ∧ x.slot = u ∧ x.strm = m ∧ x.trap = t

/-- A fault of a core has been found: the core stops for it, at once or when what is in flight there has completed (R129). -/
def raisedBy (s : State) (core u : Nat) (m : Stream) (t : Trap) : Prop :=
  ∃ x, ((s.core core).stopped = some x ∨ ∃ n, (s.core core).raised = some (x, n)) ∧ x.slot = u ∧ x.strm = m ∧ x.trap = t

/-- A core runs, and no fault of it has been found. -/
def Runs (s : State) (core : Nat) : Prop := (s.core core).stopped = none ∧ (s.core core).raised = none

/-- A fault of a slot's stream stops its core at once: no stream before it can act in the same clock, nothing of the core is in
flight, and no task is to leave for a tile fault (R129, R165). -/
structure StopsHere (s : State) (u : Nat) (m : Stream) : Prop where
  first : s.dueBefore (coreOf u) (faultPlace u m) = false
  still : ∀ k, k < 4 → s.busy (4 * coreOf u + k) = false
  clear : ∀ v, (s.slot v).faults = []

/-- A tile fault takes a slot's task out at once: it is the first, no other stream of the slot can act in the same clock, and no
fired entry, answer or release is waited for (R165, R166, R175). -/
structure LeavesHere (s : State) (u : Nat) : Prop where
  single : (s.slot u).gang = []
  first : (s.slot u).faults = [] ∧ s.dueIn [u] = false
  still : s.busy u = false ∧ s.roomComing u = false ∧ (s.slot u).closed.any (s.slowEntry u) = false

/-- A slot but for the list of its stores that are on their way (R167). -/
def butSent (sl : Slot) : Slot := { sl with sent := [] }

/-- A core stands stopped for the fault policy: its stop waits for it, none of its slots is in a gang or drains, and no entry of
its closed regions has to wait before it drains. -/
structure AwaitsPolicy (s : State) (core : Nat) (st : Stop) : Prop where
  stop : (s.core core).stopped = some st
  phase : st.phase = 0
  own : st.drain = false
  single : ∀ k, k < 4 → (s.slot (4 * core + k)).gang = [] ∧ (s.slot (4 * core + k)).drain = none
  fast : s.slowOn core = false

/-- A fired entry of an engine that waits for nothing, and does no more than write registers, flags and signals; nothing of the
slot waits for its end. -/
structure PlainEntry (s : State) (u e : Nat) (f : InFlight) : Prop where
  found : (s.slot u).eng.find? (fun x => x.1 == e) = some (e, f)
  waits : f.waits = [] ∧ f.acks = [] ∧ f.fence = false
  own : f.drain = false
  fired : f.chosen = false
  moves : f.advances = [] ∧ f.oqs = [] ∧ f.sched = false ∧ f.grant = 0
  alone : (s.slot u).hold ≠ .tdone ∧ ∀ v ∈ s.unitsOf u, (s.slot v).faults = []

/-! Part hub -/

/-- What a write to a BAR0 register does (R470): the value it takes, and the state after it. -/
def barEffect (s : State) : Bar0Reg → Nat → Option (Prop × State)
  | .gscfg, v => some (64 ≤ v / 2 ^ 32 ∧ v < 2 ^ 64,
      { s with fab := { s.fab with gscfg := BitVec.ofNat 64 (v / 2 ^ 16 * 2 ^ 16 + (if 5 ≤ v % 8 then 2 else v % 8)) } })
  | .mcast g, v => some (True, { s with fab := { s.fab with groups := Tbl.set 0 s.fab.groups (g % 65536) (v % 2 ^ 18) } })
  | .slcowner k, v => some (True, { s with hub := { s.hub with slcowner := Tbl.set 0 s.hub.slcowner (k % 64) (v % 16) } })
  | .trbctl k, v => some (True, { s with hub := { s.hub with
      trbctl := Tbl.set 0 s.hub.trbctl (k % 64) (v % 2 ^ 2 + v / 2 ^ 16 % 2 ^ 4 * 2 ^ 16) } })
  | .logctl k, v => some (True, { s with hub := { s.hub with
      logctl := Tbl.set 0 s.hub.logctl (k % 64) (v % 2 ^ 10 + v / 2 ^ 16 % 2 ^ 4 * 2 ^ 16) } })
  | .pmowner c, v => some (True, s.modCore (c % 128) (fun x => { x with pmowner := v % 16 }))
  | .pmvec f, v => some (True, { s with hub := { s.hub with pmvec := Tbl.set 0 s.hub.pmvec (f % 16) (v % 64) } })
  | .bcmClear c, _ => some (True, s.modCore (c % 128) (fun x => { x with bcm := [] }))
  | .ctxFunction c, v => some (True, s.modCtx (c % 256) (fun x => { x with fn := v % 16 }))
  | .timeSource, v => some (v ≤ 2, { s with hub := { s.hub with timeSrc := v } })
  | _, _ => none

/-- The feeding of a group's forward launch, before its record is armed (R435): the ring takes the entry, the window its four
words, and the tail moves on. -/
def fedState (s : State) (c r ring tail i : Nat) : State :=
  let s := s.setDev (ring + 2 * (tail % 4096)) 2 i
  let s := s.modGen c (fun x => { x with tails := Tbl.set 0 x.tails (beGroup (Tbl.get [] x.snap i)) ((tail + 1) % 4096) })
  let s := s.setRecF c r 256 8 ((s.ctx c).reg 0x50 8)
  let s := s.setRecF c r 264 8 ((s.genOf c).iter % 2 ^ 32)
  (s.setRecF c r 272 8 tail).setRecF c r 280 8 ((tail + 1) % 4096)

/-- A generation iteration that has sampled all but the entry at hand ends once that entry is done with. -/
structure LastEntry (s : State) (c phase : Nat) : Prop where
  phase : (s.genOf c).phase = phase
  todo : (s.genOf c).todo = []
  nocand : (s.genOf c).nocand = false

end Sys2Proof.Claim

open Sys2Proof Sys2Proof.Machine Sys2Proof.Claim

/-- R103: a word of the integer group writes its result to g[rd], from its latency on, and nothing else but the PC
changes: no flag, no memory, no other register. -/
def Obligations.IntegerWordsWriteTheirResult : Prop :=
  ∀ (i : Instr) (f : S3) (op : Word → Word → Word) (lat : Nat) (s : State),
    intWord i = some (f, op, lat) → s.Issues →
    ∃ t, exec i s = .next t ∧ WordDone s t lat (s.gWith f.rd (op (gr s f.ra) (srcB s f))) (preds s) (after s)

/-- R103: a division writes its quotient or remainder, rounded toward zero; a division by zero writes all ones or the
dividend, and goes on unless CORECTL.TDIV is set. R481: its latency depends on the bit length of the dividend alone. -/
def Obligations.DivisionWordsWriteTheirResult : Prop :=
  ∀ (i : Instr) (f : S3) (op : Word → Word → Word) (s : State),
    divWord i = some (f, op) → s.Issues →
    (srcB s f = 0 → (s.slot s.cur.u).csr.corectl.getLsbD 3 = false) →
    ∃ t, exec i s = .next t ∧
      WordDone s t (divClocks i (gr s f.ra)) (s.gWith f.rd (if srcB s f = 0 then divByZero i (gr s f.ra) else op (gr s f.ra) (srcB s f)))
        (preds s) (after s)

/-- R104 to R106, R108: CLZ, POPC, LEA, LI, LIS, SEL, PMOV.rd and PMOV.st write their result to g[rd] in the next clock, and
change nothing else. -/
def Obligations.MoveWordsWriteTheirResult : Prop :=
  ∀ (i : Instr) (rd : BitVec 6) (v : Word) (s : State),
    moveWord s i = some (rd, v) → s.Issues →
    ∃ t, exec i s = .next t ∧ WordDone s t 1 (s.gWith rd v) (preds s) (after s)

/-- R107, R108: CMP and the predicate group write one predicate, PMOV.wr writes p1 to p7; nothing else changes. A word that
decodes as a CMP has its opcode, a condition of R107's list, the rest of funct zero, and no immediate. -/
def Obligations.PredicateWordsWriteTheirResult : Prop :=
  (∀ (i : Instr) (pd : Nat) (v : Bool) (s : State),
    predWord s i = some (pd, v) → s.Issues →
    ∃ t, exec i s = .next t ∧ WordDone s t 1 (gregs s) (s.pWith pd v) (after s)) ∧
  (∀ (f : S3) (s : State), s.Issues →
    ∃ t, exec (.pmovWr f) s = .next t ∧
      WordDone s t 1 (gregs s) (fun n => n = 0 || (gr s f.ra).getLsbD n) (after s)) ∧
  (∀ (c : Ctl) (f : S3) (w w2 : Nat), decode .seq w w2 = .ok (c, .cmp f) →
    w / 2 ^ 40 % 256 = 0x20 ∧ f.i = false ∧ f.funct.toNat < 8)

/-- R109 to R111: a scalar float word writes its rounded result, zero-extended, and sets its flags in AFLAGS; FCMP writes a
predicate and sets its flags. Stated where no flag it raises has its trap enabled. -/
def Obligations.FloatWordsWriteTheirResult : Prop :=
  (∀ (i : Instr) (rd : BitVec 6) (r : Word × Nat) (lat : Nat) (s : State),
    fltWord s i = some (rd, r, lat) → s.Issues → untrapped s r.2 →
    ∃ t, exec i s = .next t ∧ WordDone (withFlags s r.2) t lat (s.gWith rd r.1) (preds s) (after s)) ∧
  (∀ (f : S3) (s : State) (r : Bool × Nat),
    r = (fltFmt f).cmpCond (f.funct.toNat / 16 % 8) (gr s f.ra).toNat (gr s f.rb).toNat →
    s.Issues → untrapped s r.2 →
    ∃ t, exec (.fcmp f) s = .next t ∧ WordDone (withFlags s r.2) t 2 (gregs s) (s.pWith (f.rd.toNat % 8) r.1) (after s))

/-- R112, R115: BR and JMP. One that is not taken goes on; one that is taken goes to its target when that is a multiple of
8 inside the image, and leaves the loops R115 names; inside a LOOP of several stages it must leave the body. -/
def Obligations.BranchesRedirect : Prop :=
  ∀ (i : Instr) (taken : Bool) (tgt : Int) (s : State), branchTo s i = some (taken, tgt) → s.Issues →
    (taken = false → ∃ t, exec i s = .next t ∧ WordDone s t 1 (gregs s) (preds s) (after s)) ∧
    (taken = true → targetOk s tgt →
      (inBody (s.slot s.cur.u) → ∀ l r, (s.slot s.cur.u).loops = l :: r → holdsPc l tgt.toNat = true → l.ns ≤ 1) →
      ∃ t, exec i s = .next t ∧
        WordJumps s t 1 (gregs s) (preds s) tgt.toNat (loopsAfter (s.slot s.cur.u) tgt.toNat))

/-- R112, R123: CALL writes the return address to g63 of the bank in force and goes to its target, RET goes to g63, and
UIRET goes to UIPC.PC, outside the handler, with the main bank in force. CALL, RET and UIRET leave no loop. -/
def Obligations.CallsAndReturns : Prop :=
  (∀ (f : SB) (s : State), s.Issues → targetOk s (((s.slot s.cur.u).pc : Int) + 8 * f.off.toInt) →
    ∃ t, exec (.call f) s = .next t ∧
      WordJumps s t 1 (s.gWith 63 (BitVec.ofNat 64 ((s.slot s.cur.u).pc + 8))) (preds s)
        (((s.slot s.cur.u).pc : Int) + 8 * f.off.toInt).toNat (s.slot s.cur.u).loops) ∧
  (∀ (s : State), s.Issues → targetOk s (gr s 63).toNat →
    ∃ t, exec .ret s = .next t ∧ WordJumps s t 1 (gregs s) (preds s) (gr s 63).toNat (s.slot s.cur.u).loops) ∧
  (∀ (s m : State), s.Issues → (s.slot s.cur.u).csr.uiact = true → m = withCsr s (fun c => { c with uiact := false }) →
    ∃ t, exec .uiret s = .next t ∧
      WordJumps m t 1 (gregs m) (preds s) (s.slot s.cur.u).csr.uipc.toNat (s.slot s.cur.u).loops)

/-- R113, R115: LOOP and LOOPX. A count of 0 goes past the body; any other pushes the loop, whose first kernel iteration
begins with e0 alone; nothing else changes. -/
def Obligations.HardwareLoopsStart : Prop :=
  ∀ (i : Instr) (f : SI) (piped : Bool) (offs : List Nat) (s : State) (n start words : Nat),
    loopWord i = some (f, piped, offs) → s.Issues →
    n = (gr s f.ra).toNat → start = after s → words = f.imm.toNat / 4096 →
    (∀ l r, (s.slot s.cur.u).loops = l :: r → l.start ≤ start ∧ start + 8 * words ≤ l.start + 8 * l.words) →
    (s.slot s.cur.u).loops.length < 4 →
    n < 2 ^ 32 → (piped = true → n + offs.length - 1 ≤ 2 ^ 32 - 1) →
    (n = 0 → ∃ t, exec i s = .next t ∧ WordDone s t 1 (gregs s) (preds s) (start + 8 * words)) ∧
    (n ≠ 0 → ∃ t m, m = onSlot s (fun sl => { sl with
        loops := ⟨f.imm.toNat % 256, piped, start, words, offs.length, offs, n, 0, s.clock⟩ :: sl.loops
        estage := firstStages }) ∧
      exec i s = .next t ∧ WordDone m t 1 (gregs s) (preds s) start)

/-- R99, R102, R112, R119, R459: NOP, BKPT, SETVIEW and GRANCLR make the one change the spec gives them; TRCTL.wr writes TRCFG,
seen from the next clock on. -/
def Obligations.ControlWordsTakeEffect : Prop :=
  (∀ (i : Instr) (ok : Prop) (m s : State), ctrlEffect s i = some (ok, m) → s.Issues → ok →
    ∃ t, exec i s = .next t ∧ WordDone m t 1 (gregs s) (preds s) (after s)) ∧
  (∀ (f : S3) (s : State) (v : Word), v = gr s f.ra → s.Issues →
    fld v.toNat 13 51 = 0 → fld v.toNat 4 4 = 0 → fld v.toNat 8 5 ≤ 20 →
    ∃ t, exec (.trctlWr f) s = .next t ∧ WordDone s t 1 (gregs s) (preds s) (after s) ∧
      ((t.slot s.cur.u).settle (s.clock + 1)).csr.trcfg = v.setWidth 32)

/-- R124, R127, R459: CSRRD, TRCTL.rd, TIME.clk and TIME.dev write what they read to g[rd], seen 2 clocks later; readings
of TIME.dev in a slot never decrease. R124: CSRWR writes a control register a program may write, with the checks and the write-one-to-clear bits of its map,
and nothing else. -/
def Obligations.ControlRegistersReadAndWrite : Prop :=
  ((∀ (i : Instr) (rd : BitVec 6) (v : Word) (s : State), readWord s i = some (rd, v) → s.Issues →
    ∃ t, exec i s = .next t ∧ WordDone s t 2 (s.gWith rd v) (preds s) (after s)) ∧
  (∀ (f : S3) (s : State), s.Issues →
    ∃ t v, s.devTime ≤ v ∧ (s.slot s.cur.u).lastTime ≤ v ∧ (v = s.devTime ∨ v = (s.slot s.cur.u).lastTime) ∧
      exec (.timeDev f) s = .next t ∧
      WordDone (onSlot s (fun sl => { sl with lastTime := v })) t 2 (s.gWith f.rd (BitVec.ofNat 64 v)) (preds s) (after s))) ∧
  (∀ (f : SI) (ok : Prop) (m s : State),
    csrEffect s (f.imm.toNat % 4096) (gr s f.ra) = some (ok, m) → s.Issues → ok →
    ∃ t, exec (.csrwr f) s = .next t ∧ WordDone m t 1 (gregs s) (preds s) (after s))

/-- R118, R128 to R130: TRAP stops the core with cause TRAP, subcause code[7:0] and the code as operand; the frame holds them, and the
recorded PC of the slot is the word after the TRAP. -/
def Obligations.TrapStopsTheCore : Prop :=
  ∀ (f : SI) (s : State) (tr : Trap) (u fa : Nat), s.Issues → u = s.cur.u → (s.slot u).latchWord = 0 →
    (s.slot u).task.isSome = true → Runs s (coreOf u) → tr = ⟨cTRAP, f.imm.toNat % 256, f.imm.toNat⟩ →
    fa = s.faultbase (s.slot u).ctx + 2 ^ 22 * coreOf u →
    ∃ m t, WordDone (onSlot s (fun sl => { sl with latch := some tr })) m 1 (gregs s) (preds s) (after s) ∧
      exec (.trap f) s = .next t ∧ t = m.coreStop u .seq tr s.cur.word false ∧ raisedBy t (coreOf u) u .seq tr ∧
      (StopsHere m u .seq → stoppedBy t (coreOf u) u .seq tr ∧ t.dev (fa + 4) 1 = cTRAP ∧ t.dev (fa + 5) 1 = f.imm.toNat % 256 ∧ t.dev (fa + 16) 8 = f.imm.toNat ∧
      t.dev (fa + 40 + 8 * (u % 4)) 4 = (m.slot u).pc % 2 ^ 32)

/-- R117: a WAITI whose user interrupt is pending and enabled outside a handler completes at once; any other leaves its slot
waiting. R122: USER_INTERRUPT_ENTRY takes the lowest pending enabled vector. -/
def Obligations.UserInterruptsAreTaken : Prop :=
  (∀ (s : State), s.Issues → (s.slot s.cur.u).csr.uiact = false →
    (s.slot s.cur.u).csr.uipend &&& (s.slot s.cur.u).csr.uivec.setWidth 16 ≠ 0 →
    ∃ t, exec .waiti s = .next t ∧ WordDone s t 1 (gregs s) (preds s) (after s)) ∧
  (∀ (s : State), s.Issues →
    ((s.slot s.cur.u).csr.uiact = true ∨ (s.slot s.cur.u).csr.uipend &&& (s.slot s.cur.u).csr.uivec.setWidth 16 = 0) →
    ∃ t, exec .waiti s = .next t ∧
      t.slot s.cur.u = { s.slot s.cur.u with hold := .waiti, inHand := some s.cur, closing := false }) ∧
  (∀ (s : State) (u n : Nat), s.occ.a = u → (s.core (coreOf u)).stopped = none → (s.core (coreOf u)).raised = none →
    takesVector (s.slot u) n →
    ∃ t ni, s.clock + 3 ≤ ni ∧ exec .userInterruptEntry s = .next t ∧
      t = s.setSlot u { s.slot u with
        csr := { (s.slot u).csr with
          uipend := (s.slot u).csr.uipend &&& ~~~(1#16 <<< n), uipc := BitVec.ofNat 32 (s.slot u).pc, uiact := true }
        pc := (s.slot u).csr.uivec.toNat / 2 ^ 32 + 64 * n
        acks := if (s.slot u).pend.any (fun p => p.tag = cinvTag) then (s.slot u).acks else []
        wm := (s.slot u).wm.filter (fun w => w.key ≠ 0)
        nextIssue := ni })

/-- R96: INTERLOCKED_RESULT_WRITE brings the clock to a slot's next interlocked result and writes all that is due. R120:
SYSCALL hands its request to the firmware and waits, its region closed; a reply, or the timeout once 1 ms is over, writes the
status to g[rd] and the slot goes on. -/
def Obligations.InterlockedWordsComplete : Prop :=
  (∀ (s : State) (u : Nat) (p : Pend), s.occ.a = u →
    (s.slot u).pend.find? (fun q => q.locked && q.tag = 0) = some p →
    exec .interlockedResultWrite s =
      .next ({ s with clock := max s.clock p.at_ }.setSlot u ((s.slot u).settle (max s.clock p.at_)))) ∧
  (∀ (f : SI) (s m : State), s.Issues → s.slowDrain s.cur.u = false → m = s.closeFor s.cur.u →
    (m.slot s.cur.u).latch = none → (m.slot s.cur.u).pend = [] →
    ∃ t, exec (.syscall f) s = .next t ∧
      t.hub.syscalls = m.hub.syscalls ++ [(s.cur.u, f.imm.toNat, (m.slot s.cur.u).greg f.ra.toNat, m.clock)] ∧
      t.slot s.cur.u = { m.slot s.cur.u with
        hold := .syscall f.rd.toNat f.imm.toNat ((m.slot s.cur.u).greg f.ra.toNat), inHand := some s.cur, closing := true }) ∧
  (∀ (s : State) (u rd code : Nat) (arg : Word) (cur : Cursor), s.occ.a = u → rd < 64 →
    (s.slot u).hold = .syscall rd code arg → (s.slot u).inHand = some cur → (s.slot u).pend = [] →
    (s.slot u).latch = none → (s.slot u).npc = none →
    (∃ t, exec .syscallReply s = .next t ∧ (t.slot u).hold = .none ∧ (t.slot u).inHand = none ∧
      ∀ n, n < 64 → (t.slot u).greg n = if n = rd ∧ n ≠ 0 then s.occ.w else (s.slot u).greg n) ∧
    (∀ at_, (u, code, arg, at_) ∈ s.hub.syscalls → at_ + usClk 1000 ≤ s.clock →
      ∃ t, exec .syscallTimeout s = .next t ∧ (t.slot u).hold = .none ∧ (t.slot u).inHand = none ∧
        ∀ n, n < 64 → (t.slot u).greg n = if n = rd ∧ n ≠ 0 then 0xFFFFFFFFFFFFFFFE else (s.slot u).greg n) ∧
    ((∀ e, e ∈ s.hub.syscalls → e.1 = u → s.clock < e.2.2.2 + usClk 1000) → exec .syscallTimeout s = .next s))

/-- R139, R140: LD, LDS and LDSP. Where the access passes the checks of its prefix, its target, the watermarks and its
acquire, g[rd] receives the bytes that stand there: of the scratchpad 4 clocks later; of a node record, all ones when the
reference is stale; of local memory, the slot's own store buffer before the cache; of another package, when they are held
here. When they are not, a request for them goes out, and the register waits for its answer. -/
def Obligations.LoadsWriteTheBytesRead : Prop :=
  ∀ (i : Instr) (f : SM) (sg : Bool) (fx : Option Nat) (s s1 : State) (p : Prefix) (tg : Target) (n : Nat),
    loadForm i = some (f, sg, fx) → s.Issues →
    (needPrefix s true false fx.isNone).map (fun q => inSpace q fx) = .ok p → n = 2 ^ f.size.toNat →
    target s p (memAddr s f) (gr s f.base) n false = .ok (s1, tg) →
    targetMark s1 tg (memAddr s f) n = .ok () → needReturned s1 p = .ok () →
    match tg with
    | .sp a => ∃ t, exec i s = .next t ∧ WordDone (s1.acquired p 4) t 4
        (s.gWith f.r (loaded sg n ((s1.core (coreOf s.cur.u)).scratch.bytes a n))) (preds s) (after s)
    | .node r o => ∃ t m, exec i s = .next t ∧
        m = (s1.countSt (s.slot s.cur.u).ctx r (s1.nodeSt r)).acquired p (nodeLat (coreOf s.cur.u) r) ∧
        WordDone m t (nodeLat (coreOf s.cur.u) r)
          (s.gWith f.r (if s1.nodeSt r = stSTALE then BitVec.ofNat 64 (2 ^ (8 * n) - 1)
            else loaded sg n (s1.nodeBytes (s.slot s.cur.u) r o n))) (preds s) (after s)
    | .loc host ps _ => ∀ s2 bs,
        readLocal (coreOf s.cur.u) (if bitOf p.ord 0 then 3 else p.cache) host (s.slot s.cur.u) s1 ps = .ok (s2, bs) →
        ∃ t lat, exec i s = .next t ∧ WordDone (s2.acquired p lat) t lat (s.gWith f.r (loaded sg n bs)) (preds s) (after s)
    | .rem pkg =>
      (∀ bs, (List.range n).mapM (fun k => s1.remByte s.cur.u pkg p.cache ((memAddr s f).toNat + k)) = some bs →
        ∃ t, exec i s = .next t ∧ WordDone (s1.acquired p 8) t 8 (s.gWith f.r (loaded sg n bs)) (preds s) (after s)) ∧
      (p.cache = 3 → (List.range n).mapM (fun k => s1.remByte s.cur.u pkg 3 ((memAddr s f).toNat + k)) = none →
        ∃ t tag q, exec i s = .next t ∧
          Tbl.get (.walk 0 0) t.fab.reqs tag = .load s.cur.u f.r.toNat n sg pkg (memAddr s f).toNat 3 ∧
          sentOn s1 t (seqFlow s pkg (memAddr s f)) q ∧ q.type = 0x01 ∧ q.dst = pkg ∧ q.tag = tag ∧
          q.offset = (memAddr s f).toNat % 2 ^ 52 ∧
          (f.r ≠ 0 → (t.slot s.cur.u).pend.any (fun e => e.tag = tag && e.locked) = true))

/-- R139, R141, R160 to R162: ST and STSP. Where the access passes the checks of its prefix, its target and the watermarks:
a scratchpad store writes its bytes at once, at the address computed here, and no other byte of the scratchpad; a store to
device or host memory, to a node record or to another package joins the open region's store buffer or effect queue, when
there is room, and changes no byte of memory yet. -/
def Obligations.StoresWriteOrBuffer : Prop :=
  ∀ (i : Instr) (f : SM) (fx : Option Nat) (s s1 : State) (p : Prefix) (tg : Target) (n : Nat) (bs : List Byte),
    storeForm i = some (f, fx) → s.Issues →
    (needPrefix s false true fx.isNone).map (fun q => inSpace q fx) = .ok p → n = 2 ^ f.size.toNat →
    bs = leBytes n (gr s f.r).toNat →
    target s p (memAddr s f) (gr s f.base) n true = .ok (s1, tg) →
    targetMark s1 tg (memAddr s f) n = .ok () →
    match tg with
    | .sp a => ∀ s2, release s1 p = .ok s2 →
        ∃ t, exec i s = .next t ∧ WordDone (withScratch s2 a bs) t 1 (gregs s2) (preds s2) (after s) ∧
          (∀ x, x < a ∨ a + n ≤ x →
            (t.core (coreOf s.cur.u)).scratch.get x = (s2.core (coreOf s.cur.u)).scratch.get x)
    | .node _ o => nodeWrOk o n = true → p.dw = false → ∀ rel, relMark s1 p = .ok rel →
        hasRoom s1 (.store 2 (memAddr s f).toNat [] bs) →
        ∃ t, exec i s = .next t ∧
          WordDone (queued s1 (.store 2 (memAddr s f).toNat [] bs) rel) t 1 (gregs s) (preds s) (after s)
    | .loc host ps dw => (p.dw || dw) = false → ∀ rel, relMark s1 p = .ok rel →
        hasRoom s1 (.store (if host then 3 else 0) (memAddr s f).toNat ps bs) →
        ∃ t, exec i s = .next t ∧ WordDone (queued s1 (.store (if host then 3 else 0) (memAddr s f).toNat ps bs) rel) t 1
          (gregs s) (preds s) (after s)
    | .rem pkg => ∀ rel, relMark s1 p = .ok rel →
        hasRoom s1 (.rstore pkg (memAddr s f).toNat bs p.scope p.cache) →
        ∃ t, exec i s = .next t ∧ WordDone (queued s1 (.rstore pkg (memAddr s f).toNat bs p.scope p.cache) rel) t 1
          (gregs s) (preds s) (after s)

/-- R143 to R146: ATOM and ACAS. On the scratchpad both act at once: the old value goes to g[rd], the new one to the
scratchpad. An ATOM with rd = 0 joins the effect queue. Any other closes the region and drains it first, and then acts: in
the package's own memory at once, the old value going to g[rd]. -/
def Obligations.AtomicsReadModifyWrite : Prop :=
  (∀ (i : Instr) (f : S3) (cas : Bool) (s s1 s2 : State) (p : Prefix) (a n old : Nat) (r : Nat × Nat),
    (i = .atom f ∧ cas = false ∨ i = .acas f ∧ cas = true) → s.Issues →
    s.prefix.space = 1 → needPrefix s true true true = .ok p → n = atomSize f →
    target s p (gr s f.ra) (gr s f.ra) n true = .ok (s1, .sp a) → targetMark s1 (.sp a) (gr s f.ra) n = .ok () →
    needReturned s1 p = .ok () → release s1 p = .ok s2 →
    old = (s2.core (coreOf s.cur.u)).scratch.num a n →
    r = atomNew f cas n old (gr s f.rb) (if cas then gr s f.rd else 0) → untrapped s r.2 →
    ∃ t, exec i s = .next t ∧ WordDone ((withFlags (withScratch s2 a (leBytes n r.1)) r.2).acquired p 4) t 4
      (s.gWith f.rd (BitVec.ofNat 64 old)) (preds s) (after s)) ∧
  (∀ (f : S3) (s s1 : State) (p : Prefix) (tg : Target) (e : Effect) (rel : Nat),
    s.Issues → s.prefix.space ≠ 1 → f.rd = 0 → needPrefix s true true true = .ok p →
    target s p (gr s f.ra) (gr s f.ra) (atomSize f) true = .ok (s1, tg) →
    targetMark s1 tg (gr s f.ra) (atomSize f) = .ok () → relMark s1 p = .ok rel →
    (match tg with
      | .sp _ => False
      | .node _ o => nodeWrOk o (atomSize f) = true ∧
          e = .atomic 2 s1.fab.pkg (gr s f.ra).toNat [] (atomSize f) (f.funct.toNat % 16) (gr s f.rb)
      | .loc host ps _ => (host = true → f.funct.toNat % 16 ≤ 1) ∧
          e = .atomic (if host then 3 else 0) s1.fab.pkg (gr s f.ra).toNat ps (atomSize f) (f.funct.toNat % 16) (gr s f.rb)
      | .rem pkg => e = .atomic 4 pkg (gr s f.ra).toNat [] (atomSize f) (f.funct.toNat % 16) (gr s f.rb)) →
    hasRoom s1 e →
    ∃ t, exec (.atom f) s = .next t ∧ WordDone (queued s1 e rel) t 1 (gregs s) (preds s) (after s)) ∧
  (∀ (i : Instr) (f : S3) (cas : Bool) (s c s1 s2 : State) (p : Prefix) (tg : Target) (n : Nat),
    (i = .atom f ∧ cas = false ∧ f.rd ≠ 0 ∨ i = .acas f ∧ cas = true) → s.Issues → s.prefix.space ≠ 1 →
    atomCheck f cas s = .ok () → s.slowDrain s.cur.u = false →
    c = s.closeFor s.cur.u → (c.slot s.cur.u).latch = none → (c.slot s.cur.u).pend = [] → (c.slot s.cur.u).npc = none →
    (c.slot s.cur.u).inHand = none →
    needPrefix c true true true = .ok p → n = atomSize f →
    target c p (gr c f.ra) (gr c f.ra) n true = .ok (s1, tg) → targetMark s1 tg (gr c f.ra) n = .ok () →
    s2 = s1.released p →
    match tg with
    | .sp _ => True
    | .node r o => nodeWrOk o n = true → s2.nodeSt r = stOK → ∀ v,
        v = atomNew f cas n (s2.nf r o n) (gr c f.rb) (if cas then gr c f.rd else 0) → untrapped c v.2 →
        ∃ t lat, exec i s = .next t ∧
          t.nsm = (s2.nodeWrite (c.slot s.cur.u).ctx r (((List.range n).map (o + ·)).zip (leBytes n v.1))).nsm ∧
          ∀ k, k < 64 → ((t.slot s.cur.u).settle (s.clock + lat)).greg k =
            c.gWith f.rd (BitVec.ofNat 64 (s2.nf r o n)) k
    | .loc false ps _ => ∀ v s3,
        v = atomNew f cas n (leNat (s2.physBytes false ps)) (gr c f.rb) (if cas then gr c f.rd else 0) → untrapped c v.2 →
        writePhys (coreOf s.cur.u) false s2 (ps.zip (leBytes n v.1)) = .ok s3 →
        ∃ t lat, exec i s = .next t ∧ t.dram = s3.dram ∧
          ∀ k, k < 64 → ((t.slot s.cur.u).settle (s.clock + lat)).greg k =
            c.gWith f.rd (BitVec.ofNat 64 (leNat (s2.physBytes false ps))) k
    | .loc true ps _ => (cas = true ∨ f.funct.toNat % 16 ≤ 1) →
        ∃ t, exec i s = .next t ∧ (t.slot s.cur.u).inHand = some s.cur ∧
          (t.slot s.cur.u).hold = .hostAtomic f.rd.toNat n (f.funct.toNat % 16) (gr c f.rb)
            (if cas then some (gr c f.rd) else none) ps (gr c f.ra).toNat (if bitOf p.ord 0 then p.scope + 1 else 0)
    | .rem pkg =>
        ∃ t tag q, exec i s = .next t ∧ (t.slot s.cur.u).inHand = some s.cur ∧
          (t.slot s.cur.u).hold = .remote tag (if bitOf p.ord 0 then p.scope + 1 else 0) ∧
          Tbl.get (.walk 0 0) t.fab.reqs tag = .atomic s.cur.u f.rd.toNat n ∧
          (t.fab.outbox.getLast? = some q ∨ t.fab.stalled.getLast? = some (seqFlow c pkg (gr c f.ra), q)) ∧
          q.type = 0x05 ∧ q.dst = pkg ∧ q.tag = tag)

/-- R44, R45, R47: PFX keeps its fields, and its address, for the next word, and changes nothing else. R178: FENCE completes once
what it releases has settled, puts a release mark in the open region when that holds entries, and drops what its acquire must;
at scope domain or system it first sends the narrower dirty lines of the remote cache home. R147: RSLD and RSST reach the slot's
register-space allocation. R148: CINV.l1 drops the lines of the scalar L1 that cover the range, CINV.wb and CINV.wbi send the
dirty lines of the remote cache in it home, and await their acknowledgement; they fault on nothing. R154: the tag-table words
change the core's tag table as R154 says, and write their result to g[rd]. -/
def Obligations.PrefixFenceAndCoreLocalWordsComplete : Prop :=
  (∀ (f : SP) (s : State), s.Issues →
    ∃ t, exec (.pfx f) s = .next t ∧ (t.slot s.cur.u).pfx = some f ∧
      WordDone (onSlot s (fun sl => { sl with pfxPc := sl.pc })) t 1 (gregs s) (preds s) (after s)) ∧
  (∀ (f : SI) (s m : State), s.Issues →
    (bitOf (fenceOrder f).ord 0 = true → 4 ≤ (fenceOrder f).scope → s.awaits s.cur.u = false) →
    (bitOf (fenceOrder f).ord 1 = true → ReleaseReady s (fenceOrder f).scope) →
    m = (if bitOf (fenceOrder f).ord 1 = true ∧ (s.slot s.cur.u).opened ≠ [] then
        onSlot (s.released (fenceOrder f)) (fun sl => { sl with opened := sl.opened ++
          [⟨.marker (fenceOrder f).scope, fld s.cur.word 40 8, s.cur.word, 0, sl.region.num, (fenceOrder f).scope + 1⟩] })
      else s.released (fenceOrder f)) →
    ∃ t, exec (.fence f) s = .next t ∧
      WordDone (m.acquired (fenceOrder f) (if 1 ≤ (fenceOrder f).scope then 4 else 2)) t 1 (gregs s) (preds s) (after s)) ∧
  (∀ (f : SI) (s : State) (l : RLine), s.Issues → bitOf (fenceOrder f).ord 1 = true → 4 ≤ (fenceOrder f).scope →
    effectsDone s → s.unackedOf s.cur.u = false → s.awaits s.cur.u = false → (s.slot s.cur.u).acks = [] →
    l ∈ (s.core (coreOf s.cur.u)).rcache → l.dirty ≠ [] → l.scope < (fenceOrder f).scope →
    exec (.fence f) s = .next ((s.releaseBack s.cur.u (fenceOrder f).scope).modMe
      (fun sl => { sl with nextIssue := s.clock + 1 }))) ∧
  (∀ (f : SM) (s : State) (a n : Nat), s.Issues → loadPfx s →
    n = 2 ^ f.size.toNat → a = (memAddr s f).toNat → a + n ≤ (s.slot s.cur.u).alloc.regLen → a % n = 0 →
    (s.core (coreOf s.cur.u)).regValid ((s.slot s.cur.u).alloc.regBase + a) n = true →
    ∃ t, exec (.rsld f) s = .next t ∧ WordDone (s.acquired { s.prefix with scope := min s.prefix.scope 1 } 4) t 4
      (s.gWith f.r (BitVec.ofNat 64 ((s.core (coreOf s.cur.u)).regs.num ((s.slot s.cur.u).alloc.regBase + a) n)))
      (preds s) (after s)) ∧
  (∀ (f : SM) (s m : State) (a n : Nat), s.Issues → storePfx s → (bitOf s.prefix.ord 1 = true → effectsDone s) →
    n = 2 ^ f.size.toNat → a = (memAddr s f).toNat → a + n ≤ (s.slot s.cur.u).alloc.regLen → a % n = 0 →
    m = s.released { s.prefix with scope := min s.prefix.scope 1 } →
    ∃ t, exec (.rsst f) s = .next t ∧
      WordDone (m.setCore (coreOf s.cur.u) ((m.core (coreOf s.cur.u)).regWrite ((s.slot s.cur.u).alloc.regBase + a)
        (leBytes n (gr s f.r).toNat))) t 1 (gregs s) (preds s) (after s)) ∧
  (∀ (f : SM) (s : State) (l : List L1Line) (n : Nat), s.Issues → cinvPfx s → n = (gr s f.r).toNat →
    l = (if 2 ^ 20 < n then [] else (s.core (coreOf s.cur.u)).l1.filter (fun x =>
      !((List.range (max n 1)).any (fun k => l1Line s ((memAddr s f).toNat + k) == some (x.host, x.line))))) →
    ∃ t, exec (.cinvL1 f) s = .next t ∧
      WordDone (s.setCore (coreOf s.cur.u) { s.core (coreOf s.cur.u) with l1 := l }) t 1 (gregs s) (preds s) (after s)) ∧
  (∀ (i : Instr) (f : SM) (s m : State) (hit : RLine → Bool), (i = .cinvWb f ∨ i = .cinvWbi f) → s.Issues → cinvPfx s →
    hit = (fun l => l.within (s.slot s.cur.u).ctx (memAddr s f).toNat ((memAddr s f).toNat + max (gr s f.r).toNat 1)
      (decide (2 ^ 20 < (gr s f.r).toNat))) →
    m = onSlot (s.rcWriteBack (coreOf s.cur.u) hit) (fun sl =>
      if s.newFlows (s.rcWriteBack (coreOf s.cur.u) hit) = [] then sl
      else { sl with acks := s.newFlows (s.rcWriteBack (coreOf s.cur.u) hit) }) →
    ∃ t, exec i s = .next t ∧
      WordDone (if i = .cinvWb f then m else m.setCore (coreOf s.cur.u) { m.core (coreOf s.cur.u) with
        rcache := (m.core (coreOf s.cur.u)).rcache.filter (fun l => !hit l) }) t 1 (gregs m) (preds m) (after s)) ∧
  (∀ (i : Instr) (rd : BitVec 6) (l : List Tag) (v : Word) (s : State), tagWord s i = some (rd, l, v) → s.Issues →
    ∃ t, exec i s = .next t ∧ WordDone (withTags s l) t 3 (s.gWith rd v) (preds s) (after s))

/-- R193 to R198: ENQ, REL, the RINGSET forms (.decl from the next clock on), SEMSIG.peer and TLWAIT make the one change the
spec gives them, where their checks pass and the room, the rings or the timeline they wait for are there. RINGGET and TLREAD write what they read to
g[rd], 2 clocks later. R36, R196, R197: SEMSIG adds to a semaphore when it retires, up to 0xFFFF; SEMWAIT takes its count from a semaphore that
holds it, drops the scalar L1 lines, and writes what is left to g[rd]. -/
def Obligations.RingAndSemaphoreWordsTakeEffect : Prop :=
  ((∀ (i : Instr) (ok : Prop) (m s : State), ringEffect s i = some (ok, m) → s.Issues → ok →
    ∃ t, exec i s = .next t ∧ WordDone m t 1 (gregs s) (preds s) (after s)) ∧
  (∀ (f : S3) (s : State) (r : Ring), r = (s.slot s.cur.u).ring (ringIdx f) → s.Issues → r.via = 0 → r.pipe = false →
    r.logn ≠ 0 → (gr s f.ra).toNat < 2 ^ 13 → 1 ≤ (gr s f.ra).toNat → (gr s f.ra).toNat ≤ 2 ^ r.logn →
    ∃ t, exec (.ringsetDecl f) s = .next t ∧ WordDone s t 1 (gregs s) (preds s) (after s) ∧
      ((t.slot s.cur.u).settle (s.clock + 1)).ring (ringIdx f) = { r with decl := (gr s f.ra).toNat }) ∧
  (∀ (i : Instr) (ok : Prop) (rd : BitVec 6) (v : Nat) (s : State), ringRead s i = some (ok, rd, v) → s.Issues → ok →
    ∃ t, exec i s = .next t ∧ WordDone s t 2 (s.gWith rd (BitVec.ofNat 64 v)) (preds s) (after s))) ∧
  ((∀ (f : SI) (s : State) (n k : Nat), n = fld f.imm.toNat 0 6 → k = fld f.imm.toNat 6 8 → s.Issues →
    ∃ t, exec (.semsig f) s = .next t ∧ WordDone s t 1 (gregs s) (preds s) (after s) ∧
      (s.cur.ctl.signal = .none →
        ((t.slot s.cur.u).settle (s.clock + 1)).sem n = min ((s.slot s.cur.u).sem n + k) 0xFFFF)) ∧
  (∀ (f : SI) (s : State) (n k : Nat), n = fld f.imm.toNat 0 6 → k = fld f.imm.toNat 6 8 → s.Issues →
    k ≤ (s.slot s.cur.u).sem n →
    ∃ t lat m, m = onSlot (s.setCore (coreOf s.cur.u) ((s.core (coreOf s.cur.u)).acquire 1))
        (fun sl => sl.setSem n (sl.sem n - k)) ∧
      exec (.semwait f) s = .next t ∧
      WordDone m t lat (s.gWith f.rd (BitVec.ofNat 64 ((s.slot s.cur.u).sem n - k))) (preds s) (after s)))

/-- R209: LPATCH writes a field of a record that is free and not armed, LSTAT reads one of its counts, and LARM arms it, its
region closed first; each writes its status, or the count, to g[rd]. R220, R221: SETDOM sets the core's domain membership, the phase bits agreeing with the other members, a sole member keeping its own; DPHASE, at rest,
records the core's arrival and waits for the phase to end. -/
def Obligations.LaunchAndDomainWordsComplete : Prop :=
  ((∀ (f : S3) (s m : State) (i st : Nat), s.Issues → i = (gr s f.ra).toNat → i < 4096 →
    st = (if s.recState (s.slot s.cur.u).ctx i = 1 then 1 else if s.recBit (s.slot s.cur.u).ctx i 6 then 2 else 0) →
    m = (if st = 0 then
      s.setRecF (s.slot s.cur.u).ctx i (256 + 8 * (f.funct.toNat % 32)) 8 (gr s f.rb).toNat else s) →
    ∃ t lat, exec (.lpatch f) s = .next t ∧ WordDone m t lat (s.gWith f.rd (BitVec.ofNat 64 st)) (preds s) (after s)) ∧
  (∀ (f : S3) (s : State) (i : Nat), s.Issues → i = (gr s f.ra).toNat → i < 4096 →
    ∃ t lat, exec (.lstat f) s = .next t ∧
      WordDone s t lat (s.gWith f.rd (BitVec.ofNat 64 (s.recF (s.slot s.cur.u).ctx i (48 + 8 * (f.funct.toNat % 4)) 8)))
        (preds s) (after s)) ∧
  (∀ (f : SI) (s c : State) (i : Nat), s.Issues → s.slowDrain s.cur.u = false → c = s.closeFor s.cur.u →
    (c.slot s.cur.u).latch = none → (c.slot s.cur.u).pend = [] → (c.slot s.cur.u).npc = none →
    (c.slot s.cur.u).inHand = none → gregs c = gregs s →
    i = (gr s f.ra + BitVec.ofNat 64 (f.imm.toNat % 4096)).toNat → i < 4096 →
    ∃ t lat, exec (.larm f) s = .next t ∧ t.dram = (c.armRecord (c.slot s.cur.u).ctx i).1.dram ∧
      ∀ k, k < 64 → ((t.slot s.cur.u).settle (s.clock + lat)).greg k =
        c.gWith f.rd (BitVec.ofNat 64 (c.armRecord (c.slot s.cur.u).ctx i).2) k)) ∧
  ((∀ (f : SI) (s : State) (L : Nat) (c : CoreSt), s.Issues → L = f.imm.toNat % 8 → c = s.core (coreOf s.cur.u) →
    (gr s f.ra).toNat < 2 ^ 16 →
    (c.level = 0 ∨ c.domRun = (s.slot s.cur.u).tk.run ∨ (s.run? c.domRun).isNone = true) →
    (∀ k x, 2 ≤ k → k ≤ c.level → x ∈ s.domain k (coreOf s.cur.u) c.domid → (s.core x).standsAt k = false) →
    ∃ t ph, exec (.setdom f) s = .next t ∧
      (∀ k, k < 3 → (L < k + 2 → ph.getLsbD k = false) ∧
        (k + 2 ≤ L → ∀ x, (s.domain (k + 2) (coreOf s.cur.u) (gr s f.ra).toNat).find? (· ≠ coreOf s.cur.u) = some x →
          ph.getLsbD k = (s.core x).phase.getLsbD k) ∧
        (k + 2 ≤ L → s.domain (k + 2) (coreOf s.cur.u) (gr s f.ra).toNat = [coreOf s.cur.u] →
          ph.getLsbD k = c.phase.getLsbD k)) ∧
      WordDone (s.setCore (coreOf s.cur.u) { c with
          level := L, domid := (gr s f.ra).toNat, phase := ph, domCtx := (s.slot s.cur.u).tk.ctx
          domLaunch := (s.slot s.cur.u).tk.launch, domRun := (s.slot s.cur.u).tk.run })
        t 1 (gregs s) (preds s) (after s)) ∧
  (∀ (f : SI) (s : State) (L : Nat), s.Issues → L = f.imm.toNat % 8 → dphaseCheck L s = .ok () →
    ((s.closeFor s.cur.u).slot s.cur.u).latch = none → s.slowDrain s.cur.u = false →
    ∃ t, exec (.dphase f) s = .next t ∧ (t.slot s.cur.u).hold = .dphase L (coreOf s.cur.u) ∧
      (t.slot s.cur.u).inHand = some s.cur ∧ (t.core (coreOf s.cur.u)).arrive.isSome = true ∧
      ((s.core (coreOf s.cur.u)).arrive = none → (t.core (coreOf s.cur.u)).arrive = some (L, []))))

/-- R462, R457, R464 to R467: the counter words configure, read and clear the counter they select, a clear leaving its value at
0 whatever the clock counts; TRMARK and BCMSNAP write their records and nothing else; the two counter and trace steps of the
hardware do what R460 and R467 say. -/
def Obligations.CounterAndTraceWordsComplete : Prop :=
  (∀ (f : S3) (s m : State) (c : CtrSel), s.Issues → c = CtrSel.of (gr s f.ra) → ctrSelOk (gr s f.ra) = true → c.group ≠ 3 →
    (gr s f.rb).toNat < 2 ^ 14 → eventOk c.group ((gr s f.rb).toNat % 256) = true → ctrMine s c →
    m = (s.settleCtr c).setCtrCfg c (((s.settleCtr c).ctrCfg c) / 2 ^ 14 * 2 ^ 14 + (gr s f.rb).toNat) →
    ∃ t, exec (.pmcfg f) s = .next t ∧ WordDone m t 1 (gregs s) (preds s) (after s) ∧
      t.ctrCfg c % 2 ^ 14 = (gr s f.rb).toNat) ∧
  (∀ (f : S3) (s m : State) (c : CtrSel), s.Issues → c = CtrSel.of (gr s f.ra) → ctrSelOk (gr s f.ra) = true →
    m = (if hiddenCtr s c then s else s.settleCtr c) →
    ∃ t, exec (.pmrd f) s = .next t ∧ WordDone m t (ctrLat c.group)
      (s.gWith f.rd (BitVec.ofNat 64 (if f.funct.getLsbD 0 then (if hiddenCtr s c then 0 else m.ctrCfg c) else m.ctrVal c)))
      (preds s) (after s)) ∧
  (∀ (f : S3) (s : State) (c : CtrSel), s.Issues → c = CtrSel.of (gr s f.ra) → ctrSelOk (gr s f.ra) = true →
    ctrMine s c →
    ∃ t, exec (.pmclr f) s = .next t ∧
      WordDone (s.ctrClear c (f.funct.getLsbD 0) (f.funct.getLsbD 1)) t 1 (gregs s) (preds s) (after s) ∧
      (f.funct.getLsbD 0 = true → t.ctrVal c = 0) ∧
      (f.funct.getLsbD 1 = true → t.ctrCfg c / 2 ^ 14 = 0)) ∧
  (∀ (f : SI) (s : State), s.Issues →
    ∃ t, exec (.trmark f) s = .next t ∧ WordDone s t 1 (gregs s) (preds s) (after s) ∧
      ((s.slot s.cur.u).loops = [] ∨ (s.slot s.cur.u).csr.trcfg.getLsbD 1 = false →
        t.hub.traces = (if (s.slot s.cur.u).csr.trcfg.getLsbD 0 then
          s.trace (coreOf s.cur.u) (s.slot s.cur.u).ctx (traceBytes 1 1 (coreOf s.cur.u) (s.cur.u % 4) 0
            (s.slot s.cur.u).tk.seq s.devTime (s.slot s.cur.u).loopTag f.imm.toNat (leBytes 8 (gr s f.ra).toNat))
          else s).hub.traces)) ∧
  (∀ (s : State), s.Issues →
    ∃ t, exec .bcmsnap s = .next t ∧ WordDone s t 1 (gregs s) (preds s) (after s) ∧
      ((s.slot s.cur.u).loops = [] ∨ (s.slot s.cur.u).csr.trcfg.getLsbD 1 = false →
        t.hub.traces = (s.snapRecord s.cur.u 3 (s.slot s.cur.u).loopTag 0).hub.traces)) ∧
  (∀ (s : State) (u : Nat), s.occ.a = u → (s.slot u).task.isSome = true → (s.slot u).csr.trcfg.getLsbD 3 = true →
    s.clock % 2 ^ (fld (s.slot u).csr.trcfg.toNat 8 5 + 10) = 0 →
    exec .traceSample s = .next (s.trace (coreOf u) (s.slot u).ctx (sampleRecord s u))) ∧
  (∀ (s : State) (k : Nat), s.occ.a = 0 → k = s.occ.c % 8 →
    bitOf (Tbl.get 0 (s.core s.occ.b).cfgs k) 8 = true →
    looseEvent 0 (fld (Tbl.get 0 (s.core s.occ.b).cfgs k) 0 8) = true →
    ∃ t, exec .clockEventOverflow s = .next t ∧ bitOf (Tbl.get 0 (t.core s.occ.b).cfgs k) 14 = true ∧
      t.hub.msix = s.hub.msix ++ (if bitOf (Tbl.get 0 (s.core s.occ.b).cfgs k) 9 then
        [((s.core s.occ.b).pmowner, Tbl.get 0 s.hub.pmvec (s.core s.occ.b).pmowner)] else []))

/-! Statements copy -/

/-- R309 to R317, R331: a copy word whose descriptor, endpoints, routes and current pass fires: its blocks have moved in order,
their bytes arriving at its barrier as they move, and it stands in its unit, for its clocks, with the ring entries it pops or
pushes and the current it holds. -/
def Obligations.CopyWordsFire : Prop :=
  ∀ (i : Instr) (f : CD) (op : CopyOp) (s sa sb s1 s2 : State) (d : CopyDesc) (amps : Nat),
    copyForm i = some (f, op) → s.EngineFree → granOk s f.gran.toNat 64 →
    d = CopyDesc.parse (granBytes s f.gran.toNat 64) → d.check op = .ok () →
    (toGroup op d = true → bitOf (s.group (d.x1 % 2 ^ 16)) 17 = true) → (op = .copy → d.overlaps = false) →
    endCheck s (s.slot s.cur.u) op d false true = .ok sa →
    endCheck sa (s.slot s.cur.u) op d true (!toGroup op d || bitOf (sa.group (d.x1 % 2 ^ 16)) 16) = .ok sb →
    (toGroup op d = true → needRoutes sb d.dst (sb.groupPeers (sb.group (d.x1 % 2 ^ 16))) = .ok ()) →
    copyAmps sb (s.slot s.cur.u) d = .ok (s1, amps) →
    moveBlocks (s.slot s.cur.u) op d (f.ch.toNat % 16) (if f.be then some f.bar.toNat else none)
      (s1.seedTile (coreOf s.cur.u) ptCOPY (s.slot s.cur.u).ctx ((s.slot s.cur.u).chan (f.ch.toNat % 16)).tile) d.blocks
        = (s2, none) → s2.EngineFree →
    ∃ t, exec i s = .next t ∧ EntryFires s2 t (firedCopy s d (d.clocks s1 (s.slot s.cur.u) op) amps)

/-- R311, R312, R331: a CCOPY or CFILL of one row into the scratchpad leaves there the source's bytes, or the pattern, at the
destination, and every other byte of the scratchpad as it was; it completes 16 clocks and one for each 1024 bytes after its
fire. -/
def Obligations.CopyMovesTheBytes : Prop :=
  ∀ (i : Instr) (f : CD) (op : CopyOp) (s : State) (d : CopyDesc) (src dst : Nat),
    copyForm i = some (f, op) → s.EngineFree → granOk s f.gran.toNat 64 →
    d = CopyDesc.parse (granBytes s f.gran.toNat 64) → d.check op = .ok () →
    (op = .copy ∧ d.sk = 1 ∨ op = .fill) → d.dk = 1 → d.n1 = 1 → d.n2 = 1 → d.row ≤ 2 ^ 20 →
    d.dst + d.row ≤ (s.slot s.cur.u).alloc.spLen →
    (op = .copy → d.src + d.row ≤ (s.slot s.cur.u).alloc.spLen ∧ (d.src + d.row ≤ d.dst ∨ d.dst + d.row ≤ d.src)) →
    src = (s.slot s.cur.u).alloc.spBase + d.src → dst = (s.slot s.cur.u).alloc.spBase + d.dst →
    ∃ t, exec i s = .next t ∧ (Tbl.get default (t.slot s.cur.u).eng 2).lat = 16 + ceilDiv d.row 1024 ∧
      ∀ a, (t.core (coreOf s.cur.u)).scratch.get a =
      if dst ≤ a ∧ a < dst + d.row then
        (if op = .copy then (s.core (coreOf s.cur.u)).scratch.get (src + (a - dst))
          else BitVec.ofNat 8 (d.pat / 2 ^ (8 * ((a - dst) % 4))))
      else (s.core (coreOf s.cur.u)).scratch.get a

/-- R318, R320, R323, R324, R327: the barrier, channel and schedule words of the copy ring make their one change and fire;
CSCHED reads its block and its table and starts the slot's schedule. -/
def Obligations.CopyStateWordsFire : Prop :=
  (∀ (i : Instr) (ok : Prop) (m s : State), copyEffect s i = some (ok, m) → s.EngineFree → ok →
    ∃ t, exec i s = .next t ∧ EntryFires m t { InFlight.of s.cur s.clock with lat := copyStateLat i }) ∧
  (∀ (f : CD) (s sa sb sc sd m : State) (td te : Desc) (b h tab : List Byte) (va : Nat),
    s.EngineFree → granOk s f.gran.toNat 64 → b = granBytes s f.gran.toNat 64 →
    (s.slot s.cur.u).sched.state ≠ 1 → (s.slot s.cur.u).sched.state ≠ 2 →
    va = (if blockF b 0 8 = 0 then s.recF (s.slot s.cur.u).tk.ctx (s.slot s.cur.u).tk.launch 40 8 else blockF b 0 8) →
    (blockF b 0 8 = 0 →
      bitOf (s.recF (s.slot s.cur.u).tk.ctx (s.slot s.cur.u).tk.launch 18 1) 1 = true ∧ va ≠ 0) →
    blockF b 17 47 = 0 → (decSignal (blockF b 16 1)).isSome = true →
    tensorEnd s (coreOf s.cur.u) ptCOPY (s.slot s.cur.u).ctx va 0 64 false = .ok (sa, td) →
    tensorRead sa (coreOf s.cur.u) ptCOPY (s.slot s.cur.u).ctx va 64 = .ok (sb, h) →
    blockF h 0 2 = 1 → 1 ≤ blockF h 2 2 → blockF h 2 2 ≤ 64 → 1 ≤ blockF h 4 4 → (h.drop 8).all (· = 0) = true →
    blockF b 12 4 ≤ blockF h 4 4 →
    tensorEnd sb (coreOf s.cur.u) ptCOPY (s.slot s.cur.u).ctx va 0 (64 + 64 * blockF h 2 2) false = .ok (sc, te) →
    tensorRead sc (coreOf s.cur.u) ptCOPY (s.slot s.cur.u).ctx (va + 64) (64 * blockF h 2 2) = .ok (sd, tab) →
    sd.EngineFree →
    m = onSlot sd (fun sl => { sl with
      sched := {
        state := if 0 < blockF b 12 4 then 1 else 2, table := va, first := blockF b 8 4, stage := 0, entry := 0
        released := blockF b 12 4, e := blockF h 2 2, s := blockF h 4 4, sig := blockF b 16 1, ch := f.ch.toNat % 16
        blk := 64 * f.gran.toNat, word := sd.cur.word, tab := tab } }) →
    ∃ t, exec (.csched f) s = .next t ∧ EntryFires m t (InFlight.of sd.cur sd.clock))

/-- R325: SCHEDULE_ENTRY_FIRE runs the next entry of a running schedule as a copy, at its stage's addresses; the entry stands
in the copy unit and will move no timeline. R326: CSTAGE closes its region and releases stages. R328: CSTAT reads the copy
state; CSTAT.barclr clears the barrier's overflow mark, seen from the next clock on. -/
def Obligations.SchedulesAdvance : Prop :=
  (∀ (s m sa sb s1 s2 : State) (u amps st : Nat) (c : Sched) (d e : CopyDesc) (x : InFlight), s.occ.a = u → s.occ.b ≠ 1 →
    (s.core (coreOf u)).stopped = none → (s.core (coreOf u)).raised = none → Tbl.get 0 (s.core (coreOf u)).engFree 2 ≤ s.clock →
    c = (s.slot u).sched → c.state = 1 → c.stage < c.released → s.engBusy u 2 = false → (s.slot u).task.isSome = true →
    s.ringsHeld u = false → s.ringFirst u false = false →
    m = { s with cur := ⟨u, .copy, ⟨.none, .none, 0⟩, c.word, 8, false⟩ } →
    d = CopyDesc.parse ((c.tab.drop (64 * c.entry)).take 64) → st = c.first + c.stage →
    e = { d with src := addOff d.src (st * sint 64 d.x0), dst := addOff d.dst (st * sint 64 d.x1) } →
    e.check .entry = .ok () → e.overlaps = false →
    endCheck m (s.slot u) .entry e false true = .ok sa → endCheck sa (s.slot u) .entry e true true = .ok sb →
    copyAmps sb (s.slot u) e = .ok (s1, amps) →
    moveBlocks (s.slot u) .entry e c.ch (if bitOf d.arr 5 then some (d.arr % 32) else none)
      (s1.seedTile (coreOf u) ptCOPY (s.slot u).ctx ((s.slot u).chan c.ch).tile) e.blocks = (s2, none) → s2.cur = m.cur →
    x = firedCopy m e (e.clocks s1 (s.slot u) .entry) amps →
    exec .scheduleEntryFire s = .next ((s2.takeTurn x).setSlot u { s2.slot u with
      eng := Tbl.put (s2.slot u).eng 2 { x with words := [], signals := [], sched := true } })) ∧
  (∀ (f : SI) (s c : State) (n : Nat), s.Issues → s.Closes c → (c.slot s.cur.u).greg f.ra.toNat = gr s f.ra →
    n = f.imm.toNat % 2 ^ 16 + (gr s f.ra).toNat → n ≠ 0 →
    ∃ t m, m = (if (c.slot s.cur.u).sched.state = 1 ∨ (c.slot s.cur.u).sched.state = 2 then
        onSlot c (fun sl => { sl with
          sched := { sl.sched with
            released := min (sl.sched.released + n) (2 ^ 32 - 1)
            state := if sl.sched.stage < min (sl.sched.released + n) (2 ^ 32 - 1) then 1 else sl.sched.state } })
        else c) ∧
      exec (.cstage f) s = .next t ∧ ClosingDone m t 1 (gregs c) (preds c) ((c.slot s.cur.u).pc + s.cur.len)) ∧
  (∀ (f : S3) (s : State) (a op : Nat), s.Issues → a = (gr s f.ra).toNat → op = f.funct.toNat % 8 → op ≤ 5 →
    a < cstatLimit op →
    ∃ t, exec (.cstat f) s = .next t ∧
      WordDone s t 2 (s.gWith f.rd (BitVec.ofNat 64 (cstatView s op a))) (preds s) (after s) ∧
      (op = 3 → (((t.slot s.cur.u).settle (s.clock + 1)).bar a).ovf = false))

/-- R470 to R472: an invalidation is held while one of its function runs, and its end drops what it names from every layout unit; a
field of an idle context's register block takes a value in range, and no other field changes; BAR0 registers take what they are
written, within the function's reach. R475, R476, R478: package number, training, reset, recovery, update, dies. R474, R479,
R480: time is slewed or stepped, scrubs are reported, a quote is signed. R186: BAR2 reads and writes device memory, the posted writes of a
function in order but for Relaxed Ordering. R477: CURRENT_GRANT grants a die's oldest waiting request when its budget allows, and not otherwise; BUDGET_REBALANCE
sets the budgets of the four dies when they stay within 12 000 A. -/
def Obligations.HostBringUpAndGovernorAct : Prop :=
  ((∀ (s : State) (fn : Nat) (w : BitVec 64), s.occ.a % 16 = fn → s.hub.fwst ≠ 2 → s.fnOf (fld s.occ.w.toNat 12 8) = fn → w = s.occ.w &&& 0x40000000000FFFFF#64 →
    ((∀ e ∈ s.hub.invNow, e.1 ≠ fn) → ∃ t, exec .invctlWrite s = .next t ∧ t.hub.invNow = s.hub.invNow ++ [(fn, w)] ∧
      t.hub.invHeld = s.hub.invHeld ∧ (Tbl.get 0 t.hub.invctl fn).getLsbD 63 = true ∧ t.cores = s.cores) ∧
    ((∃ e ∈ s.hub.invNow, e.1 = fn) → ∃ t, exec .invctlWrite s = .next t ∧ t.hub.invNow = s.hub.invNow ∧
      t.hub.invHeld = s.hub.invHeld ++ [(fn, w)] ∧ t.cores = s.cores)) ∧
  (∀ (s : State) (fn : Nat) (w : BitVec 64), s.occ.a % 16 = fn → s.hub.invNow = [(fn, w)] → s.hub.invHeld = [] →
    ∃ t, exec .invalidationComplete s = .next t ∧ t.hub.invNow = [] ∧ (Tbl.get 0 t.hub.invctl fn).getLsbD 63 = false ∧
      (∀ c d, d ∈ (t.core c).descs ↔ d ∈ (s.core c).descs ∧
        ¬(d.2.1 = fld w.toNat 12 8 ∧ (w.getLsbD 62 = true ∨ d.2.2.1 = fld w.toNat 0 12))) ∧
      (∀ c d, d ∈ (t.core c).tiles ↔ d ∈ (s.core c).tiles ∧
        ¬(d.2.1 = fld w.toNat 12 8 ∧ (w.getLsbD 62 = true ∨ d.2.2.1 = fld w.toNat 0 12)))) ∧
  (∀ (s : State) (c : Nat), s.occ.a % 256 = c → s.hub.fwst ≠ 2 → s.ctxIdle c = true →
    (s.occ.b = 0x00 → s.occ.c = 8 → s.occ.w.toNat % 64 = 0 → s.occ.w.toNat < dramSize →
      ∃ t, exec .contextBlockWrite s = .next t ∧ t.ttbase c = s.occ.w.toNat ∧ (t.ctx c).dropped = (s.ctx c).dropped ∧
        (∀ o, 8 ≤ o → Mem.get (t.ctx c).block o = Mem.get (s.ctx c).block o) ∧ ∀ d, d ≠ c → t.ctx d = s.ctx d) ∧
    (s.occ.b = 0x70 → s.occ.c = 8 → 3 < s.occ.w.toNat →
      ∃ t, exec .contextBlockWrite s = .next t ∧ (t.ctx c).reg 0x70 8 = (s.ctx c).reg 0x70 8 ∧
        (t.ctx c).dropped = (s.ctx c).dropped + 1)) ∧
  (∀ (s : State) (c : Nat), s.occ.a % 256 = c → s.hub.fwst ≠ 2 → s.ctxIdle c = false →
    ∃ t, exec .contextBlockWrite s = .next t ∧ (t.ctx c).block = (s.ctx c).block ∧
      (t.ctx c).dropped = (s.ctx c).dropped + 1 ∧ ∀ d, d ≠ c → t.ctx d = s.ctx d) ∧
  (∀ (s : State), s.hub.fwst = 2 → ∃ t, exec .contextBlockWrite s = .next t ∧ t.ctxs = s.ctxs) ∧
  (∀ (s : State) (c n : Nat), s.occ.a % 256 = c → s.hub.fwst ≠ 2 → s.ctxIdle c = true → n = s.occ.w.toNat % 2 ^ 32 → n ≤ 2 ^ 26 →
    ∃ t, exec .kvpagesWrite s = .next t ∧ t.kvpages c = n ∧ (t.ctx c).kvfree = List.range n ∧ ∀ d, d ≠ c → t.ctx d = s.ctx d) ∧
  (∀ (ok : Prop) (s m : State), barEffect s s.occ.reg s.occ.w.toNat = some (ok, m) → s.occ.a % 16 = 0 → s.hub.fwst ≠ 2 → ok →
    exec .bar0RegisterWrite s = .next m) ∧
  (∀ (s : State), s.occ.a % 16 ≠ 0 → s.occ.reg = .gscfg → ∃ t, exec .bar0RegisterWrite s = .next t ∧
    t.fab = s.fab ∧ t.hub = s.hub ∧ t.slots = s.slots ∧ t.dram = s.dram) ∧
  (∀ (s : State), s.hub.fwst ≠ 2 → s.occ.a < 81 → s.occ.a / 9 < s.occ.b → s.occ.a % 9 < s.occ.b → s.occ.b ≤ 9 → exec .packageNumberWrite s = .next
    { s with fab := { s.fab with pkg := s.occ.a, grid := s.occ.b, trained := false } }) ∧
  (∀ (s : State), s.fab.grid ≠ 0 → exec .fabricTrained s = .next { s with fab := { s.fab with trained := true } }) ∧
  (∀ (s : State), ∃ t, exec .packageReset s = .next t ∧ t.slots = State.reset.slots ∧ t.cores = State.reset.cores ∧
    t.fab = State.reset.fab ∧ t.dram = s.dram ∧ t.host = s.host ∧ t.hub.dieUp = 0 ∧
    t.hub.fwst = (if Config.verified s.hub.fwImage then 1 else 2)) ∧
  (∀ (s : State), s.hub.fwst = 2 → s.occ.bytes.length ≤ 2 ^ 22 → ∃ t, exec .firmwareRecoveryLoad s = .next t ∧
    t.hub.fwImage = s.occ.bytes ∧ t.hub.fwst = (if Config.verified s.occ.bytes then 1 else 2)) ∧
  (∀ (s : State), s.hub.fwst = 1 → (Config.verified s.occ.bytes = true → ∃ t, exec .firmwareUpdateActivate s = .next t ∧
      t.hub.fwImage = s.occ.bytes ∧ t.hub.fwLog = s.hub.fwLog ++ [Config.measure s.occ.bytes]) ∧
    (Config.verified s.occ.bytes = false → exec .firmwareUpdateActivate s = .next s)) ∧
  (∀ (s : State), s.hub.fwst = 1 → ∃ t, exec .dieOffered s = .next t ∧ t.dieUp (s.occ.a % 4) = true ∧
    ∀ d, d < 4 → d ≠ s.occ.a % 4 → t.dieUp d = s.dieUp d) ∧
  (∀ (s : State), s.dieUp (s.occ.a % 4) = true → ∃ t, exec .dieCharacterised s = .next t ∧
    t.hub.fullClk.getLsbD (s.occ.a % 4) = true ∧ t.hub.dieUp = s.hub.dieUp) ∧
  (∀ (s : State), s.hub.timeSrc ≠ 0 →
    (s.occ.off.natAbs < 1000000 → ∃ t, exec .timeSyncSample s = .next t ∧ t.devTime = s.devTime ∧ t.hub.slew = s.occ.off) ∧
    (1000000 ≤ s.occ.off.natAbs → ∃ t, exec .timeSyncSample s = .next t ∧ t.hub.slew = 0 ∧ t.hub.timeOk = true ∧
      (0 ≤ ((s.clock * 20 / 21 : Nat) : Int) + s.hub.timeOff + s.slewed → 0 ≤ s.devTime + s.occ.off →
        (t.devTime : Int) = s.devTime + s.occ.off))) ∧
  (∀ (s : State), ∃ t, exec .patrolScrub s = .next t ∧ t.hub.rows = s.hub.rows ++ s.occ.nums ∧
    t.hub.corrected = s.hub.corrected + s.occ.nums.length ∧ t.dram = s.dram ∧ t.slots = s.slots) ∧
  (∀ (s : State) (r : List Byte), s.occ.bytes.length = 32 →
    r = s.hub.fwLog.flatten ++ s.occ.bytes ++ leBytes 8 s.devTime ++ Config.serial →
    ∃ t, exec .attestationRequest s = .next t ∧ t.hub.attest = s.hub.attest ++ [r ++ Config.sign r]) ∧
  (∀ (s : State), s.occ.flag = true → s.occ.b + s.occ.bytes.length ≤ dramSize →
    (s.occ.d = 0 → exec .hostBar2Access s = .next { s with hub := { s.hub with
      posted := s.hub.posted ++ [(s.occ.a % 16, s.occ.w.getLsbD 0, s.occ.b, s.occ.bytes)] } }) ∧
    (s.occ.d = 2 → exec .hostBar2Access s = .next { s with dram := s.dram.store s.occ.b s.occ.bytes })) ∧
  (∀ (s : State) (fn b : Nat) (ro : Bool) (bs : List Byte) (l r : List (Nat × Bool × Nat × List Byte)), s.occ.d = 1 →
    s.hub.posted = l ++ (fn, ro, b, bs) :: r → s.occ.c = l.length →
    ((ro = true ∨ ∀ e, e ∈ l → e.1 ≠ fn) → ∃ t, exec .hostBar2Access s = .next t ∧ t.dram.bytes b bs.length = bs ∧
      (∀ x, (x < b ∨ b + bs.length ≤ x) → t.dram.get x = s.dram.get x) ∧
      t.hub.posted.length + 1 = s.hub.posted.length) ∧
    (ro = false → (∃ e, e ∈ l ∧ e.1 = fn) → exec .hostBar2Access s = .next s)) ∧
  (∀ (s : State), s.occ.flag = false → s.occ.d = 0 → s.occ.b + s.occ.c ≤ dramSize →
    (∀ e, e ∈ s.hub.posted → e.1 ≠ s.occ.a % 16) → ∃ t, exec .hostBar2Access s = .next t ∧
      t.hub.bar2log = s.hub.bar2log ++ [s.dram.bytes s.occ.b s.occ.c] ∧ t.dram = s.dram)) ∧
  ((∀ (s : State) (g : Grant), s.hub.grants.find? (fun g => g.die == s.occ.a && !g.issued) = some g →
    (s.usedAmps s.occ.a + g.amps ≤ s.budget s.occ.a →
      ∃ t, exec .currentGrant s = .next t ∧ t.usedAmps s.occ.a = s.usedAmps s.occ.a + g.amps ∧
        (∀ x, x ∈ t.hub.grants → x.key = g.key → x.issued = true) ∧ t.hub.budget = s.hub.budget ∧
        (∀ u, { t.slot u with engNext := [] } = { s.slot u with engNext := [] }) ∧ t.cores = s.cores ∧ t.dram = s.dram) ∧
    (s.budget s.occ.a < s.usedAmps s.occ.a + g.amps → exec .currentGrant s = .next s)) ∧
  (∀ (s : State) (a b c d : Nat), s.occ.nums = [a, b, c, d] →
    (a + b + c + d ≤ 12000 → a < 2 ^ 16 → b < 2 ^ 16 → c < 2 ^ 16 → d < 2 ^ 16 →
      ∃ t, exec .budgetRebalance s = .next t ∧ t.budget 0 = a ∧ t.budget 1 = b ∧ t.budget 2 = c ∧ t.budget 3 = d ∧
        t.hub.used = s.hub.used ∧ t.slots = s.slots ∧ t.cores = s.cores ∧ t.dram = s.dram) ∧
    (12000 < a + b + c + d → exec .budgetRebalance s = .next s)))

/-! Statements search -/

/-- R160, R380, R381: a held word whose operands pass and whose effect has room puts that effect in the open region, writes
QUEUED to NODEST.ST, and changes nothing else. R386: TSPAWN and TSPAWNB capture the record, and the task counts as live from
issue. R408: NBACKUP captures its value, or 0 for a NaN, with AFLAGS.NV. R427: KVLINK checks its tensor first. -/
def Obligations.HeldWordsJoinTheRegion : Prop :=
  (∀ (i : Instr) (ok : Prop) (e : Effect) (s : State), heldWord s i = some (ok, e) → s.Issues → ok → hasRoom s e →
    ∃ t, exec i s = .next t ∧ WordDone (withSt (queued s e 0) 0x80) t 1 (gregs s) (preds s) (after s)) ∧
  (∀ (i : Instr) (f : S3) (batch : Bool) (s : State) (a : Nat) (t0 t1 : Task) (e : Effect),
    (i = .tspawn f ∧ batch = false ∨ i = .tspawnb f ∧ batch = true) → s.Issues → a = (gr s f.ra).toNat → a % 32 = 0 →
    spReadable s a 32 → (f.funct.getLsbD 0 = true → (gr s f.rb).toNat < 2 ^ 32) →
    t0 = (let x := Task.parse (spBytes s a 32); if f.funct.getLsbD 0 then { x with key := (gr s f.rb).toNat } else x) →
    spawnOk s t0 batch →
    t1 = { t0 with
      ctx := (s.slot s.cur.u).tk.ctx, queue := (s.slot s.cur.u).tk.queue, launch := (s.slot s.cur.u).tk.launch
      run := (s.slot s.cur.u).tk.run, key0 := t0.key, phase := 0 } →
    e = .spawn t1 batch → hasRoom s e →
    ∃ t, exec i s = .next t ∧
      WordDone ((withSt (queued s e 0) 0x80).liveAdd t1.run 1) t 1 (gregs s) (preds s) (after s)) ∧
  (∀ (f : S3) (s s0 : State) (x : Nat) (nan : Bool) (e : Effect), s.Issues → refOk (gr s f.ra) →
    f.funct.getLsbD 8 = false → x = (gr s f.rb).toNat → x < 2 ^ 32 → nan = (fl x).isNan → untrapped s (if nan then fNV else 0) →
    s0 = (if nan then withFlags s fNV else s) →
    e = .nbackup (ref (gr s f.ra)) (f.funct.toNat % 256) (if nan then 0 else x) none f.funct.toNat (vlu s) (gammaOf s) →
    hasRoom s e →
    ∃ t, exec (.nbackup f) s = .next t ∧ WordDone (withSt (queued s0 e 0) 0x80) t 1 (gregs s) (preds s) (after s)) ∧
  (∀ (f : S3) (s s0 : State) (o x v : Nat) (nan : Bool) (e : Effect), s.Issues → refOk (gr s f.ra) →
    f.funct.getLsbD 8 = true → o = (gr s f.rb).toNat → o + 8 ≤ (s.slot s.cur.u).alloc.regLen → o % 8 = 0 →
    (s.core (coreOf s.cur.u)).regValid ((s.slot s.cur.u).alloc.regBase + o) 8 = true →
    x = (s.core (coreOf s.cur.u)).regs.num ((s.slot s.cur.u).alloc.regBase + o) 4 →
    v = (s.core (coreOf s.cur.u)).regs.num ((s.slot s.cur.u).alloc.regBase + o + 4) 4 →
    ((fl v).isNan = true ∨ XR.lt (fl v) XR.zero = false) → nan = ((fl x).isNan || (fl v).isNan) →
    untrapped s (if nan then fNV else 0) → s0 = (if nan then withFlags s fNV else s) →
    e = .nbackup (ref (gr s f.ra)) (f.funct.toNat % 256) (if nan then 0 else x) (some (if nan then 0 else v)) f.funct.toNat
      (vlu s) (gammaOf s) → hasRoom s e →
    ∃ t, exec (.nbackup f) s = .next t ∧ WordDone (withSt (queued s0 e 0) 0x80) t 1 (gregs s) (preds s) (after s)) ∧
  (∀ (f : S3) (s s1 : State) (d : Desc) (va : Nat) (e : Effect), s.Issues → va = (gr s f.ra).toNat →
    openTensor s (coreOf s.cur.u) ptSEQ (s.slot s.cur.u).ctx va 1 false = .ok (s1, d) → d.layout = 4 →
    d.home s1.fab.pkg (d.pos (va % 2 ^ 52) / 65536) = s1.fab.pkg → d.ronly = false →
    (ref (gr s f.rb) = nullRef ∨ pageOk s1 (gr s f.rb)) → e = .kvlink (ref (gr s f.rb)) va → s1.cur = s.cur →
    (s1.slot s.cur.u) = (s.slot s.cur.u) → s1.Issues → hasRoom s1 e →
    ∃ t, exec (.kvlink f) s = .next t ∧ WordDone (withSt (queued s1 e 0) 0x80) t 1 (gregs s1) (preds s1) (after s1))

/-- R392, R393, R399, R417: TSELF, TQUERY, NLD and BFSTAT write what they read to g[rd]; one that reads a record counts and
reports its status. A record of another package is asked for, and the register waits for the answer (R337). R410, R411: NKEY writes a node's PUCT or UCB key, −∞ for one that is stale or dead; NSELECT writes the best child's
reference and key, the greatest key winning and the earliest of equals, or the null reference with NONE. -/
def Obligations.NodeReadsKeysAndSelection : Prop :=
  ((∀ (i : Instr) (ok : Prop) (m : State) (rd : BitVec 6) (v : Nat) (lat : Option Nat) (s : State),
    nodeRead s i = some (ok, m, rd, v, lat) → s.Issues → ok →
    ∃ t l, (lat = none ∨ lat = some l) ∧ exec i s = .next t ∧
      WordDone m t l (s.gWith rd (BitVec.ofNat 64 v)) (preds s) (after s)) ∧
  (∀ (i : Instr) (f : S3) (w r : Nat) (s : State), s.Issues → r = ref (gr s f.ra) →
    (i = .nld f ∧ w = f.funct.toNat % 8 ∨ i = .tquery f ∧ f.funct.toNat % 4 = 1 ∧ w = 8) → r / 2 ^ 25 ≠ s.fab.pkg →
    r / 2 ^ 25 < 81 → f.rd ≠ 0 →
    ∃ t tag j q, exec i s = .next t ∧ Tbl.get (.walk 0 0) t.fab.reqs tag = .node s.cur.u j ∧ j.node = r ∧
      t.fab.outbox = s.fab.outbox ++ [q] ∧ q.type = 0x30 ∧ q.dst = r / 2 ^ 25 ∧ q.tag = tag ∧
      q.operand = BitVec.ofNat 64 r ∧ q.payload = leBytes 8 w ∧
      (t.slot s.cur.u).pend.any (fun e => e.tag = tag && e.locked) = true)) ∧
  ((∀ (f : S3) (s : State) (r par : Nat) (key : Nat), s.Issues → r = ref (gr s f.ra) → r / 2 ^ 25 = s.fab.pkg →
    s.fab.pkg < 81 → par = nodeF s r 28 4 →
    (f.funct.toNat % 2 = 0 → par = nullRef ∨ 81 ≤ par / 2 ^ 25 ∨ par / 2 ^ 25 = s.fab.pkg) →
    key = (if s.nodeSt r ≠ stOK then 0xFF800000
      else keyAt s (f.funct.toNat % 2) r
        (if par = nullRef ∨ 81 ≤ par / 2 ^ 25 ∨ s.nodeSt par = stSTALE then none else some par)) →
    ∃ t l, exec (.nkey f) s = .next t ∧
      WordDone (withSt (s.countSt (s.slot s.cur.u).ctx r (s.nodeSt r)) (s.nodeSt r)) t l
        (s.gWith f.rd (BitVec.ofNat 64 key)) (preds s) (after s)) ∧
  (∀ (f : S3) (s : State) (r : Nat) (l : List Nat) (res : Nat × Nat), s.Issues → r = ref (gr s f.ra) →
    r / 2 ^ 25 = s.fab.pkg → s.fab.pkg < 81 →
    l = scanOf s (f.funct.toNat / 2 % 64 + 1) (nodeF s r 32 4) → (∀ c, c ∈ l → c / 2 ^ 25 = s.fab.pkg) →
    res = (if s.nodeSt r ≠ stOK then (0xFFFFFFFF, s.nodeSt r)
      else match bestOf s (f.funct.toNat % 2) r l none with
        | some (c, k) => (c + 2 ^ 32 * k, stOK)
        | none => (0xFFFFFFFF, stNONE)) →
    ∃ t, exec (.nselect f) s = .next t ∧
      WordDone (withSt (s.countSt (s.slot s.cur.u).ctx r (if res.2 = stNONE then stOK else res.2)) res.2) t
        (20 + 16 * (if s.nodeSt r = stOK then l.length else 0))
        (s.gWith f.rd (BitVec.ofNat 64 res.1)) (preds s) (after s)))

/-- R398, R402, R403, R426, R430: NALLOC, NADD with a destination, NCAS, KVALLOC, PFXLOOK and PFXINS close their region, act
at once, and write their answer to g[rd] and their status to NODEST.ST; on a record of another package the slot waits for
that package's answer. -/
def Obligations.ClosingWordsAnswer : Prop :=
  (∀ (i : Instr) (ok ok' : Prop) (rd : BitVec 6) (m m' s c : State) (v st v' st' : Nat), s.Issues → s.Closes c →
    (∀ n, (c.slot s.cur.u).greg n = (s.slot s.cur.u).greg n) →
    closingRead s i = some (ok', rd, m', v', st') → ok' → closingRead c i = some (ok, rd, m, v, st) → ok →
    ∃ t lat, exec i s = .next t ∧ ClosingDone (withSt m st) t lat (c.gWith rd (BitVec.ofNat 64 v)) (preds c) (after c)) ∧
  (∀ (i : Instr) (rd : BitVec 6) (r op : Nat) (args : List Nat) (s c : State), s.Issues → s.Closes c →
    (∀ n, (c.slot s.cur.u).greg n = (s.slot s.cur.u).greg n) → c.fab.pkg = s.fab.pkg →
    farNode s i = some (rd, r, op, args) → r / 2 ^ 25 ≠ s.fab.pkg → r / 2 ^ 25 < 81 →
    (∀ f, i = .nalloc f → (gr s f.rb).toNat < 2 ^ 16 ∧ r ≠ nullRef) →
    ∃ t tag q, exec i s = .next t ∧ (t.slot s.cur.u).hold = .remote tag 0 ∧ (t.slot s.cur.u).inHand = some s.cur ∧
      Tbl.get (.walk 0 0) t.fab.reqs tag = .node s.cur.u (NodeJob.of op rd.toNat) ∧ t.fab.outbox = c.fab.outbox ++ [q] ∧
      q.type = 0x30 ∧ q.dst = r / 2 ^ 25 ∧ q.tag = tag ∧ q.aux = op ∧ q.operand = BitVec.ofNat 64 r ∧
      q.payload = args.flatMap (leBytes 8))

/-- R394: REGION closes the open region and opens one that restarts after it, with a full capture, or with the live-ins it
names. R413: BFCFG leaves an equal block alone, disables a weight set, or enables it for a record that is idle and not owned
for another, and reports BUSY otherwise. R417: BFFLUSH forms what is pending. -/
def Obligations.RegionAndBatchWordsComplete : Prop :=
  (∀ (f : SI) (s : State), s.Issues → f.imm.getLsbD 13 = true →
    ∃ t, exec (.region f) s = .next t ∧
      ClosingDone (s.closeRegion s.cur.u (s.slot s.cur.u).pc (!f.imm.getLsbD 12)) t 1 (gregs s) (preds s) (after s)) ∧
  (∀ (f : SI) (s c : State), s.Issues → f.imm.getLsbD 13 = false → (s.slot s.cur.u).loops = [] →
    c = s.closeRegion s.cur.u ((s.slot s.cur.u).pc + 8) (!f.imm.getLsbD 12) →
    ∃ t, exec (.region f) s = .next t ∧
      WordDone (onSlot c (fun sl => { sl with
        region := { sl.region with
          live := (s.slot s.cur.u).captureSome (f.imm.toNat % 64) (f.imm.toNat / 64 % 64) (f.imm.getLsbD 14) } }))
        t 1 (gregs s) (preds s) (after s)) ∧
  (∀ (f : S3) (s s1 m : State) (ws a ctx max r : Nat) (b : List Byte) (old : BatchSet) (st : Nat), s.Issues →
    ws = (gr s f.ra).toNat → ws < 256 → a = (gr s f.rb).toNat → a % 32 = 0 → spReadable s a 32 →
    ctx = (s.slot s.cur.u).ctx → b = spBytes s a 32 → max = blockF b 0 2 → r = blockF b 2 2 → blockF b 17 15 = 0 →
    (max = 0 ∨ (max ≤ 256 ∧ r < 4096 ∧ 1 ≤ blockF b 4 4 ∧ blockF b 4 4 ≤ 10000000 ∧ blockF b 8 8 % 64 = 0 ∧
      1 ≤ blockF b 16 1 ∧ blockF b 16 1 ≤ 16 ∧ s.areaOk ctx (blockF b 8 8) (blockF b 16 1) = true)) →
    old = s.set ctx ws → s1 = s.batchForm ctx ws 2 →
    (old.maxrows = max ∧ (max = 0 ∨ old.record = r ∧ old.window = blockF b 4 4 ∧ old.area = blockF b 8 8 ∧
        old.nb = blockF b 16 1) → m = s ∧ st = stOK) →
    (¬(old.maxrows = max ∧ (max = 0 ∨ old.record = r ∧ old.window = blockF b 4 4 ∧ old.area = blockF b 8 8 ∧
        old.nb = blockF b 16 1)) →
      (max = 0 → st = stOK ∧
        m = (s1.modSet ctx ws (fun o => { o with maxrows := 0 })).disown (s1.set ctx ws) ctx ws old.record) ∧
      (max ≠ 0 →
        (¬(s1.recState ctx r = 0 ∧ (s1.recBit ctx r 6 = false ∨ (s1.set ctx ws).holds r = true)) → m = s1 ∧ st = stBUSY) ∧
        (s1.recState ctx r = 0 ∧ (s1.recBit ctx r 6 = false ∨ (s1.set ctx ws).holds r = true) →
          st = stOK ∧
          m = ((s1.modSet ctx ws (fun o => { o with
              maxrows := max, record := r, window := blockF b 4 4, area := blockF b 8 8, nb := blockF b 16 1, count := 0
              revoked := 0 })).disown (s1.set ctx ws) ctx ws old.record).setRecBit ctx r 6 true))) →
    ∃ t, exec (.bfcfg f) s = .next t ∧ WordDone (withSt m st) t 1 (gregs s) (preds s) (after s)) ∧
  (∀ (f : SI) (s : State) (ctx : Nat) (l : List Nat), s.Issues → ctx = (s.slot s.cur.u).ctx →
    l = (if f.imm.getLsbD 8 then (s.ctx ctx).sets.map (·.1) else [f.imm.toNat % 256]) →
    ∃ t, exec (.bfflush f) s = .next t ∧
      WordDone (l.foldl (fun s ws => s.batchForm ctx ws 2) s) t 1 (gregs s) (preds s) (after s))

/-! Statements kv -/

/-- R426: KVINV returns a live page's descriptor and clears or sets the VALID bits of its mask; through a stale reference, or
on a free page, it returns all ones with STALE. R428, R430: PFXHASH writes the hash of 16 tokens. -/
def Obligations.PageAndHashWordsWriteTheirResult : Prop :=
  (∀ (i : Instr) (f : S3) (val : Bool) (s : State) (ctx r old : Nat), s.Issues →
    (i = .kvinvInv f ∧ val = false ∨ i = .kvinvVal f ∧ val = true) → pageOk s (gr s f.ra) → (gr s f.rb).toNat < 2 ^ 16 →
    ctx = (s.slot s.cur.u).ctx → r = ref (gr s f.ra) → old = s.pgF ctx r 8 2 →
    (s.pgStale ctx r = true ∨ s.pgF ctx r 11 1 = 0 →
      ∃ t, exec i s = .next t ∧
        WordDone (withSt s stSTALE) t 18 (s.gWith f.rd 0xFFFFFFFFFFFFFFFF) (preds s) (after s)) ∧
    (s.pgStale ctx r = false → s.pgF ctx r 11 1 ≠ 0 →
      ∃ t, exec i s = .next t ∧
        WordDone (withSt (s.setPgF ctx r 8 2
            (if val then old ||| (gr s f.rb).toNat else old &&& (0xFFFF ^^^ (gr s f.rb).toNat))) stOK) t 18
          (s.gWith f.rd (BitVec.ofNat 64
            (old + 2 ^ 16 * s.pgF ctx r 4 2 + 2 ^ 32 * s.pgF ctx r 6 2 + 2 ^ 48 * s.pgF ctx r 10 1))) (preds s) (after s))) ∧
  (∀ (f : S3) (s : State) (a : Nat) (toks : List Nat), s.Issues → a = (gr s f.ra).toNat → spReadable s a 64 → a % 64 = 0 →
    toks = (List.range 16).map (fun k => blockF (spBytes s a 64) (4 * k) 4) →
    ∃ t, exec (.pfxhash f) s = .next t ∧
      WordDone s t 24 (s.gWith f.rd (hashEnd (toks.foldl hashStep (gr s f.rb ^^^ 0x6A1D93C752E0B84F#64)))) (preds s)
        (after s))

/-! Statements vec -/

/-- R222, R229 to R231: a lane-wise float, integer or logic word whose operands are there fires, and will write, after its
latency, each lane of its result from the same lanes of its operands, with its flags. -/
def Obligations.LaneWordsFire : Prop :=
  ∀ (i : Instr) (f : VR) (useB useD : Bool) (lat : Nat) (op : Nat → Nat → Nat → Nat → Nat × Nat) (s : State) (v : VecForm),
    laneForm s i = some (f, useB, useD, lat, op) → s.EngineFree →
    v = ⟨f, 1, useB, useD, lat, 0, fun a b d => laneMap (eltBytes f.ty) a b d op⟩ → vecReadable s v 256 →
    ∃ t, exec i s = .next t ∧ EntryFires s t (vecFired s v)

/-- R222: the lanes of a lane-wise result are those of its rule, and no lane depends on another; the flags are those of all
lanes. -/
def Obligations.LanesAreIndependent : Prop :=
  ∀ (w n : Nat) (a b d : List Byte) (op : Nat → Nat → Nat → Nat → Nat × Nat), 1 ≤ w → a.length = w * n → b.length = w * n →
    d.length = w * n → 1 ≤ n →
    (laneMap w a b d op).1.length = w * n ∧
    (∀ i, i < n → leNat (((laneMap w a b d op).1.drop (w * i)).take w) =
      (op i (leNat ((a.drop (w * i)).take w)) (leNat ((b.drop (w * i)).take w)) (leNat ((d.drop (w * i)).take w))).1
        % 2 ^ (8 * w)) ∧
    (∀ k, bitOf (laneMap w a b d op).2 k = true ↔ ∃ i, i < n ∧
      bitOf (op i (leNat ((a.drop (w * i)).take w)) (leNat ((b.drop (w * i)).take w)) (leNat ((d.drop (w * i)).take w))).2 k
        = true)

/-- R233 to R236, R241: quantisation, permutes, reductions, scans and VMOV fire with their result. R237: a transcendental
word fires with its reference function of each lane. -/
def Obligations.WholeVectorWordsFire : Prop :=
  (∀ (i : Instr) (s : State) (v : VecForm), wholeForm s i = some v → s.EngineFree →
    vecReadable s v (vecResult s v).1.length → ∃ t, exec i s = .next t ∧ EntryFires s t (vecFired s v)) ∧
  (∀ (f : VR) (s : State) (v : VecForm) (best : Option (Nat × Nat)) (l : List Nat) (fl : Bool), s.EngineFree →
    fl = decide (f.ty.toNat ≤ 2 ∨ f.ty = 7) → l = lanes f (regBytes s (viewV s) f.va.toNat 0 256) →
    v = ⟨f, 1, false, false, 8, 2, fun _ _ _ =>
      (filled (match best with
        | some (x, i) => leBytes 4 i ++ leBytes 4 x
        | none => leBytes 4 0xFFFFFFFF ++ leBytes 4 ((varFmt f).nanRes false).1),
        if fl = true ∧ l.any (fun x => ((varFmt f).dec x).nv) = true then fNV else 0)⟩ →
    (match best with
      | some (x, i) => i < l.length ∧ nth 0 l i = x ∧ (fl = true → (varFmt f).isNan x = false) ∧
          ∀ j, j < l.length → (fl = true → (varFmt f).isNan (nth 0 l j) = false) →
            (let less (p q : Nat) : Prop := if fl = true then
                (if ((varFmt f).dec p).isZero && ((varFmt f).dec q).isZero then
                  ((varFmt f).dec p).neg = true ∧ ((varFmt f).dec q).neg = false
                else XR.lt ((varFmt f).dec p) ((varFmt f).dec q) = true)
              else intOf f p < intOf f q
            ¬less x (nth 0 l j) ∧ (j < i → less (nth 0 l j) x))
      | none => fl = true ∧ ∀ j, j < l.length → (varFmt f).isNan (nth 0 l j) = true) →
    vecReadable s v 256 → ∃ t, exec (.vrargmax f) s = .next t ∧ EntryFires s t (vecFired s v)) ∧
  (∀ (i : Instr) (f : VR) (g : TransFn) (lat : Nat) (s : State) (v : VecForm), transForm i = some (f, g, lat) →
    s.EngineFree →
    v = ⟨f, 1, false, false, lat, 2,
      fun a _ _ => laneMap (eltBytes f.ty) a [] [] (fun _ x _ _ => g.lane (eltFmt f.ty false) x)⟩ →
    vecReadable s v 256 → ∃ t, exec i s = .next t ∧ EntryFires s t (vecFired s v))

/-- R232, R235, R241: VCVT converts the part it names, VNIB and VBCAST read only what they use, VIOTA counts up from its
immediate, VZERO writes zeros. -/
def Obligations.PartVectorWordsFire : Prop :=
  (∀ (f : VR) (s : State) (sb db n p lo len : Nat) (a : List Byte) (r : List (Nat × Nat)), s.EngineFree →
    sb = tyBytes (f.vb.toNat / 64) → db = eltBytes f.ty → n = 256 / max sb db → p = f.funct.toNat % 8 →
    lo = (if sb < db then p * (n * sb) else 0) → len = (if sb < db then n * sb else 256) →
    regsIn s (viewV s) f.va.toNat 1 → regsValid s (viewV s) f.va.toNat lo len → a = regBytes s (viewV s) f.va.toNat lo len →
    r = ((lanesOf sb a).zip (List.range n)).map (fun e => convLane s f (p * n + e.2) e.1) →
    p * (n * db) + n * db ≤ 256 ∨ sb ≤ db → regsIn s (viewV s) f.vd.toNat 1 →
    ∃ t, exec (.vcvt f) s = .next t ∧
      EntryFires s t { writesReg s (readsReg s (vecNew s 4 1) (viewV s) f.va.toNat 1 lo len f.la) (viewV s) f.vd.toNat
        (if db < sb then p * (n * db) else 0) ((r.map (·.1)).flatMap (leBytes db)) with
          flags := r.foldl (fun m x => m ||| x.2) 0 }) ∧
  (∀ (f : VR) (s : State) (h : Nat) (a : List Byte), s.EngineFree → h = f.funct.toNat % 2 →
    regsIn s (viewV s) f.va.toNat 1 → regsValid s (viewV s) f.va.toNat (128 * h) 128 →
    a = regBytes s (viewV s) f.va.toNat (128 * h) 128 → regsIn s (viewV s) f.vd.toNat 1 →
    ∃ t, exec (.vnib f) s = .next t ∧
      EntryFires s t (writesReg s (readsReg s (vecNew s 3 1) (viewV s) f.va.toNat 1 (128 * h) 128 f.la) (viewV s) f.vd.toNat 0
        ((a.flatMap (fun b => [b.toNat % 16, b.toNat / 16])).map (fun n =>
          BitVec.ofNat 8 (if f.ty = 5 then toBits 8 (sint 4 n) else n))))) ∧
  (∀ (f : VX) (s : State) (w : Nat), s.EngineFree → w = eltBytes f.ty → f.imm.toNat < 256 / w →
    regsIn s (viewV s) f.va.toNat 1 → regsValid s (viewV s) f.va.toNat (w * f.imm.toNat) w → regsIn s (viewV s) f.vd.toNat 1 →
    ∃ t, exec (.vbcast f) s = .next t ∧
      EntryFires s t (writesReg s (readsReg s (vecNew s 3 1) (viewV s) f.va.toNat 1 (w * f.imm.toNat) w false) (viewV s)
        f.vd.toNat 0 (List.replicate (256 / w) (regBytes s (viewV s) f.va.toNat (w * f.imm.toNat) w)).flatten)) ∧
  (∀ (f : VX) (s : State) (w : Nat), s.EngineFree → w = eltBytes f.ty → regsIn s (viewV s) f.vd.toNat 1 →
    ∃ t, exec (.viota f) s = .next t ∧
      EntryFires s t (writesReg s (vecNew s 3 1) (viewV s) f.vd.toNat 0
        ((List.range (256 / w)).flatMap (fun (i : Nat) => leBytes w (toBits (8 * w) (sint 15 f.imm.toNat + (i : Nat))))))) ∧
  (∀ (f : VM) (s : State) (n : Nat), s.EngineFree → n = f.cnt.toNat + 1 → regsIn s (viewV s) f.vd.toNat n →
    ∃ t, exec (.vzero f) s = .next t ∧
      EntryFires s t (writesReg s (vecNew s (1 + n) n) (viewV s) f.vd.toNat 0 (List.replicate (256 * n) 0)))

/-! Statements xfer -/

/-- R241, R242: the transfer words move vectors between register space, the scratchpad, data rings and operand queues: loads
and gathers write their vectors when they complete, stores and scatters their scratchpad bytes, and a ring's pointer moves entry
by entry (R192). -/
def Obligations.TransferWordsFire : Prop :=
  (∀ (f : VM) (s : State) (n : Nat), s.EngineFree → n = f.cnt.toNat + 1 → granOk s f.gran.toNat (256 * n) →
    s.kept s.cur.u (s.slot s.cur.u).ctx 1 (64 * f.gran.toNat) (256 * n) = false → regsIn s (viewV s) f.vd.toNat n →
    ∃ t, exec (.vld f) s = .next t ∧
      EntryFires s t { writesReg s (vecNew s (4 + n) n) (viewV s) f.vd.toNat 0 (granBytes s f.gran.toNat (256 * n)) with
        reads := [spanOf (granAt s f.gran.toNat) (256 * n)] }) ∧
  (∀ (f : VM) (s : State) (n : Nat), s.EngineFree → n = f.cnt.toNat + 1 → granOk s f.gran.toNat (256 * n) →
    s.kept s.cur.u (s.slot s.cur.u).ctx 1 (64 * f.gran.toNat) (256 * n) = false → regsIn s (viewV s) f.vd.toNat n →
    regsValid s (viewV s) f.vd.toNat 0 (256 * n) →
    ∃ t, exec (.vst f) s = .next t ∧
      EntryFires s t { readsReg s (vecNew s (4 + n) n) (viewV s) f.vd.toNat n 0 (256 * n) false with
        banks := [], writes := [inScratch (granAt s f.gran.toNat) (regBytes s (viewV s) f.vd.toNat 0 (256 * n))] }) ∧
  (∀ (f : VX) (s : State) (n k c : Nat) (r : Ring), s.EngineFree → n = f.imm.toNat % 32 → f.imm.getLsbD 5 = false →
    k = f.imm.toNat / 64 % 64 + 1 → ringGives s n k r → c = vecsOf r.size → regsIn s (viewV s) f.vd.toNat (c * k) →
    (∀ j, j < k → spFree s (entryAt s n r (r.cons + j)) r.size) →
    ∃ t, exec (.vldr f) s = .next t ∧
      EntryFires s t { vecNew s (4 + k * c) (k * c) with
        writes := (List.range k).map (fun j => (regAt s (viewV s) (f.vd.toNat + c * j),
          (s.core (coreOf s.cur.u)).scratch.bytes (entryAt s n r (r.cons + j)) r.size))
        reads := (List.range k).map (fun j => spanOf (entryAt s n r (r.cons + j)) r.size)
        advances := [(n, false, k)]
        stream := true }) ∧
  (∀ (f : VX) (s : State) (n k : Nat) (q : OQ), s.EngineFree → n = f.imm.toNat % 32 → f.imm.getLsbD 5 = true →
    k = f.imm.toNat / 64 % 64 + 1 → q = Tbl.get default (s.core (coreOf s.cur.u)).oqs n → q.bound = some s.cur.u →
    k ≤ q.entries.length → (∀ e, e ∈ q.entries → e.length = 256) → regsIn s (viewV s) f.vd.toNat k →
    ∃ t, exec (.vldr f) s = .next t ∧
      EntryFires s t { writesReg s (vecNew s (4 + k) k) (viewV s) f.vd.toNat 0 (q.entries.take k).flatten with
        oqs := [(n, k)] }) ∧
  (∀ (f : VX) (s : State) (n k c : Nat) (r : Ring) (bs : Nat → List Byte), s.EngineFree → n = f.imm.toNat % 32 →
    k = f.imm.toNat / 64 % 64 + 1 → ringTakes s n k r → c = vecsOf r.size → regsIn s (viewV s) f.vd.toNat (c * k) →
    bs = (fun j => regBytes s (viewV s) (f.vd.toNat + c * j) 0 r.size) →
    (∀ j, j < k → regsValid s (viewV s) (f.vd.toNat + c * j) 0 r.size) →
    (∀ j, j < k → spFree s (entryAt s n r (r.prod + j)) r.size) →
    ∃ t, exec (.vstr f) s = .next t ∧
      EntryFires s t { vecNew s (4 + k * c) (k * c) with
        reads := (List.range k).map (fun j => (regAt s (viewV s) (f.vd.toNat + c * j), r.size))
        writes := (List.range k).map (fun j => inScratch (entryAt s n r (r.prod + j)) (bs j))
        advances := [(n, true, k)]
        stream := true }) ∧
  (∀ (f : VR) (s : State) (w : Nat) (os : List Nat) (al : Nat), s.EngineFree → w = eltBytes f.ty →
    regsIn s (viewV s) f.vb.toNat 1 → regsValid s (viewV s) f.vb.toNat 0 256 →
    os = lanesOf 4 (regBytes s (viewV s) f.vb.toNat 0 256) → offsetsOk s w os → regsIn s (viewV s) f.vd.toNat 1 →
    al = (s.slot s.cur.u).alloc.spBase →
    ∃ t, exec (.vgath f) s = .next t ∧
      EntryFires s t { writesReg s (readsReg s (vecNew s 8 4) (viewV s) f.vb.toNat 1 0 256 f.lb) (viewV s) f.vd.toNat 0
          (filled (os.flatMap (fun o => (s.core (coreOf s.cur.u)).scratch.bytes (al + o) w))) with
        reads := [(regAt s (viewV s) f.vb.toNat, 256)] ++ os.map (fun o => spanOf (al + o) w) }) ∧
  (∀ (f : VR) (s : State) (w : Nat) (os : List Nat) (a : List Byte) (al : Nat), s.EngineFree → w = eltBytes f.ty →
    regsIn s (viewV s) f.va.toNat 1 → regsValid s (viewV s) f.va.toNat 0 (64 * w) →
    a = regBytes s (viewV s) f.va.toNat 0 (64 * w) → regsIn s (viewV s) f.vb.toNat 1 →
    regsValid s (viewV s) f.vb.toNat 0 256 → os = lanesOf 4 (regBytes s (viewV s) f.vb.toNat 0 256) → offsetsOk s w os →
    al = (s.slot s.cur.u).alloc.spBase →
    ∃ t, exec (.vscat f) s = .next t ∧
      EntryFires s t { readsReg s (readsReg s (vecNew s 8 4) (viewV s) f.va.toNat 1 0 (64 * w) f.la) (viewV s) f.vb.toNat 1
          0 256 f.lb with
        writes := (List.range 64).map (fun j => inScratch (al + nth 0 os j) ((a.drop (w * j)).take w)) })

/-- R244 to R259: a word that reads moment registers and writes one fires; its elements follow the word's rule, under the
correlation in force, and its variances, read and written, follow the rules of MCTL.CLAMP. R254, R260, R261: MFROM makes moments of lanes, MSPLIT separates means and variances, MCOL collapses a register to 32
lanes, MCHK tests its elements. -/
def Obligations.MomentWordsAndConversionsFire : Prop :=
  (∀ (i : Instr) (v : MomForm) (s : State) (a b ra rb l : List Mom) (fl : Nat), momForm i = some v → s.EngineFree →
    regsIn s (viewM s) v.f.va.toNat 1 → regsValid s (viewM s) v.f.va.toNat 0 256 →
    (v.useB = true → regsIn s (viewM s) v.f.vb.toNat 1 ∧ regsValid s (viewM s) v.f.vb.toNat 0 256) →
    regsIn s (viewM s) v.f.vd.toNat 1 →
    a = momsAt s (viewM s) v.f.va.toNat → b = (if v.useB then momsAt s (viewM s) v.f.vb.toNat else a) →
    (clampOn s = true ∨ anyNeg a = false ∧ (v.chkB = true → anyNeg b = false)) →
    ra = clampedVars a → rb = (if v.chkB then clampedVars b else b) →
    (l, fl) = ((ra.zip rb).mapM (fun p => momElem v.nonlin ([p.1.mu, p.1.v] ++ (if v.useB then v.halves p.2 else []))
      (v.op (rhoOf s) p.1 p.2))).run 0 →
    ∃ t, exec i s = .next t ∧
      EntryFires s t (momFired s
        (let e := readsReg s (vecNew s v.lat v.long) (viewM s) v.f.va.toNat 1 0 256 v.f.la
          if v.useB then readsReg s e (viewM s) v.f.vb.toNat 1 0 256 v.f.lb else e)
        v.f.vd.toNat (anyNeg a || (v.chkB && anyNeg b)) fl l)) ∧
  ((∀ (f : VR) (s : State) (form lo : Nat) (x y : List Byte) (l : List Mom) (fl : Nat), s.EngineFree →
    form = f.funct.toNat % 4 → lo = 128 * (f.funct.toNat / 4 % 2) → regsIn s (viewV s) f.va.toNat 1 →
    regsValid s (viewV s) f.va.toNat lo 128 →
    (form ≠ 2 → regsIn s (viewV s) f.vb.toNat 1 ∧ regsValid s (viewV s) f.vb.toNat lo 128) →
    regsIn s (viewM s) f.vd.toNat 1 → x = regBytes s (viewV s) f.va.toNat lo 128 →
    y = (if form = 2 then List.replicate 128 0 else regBytes s (viewV s) f.vb.toNat lo 128) →
    l = ((lanesOf 4 x).zip (lanesOf 4 y)).map (fun p =>
      ⟨p.1, if form = 1 then (fp32.rne (XR.mul (fp32.dec p.2) (fp32.dec p.2))).1 else p.2⟩) →
    fl = (if form = 1 then (lanesOf 4 y).foldl (fun m c => m ||| (fp32.rne (XR.mul (fp32.dec c) (fp32.dec c))).2) 0 else 0) →
    ∃ t, exec (.mfrom f) s = .next t ∧
      EntryFires s t (momFired s
        (let e := readsReg s (vecNew s 3 1) (viewV s) f.va.toNat 1 lo 128 f.la
          if form = 2 then e else readsReg s e (viewV s) f.vb.toNat 1 lo 128 f.lb)
        f.vd.toNat false fl l)) ∧
  (∀ (f : VR) (s : State) (lo : Nat) (l : List Mom), s.EngineFree → lo = 128 * (f.funct.toNat / 4 % 2) →
    regsIn s (viewM s) f.va.toNat 1 → regsValid s (viewM s) f.va.toNat 0 256 → regsIn s (viewV s) f.vd.toNat 2 →
    l = momsAt s (viewM s) f.va.toNat →
    ∃ t, exec (.msplit f) s = .next t ∧
      EntryFires s t (writesReg s (writesReg s (readsReg s (vecNew s 3 1) (viewM s) f.va.toNat 1 0 256 f.la) (viewV s)
        f.vd.toNat lo (l.flatMap (fun m => leBytes 4 m.mu))) (viewV s) (f.vd.toNat + 1) lo
        (l.flatMap (fun m => leBytes 4 m.v)))) ∧
  (∀ (f : VR) (s : State) (form h : Nat) (a : List Mom) (l : List Nat) (fl : Nat), s.EngineFree →
    form = f.funct.toNat % 4 → h = f.funct.toNat / 4 % 2 → regsIn s (viewM s) f.va.toNat 1 →
    regsValid s (viewM s) f.va.toNat 0 256 → a = momsAt s (viewM s) f.va.toNat → (clampOn s = true ∨ anyNeg a = false) →
    regsIn s (viewV s) f.vd.toNat 1 →
    (l, fl) = (((clampedVars a).zip (List.range 32)).mapM (fun p => mcolLane s form h p.2 p.1)).run 0 →
    ∃ t, exec (.mcol f) s = .next t ∧
      EntryFires s t { writesReg s (readsReg s (vecNew s (if form = 3 then 36 else 8) (if form = 3 then 4 else 2)) (viewM s)
          f.va.toNat 1 0 256 f.la) (viewV s) f.vd.toNat (128 * h) (l.flatMap (leBytes 4)) with
        flags := fl, clamped := anyNeg a }) ∧
  (∀ (f : VR) (s : State) (a : List Mom), s.EngineFree → regsIn s (viewM s) f.va.toNat 1 →
    regsValid s (viewM s) f.va.toNat 0 256 → a = momsAt s (viewM s) f.va.toNat → regsIn s (viewV s) f.vd.toNat 1 →
    ∃ t, exec (.mchk f) s = .next t ∧
      EntryFires s t (writesReg s (readsReg s (vecNew s 3 1) (viewM s) f.va.toNat 1 0 256 f.la) (viewV s) f.vd.toNat 0
        (filled (a.flatMap (fun m => leBytes 4 (if (match f.funct.toNat % 4 with
          | 0 => negVar m.v
          | 1 => negVar m.v || (fl m.v).isNan
          | _ => (fl m.v).isNan || (fl m.mu).isNan) then 0xFFFFFFFF else 0)))))))

/-! Statements mtx -/

/-- R266, R267: MLEASE takes a free claim for its task with everything reset, and waits, fired, behind another holder; MFREE
gives the claim back when no chain is open. R271, R285, R288, R293: MCFG, the chain words, MEPI and MHEAPCLR change the claim,
R279: MBSWAP exchanges the two roles, R283: MZERO writes the identity. R269, R270: LEASE_RUN_GRANT gives a free array to the core whose ready command belongs to the highest launch level, the
first after the last holder among equals, and asks for its current; with no ready command it changes nothing. LEASE_RUN_END
ends a run that is spent, or has nothing to fire, once no command of it runs. -/
def Obligations.ClaimAndLeaseWordsAct : Prop :=
  ((∀ (f : MC) (s : State), s.EngineFree →
    ((s.core (coreOf s.cur.u)).claim = none →
      ∃ t, exec (.mlease f) s = .next t ∧ EntryFires (withClaim s
        { ctx := (s.slot s.cur.u).tk.ctx, seq := (s.slot s.cur.u).tk.seq, cls := f.cls.toNat, mcfg := none, opened := none
          active := none, shadow := none, epi := epiReset, epiBy := 0, heaps := [], caps := [] }) t (mtxNew s 4)) ∧
    (∀ cl, (s.core (coreOf s.cur.u)).claim = some cl → cl.of (s.slot s.cur.u) = false →
      ∃ t, exec (.mlease f) s = .next t ∧ EntryFires s t { mtxNew s 4 with waits := [0] })) ∧
  (∀ (s : State) (cl : Claim), s.EngineFree → (s.core (coreOf s.cur.u)).claim = some cl →
    cl.of (s.slot s.cur.u) = true → unitFree s cl .mfree = .ok () → cl.opened = none →
    ∃ t, exec .mfree s = .next t ∧ EntryFires (s.dropClaim (coreOf s.cur.u)) t (mtxNew s 2)) ∧
  (∀ (i : Instr) (ok : Prop) (s : State) (cl cl' : Claim) (lat : Nat), claimChange s cl i = some (ok, cl', lat) →
    s.EngineFree → ArrayReady s cl i → ok →
    ∃ t, exec i s = .next t ∧ EntryFires (withClaim (inRun s) cl') t (mtxNew s lat)) ∧
  (∀ (s : State) (cl : Claim) (ar : Arr), s.EngineFree → ArrayReady s cl .mbswap →
    ar = (inRun s).arr (arrOf (coreOf s.cur.u)) →
    ∃ t, exec .mbswap s = .next t ∧
      EntryFires (withClaim ((inRun s).setArr (arrOf (coreOf s.cur.u)) { ar with role := 1 - ar.role })
        { cl with active := cl.shadow, shadow := cl.active }) t (mtxNew s 1)) ∧
  (∀ (f : MA) (s : State) (cl : Claim) (v m : Nat), s.EngineFree → ArrayReady s cl (.mzero f) → cl.mcfg = some v →
    m = f.nrow.toNat + 1 → rowsOpen cl f.arow.toNat m (halvesAt cl f.h) →
    ∃ t, exec (.mzero f) s = .next t ∧
      EntryFires (zeroRows (inRun s) (Cfg.of v) f.arow.toNat m (halvesAt cl f.h)) t (mtxNew s (2 + m)))) ∧
  ((∀ (s : State) (a c l : Nat), s.occ.a = a → a < 32 → (s.arr a).holder = none → c / 4 = a → s.mtxLevel c = some l →
    (∀ c' l', c' / 4 = a → s.mtxLevel c' = some l' →
      l' < l ∨ l' = l ∧ (c % 4 + 4 - (s.arr a).lastHolder % 4) % 4 ≤ (c' % 4 + 4 - (s.arr a).lastHolder % 4) % 4) →
    ∃ t, exec .leaseRunGrant s = .next t ∧ (t.arr a).holder = some c ∧ (t.arr a).fired = 0 ∧ (t.arr a).amps = 0 ∧
      (t.arr a).planes = (s.arr a).planes ∧ t.slots = s.slots ∧ t.cores = s.cores ∧ t.dram = s.dram ∧
      (∃ g, g ∈ t.hub.grants ∧ g.key = c)) ∧
  (∀ (s : State) (a : Nat), s.occ.a = a → a < 32 →
    ((s.arr a).holder.isSome = true ∨ ∀ c, c / 4 = a → s.mtxLevel c = none) → exec .leaseRunGrant s = .next s) ∧
  (∀ (s : State) (a c : Nat), s.occ.a = a → a < 32 → (s.arr a).holder = some c →
    (∀ v, v ∈ s.views c → (s.view v.1 v.2).eng.any (fun x => x.1 == 1 && x.2.waits.isEmpty) = false) →
    (64 ≤ (s.arr a).fired ∨ 0 < (s.arr a).fired ∧ (s.arr a).start + usClk 16 ≤ s.clock ∨ s.mtxLevel c = none) →
    exec .leaseRunEnd s = .next (s.endRun a) ∧ ((s.endRun a).arr a).holder = none))

/-- R275, R277, R278: MBLD, MBCSR and MBSQ put a plane in a role and expect its tag there: read from a tensor's tile, taken
column by column from a data ring, packed from a sparse tensor, or squared from the active plane; a plane that is there
already is not loaded again. -/
def Obligations.PlaneLoadsFire : Prop :=
  (∀ (f : MT) (s : State) (cl : Claim) (v : Nat) (t : PlaneTag), s.EngineFree → ArrayReady s cl (.mbld f) →
    cl.mcfg = some v → t = ⟨cl.ctx, f.tid.toNat, f.tile.toNat, false, v / 2 ^ 5 % 2 ^ 5, 0, 0⟩ →
    (f.tid ≠ 4095 → (∃ p, planeOf s cl f.pl = some p ∧ p.tag = some t) →
      ∃ r, exec (.mbld f) s = .next r ∧ EntryFires (skipped (inRun s)) r (mtxNew s 2)) ∧
    (f.tid ≠ 4095 → ¬(∃ p, planeOf s cl f.pl = some p ∧ p.tag = some t) → f.s = false →
      ∀ (s1 s2 : State) (d : Desc) (k0 rows n0 cols : Nat) (p : Plane),
      denseTile (inRun s) (coreOf s.cur.u) cl.ctx f.tid.toNat f.tile.toNat t.btype = .ok (s1, d, k0, rows, n0, cols) →
      densePlane s1 (coreOf s.cur.u) t = .ok (s2, p) → s2.EngineFree → s2.cur = s.cur → s2.clock = s.clock →
      ∃ r, exec (.mbld f) s = .next r ∧
        EntryFires (planeIn s2 cl f.pl t p) r (mtxNew s (loadClocks t.btype rows cols))) ∧
    (f.tid ≠ 4095 → ¬(∃ p, planeOf s cl f.pl = some p ∧ p.tag = some t) → f.s = true →
      ∀ (s1 : State) (d : Desc) (k0 rows n0 cols : Nat) (e : InFlight) (recs : List (List Byte)),
      denseTile (inRun s) (coreOf s.cur.u) cl.ctx f.tid.toNat f.tile.toNat t.btype = .ok (s1, d, k0, rows, n0, cols) →
      mtxIn s1 (mtxNew s1 (loadClocks t.btype rows cols)) false f.ring.toNat
        (List.replicate cols (recordBytes t.btype 1024)) = .ok (e, recs) → s1.EngineFree → s1.cur = s.cur →
      ∃ r, exec (.mbld f) s = .next r ∧
        EntryFires (planeIn s1 cl f.pl t ((recs.zip (List.range cols)).foldl (fun (p : Plane) x =>
          let c := parseRecord t.btype 1024 x.1
          p.putColumn x.2 (c.1.take rows) c.2.1 c.2.2) ⟨some t, [], [], [], 0⟩)) r e) ∧
    (f.tid = 4095 → f.s = true → ∀ (e : InFlight) (recs : List (List Byte)),
      mtxIn { inRun s with tick := s.tick + 1 } (mtxNew s (loadClocks t.btype 1024 1536)) false f.ring.toNat
        (List.replicate 1536 (recordBytes t.btype 1024)) = .ok (e, recs) →
      ∃ r, exec (.mbld f) s = .next r ∧
        EntryFires (planeIn (inRun s) cl f.pl { t with uid := s.tick + 1 }
          ((recs.zip (List.range 1536)).foldl (fun (p : Plane) x =>
            let c := parseRecord t.btype 1024 x.1
            p.putColumn x.2 (c.1.take 1024) c.2.1 c.2.2) ⟨some { t with uid := s.tick + 1 }, [], [], [], 0⟩)) r e)) ∧
  (∀ (f : MT) (s : State) (cl : Claim) (v : Nat) (same : Plane → Prop), s.EngineFree → ArrayReady s cl (.mbcsr f) →
    cl.mcfg = some v →
    same = (fun p => ∃ t, p.tag = some t ∧ t.ctx = cl.ctx ∧ t.tid = f.tid.toNat ∧ t.tile = f.tile.toNat ∧
      t.btype = v / 2 ^ 5 % 2 ^ 5 ∧ t.squared = false) →
    ((∃ p, planeOf s cl f.pl = some p ∧ same p) →
      ∃ r, exec (.mbcsr f) s = .next r ∧ EntryFires (skipped (inRun s)) r (mtxNew s 2)) ∧
    (¬(∃ p, planeOf s cl f.pl = some p ∧ same p) → ∀ (s1 : State) (p : Plane) (t : PlaneTag),
      csrPlane (inRun s) (coreOf s.cur.u) ⟨cl.ctx, f.tid.toNat, f.tile.toNat, false, v / 2 ^ 5 % 2 ^ 5, 0, 0⟩ =
        .ok (s1, p) → p.tag = some t → s1.EngineFree → s1.cur = s.cur → s1.clock = s.clock →
      ∃ r, exec (.mbcsr f) s = .next r ∧
        EntryFires (planeIn s1 cl f.pl t p) r (mtxNew s (64 + 2 * p.rows.length +
          ((p.cells.map (fun e => (e.2.filter (· ≠ 1)).length)).sum * fmtBits (v / 2 ^ 5 % 2 ^ 5) / 8 + 2047) / 2048)))) ∧
  (∀ (s : State) (cl : Claim) (v : Nat) (p : Plane) (t : PlaneTag), s.EngineFree → ArrayReady s cl .mbsq →
    cl.mcfg = some v → momOn cl = true → planeOf s cl false = some p → cl.active = some t → t.btype = v / 2 ^ 5 % 2 ^ 5 →
    ∃ r, exec .mbsq s = .next r ∧
      EntryFires (planeIn (inRun s) cl true { t with squared := true }
          { p with tag := some { t with squared := true }, sqs := p.sqs + 1 }) r
        { mtxNew s 96 with
          flags := if p.cells.any (fun e => e.2.any (fun x => x ≠ 0 &&
              (squareOf t.btype (squares t.btype p.sqs (elVal t.btype (x - 1))).1).2)) then fOF
            else 0 })

/-- R281 to R283: MSTR and MSTRM stream records against the planes into accumulator rows, and MACCLD loads rows, each
replacing or combining as its a bit says; the flags go to the slot at completion. -/
def Obligations.StreamsReachTheAccumulators : Prop :=
  (∀ (f : MA) (s : State) (cl : Claim) (v m : Nat) (p : Plane) (e : InFlight) (recs : List (List Byte)) (x : State × Nat),
    s.EngineFree → ArrayReady s cl (.mstr f) → cl.mcfg = some v → momOn cl = false → m = f.nrow.toNat + 1 →
    rowsOpen cl f.arow.toNat m [if f.h then 1 else 0] → planeOf s cl false = some p →
    p.tag.map (·.btype) = some (Cfg.of v).btype →
    mtxIn (inRun s) (mtxNew s (16 + planeClocks cl (m * planeCount (Cfg.of v).atype))) f.s f.src.toNat
      (List.replicate m (recordBytes (Cfg.of v).atype p.span)) = .ok (e, recs) →
    x = (recs.zip (List.range m)).foldl (fun (x : State × Nat) r =>
      let y := streamRecord x.1 (Cfg.of v) p (parseRecord (Cfg.of v).atype p.span r.1)
      let z := y.1.accJoin (Cfg.of v) f.a (if f.h then 1 else 0) (f.arow.toNat + r.2) y.2.1
      (z.1, x.2 ||| (y.2.2 ||| z.2))) (inRun s, 0) →
    ∃ t, exec (.mstr f) s = .next t ∧ EntryFires x.1 t { e with flags := x.2 }) ∧
  (∀ (f : MA) (s : State) (cl : Claim) (v m : Nat) (p q : Plane) (e : InFlight) (recs : List (List Byte))
      (us : List (List (List Nat × List Nat × List Nat) × Nat)) (neg : Option Nat) (x : State × Nat),
    s.EngineFree → ArrayReady s cl (.mstrm f) → cl.mcfg = some v → momOn cl = true → m = f.nrow.toNat + 1 →
    rowsOpen cl f.arow.toNat m [0, 1] → planeOf s cl false = some p → planeOf s cl true = some q →
    p.tag.map (·.btype) = some (Cfg.of v).btype → q.tag.map (·.btype) = some (Cfg.of v).btype →
    q.tag.any (·.squared) = true →
    mtxIn (inRun s) (mtxNew s (16 + planeClocks cl (2 * m * planeCount (Cfg.of v).atype))) f.s f.src.toNat
      ((List.replicate m [recordBytes (Cfg.of v).atype p.span, recordBytes (Cfg.of v).atype q.span]).flatten) = .ok (e, recs) →
    us = ((pieces 2 m recs).map (fun l => [parseRecord (Cfg.of v).atype p.span (nth [] l 0),
      parseRecord (Cfg.of v).atype q.span (nth [] l 1)])).zip (List.range m) →
    neg = us.findSome? (fun u => ((nth default u.1 1).1.zip (List.range q.span)).findSome? (fun y =>
      if negEl (Cfg.of v).atype y.1 && ((q.tag.map (·.span)) = some 0 || q.rows.contains y.2) then some (y.2 + u.2 * 2 ^ 16)
      else none)) →
    (neg.isSome = true → clampOn s = true) →
    x = us.foldl (fun (x : State × Nat) u =>
      let a := streamRecord x.1 (Cfg.of v) p (nth default u.1 0)
      let w := nth default u.1 1
      let b := streamRecord a.1 (Cfg.of v) q (w.1.map (fun c => if negEl (Cfg.of v).atype c then 0 else c), w.2)
      let c := b.1.accJoin (Cfg.of v) f.a 0 (f.arow.toNat + u.2) a.2.1
      let d := c.1.accJoin (Cfg.of v) f.a 1 (f.arow.toNat + u.2) b.2.1
      (d.1, x.2 ||| ((a.2.2 ||| b.2.2) ||| (c.2 ||| d.2)))) (inRun s, 0) →
    ∃ t, exec (.mstrm f) s = .next t ∧ EntryFires x.1 t { e with flags := x.2, clamped := neg.isSome }) ∧
  (∀ (f : MA) (s : State) (cl : Claim) (v m : Nat) (hs : List Nat) (e : InFlight) (recs : List (List Byte)) (x : State × Nat),
    s.EngineFree → ArrayReady s cl (.maccld f) → cl.mcfg = some v → (momOn cl = true → f.h = false) →
    m = f.nrow.toNat + 1 → hs = halvesAt cl f.h → rowsOpen cl f.arow.toNat m hs →
    mtxIn (inRun s) (mtxNew s (4 + 3 * m * hs.length)) f.s f.src.toNat
      (List.replicate m (6144 * hs.length)) = .ok (e, recs) →
    x = (recs.zip (List.range m)).foldl (fun (x : State × Nat) r => (hs.zip (pieces 6144 2 r.1)).foldl (fun x b =>
      let z := x.1.accJoin (Cfg.of v) f.a b.1 (f.arow.toNat + r.2)
        ((pieces 4 1536 b.2).map (fun w => sint 32 (leNat w)))
      (z.1, x.2 ||| z.2)) x) (inRun s, 0) →
    ∃ t, exec (.maccld f) s = .next t ∧ EntryFires x.1 t { e with flags := x.2 })

/-- R286, R289, R290, R292: MDRAIN passes rows through the epilogue, collects candidates, and writes rows out; MHEAPRD
writes a record of re-validated candidates for each row; MSAVE writes the chain's rows to a tensor. -/
def Obligations.DrainsLeaveTheArray : Prop :=
  (∀ (f : MA) (s : State) (cl cl' : Claim) (v m : Nat) (e : Epi) (al : Alloc) (vs : EpiVecs) (s1 s2 : State)
      (outs : List (List Byte)) (fl : Nat) (x : InFlight),
    s.EngineFree → ArrayReady s cl (.mdrain f) → cl.mcfg = some v → (momOn cl = true → f.h = false) → m = f.nrow.toNat + 1 →
    rowsOpen cl f.arow.toNat m (halvesAt cl f.h) → e = Epi.parse cl.epi → (e.mode = 2 ↔ momOn cl = true) →
    (e.rowout = true ∨ f.src = 0) →
    al = (if (s.slot s.cur.u).gang.isEmpty then (s.slot s.cur.u).alloc else (inRun s).memberAlloc cl.epiBy) →
    epiVec (inRun s) al e.hasBias e.bias 4 e.nc = .ok vs.bias →
    epiVec (inRun s) al (e.mode = 1 && e.otype ≠ 9) e.mult 4 e.nc = .ok vs.mult →
    epiVec (inRun s) al (e.mode = 1 && e.otype ≠ 9) e.shift 1 e.nc = .ok vs.shift →
    epiVec (inRun s) al e.rsc e.zb 4 e.nc = .ok vs.zb →
    (List.range m).foldlM (fun (y : State × Claim × List (List Byte) × Nat) j => do
      let r ← drainRow y.1 y.2.1 e vs (nth 0 (halvesAt cl f.h) 0) (f.arow.toNat + j)
      return (r.1, r.2.1, y.2.2.1 ++ [r.2.2.1], orF y.2.2.2 r.2.2.2)) (inRun s, cl, [], 0) = .ok (s1, cl', outs, fl) →
    s1.cur = s.cur → s1.clock = s.clock →
    (if e.rowout then
      mtxOut (withClaim s1 cl') { mtxNew s (20 + 3 * m * (halvesAt cl f.h).length) with flags := fl } f.src.toNat
        (roundUp (e.nc * e.width) 64)
        (outs.map (fun b => b ++ List.replicate (roundUp (e.nc * e.width) 64 - b.length) 0)) = .ok (s2, x)
    else s2 = withClaim s1 cl' ∧ x = { mtxNew s (20 + 3 * m * (halvesAt cl f.h).length) with flags := fl }) →
    s2.EngineFree → s2.cur = s.cur →
    ∃ t, exec (.mdrain f) s = .next t ∧
      EntryFires (if f.a then s2 else zeroRows s2 (Cfg.of v) f.arow.toNat m (halvesAt cl f.h)) t x) ∧
  (∀ (f : MC) (s s1 : State) (cl : Claim) (e : Epi) (r m z : Nat) (k size : Nat → Nat), s.EngineFree →
    ArrayReady s cl (.mheaprd f) →
    e = Epi.parse cl.epi → r = f.imm.toNat % 64 → m = f.imm.toNat / 64 % 64 + 1 → r + m ≤ 64 →
    k = (fun j => Tbl.get 0 cl.caps (r + j) % 256) → size = (fun j => 64 * ((16 + 8 * k j + 63) / 64)) →
    granOk s f.gran.toNat (((List.range m).map size).sum) →
    (List.range m).foldlM (fun (y : State × Nat) j => do
      let gen ← tensorGen y.1 cl.ctx e.maskt
      let lv ← rowLive y.1 cl.ctx e (r + j)
      let l ← if lv.2 then heapValid cl.ctx e gen (r + j) lv.1 (k j) (Tbl.get [] cl.heaps (r + j)) else pure (lv.1, [])
      return (withScratch l.1 y.2 (heapBytes (k j) gen (size j) l.2), y.2 + size j))
        (inRun s, granAt s f.gran.toNat) = .ok (s1, z) →
    s1.EngineFree → s1.cur = s.cur → s1.clock = s.clock →
    ∃ t, exec (.mheaprd f) s = .next t ∧ EntryFires s1 t (mtxNew s (8 + 4 * m))) ∧
  (∀ (f : MT) (s sa sb sc s1 : State) (cl : Claim) (r n hm va : Nat) (bs : List Byte) (d d' : Desc) (ps : List Place),
    s.EngineFree → ArrayReady s cl (.msave f) → cl.opened = some (r, n, hm) →
    bs = (s.core (coreOf s.cur.u)).accBytes r n hm → va = f.tid.toNat * 2 ^ 52 + 65536 * f.tile.toNat → f.tid ≠ 4095 →
    getDesc (inRun s) (coreOf s.cur.u) ptMTX cl.ctx f.tid.toNat va = .ok (sa, d) → d.fmt = 0xC → d.layout = 0 →
    tensorEnd sa (coreOf s.cur.u) ptMTX cl.ctx va 0 bs.length true = .ok (sb, d') →
    placeBytes (coreOf s.cur.u) ptMTX cl.ctx f.tid.toNat d' sb (65536 * f.tile.toNat) bs.length = .ok (sc, ps) →
    ps.all (fun p => match p with | .remote _ => false | _ => true) = true → sc.putMems (ps.zip bs) = .ok s1 →
    s1.EngineFree → s1.cur = s.cur → s1.clock = s.clock →
    ∃ t, exec (.msave f) s = .next t ∧ EntryFires s1 t (mtxNew s (8 + 24 * (bs.length / 6144))))

/-! Statements task -/

/-- R21, R94, R217: DISPATCH_TASK takes a die's best head from its segment into the lowest free slot of the lowest core with
room, with its arguments in g1 to g8, its instance in g9, every other register and control register at reset but CORECTL,
and the PC at the image's first word; with no room, and no right to pre-empt, the head stays. R22: STEAL_EXCHANGE dispatches the
best head of another die once in 64 clocks. R134: RESTORE_SLOT puts a saved task back from its block. -/
def Obligations.TasksEnterTheirSlots : Prop :=
  (∀ (s c : State) (die k i u : Nat) (t : Task) (run : Run) (m : Member) (al : Alloc) (args : Nat → Nat), s.occ.a % 4 = die →
    c = s.freeClaims die →
    s.dieUp die = true → c.bestOf die = some (k, i, t) → t.phase = 0 → t.gang = false → s.run? t.run = some run →
    s.loadTask t run.tmpl = .ok [m] → fitRings [m] = true → s.findRoom t [m.node.need] die = some ([u], [al]) →
    (∀ j, j < 8 → argOf m.node run.window t.inst j = .ok (args j)) →
    ∃ r, exec .dispatchTask s = .next r ∧ (r.slot u).task = some { t with key0 := t.key, home := 0 } ∧ (r.slot u).pc = 0 ∧
      (r.slot u).alloc = al ∧ (∀ j, j < 8 → (r.slot u).greg (j + 1) = BitVec.ofNat 64 (args j)) ∧
      (r.slot u).greg 9 = BitVec.ofNat 64 t.inst ∧ (∀ n, 9 < n → n < 64 → (r.slot u).greg n = 0) ∧
      (∀ n, 1 ≤ n → n < 8 → (r.slot u).pred n = false) ∧ (r.slot u).csr = { Csrs.reset with corectl := run.corectl } ∧
      (r.slot u).image = m.node.img ∧ s.clock + 32 ≤ (r.slot u).nextIssue ∧ r.seg k = (c.seg k).eraseIdx i ∧
      ∀ v, v ≠ u → r.slot v = s.slot v) ∧
  (∀ (s c : State) (die k i : Nat) (t : Task) (run : Run) (m : Member), s.occ.a % 4 = die → c = s.freeClaims die →
    c.bestOf die = some (k, i, t) → t.phase = 0 → s.run? t.run = some run → s.loadTask t run.tmpl = .ok [m] → fitRings [m] = true →
    s.findRoom t [m.node.need] die = none → bitOf (s.lq t.ctx t.queue) 3 = false → exec .dispatchTask s = .next c) ∧
  (∀ (s : State) (die k i : Nat) (t : Task), die < 4 → s.hub.stolen < s.clock / 64 → s.dieUp die = true →
    (∀ d, d < 4 → d ≠ die → s.dieUp d = false) → (∃ c, c < 32 ∧ s.freeSlots (32 * die + c) ≠ []) → s.bestOf die = none →
    (∀ d x, d ≠ die → s.bestOf d = some x → x = (k, i, t)) → (∃ d, d < 4 ∧ d ≠ die ∧ s.bestOf d = some (k, i, t)) →
    t.homeDie = 0 →
    exec .stealExchange s = .next
      (({ s with hub := { s.hub with stolen := s.clock / 64 } } : State).dispatchAt die k i t)) ∧
  (∀ (s : State), s.clock / 64 ≤ s.hub.stolen → exec .stealExchange s = .next s) ∧
  (∀ (s : State) (die k i u : Nat) (t : Task) (run : Run) (m : Member) (al : Alloc) (h : Slot), s.occ.a % 4 = die →
    s.dieUp die = true → (s.freeClaims die).bestOf die = some (k, i, t) → t.phase = 2 → t.gang = false → s.run? t.run = some run →
    s.loadTask t run.tmpl = .ok [m] → fitRings [m] = true → s.away t = [(0, h)] → h.hold = .none →
    s.findRoom t [m.node.need] die = some ([u], [al]) → (∀ j, j < 8 → ∃ x, argOf m.node run.window t.inst j = .ok x) →
    bitOf (s.dev (h.block + 768) 8) 63 = false →
    ∃ r, exec .restoreSlot s = .next r ∧ (r.slot u).task.isSome = true ∧ (r.slot u).tk.seq = t.seq ∧ (r.slot u).alloc = al ∧
      (r.slot u).pc = s.dev (h.block + 8) 4 ∧
      (∀ n, 1 ≤ n → n < 64 → (r.slot u).greg n = BitVec.ofNat 64 (s.dev (h.block + 16 + 8 * n) 8)) ∧
      (∀ n, n < 64 → (r.slot u).sem n = s.dev (h.block + 824 + 2 * n) 2) ∧
      (r.slot u).csr.corectl = BitVec.ofNat 11 (s.dev (h.block + 728) 8) ∧ ∀ v, v ≠ u → r.slot v = s.slot v)

/-- R187, R202, R208, R389: TDONE with its rings drained ends its task: the slot is free, the join decrement is on its way, the
run's live count falls; with a masked ring still busy it waits in the slot. R132, R133, R391: PREEMPT_SLOT and TYIELD save the
task at a boundary in a block of its context's pool, free its slot, and put it back in a queue, with its causes, or with a new
sequence number. R30, R468: a debug stop is asked for and released. R463: a world switch takes the tasks of another function
off its core, and then the core's counters change hands. -/
def Obligations.TasksLeaveTheirSlots : Prop :=
  (∀ (s c : State) (u : Nat), u = s.cur.u → s.Issues → s.Closes c → (c.slot u).task.isSome = true → (c.slot u).gang = [] →
    (c.slot u).drain = none → (c.slot u).sched.state ≠ 1 → sole c u →
    (ringsDrained c u → ∃ r, exec .tdone s = .next r ∧ (r.slot u).task = none ∧ (∀ v, v ≠ u → butSent (r.slot v) = butSent (c.slot v)) ∧
      r.joins = c.joins ++ (if (c.slot u).tk.jt = nullRef then [] else
        [⟨(c.slot u).tk.jt, (c.slot u).tk.ctx, (c.slot u).tk.launch, (c.slot u).tk.run, u, (c.slot u).tk.seq, (0, 0)⟩]) ∧
      ∀ x, c.run? (c.slot u).tk.run = some x → ∃ y, r.run? (c.slot u).tk.run = some y ∧ y.live = x.live - 1) ∧
    ((∃ e, e < 4 ∧ bitOf (c.slot u).mask e = true ∧ ((c.slot u).cring e).occ ≠ 0) →
      ∃ r, exec .tdone s = .next r ∧ (r.slot u).hold = .tdone ∧ (r.slot u).task = (c.slot u).task)) ∧
  (∀ (s r : State) (u : Nat), s.occ.a % 512 = u → (s.slot u).task.isSome = true → (s.core (coreOf u)).stopped = none →
    (s.core (coreOf u)).raised = none → (s.slot u).gang = [] → (s.slot u).causes ≠ [] → (s.spreadCauses [u]).saveOut u false = .ok r →
    exec .preemptSlot s = .next r ∧ (r.slot u).task = none ∧
      (∃ k x, x ∈ r.seg k ∧ x.ctx = (s.slot u).tk.ctx ∧ x.seq = (s.slot u).tk.seq ∧ x.phase = 2 ∧ x.left = u ∧
        ∀ n, n ∈ x.holds ↔ n < 4 ∧ n ∈ (s.slot u).causes) ∧
      (SlotAtRest (s.slot u) → (∀ k, (s.seg k).length ≤ Tbl.get 0 s.resident k ∧ Tbl.get 0 s.resident k < 2048) → ∃ h, r.hidden.find? (fun e => e.1 == hiddenKey (s.slot u).tk 0) = some h ∧
        r.dev (h.2.block + 8) 4 = (s.slot u).pc % 2 ^ 32 ∧
        ∀ n, 1 ≤ n → n < 64 → r.dev (h.2.block + 16 + 8 * n) 8 = ((s.slot u).greg n).toNat)) ∧
  (∀ (s c m r : State) (u : Nat), u = s.cur.u → s.Issues → s.Closes c → s.me.tk.yield = true → (c.slot u).gang = [] →
    m = (c.issued u).retire u s.cur (c.slot u).pend true none → m.saveOut u true = .ok r →
    exec .tyield s = .next r ∧ (r.slot u).task = none ∧
      ∃ k x, x ∈ r.seg k ∧ x.ctx = (c.slot u).tk.ctx ∧ x.phase = 2 ∧ x.seq = ((m.ctx (c.slot u).tk.ctx).seqCtr + 1).toNat) ∧
  (∀ (s : State) (u : Nat), s.occ.a % 512 = u → (s.slot u).task.isSome = true →
    ∃ r, exec .debugStopRequest s = .next r ∧ u ∈ s.unitsOf u ∧
      ∀ v, (v ∈ s.unitsOf u → 0 ∈ (r.slot v).causes ∧ ∀ n, n ≠ 0 → (n ∈ (r.slot v).causes ↔ n ∈ (s.slot v).causes)) ∧
        (v ∉ s.unitsOf u → r.slot v = s.slot v)) ∧
  (∀ (s : State) (u : Nat), s.occ.a % 512 = u →
    ∃ r, exec .debugStopRelease s = .next r ∧ 0 ∉ (r.slot u).causes ∧
      (∀ v, (v ∈ s.unitsOf u → 0 ∉ (r.slot v).causes) ∧ (v ∉ s.unitsOf u → r.slot v = s.slot v)) ∧
      ∀ k x, x ∈ r.seg k → x.left = u → 0 ∉ x.holds) ∧
  (∀ (s : State) (c fn : Nat), s.occ.a % 128 = c → s.occ.b % 16 = fn → (s.core c).stopped = none → (s.core c).raised = none →
    (s.core c).pmowner ≠ fn →
    ((∃ k, k < 4 ∧ (s.slot (4 * c + k)).task.isSome = true) →
      ∃ r, exec .worldSwitch s = .next r ∧ (r.core c).pmowner = (s.core c).pmowner ∧
        (∀ k, k < 4 → (s.slot (4 * c + k)).task.isSome = true → 1 ∈ (r.slot (4 * c + k)).causes) ∧
        ∀ v, coreOf v ≠ c → (∀ k, k < 4 → v ∉ s.unitsOf (4 * c + k)) → r.slot v = s.slot v) ∧
    ((∀ k, k < 4 → (s.slot (4 * c + k)).task = none ∧ (s.slot (4 * c + k)).drain = none) →
      ∃ r, exec .worldSwitch s = .next r ∧ (r.core c).pmowner = fn ∧ (∀ d, d ≠ c → r.core d = s.core d) ∧ r.slots = s.slots ∧
        ∀ k x, x ∈ r.seg k → s.fnOf x.ctx = fn → x.home = 0 → 1 ∉ x.holds))

/-! Statements launch -/

/-- R208, R213: LAUNCH_START takes a queue's oldest armed record when the queue is enabled and runs nothing: the record's state
becomes RUNNING, its start time is written, its window is latched in a run of its own. LAUNCH_COMPLETE ends a run with no live
task and no join decrement on its way: its record is IDLE again, with its count, its time, and its completion action. R215,
R216: TTT_FIRE arms an IDLE record at its time, moves the entry on by its period, and disables a malformed one. -/
def Obligations.LaunchesStartAndComplete : Prop :=
  (∀ (s : State) (c q i : Nat) (rest : List Nat), s.occ.a % 256 = c → s.occ.b % 16 = q →
    Tbl.get [] (s.ctx c).armed q = i :: rest → bitOf (s.lq c q) 4 = true → Tbl.get [] (s.ctx c).running q = [] →
    s.recF c i 4 4 ≠ 0 → (∀ x ∈ s.runs, x.id < s.nextRun) →
    ∃ t r, exec .launchStart s = .next t ∧ r ∈ t.runs ∧ r.id = s.nextRun ∧ r.ctx = c ∧ r.record = i ∧ r.queue = q ∧
      r.corectl = BitVec.ofNat 11 (s.recF c i 32 8) ∧
      (∀ k, k < 32 → Tbl.get 0 r.window k = BitVec.ofNat 64 (s.recF c i (256 + 8 * k) 8)) ∧ t.nextRun = s.nextRun + 1 ∧
      t.recState c i = 2 ∧ t.recF c i 72 8 = s.devTime % 2 ^ 64 ∧ Tbl.get [] (t.ctx c).armed q = rest ∧
      Tbl.get [] (t.ctx c).running q = [s.nextRun] ∧ t.slots = s.slots) ∧
  (∀ (s : State) (c i : Nat) (r : Run), s.occ.a % 256 = c → s.occ.b % 4096 = i →
    s.runs.find? (fun r => r.ctx == c && r.record == i && r.live == 0 && !s.joins.any (fun j => j.run == r.id)) = some r →
    r.state ≠ 4 → (∀ x ∈ s.runs, x ≠ r → x.id ≠ r.id ∧ ¬(x.ctx = c ∧ x.record = i)) →
    s.recBit c i 3 = false → s.recBit c i 6 = false →
    ∃ t, exec .launchComplete s = .next t ∧ (∀ x ∈ t.runs, x.id ≠ r.id) ∧ t.recState c i = 0 ∧
      t.recF c i 56 8 = (s.recF c i 56 8 + 1) % 2 ^ 64 ∧ t.recF c i 64 8 = s.devTime % 2 ^ 64 ∧ t.recF c i 52 4 = 0 ∧
      s.nextRun = t.nextRun ∧ r.id ∉ Tbl.get [] (t.ctx c).running r.queue ∧
      t.hub.msix = s.hub.msix ++ (if bitOf (s.recF c i 19 1) 0 then [(s.fnOf c, s.recF c i 20 1 % 64)] else []) ∧
      t.hub.dccIrq = s.hub.dccIrq ++ (if bitOf (s.recF c i 19 1) 1 then [(512 + i, c)] else [])) ∧
  (∀ (s : State) (k c i start per ctl : Nat), s.occ.a % 256 = k → c = s.tttF k 18 1 → i = s.tttF k 16 2 →
    start = s.tttF k 0 8 → per = s.tttF k 8 8 → ctl = s.tttF k 19 1 → bitOf ctl 0 = true →
    (ctl < 8 → fld ctl 1 2 ≠ 3 → i < 4096 → (per = 0 ∨ 1000 ≤ per) → start ≤ s.devTime → s.recBit c i 6 = false →
      s.recState c i = 0 → s.recOk c i = true →
      ∃ t, exec .tttFire s = .next t ∧ t.recState c i = 1 ∧
        Tbl.get [] (t.ctx c).armed (s.recF c i 1 1 % 16) = Tbl.get [] (s.ctx c).armed (s.recF c i 1 1 % 16) ++ [i] ∧
        t.tttF k 20 1 = 0 ∧ t.tttF k 28 4 = (s.tttF k 28 4 + 1) % 2 ^ 32 ∧
        (per = 0 → bitOf (t.tttF k 19 1) 0 = false) ∧
        (per ≠ 0 → t.tttF k 0 8 = (start + ((s.devTime - start) / per + 1) * per) % 2 ^ 64)) ∧
    (s.devTime < start → ctl < 8 → fld ctl 1 2 ≠ 3 → i < 4096 → (per = 0 ∨ 1000 ≤ per) → exec .tttFire s = .next s) ∧
    (fld ctl 1 2 = 3 → ∃ t, exec .tttFire s = .next t ∧ bitOf (t.tttF k 19 1) 0 = false ∧ t.tttF k 20 1 = 6 ∧
      t.ctxs = s.ctxs ∧ t.dram = s.dram))

/-- R214, R384, R389, R396, R414: the task queue's own hardware: a segment refills, keys age once a microsecond, a batch forms
when its window has passed and arms its record, a join decrement reaches its node, and the walker cancels the next node of its
walk, and ends it. -/
def Obligations.QueueHardwareActs : Prop :=
  (∀ (s : State) (k : Nat), s.occ.a % 64 = k → Tbl.get 0 s.resident k < 1536 →
    Tbl.get 0 s.resident k < min 1792 (s.seg k).length →
    ∃ t, exec .segmentRefill s = .next t ∧ Tbl.get 0 t.resident k = min 1792 (s.seg k).length ∧ t.segs = s.segs ∧
      t.slots = s.slots ∧ t.cores = s.cores ∧ t.dram = s.dram) ∧
  (∀ (s : State), (s.hub.aged < s.devTime / 1000 →
      ∃ t, exec .agingTick s = .next t ∧ t.hub.aged = s.hub.aged + 1 ∧ t.slots = s.slots ∧ t.dram = s.dram ∧
        ∀ k x, x ∈ t.seg k ↔ ∃ y, y ∈ s.seg k ∧ x = agedTask s y) ∧
    (s.devTime / 1000 ≤ s.hub.aged →
      exec .agingTick s = .next { s with hub := { s.hub with aged := s.devTime / 1000 } })) ∧
  (∀ (s : State) (c w : Nat) (b : BatchSet), s.occ.a % 256 = c → s.occ.b % 256 = w → b = s.set c w →
    (b.rows ≠ [] → b.since + b.window ≤ s.devTime →
      ∃ t x, exec .batchWindowExpire s = .next t ∧ (t.set c w).rows = [] ∧ (t.set c w).count = b.count + 1 ∧
        x ∈ (t.set c w).waiting ++ (t.set c w).armed ∧ x.rows.map (·.1) = b.rows ∧ x.cause = 1 ∧ x.num = b.count ∧
        x.formed = s.devTime) ∧
    (s.devTime < b.since + b.window → exec .batchWindowExpire s = .next s)) ∧
  (∀ (s : State) (c w k va : Nat) (b : BatchSet) (x : Batch) (rest : List Batch), s.occ.a % 256 = c → s.occ.b % 256 = w →
    b = s.set c w → b.waiting = x :: rest → b.freeBuf x = some k → s.recState c x.record = 0 → va = x.area + 8320 * k →
    ∃ t, exec .batchArm s = .next t ∧ (t.set c w).waiting = rest ∧ (t.set c w).armed = b.armed ++ [{ x with buf := k }] ∧
      t.recState c x.record = 1 ∧ t.recF c x.record 256 8 = va % 2 ^ 64 ∧
      t.recF c x.record 272 8 = 8 * (va % 2 ^ 52 + 8256) % 2 ^ 64 ∧ t.slots = s.slots) ∧
  (∀ (s : State) (j : JoinDec) (rest : List JoinDec) (n : Nat), s.joins = j :: rest → nPkg j.ref = s.fab.pkg →
    n = s.nf j.ref 40 2 → s.nodeSt j.ref ≠ stSTALE →
    (2 ≤ n → ∃ t, exec .joinDecrement s = .next t ∧ t.joins = rest ∧ t.nf j.ref 40 2 = n - 1 ∧ t.slots = s.slots ∧
      t.segs = s.segs) ∧
    (n = 1 → s.nodeSt j.ref = stDEAD → s.nf j.ref 28 4 ≠ nullRef →
      ∃ t x, exec .joinDecrement s = .next t ∧ t.nf j.ref 40 2 = 0 ∧ t.nf j.ref 42 2 = 0xFFFF ∧ t.joins = rest ++ [x] ∧
        x.ref = s.nf j.ref 28 4 ∧ x.ctx = j.ctx ∧ t.segs = s.segs) ∧
    (n = 1 → s.nodeSt j.ref = stOK →
      ∃ m, m = (({ s with joins := rest } : State).setNf j.ref 40 2 0).joinTold j stOK ∧ exec .joinDecrement s = .next
        ((m.setNf j.ref 42 2 0xFFFF).newTask j.ctx (((s.run? j.run).map (·.queue)).getD (s.recF j.ctx j.launch 1 1 % 16)) j.launch j.run
          (s.nf j.ref 42 2 % 4096) (j.ref % 2 ^ 16) j.ref 0x7F7FFFFF j.ref (s.nf j.ref 28 4)))) ∧
  (∀ (s : State) (w : Walk) (x : Nat) (rest : List Nat), s.walks.find? (fun w => w.id == s.occ.a) = some w →
    w.queue = x :: rest → ¬(w.sub = true ∧ x = w.root) → s.nodeSt x = stOK →
    ∃ t, exec .walkerVisitNode s = .next t ∧ t.nodeSt x ≠ stOK ∧
      (∀ k y, y ∈ t.seg k → y.tree = x → y.exempt = true) ∧
      ∀ v y, (t.slot v).task = some y → y.tree = x → y.exempt = false → y.cpend = true) ∧
  (∀ (s : State) (w : Walk), s.walks.find? (fun w => w.id == s.occ.a) = some w → w.queue = [] →
    (w.acks ≠ 0 → exec .walkerVisitNode s = .next s) ∧
    (w.acks = 0 → w.sigs = [] → w.replies = [] →
      ∃ m, m = (if nPkg w.root = s.fab.pkg ∧ s.nodeSt w.root ≠ stSTALE then s.setNflag w.root flCPEND false else s) ∧
        exec .walkerVisitNode s = .next { m with walks := s.walks.filter (fun v => v.id != w.id) }))

/-! Statements acc -/

/-- R342, R343: AQCFG binds a queue that is unbound, empty, or of this slot, which keeps its contents; AQLD starts its queue's
stream, or waits fired behind one that runs; AQSTOP ends it, discards what the queue holds, and with U unbinds it. A running
stream issues its next entry and moves its address on. -/
def Obligations.OperandQueueWordsFire : Prop :=
  (∀ (f : AQ) (s : State) (x : OQ), s.EngineFree → x = s.oq (coreOf s.cur.u) f.oq.toNat →
    (x.bound = none ∨ x.bound = some s.cur.u) →
    ∃ t, exec (.aqcfg f) s = .next t ∧ EntryFires (s.setOq (coreOf s.cur.u) f.oq.toNat
      (if x.bound = none then { (default : OQ) with bound := some s.cur.u, dist := f.imm.toNat % 2 ^ 11 }
        else { x with dist := f.imm.toNat % 2 ^ 11 })) t (InFlight.of s.cur s.clock)) ∧
  (∀ (f : AQ) (s m : State) (d : AccDesc) (x : OQ) (es : List (Nat × Option Nat)), AccReady .aqld s f.gran.toNat f.imm.toNat d →
    x = s.oq (coreOf s.cur.u) f.oq.toNat → x.bound = some s.cur.u →
    entryHomes d d.bytes false s (entryAddrs s d f.imm.toNat) = .ok (m, es) → m.EngineFree → m.cur = s.cur → m.clock = s.clock →
    (x.left = 0 → ∃ t, exec (.aqld f) s = .next t ∧
      EntryFires (m.setOq (coreOf s.cur.u) f.oq.toNat { m.oq (coreOf s.cur.u) f.oq.toNat with
        addr := d.addr, stride := toBits 64 d.stride, bytes := d.bytes, left := f.imm.toNat
        pkg := if d.expl then d.pkg + 1 else 0 }) t (InFlight.of s.cur s.clock)) ∧
    (x.left ≠ 0 → ∃ t, exec (.aqld f) s = .next t ∧
      EntryFires m t { InFlight.of s.cur s.clock with waits := [0], desc := granBytes s f.gran.toNat 64 })) ∧
  (∀ (f : AQ) (s : State) (x : OQ), s.EngineFree → x = s.oq (coreOf s.cur.u) f.oq.toNat → x.bound = some s.cur.u →
    ∃ t, exec (.aqstop f) s = .next t ∧ EntryFires (s.setOq (coreOf s.cur.u) f.oq.toNat
      (if f.imm.getLsbD 0 then default else { x with left := 0, flight := [], entries := [], cons := x.prod })) t
      (InFlight.of s.cur s.clock)) ∧
  (∀ (s m ma mb t : State) (core q u : Nat) (x y : OQ) (tag : Option Nat) (h : Option Nat), s.occ.a % 128 = core → s.occ.b % 8 = q →
    x = s.oq core q → x.bound = some u → (s.core core).stopped = none → x.left ≠ 0 → x.room ≠ 0 →
    (s.slot u).task.isSome = true →
    m = (({ s with cur := ⟨u, .acc, ⟨.none, .none, 0⟩, 0, 8, false⟩ } : State).seedTile core ptACC (s.slot u).ctx x.tile).seedTile
      core ptACC (s.slot u).ctx x.nextTile →
    entryHome m { (default : AccDesc) with mode := if x.pkg = 0 then 0 else 4, pkg := x.pkg - 1 } x.addr x.bytes false
      = .ok (ma, h) →
    accMarks ma [(x.addr, x.bytes)] [] = .ok () → oqRead ma u q x.addr x.bytes h = .ok (mb, tag) → y = mb.oq core q →
    t = mb.setOq core q { y with addr := toBits 64 (x.addr + sint 64 x.stride), left := x.left - 1 } →
    (∀ pkg, h = some pkg → exec .aqStreamEntry s = .next t) ∧
    (∀ z here next, h = none → z = t.lookAhead core (s.slot u).ctx x.addr x.dist (sint 64 x.stride) →
      here = z.tileAt core ptACC (s.slot u).ctx (x.addr + x.bytes - 1) →
      next = z.tileAt core ptACC (s.slot u).ctx (x.addr + 64 * x.dist) →
      exec .aqStreamEntry s = .next
        (z.setOq core q { z.oq core q with tile := here, nextTile := if next = here then none else next })))

/-- R345 to R350: RLD, RST and RMCST whose descriptor, entries, homes and watermarks pass perform their entries in ascending
order: reads go to LOCAL or to the queue, writes take LOCAL's bytes to their home, here or by a counted packet; each then
stands in the access core until the reads it awaits have returned. -/
def Obligations.RemoteTransfersMoveTheirEntries : Prop :=
  (∀ (f : AR) (s sa m : State) (d : AccDesc) (n : Nat) (es : List (Nat × Option Nat)) (w : List Nat),
    n = f.cnt.toNat + 1 → AccReady .rld s f.gran.toNat n d → d.toSp = true → f.oq = 0 → entriesOk s d.loc n d.bytes 256 →
    entryHomes d d.bytes false s (entryAddrs s d n) = .ok (sa, es) →
    accMarks sa ((entryAddrs s d n).map (fun a => (a, d.bytes)))
      ((List.range n).map (fun j => (localAt s d.loc 256 j, d.bytes))) = .ok () →
    sa.cur = s.cur → runInOrder (fun s e => rldEntry s d.bytes e) sa
      (es.zip ((List.range n).map (localAt s d.loc 256))) = .ok (m, w) → m.EngineFree → m.cur = s.cur →
    ∃ t, exec (.rld f) s = .next t ∧ EntryFires m t { InFlight.of s.cur sa.clock with waits := w }) ∧
  (∀ (f : AR) (s sa m : State) (d : AccDesc) (n : Nat) (x : OQ) (es : List (Nat × Option Nat)) (w : List Nat),
    n = f.cnt.toNat + 1 → AccReady .rld s f.gran.toNat n d → d.toSp = false →
    x = s.oq (coreOf s.cur.u) f.oq.toNat → x.bound = some s.cur.u → x.left = 0 → n ≤ x.room →
    entryHomes d d.bytes false s (entryAddrs s d n) = .ok (sa, es) →
    accMarks sa ((entryAddrs s d n).map (fun a => (a, d.bytes))) [] = .ok () →
    sa.cur = s.cur → runInOrder (fun s e => rldQueue s f.oq.toNat d.bytes e) sa (es.map (fun e => (e, 0))) = .ok (m, w) →
    m.EngineFree → m.cur = s.cur →
    ∃ t, exec (.rld f) s = .next t ∧ EntryFires m t { InFlight.of s.cur sa.clock with waits := w }) ∧
  (∀ (f : AR) (s sa m : State) (d : AccDesc) (n : Nat) (es : List (Nat × Option Nat)) (w : List Nat),
    n = f.cnt.toNat + 1 → AccReady .rst s f.gran.toNat n d → entriesOk s d.loc n d.bytes 256 →
    entryHomes d d.bytes true s (entryAddrs s d n) = .ok (sa, es) →
    accMarks sa ((entryAddrs s d n).map (fun a => (a, d.bytes)))
      ((List.range n).map (fun j => (localAt s d.loc 256 j, d.bytes))) = .ok () →
    sa.cur = s.cur → runInOrder (fun s e => rstEntry s d.bytes e) sa
      (es.zip ((List.range n).map (localAt s d.loc 256))) = .ok (m, w) → m.EngineFree → m.cur = s.cur →
    ∃ t, exec (.rst f) s = .next t ∧ EntryFires m t (InFlight.of s.cur sa.clock)) ∧
  (∀ (f : AR) (s sa m : State) (d : AccDesc) (n : Nat) (w : List Nat),
    n = f.cnt.toNat + 1 → AccReady .mcst s f.gran.toNat n d → entriesOk s d.loc n d.bytes 256 →
    bitOf (s.group d.group) 17 = true → (entryAddrs s d n).foldlM (mcstCheck d.group d.bytes) s = .ok sa →
    needRoutes sa (d.addr % 2 ^ 64) (s.groupPeers (s.group d.group)) = .ok () →
    accMarks sa ((entryAddrs s d n).map (fun a => (a, d.bytes)))
      ((List.range n).map (fun j => (localAt s d.loc 256 j, d.bytes))) = .ok () →
    sa.cur = s.cur → runInOrder (fun s e => mcstEntry s d.group d.bytes e) sa
      (((entryAddrs s d n).map (fun a => (a, none))).zip ((List.range n).map (localAt s d.loc 256))) = .ok (m, w) →
    m.EngineFree → m.cur = s.cur →
    ∃ t, exec (.rmcst f) s = .next t ∧ EntryFires m t (InFlight.of s.cur sa.clock))

/-- R143 to R145, R347: RATOM and RCAS read, change and write the value of each entry whose home is here once, in ascending
order, and write the old values where results are asked for; the flags the entries raise stand in the fired entry. The first
entry with its home elsewhere goes there as a packet whose result the word awaits. A resumed word goes on from its entry. -/
def Obligations.RemoteAtomicsArePerformedOnce : Prop :=
  ∀ (i : Instr) (f : AR) (cas res : Bool) (s sa sb m : State) (d : AccDesc) (n fl : Nat) (es : List (Nat × Option Nat))
    (w : List Nat),
    atomForm i = some (f, cas, res) → n = f.cnt.toNat + 1 → AccReady .atom s f.gran.toNat n d →
    (res = true ∧ entriesOk s d.loc n 8 8 ∨ res = false ∧ d.loc = 0) →
    entriesOk s d.opnd n (if cas then 16 else 8) (if cas then 16 else 8) →
    entryHomes d (if fld f.funct.toNat 4 2 = 2 then 4 else 8) true s (entryAddrs s d n) = .ok (sa, es) → sa.cur = s.cur →
    es.foldlM (hostCheck cas (f.funct.toNat % 16)) sa = .ok sb → sb.cur = s.cur → sb.fab = s.fab →
    sb.slot s.cur.u = s.slot s.cur.u → (sb.core (coreOf s.cur.u)).scratch = (s.core (coreOf s.cur.u)).scratch →
    accMarks sb ((entryAddrs s d n).map (fun a => (a, if fld f.funct.toNat 4 2 = 2 then 4 else 8)))
      ((List.range n).map (fun j => (localAt s d.opnd (if cas then 16 else 8) j, if cas then 16 else 8)) ++
        (if res then (List.range n).map (fun j => (localAt s d.loc 8 j, 8)) else [])) = .ok () →
    runAtomEntries sb (s.slot s.cur.u).accIdx ((atomEntries s f cas res d es).drop (s.slot s.cur.u).accIdx)
      = .ok (m, fl, w) → m.EngineFree → m.cur = s.cur →
    ∃ t, exec i s = .next t ∧ EntryFires m t { InFlight.of s.cur m.clock with flags := fl, waits := w }

/-- R353: RFENCE writes back the core's lines recorded narrower than its scope, and waits, fired, for the slot's remote reads
and atomics, for its remote writes, and with C for the close of its interval. R355 to R362: XSEND opens a message, XPOST
posts a receive slot, XCANCEL and XCANCEL.recv withdraw one, XRESUME asks for a suspended message again; on a message or slot
the word does not reach, nothing but the fire happens. -/
def Obligations.FenceAndMessageWordsFire : Prop :=
  (∀ (f : AR) (s m : State), s.EngineFree → m = s.rcRelease (coreOf s.cur.u) (f.funct.toNat % 8) → m.EngineFree →
    m.cur = s.cur → m.clock = s.clock →
    ∃ t, exec (.rfence f) s = .next t ∧ EntryFires m t { InFlight.of s.cur s.clock with
      waits := (m.fab.reqs.filter (fun e => e.2.unit == some s.cur.u)).map (·.1)
      acks := m.fab.wrote.filter (fun e => e.1 % 2 ^ 32 / 4096 / 128 / 8 = s.cur.u && Tbl.get 0 m.fab.unacked e.1 < e.2)
      fence := f.funct.getLsbD 3, lat := 4 }) ∧
  (∀ (f : AX) (s sa sb m : State) (b : List Byte), s.EngineFree → granOk s f.gran.toNat 64 → b = granBytes s f.gran.toNat 64 →
    1 ≤ blockF b 16 4 → blockF b 16 4 ≤ 2 ^ 24 → blockF b 20 2 < 1024 → blockF b 22 1 < 81 → blockF b 23 1 ≤ 1 →
    blockF b 24 1 ≤ 2 → (∀ x ∈ b.drop 25, x = 0) → (blockF b 23 1 = 1 → endForm 2 (blockF b 0 8) = true) →
    msgEnd s (coreOf s.cur.u) (myTask s).ctx (blockF b 23 1) (blockF b 0 8) (blockF b 16 4) false = .ok sa →
    statusEnd sa (coreOf s.cur.u) (myTask s).ctx (blockF b 8 8) = .ok sb →
    (blockF b 22 1 ≠ sb.fab.pkg → needRoute sb (blockF b 22 1) (blockF b 0 8) = .ok ()) → sb.cur = s.cur → sb.clock = s.clock →
    m.EngineFree → m.cur = s.cur →
    (∀ x, sb.findMsg (myTask s).ctx (myTask s).seq f.mid.toNat = some x → m = sb.msgResume x →
      ∃ t, exec (.xsend f) s = .next t ∧ EntryFires m t { InFlight.of s.cur s.clock with lat := 16 }) ∧
    (sb.findMsg (myTask s).ctx (myTask s).seq f.mid.toNat = none →
      (sb.fab.sends.filter (fun x => x.ctx == (myTask s).ctx && x.seq == (myTask s).seq)).length < 64 →
      msgOpen sb s.cur.u f.mid.toNat f.pc.toNat (myTask s) b = .ok m →
      ∃ t, exec (.xsend f) s = .next t ∧ EntryFires m t { InFlight.of s.cur s.clock with lat := 16 }) ∧
    (sb.findMsg (myTask s).ctx (myTask s).seq f.mid.toNat = none →
      64 ≤ (sb.fab.sends.filter (fun x => x.ctx == (myTask s).ctx && x.seq == (myTask s).seq)).length → m = sb →
      ∃ t, exec (.xsend f) s = .next t ∧ EntryFires m t { InFlight.of s.cur s.clock with lat := 16, waits := [0], desc := b })) ∧
  (∀ (f : AX) (s sa sb m : State) (b : List Byte), s.EngineFree → granOk s f.gran.toNat 64 → b = granBytes s f.gran.toNat 64 →
    1 ≤ blockF b 16 4 → blockF b 16 4 ≤ 2 ^ 24 → blockF b 20 1 ≤ 1 → bitOf (blockF b 21 1) 6 = false →
    (∀ x ∈ b.drop 24, x = 0) → (blockF b 20 1 = 1 → endForm 2 (blockF b 0 8) = true) →
    msgEnd s (coreOf s.cur.u) (myTask s).ctx (blockF b 20 1) (blockF b 0 8) (blockF b 16 4) true = .ok sa →
    statusEnd sa (coreOf s.cur.u) (myTask s).ctx (blockF b 8 8) = .ok sb → sb.cur = s.cur → sb.clock = s.clock →
    (m = (match sb.recv (myTask s).ctx (f.mid.toNat % 1024) with
      | some r => if r.desc = b then sb else sb.recvPost s.cur.u (myTask s) (f.mid.toNat % 1024) b
      | none => sb.recvPost s.cur.u (myTask s) (f.mid.toNat % 1024) b)) →
    (∀ r, sb.recv (myTask s).ctx (f.mid.toNat % 1024) = some r → r.live = true → r.desc = b) →
    m.EngineFree → m.cur = s.cur →
    ∃ t, exec (.xpost f) s = .next t ∧ EntryFires m t { InFlight.of s.cur s.clock with lat := 12 }) ∧
  (∀ (i : Instr) (s m : State), msgWord s i = some m → s.EngineFree → m.EngineFree → m.cur = s.cur →
    ∃ t, exec i s = .next t ∧ EntryFires m t { InFlight.of s.cur s.clock with lat := 8 })

/-! Statements fab -/

/-- R334, R335, R337, R338, R348: a packet of a flow that comes in its place is performed once, its flow moves on, and a write is
acknowledged; one that comes early is kept, one too late is discarded and counted, one for another package goes on. A write
leaves its bytes at the place its home's own tables give, a read sends them back, an atomic reads, changes and writes them.
R335: a missing number is passed over after 10 us. -/
def Obligations.PacketsArePerformedInOrder : Prop :=
  (∀ (i : Instr) (type : Nat) (s s1 m : State) (p : Packet) (k : Nat), flowPacket i = some type → NextOfFlow s type p k s1 →
    perform s1 s.occ.a p = .ok m → (∀ e ∈ m.fab.early, e.1 ≠ k) → exec i s = .next (flowDone m type p s.occ.a k)) ∧
  (∀ (s s1 m : State) (p : Packet) (k : Nat) (ps : List Place), NextOfFlow s 0x03 p k s1 →
    fabPlace s1 p p.payload.length true = .ok ps → s1.putMems (ps.zip p.payload) = .ok m → m.fab = s1.fab →
    exec .writePacket s = .next (flowDone m 0x03 p s.occ.a k)) ∧
  (∀ (s x : State) (p : Packet) (k n : Nat) (ps : List Place) (bs : List Byte) (d : Desc), NextOfFlow s 0x01 p k s →
    getDesc { s with cores := [] } 0 ptACC p.ctx p.tensor (p.tensor * 2 ^ 52 + p.offset) = .ok (x, d) → p.offset < d.size →
    n = (if s.occ.a = 0 ∧ p.operand.toNat = 256 then min 256 (d.size - p.offset) else p.operand.toNat) →
    fabPlace s p n false = .ok ps → s.getMems ps = .ok bs →
    exec .readPacket s = .next (flowDone (s.send { s.pkt 0x02 p.src p.ctx with
      score := p.score, sslot := p.sslot, tensor := p.tensor, fseq := p.fseq, offset := p.offset, interval := p.interval, tag := p.tag
      operand := BitVec.ofNat 64 bs.length, payload := bs }) 0x01 p s.occ.a k)) ∧
  (∀ (s m : State) (p : Packet) (k n a old : Nat) (x : Nat × Nat) (ps : List Place) (bs : List Byte), NextOfFlow s 0x05 p k s →
    n = (if fld p.aux 4 2 = 2 then 4 else 8) → fabPlace s p n true = .ok ps → s.getMems ps = .ok bs →
    old = leNat bs → a = p.operand.toNat % 2 ^ (8 * n) →
    x = (if p.payload = [] then atomOp (p.aux % 16) n old a else (if old = a then leNat p.payload % 2 ^ (8 * n) else old, 0)) →
    s.putMems (ps.zip (leBytes n x.1)) = .ok m → m.fab = s.fab →
    exec .atomicPacket s = .next (flowDone (m.send { m.pkt 0x06 p.src p.ctx with
      score := p.score, sslot := p.sslot, tensor := p.tensor, fseq := p.fseq, offset := p.offset, interval := p.interval, tag := p.tag
      operand := BitVec.ofNat 64 old, aux := x.2 }) 0x05 p s.occ.a k)) ∧
  (∀ (i : Instr) (type : Nat) (s m : State) (p : Packet), flowPacket i = some type → Here s type p → p.src = s.fab.pkg →
    (type = 0x30 → s.occ.a = 5) → perform s s.occ.a p = .ok m → exec i s = .next m) ∧
  (∀ (i : Instr) (type : Nat) (s s1 : State) (p : Packet) (k d : Nat), flowPacket i = some type → Here s type p →
    p.src ≠ s.fab.pkg → (type = 0x30 → s.occ.a = 5) → k = s.flowOf s.occ.a p →
    d = (p.fseq + 4096 - s.expect k) % 4096 → s1 = (if countsIn type then s.countGot p else s) →
    (1 ≤ d → d < 2048 → ∃ t, exec i s = .next t ∧ t.fab.early = s1.fab.early ++ [(k, p)] ∧ t.fab.recvSeq = s.fab.recvSeq ∧
      (∀ j, j < d → (∀ e ∈ s.fab.early, ¬(e.1 = k ∧ e.2.fseq = (s.expect k + j) % 4096)) →
        ∃ g ∈ t.fab.gaps, g.1 = k ∧ g.2.1 = (s.expect k + j) % 4096) ∧
      t.dram = s.dram ∧ t.slots = s.slots) ∧
    (2048 ≤ d → ∃ t, exec i s = .next t ∧ t.fab.late = s.fab.late + 1 ∧ t.fab.recvSeq = s.fab.recvSeq ∧ t.dram = s.dram ∧
      t.slots = s.slots)) ∧
  (∀ (i : Instr) (type : Nat) (s : State) (p : Packet), flowPacket i = some type → p = s.occ.pkt → p.type = type →
    p.dst ≠ s.fab.pkg →
    ∃ t, exec i s = .next t ∧ t.fab.outbox = s.fab.outbox ++ [{ p with hops := p.hops + 1 }] ∧ t.dram = s.dram ∧ t.slots = s.slots) ∧
  (∀ (s g m : State) (p : Packet) (k q at_ : Nat), k = (s.occ.a * 4096 + s.occ.b) * 4096 + s.occ.c + s.occ.d * 2 ^ 60 →
    s.fab.gaps.find? (fun g => g.1 == k && g.2.1 == s.expect k) = some (k, q, at_) →
    (s.clock < at_ + 10 * 1050 → exec .reorderGapTimeout s = .next s) ∧
    (at_ + 10 * 1050 ≤ s.clock → g = (s.passed k).bump 11 →
      ((∀ e ∈ s.fab.early, e.1 ≠ k) → exec .reorderGapTimeout s = .next g) ∧
      (s.fab.early = [(k, p)] → p.fseq = (s.expect k + 1) % 4096 →
        perform { g with fab := { g.fab with early := [] } } (s.occ.b % 8) p = .ok m → m.fab.early = [] →
        exec .reorderGapTimeout s = .next (flowDone m p.type p (s.occ.b % 8) k))))

/-- R340, R346: read data reach the scratchpad, the operand queue or the waiting register of the request their tag names. R145,
R347, R380: an atomic's result, a node word's result and status reach their slot, whose word retires. R348: an
acknowledgement is cumulative. R351, R352: a match releases the entry that waits for it; a mismatch stops the core with COUNT.
R338, R339: an error packet stops the source's core on stream 4, or aborts its task for a tile, which this package does not post. -/
def Obligations.AnswersReachTheirWords : Prop :=
  (∀ (s : State) (p : Packet) (u a pkg va n : Nat), Here s 0x02 p → s.req p.tag = some (.toSp u a pkg va n) →
    (s.core (coreOf u)).stopped = none → (s.core (coreOf u)).rcache = [] →
    exec .readDataPacket s = .next (((s.closeReq p).modCore (coreOf u) (fun c => { c with
      scratch := c.scratch.store a (p.payload.take n) })).dropWait u p.tag)) ∧
  (∀ (s : State) (p : Packet) (u q pkg va n : Nat) (x : OQ), Here s 0x02 p → s.req p.tag = some (.toOq u q pkg va n) →
    (s.core (coreOf u)).stopped = none → (s.core (coreOf u)).rcache = [] → x = s.oq (coreOf u) q →
    exec .readDataPacket s = .next (((s.closeReq p).setOq (coreOf u) q ({ x with flight := x.flight.map (fun e =>
      if e.1 = p.tag then (0, some (p.payload.take n ++ zeros (256 - (p.payload.take n).length))) else e) } : OQ).settle).dropWait
      u p.tag)) ∧
  (∀ (s : State) (p : Packet) (u rd n pkg va : Nat) (sg : Bool), Here s 0x02 p →
    s.req p.tag = some (.load u rd n sg pkg va 1) → (s.core (coreOf u)).stopped = none → (s.slot u).hold = .none →
    (∀ k, k < n → s.remByte u pkg 1 (va + k) = none) → p.offset ≤ va % 2 ^ 52 →
    va % 2 ^ 52 + n ≤ p.offset + p.payload.length →
    ∃ t, exec .readDataPacket s = .next t ∧
      t.slot u = (s.slot u).answer p.tag (loadVal sg n ((p.payload.drop (va % 2 ^ 52 - p.offset)).take n)) s.clock ∧
      (∀ w, w ≠ u → t.slot w = s.slot w) ∧ t.dram = s.dram) ∧
  (∀ (s : State) (p : Packet) (u rd n : Nat) (cur : Cursor), Here s 0x06 p → s.req p.tag = some (.atomic u rd n) →
    p.aux = 0 → AwaitsTag s u p.tag cur → rd < 64 →
    ∃ t, exec .atomicResultPacket s = .next t ∧ Answered s t u rd p.operand cur) ∧
  (∀ (s : State) (p : Packet) (u : Nat) (j : NodeJob) (cur : Cursor), Here s 0x31 p → s.req p.tag = some (.node u j) →
    (j.op = 0x70 ∨ j.op = 0x74 ∨ j.op = 0x75) → AwaitsTag s u p.tag cur → j.rd < 64 → p.operand.toNat < 256 →
    ∃ t, exec .nodeResultPacket s = .next t ∧ Answered s t u j.rd (BitVec.ofNat 64 (leNat (p.payload.take 8))) cur ∧
      (t.slot u).csr.nodest.toNat % 256 = p.operand.toNat) ∧
  (∀ (s : State) (p : Packet) (w x : Nat), Here s 0x31 p → s.req p.tag = some (.walk w x) → p.operand = 0 →
    exec .nodeResultPacket s = .next ((s.dropReq p.tag).walkAck p.ctx w x
      (if p.payload.length = 4 then some (leNat p.payload) else none))) ∧
  (∀ (s : State) (p : Packet) (k n : Nat), Here s 0x04 p →
    k = flowKey (4 * p.score + p.sslot) (p.aux % 8) p.src p.tensor + (if bitOf p.aux 3 then 2 ^ 32 else 0) →
    Tbl.get 0 s.fab.sendSeq k = n → p.fseq < 4096 →
    ∃ t, exec .writeAckPacket s = .next t ∧ ((∀ v, (s.slot v).acks = []) → t.slots = s.slots) ∧ t.dram = s.dram ∧
      Tbl.get 0 s.fab.unacked k ≤ Tbl.get 0 t.fab.unacked k ∧
      (n ≤ 4096 → p.fseq < n → p.fseq + 1 ≤ Tbl.get 0 t.fab.unacked k) ∧
      (n % 4096 = (p.fseq + 1) % 4096 → n ≤ Tbl.get 0 t.fab.unacked k)) ∧
  (∀ (s : State) (p : Packet) (tag u strm v : Nat) (drain : Bool), Here s 0x21 p →
    s.fab.reqs = [(tag, .fence u strm p.src p.ctx p.tag p.interval)] → s.findTask p.ctx p.tag = some (v, drain) →
    Runs s (coreOf v) →
    (p.operand.getLsbD 0 = false → exec .intervalResultPacket s = .next ((s.dropReq tag).dropWait u tag)) ∧
    (p.operand.getLsbD 0 = true → strm = 4 → s.waiter u tag = none →
      ∃ t, exec .intervalResultPacket s = .next t ∧
        raisedBy t (coreOf v) v .acc ⟨cCOUNT, 0, p.src + p.interval * 2 ^ 16⟩)) ∧
  (∀ (s : State) (p : Packet) (u o : Nat) (x : Task), Here s 0x3F p → p.aux = 0x03 → u = 4 * p.score + p.sslot →
    o = p.operand.toNat → (s.slot u).task = some x → x.ctx = p.ctx → x.seq = p.tag → Runs s (coreOf u) →
    (bitOf o 31 = false → ∃ t, exec .errorPacket s = .next t ∧
      raisedBy t (coreOf u) u .acc ⟨fld o 8 8, o % 256, p.tensor * 2 ^ 52 + p.offset⟩) ∧
    (bitOf o 31 = true → LeavesHere s u → p.tensor < 4096 → p.offset < 2 ^ 52 →
      ∃ t y, exec .errorPacket s = .next t ∧ (t.slot u).task = none ∧ t.hub.faultq = s.hub.faultq ∧
        (y, [(p.tensor, o / 2 ^ 32)]) ∈ (t.ctx p.ctx).parked ∧ y.seq = p.tag ∧ y.ctx = p.ctx))

/-- R335, R336: a flit is accepted in sequence with a good check, else refused, and the eighth refusal takes the port down; a port
comes back with its sequence at its start; a held packet takes one detour. R351: an interval closes after 100 us, and its target
answers. R357 to R362: pull requests bind, tokens are granted, answered, and expire, an orphan ends, and cancels, resumes and
statuses reach the message or slot they name. -/
def Obligations.LinksIntervalsAndMessagesAct : Prop :=
  (∀ (s : State) (n : Nat), s.occ.a % 128 = n → n ∉ s.fab.down →
    (s.occ.flag = true → s.occ.b % 256 = Tbl.get 0 s.fab.linkSeq n → ∃ t, exec .flitReceive s = .next t ∧
      Tbl.get 0 t.fab.linkSeq n = (s.occ.b % 256 + 1) % 256 ∧ Tbl.get 0 t.fab.fails n = 0 ∧ t.fab.down = s.fab.down ∧ t.slots = s.slots) ∧
    (¬(s.occ.flag = true ∧ s.occ.b % 256 = Tbl.get 0 s.fab.linkSeq n) → ∃ t, exec .flitReceive s = .next t ∧
      Tbl.get 0 t.fab.linkSeq n = Tbl.get 0 s.fab.linkSeq n ∧
      (if 8 ≤ Tbl.get 0 s.fab.fails n + (if s.occ.b % 256 = Tbl.get 0 s.fab.linkSeq n then 1 else 0) then n ∈ t.fab.down
        else t.fab.down = s.fab.down ∧ Tbl.get 0 t.fab.fails n =
          Tbl.get 0 s.fab.fails n + (if s.occ.b % 256 = Tbl.get 0 s.fab.linkSeq n then 1 else 0)))) ∧
  (∀ (s : State), ∃ t, exec .laneTrainingLoss s = .next t ∧ s.occ.a % 128 ∈ t.fab.down ∧ t.slots = s.slots ∧ t.dram = s.dram) ∧
  (∀ (s : State), ∃ t, exec .portRetrain s = .next t ∧ s.occ.a % 128 ∉ t.fab.down ∧
    (s.occ.a % 128 ∈ s.fab.down → Tbl.get 0 t.fab.linkSeq (s.occ.a % 128) = 0) ∧ t.slots = s.slots) ∧
  (∀ (s : State) (p : Packet) (hop port : Nat), p = s.occ.pkt → s.fab.outbox = [p] → p.detour = false → p.type ≠ 0x07 →
    p.type ≠ 0x11 → s.route (flowKey (4 * p.score + p.sslot) (s.occ.b % 8) p.dst p.tensor) p.dst = some (hop, port) →
    p.hops + (if s.fab.pkg / 9 = p.dst / 9 ∨ s.fab.pkg % 9 = p.dst % 9 then 1 else 2) ≤ 3 → 65536 < s.occ.c → 2 * 1050 < s.occ.d →
    mayVia s hop s.occ.a → (∀ k, k < 81 → mayVia s hop k → nth 0 s.occ.nums s.occ.a ≤ nth 0 s.occ.nums k) →
    exec .packetDetour s = .next { s with fab := { s.fab with
      outbox := [{ p with detour := true }], vias := s.fab.vias ++ [({ p with detour := true }, s.occ.a)] } }) ∧
  (∀ (s : State) (p : Packet) (got : Nat), Here s 0x20 p → got = s.gotCount p.src p.ctx p.tag p.interval →
    (p.operand.toNat ≤ got → ∃ t q, exec .intervalClosePacket s = .next t ∧ t.fab.outbox = s.fab.outbox ++ [q] ∧
      q.type = 0x21 ∧ q.dst = p.src ∧ q.tag = p.tag ∧ q.interval = p.interval ∧
      q.operand.getLsbD 0 = decide (got ≠ p.operand.toNat) ∧ t.slots = s.slots ∧ t.dram = s.dram) ∧
    (got < p.operand.toNat → exec .intervalClosePacket s = .next
      { s with fab := { s.fab with closes := s.fab.closes ++ [(s.clock, p)] } })) ∧
  (∀ (s : State) (c : Packet) (at_ : Nat),
    s.fab.closes.find? (fun e => e.2.src == s.occ.a && e.2.ctx == s.occ.b && e.2.tag == s.occ.c && e.2.interval == s.occ.d)
      = some (at_, c) →
    (s.clock < at_ + 10 * 1050 → exec .intervalShortTimeout s = .next s) ∧
    (at_ + 10 * 1050 ≤ s.clock → ∃ t q, exec .intervalShortTimeout s = .next t ∧ t.fab.outbox = s.fab.outbox ++ [q] ∧
      q.type = 0x21 ∧ q.dst = c.src ∧
      q.operand.getLsbD 0 = decide (s.gotCount c.src c.ctx c.tag c.interval ≠ c.operand.toNat))) ∧
  (∀ (s : State) (u : Nat) (x : Task), s.occ.a % 512 = u → (s.slot u).task = some x → (s.core (coreOf u)).stopped = none →
    100 ≤ s.ivElapsed x → (∃ e ∈ s.fab.sentCounts, e.1 = x.ctx ∧ e.2.1 = x.seq) →
    ∃ t, exec .intervalTimerExpire s = .next t ∧ (t.slot u).tk.interval = (x.interval + 1) % 2 ^ 16 ∧
      (∀ e ∈ t.fab.sentCounts, ¬(e.1 = x.ctx ∧ e.2.1 = x.seq)) ∧
      ∀ pkg n, (x.ctx, x.seq, pkg, n) ∈ s.fab.sentCounts → ∃ q ∈ t.fab.outbox ++ t.fab.stalled.map (·.2), q.type = 0x20 ∧ q.dst = pkg ∧ q.tag = x.seq ∧
        q.interval = x.interval ∧ q.operand = BitVec.ofNat 64 n) ∧
  (∀ (s : State) (p : Packet) (r : RecvSlot), Here s 0x10 p → (s.ctx p.ctx).block ≠ [] → s.requests < 4096 →
    s.recv p.ctx (reqSlot p) = some r → r.msg = none → r.posted = true → r.status = msOPEN →
    reqSize p ≤ rdCap r.desc →
    ∃ t y, exec .pullRequestPacket s = .next t ∧ t.recv p.ctx (reqSlot p) = some y ∧
      y.status = (if reqPrefix p = 0 then msACTIVE else msOPEN) ∧
      y.msg = some (p.src, p.offset, reqMid p, reqSize p, p.cls) ∧ y.units = 0 ∧ t.slots = s.slots) ∧
  (∀ (s : State) (p : Packet), Here s 0x10 p → (s.ctx p.ctx).block ≠ [] → s.requests < 4096 →
    s.recv p.ctx (reqSlot p) = none →
    exec .pullRequestPacket s = .next { s with fab := { s.fab with held := s.fab.held ++ [(s.clock, p)] } }) ∧
  (∀ (s : State) (key cls : Nat) (rank : Int) (arr c k first count src seq mid size : Nat) (r : RecvSlot),
    (∀ p ∈ s.fab.inbox, p.type ≠ 0x10) → s.fab.lastToken + 8 ≤ s.clock → pickReq s.eligible = some (key, cls, rank, arr) →
    c = key / 1024 → k = key % 1024 → s.recv c k = some r → r.msg = some (src, seq, mid, size, cls) →
    s.wanted c k r = some (first, count) →
    (s.tokenBytes + runBytes size first count ≤ fld s.fab.gscfg.toNat 32 32 * 1024 →
      ∃ t q, exec .tokenGrant s = .next t ∧
        t.fab.tokens = s.fab.tokens ++ [⟨s.fab.nextToken, c, k, first, count, s.clock⟩] ∧ posted s t q ∧
        q.type = 0x11 ∧ q.dst = src ∧ q.ctx = c ∧ q.offset = seq ∧ t.fab.lastToken = s.clock ∧ t.slots = s.slots) ∧
    (fld s.fab.gscfg.toNat 32 32 * 1024 < s.tokenBytes + runBytes size first count → exec .tokenGrant s = .next s)) ∧
  (∀ (s : State), (∀ p ∈ s.fab.inbox, p.type ≠ 0x10) → s.clock < s.fab.lastToken + 8 → exec .tokenGrant s = .next s) ∧
  (∀ (s m : State) (p : Packet) (x : SendMsg) (o : Nat), Here s 0x11 p → o = p.operand.toNat →
    s.findMsg p.ctx p.offset (o % 2 ^ 16) = some x → (x.status = msOPEN ∨ x.status = msACTIVE) →
    s.sendUnits x p.tag (fld o 16 16) (o / 2 ^ 32) = some m →
    exec .tokenPacket s = .next (m.msgStatus
      { x with sent := min (sdSize x.desc) (x.sent + runBytes (sdSize x.desc) (fld o 16 16) (o / 2 ^ 32)) } msACTIVE)) ∧
  (∀ (s : State) (x : Token), s.fab.tokens.find? (fun t => t.id == s.occ.a) = some x →
    (s.clock < x.issued + 20 * 1050 → exec .tokenExpire s = .next s) ∧
    (x.issued + 20 * 1050 ≤ s.clock → ∃ t, exec .tokenExpire s = .next t ∧
      t.fab.tokens = s.fab.tokens.filter (fun y => y.id != s.occ.a) ∧ t.slots = s.slots ∧ t.dram = s.dram)) ∧
  (∀ (s : State) (c k src seq mid size cls : Nat) (r : RecvSlot), s.occ.a % 256 = c → s.occ.b % 1024 = k →
    s.recv c k = some r → r.msg = some (src, seq, mid, size, cls) → r.saved = false → s.tokensOf c k ≠ [] →
    1000 * 1050 ≤ s.clock - r.orphanAt →
    ∃ t y q, exec .orphanTimeout s = .next t ∧ t.recv c k = some y ∧ y.status = msORPHAN ∧ y.msg = none ∧ y.posted = false ∧
      t.fab.orphans = s.fab.orphans + 1 ∧ t.tokensOf c k = [] ∧ posted s t q ∧ q.type = 0x15 ∧ q.dst = src) ∧
  (∀ (s : State) (p : Packet) (size cls : Nat) (r : RecvSlot), Here s 0x13 p → s.recv p.ctx (reqSlot p) = some r →
    r.msg = some (p.src, p.offset, reqMid p, size, cls) →
    ∃ t y, exec .messageCancelPacket s = .next t ∧ t.recv p.ctx (reqSlot p) = some y ∧ y.status = msCANCEL ∧ y.msg = none ∧
      t.tokensOf p.ctx (reqSlot p) = []) ∧
  (∀ (s : State) (p : Packet), Here s 0x14 p → s.fab.held = [] →
    ((∃ r size cls, s.recv p.ctx (reqSlot p) = some r ∧ r.msg = some (p.src, p.offset, reqMid p, size, cls)) →
      exec .resumePacket s = .next s) ∧
    (s.recv p.ctx (reqSlot p) = none → ∃ t q, exec .resumePacket s = .next t ∧ posted s t q ∧
      q.type = 0x15 ∧ q.dst = p.src ∧ fld q.operand.toNat 16 8 = msORPHAN)) ∧
  (∀ (s : State) (p : Packet) (x : SendMsg) (st : Nat), Here s 0x15 p → s.findMsg p.ctx p.offset (reqMid p) = some x →
    st = fld p.operand.toNat 16 8 →
    ∃ t, exec .messageStatusPacket s = .next t ∧ t.findMsg p.ctx p.offset (reqMid p) =
      (if st = msOPEN ∨ st = msACTIVE ∨ st = msSUSP then some { x with status := st } else none) ∧ t.slots = s.slots)

/-! Statements stop -/

/-- R25, R35, R101, R181: ENGINE_ENTRY_COMPLETE, once the entry's clocks have passed, writes the entry's results, adds its words to
the timeline and the ring's consumer pointer, ORs its flags, and frees its engine; a fault found in the entry stops the core
instead. R480, R319: an entry or a watermark wait of 50 ms stops the core with WATCHDOG. -/
def Obligations.EngineEntriesComplete : Prop :=
  (∀ (s : State) (u e : Nat) (f : InFlight), s.occ.a % 512 = u → s.occ.b = e → e < 4 → Runs s (coreOf u) →
    PlainEntry s u e f →
    (f.trap = none → (∀ k, k < 7 → bitOf f.flags k = true → (s.slot u).corectl (k + 4) = false) →
      ∃ r, exec .engineEntryComplete s = .next r ∧ r.clock = max s.clock (f.clock + (bankWait f.banks).2 + f.lat) ∧
        (r.slot u).eng.find? (fun x => x.1 == e) = none ∧
        (r.slot u).tl e = (s.slot u).tl e + BitVec.ofNat 64 f.words.length ∧
        ((r.slot u).cring e).cons = (((s.slot u).cring e).cons + f.words.length) % 2 ^ 32 ∧
        (r.slot u).csr.aflags = (s.slot u).csr.aflags ||| BitVec.ofNat 7 f.flags ∧
        (r.core (coreOf u)).regs = ((s.core (coreOf u)).entryRegs f).regs ∧
        (r.core (coreOf u)).valid = ((s.core (coreOf u)).entryRegs f).valid ∧
        (r.core (coreOf u)).scratch = ((s.core (coreOf u)).entryRegs f).scratch ∧ r.dram = s.dram ∧ ∀ v, v ≠ u → r.slot v = s.slot v) ∧
    (∀ t, f.trap = some t → ∃ r, exec .engineEntryComplete s = .next r ∧ raisedBy r (coreOf u) u (Stream.ofNum (e + 1)) t)) ∧
  (∀ (s : State) (u e n k : Nat) (isProd : Bool) (f : InFlight) (rest : List (Nat × Bool × Nat)) (x : Ring), s.occ.a % 512 = u →
    s.occ.b = e → e < 4 → Runs s (coreOf u) → (s.slot u).eng.find? (fun x => x.1 == e) = some (e, f) → f.drain = false →
    f.chosen = false → f.stream = true → f.advances = (n, isProd, k) :: rest → x = (s.slot u).ring n → x.via = 0 → x.logn ≠ 0 →
    ownOk (if isProd then x.prodown else x.consown) ((s.slot u).owner u (Stream.ofNum (e + 1))) = true →
    1 ≤ (if isProd then x.room else x.occ) →
    ∃ r g, exec .engineEntryComplete s = .next r ∧ (r.slot u).eng.find? (fun x => x.1 == e) = some (e, g) ∧
      g.advances = rest ++ (if 2 ≤ k then [(n, isProd, k - 1)] else []) ∧ (∀ w ∈ g.writes, w.1 < 2 ^ 32) ∧
      ((r.slot u).ring n).prod = (if isProd then (x.prod + 1) % 2 ^ 32 else x.prod) ∧
      ((r.slot u).ring n).cons = (if isProd then x.cons else (x.cons + 1) % 2 ^ 32) ∧
      (r.slot u).tl e = (s.slot u).tl e ∧ r.dram = s.dram ∧ ∀ v, v ≠ u → r.slot v = s.slot v) ∧
  (∀ (s : State) (u e : Nat) (f : InFlight), s.occ.a % 512 = u → s.occ.b = e → e < 4 → Runs s (coreOf u) →
    (s.slot u).eng.find? (fun x => x.1 == e) = some (e, f) →
    (s.clock < f.clock + 50000 * 1050 → exec .engineWatchdogExpire s = .next s) ∧
    (f.clock + 50000 * 1050 ≤ s.clock → ∃ r, exec .engineWatchdogExpire s = .next r ∧
      raisedBy r (coreOf u) u (Stream.ofNum (e + 1)) ⟨cWATCHDOG, e + 1, 0⟩)) ∧
  (∀ (s : State) (u e : Nat) (w : WmWait), s.occ.a % 512 = u → s.occ.b = e → e < 4 → Runs s (coreOf u) →
    (s.slot u).eng.find? (fun x => x.1 == e) = none → (s.slot u).wm.find? (fun w => w.key = e + 1) = some w →
    w.since + 50000 * 1050 ≤ s.clock →
    ∃ r, exec .engineWatchdogExpire s = .next r ∧ raisedBy r (coreOf u) u (Stream.ofNum (e + 1)) ⟨cWATCHDOG, e + 1, 0⟩) ∧
  (∀ (s : State) (u : Nat) (w : WmWait), s.occ.a % 512 = u → (s.slot u).task.isSome = true → Runs s (coreOf u) →
    (s.slot u).wm.find? (fun w => w.key = 0) = some w →
    (s.clock < w.since + 50000 * 1050 → exec .watermarkWatchdog s = .next s) ∧
    (w.since + 50000 * 1050 ≤ s.clock →
      ∃ r, exec .watermarkWatchdog s = .next r ∧ raisedBy r (coreOf u) u .seq ⟨cWATCHDOG, 0, 0⟩))

/-- R129, R130: a core stop leaves cause and subcause in FAULTST, the frame in the context's fault area, the interrupt at the
DCC, and the other cores' slots alone. R131, R431, R432: the policy kills, requeues, calls the hook or holds; the hook's answer,
or its end after 50 us, disposes of the core. R165: a tile fault aborts the task, posts the tile, and its return requeues it. -/
def Obligations.FaultsStopAbortAndRecover : Prop :=
  (∀ (s : State) (u core cause sub fa : Nat) (m : Stream), s.occ.a % 128 = core → u = 4 * core + s.occ.b % 4 →
    m = Stream.ofNum (s.occ.c % 5) → cause = s.occ.d % 256 → sub = s.occ.d / 256 % 256 → (s.slot u).task.isSome = true →
    1 ≤ cause → cause ≤ 14 → Runs s core → fa = s.faultbase (s.slot u).ctx + 2 ^ 22 * core →
    ∃ t, exec .coreStopFault s = .next t ∧ raisedBy t core u m ⟨cause, sub, s.occ.w.toNat⟩ ∧
      (StopsHere s u m → stoppedBy t core u m ⟨cause, sub, s.occ.w.toNat⟩ ∧
      (t.slot u).csr.faultst.toNat % 2 ^ 16 = cause + 2 ^ 8 * sub ∧ t.dev (fa + 2) 1 = u % 4 ∧ t.dev (fa + 3) 1 = m.num ∧
      t.dev (fa + 4) 1 = cause ∧ t.dev (fa + 5) 1 = sub ∧ t.dev (fa + 6) 2 = core ∧ t.dev (fa + 16) 8 = s.occ.w.toNat ∧
      (core, (s.slot u).ctx) ∈ t.hub.dccIrq ∧ ∀ v, coreOf v ≠ core → butSent (t.slot v) = butSent (s.slot v))) ∧
  (∀ (s : State) (core : Nat) (st : Stop), s.occ.a % 128 = core → AwaitsPolicy s core st →
    ((s.ctx st.ctx).reg 0x70 8 % 4 = 0 → ∃ t, exec .faultPolicyApply s = .next t ∧ (t.core core).stopped = none ∧
      ∀ k, k < 4 → (t.slot (4 * core + k)).task = none) ∧
    (∀ r, (s.ctx st.ctx).reg 0x70 8 % 4 = 1 →
      (({ s with hub := { s.hub with hooks := s.hub.hooks.filter (fun h => h.1 != core) } } : State).setPhase core 4).requeueCore core
        = some r → exec .faultPolicyApply s = .next r ∧
      (r.core core).stopped = none ∧ ∀ k, k < 4 → (r.slot (4 * core + k)).task = none) ∧
    ((s.ctx st.ctx).reg 0x70 8 % 4 = 2 → (s.ctx st.ctx).reg 0x78 4 ≠ 0 → ∃ t, exec .faultPolicyApply s = .next t ∧
      (t.core core).stopped = some { st with phase := 1 } ∧ (core, s.devTime, st.ctx) ∈ t.hub.hooks ∧ t.slots = s.slots) ∧
    ((s.ctx st.ctx).reg 0x70 8 % 4 = 3 → ∃ t, exec .faultPolicyApply s = .next t ∧
      (t.core core).stopped = some { st with phase := 2 } ∧ t.slots = s.slots)) ∧
  (∀ (s : State) (core : Nat) (st : Stop), s.occ.a % 128 = core → (s.core core).stopped = some st → st.phase = 1 →
    st.drain = false → s.slowOn core = false → s.occ.nums = [] →
    (s.occ.b = 3 → ∃ t, exec .faultHookReturn s = .next t ∧ (t.core core).stopped = some { st with phase := 2 }) ∧
    (s.occ.b = 1 → s.fab.sends = [] → ∃ t, exec .faultHookReturn s = .next t ∧ (t.core core).stopped = none ∧
      ∀ k, k < 4 → (s.slot (4 * core + k)).task.isSome = true →
        (t.slot (4 * core + k)).pc = s.dev (s.saveBlock (s.slot (4 * core + k)).ctx (4 * core + k) + 8) 4 ∧
        (t.slot (4 * core + k)).csr.corectl =
          BitVec.ofNat 11 (s.dev (s.saveBlock (s.slot (4 * core + k)).ctx (4 * core + k) + 728) 8)) ∧
    (s.occ.b ∉ [1, 2, 3] → (∀ k, k < 4 → (s.slot (4 * core + k)).gang = [] ∧ (s.slot (4 * core + k)).drain = none) →
      ∃ t, exec .faultHookReturn s = .next t ∧ (t.core core).stopped = none ∧
        ∀ k, k < 4 → (t.slot (4 * core + k)).task = none)) ∧
  (∀ (s : State) (core : Nat) (st : Stop) (h : Nat × Nat × Nat), s.occ.a % 128 = core → (s.core core).stopped = some st →
    st.phase = 1 → s.slowOn core = false → s.hub.hooks.find? (fun h => h.1 == core) = some h →
    (s.devTime ≤ h.2.1 + 50000 → exec .faultHookTimeout s = .next s) ∧
    (h.2.1 + 50000 < s.devTime → (∀ k, k < 4 → (s.slot (4 * core + k)).gang = [] ∧ (s.slot (4 * core + k)).drain = none) →
      ∃ t, exec .faultHookTimeout s = .next t ∧ (t.core core).stopped = none ∧
        ∀ k, k < 4 → (t.slot (4 * core + k)).task = none)) ∧
  (∀ (s : State) (u : Nat) (x : Task), s.occ.a % 512 = u → (s.slot u).task = some x → Runs s (coreOf u) → LeavesHere s u →
    ∃ t y, exec .tileFaultAbort s = .next t ∧ (t.slot u).task = none ∧
      (x.ctx, s.occ.b, s.occ.c, coreOf u, u % 4) ∈ t.hub.faultq ∧ (y, [(s.occ.b, s.occ.c)]) ∈ (t.ctx x.ctx).parked ∧
      y.ctx = x.ctx ∧ y.seq = x.seq ∧ y.phase = 1) ∧
  (∀ (s m : State) (c : Nat) (x : Task), s.occ.a % 256 = c → (s.ctx c).parked = [(x, [(s.occ.b, s.occ.c)])] →
    (s.modCtx c (fun y => { y with parked := [] })).enqueue x false = some m →
    ∃ t k, exec .tileResidentRequeue s = .next t ∧ (t.ctx c).parked = (m.ctx c).parked ∧ x ∈ t.seg k ∧
      (∀ n ∈ s.fab.notices, n.1 = c → n.2.1 = s.occ.b → n.2.2.1 = s.occ.c → n ∈ t.fab.told ∧ n ∉ t.fab.notices) ∧ t.slots = s.slots)

/-- R160: HELD_EFFECT_DRAIN performs the oldest entry of a slot's closed regions. R145: a host atomic's answer writes host memory
and retires its word; an error is PERM SPACE. R221: a domain's phase ends when every member stands at its level, with the
counted fences of the communication phases that end with it: each member's phase bit toggles and its arrival has passed. -/
def Obligations.DrainsPhasesAndHostAtomicsComplete : Prop :=
  (∀ (s : State) (u sp : Nat) (h : Held) (rest : List Held) (a : Nat) (ps : List Nat) (bs : List Byte), s.occ.a % 512 = u →
    (s.core (coreOf u)).stopped = none → (∀ v ∈ s.unitsOf u, (s.slot v).faults = []) → (s.slot u).closed = h :: rest → h.rel = 0 → h.eff = .store sp a ps bs → sp ≠ 2 →
    sp ≠ 3 → ps.Nodup → ps.length = bs.length → (∀ p ∈ ps, p < dramSize) →
    ∃ t, exec .heldEffectDrain s = .next t ∧ (t.slot u).closed = rest ∧
      (∀ k, k < ps.length → t.dram.get (nth 0 ps k) = nth 0 bs k) ∧ (∀ x, x ∉ ps → t.dram.get x = s.dram.get x) ∧
      ∀ v, v ≠ u → t.slot v = s.slot v) ∧
  (∀ (s : State) (u rd n op a old : Nat) (b : Word) (ps : List Nat) (va : Nat) (cur : Cursor), s.occ.a % 512 = u →
    s.hostOldest u = none → (s.slot u).hold = .hostAtomic rd n op b none ps va 0 → Runs s (coreOf u) → (s.slot u).inHand = some cur →
    (s.occ.flag = true → (s.slot u).latch = none → (s.slot u).npc = none → (s.slot u).loops = [] → rd < 64 → n ≤ 8 →
      ps = (List.range n).map (a + ·) → old = s.occ.w.toNat % 2 ^ (8 * n) →
      ∃ t, exec .hostAtomicCompletion s = .next t ∧ Answered s t u rd (BitVec.ofNat 64 old) cur ∧
        t.host.num a n = (atomOp op n old (b.toNat % 2 ^ (8 * n))).1 % 2 ^ (8 * n) ∧ t.dram = s.dram) ∧
    (s.occ.flag = false → ∃ t, exec .hostAtomicCompletion s = .next t ∧ raisedBy t (coreOf u) u .seq ⟨cPERM, pSPACE, va⟩)) ∧
  (∀ (s : State) (u v tag word addr ctx seq on b n a old : Nat) (ps : List Nat), s.occ.a % 512 = u →
    s.hostOldest u = some (tag, .hostHeld v word addr ctx seq on b ps) → s.occ.flag = true → n = on / 16 → n ≤ 8 →
    ps = (List.range n).map (a + ·) → old = s.occ.w.toNat % 2 ^ (8 * n) →
    ∃ t, exec .hostAtomicCompletion s = .next t ∧ t.host.num a n = (atomOp (on % 16) n old b).1 % 2 ^ (8 * n) ∧
      (∀ e ∈ t.fab.reqs, e.1 ≠ tag) ∧ t.slots = s.slots ∧ t.dram = s.dram) ∧
  (∀ (s : State) (k : Nat) (ms : List Nat), k = 2 + s.occ.a % 3 →
    ms = s.domain k (if k = 2 then 32 * (s.occ.b % 4) else 0) (s.occ.c % 65536) → ms ≠ [] →
    (∀ c ∈ ms, (s.core c).standsAt k = true ∧ Runs s c) → (k = 4 → s.occ.flag = true) →
    (s.phaseFence (((s.endsWith k ms).filter (fun e => e.2.any (fun c => (s.core c).ph e.1))).flatMap (·.2))).2 = true →
    ∃ t, exec .domainPhaseEnd s = .next t ∧
      ∀ c ∈ ms, (t.core c).phase.getLsbD (k - 2) = !(s.core c).phase.getLsbD (k - 2) ∧
        ∀ x, (t.core c).arrive = some x → k ∈ x.2)

/-! Statements hub -/

/-- R433 to R437: an iteration copies the batch table's entries of even SEQW and arms the forward launches; when they have
completed, tokens are sampled and committed, the status entry holding the count, the token and the iteration; the predicate's
answer, or its end after 2 us, decides on the entry at hand; and the iteration ends. -/
def Obligations.GenerationLoopCommitsTokens : Prop :=
  (∀ (s : State) (c : Nat), s.occ.a % 256 = c →
    ((s.genOf c).phase ≠ 0 → exec .genLoopIteration s = .next s) ∧
    (∀ b, (s.genOf c).phase = 0 → (s.ctx c).reg 0x60 2 = 1 → b = s.dram.bytes ((s.ctx c).reg 0x50 8) 64 →
      blockF b 0 8 % 2 = 0 → beOk b = true → blockF b 12 1 ≠ 1 →
      ∃ t, exec .genLoopIteration s = .next t ∧ Tbl.get [] (t.genOf c).snap 0 = b ∧ (t.genOf c).phase = 1 ∧
        (t.genOf c).recs = [] ∧ (t.genOf c).todo = (if blockF b 12 1 = 2 then [0] else []) ∧ t.slots = s.slots ∧ t.dram = s.dram) ∧
    (∀ b r g tail ring m x, (s.genOf c).phase = 0 → (s.ctx c).reg 0x60 2 = 1 → b = s.dram.bytes ((s.ctx c).reg 0x50 8) 64 →
      blockF b 0 8 % 2 = 0 → beOk b = true → blockF b 12 1 = 1 → g = blockF b 15 1 → r = (s.ctx c).reg 0x62 2 % 4096 + g →
      r < 4096 → s.recState c r = 0 → tail = Tbl.get 0 (s.genOf c).tails g → ring = (s.ctx c).reg 0x68 8 + 8192 * g →
      m = fedState (s.modGen c (fun x => { x with changed := false, recs := [], toks := [], nocand := false, entry := 1, phase := 1
                                                  snap := Tbl.put x.snap 0 b, todo := [0] })) c r ring tail 0 →
      m.armRecord c r = (x, 0) →
      exec .genLoopIteration s = .next
        (({ x with hub := { x.hub with dccIrq := x.hub.dccIrq.filter (fun q => q != (512 + r, c)) } } : State).modGen c
          (fun y => { y with recs := [r] })))) ∧
  (∀ (s : State) (c i a n lim tok : Nat) (b : List Byte) (l : List (Nat × Nat)), s.occ.a % 256 = c → (s.genOf c).phase = 1 →
    (s.genOf c).recs = [] → (s.genOf c).toks = [] → (s.genOf c).nocand = false → (s.genOf c).todo = [i] →
    b = Tbl.get [] (s.genOf c).snap i → blockF b 12 1 ≠ 2 → blockF b 13 1 % 4 = 1 → (s.ctx c).reg 0x7C 4 = 0 →
    s.candidates (blockF b 32 8) = some l → tok = (nth (0, 0) l 0).2 → a = s.btstat c i → n = s.dev a 4 → lim = blockF b 56 4 →
    n < lim →
    ∃ t, exec .genLoopSampleCommit s = .next t ∧ t.dev a 4 = n + 1 ∧ t.dev (a + 8) 4 = tok ∧
      t.dev (a + 4) 1 = (if lim ≤ n + 1 then 2 else 0) ∧ t.dev (a + 12) 4 = (s.genOf c).iter % 2 ^ 32 ∧
      (t.genOf c).phase = 0 ∧ (t.genOf c).iter = ((s.genOf c).iter + 1) % 2 ^ 32) ∧
  (∀ (s : State) (c r : Nat), s.occ.a % 256 = c → r ∈ (s.genOf c).recs → (512 + r, c) ∉ s.hub.dccIrq →
    exec .genLoopSampleCommit s = .next s) ∧
  (∀ (s : State) (c a : Nat), s.occ.a % 256 = c → LastEntry s c 2 → a = s.btstat c (s.genOf c).entry →
    (s.occ.flag = true → ∃ t, exec .commitPredicateReturn s = .next t ∧ t.dev (a + 4) 1 = 5 ∧ t.dev a 4 = s.dev a 4 ∧
      (t.genOf c).phase = 0) ∧
    (∀ lim tok, s.occ.flag = false → s.occ.w.toNat % 4 = 0 → (s.genOf c).toks = [tok] → tok < 2 ^ 32 →
      lim = blockF (Tbl.get [] (s.genOf c).snap (s.genOf c).entry) 56 4 → s.dev a 4 < lim →
      ∃ t, exec .commitPredicateReturn s = .next t ∧ t.dev a 4 = s.dev a 4 + 1 ∧ t.dev (a + 8) 4 = tok ∧
        (t.genOf c).phase = 0) ∧
    (s.occ.flag = false → s.occ.w.toNat % 4 = 1 → ∃ t, exec .commitPredicateReturn s = .next t ∧ t.dram = s.dram ∧
      (t.genOf c).phase = 0) ∧
    (s.occ.flag = false → s.occ.w.toNat % 4 = 2 → ∃ t, exec .commitPredicateReturn s = .next t ∧ t.dev (a + 4) 1 = 1 ∧
      t.dev a 4 = s.dev a 4 ∧ (t.genOf c).phase = 0) ∧
    (∀ lim, s.occ.flag = false → s.occ.w.toNat % 4 = 3 →
      lim = blockF (Tbl.get [] (s.genOf c).snap (s.genOf c).entry) 56 4 → s.dev a 4 < lim →
      ∃ t, exec .commitPredicateReturn s = .next t ∧ t.dev a 4 = s.dev a 4 + 1 ∧
        t.dev (a + 8) 4 = s.occ.w.toNat / 2 ^ 32 ∧ (t.genOf c).phase = 0)) ∧
  (∀ (s : State) (c a : Nat), s.occ.a % 256 = c → LastEntry s c 2 → a = s.btstat c (s.genOf c).entry →
    (s.devTime < (s.genOf c).called + 2000 → exec .predicateTimeout s = .next s) ∧
    ((s.genOf c).called + 2000 ≤ s.devTime → ∃ t, exec .predicateTimeout s = .next t ∧ t.dev (a + 4) 1 = 4 ∧
      t.dev a 4 = s.dev a 4 ∧ (t.genOf c).phase = 0))


namespace Sys2Proof.Claim
open Sys2Proof Sys2Proof.Machine

/-! Part whole -/

/-- The state in which a slot of a core issues: the turn is taken, what is due on the core has taken effect, the clock stands at
the slot's issue clock, and the results due by then are visible (R96, R129). -/
def taken (s : State) (rest : List Turn) (c : Nat) : State := ({ s with agenda := rest } : State).tend c
def issuing (s : State) (rest : List Turn) (c u : Nat) : State :=
  let p := taken s rest c
  ({ p with clock := p.issueAt u } : State).settled u

/-- A slot fetches in the state in which it issues: nothing holds it, nothing is in hand, pending or to be taken first, and its PC
is at a word of the image. -/
structure Fetches (t : State) (u : Nat) : Prop where
  hold : (t.slot u).hold = .none
  latch : (t.slot u).latch = none
  hand : (t.slot u).inHand = none
  causes : (t.slot u).causes = []
  ui : (t.slot u).uiReady = false
  aligned : (t.slot u).pc % 8 = 0
  inside : (t.slot u).pc < 8 * (t.slot u).seqLen

/-- A move whose state stands: an engine entry's completion stands in its own clock; a move whose place in the order of the clock
has not passed is executed, and the clock is then that far; another waits for the next clock (R172). -/
def servedAt (s t : State) (i : Instr) : Out :=
  let t := t.timed i
  if t.reached ≤ (t.span i).1 then exec i { t with rank := (t.span i).2, rankAt := t.clock }
  else .next { s with clock := s.clock + 1 }

/-- The word of a slot's program at its PC, and the one after it. -/
def wordAt (t : State) (u : Nat) : Nat := Tbl.get 0 (t.slot u).overlay ((t.slot u).pc / 8)
def wordNext (t : State) (u : Nat) : Nat := Tbl.get 0 (t.slot u).overlay ((t.slot u).pc / 8 + 1)

/-- What a word decodes to, and the ILLEGAL subcause that turns a word away (R38). -/
def readAs (r : Except Nat (Ctl × Instr)) : Option (Ctl × Instr) := match r with | .ok x => some x | .error _ => none
def turnedAway (r : Except Nat (Ctl × Instr)) : Option Nat := match r with | .ok _ => none | .error e => some e

/-- The state in which an engine looks at a head. -/
def looking (s : State) (rest : List Turn) (c e : Nat) (h : Nat × Bool) : State :=
  let p := taken s rest c
  ({ p with clock := p.lookAt e h } : State).settled h.1

/-- No earlier stream of the slot takes, in the same clock, from the semaphore on which the word of engine `e` waits (R36). -/
def firstTaker (s t : State) (rest : List Turn) (c e : Nat) (i : Instr) : Prop :=
  ∀ n, semTaken i t = some n → ∀ b ∈ turnsBefore c e,
    let p : State := { s with agenda := rest, clock := t.clock }
    p.takes t.cur.u t.cur.drain n (p.turn b) = false

end Sys2Proof.Claim

open Sys2Proof Sys2Proof.Machine Sys2Proof.Claim

/-! Statements whole -/

/-- R33, R38, R92, R114, R129: the words at a slot's PC decode, and the step executes exactly that instruction, named with its
control fields, word and length, in its place of the clock's order (R172); a word that does not decode stops the core with ILLEGAL
and the decoder's subcause; a squashed word passes with its issue clock; an engine executes the head of a ring in the same way,
and in the clock of a fire the word behind it (R225); a hardware step executes its instruction; and neither the sequencer nor an
engine of a stopped core moves. -/
def Obligations.AStepRunsTheDecodedWord : Prop :=
  (∀ (s t : State) (c u : Nat) (rest : List Turn), s.agenda = .seq c :: rest → s.mate = none → (s.core c).stopped = none →
    ((taken s rest c).core c).raised = none → (taken s rest c).pickSlot c = some u → t = issuing s rest c u → Fetches t u →
    (∀ ctl i, decode .seq (wordAt t u) (wordNext t u) = .ok (ctl, i) → (t.slot u).pc + i.len ≤ 8 * (t.slot u).seqLen →
      ((t.slot u).squashed = false → ((t.slot u).pfx = none ∨ takesPfx i = true) →
        ((t.slot u).pend.any (fun p => p.tag = cinvTag) = false ∨ passesCinv (wordAt t u) = true) →
        step s = servedAt s { t with cur := ⟨u, .seq, ctl, wordAt t u, i.len, false⟩ } i) ∧
      ((t.slot u).squashed = true → step s = .next (t.squash u i) ∧ (∀ n, ((t.squash u i).slot u).greg n = (t.slot u).greg n) ∧
        ((t.squash u i).slot u).nextIssue = t.clock + 1)) ∧
    (∀ sub, decode .seq (wordAt t u) (wordNext t u) = .error sub → Runs t (coreOf u) →
      ∃ r, step s = .next r ∧ raisedBy r (coreOf u) u .seq ⟨cILLEGAL, sub, badOperand sub (wordAt t u)⟩)) ∧
  (∀ (s t : State) (c e : Nat) (h : Nat × Bool) (rest : List Turn), s.agenda = .engine c e :: rest → s.mate = none →
    (s.core c).stopped = none → ((taken s rest c).core c).raised = none → (taken s rest c).owing c = none →
    (e = 0 → (taken s rest c).chosenOf c = none) → (taken s rest c).pickHead c e = some h → t = looking s rest c e h →
    ∀ ctl i w x, w = (t.core (coreOf h.1)).scratch.num ((t.view h.1 h.2).cmdAddr e 0) 8 →
      decode (Stream.ofNum (e + 1)) w 0 = .ok (ctl, i) →
      x = { t with cur := ⟨h.1, Stream.ofNum (e + 1), ctl, w, 8, h.2⟩ } → firstTaker s x rest c e i →
      step s = servedAt s x i) ∧
  (∀ (s : State) (u w : Nat) (drain : Bool) (ctl : Ctl) (i : Instr), s.mate = some (u, drain) →
    (s.core (coreOf u)).stopped = none → 2 ≤ ((s.view u drain).cring 0).occ →
    (s.view u drain).eng.any (fun x => x.1 == 0 && x.2.words.length == 1 && x.2.clock == s.clock) = true →
    w = (s.core (coreOf u)).scratch.num ((s.view u drain).cmdAddr 0 1) 8 → decode .vec w 0 = .ok (ctl, i) →
    step s = exec i { s with mate := none, cur := ⟨u, .vec, ctl, w, 8, drain⟩ }) ∧
  (∀ (s : State) (i : Instr) (o : Occasion) (rest : List Turn), s.agenda = .event i o :: rest → s.mate = none →
    step s = servedAt s { s with agenda := rest, occ := o } i) ∧
  (∀ (s : State) (c e : Nat) (rest : List Turn), s.mate = none → (s.core c).stopped ≠ none →
    (s.agenda = .seq c :: rest ∨ s.agenda = .engine c e :: rest) → step s = .next { s with agenda := rest })

/-- R38, R40, R48 to R53: words written out bit by bit from the encodings decode to the instructions they stand for, with
their operands and their control fields. -/
def Obligations.WrittenOutWordsDecode : Prop :=
  readAs (decode .seq 0x0000000146020064 0) = some (⟨.none, .none, 0⟩, .add ⟨5, 6, 0, true, 100⟩) ∧
  readAs (decode .seq 0x000034000C003005 0x0002000000002040) = some (⟨.none, .none, 0⟩, .loop ⟨0, 12, 0x3005⟩ ⟨2, 0, 1, 2, 0, 0, 0, 0, 0⟩) ∧
  readAs (decode .seq 0x00004002C4C00000 0) = some (⟨.none, .none, 0⟩, .ld ⟨11, 4, 3, 0⟩) ∧
  readAs (decode .vec 0x430000200C018120 0) = some (⟨.sem 3, .none, 2⟩, .vadd ⟨0, 12, 3, 4, true, false, 0⟩) ∧
  readAs (decode .mtx 0x420020003F070000 0) = some (⟨.sem 2, .none, 0⟩, .mstr ⟨0, 63, false, false, 3, true, 0⟩) ∧
  readAs (decode .copy 0x0000000000A11400 0) = some (⟨.none, .none, 0⟩, .ccopy ⟨5, 1, 2, true, 0⟩) ∧
  readAs (decode .acc 0x0000100400303000 0) = some (⟨.none, .none, 0⟩, .rld ⟨2, 12, 3, 0⟩) ∧
  turnedAway (decode .seq 0x0000390000000000 0) = some 1 ∧
  turnedAway (decode .seq 0x0000000146120064 0) = some 2

/-- R38, R53: decoding reads an encoded well-formed word back, operands and control fields, in every stream; and a word that
decodes is the encoding of a well-formed instruction, so that no bit of it goes unread. -/
def Obligations.DecodingAndEncodingAgree : Prop :=
  (∀ (m : Stream) (c : Ctl) (i : Instr) (w : Nat) (l : List Nat), wordWf m c i = true → encode c i = w :: l →
    decode m w (l.headD 0) = .ok (c, i)) ∧
  (∀ (m : Stream) (c : Ctl) (i : Instr) (w w2 : Nat), w < 2 ^ 64 → decode m w w2 = .ok (c, i) →
    wordWf m c i = true ∧ (encode c i = [w] ∨ encode c i = [w, w2]))

/-- The control registers of a slot, the package's registers with a reset value, and the memories at reset: nothing runs,
nothing is offered for work. What an unwritten byte reads as is the model's choice (log entry 1). -/
def Obligations.ResetLeavesTheRegistersAtTheirValues : Prop :=
  (∀ u, ∀ p ∈ [(0x001, 0), (0x002, 0), (0x003, 0), (0x004, 0), (0x005, 0), (0x006, 0), (0x007, 0), (0x008, 0), (0x009, 0x100),
      (0x00A, 0), (0x00B, 0), (0x00C, 0), (0x010, 4), (0x012, 0x00003F8000000000), (0x013, 0), (0x015, 0), (0x016, 0),
      (0x020, 0), (0x021, 0)],
    State.reset.csrRead u p.1 = BitVec.ofNat 64 p.2) ∧
  (∀ u, u < 512 → State.reset.csrRead u 0x022 = BitVec.ofNat 64 (u / 4 * 2 ^ 17 + u / 128 * 2 ^ 15)) ∧
  (∀ u, (State.reset.slot u).task = none ∧ (State.reset.slot u).csr.trcfg = 6) ∧
  (∀ c q, Tbl.get 0 (State.reset.ctx c).lqcfg q = 0 ∧ State.reset.segrot c = 0) ∧
  (∀ die, State.reset.budget die = 800 ∧ State.reset.usedAmps die = 0) ∧
  (∀ g, State.reset.group g = 0) ∧
  fld State.reset.fab.gscfg.toNat 32 32 = 8192 ∧ fld State.reset.fab.gscfg.toNat 16 16 = 64 ∧ fld State.reset.fab.gscfg.toNat 0 3 = 2 ∧
  State.reset.hub.fwst = 0 ∧ State.reset.hub.dieUp = 0 ∧ State.reset.hub.fullClk = 0 ∧ State.reset.fab.trained = false ∧
  Mem.wf State.reset.dram = true ∧ Mem.wf State.reset.host = true ∧ Mem.wf State.reset.nsm = true ∧ Mem.wf State.reset.slices = true

/-- No instruction of the table is refused, whatever its operands and the state: it answers a next state, or it stops for
good at an address at which the package has no memory (R7). -/
def Obligations.NoInstructionIsRefused : Prop :=
  ∀ (i : Instr) (s : State), (∃ t, exec i s = .next t) ∨ ∃ a, exec i s = .fault (.hole a)
end

