-- ==== Sys2Proof/Laws/Table.lean ====
section
/-! SUPPORT. Sparse tables and byte memory: reading back what was written, and the canonical form that every memory
operation keeps. -/

namespace Sys2Proof

variable {β : Type}

@[simp] theorem Tbl.get_nil (d : β) (k : Nat) : Tbl.get d [] k = d := rfl

theorem Tbl.get_put (d : β) (t : Tbl β) (k : Nat) (v : β) (j : Nat) :
    Tbl.get d (Tbl.put t k v) j = if j = k then v else Tbl.get d t j := by
  induction t with
  | nil => simp only [Tbl.put, Tbl.get, eq_comm]
  | cons e t ih =>
    obtain ⟨a, b⟩ := e
    simp only [Tbl.put]
    split
    · simp only [Tbl.get, eq_comm]
    · split
      · rename_i h; subst h
        simp only [Tbl.get]
        by_cases hj : j = a
        · simp [hj]
        · simp [hj, Ne.symm hj]
      · rename_i h
        simp only [Tbl.get, ih]
        by_cases hj : j = k
        · subst hj; simp [h]
        · simp [hj]

theorem Tbl.get_del (d : β) (t : Tbl β) (k j : Nat) :
    Tbl.get d (Tbl.del t k) j = if j = k then d else Tbl.get d t j := by
  induction t with
  | nil => simp [Tbl.del]
  | cons e t ih =>
    obtain ⟨a, b⟩ := e
    simp only [Tbl.del]
    split
    · rename_i h; subst h
      simp only [ih, Tbl.get]
      by_cases hj : j = a
      · simp [hj]
      · simp [hj, Ne.symm hj]
    · rename_i h
      simp only [Tbl.get, ih]
      by_cases hj : j = k
      · subst hj; simp [h]
      · simp [hj]

theorem Tbl.get_set [DecidableEq β] (d : β) (t : Tbl β) (k : Nat) (v : β) (j : Nat) :
    Tbl.get d (Tbl.set d t k v) j = if j = k then v else Tbl.get d t j := by
  unfold Tbl.set
  split
  · rename_i h; rw [h]; exact Tbl.get_del d t k j
  · exact Tbl.get_put d t k v j

/-- A memory reads back the byte written, and every other byte as before. -/
theorem Mem.get_put (m : Mem) (a : Nat) (b : Byte) (x : Nat) : (m.put a b).get x = if x = a then b else m.get x := by
  unfold Mem.put Mem.get
  split
  · rename_i h; rw [h]; exact Tbl.get_del _ m a x
  · exact Tbl.get_put _ m a b x

/-- A memory after a store: inside the stored range the byte stored, outside it the byte before. -/
theorem Mem.get_store (m : Mem) (a : Nat) (bs : List Byte) (x : Nat) :
    (m.store a bs).get x = if a ≤ x ∧ x < a + bs.length then bs.getD (x - a) 0 else m.get x := by
  induction bs generalizing m a with
  | nil => simp only [Mem.store, List.length_nil]; rw [if_neg (by omega)]
  | cons b t ih =>
    simp only [Mem.store, ih, Mem.get_put, List.length_cons]
    by_cases h : x = a
    · subst h; rw [if_neg (by omega), if_pos (by omega)]; simp
    · by_cases h2 : a + 1 ≤ x ∧ x < a + 1 + t.length
      · have h3 : a ≤ x ∧ x < a + (t.length + 1) := by omega
        obtain ⟨k, hk⟩ : ∃ k, x - a = k + 1 := ⟨x - a - 1, by omega⟩
        have hk' : x - (a + 1) = k := by omega
        simp [h2, h3, hk, hk']
      · have h3 : ¬(a ≤ x ∧ x < a + (t.length + 1)) := by omega
        rw [if_neg h2, if_neg h3, if_neg h]

/-- A byte outside a store's range is unchanged. -/
theorem Mem.get_store_outside (m : Mem) (a : Nat) (bs : List Byte) (x : Nat) (h : x < a ∨ a + bs.length ≤ x) :
    (m.store a bs).get x = m.get x := by
  rw [Mem.get_store, if_neg (by omega)]

theorem Mem.bytes_length (m : Mem) (a n : Nat) : (m.bytes a n).length = n := by
  induction n generalizing a with
  | zero => rfl
  | succ n ih => simp [Mem.bytes, ih]

theorem Mem.bytes_congr (m m' : Mem) (a n : Nat) (h : ∀ x, a ≤ x → x < a + n → m.get x = m'.get x) :
    m.bytes a n = m'.bytes a n := by
  induction n generalizing a with
  | zero => rfl
  | succ n ih =>
    simp only [Mem.bytes]
    rw [h a (by omega) (by omega), ih (a + 1) (fun x h1 h2 => h x (by omega) (by omega))]

/-- The bytes stored are the bytes read back. -/
theorem Mem.bytes_store (m : Mem) (a : Nat) (bs : List Byte) : (m.store a bs).bytes a bs.length = bs := by
  have key : ∀ (bs : List Byte) (m : Mem) (a : Nat), (∀ k, k < bs.length → m.get (a + k) = bs.getD k 0) →
      m.bytes a bs.length = bs := by
    intro bs
    induction bs with
    | nil => intro m a _; rfl
    | cons b t ih =>
      intro m a h
      simp only [List.length_cons, Mem.bytes]
      have h0 := h 0 (by simp)
      simp at h0
      rw [h0, ih m (a + 1) (fun k hk => by
        have := h (k + 1) (by simpa using hk)
        rw [show a + 1 + k = a + (k + 1) by omega, this]; simp)]
  apply key
  intro k hk
  rw [Mem.get_store, if_pos (by omega)]
  congr 1; omega

/-! The canonical form -/

theorem Tbl.above_put (t : Tbl β) (k : Nat) (v : β) (x : Nat) (h : Tbl.above t x = true) (hx : x < k) :
    Tbl.above (Tbl.put t k v) x = true := by
  induction t generalizing x with
  | nil => simp [Tbl.put, Tbl.above, hx]
  | cons e t ih =>
    obtain ⟨a, b⟩ := e
    simp only [Tbl.above, Bool.and_eq_true, decide_eq_true_eq] at h
    simp only [Tbl.put]
    split
    · simp [Tbl.above, hx, h.2]; omega
    · split
      · subst_vars; simp [Tbl.above, hx, h.2]
      · simp [Tbl.above, h.1]; exact ih a h.2 (by omega)

theorem Tbl.above_mono (t : Tbl β) (x y : Nat) (h : Tbl.above t x = true) (hxy : y ≤ x) : Tbl.above t y = true := by
  cases t with
  | nil => rfl
  | cons e t =>
    simp only [Tbl.above, Bool.and_eq_true, decide_eq_true_eq] at h ⊢
    exact ⟨by omega, h.2⟩

theorem Tbl.above_del (t : Tbl β) (k x : Nat) (h : Tbl.above t x = true) : Tbl.above (Tbl.del t k) x = true := by
  induction t generalizing x with
  | nil => rfl
  | cons e t ih =>
    obtain ⟨a, b⟩ := e
    simp only [Tbl.above, Bool.and_eq_true, decide_eq_true_eq] at h
    simp only [Tbl.del]
    split
    · exact ih x (Tbl.above_mono t a x h.2 (by omega))
    · simp only [Tbl.above, Bool.and_eq_true, decide_eq_true_eq]; exact ⟨h.1, ih a h.2⟩

theorem Tbl.rising_put (t : Tbl β) (k : Nat) (v : β) (h : Tbl.rising t = true) : Tbl.rising (Tbl.put t k v) = true := by
  cases t with
  | nil => rfl
  | cons e t =>
    obtain ⟨a, b⟩ := e
    simp only [Tbl.rising] at h
    simp only [Tbl.put]
    split
    · simp [Tbl.rising, Tbl.above, h]; omega
    · split
      · subst_vars; exact h
      · exact Tbl.above_put t k v a h (by omega)

theorem Tbl.rising_of_above (t : Tbl β) (x : Nat) (h : Tbl.above t x = true) : Tbl.rising t = true := by
  cases t with
  | nil => rfl
  | cons e t => simp only [Tbl.above, Bool.and_eq_true] at h; exact h.2

theorem Tbl.rising_del (t : Tbl β) (k : Nat) (h : Tbl.rising t = true) : Tbl.rising (Tbl.del t k) = true := by
  induction t with
  | nil => rfl
  | cons e t ih =>
    obtain ⟨a, b⟩ := e
    simp only [Tbl.del]
    split
    · exact ih (Tbl.rising_of_above t a h)
    · exact Tbl.above_del t k a h

theorem Tbl.rising_set [DecidableEq β] (d : β) (t : Tbl β) (k : Nat) (v : β) (h : Tbl.rising t = true) :
    Tbl.rising (Tbl.set d t k v) = true := by
  unfold Tbl.set; split
  · exact Tbl.rising_del t k h
  · exact Tbl.rising_put t k v h

theorem Tbl.mem_put (t : Tbl β) (k : Nat) (v : β) (e : Nat × β) (h : e ∈ Tbl.put t k v) : e = (k, v) ∨ e ∈ t := by
  induction t with
  | nil => simp [Tbl.put] at h; exact .inl h
  | cons f t ih =>
    obtain ⟨a, b⟩ := f
    simp only [Tbl.put] at h
    split at h
    · exact List.mem_cons.1 h
    · split at h
      · rcases List.mem_cons.1 h with h | h
        · exact .inl h
        · exact .inr (List.mem_cons_of_mem _ h)
      · rcases List.mem_cons.1 h with h | h
        · exact .inr (h ▸ List.mem_cons_self)
        · exact (ih h).imp id (List.mem_cons_of_mem _)

theorem Tbl.mem_del (t : Tbl β) (k : Nat) (e : Nat × β) (h : e ∈ Tbl.del t k) : e ∈ t := by
  induction t with
  | nil => simp [Tbl.del] at h
  | cons f t ih =>
    obtain ⟨a, b⟩ := f
    simp only [Tbl.del] at h
    split at h
    · exact List.mem_cons_of_mem _ (ih h)
    · rcases List.mem_cons.1 h with h | h
      · exact h ▸ List.mem_cons_self
      · exact List.mem_cons_of_mem _ (ih h)

/-- Writing a byte keeps the canonical form. -/
theorem Mem.wf_put (m : Mem) (a : Nat) (b : Byte) (h : m.wf = true) : (m.put a b).wf = true := by
  simp only [Mem.wf, Bool.and_eq_true, List.all_eq_true, decide_eq_true_eq] at h ⊢
  unfold Mem.put
  split
  · exact ⟨Tbl.rising_del m a h.1, fun e he => h.2 e (Tbl.mem_del m a e he)⟩
  · refine ⟨Tbl.rising_put m a b h.1, fun e he => ?_⟩
    rcases Tbl.mem_put m a b e he with rfl | he
    · assumption
    · exact h.2 e he

/-- Storing bytes keeps the canonical form. -/
theorem Mem.wf_store (m : Mem) (a : Nat) (bs : List Byte) (h : m.wf = true) : (m.store a bs).wf = true := by
  induction bs generalizing m a with
  | nil => exact h
  | cons b t ih => exact ih _ _ (Mem.wf_put m a b h)

theorem Mem.wf_setNum (m : Mem) (a n v : Nat) (h : m.wf = true) : (m.setNum a n v).wf = true := Mem.wf_store m a _ h

/-- A memory that is a part of a canonical one is canonical. -/
theorem Tbl.above_filter (p : Nat × β → Bool) (t : Tbl β) (x : Nat) (h : Tbl.above t x = true) :
    Tbl.above (t.filter p) x = true := by
  induction t generalizing x with
  | nil => rfl
  | cons e t ih =>
    simp only [Tbl.above, Bool.and_eq_true, decide_eq_true_eq] at h
    simp only [List.filter_cons]
    split
    · simp only [Tbl.above, Bool.and_eq_true, decide_eq_true_eq]; exact ⟨h.1, ih _ h.2⟩
    · exact ih x (Tbl.above_mono t e.1 x h.2 (by omega))

theorem Mem.wf_filter (m : Mem) (p : Nat × Byte → Bool) (h : m.wf = true) : Mem.wf (m.filter p) = true := by
  simp only [Mem.wf, Bool.and_eq_true, List.all_eq_true, decide_eq_true_eq] at h ⊢
  refine ⟨?_, fun e he => h.2 e ((List.mem_filter.1 he).1)⟩
  cases m with
  | nil => rfl
  | cons e t =>
    simp only [List.filter_cons]
    split
    · exact Tbl.above_filter p t e.1 h.1
    · exact Tbl.rising_of_above _ e.1 (Tbl.above_filter p t e.1 h.1)

/-- Two canonical memories that read alike are equal. -/
theorem Mem.ext (m m' : Mem) (h : m.wf = true) (h' : m'.wf = true) (e : ∀ x, m.get x = m'.get x) : m = m' := by
  have low : ∀ (t : Mem) (a x : Nat), Tbl.above t a = true → x ≤ a → Mem.get t x = Mem.blank := by
    intro t
    induction t with
    | nil => intro a x _ _; rfl
    | cons e t ih =>
      intro a x ha hx
      simp only [Tbl.above, Bool.and_eq_true, decide_eq_true_eq] at ha
      simp only [Mem.get, Tbl.get]
      rw [if_neg (by omega)]
      exact ih e.1 x ha.2 (by omega)
  induction m generalizing m' with
  | nil =>
    cases m' with
    | nil => rfl
    | cons f t =>
      have := e f.1
      simp [Mem.get, Tbl.get] at this
      simp [Mem.wf] at h'
      exact absurd this.symm h'.2.1
  | cons f t ih =>
    simp only [Mem.wf, Tbl.rising, List.all_cons, Bool.and_eq_true, decide_eq_true_eq] at h
    cases m' with
    | nil =>
      have := e f.1
      simp [Mem.get, Tbl.get] at this
      exact absurd this h.2.1
    | cons g t' =>
      simp only [Mem.wf, Tbl.rising, List.all_cons, Bool.and_eq_true, decide_eq_true_eq] at h'
      have hfg : f.1 = g.1 := by
        rcases Nat.lt_trichotomy f.1 g.1 with hl | hl | hl
        · have := e f.1
          simp only [Mem.get, Tbl.get, if_true] at this
          rw [if_neg (by omega)] at this
          exact absurd (this.trans (low t' g.1 f.1 h'.1 (by omega))) h.2.1
        · exact hl
        · have := e g.1
          simp only [Mem.get, Tbl.get, if_true] at this
          rw [if_neg (by omega)] at this
          exact absurd (this.symm.trans (low t f.1 g.1 h.1 (by omega))) h'.2.1
      have hv : f.2 = g.2 := by
        have := e f.1
        simpa [Mem.get, Tbl.get, hfg] using this
      have ht : t = t' := by
        apply ih t'
        · simp [Mem.wf, Tbl.rising_of_above _ _ h.1]; simpa using h.2.2
        · simp [Mem.wf, Tbl.rising_of_above _ _ h'.1]; simpa using h'.2.2
        · intro x
          rcases Nat.lt_trichotomy x f.1 with hl | hl | hl
          · rw [low t f.1 x h.1 (by omega), low t' g.1 x h'.1 (by omega)]
          · rw [low t f.1 x h.1 (by omega), low t' g.1 x h'.1 (by omega)]
          · have := e x
            simp only [Mem.get, Tbl.get] at this
            rwa [if_neg (by omega), if_neg (by omega)] at this
      rw [ht, show f = g from Prod.ext hfg hv]

end Sys2Proof
end

