-- ==== Sys2Proof/Laws/State.lean ====
section
/-! SUPPORT. The updates of the state by name, field by field: what each leaves as it was, true by `rfl`; and reading a
slot, a core or a context back after one was set. -/

namespace Sys2Proof.Machine
open Sys2Proof

@[simp] theorem State.setSlot_agenda (s : State) (u : Nat) (x : Slot) : (s.setSlot u x).agenda = s.agenda := rfl
@[simp] theorem State.setSlot_mate (s : State) (u : Nat) (x : Slot) : (s.setSlot u x).mate = s.mate := rfl
@[simp] theorem State.setSlot_rank (s : State) (u : Nat) (x : Slot) : (s.setSlot u x).rank = s.rank := rfl
@[simp] theorem State.setSlot_rankAt (s : State) (u : Nat) (x : Slot) : (s.setSlot u x).rankAt = s.rankAt := rfl
@[simp] theorem State.setSlot_tick (s : State) (u : Nat) (x : Slot) : (s.setSlot u x).tick = s.tick := rfl
@[simp] theorem State.setSlot_cur (s : State) (u : Nat) (x : Slot) : (s.setSlot u x).cur = s.cur := rfl
@[simp] theorem State.setSlot_occ (s : State) (u : Nat) (x : Slot) : (s.setSlot u x).occ = s.occ := rfl
@[simp] theorem State.setSlot_clock (s : State) (u : Nat) (x : Slot) : (s.setSlot u x).clock = s.clock := rfl
@[simp] theorem State.setSlot_cores (s : State) (u : Nat) (x : Slot) : (s.setSlot u x).cores = s.cores := rfl
@[simp] theorem State.setSlot_arrays (s : State) (u : Nat) (x : Slot) : (s.setSlot u x).arrays = s.arrays := rfl
@[simp] theorem State.setSlot_dram (s : State) (u : Nat) (x : Slot) : (s.setSlot u x).dram = s.dram := rfl
@[simp] theorem State.setSlot_host (s : State) (u : Nat) (x : Slot) : (s.setSlot u x).host = s.host := rfl
@[simp] theorem State.setSlot_slices (s : State) (u : Nat) (x : Slot) : (s.setSlot u x).slices = s.slices := rfl
@[simp] theorem State.setSlot_nsm (s : State) (u : Nat) (x : Slot) : (s.setSlot u x).nsm = s.nsm := rfl
@[simp] theorem State.setSlot_nsmGen (s : State) (u : Nat) (x : Slot) : (s.setSlot u x).nsmGen = s.nsmGen := rfl
@[simp] theorem State.setSlot_stale (s : State) (u : Nat) (x : Slot) : (s.setSlot u x).stale = s.stale := rfl
@[simp] theorem State.setSlot_dead (s : State) (u : Nat) (x : Slot) : (s.setSlot u x).dead = s.dead := rfl
@[simp] theorem State.setSlot_ctxs (s : State) (u : Nat) (x : Slot) : (s.setSlot u x).ctxs = s.ctxs := rfl
@[simp] theorem State.setSlot_runs (s : State) (u : Nat) (x : Slot) : (s.setSlot u x).runs = s.runs := rfl
@[simp] theorem State.setSlot_nextRun (s : State) (u : Nat) (x : Slot) : (s.setSlot u x).nextRun = s.nextRun := rfl
@[simp] theorem State.setSlot_segs (s : State) (u : Nat) (x : Slot) : (s.setSlot u x).segs = s.segs := rfl
@[simp] theorem State.setSlot_resident (s : State) (u : Nat) (x : Slot) : (s.setSlot u x).resident = s.resident := rfl
@[simp] theorem State.setSlot_rrCtx (s : State) (u : Nat) (x : Slot) : (s.setSlot u x).rrCtx = s.rrCtx := rfl
@[simp] theorem State.setSlot_hidden (s : State) (u : Nat) (x : Slot) : (s.setSlot u x).hidden = s.hidden := rfl
@[simp] theorem State.setSlot_pipes (s : State) (u : Nat) (x : Slot) : (s.setSlot u x).pipes = s.pipes := rfl
@[simp] theorem State.setSlot_joins (s : State) (u : Nat) (x : Slot) : (s.setSlot u x).joins = s.joins := rfl
@[simp] theorem State.setSlot_walks (s : State) (u : Nat) (x : Slot) : (s.setSlot u x).walks = s.walks := rfl
@[simp] theorem State.setSlot_nextWalk (s : State) (u : Nat) (x : Slot) : (s.setSlot u x).nextWalk = s.nextWalk := rfl
@[simp] theorem State.setSlot_stalls (s : State) (u : Nat) (x : Slot) : (s.setSlot u x).stalls = s.stalls := rfl
@[simp] theorem State.setSlot_fab (s : State) (u : Nat) (x : Slot) : (s.setSlot u x).fab = s.fab := rfl
@[simp] theorem State.setSlot_hub (s : State) (u : Nat) (x : Slot) : (s.setSlot u x).hub = s.hub := rfl

@[simp] theorem State.setCore_agenda (s : State) (u : Nat) (x : CoreSt) : (s.setCore u x).agenda = s.agenda := rfl
@[simp] theorem State.setCore_mate (s : State) (u : Nat) (x : CoreSt) : (s.setCore u x).mate = s.mate := rfl
@[simp] theorem State.setCore_rank (s : State) (u : Nat) (x : CoreSt) : (s.setCore u x).rank = s.rank := rfl
@[simp] theorem State.setCore_rankAt (s : State) (u : Nat) (x : CoreSt) : (s.setCore u x).rankAt = s.rankAt := rfl
@[simp] theorem State.setCore_tick (s : State) (u : Nat) (x : CoreSt) : (s.setCore u x).tick = s.tick := rfl
@[simp] theorem State.setCore_cur (s : State) (u : Nat) (x : CoreSt) : (s.setCore u x).cur = s.cur := rfl
@[simp] theorem State.setCore_occ (s : State) (u : Nat) (x : CoreSt) : (s.setCore u x).occ = s.occ := rfl
@[simp] theorem State.setCore_clock (s : State) (u : Nat) (x : CoreSt) : (s.setCore u x).clock = s.clock := rfl
@[simp] theorem State.setCore_slots (s : State) (u : Nat) (x : CoreSt) : (s.setCore u x).slots = s.slots := rfl
@[simp] theorem State.setCore_arrays (s : State) (u : Nat) (x : CoreSt) : (s.setCore u x).arrays = s.arrays := rfl
@[simp] theorem State.setCore_dram (s : State) (u : Nat) (x : CoreSt) : (s.setCore u x).dram = s.dram := rfl
@[simp] theorem State.setCore_host (s : State) (u : Nat) (x : CoreSt) : (s.setCore u x).host = s.host := rfl
@[simp] theorem State.setCore_slices (s : State) (u : Nat) (x : CoreSt) : (s.setCore u x).slices = s.slices := rfl
@[simp] theorem State.setCore_nsm (s : State) (u : Nat) (x : CoreSt) : (s.setCore u x).nsm = s.nsm := rfl
@[simp] theorem State.setCore_nsmGen (s : State) (u : Nat) (x : CoreSt) : (s.setCore u x).nsmGen = s.nsmGen := rfl
@[simp] theorem State.setCore_stale (s : State) (u : Nat) (x : CoreSt) : (s.setCore u x).stale = s.stale := rfl
@[simp] theorem State.setCore_dead (s : State) (u : Nat) (x : CoreSt) : (s.setCore u x).dead = s.dead := rfl
@[simp] theorem State.setCore_ctxs (s : State) (u : Nat) (x : CoreSt) : (s.setCore u x).ctxs = s.ctxs := rfl
@[simp] theorem State.setCore_runs (s : State) (u : Nat) (x : CoreSt) : (s.setCore u x).runs = s.runs := rfl
@[simp] theorem State.setCore_nextRun (s : State) (u : Nat) (x : CoreSt) : (s.setCore u x).nextRun = s.nextRun := rfl
@[simp] theorem State.setCore_segs (s : State) (u : Nat) (x : CoreSt) : (s.setCore u x).segs = s.segs := rfl
@[simp] theorem State.setCore_resident (s : State) (u : Nat) (x : CoreSt) : (s.setCore u x).resident = s.resident := rfl
@[simp] theorem State.setCore_rrCtx (s : State) (u : Nat) (x : CoreSt) : (s.setCore u x).rrCtx = s.rrCtx := rfl
@[simp] theorem State.setCore_hidden (s : State) (u : Nat) (x : CoreSt) : (s.setCore u x).hidden = s.hidden := rfl
@[simp] theorem State.setCore_pipes (s : State) (u : Nat) (x : CoreSt) : (s.setCore u x).pipes = s.pipes := rfl
@[simp] theorem State.setCore_joins (s : State) (u : Nat) (x : CoreSt) : (s.setCore u x).joins = s.joins := rfl
@[simp] theorem State.setCore_walks (s : State) (u : Nat) (x : CoreSt) : (s.setCore u x).walks = s.walks := rfl
@[simp] theorem State.setCore_nextWalk (s : State) (u : Nat) (x : CoreSt) : (s.setCore u x).nextWalk = s.nextWalk := rfl
@[simp] theorem State.setCore_stalls (s : State) (u : Nat) (x : CoreSt) : (s.setCore u x).stalls = s.stalls := rfl
@[simp] theorem State.setCore_fab (s : State) (u : Nat) (x : CoreSt) : (s.setCore u x).fab = s.fab := rfl
@[simp] theorem State.setCore_hub (s : State) (u : Nat) (x : CoreSt) : (s.setCore u x).hub = s.hub := rfl

@[simp] theorem State.setArr_agenda (s : State) (u : Nat) (x : Arr) : (s.setArr u x).agenda = s.agenda := rfl
@[simp] theorem State.setArr_mate (s : State) (u : Nat) (x : Arr) : (s.setArr u x).mate = s.mate := rfl
@[simp] theorem State.setArr_rank (s : State) (u : Nat) (x : Arr) : (s.setArr u x).rank = s.rank := rfl
@[simp] theorem State.setArr_rankAt (s : State) (u : Nat) (x : Arr) : (s.setArr u x).rankAt = s.rankAt := rfl
@[simp] theorem State.setArr_tick (s : State) (u : Nat) (x : Arr) : (s.setArr u x).tick = s.tick := rfl
@[simp] theorem State.setArr_cur (s : State) (u : Nat) (x : Arr) : (s.setArr u x).cur = s.cur := rfl
@[simp] theorem State.setArr_occ (s : State) (u : Nat) (x : Arr) : (s.setArr u x).occ = s.occ := rfl
@[simp] theorem State.setArr_clock (s : State) (u : Nat) (x : Arr) : (s.setArr u x).clock = s.clock := rfl
@[simp] theorem State.setArr_slots (s : State) (u : Nat) (x : Arr) : (s.setArr u x).slots = s.slots := rfl
@[simp] theorem State.setArr_cores (s : State) (u : Nat) (x : Arr) : (s.setArr u x).cores = s.cores := rfl
@[simp] theorem State.setArr_dram (s : State) (u : Nat) (x : Arr) : (s.setArr u x).dram = s.dram := rfl
@[simp] theorem State.setArr_host (s : State) (u : Nat) (x : Arr) : (s.setArr u x).host = s.host := rfl
@[simp] theorem State.setArr_slices (s : State) (u : Nat) (x : Arr) : (s.setArr u x).slices = s.slices := rfl
@[simp] theorem State.setArr_nsm (s : State) (u : Nat) (x : Arr) : (s.setArr u x).nsm = s.nsm := rfl
@[simp] theorem State.setArr_nsmGen (s : State) (u : Nat) (x : Arr) : (s.setArr u x).nsmGen = s.nsmGen := rfl
@[simp] theorem State.setArr_stale (s : State) (u : Nat) (x : Arr) : (s.setArr u x).stale = s.stale := rfl
@[simp] theorem State.setArr_dead (s : State) (u : Nat) (x : Arr) : (s.setArr u x).dead = s.dead := rfl
@[simp] theorem State.setArr_ctxs (s : State) (u : Nat) (x : Arr) : (s.setArr u x).ctxs = s.ctxs := rfl
@[simp] theorem State.setArr_runs (s : State) (u : Nat) (x : Arr) : (s.setArr u x).runs = s.runs := rfl
@[simp] theorem State.setArr_nextRun (s : State) (u : Nat) (x : Arr) : (s.setArr u x).nextRun = s.nextRun := rfl
@[simp] theorem State.setArr_segs (s : State) (u : Nat) (x : Arr) : (s.setArr u x).segs = s.segs := rfl
@[simp] theorem State.setArr_resident (s : State) (u : Nat) (x : Arr) : (s.setArr u x).resident = s.resident := rfl
@[simp] theorem State.setArr_rrCtx (s : State) (u : Nat) (x : Arr) : (s.setArr u x).rrCtx = s.rrCtx := rfl
@[simp] theorem State.setArr_hidden (s : State) (u : Nat) (x : Arr) : (s.setArr u x).hidden = s.hidden := rfl
@[simp] theorem State.setArr_pipes (s : State) (u : Nat) (x : Arr) : (s.setArr u x).pipes = s.pipes := rfl
@[simp] theorem State.setArr_joins (s : State) (u : Nat) (x : Arr) : (s.setArr u x).joins = s.joins := rfl
@[simp] theorem State.setArr_walks (s : State) (u : Nat) (x : Arr) : (s.setArr u x).walks = s.walks := rfl
@[simp] theorem State.setArr_nextWalk (s : State) (u : Nat) (x : Arr) : (s.setArr u x).nextWalk = s.nextWalk := rfl
@[simp] theorem State.setArr_stalls (s : State) (u : Nat) (x : Arr) : (s.setArr u x).stalls = s.stalls := rfl
@[simp] theorem State.setArr_fab (s : State) (u : Nat) (x : Arr) : (s.setArr u x).fab = s.fab := rfl
@[simp] theorem State.setArr_hub (s : State) (u : Nat) (x : Arr) : (s.setArr u x).hub = s.hub := rfl

@[simp] theorem State.setCtx_agenda (s : State) (u : Nat) (x : Ctx) : (s.setCtx u x).agenda = s.agenda := rfl
@[simp] theorem State.setCtx_mate (s : State) (u : Nat) (x : Ctx) : (s.setCtx u x).mate = s.mate := rfl
@[simp] theorem State.setCtx_rank (s : State) (u : Nat) (x : Ctx) : (s.setCtx u x).rank = s.rank := rfl
@[simp] theorem State.setCtx_rankAt (s : State) (u : Nat) (x : Ctx) : (s.setCtx u x).rankAt = s.rankAt := rfl
@[simp] theorem State.setCtx_tick (s : State) (u : Nat) (x : Ctx) : (s.setCtx u x).tick = s.tick := rfl
@[simp] theorem State.setCtx_cur (s : State) (u : Nat) (x : Ctx) : (s.setCtx u x).cur = s.cur := rfl
@[simp] theorem State.setCtx_occ (s : State) (u : Nat) (x : Ctx) : (s.setCtx u x).occ = s.occ := rfl
@[simp] theorem State.setCtx_clock (s : State) (u : Nat) (x : Ctx) : (s.setCtx u x).clock = s.clock := rfl
@[simp] theorem State.setCtx_slots (s : State) (u : Nat) (x : Ctx) : (s.setCtx u x).slots = s.slots := rfl
@[simp] theorem State.setCtx_cores (s : State) (u : Nat) (x : Ctx) : (s.setCtx u x).cores = s.cores := rfl
@[simp] theorem State.setCtx_arrays (s : State) (u : Nat) (x : Ctx) : (s.setCtx u x).arrays = s.arrays := rfl
@[simp] theorem State.setCtx_dram (s : State) (u : Nat) (x : Ctx) : (s.setCtx u x).dram = s.dram := rfl
@[simp] theorem State.setCtx_host (s : State) (u : Nat) (x : Ctx) : (s.setCtx u x).host = s.host := rfl
@[simp] theorem State.setCtx_slices (s : State) (u : Nat) (x : Ctx) : (s.setCtx u x).slices = s.slices := rfl
@[simp] theorem State.setCtx_nsm (s : State) (u : Nat) (x : Ctx) : (s.setCtx u x).nsm = s.nsm := rfl
@[simp] theorem State.setCtx_nsmGen (s : State) (u : Nat) (x : Ctx) : (s.setCtx u x).nsmGen = s.nsmGen := rfl
@[simp] theorem State.setCtx_stale (s : State) (u : Nat) (x : Ctx) : (s.setCtx u x).stale = s.stale := rfl
@[simp] theorem State.setCtx_dead (s : State) (u : Nat) (x : Ctx) : (s.setCtx u x).dead = s.dead := rfl
@[simp] theorem State.setCtx_runs (s : State) (u : Nat) (x : Ctx) : (s.setCtx u x).runs = s.runs := rfl
@[simp] theorem State.setCtx_nextRun (s : State) (u : Nat) (x : Ctx) : (s.setCtx u x).nextRun = s.nextRun := rfl
@[simp] theorem State.setCtx_segs (s : State) (u : Nat) (x : Ctx) : (s.setCtx u x).segs = s.segs := rfl
@[simp] theorem State.setCtx_resident (s : State) (u : Nat) (x : Ctx) : (s.setCtx u x).resident = s.resident := rfl
@[simp] theorem State.setCtx_rrCtx (s : State) (u : Nat) (x : Ctx) : (s.setCtx u x).rrCtx = s.rrCtx := rfl
@[simp] theorem State.setCtx_hidden (s : State) (u : Nat) (x : Ctx) : (s.setCtx u x).hidden = s.hidden := rfl
@[simp] theorem State.setCtx_pipes (s : State) (u : Nat) (x : Ctx) : (s.setCtx u x).pipes = s.pipes := rfl
@[simp] theorem State.setCtx_joins (s : State) (u : Nat) (x : Ctx) : (s.setCtx u x).joins = s.joins := rfl
@[simp] theorem State.setCtx_walks (s : State) (u : Nat) (x : Ctx) : (s.setCtx u x).walks = s.walks := rfl
@[simp] theorem State.setCtx_nextWalk (s : State) (u : Nat) (x : Ctx) : (s.setCtx u x).nextWalk = s.nextWalk := rfl
@[simp] theorem State.setCtx_stalls (s : State) (u : Nat) (x : Ctx) : (s.setCtx u x).stalls = s.stalls := rfl
@[simp] theorem State.setCtx_fab (s : State) (u : Nat) (x : Ctx) : (s.setCtx u x).fab = s.fab := rfl
@[simp] theorem State.setCtx_hub (s : State) (u : Nat) (x : Ctx) : (s.setCtx u x).hub = s.hub := rfl

@[simp] theorem Slot.setPhys_task (sl : Slot) (n : Nat) (v : Word) : (sl.setPhys n v).task = sl.task := rfl
@[simp] theorem Slot.setPhys_node (sl : Slot) (n : Nat) (v : Word) : (sl.setPhys n v).node = sl.node := rfl
@[simp] theorem Slot.setPhys_gang (sl : Slot) (n : Nat) (v : Word) : (sl.setPhys n v).gang = sl.gang := rfl
@[simp] theorem Slot.setPhys_hold (sl : Slot) (n : Nat) (v : Word) : (sl.setPhys n v).hold = sl.hold := rfl
@[simp] theorem Slot.setPhys_pc (sl : Slot) (n : Nat) (v : Word) : (sl.setPhys n v).pc = sl.pc := rfl
@[simp] theorem Slot.setPhys_image (sl : Slot) (n : Nat) (v : Word) : (sl.setPhys n v).image = sl.image := rfl
@[simp] theorem Slot.setPhys_seqLen (sl : Slot) (n : Nat) (v : Word) : (sl.setPhys n v).seqLen = sl.seqLen := rfl
@[simp] theorem Slot.setPhys_mask (sl : Slot) (n : Nat) (v : Word) : (sl.setPhys n v).mask = sl.mask := rfl
@[simp] theorem Slot.setPhys_overlay (sl : Slot) (n : Nat) (v : Word) : (sl.setPhys n v).overlay = sl.overlay := rfl
@[simp] theorem Slot.setPhys_preds (sl : Slot) (n : Nat) (v : Word) : (sl.setPhys n v).preds = sl.preds := rfl
@[simp] theorem Slot.setPhys_estage (sl : Slot) (n : Nat) (v : Word) : (sl.setPhys n v).estage = sl.estage := rfl
@[simp] theorem Slot.setPhys_loops (sl : Slot) (n : Nat) (v : Word) : (sl.setPhys n v).loops = sl.loops := rfl
@[simp] theorem Slot.setPhys_pend (sl : Slot) (n : Nat) (v : Word) : (sl.setPhys n v).pend = sl.pend := rfl
@[simp] theorem Slot.setPhys_nextIssue (sl : Slot) (n : Nat) (v : Word) : (sl.setPhys n v).nextIssue = sl.nextIssue := rfl
@[simp] theorem Slot.setPhys_pfx (sl : Slot) (n : Nat) (v : Word) : (sl.setPhys n v).pfx = sl.pfx := rfl
@[simp] theorem Slot.setPhys_pfxPc (sl : Slot) (n : Nat) (v : Word) : (sl.setPhys n v).pfxPc = sl.pfxPc := rfl
@[simp] theorem Slot.setPhys_npc (sl : Slot) (n : Nat) (v : Word) : (sl.setPhys n v).npc = sl.npc := rfl
@[simp] theorem Slot.setPhys_latch (sl : Slot) (n : Nat) (v : Word) : (sl.setPhys n v).latch = sl.latch := rfl
@[simp] theorem Slot.setPhys_latchWord (sl : Slot) (n : Nat) (v : Word) : (sl.setPhys n v).latchWord = sl.latchWord := rfl
@[simp] theorem Slot.setPhys_inHand (sl : Slot) (n : Nat) (v : Word) : (sl.setPhys n v).inHand = sl.inHand := rfl
@[simp] theorem Slot.setPhys_closing (sl : Slot) (n : Nat) (v : Word) : (sl.setPhys n v).closing = sl.closing := rfl
@[simp] theorem Slot.setPhys_acks (sl : Slot) (n : Nat) (v : Word) : (sl.setPhys n v).acks = sl.acks := rfl
@[simp] theorem Slot.setPhys_faults (sl : Slot) (n : Nat) (v : Word) : (sl.setPhys n v).faults = sl.faults := rfl
@[simp] theorem Slot.setPhys_faultAt (sl : Slot) (n : Nat) (v : Word) : (sl.setPhys n v).faultAt = sl.faultAt := rfl
@[simp] theorem Slot.setPhys_owed (sl : Slot) (n : Nat) (v : Word) : (sl.setPhys n v).owed = sl.owed := rfl
@[simp] theorem Slot.setPhys_csr (sl : Slot) (n : Nat) (v : Word) : (sl.setPhys n v).csr = sl.csr := rfl
@[simp] theorem Slot.setPhys_sems (sl : Slot) (n : Nat) (v : Word) : (sl.setPhys n v).sems = sl.sems := rfl
@[simp] theorem Slot.setPhys_tls (sl : Slot) (n : Nat) (v : Word) : (sl.setPhys n v).tls = sl.tls := rfl
@[simp] theorem Slot.setPhys_bars (sl : Slot) (n : Nat) (v : Word) : (sl.setPhys n v).bars = sl.bars := rfl
@[simp] theorem Slot.setPhys_chans (sl : Slot) (n : Nat) (v : Word) : (sl.setPhys n v).chans = sl.chans := rfl
@[simp] theorem Slot.setPhys_sched (sl : Slot) (n : Nat) (v : Word) : (sl.setPhys n v).sched = sl.sched := rfl
@[simp] theorem Slot.setPhys_rings (sl : Slot) (n : Nat) (v : Word) : (sl.setPhys n v).rings = sl.rings := rfl
@[simp] theorem Slot.setPhys_crings (sl : Slot) (n : Nat) (v : Word) : (sl.setPhys n v).crings = sl.crings := rfl
@[simp] theorem Slot.setPhys_alloc (sl : Slot) (n : Nat) (v : Word) : (sl.setPhys n v).alloc = sl.alloc := rfl
@[simp] theorem Slot.setPhys_region (sl : Slot) (n : Nat) (v : Word) : (sl.setPhys n v).region = sl.region := rfl
@[simp] theorem Slot.setPhys_opened (sl : Slot) (n : Nat) (v : Word) : (sl.setPhys n v).opened = sl.opened := rfl
@[simp] theorem Slot.setPhys_closed (sl : Slot) (n : Nat) (v : Word) : (sl.setPhys n v).closed = sl.closed := rfl
@[simp] theorem Slot.setPhys_sent (sl : Slot) (n : Nat) (v : Word) : (sl.setPhys n v).sent = sl.sent := rfl
@[simp] theorem Slot.setPhys_eng (sl : Slot) (n : Nat) (v : Word) : (sl.setPhys n v).eng = sl.eng := rfl
@[simp] theorem Slot.setPhys_drain (sl : Slot) (n : Nat) (v : Word) : (sl.setPhys n v).drain = sl.drain := rfl
@[simp] theorem Slot.setPhys_engNext (sl : Slot) (n : Nat) (v : Word) : (sl.setPhys n v).engNext = sl.engNext := rfl
@[simp] theorem Slot.setPhys_clocks (sl : Slot) (n : Nat) (v : Word) : (sl.setPhys n v).clocks = sl.clocks := rfl
@[simp] theorem Slot.setPhys_since (sl : Slot) (n : Nat) (v : Word) : (sl.setPhys n v).since = sl.since := rfl
@[simp] theorem Slot.setPhys_lastTime (sl : Slot) (n : Nat) (v : Word) : (sl.setPhys n v).lastTime = sl.lastTime := rfl
@[simp] theorem Slot.setPhys_causes (sl : Slot) (n : Nat) (v : Word) : (sl.setPhys n v).causes = sl.causes := rfl
@[simp] theorem Slot.setPhys_bkpt (sl : Slot) (n : Nat) (v : Word) : (sl.setPhys n v).bkpt = sl.bkpt := rfl
@[simp] theorem Slot.setPhys_sends (sl : Slot) (n : Nat) (v : Word) : (sl.setPhys n v).sends = sl.sends := rfl
@[simp] theorem Slot.setPhys_tags (sl : Slot) (n : Nat) (v : Word) : (sl.setPhys n v).tags = sl.tags := rfl
@[simp] theorem Slot.setPhys_wm (sl : Slot) (n : Nat) (v : Word) : (sl.setPhys n v).wm = sl.wm := rfl
@[simp] theorem Slot.setPhys_kept (sl : Slot) (n : Nat) (v : Word) : (sl.setPhys n v).kept = sl.kept := rfl
@[simp] theorem Slot.setPhys_accIdx (sl : Slot) (n : Nat) (v : Word) : (sl.setPhys n v).accIdx = sl.accIdx := rfl
@[simp] theorem Slot.setPhys_keptOqs (sl : Slot) (n : Nat) (v : Word) : (sl.setPhys n v).keptOqs = sl.keptOqs := rfl
@[simp] theorem Slot.setPhys_block (sl : Slot) (n : Nat) (v : Word) : (sl.setPhys n v).block = sl.block := rfl

@[simp] theorem Slot.modCsr_task (sl : Slot) (f : Csrs → Csrs) : (sl.modCsr f).task = sl.task := rfl
@[simp] theorem Slot.modCsr_node (sl : Slot) (f : Csrs → Csrs) : (sl.modCsr f).node = sl.node := rfl
@[simp] theorem Slot.modCsr_gang (sl : Slot) (f : Csrs → Csrs) : (sl.modCsr f).gang = sl.gang := rfl
@[simp] theorem Slot.modCsr_hold (sl : Slot) (f : Csrs → Csrs) : (sl.modCsr f).hold = sl.hold := rfl
@[simp] theorem Slot.modCsr_pc (sl : Slot) (f : Csrs → Csrs) : (sl.modCsr f).pc = sl.pc := rfl
@[simp] theorem Slot.modCsr_image (sl : Slot) (f : Csrs → Csrs) : (sl.modCsr f).image = sl.image := rfl
@[simp] theorem Slot.modCsr_seqLen (sl : Slot) (f : Csrs → Csrs) : (sl.modCsr f).seqLen = sl.seqLen := rfl
@[simp] theorem Slot.modCsr_mask (sl : Slot) (f : Csrs → Csrs) : (sl.modCsr f).mask = sl.mask := rfl
@[simp] theorem Slot.modCsr_overlay (sl : Slot) (f : Csrs → Csrs) : (sl.modCsr f).overlay = sl.overlay := rfl
@[simp] theorem Slot.modCsr_g (sl : Slot) (f : Csrs → Csrs) : (sl.modCsr f).g = sl.g := rfl
@[simp] theorem Slot.modCsr_preds (sl : Slot) (f : Csrs → Csrs) : (sl.modCsr f).preds = sl.preds := rfl
@[simp] theorem Slot.modCsr_estage (sl : Slot) (f : Csrs → Csrs) : (sl.modCsr f).estage = sl.estage := rfl
@[simp] theorem Slot.modCsr_loops (sl : Slot) (f : Csrs → Csrs) : (sl.modCsr f).loops = sl.loops := rfl
@[simp] theorem Slot.modCsr_pend (sl : Slot) (f : Csrs → Csrs) : (sl.modCsr f).pend = sl.pend := rfl
@[simp] theorem Slot.modCsr_nextIssue (sl : Slot) (f : Csrs → Csrs) : (sl.modCsr f).nextIssue = sl.nextIssue := rfl
@[simp] theorem Slot.modCsr_pfx (sl : Slot) (f : Csrs → Csrs) : (sl.modCsr f).pfx = sl.pfx := rfl
@[simp] theorem Slot.modCsr_pfxPc (sl : Slot) (f : Csrs → Csrs) : (sl.modCsr f).pfxPc = sl.pfxPc := rfl
@[simp] theorem Slot.modCsr_npc (sl : Slot) (f : Csrs → Csrs) : (sl.modCsr f).npc = sl.npc := rfl
@[simp] theorem Slot.modCsr_latch (sl : Slot) (f : Csrs → Csrs) : (sl.modCsr f).latch = sl.latch := rfl
@[simp] theorem Slot.modCsr_latchWord (sl : Slot) (f : Csrs → Csrs) : (sl.modCsr f).latchWord = sl.latchWord := rfl
@[simp] theorem Slot.modCsr_inHand (sl : Slot) (f : Csrs → Csrs) : (sl.modCsr f).inHand = sl.inHand := rfl
@[simp] theorem Slot.modCsr_closing (sl : Slot) (f : Csrs → Csrs) : (sl.modCsr f).closing = sl.closing := rfl
@[simp] theorem Slot.modCsr_acks (sl : Slot) (f : Csrs → Csrs) : (sl.modCsr f).acks = sl.acks := rfl
@[simp] theorem Slot.modCsr_faults (sl : Slot) (f : Csrs → Csrs) : (sl.modCsr f).faults = sl.faults := rfl
@[simp] theorem Slot.modCsr_faultAt (sl : Slot) (f : Csrs → Csrs) : (sl.modCsr f).faultAt = sl.faultAt := rfl
@[simp] theorem Slot.modCsr_owed (sl : Slot) (f : Csrs → Csrs) : (sl.modCsr f).owed = sl.owed := rfl
@[simp] theorem Slot.modCsr_sems (sl : Slot) (f : Csrs → Csrs) : (sl.modCsr f).sems = sl.sems := rfl
@[simp] theorem Slot.modCsr_tls (sl : Slot) (f : Csrs → Csrs) : (sl.modCsr f).tls = sl.tls := rfl
@[simp] theorem Slot.modCsr_bars (sl : Slot) (f : Csrs → Csrs) : (sl.modCsr f).bars = sl.bars := rfl
@[simp] theorem Slot.modCsr_chans (sl : Slot) (f : Csrs → Csrs) : (sl.modCsr f).chans = sl.chans := rfl
@[simp] theorem Slot.modCsr_sched (sl : Slot) (f : Csrs → Csrs) : (sl.modCsr f).sched = sl.sched := rfl
@[simp] theorem Slot.modCsr_rings (sl : Slot) (f : Csrs → Csrs) : (sl.modCsr f).rings = sl.rings := rfl
@[simp] theorem Slot.modCsr_crings (sl : Slot) (f : Csrs → Csrs) : (sl.modCsr f).crings = sl.crings := rfl
@[simp] theorem Slot.modCsr_alloc (sl : Slot) (f : Csrs → Csrs) : (sl.modCsr f).alloc = sl.alloc := rfl
@[simp] theorem Slot.modCsr_region (sl : Slot) (f : Csrs → Csrs) : (sl.modCsr f).region = sl.region := rfl
@[simp] theorem Slot.modCsr_opened (sl : Slot) (f : Csrs → Csrs) : (sl.modCsr f).opened = sl.opened := rfl
@[simp] theorem Slot.modCsr_closed (sl : Slot) (f : Csrs → Csrs) : (sl.modCsr f).closed = sl.closed := rfl
@[simp] theorem Slot.modCsr_sent (sl : Slot) (f : Csrs → Csrs) : (sl.modCsr f).sent = sl.sent := rfl
@[simp] theorem Slot.modCsr_eng (sl : Slot) (f : Csrs → Csrs) : (sl.modCsr f).eng = sl.eng := rfl
@[simp] theorem Slot.modCsr_drain (sl : Slot) (f : Csrs → Csrs) : (sl.modCsr f).drain = sl.drain := rfl
@[simp] theorem Slot.modCsr_engNext (sl : Slot) (f : Csrs → Csrs) : (sl.modCsr f).engNext = sl.engNext := rfl
@[simp] theorem Slot.modCsr_clocks (sl : Slot) (f : Csrs → Csrs) : (sl.modCsr f).clocks = sl.clocks := rfl
@[simp] theorem Slot.modCsr_since (sl : Slot) (f : Csrs → Csrs) : (sl.modCsr f).since = sl.since := rfl
@[simp] theorem Slot.modCsr_lastTime (sl : Slot) (f : Csrs → Csrs) : (sl.modCsr f).lastTime = sl.lastTime := rfl
@[simp] theorem Slot.modCsr_causes (sl : Slot) (f : Csrs → Csrs) : (sl.modCsr f).causes = sl.causes := rfl
@[simp] theorem Slot.modCsr_bkpt (sl : Slot) (f : Csrs → Csrs) : (sl.modCsr f).bkpt = sl.bkpt := rfl
@[simp] theorem Slot.modCsr_sends (sl : Slot) (f : Csrs → Csrs) : (sl.modCsr f).sends = sl.sends := rfl
@[simp] theorem Slot.modCsr_tags (sl : Slot) (f : Csrs → Csrs) : (sl.modCsr f).tags = sl.tags := rfl
@[simp] theorem Slot.modCsr_wm (sl : Slot) (f : Csrs → Csrs) : (sl.modCsr f).wm = sl.wm := rfl
@[simp] theorem Slot.modCsr_kept (sl : Slot) (f : Csrs → Csrs) : (sl.modCsr f).kept = sl.kept := rfl
@[simp] theorem Slot.modCsr_accIdx (sl : Slot) (f : Csrs → Csrs) : (sl.modCsr f).accIdx = sl.accIdx := rfl
@[simp] theorem Slot.modCsr_keptOqs (sl : Slot) (f : Csrs → Csrs) : (sl.modCsr f).keptOqs = sl.keptOqs := rfl
@[simp] theorem Slot.modCsr_block (sl : Slot) (f : Csrs → Csrs) : (sl.modCsr f).block = sl.block := rfl
@[simp] theorem Slot.modCsr_csr (sl : Slot) (f : Csrs → Csrs) : (sl.modCsr f).csr = f sl.csr := rfl

@[simp] theorem Slot.setSem_task (sl : Slot) (n v : Nat) : (sl.setSem n v).task = sl.task := rfl
@[simp] theorem Slot.setSem_node (sl : Slot) (n v : Nat) : (sl.setSem n v).node = sl.node := rfl
@[simp] theorem Slot.setSem_gang (sl : Slot) (n v : Nat) : (sl.setSem n v).gang = sl.gang := rfl
@[simp] theorem Slot.setSem_hold (sl : Slot) (n v : Nat) : (sl.setSem n v).hold = sl.hold := rfl
@[simp] theorem Slot.setSem_pc (sl : Slot) (n v : Nat) : (sl.setSem n v).pc = sl.pc := rfl
@[simp] theorem Slot.setSem_image (sl : Slot) (n v : Nat) : (sl.setSem n v).image = sl.image := rfl
@[simp] theorem Slot.setSem_seqLen (sl : Slot) (n v : Nat) : (sl.setSem n v).seqLen = sl.seqLen := rfl
@[simp] theorem Slot.setSem_mask (sl : Slot) (n v : Nat) : (sl.setSem n v).mask = sl.mask := rfl
@[simp] theorem Slot.setSem_overlay (sl : Slot) (n v : Nat) : (sl.setSem n v).overlay = sl.overlay := rfl
@[simp] theorem Slot.setSem_g (sl : Slot) (n v : Nat) : (sl.setSem n v).g = sl.g := rfl
@[simp] theorem Slot.setSem_preds (sl : Slot) (n v : Nat) : (sl.setSem n v).preds = sl.preds := rfl
@[simp] theorem Slot.setSem_estage (sl : Slot) (n v : Nat) : (sl.setSem n v).estage = sl.estage := rfl
@[simp] theorem Slot.setSem_loops (sl : Slot) (n v : Nat) : (sl.setSem n v).loops = sl.loops := rfl
@[simp] theorem Slot.setSem_pend (sl : Slot) (n v : Nat) : (sl.setSem n v).pend = sl.pend := rfl
@[simp] theorem Slot.setSem_nextIssue (sl : Slot) (n v : Nat) : (sl.setSem n v).nextIssue = sl.nextIssue := rfl
@[simp] theorem Slot.setSem_pfx (sl : Slot) (n v : Nat) : (sl.setSem n v).pfx = sl.pfx := rfl
@[simp] theorem Slot.setSem_pfxPc (sl : Slot) (n v : Nat) : (sl.setSem n v).pfxPc = sl.pfxPc := rfl
@[simp] theorem Slot.setSem_npc (sl : Slot) (n v : Nat) : (sl.setSem n v).npc = sl.npc := rfl
@[simp] theorem Slot.setSem_latch (sl : Slot) (n v : Nat) : (sl.setSem n v).latch = sl.latch := rfl
@[simp] theorem Slot.setSem_latchWord (sl : Slot) (n v : Nat) : (sl.setSem n v).latchWord = sl.latchWord := rfl
@[simp] theorem Slot.setSem_inHand (sl : Slot) (n v : Nat) : (sl.setSem n v).inHand = sl.inHand := rfl
@[simp] theorem Slot.setSem_closing (sl : Slot) (n v : Nat) : (sl.setSem n v).closing = sl.closing := rfl
@[simp] theorem Slot.setSem_acks (sl : Slot) (n v : Nat) : (sl.setSem n v).acks = sl.acks := rfl
@[simp] theorem Slot.setSem_faults (sl : Slot) (n v : Nat) : (sl.setSem n v).faults = sl.faults := rfl
@[simp] theorem Slot.setSem_faultAt (sl : Slot) (n v : Nat) : (sl.setSem n v).faultAt = sl.faultAt := rfl
@[simp] theorem Slot.setSem_owed (sl : Slot) (n v : Nat) : (sl.setSem n v).owed = sl.owed := rfl
@[simp] theorem Slot.setSem_csr (sl : Slot) (n v : Nat) : (sl.setSem n v).csr = sl.csr := rfl
@[simp] theorem Slot.setSem_tls (sl : Slot) (n v : Nat) : (sl.setSem n v).tls = sl.tls := rfl
@[simp] theorem Slot.setSem_bars (sl : Slot) (n v : Nat) : (sl.setSem n v).bars = sl.bars := rfl
@[simp] theorem Slot.setSem_chans (sl : Slot) (n v : Nat) : (sl.setSem n v).chans = sl.chans := rfl
@[simp] theorem Slot.setSem_sched (sl : Slot) (n v : Nat) : (sl.setSem n v).sched = sl.sched := rfl
@[simp] theorem Slot.setSem_rings (sl : Slot) (n v : Nat) : (sl.setSem n v).rings = sl.rings := rfl
@[simp] theorem Slot.setSem_crings (sl : Slot) (n v : Nat) : (sl.setSem n v).crings = sl.crings := rfl
@[simp] theorem Slot.setSem_alloc (sl : Slot) (n v : Nat) : (sl.setSem n v).alloc = sl.alloc := rfl
@[simp] theorem Slot.setSem_region (sl : Slot) (n v : Nat) : (sl.setSem n v).region = sl.region := rfl
@[simp] theorem Slot.setSem_opened (sl : Slot) (n v : Nat) : (sl.setSem n v).opened = sl.opened := rfl
@[simp] theorem Slot.setSem_closed (sl : Slot) (n v : Nat) : (sl.setSem n v).closed = sl.closed := rfl
@[simp] theorem Slot.setSem_sent (sl : Slot) (n v : Nat) : (sl.setSem n v).sent = sl.sent := rfl
@[simp] theorem Slot.setSem_eng (sl : Slot) (n v : Nat) : (sl.setSem n v).eng = sl.eng := rfl
@[simp] theorem Slot.setSem_drain (sl : Slot) (n v : Nat) : (sl.setSem n v).drain = sl.drain := rfl
@[simp] theorem Slot.setSem_engNext (sl : Slot) (n v : Nat) : (sl.setSem n v).engNext = sl.engNext := rfl
@[simp] theorem Slot.setSem_clocks (sl : Slot) (n v : Nat) : (sl.setSem n v).clocks = sl.clocks := rfl
@[simp] theorem Slot.setSem_since (sl : Slot) (n v : Nat) : (sl.setSem n v).since = sl.since := rfl
@[simp] theorem Slot.setSem_lastTime (sl : Slot) (n v : Nat) : (sl.setSem n v).lastTime = sl.lastTime := rfl
@[simp] theorem Slot.setSem_causes (sl : Slot) (n v : Nat) : (sl.setSem n v).causes = sl.causes := rfl
@[simp] theorem Slot.setSem_bkpt (sl : Slot) (n v : Nat) : (sl.setSem n v).bkpt = sl.bkpt := rfl
@[simp] theorem Slot.setSem_sends (sl : Slot) (n v : Nat) : (sl.setSem n v).sends = sl.sends := rfl
@[simp] theorem Slot.setSem_tags (sl : Slot) (n v : Nat) : (sl.setSem n v).tags = sl.tags := rfl
@[simp] theorem Slot.setSem_wm (sl : Slot) (n v : Nat) : (sl.setSem n v).wm = sl.wm := rfl
@[simp] theorem Slot.setSem_kept (sl : Slot) (n v : Nat) : (sl.setSem n v).kept = sl.kept := rfl
@[simp] theorem Slot.setSem_accIdx (sl : Slot) (n v : Nat) : (sl.setSem n v).accIdx = sl.accIdx := rfl
@[simp] theorem Slot.setSem_keptOqs (sl : Slot) (n v : Nat) : (sl.setSem n v).keptOqs = sl.keptOqs := rfl
@[simp] theorem Slot.setSem_block (sl : Slot) (n v : Nat) : (sl.setSem n v).block = sl.block := rfl
@[simp] theorem Slot.setBar_task (sl : Slot) (n : Nat) (b : Bar) : (sl.setBar n b).task = sl.task := rfl
@[simp] theorem Slot.setBar_node (sl : Slot) (n : Nat) (b : Bar) : (sl.setBar n b).node = sl.node := rfl
@[simp] theorem Slot.setBar_gang (sl : Slot) (n : Nat) (b : Bar) : (sl.setBar n b).gang = sl.gang := rfl
@[simp] theorem Slot.setBar_hold (sl : Slot) (n : Nat) (b : Bar) : (sl.setBar n b).hold = sl.hold := rfl
@[simp] theorem Slot.setBar_pc (sl : Slot) (n : Nat) (b : Bar) : (sl.setBar n b).pc = sl.pc := rfl
@[simp] theorem Slot.setBar_image (sl : Slot) (n : Nat) (b : Bar) : (sl.setBar n b).image = sl.image := rfl
@[simp] theorem Slot.setBar_seqLen (sl : Slot) (n : Nat) (b : Bar) : (sl.setBar n b).seqLen = sl.seqLen := rfl
@[simp] theorem Slot.setBar_mask (sl : Slot) (n : Nat) (b : Bar) : (sl.setBar n b).mask = sl.mask := rfl
@[simp] theorem Slot.setBar_overlay (sl : Slot) (n : Nat) (b : Bar) : (sl.setBar n b).overlay = sl.overlay := rfl
@[simp] theorem Slot.setBar_g (sl : Slot) (n : Nat) (b : Bar) : (sl.setBar n b).g = sl.g := rfl
@[simp] theorem Slot.setBar_preds (sl : Slot) (n : Nat) (b : Bar) : (sl.setBar n b).preds = sl.preds := rfl
@[simp] theorem Slot.setBar_estage (sl : Slot) (n : Nat) (b : Bar) : (sl.setBar n b).estage = sl.estage := rfl
@[simp] theorem Slot.setBar_loops (sl : Slot) (n : Nat) (b : Bar) : (sl.setBar n b).loops = sl.loops := rfl
@[simp] theorem Slot.setBar_pend (sl : Slot) (n : Nat) (b : Bar) : (sl.setBar n b).pend = sl.pend := rfl
@[simp] theorem Slot.setBar_nextIssue (sl : Slot) (n : Nat) (b : Bar) : (sl.setBar n b).nextIssue = sl.nextIssue := rfl
@[simp] theorem Slot.setBar_pfx (sl : Slot) (n : Nat) (b : Bar) : (sl.setBar n b).pfx = sl.pfx := rfl
@[simp] theorem Slot.setBar_pfxPc (sl : Slot) (n : Nat) (b : Bar) : (sl.setBar n b).pfxPc = sl.pfxPc := rfl
@[simp] theorem Slot.setBar_npc (sl : Slot) (n : Nat) (b : Bar) : (sl.setBar n b).npc = sl.npc := rfl
@[simp] theorem Slot.setBar_latch (sl : Slot) (n : Nat) (b : Bar) : (sl.setBar n b).latch = sl.latch := rfl
@[simp] theorem Slot.setBar_latchWord (sl : Slot) (n : Nat) (b : Bar) : (sl.setBar n b).latchWord = sl.latchWord := rfl
@[simp] theorem Slot.setBar_inHand (sl : Slot) (n : Nat) (b : Bar) : (sl.setBar n b).inHand = sl.inHand := rfl
@[simp] theorem Slot.setBar_closing (sl : Slot) (n : Nat) (b : Bar) : (sl.setBar n b).closing = sl.closing := rfl
@[simp] theorem Slot.setBar_acks (sl : Slot) (n : Nat) (b : Bar) : (sl.setBar n b).acks = sl.acks := rfl
@[simp] theorem Slot.setBar_faults (sl : Slot) (n : Nat) (b : Bar) : (sl.setBar n b).faults = sl.faults := rfl
@[simp] theorem Slot.setBar_faultAt (sl : Slot) (n : Nat) (b : Bar) : (sl.setBar n b).faultAt = sl.faultAt := rfl
@[simp] theorem Slot.setBar_owed (sl : Slot) (n : Nat) (b : Bar) : (sl.setBar n b).owed = sl.owed := rfl
@[simp] theorem Slot.setBar_csr (sl : Slot) (n : Nat) (b : Bar) : (sl.setBar n b).csr = sl.csr := rfl
@[simp] theorem Slot.setBar_sems (sl : Slot) (n : Nat) (b : Bar) : (sl.setBar n b).sems = sl.sems := rfl
@[simp] theorem Slot.setBar_tls (sl : Slot) (n : Nat) (b : Bar) : (sl.setBar n b).tls = sl.tls := rfl
@[simp] theorem Slot.setBar_chans (sl : Slot) (n : Nat) (b : Bar) : (sl.setBar n b).chans = sl.chans := rfl
@[simp] theorem Slot.setBar_sched (sl : Slot) (n : Nat) (b : Bar) : (sl.setBar n b).sched = sl.sched := rfl
@[simp] theorem Slot.setBar_rings (sl : Slot) (n : Nat) (b : Bar) : (sl.setBar n b).rings = sl.rings := rfl
@[simp] theorem Slot.setBar_crings (sl : Slot) (n : Nat) (b : Bar) : (sl.setBar n b).crings = sl.crings := rfl
@[simp] theorem Slot.setBar_alloc (sl : Slot) (n : Nat) (b : Bar) : (sl.setBar n b).alloc = sl.alloc := rfl
@[simp] theorem Slot.setBar_region (sl : Slot) (n : Nat) (b : Bar) : (sl.setBar n b).region = sl.region := rfl
@[simp] theorem Slot.setBar_opened (sl : Slot) (n : Nat) (b : Bar) : (sl.setBar n b).opened = sl.opened := rfl
@[simp] theorem Slot.setBar_closed (sl : Slot) (n : Nat) (b : Bar) : (sl.setBar n b).closed = sl.closed := rfl
@[simp] theorem Slot.setBar_sent (sl : Slot) (n : Nat) (b : Bar) : (sl.setBar n b).sent = sl.sent := rfl
@[simp] theorem Slot.setBar_eng (sl : Slot) (n : Nat) (b : Bar) : (sl.setBar n b).eng = sl.eng := rfl
@[simp] theorem Slot.setBar_drain (sl : Slot) (n : Nat) (b : Bar) : (sl.setBar n b).drain = sl.drain := rfl
@[simp] theorem Slot.setBar_engNext (sl : Slot) (n : Nat) (b : Bar) : (sl.setBar n b).engNext = sl.engNext := rfl
@[simp] theorem Slot.setBar_clocks (sl : Slot) (n : Nat) (b : Bar) : (sl.setBar n b).clocks = sl.clocks := rfl
@[simp] theorem Slot.setBar_since (sl : Slot) (n : Nat) (b : Bar) : (sl.setBar n b).since = sl.since := rfl
@[simp] theorem Slot.setBar_lastTime (sl : Slot) (n : Nat) (b : Bar) : (sl.setBar n b).lastTime = sl.lastTime := rfl
@[simp] theorem Slot.setBar_causes (sl : Slot) (n : Nat) (b : Bar) : (sl.setBar n b).causes = sl.causes := rfl
@[simp] theorem Slot.setBar_bkpt (sl : Slot) (n : Nat) (b : Bar) : (sl.setBar n b).bkpt = sl.bkpt := rfl
@[simp] theorem Slot.setBar_sends (sl : Slot) (n : Nat) (b : Bar) : (sl.setBar n b).sends = sl.sends := rfl
@[simp] theorem Slot.setBar_tags (sl : Slot) (n : Nat) (b : Bar) : (sl.setBar n b).tags = sl.tags := rfl
@[simp] theorem Slot.setBar_wm (sl : Slot) (n : Nat) (b : Bar) : (sl.setBar n b).wm = sl.wm := rfl
@[simp] theorem Slot.setBar_kept (sl : Slot) (n : Nat) (b : Bar) : (sl.setBar n b).kept = sl.kept := rfl
@[simp] theorem Slot.setBar_accIdx (sl : Slot) (n : Nat) (b : Bar) : (sl.setBar n b).accIdx = sl.accIdx := rfl
@[simp] theorem Slot.setBar_keptOqs (sl : Slot) (n : Nat) (b : Bar) : (sl.setBar n b).keptOqs = sl.keptOqs := rfl
@[simp] theorem Slot.setBar_block (sl : Slot) (n : Nat) (b : Bar) : (sl.setBar n b).block = sl.block := rfl
@[simp] theorem Slot.setTl_task (sl : Slot) (n : Nat) (v : BitVec 64) : (sl.setTl n v).task = sl.task := rfl
@[simp] theorem Slot.setTl_node (sl : Slot) (n : Nat) (v : BitVec 64) : (sl.setTl n v).node = sl.node := rfl
@[simp] theorem Slot.setTl_gang (sl : Slot) (n : Nat) (v : BitVec 64) : (sl.setTl n v).gang = sl.gang := rfl
@[simp] theorem Slot.setTl_hold (sl : Slot) (n : Nat) (v : BitVec 64) : (sl.setTl n v).hold = sl.hold := rfl
@[simp] theorem Slot.setTl_pc (sl : Slot) (n : Nat) (v : BitVec 64) : (sl.setTl n v).pc = sl.pc := rfl
@[simp] theorem Slot.setTl_image (sl : Slot) (n : Nat) (v : BitVec 64) : (sl.setTl n v).image = sl.image := rfl
@[simp] theorem Slot.setTl_seqLen (sl : Slot) (n : Nat) (v : BitVec 64) : (sl.setTl n v).seqLen = sl.seqLen := rfl
@[simp] theorem Slot.setTl_mask (sl : Slot) (n : Nat) (v : BitVec 64) : (sl.setTl n v).mask = sl.mask := rfl
@[simp] theorem Slot.setTl_overlay (sl : Slot) (n : Nat) (v : BitVec 64) : (sl.setTl n v).overlay = sl.overlay := rfl
@[simp] theorem Slot.setTl_g (sl : Slot) (n : Nat) (v : BitVec 64) : (sl.setTl n v).g = sl.g := rfl
@[simp] theorem Slot.setTl_preds (sl : Slot) (n : Nat) (v : BitVec 64) : (sl.setTl n v).preds = sl.preds := rfl
@[simp] theorem Slot.setTl_estage (sl : Slot) (n : Nat) (v : BitVec 64) : (sl.setTl n v).estage = sl.estage := rfl
@[simp] theorem Slot.setTl_loops (sl : Slot) (n : Nat) (v : BitVec 64) : (sl.setTl n v).loops = sl.loops := rfl
@[simp] theorem Slot.setTl_pend (sl : Slot) (n : Nat) (v : BitVec 64) : (sl.setTl n v).pend = sl.pend := rfl
@[simp] theorem Slot.setTl_nextIssue (sl : Slot) (n : Nat) (v : BitVec 64) : (sl.setTl n v).nextIssue = sl.nextIssue := rfl
@[simp] theorem Slot.setTl_pfx (sl : Slot) (n : Nat) (v : BitVec 64) : (sl.setTl n v).pfx = sl.pfx := rfl
@[simp] theorem Slot.setTl_pfxPc (sl : Slot) (n : Nat) (v : BitVec 64) : (sl.setTl n v).pfxPc = sl.pfxPc := rfl
@[simp] theorem Slot.setTl_npc (sl : Slot) (n : Nat) (v : BitVec 64) : (sl.setTl n v).npc = sl.npc := rfl
@[simp] theorem Slot.setTl_latch (sl : Slot) (n : Nat) (v : BitVec 64) : (sl.setTl n v).latch = sl.latch := rfl
@[simp] theorem Slot.setTl_latchWord (sl : Slot) (n : Nat) (v : BitVec 64) : (sl.setTl n v).latchWord = sl.latchWord := rfl
@[simp] theorem Slot.setTl_inHand (sl : Slot) (n : Nat) (v : BitVec 64) : (sl.setTl n v).inHand = sl.inHand := rfl
@[simp] theorem Slot.setTl_closing (sl : Slot) (n : Nat) (v : BitVec 64) : (sl.setTl n v).closing = sl.closing := rfl
@[simp] theorem Slot.setTl_acks (sl : Slot) (n : Nat) (v : BitVec 64) : (sl.setTl n v).acks = sl.acks := rfl
@[simp] theorem Slot.setTl_faults (sl : Slot) (n : Nat) (v : BitVec 64) : (sl.setTl n v).faults = sl.faults := rfl
@[simp] theorem Slot.setTl_faultAt (sl : Slot) (n : Nat) (v : BitVec 64) : (sl.setTl n v).faultAt = sl.faultAt := rfl
@[simp] theorem Slot.setTl_owed (sl : Slot) (n : Nat) (v : BitVec 64) : (sl.setTl n v).owed = sl.owed := rfl
@[simp] theorem Slot.setTl_csr (sl : Slot) (n : Nat) (v : BitVec 64) : (sl.setTl n v).csr = sl.csr := rfl
@[simp] theorem Slot.setTl_sems (sl : Slot) (n : Nat) (v : BitVec 64) : (sl.setTl n v).sems = sl.sems := rfl
@[simp] theorem Slot.setTl_bars (sl : Slot) (n : Nat) (v : BitVec 64) : (sl.setTl n v).bars = sl.bars := rfl
@[simp] theorem Slot.setTl_chans (sl : Slot) (n : Nat) (v : BitVec 64) : (sl.setTl n v).chans = sl.chans := rfl
@[simp] theorem Slot.setTl_sched (sl : Slot) (n : Nat) (v : BitVec 64) : (sl.setTl n v).sched = sl.sched := rfl
@[simp] theorem Slot.setTl_rings (sl : Slot) (n : Nat) (v : BitVec 64) : (sl.setTl n v).rings = sl.rings := rfl
@[simp] theorem Slot.setTl_crings (sl : Slot) (n : Nat) (v : BitVec 64) : (sl.setTl n v).crings = sl.crings := rfl
@[simp] theorem Slot.setTl_alloc (sl : Slot) (n : Nat) (v : BitVec 64) : (sl.setTl n v).alloc = sl.alloc := rfl
@[simp] theorem Slot.setTl_region (sl : Slot) (n : Nat) (v : BitVec 64) : (sl.setTl n v).region = sl.region := rfl
@[simp] theorem Slot.setTl_opened (sl : Slot) (n : Nat) (v : BitVec 64) : (sl.setTl n v).opened = sl.opened := rfl
@[simp] theorem Slot.setTl_closed (sl : Slot) (n : Nat) (v : BitVec 64) : (sl.setTl n v).closed = sl.closed := rfl
@[simp] theorem Slot.setTl_sent (sl : Slot) (n : Nat) (v : BitVec 64) : (sl.setTl n v).sent = sl.sent := rfl
@[simp] theorem Slot.setTl_eng (sl : Slot) (n : Nat) (v : BitVec 64) : (sl.setTl n v).eng = sl.eng := rfl
@[simp] theorem Slot.setTl_drain (sl : Slot) (n : Nat) (v : BitVec 64) : (sl.setTl n v).drain = sl.drain := rfl
@[simp] theorem Slot.setTl_engNext (sl : Slot) (n : Nat) (v : BitVec 64) : (sl.setTl n v).engNext = sl.engNext := rfl
@[simp] theorem Slot.setTl_clocks (sl : Slot) (n : Nat) (v : BitVec 64) : (sl.setTl n v).clocks = sl.clocks := rfl
@[simp] theorem Slot.setTl_since (sl : Slot) (n : Nat) (v : BitVec 64) : (sl.setTl n v).since = sl.since := rfl
@[simp] theorem Slot.setTl_lastTime (sl : Slot) (n : Nat) (v : BitVec 64) : (sl.setTl n v).lastTime = sl.lastTime := rfl
@[simp] theorem Slot.setTl_causes (sl : Slot) (n : Nat) (v : BitVec 64) : (sl.setTl n v).causes = sl.causes := rfl
@[simp] theorem Slot.setTl_bkpt (sl : Slot) (n : Nat) (v : BitVec 64) : (sl.setTl n v).bkpt = sl.bkpt := rfl
@[simp] theorem Slot.setTl_sends (sl : Slot) (n : Nat) (v : BitVec 64) : (sl.setTl n v).sends = sl.sends := rfl
@[simp] theorem Slot.setTl_tags (sl : Slot) (n : Nat) (v : BitVec 64) : (sl.setTl n v).tags = sl.tags := rfl
@[simp] theorem Slot.setTl_wm (sl : Slot) (n : Nat) (v : BitVec 64) : (sl.setTl n v).wm = sl.wm := rfl
@[simp] theorem Slot.setTl_kept (sl : Slot) (n : Nat) (v : BitVec 64) : (sl.setTl n v).kept = sl.kept := rfl
@[simp] theorem Slot.setTl_accIdx (sl : Slot) (n : Nat) (v : BitVec 64) : (sl.setTl n v).accIdx = sl.accIdx := rfl
@[simp] theorem Slot.setTl_keptOqs (sl : Slot) (n : Nat) (v : BitVec 64) : (sl.setTl n v).keptOqs = sl.keptOqs := rfl
@[simp] theorem Slot.setTl_block (sl : Slot) (n : Nat) (v : BitVec 64) : (sl.setTl n v).block = sl.block := rfl

@[simp] theorem State.slot_setSlot (s : State) (u v : Nat) (x : Slot) :
    (s.setSlot u x).slot v = if v = u then x else s.slot v := Tbl.get_put ..

@[simp] theorem State.core_setCore (s : State) (u v : Nat) (x : CoreSt) :
    (s.setCore u x).core v = if v = u then x else s.core v := Tbl.get_put ..

@[simp] theorem State.ctx_setCtx (s : State) (u v : Nat) (x : Ctx) :
    (s.setCtx u x).ctx v = if v = u then x else s.ctx v := Tbl.get_put ..

@[simp] theorem State.arr_setArr (s : State) (u v : Nat) (x : Arr) :
    (s.setArr u x).arr v = if v = u then x else s.arr v := Tbl.get_put ..

@[simp] theorem State.core_setSlot (s : State) (u v : Nat) (x : Slot) : (s.setSlot u x).core v = s.core v := rfl
@[simp] theorem State.ctx_setSlot (s : State) (u v : Nat) (x : Slot) : (s.setSlot u x).ctx v = s.ctx v := rfl
@[simp] theorem State.arr_setSlot (s : State) (u v : Nat) (x : Slot) : (s.setSlot u x).arr v = s.arr v := rfl
@[simp] theorem State.slot_setCore (s : State) (u v : Nat) (x : CoreSt) : (s.setCore u x).slot v = s.slot v := rfl
@[simp] theorem State.ctx_setCore (s : State) (u v : Nat) (x : CoreSt) : (s.setCore u x).ctx v = s.ctx v := rfl
@[simp] theorem State.arr_setCore (s : State) (u v : Nat) (x : CoreSt) : (s.setCore u x).arr v = s.arr v := rfl
@[simp] theorem State.slot_setCtx (s : State) (u v : Nat) (x : Ctx) : (s.setCtx u x).slot v = s.slot v := rfl
@[simp] theorem State.core_setCtx (s : State) (u v : Nat) (x : Ctx) : (s.setCtx u x).core v = s.core v := rfl
@[simp] theorem State.slot_setArr (s : State) (u v : Nat) (x : Arr) : (s.setArr u x).slot v = s.slot v := rfl
@[simp] theorem State.core_setArr (s : State) (u v : Nat) (x : Arr) : (s.setArr u x).core v = s.core v := rfl

@[simp] theorem State.modSlot_eq (s : State) (u : Nat) (f : Slot → Slot) : s.modSlot u f = s.setSlot u (f (s.slot u)) := rfl
@[simp] theorem State.modCore_eq (s : State) (u : Nat) (f : CoreSt → CoreSt) : s.modCore u f = s.setCore u (f (s.core u)) := rfl
@[simp] theorem State.modCtx_eq (s : State) (u : Nat) (f : Ctx → Ctx) : s.modCtx u f = s.setCtx u (f (s.ctx u)) := rfl
@[simp] theorem State.me_eq (s : State) : s.me = s.slot s.cur.u := rfl
@[simp] theorem State.setMe_eq (s : State) (x : Slot) : s.setMe x = s.setSlot s.cur.u x := rfl
@[simp] theorem State.modMe_eq (s : State) (f : Slot → Slot) : s.modMe f = s.setSlot s.cur.u (f (s.slot s.cur.u)) := rfl
@[simp] theorem State.myCore_eq (s : State) : s.myCore = s.core (coreOf s.cur.u) := rfl
@[simp] theorem State.modMyCore_eq (s : State) (f : CoreSt → CoreSt) :
    s.modMyCore f = s.setCore (coreOf s.cur.u) (f (s.core (coreOf s.cur.u))) := rfl

/-! Registers: what a read gives after a write (R41, R95) -/

@[simp] theorem Slot.g_setPhys (sl : Slot) (n k : Nat) (v : Word) :
    Tbl.get 0 (sl.setPhys n v).g k = if k = n then v else Tbl.get 0 sl.g k := Tbl.get_set ..

@[simp] theorem Slot.phys_setPhys (sl : Slot) (n k : Nat) (v : Word) : (sl.setPhys n v).phys k = sl.phys k := rfl

theorem Slot.phys_inj (sl : Slot) (m n : Nat) (hm : m < 64) (hn : n < 64) (h : sl.phys m = sl.phys n) : m = n := by
  unfold Slot.phys at h
  split at h <;> split at h <;> simp_all <;> omega

/-- g0 reads as zero in every state (R41). -/
@[simp] theorem Slot.greg_zero (sl : Slot) : sl.greg 0 = 0 := rfl

/-- p0 reads as true in every state (R41). -/
@[simp] theorem Slot.pred_zero (sl : Slot) : sl.pred 0 = true := rfl

theorem Slot.greg_setGreg (sl : Slot) (n k : Nat) (v : Word) (hn : n < 64) (hk : k < 64) :
    (sl.setGreg n v).greg k = if k = n ∧ n ≠ 0 then v else sl.greg k := by
  unfold Slot.setGreg
  by_cases h : n = 0
  · simp [h]
  · simp only [h, if_false, Slot.greg, Slot.phys_setPhys, Slot.g_setPhys]
    by_cases hk0 : k = 0
    · subst hk0; simp [Ne.symm h]
    · by_cases hkn : k = n
      · simp [hkn, h]
      · have : sl.phys k ≠ sl.phys n := fun e => hkn (Slot.phys_inj sl k n hk hn e)
        simp [hkn, this, hk0]

theorem Slot.sem_setSem (sl : Slot) (n k v : Nat) (hv : v < 65536) :
    (sl.setSem n v).sem k = if k = n then v else sl.sem k := by
  unfold Slot.setSem Slot.sem
  rw [Tbl.get_set]
  split <;> simp_all [Nat.mod_eq_of_lt]

theorem Slot.tl_setTl (sl : Slot) (e k : Nat) (v : BitVec 64) : (sl.setTl e v).tl k = if k = e then v else sl.tl k :=
  Tbl.get_set ..

theorem Slot.bar_setBar (sl : Slot) (n k : Nat) (b : Bar) : (sl.setBar n b).bar k = if k = n then b else sl.bar k :=
  Tbl.get_set ..

end Sys2Proof.Machine
end

