-- ==== Sys2Proof/Laws/Seq.lean ====
section
/-! SUPPORT. What a sequencer word leaves: the counters and traces touch nothing a program's words use, a retiring word
moves the PC and puts its signal in place, and a word that writes one register or predicate is done so. -/

namespace Sys2Proof.Machine
open Sys2Proof

/-! Counters and traces -/

/-- A relation that holds of every step of a fold holds of the fold. -/
theorem foldl_rel {σ α : Type} (R : σ → σ → Prop) (hr : ∀ s, R s s) (ht : ∀ s t r, R s t → R t r → R s r)
    (f : σ → α → σ) (hf : ∀ s a, R s (f s a)) (l : List α) (s : σ) : R s (l.foldl f s) := by
  induction l generalizing s with
  | nil => exact hr s
  | cons a l ih => exact ht _ _ _ (hf s a) (ih _)

/-- Nothing but the hub's traces and counters, and the count of free values used, differs. -/
def OnlyTraces (s t : State) : Prop := t.rest = s.rest ∧ t.cores = s.cores ∧ t.slots = s.slots

theorem OnlyTraces.refl (s : State) : OnlyTraces s s := ⟨rfl, rfl, rfl⟩
theorem OnlyTraces.trans {s t r : State} (h : OnlyTraces s t) (h' : OnlyTraces t r) : OnlyTraces s r :=
  ⟨h'.1.trans h.1, h'.2.1.trans h.2.1, h'.2.2.trans h.2.2⟩

/-- An overflow raises an interrupt at most, and is noted in the hub. -/
theorem overflowed_only (s : State) (g i c fn : Nat) : OnlyTraces s (s.overflowed g i c fn) := by
  unfold State.overflowed
  cases bitOf c 9 <;> exact ⟨rfl, rfl, rfl⟩

theorem count0At_frame (s : State) (c e : Nat) (sl : Option Nat) (n k : Nat) :
    (s.count0At c e sl n k).rest = s.rest ∧ (∀ d, ((s.count0At c e sl n k).core d).quiet = (s.core d).quiet) ∧
      (s.count0At c e sl n k).slots = s.slots := by
  unfold State.count0At
  simp only
  split
  · split
    · obtain ⟨h1, h2, h3⟩ := overflowed_only (s.setCore c _) 0 (8 * c + k) (Tbl.get 0 (s.core c).cfgs k) (s.core c).pmowner
      refine ⟨h1, fun d => ?_, h3⟩
      show (Tbl.get CoreSt.reset (State.overflowed _ _ _ _ _).cores d).quiet = _
      rw [h2]
      show ((State.setCore s c _).core d).quiet = _
      simp only [State.core_setCore]; split
      · subst_vars; rfl
      · rfl
    · refine ⟨rfl, fun d => ?_, rfl⟩
      simp only [State.core_setCore]; split
      · subst_vars; rfl
      · rfl
  · exact ⟨rfl, fun _ => rfl, rfl⟩

theorem count0_frame (s : State) (c e : Nat) (sl : Option Nat) (n : Nat) :
    (s.count0 c e sl n).rest = s.rest ∧ (∀ d, ((s.count0 c e sl n).core d).quiet = (s.core d).quiet) ∧
      (s.count0 c e sl n).slots = s.slots := by
  unfold State.count0
  split
  · exact ⟨rfl, fun _ => rfl, rfl⟩
  · refine foldl_rel (fun s t : State => t.rest = s.rest ∧ (∀ d, (t.core d).quiet = (s.core d).quiet) ∧ t.slots = s.slots)
      (fun _ => ⟨rfl, fun _ => rfl, rfl⟩) ?_ _ (fun s k => count0At_frame s c e sl n k) _ _
    rintro a b c ⟨h1, h2, h3⟩ ⟨k1, k2, k3⟩
    exact ⟨k1.trans h1, fun x => (k2 x).trans (h2 x), k3.trans h3⟩

theorem issued_frame (s : State) (u : Nat) :
    (s.issued u).rest = s.rest ∧ (∀ d, ((s.issued u).core d).quiet = (s.core d).quiet) ∧ (s.issued u).slots = s.slots := by
  unfold State.issued
  obtain ⟨a, b, d⟩ := count0_frame (s.modCore (coreOf u) (fun c => { c with lastSlot := u % 4, lastIssue := s.clock }))
    (coreOf u) 0x02 (some (u % 4)) 1
  refine ⟨a, fun x => (b x).trans ?_, d⟩
  simp only [State.modCore_eq, State.core_setCore]; split
  · subst_vars; rfl
  · rfl

theorem count1_only (s : State) (sl e fn n : Nat) : OnlyTraces s (s.count1 sl e fn n) := by
  unfold State.count1
  split
  · exact .refl s
  · refine foldl_rel OnlyTraces .refl (fun _ _ _ => .trans) _ (fun s k => ?_) _ _
    simp only
    split
    · split
      · exact .trans ⟨rfl, rfl, rfl⟩ (overflowed_only _ _ _ _ _)
      · exact ⟨rfl, rfl, rfl⟩
    · exact .refl s

theorem traceDrop_only (s : State) (sl fn : Nat) : OnlyTraces s (s.traceDrop sl fn) := by
  unfold State.traceDrop
  refine .trans ?_ (count1_only _ _ _ _ _)
  exact ⟨rfl, rfl, rfl⟩

theorem trace_only (s : State) (c x : Nat) (bs : List Byte) : OnlyTraces s (s.trace c x bs) := by
  unfold State.trace
  refine iteInduction (motive := OnlyTraces s) (fun _ => ?_) (fun _ => ?_)
  · refine OnlyTraces.trans ?_ (count1_only _ _ _ _ _)
    exact ⟨rfl, rfl, rfl⟩
  · exact traceDrop_only _ _ _

theorem snapRecord_only (s : State) (u ty : Nat) (t : LoopTag) (b : Nat) : OnlyTraces s (s.snapRecord u ty t b) := by
  unfold State.snapRecord
  simp only
  split
  · exact .trans (t := { s with tick := s.tick + 1 }) ⟨rfl, rfl, rfl⟩ (traceDrop_only _ _ _)
  · refine .trans ?_ (trace_only _ _ _ _)
    exact ⟨rfl, rfl, rfl⟩

theorem loopExits_only (s : State) (u : Nat) (ls : List LoopRec) : OnlyTraces s (s.loopExits u ls) := by
  unfold State.loopExits
  split
  · exact foldl_rel OnlyTraces .refl (fun _ _ _ => .trans) _ (fun s l => snapRecord_only _ _ _ _ _) _ _
  · exact .refl s

/-! Results in flight: a signal writes no register -/

/-- What of a slot the settling of a general register or predicate uses. -/
def SameRegs (a b : Slot) : Prop := a.g = b.g ∧ a.preds = b.preds ∧ a.csr.uiact = b.csr.uiact

theorem SameRegs.greg {a b : Slot} (h : SameRegs a b) (n : Nat) : a.greg n = b.greg n := by
  unfold Slot.greg Slot.phys; rw [h.1, h.2.2]
theorem SameRegs.pred {a b : Slot} (h : SameRegs a b) (n : Nat) : a.pred n = b.pred n := by
  unfold Slot.pred; rw [h.2.1]

theorem semAdd_same (sl : Slot) (n k : Nat) : SameRegs (sl.semAdd n k) sl := by
  unfold Slot.semAdd; simp only; split <;> split <;> exact ⟨rfl, rfl, rfl⟩

theorem signal_same (sl : Slot) (c : SignalC) : SameRegs (sl.signal c) sl := by
  cases c with
  | none => exact ⟨rfl, rfl, rfl⟩
  | sem n => exact semAdd_same sl _ _
  | ui n =>
    show SameRegs (sl.uiRaise _) sl
    unfold Slot.uiRaise; simp only; split
    · exact ⟨rfl, rfl, rfl⟩
    · split <;> exact ⟨rfl, rfl, rfl⟩
  | bar n => exact ⟨rfl, rfl, rfl⟩

theorem applyPend_same (a b : Slot) (p : Pend) (h : SameRegs a b) : SameRegs (a.applyPend p) (b.applyPend p) := by
  obtain ⟨h1, h2, h3⟩ := h
  unfold Slot.applyPend
  cases he : p.eff with
  | greg n v => exact ⟨by simp [Slot.setPhys, h1], h2, h3⟩
  | pred n v =>
    simp only [Slot.setPred]
    split
    · exact ⟨h1, h2, h3⟩
    · exact ⟨h1, by simp [h2], h3⟩
  | signal c =>
    obtain ⟨x1, x2, x3⟩ := signal_same a c
    obtain ⟨y1, y2, y3⟩ := signal_same b c
    exact ⟨x1.trans (h1.trans y1.symm), x2.trans (h2.trans y2.symm), x3.trans (h3.trans y3.symm)⟩
  | sem n k =>
    obtain ⟨x1, x2, x3⟩ := semAdd_same a n k
    obtain ⟨y1, y2, y3⟩ := semAdd_same b n k
    exact ⟨x1.trans (h1.trans y1.symm), x2.trans (h2.trans y2.symm), x3.trans (h3.trans y3.symm)⟩
  | arrive n k => exact ⟨h1, h2, h3⟩
  | barSet n k => exact ⟨h1, h2, h3⟩
  | barClear n => exact ⟨h1, h2, h3⟩
  | decl n v => exact ⟨h1, h2, h3⟩
  | trcfg v => exact ⟨h1, h2, h3⟩

theorem applyPend_none (a : Slot) (p : Pend) (h : p.eff.writes = false) : SameRegs (a.applyPend p) a := by
  unfold Slot.applyPend
  cases he : p.eff with
  | greg n v => simp [he, PendEff.writes] at h
  | pred n v => simp [he, PendEff.writes] at h
  | signal c => exact signal_same a c
  | sem n k => exact semAdd_same a n k
  | arrive n k => exact ⟨rfl, rfl, rfl⟩
  | barSet n k => exact ⟨rfl, rfl, rfl⟩
  | barClear n => exact ⟨rfl, rfl, rfl⟩
  | decl n v => exact ⟨rfl, rfl, rfl⟩
  | trcfg v => exact ⟨rfl, rfl, rfl⟩

theorem SameRegs.refl (a : Slot) : SameRegs a a := ⟨rfl, rfl, rfl⟩
theorem SameRegs.trans {a b c : Slot} (h : SameRegs a b) (h' : SameRegs b c) : SameRegs a c :=
  ⟨h.1.trans h'.1, h.2.1.trans h'.2.1, h.2.2.trans h'.2.2⟩
theorem SameRegs.symm {a b : Slot} (h : SameRegs a b) : SameRegs b a := ⟨h.1.symm, h.2.1.symm, h.2.2.symm⟩

theorem foldl_same (l l' : List Pend) (a b : Slot) (h : SameRegs a b)
    (hl : l.filter (fun p => p.eff.writes) = l'.filter (fun p => p.eff.writes)) :
    SameRegs (l.foldl Slot.applyPend a) (l'.foldl Slot.applyPend b) := by
  have strip : ∀ (l : List Pend) (a b : Slot), SameRegs a b →
      SameRegs (l.foldl Slot.applyPend a) ((l.filter (fun p => p.eff.writes)).foldl Slot.applyPend b) := by
    intro l
    induction l with
    | nil => intro a b h; exact h
    | cons p l ih =>
      intro a b h
      simp only [List.foldl_cons, List.filter_cons]
      split
      · exact ih _ _ (applyPend_same a b p h)
      · rename_i hp
        exact ih _ _ ((applyPend_none a p (by simpa using hp)).trans h)
  exact (strip l a b h).trans ((hl ▸ (strip l' b b (.refl b)).symm))

theorem addPend_writes (p : Pend) (l : List Pend) (q : Pend → Bool) (h : p.eff.writes = false) :
    ((addPend p l).filter q).filter (fun p => p.eff.writes) = (l.filter q).filter (fun p => p.eff.writes) := by
  induction l with
  | nil => simp only [addPend, List.filter_cons]; split <;> simp [h]
  | cons x l ih =>
    simp only [addPend]
    split
    · simp only [List.filter_cons]; split <;> simp [h]
    · simp only [List.filter_cons] at ih ⊢; split <;> simp [List.filter_cons, ih]

/-- Settling gives the same registers when a signal is also in flight. -/
theorem settle_putSignal (sl : Slot) (c : SignalC) (till tag now t : Nat) :
    SameRegs ((sl.putSignal c till tag now).settle t) (sl.settle t) := by
  have key : ∀ p : Pend, p.eff.writes = false → SameRegs ({ sl with pend := addPend p sl.pend }.settle t) (sl.settle t) := by
    intro p hp
    unfold Slot.settle
    exact foldl_same _ _ _ _ ⟨rfl, rfl, rfl⟩ (addPend_writes p sl.pend _ hp)
  unfold Slot.putSignal
  cases c with
  | none => exact .refl _
  | _ => simp only; split
         · exact key _ rfl
         · exact key _ rfl

/-- Settling uses of a slot its registers and what is in flight. -/
theorem settle_same (a b : Slot) (t : Nat) (h : SameRegs a b) (hp : a.pend = b.pend) :
    SameRegs (a.settle t) (b.settle t) := by
  unfold Slot.settle
  rw [hp]
  exact foldl_same _ _ _ _ h rfl

theorem settle_nil (a : Slot) (t : Nat) (h : a.pend = []) : SameRegs (a.settle t) a := by
  unfold Slot.settle; rw [h]; exact ⟨rfl, rfl, rfl⟩

/-! A word that stays within its slot -/

/-- What a meaning's body must leave for its word to be done within the slot: all that `WordKeeps` says but for the
counters that the issue itself moves, the PC where it was, and the redirect it asks for. -/
structure BodyDone (s b : State) (lat : Nat) (g : Nat → Word) (p : Nat → Bool) (go : Option Nat := none)
    (left : List LoopRec := (s.slot s.cur.u).loops) : Prop where
  keeps : WordKeeps s b lat g p
  pc : (b.slot s.cur.u).pc = (s.slot s.cur.u).pc
  loops : (b.slot s.cur.u).loops = left
  npc : (b.slot s.cur.u).npc = go

theorem slot_of_slots {a b : State} (h : a.slots = b.slots) (u : Nat) : a.slot u = b.slot u := by
  unfold State.slot; rw [h]

theorem core_of_cores {a b : State} (h : a.cores = b.cores) (u : Nat) : a.core u = b.core u := by
  unfold State.core; rw [h]

theorem putSignal_frame (sl : Slot) (c : SignalC) (till tag now : Nat) :
    (sl.putSignal c till tag now).frame = sl.frame ∧ (sl.putSignal c till tag now).pc = sl.pc ∧
    (sl.putSignal c till tag now).loops = sl.loops ∧ (sl.putSignal c till tag now).npc = sl.npc ∧
    (sl.putSignal c till tag now).csr = sl.csr ∧ (sl.putSignal c till tag now).latch = sl.latch := by
  unfold Slot.putSignal
  cases c with
  | none => exact ⟨rfl, rfl, rfl, rfl, rfl, rfl⟩
  | _ => simp only; split
         · exact ⟨rfl, rfl, rfl, rfl, rfl, rfl⟩
         · exact ⟨rfl, rfl, rfl, rfl, rfl, rfl⟩

theorem wordOver_same (sl : Slot) (t : Nat) : SameRegs ((sl.wordOver false).settle t) (sl.settle t) :=
  settle_same _ _ _ ⟨rfl, rfl, rfl⟩ rfl

/-- A word without a redirect moves its slot on. -/
theorem moveOn_plain (sl : Slot) (len stall now : Nat) (nx : Option Nat) (h : sl.npc = none) :
    ((sl.moveOn len stall now nx).1.wordOver false).frame = sl.frame ∧
    sl.movesTo (nx.getD (sl.pc + len)) ((sl.moveOn len stall now nx).1.wordOver false).pc
      ((sl.moveOn len stall now nx).1.wordOver false).loops ∧
    ((sl.moveOn len stall now nx).1.wordOver false).latch = sl.latch ∧
    ∀ t, SameRegs (((sl.moveOn len stall now nx).1.wordOver false).settle t) (sl.settle t) := by
  unfold Slot.moveOn Slot.movesTo
  rw [h]
  by_cases hu : sl.csr.uiact = true
  · simp only [if_pos hu]
    exact ⟨rfl, ⟨rfl, rfl⟩, rfl, fun t => settle_same _ _ _ ⟨rfl, rfl, rfl⟩ rfl⟩
  · simp only [if_neg hu]
    exact ⟨rfl, ⟨rfl, rfl⟩, rfl, fun t => settle_same _ _ _ ⟨rfl, rfl, rfl⟩ rfl⟩

theorem takeLatch_none (s : State) (u w : Nat) (sl : Slot) (h : sl.latch = none) : s.takeLatch u w sl = s := by
  unfold State.takeLatch; rw [h]

/-- A word with a redirect goes to its target. -/
theorem moveOn_jump (sl : Slot) (len stall now : Nat) (nx : Option Nat) (go : Nat) (h : sl.npc = some go) :
    ((sl.moveOn len stall now nx).1.wordOver false).frame = sl.frame ∧
    ((sl.moveOn len stall now nx).1.wordOver false).pc = go ∧
    ((sl.moveOn len stall now nx).1.wordOver false).loops = sl.loops ∧
    now + 3 ≤ ((sl.moveOn len stall now nx).1.wordOver false).nextIssue ∧
    ((sl.moveOn len stall now nx).1.wordOver false).latch = sl.latch ∧
    ∀ t, SameRegs (((sl.moveOn len stall now nx).1.wordOver false).settle t) (sl.settle t) := by
  unfold Slot.moveOn
  rw [h]
  refine ⟨rfl, rfl, rfl, ?_, rfl, fun t => settle_same _ _ _ ⟨rfl, rfl, rfl⟩ rfl⟩
  show now + 3 ≤ max sl.nextIssue (now + max 3 stall)
  omega

/-- Where a retiring word leaves its slot, and what it keeps elsewhere. -/
theorem retire_slot {s b : State} {lat : Nat} {g : Nat → Word} {p : Nat → Bool} {go : Option Nat} {left : List LoopRec}
    (nx : Option Nat) (p0 : List Pend) (cl : Bool) (hl : (s.slot s.cur.u).latch = none) (hb : BodyDone s b lat g p go left) :
    ∃ x : Slot, x.npc = go ∧ x.loops = left ∧ x.csr.uiact = (s.slot s.cur.u).csr.uiact ∧ x.pc = (s.slot s.cur.u).pc ∧
      x.latch = none ∧ x.frame = (s.slot s.cur.u).frame ∧
      ∃ m, m = x.moveOn s.cur.len s.cur.ctl.stall.toNat s.clock nx ∧
      (((m.1.wordOver cl).latch = none ∧ ∀ t, SameRegs ((m.1.wordOver cl).settle t) (x.settle t)) →
        ∀ r, r = (b.issued s.cur.u).retire s.cur.u s.cur p0 cl nx →
        r.rest = s.rest ∧ (∀ c, (r.core c).quiet = (s.core c).quiet) ∧ (∀ v, v ≠ s.cur.u → r.slot v = s.slot v) ∧
        r.slot s.cur.u = m.1.wordOver cl ∧
        (∀ n, n < 64 → ((r.slot s.cur.u).settle (s.clock + lat)).greg n = g n) ∧
        (∀ n, n < 8 → ((r.slot s.cur.u).settle (s.clock + lat)).pred n = p n)) := by
  obtain ⟨i1, i2, i3⟩ := issued_frame b s.cur.u
  have hs : (b.issued s.cur.u).slot s.cur.u = b.slot s.cur.u := slot_of_slots i3 _
  have hclk : (b.issued s.cur.u).clock = s.clock := by
    have := congrArg State.clock (i1.trans hb.keeps.rest)
    exact this
  have hlat : (b.slot s.cur.u).latch = none := by
    have := congrArg Slot.latch hb.keeps.frame
    exact this.trans hl
  have hcsr : (b.slot s.cur.u).csr = (s.slot s.cur.u).csr := by
    have := congrArg Slot.csr hb.keeps.frame
    exact this
  generalize ht : max (retireAt p0 (b.slot s.cur.u).pend s.clock).1 (s.clock + b2n (latOne s.cur.word)) = till
  generalize hx : (b.slot s.cur.u).putSignal s.cur.ctl.signal till (retireAt p0 (b.slot s.cur.u).pend s.clock).2 s.clock = x
  obtain ⟨f1, f2, f3, f4, f5, f6⟩ := putSignal_frame (b.slot s.cur.u) s.cur.ctl.signal till
    (retireAt p0 (b.slot s.cur.u).pend s.clock).2 s.clock
  have hset : ∀ t, SameRegs (x.settle t) ((b.slot s.cur.u).settle t) := fun t => hx ▸ settle_putSignal _ _ _ _ _ _
  rw [hx] at f1 f2 f3 f4 f5 f6
  refine ⟨x, f4.trans hb.npc, f3.trans hb.loops, by rw [f5, hcsr], f2.trans hb.pc, f6.trans hlat, f1.trans hb.keeps.frame, _, rfl, ?_⟩
  rintro ⟨m3, m4⟩ r rfl
  unfold State.retire
  simp only [hs, hlat, Option.isNone_none, if_true, hclk, ht, hx]
  generalize x.moveOn s.cur.len s.cur.ctl.stall.toNat s.clock nx = m at *
  rw [takeLatch_none _ _ _ _ m3]
  obtain ⟨l1, l2, l3⟩ := loopExits_only ((b.issued s.cur.u).setSlot s.cur.u (m.1.wordOver cl)) s.cur.u m.2
  have hsl := slot_of_slots l3 s.cur.u
  simp only [State.slot_setSlot, if_true] at hsl
  refine ⟨?_, ?_, ?_, hsl, ?_, ?_⟩
  · rw [l1]; exact i1.trans hb.keeps.rest
  · intro c; rw [core_of_cores l2 c]; exact (i2 c).trans (hb.keeps.cores c)
  · intro v hv
    rw [slot_of_slots l3 v]
    simp only [State.slot_setSlot, if_neg hv]
    exact (slot_of_slots i3 v).trans (hb.keeps.others v hv)
  · intro n hn
    rw [hsl, (m4 _).greg, (hset _).greg]
    exact hb.keeps.gregs n hn
  · intro n hn
    rw [hsl, (m4 _).pred, (hset _).pred]
    exact hb.keeps.preds n hn

/-- What a retiring word that closes no region keeps, and where its slot goes. -/
theorem retire_keeps {s b : State} {lat : Nat} {g : Nat → Word} {p : Nat → Bool} {go : Option Nat} {left : List LoopRec}
    (nx : Option Nat) (p0 : List Pend) (hl : (s.slot s.cur.u).latch = none) (hb : BodyDone s b lat g p go left) :
    ∃ x : Slot, x.npc = go ∧ x.loops = left ∧ x.csr.uiact = (s.slot s.cur.u).csr.uiact ∧ x.pc = (s.slot s.cur.u).pc ∧
      x.latch = none ∧ ∃ m, m = x.moveOn s.cur.len s.cur.ctl.stall.toNat s.clock nx ∧
      (((m.1.wordOver false).latch = none ∧ (m.1.wordOver false).frame = x.frame ∧
        ∀ t, SameRegs ((m.1.wordOver false).settle t) (x.settle t)) →
        WordKeeps s ((b.issued s.cur.u).retire s.cur.u s.cur p0 false nx) lat g p ∧
        ((b.issued s.cur.u).retire s.cur.u s.cur p0 false nx).slot s.cur.u = m.1.wordOver false) := by
  obtain ⟨x, h1, h2, h3, h4, h5, h6, m, hm, k⟩ := retire_slot nx p0 false hl hb
  refine ⟨x, h1, h2, h3, h4, h5, m, hm, fun ⟨m3, m1, m4⟩ => ?_⟩
  obtain ⟨k1, k2, k3, k4, k5, k6⟩ := k ⟨m3, m4⟩ _ rfl
  exact ⟨⟨k1, k2, k3, by rw [k4]; exact m1.trans h6, k5, k6⟩, k4⟩

theorem wordOver_closing_same (sl : Slot) (t : Nat) : SameRegs ((sl.wordOver true).settle t) (sl.settle t) :=
  settle_same _ _ _ ⟨rfl, rfl, rfl⟩ rfl

/-- A result that is written changes no loop. -/
theorem semAdd_loops (sl : Slot) (n k : Nat) : (sl.semAdd n k).estage = sl.estage ∧ (sl.semAdd n k).loops = sl.loops := by
  unfold Slot.semAdd; simp only; split <;> split <;> exact ⟨rfl, rfl⟩

theorem applyPend_loops (sl : Slot) (p : Pend) :
    (sl.applyPend p).estage = sl.estage ∧ (sl.applyPend p).loops = sl.loops := by
  unfold Slot.applyPend
  cases p.eff with
  | greg n v => exact ⟨rfl, rfl⟩
  | pred n v => simp only [Slot.setPred]; split <;> exact ⟨rfl, rfl⟩
  | signal c =>
    cases c with
    | none => exact ⟨rfl, rfl⟩
    | sem n => exact semAdd_loops _ _ _
    | ui n =>
      show (sl.uiRaise _).estage = _ ∧ (sl.uiRaise _).loops = _
      unfold Slot.uiRaise; simp only
      split
      · exact ⟨rfl, rfl⟩
      · split <;> exact ⟨rfl, rfl⟩
    | bar n => exact ⟨rfl, rfl⟩
  | sem n k => exact semAdd_loops _ _ _
  | arrive n k => exact ⟨rfl, rfl⟩
  | barSet n k => exact ⟨rfl, rfl⟩
  | barClear n => exact ⟨rfl, rfl⟩
  | decl n v => exact ⟨rfl, rfl⟩
  | trcfg v => exact ⟨rfl, rfl⟩

theorem foldl_loops (l : List Pend) (sl : Slot) :
    (l.foldl Slot.applyPend sl).estage = sl.estage ∧ (l.foldl Slot.applyPend sl).loops = sl.loops := by
  induction l generalizing sl with
  | nil => exact ⟨rfl, rfl⟩
  | cons x l ih => exact ⟨(ih _).1.trans (applyPend_loops _ _).1, (ih _).2.trans (applyPend_loops _ _).2⟩

/-- Live-ins depend on the registers, the results in flight and the loops alone. -/
theorem capture_same {a b : Slot} (h : SameRegs a b) (hp : a.pend = b.pend) (he : a.estage = b.estage)
    (hl : a.loops = b.loops) : a.capture = b.capture := by
  have hs : SameRegs a.flush b.flush := by
    unfold Slot.flush; rw [hp]; exact foldl_same _ _ _ _ ⟨h.1, h.2.1, h.2.2⟩ rfl
  have ha := foldl_loops (a.pend.filter (fun p => p.tag = 0)) { a with pend := a.pend.filter (fun p => p.tag ≠ 0) }
  have hb := foldl_loops (b.pend.filter (fun p => p.tag = 0)) { b with pend := b.pend.filter (fun p => p.tag ≠ 0) }
  unfold Slot.capture
  have e1 : a.flush.estage = b.flush.estage := ha.1.trans (he.trans hb.1.symm)
  have e2 : a.flush.loops = b.flush.loops := ha.2.trans (hl.trans hb.2.symm)
  simp only [hs.1, hs.2.1, e1, e2]

/-- A closing word whose body leaves `s` but for registers and results in flight is done. -/
theorem closingDone_of {s b : State} {lat : Nat} {g : Nat → Word} {p : Nat → Bool} (p0 : List Pend)
    (hl : (s.slot s.cur.u).latch = none) (hb : BodyDone s b lat g p) :
    ClosingDone s ((b.issued s.cur.u).retire s.cur.u s.cur p0 true none) lat g p
      ((s.slot s.cur.u).pc + s.cur.len) := by
  obtain ⟨x, h1, h2, h3, h4, h5, h6, m, hm, k⟩ := retire_slot none p0 true hl hb
  obtain ⟨m1, m2, m3, m4⟩ := moveOn_plain x s.cur.len s.cur.ctl.stall.toNat s.clock none h1
  rw [← hm] at m1 m2 m3 m4
  obtain ⟨k1, k2, k3, k4, k5, k6⟩ := k ⟨m3.trans h5, fun t => (wordOver_closing_same _ t).trans
    ((wordOver_same m.1 t).symm.trans (m4 t))⟩ _ rfl
  refine ⟨k1, k2, k3, ?_, k5, k6, ?_⟩
  · rw [k4]
    have hf : (m.1.wordOver false).frame = (s.slot s.cur.u).frame := m1.trans h6
    have hr : ((m.1.wordOver true).frame) = { (m.1.wordOver false).frame with
        region := { (m.1.wordOver false).region with pc := (m.1.wordOver true).pc, live := (m.1.wordOver true).capture } } := by
      have hc : (m.1.wordOver true).capture = (m.1.wordOver false).capture := capture_same ⟨rfl, rfl, rfl⟩ rfl rfl rfl
      rw [hc]; rfl
    have hreg : (m.1.wordOver false).region = (s.slot s.cur.u).region := by
      have := congrArg Slot.region hf; exact this
    rw [hr, hf, hreg]
  · rw [k4]
    unfold Slot.movesTo at m2 ⊢
    rw [h2, h3, h4] at m2
    exact m2

/-- A word whose body leaves `s` but for registers and results in flight is done. -/
theorem wordDone_of {s b : State} {lat : Nat} {g : Nat → Word} {p : Nat → Bool} (nx : Option Nat) (p0 : List Pend)
    (hl : (s.slot s.cur.u).latch = none) (hb : BodyDone s b lat g p) :
    WordDone s ((b.issued s.cur.u).retire s.cur.u s.cur p0 false nx) lat g p
      (nx.getD ((s.slot s.cur.u).pc + s.cur.len)) := by
  obtain ⟨x, h1, h2, h3, h4, h5, m, hm, k⟩ := retire_keeps nx p0 hl hb
  obtain ⟨m1, m2, m3, m4⟩ := moveOn_plain x s.cur.len s.cur.ctl.stall.toNat s.clock nx h1
  rw [← hm] at m1 m2 m3 m4
  obtain ⟨k1, k2⟩ := k ⟨m3.trans h5, m1, m4⟩
  refine ⟨k1, ?_⟩
  rw [k2]
  unfold Slot.movesTo at m2 ⊢
  rw [h2, h3, h4] at m2
  exact m2

/-- A word whose body redirects the slot has jumped. -/
theorem wordJumps_of {s b : State} {lat : Nat} {g : Nat → Word} {p : Nat → Bool} {go : Nat} {left : List LoopRec}
    (p0 : List Pend) (hl : (s.slot s.cur.u).latch = none) (hb : BodyDone s b lat g p (some go) left) :
    WordJumps s ((b.issued s.cur.u).retire s.cur.u s.cur p0 false none) lat g p go left := by
  obtain ⟨x, h1, h2, h3, h4, h5, m, hm, k⟩ := retire_keeps none p0 hl hb
  obtain ⟨m1, m2, m3, m4, m5, m6⟩ := moveOn_jump x s.cur.len s.cur.ctl.stall.toNat s.clock none go h1
  rw [← hm] at m1 m2 m3 m4 m5 m6
  obtain ⟨k1, k2⟩ := k ⟨m5.trans h5, m1, m6⟩
  exact ⟨k1, by rw [k2]; exact m2, by rw [k2]; exact m3.trans h2, by rw [k2]; exact m4⟩

/-- A sequencer word that issues unhindered and whose body succeeds retires. -/
theorem seqWord_ok {s b : State} {body : State → M State} (h : s.Issues) (hb : body s = .ok b) :
    seqWord body s = .next ((b.issued s.cur.u).retire s.cur.u s.cur s.me.pend false none) := by
  unfold seqWord
  rw [h.wait]
  show (match body s with | .ok t => _ | .error e => _) = _
  rw [hb]

theorem seqWordTo_ok {s b : State} {nx : NextPc} {body : State → M (State × NextPc)} (h : s.Issues)
    (hb : body s = .ok (b, nx)) :
    seqWordTo body s = .next ((b.issued s.cur.u).retire s.cur.u s.cur s.me.pend false nx) := by
  unfold seqWordTo
  rw [h.wait]
  show (match body s with | .ok t => _ | .error e => _) = _
  rw [hb]

/-- A word whose body leaves `m` but for registers and results in flight completes. -/
theorem seqWord_done {s m b : State} {body : State → M State} {lat : Nat} {g : Nat → Word} {p : Nat → Bool}
    (h : s.Issues) (hm : m.cur = s.cur) (hl : (m.slot s.cur.u).latch = none) (hb : body s = .ok b)
    (hd : BodyDone m b lat g p) :
    ∃ t, seqWord body s = .next t ∧ WordDone m t lat g p ((m.slot s.cur.u).pc + s.cur.len) :=
  ⟨_, seqWord_ok h hb, hm ▸ wordDone_of none s.me.pend (by rw [hm]; exact hl) hd⟩

/-- The same with a word that says where the PC goes next. -/
theorem seqWordTo_done {s m b : State} {body : State → M (State × NextPc)} {nx : NextPc} {lat : Nat} {g : Nat → Word}
    {p : Nat → Bool} (h : s.Issues) (hm : m.cur = s.cur) (hl : (m.slot s.cur.u).latch = none)
    (hb : body s = .ok (b, nx)) (hd : BodyDone m b lat g p) :
    ∃ t, seqWordTo body s = .next t ∧ WordDone m t lat g p (nx.getD ((m.slot s.cur.u).pc + s.cur.len)) :=
  ⟨_, seqWordTo_ok h hb, hm ▸ wordDone_of nx s.me.pend (by rw [hm]; exact hl) hd⟩

/-- The same with a redirect. -/
theorem seqWord_jumps {s m b : State} {body : State → M State} {lat : Nat} {g : Nat → Word} {p : Nat → Bool} {go : Nat}
    {left : List LoopRec} (h : s.Issues) (hm : m.cur = s.cur) (hl : (m.slot s.cur.u).latch = none)
    (hb : body s = .ok b) (hd : BodyDone m b lat g p (some go) left) :
    ∃ t, seqWord body s = .next t ∧ WordJumps m t lat g p go left :=
  ⟨_, seqWord_ok h hb, hm ▸ wordJumps_of s.me.pend (by rw [hm]; exact hl) hd⟩

/-- A closing word whose region closes, and whose body has answered at once. -/
theorem closingWord_done {s c m b : State} {check : State → M Unit} {body : State → M State} {lat : Nat} {g : Nat → Word}
    {p : Nat → Bool} (h : s.Issues) (hc : s.Closes c) (hk : check s = .ok ()) (hb : body c = .ok b) (hm : m.cur = s.cur)
    (hl : (m.slot s.cur.u).latch = none) (hi : (b.slot s.cur.u).inHand = none) (hd : BodyDone m b lat g p) :
    ∃ t, closingWord check body s = .next t ∧ ClosingDone m t lat g p ((m.slot s.cur.u).pc + s.cur.len) := by
  refine ⟨(b.issued s.cur.u).retire s.cur.u s.cur c.me.pend true none, ?_, ?_⟩
  · unfold closingWord
    rw [h.wait]
    show (match (check s >>= fun _ => closeAll s) with | .error e => _ | .ok t => _) = _
    rw [hk]
    show (match closeAll s with | .error e => _ | .ok t => _) = _
    unfold closeAll
    simp only [hc.slow, Bool.false_eq_true, if_false, ← hc.closed, hc.latch, hb, hi, Option.isSome_none]
  · have := closingDone_of (s := m) (b := b) (p0 := c.me.pend) (by rw [hm]; exact hl) hd
    rw [hm] at this
    exact this

/-- A closing word that waits in its slot for an answer. -/
theorem closingWord_waits {s c b : State} {check : State → M Unit} {body : State → M State} (h : s.Issues) (hc : s.Closes c)
    (hk : check s = .ok ()) (hb : body c = .ok b) (hi : (b.slot s.cur.u).inHand.isSome = true) :
    closingWord check body s = .next (b.issued s.cur.u) := by
  unfold closingWord
  rw [h.wait]
  show (match (check s >>= fun _ => closeAll s) with | .error e => _ | .ok t => _) = _
  rw [hk]
  show (match closeAll s with | .error e => _ | .ok t => _) = _
  unfold closeAll
  simp only [hc.slow, Bool.false_eq_true, if_false, ← hc.closed, hc.latch, hb, hi, if_true]

/-- The case of a word that changes nothing but registers and results in flight. -/
theorem seqWord_regs {s b : State} {body : State → M State} {lat : Nat} {g : Nat → Word} {p : Nat → Bool}
    (h : s.Issues) (hb : body s = .ok b) (hd : BodyDone s b lat g p) :
    ∃ t, seqWord body s = .next t ∧ WordDone s t lat g p ((s.slot s.cur.u).pc + s.cur.len) :=
  seqWord_done h rfl h.latch hb hd

/-! Reading and writing registers when nothing is in flight -/

theorem rdG_ok {s : State} (h : (s.slot s.cur.u).pend = []) (n : BitVec 6) :
    rdG s n = .ok ((s.slot s.cur.u).greg n.toNat) := by
  unfold rdG
  split
  · rename_i hn; subst hn; rfl
  · simp only [State.me_eq, readHazard, h, List.find?_nil, List.any_nil, Bool.and_false]; rfl

theorem rdP_ok {s : State} (h : (s.slot s.cur.u).pend = []) (n : Nat) :
    rdP s n = .ok ((s.slot s.cur.u).pred n) := by
  unfold rdP
  split
  · rename_i hn; subst hn; rfl
  · simp only [State.me_eq, readHazard, h, List.find?_nil, List.any_nil, Bool.and_false]; rfl

theorem addPend_nil (p : Pend) : addPend p [] = [p] := rfl

theorem toNat_ne_zero {n : BitVec 6} (h : n ≠ 0) : n.toNat ≠ 0 := by
  intro e; exact h (BitVec.eq_of_toNat_eq (by simpa using e))

/-- One result in flight is written when it is due. -/
theorem settle_one (sl : Slot) (lk : Bool) (t : Nat) (e : PendEff) :
    ({ sl with pend := [⟨t, lk, 0, e⟩] }.settle t) = { sl with pend := [] }.applyPend ⟨t, lk, 0, e⟩ := by
  simp [Slot.settle]

theorem gWith_zero (s : State) (n : BitVec 6) (v : Word) (h : n = 0) : s.gWith n v = (s.slot s.cur.u).greg := by
  funext m; simp [State.gWith, h]

theorem greg_of_setPhys {s : State} {a : Slot} {n : BitVec 6} {v : Word} (hn : n ≠ 0)
    (h : SameRegs a ((s.slot s.cur.u).setPhys ((s.slot s.cur.u).phys n.toNat) v)) (m : Nat) (hm : m < 64) :
    a.greg m = s.gWith n v m := by
  have hn0 := toNat_ne_zero hn
  rw [h.greg]
  have := Slot.greg_setGreg (s.slot s.cur.u) n.toNat m v (by omega) hm
  simp only [Slot.setGreg, if_neg hn0] at this
  simp only [State.gWith]
  by_cases hmn : m = n.toNat
  · subst hmn; simp only [hn0, ne_eq, not_false_eq_true, and_self, if_true] at this ⊢
    exact this
  · simp only [hmn, false_and, if_false] at this ⊢; exact this

/-- A state that differs from `s` in the word's slot alone, and there in the registers and what is in flight. -/
theorem bodyDone_slot {s : State} (h : s.Issues) {x : Slot} {lat : Nat} {g : Nat → Word} {p : Nat → Bool}
    (hf : x.frame = (s.slot s.cur.u).frame) (hpc : x.pc = (s.slot s.cur.u).pc) (hl : x.loops = (s.slot s.cur.u).loops)
    (hn : x.npc = (s.slot s.cur.u).npc)
    (hg : ∀ n, n < 64 → (x.settle (s.clock + lat)).greg n = g n)
    (hp : ∀ n, n < 8 → (x.settle (s.clock + lat)).pred n = p n) :
    BodyDone s (s.setSlot s.cur.u x) lat g p :=
  ⟨⟨rfl, fun _ => rfl, fun u hu => by simp [hu], by simpa using hf, by simpa using hg, by simpa using hp⟩,
    by simpa using hpc, by simpa using hl, by simpa [h.npc] using hn⟩

/-- Nothing at all is done. -/
theorem bodyDone_same {s : State} (h : s.Issues) (lat : Nat) :
    BodyDone s s lat (s.slot s.cur.u).greg (s.slot s.cur.u).pred :=
  ⟨⟨rfl, fun _ => rfl, fun _ _ => rfl, rfl, fun n _ => (settle_nil _ _ h.pend).greg n,
    fun n _ => (settle_nil _ _ h.pend).pred n⟩, rfl, rfl, h.npc⟩

/-- A fixed-latency register write of a slot with nothing in flight: the register holds the value from the latency on, and
nothing else changes. -/
theorem wrG_done {s : State} (h : s.Issues) (n : BitVec 6) (v : Word) (lat : Nat) :
    ∃ b, wrG s n v lat = .ok b ∧ BodyDone s b lat (s.gWith n v) (s.slot s.cur.u).pred := by
  unfold wrG
  split
  · rename_i hn
    exact ⟨s, rfl, gWith_zero s n v hn ▸ bodyDone_same h lat⟩
  · rename_i hn
    unfold wrEff writeHazard
    simp only [State.me_eq, h.pend, List.find?_nil, List.any_nil, Bool.and_false, State.modMe_eq]
    refine ⟨_, rfl, ?_⟩
    by_cases hlat : lat ≤ 1
    · simp only [if_pos hlat]
      have hs : ∀ t, SameRegs (({ s.slot s.cur.u with pend := [] }.setPhys ((s.slot s.cur.u).phys n.toNat) v).settle t)
          ((s.slot s.cur.u).setPhys ((s.slot s.cur.u).phys n.toNat) v) :=
        fun t => (settle_nil _ t rfl).trans ⟨rfl, rfl, rfl⟩
      exact bodyDone_slot h rfl rfl rfl rfl (fun m hm => greg_of_setPhys hn (hs _) m hm) (fun m _ => (hs _).pred m)
    · simp only [if_neg hlat, addPend_nil]
      refine bodyDone_slot h rfl rfl rfl rfl (fun m hm => ?_) (fun m _ => ?_)
      · rw [settle_one]; exact greg_of_setPhys hn ⟨rfl, rfl, rfl⟩ m hm
      · rw [settle_one]; rfl

/-- An interlocked result of a slot with nothing in flight: the register holds the value from the latency on. -/
theorem wrLocked_done {s : State} (h : s.Issues) (n : BitVec 6) (v : Word) (lat : Nat) :
    ∃ b, wrLocked s n v lat = .ok b ∧ BodyDone s b lat (s.gWith n v) (s.slot s.cur.u).pred := by
  unfold wrLocked
  split
  · rename_i hn
    exact ⟨s, rfl, gWith_zero s n v hn ▸ bodyDone_same h lat⟩
  · rename_i hn
    unfold writeHazard
    simp only [State.me_eq, h.pend, List.find?_nil, List.any_nil, Bool.and_false, State.modMe_eq, addPend_nil]
    refine ⟨_, rfl, bodyDone_slot h rfl rfl rfl rfl (fun m hm => ?_) (fun m _ => ?_)⟩
    · rw [settle_one]; exact greg_of_setPhys hn ⟨rfl, rfl, rfl⟩ m hm
    · rw [settle_one]; rfl

theorem pred_setPred (sl : Slot) (n m : Nat) (v : Bool) (hn : n < 8) (hm : m < 8) :
    (sl.setPred n v).pred m = if m = n ∧ m ≠ 0 then v else sl.pred m := by
  unfold Slot.setPred
  by_cases h : n = 0
  · subst h; by_cases hm0 : m = 0 <;> simp [hm0]
  · by_cases hm0 : m = 0
    · subst hm0; simp [Slot.pred]
    · by_cases hmn : m = n
      · subst hmn; cases v <;> simp [Slot.pred, h, hm]
      · have e : ¬ (m - n = 0 ∧ n ≤ m) := by omega
        cases v <;> simp [Slot.pred, h, hm0, hmn, hm] <;> omega

/-- A fixed-latency predicate write of a slot with nothing in flight. -/
theorem wrP_done {s : State} (h : s.Issues) (n : Nat) (hn8 : n < 8) (v : Bool) (lat : Nat) :
    ∃ b, wrP s n v lat = .ok b ∧ BodyDone s b lat (s.slot s.cur.u).greg (s.pWith n v) := by
  have hw : ∀ (a : Slot), a.preds = ((s.slot s.cur.u).setPred n v).preds → ∀ m, m < 8 → a.pred m = s.pWith n v m := by
    intro a ha m hm
    have := pred_setPred (s.slot s.cur.u) n m v hn8 hm
    simp only [State.pWith, ← this]
    unfold Slot.pred; rw [ha]
  unfold wrP
  split
  · rename_i hn
    refine ⟨s, rfl, ?_⟩
    have : s.pWith n v = (s.slot s.cur.u).pred := by funext m; simp [State.pWith, hn]
    exact this ▸ bodyDone_same h lat
  · rename_i hn
    unfold wrEff writeHazard
    simp only [State.me_eq, h.pend, List.find?_nil, List.any_nil, Bool.and_false, State.modMe_eq]
    refine ⟨_, rfl, ?_⟩
    by_cases hlat : lat ≤ 1
    · simp only [if_pos hlat, Slot.setPred, if_neg hn]
      refine bodyDone_slot h rfl rfl rfl rfl (fun m _ => ?_) (fun m hm => ?_)
      · rw [(settle_nil _ _ rfl).greg]; rfl
      · rw [(settle_nil _ _ rfl).pred]; exact hw _ (by simp [Slot.setPred, hn]) m hm
    · simp only [if_neg hlat, addPend_nil]
      refine bodyDone_slot h rfl rfl rfl rfl (fun m _ => ?_) (fun m hm => ?_)
      · rw [settle_one]; simp only [Slot.applyPend, Slot.setPred, if_neg hn]; rfl
      · rw [settle_one]; exact hw _ (by simp [Slot.applyPend, Slot.setPred, hn]) m hm

theorem keeps_cur {s t : State} {lat : Nat} {g : Nat → Word} {p : Nat → Bool} (h : WordKeeps s t lat g p) :
    t.cur = s.cur := by
  have := congrArg State.cur h.rest; exact this

/-- A control register changed, beside the registers written: the state it is done from has the change too. -/
theorem bodyDone_csr {s b : State} {lat : Nat} {g : Nat → Word} {p : Nat → Bool} {go : Option Nat}
    (hb : BodyDone s b lat g p go) (f : Csrs → Csrs) (hu : ∀ c, (f c).uiact = c.uiact) :
    BodyDone (s.setSlot s.cur.u ((s.slot s.cur.u).modCsr f)) (b.setSlot s.cur.u ((b.slot s.cur.u).modCsr f)) lat g p go := by
  have hc := keeps_cur hb.keeps
  have hsame : ∀ t, SameRegs (((b.slot s.cur.u).modCsr f).settle t) ((b.slot s.cur.u).settle t) := by
    intro t
    refine settle_same _ _ _ ⟨rfl, rfl, hu _⟩ rfl
  refine ⟨⟨hb.keeps.rest, hb.keeps.cores, ?_, ?_, ?_, ?_⟩, ?_, ?_, ?_⟩
  · intro v hv
    have hv' : v ≠ s.cur.u := hv
    simp only [State.slot_setSlot, if_neg hv']
    exact hb.keeps.others v hv'
  · simp only [State.slot_setSlot, State.setSlot_cur, if_true]
    have := hb.keeps.frame
    have h2 := congrArg (fun x : Slot => x.modCsr f) this
    exact h2
  · intro n hn
    simp only [State.slot_setSlot, State.setSlot_cur, State.setSlot_clock, if_true]
    rw [(hsame _).greg]; exact hb.keeps.gregs n hn
  · intro n hn
    simp only [State.slot_setSlot, State.setSlot_cur, State.setSlot_clock, if_true]
    rw [(hsame _).pred]; exact hb.keeps.preds n hn
  · simpa using hb.pc
  · simpa using hb.loops
  · simpa using hb.npc

/-- Writing a slot back as it is changes nothing that is read. -/
theorem bodyDone_rewrite {s b : State} {lat : Nat} {g : Nat → Word} {p : Nat → Bool} {go : Option Nat} {left : List LoopRec}
    (hb : BodyDone s b lat g p go left) (u : Nat) (x : Slot) (hx : x = b.slot u) :
    BodyDone s (b.setSlot u x) lat g p go left := by
  have hs : ∀ v, (b.setSlot u x).slot v = b.slot v := by
    intro v; simp only [State.slot_setSlot]; split
    · subst_vars; rfl
    · rfl
  refine ⟨⟨hb.keeps.rest, hb.keeps.cores, ?_, ?_, ?_, ?_⟩, ?_, ?_, ?_⟩
  · intro v hv; rw [hs]; exact hb.keeps.others v hv
  · rw [hs]; exact hb.keeps.frame
  · intro n hn; rw [hs]; exact hb.keeps.gregs n hn
  · intro n hn; rw [hs]; exact hb.keeps.preds n hn
  · rw [hs]; exact hb.pc
  · rw [hs]; exact hb.loops
  · rw [hs]; exact hb.npc

/-! Reading several operands -/

theorem ok_bind {α β : Type} (a : α) (f : α → M β) : (Except.ok a >>= f : M β) = f a := rfl

theorem need_true (c sub o : Nat) : need true c sub o = .ok () := rfl

theorem opB_ok {s : State} (h : (s.slot s.cur.u).pend = []) (f : S3) :
    opB s f = .ok (if f.i then sext64 17 f.funct.toNat else (s.slot s.cur.u).greg f.rb.toNat) := by
  unfold opB
  split
  · rfl
  · exact rdG_ok h _

theorem rdPs_ok {s : State} (h : (s.slot s.cur.u).pend = []) (l : List Nat) :
    rdPs s l = .ok ((l.map (fun k => if (s.slot s.cur.u).pred k then 2 ^ k else 0)).sum) := by
  induction l with
  | nil => rfl
  | cons k l ih => simp only [rdPs, rdP_ok h, ih, ok_bind]; rfl

/-- Flags none of which is trapped are set in AFLAGS and nothing else (R81, R82). -/
theorem raise_untrapped (sl : Slot) (fl : Nat)
    (hk : ∀ k, k < 7 → bitOf fl k = true → sl.csr.corectl.getLsbD (k + 4) = false) :
    sl.raise fl = sl.modCsr (fun c => { c with aflags := c.aflags ||| BitVec.ofNat 7 fl }) := by
  unfold Slot.raise
  have : (List.range 7).find? (fun k => bitOf fl k &&
      (sl.modCsr (fun c => { c with aflags := c.aflags ||| BitVec.ofNat 7 fl })).corectl (k + 4)) = none := by
    rw [List.find?_eq_none]
    intro k hk2 hc
    simp only [Slot.corectl, Slot.modCsr_csr, Bool.and_eq_true] at hc
    have := hk k (by simpa using hk2) hc.1
    simp_all
  simp only [this]

end Sys2Proof.Machine
end

