-- ==== Sys2Proof/Laws/Eng.lean ====
section
/-! SUPPORT. What an engine word leaves when it fires. -/

namespace Sys2Proof.Machine
open Sys2Proof

theorem quiet_unfired {a b : CoreSt} (h : a.quiet = b.quiet) : a.unfired = b.unfired := by
  have := congrArg CoreSt.unfired h
  exact this

/-- The vector engine's bookkeeping at a fire touches nothing else. -/
theorem vecFire_frame (s : State) (core : Nat) (g : InFlight) :
    (s.vecFire core g).rest = s.rest ∧ (∀ d, ((s.vecFire core g).core d).unfired = (s.core d).unfired) ∧
      (s.vecFire core g).slots = s.slots := by
  refine ⟨rfl, fun d => ?_, rfl⟩
  unfold State.vecFire
  simp only [State.modCore_eq, State.core_setCore]; split
  · rename_i h; subst h; rfl
  · rfl

/-- An entry that stands in its free engine: everything else is as in `m`. -/
theorem standEntry_fires {m x : State} {f : InFlight} (h1 : x.rest = m.rest)
    (h2 : ∀ d, (x.core d).unfired = (m.core d).unfired) (h3 : x.slots = m.slots) (own : m.cur.drain = false) :
    EntryFires m (x.standEntry (m.slot m.cur.u) f) f := by
  have hxc : x.cur = m.cur := by
    have := congrArg State.cur h1; exact this
  have hset : ∀ sl : Slot, x.setESlot sl = x.setSlot m.cur.u sl := by
    intro sl; unfold State.setESlot State.setView; rw [hxc, own]; rfl
  unfold State.standEntry
  rw [hset, hxc]
  refine ⟨h1, h2, fun v hv => ?_, ⟨Tbl.set 0 (m.slot m.cur.u).engNext (engKey (engNum m.cur.strm) m.cur.drain)
    (x.clock + f.delay + m.cur.ctl.stall.toNat), ?_⟩⟩
  · simp only [State.modMe_eq, State.setSlot_cur, hxc, State.slot_setSlot, if_neg hv]
    exact slot_of_slots h3 v
  · simp only [State.modMe_eq, State.setSlot_cur, hxc, State.slot_setSlot, if_true]

/-- Looking at the next entry moves nothing. -/
theorem seekMate_fires {m t : State} {f : InFlight} (sl : Slot) (g : InFlight) (h : EntryFires m t f) :
    EntryFires m (t.seekMate sl g) f := by
  unfold State.seekMate
  split
  · exact ⟨h.rest, h.cores, h.others, h.slot⟩
  · exact h

theorem takeTurn_frame (m : State) (g : InFlight) : (m.takeTurn g).rest = m.rest ∧
    (∀ d, ((m.takeTurn g).core d).unfired = (m.core d).unfired) ∧ (m.takeTurn g).slots = m.slots := by
  refine ⟨rfl, fun d => ?_, rfl⟩
  unfold State.takeTurn
  simp only [State.modCore_eq, State.core_setCore]; split
  · rename_i h; subst h; rfl
  · rfl

/-- An entry whose engine is free fires, from the state its body has left; a long word of the vector engine needs the long
unit too. -/
theorem fire_ok {m : State} (f : InFlight) (hm : m.EngineFree) (hl : engNum m.cur.strm ≠ 0 → f.long = 0) :
    ∃ t, m.fire f = .ok t ∧ EntryFires m t f := by
  have hv : m.eSlot = m.slot m.cur.u := by unfold State.eSlot State.view; rw [hm.own]; rfl
  obtain ⟨a1, b1, c1⟩ := takeTurn_frame m f
  have hr : engReady m none f = .ok () := by
    unfold engReady
    have hfree := hm.free
    have hlong : f.long = 0 ∨ (m.core (coreOf m.cur.u)).longFree ≤ m.clock := by
      by_cases he : engNum m.cur.strm = 0
      · exact .inr (hm.long he)
      · exact .inl (hl he)
    rw [if_neg (by simp; omega), if_neg (by simp; omega)]
  unfold State.fire
  simp only [hv, hm.idle, Option.map_none, hr, pure, ok_bind]
  refine ⟨_, rfl, seekMate_fires _ _ ?_⟩
  by_cases he : engNum m.cur.strm = 0
  · obtain ⟨a, b, c⟩ := vecFire_frame (m.takeTurn f) (coreOf m.cur.u) f
    rw [if_pos he]
    exact standEntry_fires (a.trans a1) (fun d => (b d).trans (b1 d)) (c.trans c1) hm.own
  · rw [if_neg he]
    exact standEntry_fires a1 b1 c1 hm.own

/-- In an idle engine no entry chosen earlier fires. -/
theorem refire_none {s : State} (own : s.cur.drain = false)
    (idle : (s.slot s.cur.u).eng.find? (fun x => x.1 == engNum s.cur.strm) = none) : s.refire = none := by
  have hv : s.eSlot = s.slot s.cur.u := by unfold State.eSlot State.view; rw [own]; rfl
  unfold State.refire
  simp only [hv, idle]

/-- A word in an idle engine fires from the state its body has left. -/
theorem engWord_fires {s m : State} {f : InFlight} {body : State → M (State × InFlight)} (hw : s.cur.ctl.wait = .none)
    (hr : s.refire = none) (hb : body s = .ok (m, f)) (hm : m.EngineFree) (hl : engNum m.cur.strm ≠ 0 → f.long = 0) :
    ∃ t, engWord body s = .next t ∧ EntryFires m t f := by
  obtain ⟨t, h1, h2⟩ := fire_ok f hm hl
  refine ⟨t, ?_, h2⟩
  unfold engWord
  rw [hr, hw]
  show (match orOver none ((body s) >>= fun t => t.1.fire t.2) with | .ok t => _ | .error e => _) = _
  rw [hb]
  show (match orOver none (m.fire f) with | .ok t => _ | .error e => _) = _
  rw [h1]
  rfl

end Sys2Proof.Machine
end

