-- ==== Sys2Proof/Tests/Base.lean ====
section
/-! SUPPORT. What the witnesses of the statements' hypotheses share: a small state with one task in slot 0 of core 0, ways
to change it, and checks that decide the structures the hypotheses name. -/

namespace Sys2Proof.Witness
set_option Elab.async false
open Sys2Proof Sys2Proof.Machine Sys2Proof.Claim

/-- The value of a check that passes. -/
def got {ε α : Type} [Inhabited α] (r : Except ε α) : α := match r with | .ok x => x | .error _ => default

def passes {ε α : Type} (r : Except ε α) : Bool := match r with | .ok _ => true | .error _ => false

theorem got_eq {ε α : Type} [Inhabited α] {r : Except ε α} (h : passes r = true) : r = .ok (got r) := by
  cases r with
  | ok x => rfl
  | error e => simp [passes] at h

theorem map_eq {ε α β : Type} [Inhabited α] (f : α → β) {r : Except ε α} (h : passes r = true) :
    r.map f = .ok (f (got r)) := by rw [got_eq h]; rfl

/-- A check that answers unit and passes. -/
theorem unit_eq {ε : Type} {r : Except ε Unit} (h : passes r = true) : r = .ok () := got_eq h

/-- A list of checks, and one of them by its place. -/
def allOf : List Bool → Bool
  | [] => true
  | b :: l => b && allOf l
def pick : List Bool → Nat → Bool
  | [], _ => true
  | b :: _, 0 => b
  | _ :: l, k + 1 => pick l k

/-- Where all checks of a list pass, each does. -/
theorem part {l : List Bool} (h : allOf l = true) (k : Nat) : pick l k = true := by
  induction l generalizing k with
  | nil => rfl
  | cons b l ih =>
    cases b with
    | false => exact absurd h (by simp [allOf])
    | true => cases k with
      | zero => rfl
      | succ k => exact ih h k

/-- Checks of a list, of an option, and of two values that are the same. -/
theorem nil_of {α : Type} {l : List α} (h : l.isEmpty = true) : l = [] := List.isEmpty_iff.mp h
theorem none_of {α : Type} {o : Option α} (h : o.isNone = true) : o = none := Option.isNone_iff_eq_none.mp h
theorem false_of {b : Bool} (h : (!b) = true) : b = false := by simpa using h

/-- `State.Issues`, decided. -/
def issuesL (s : State) : List Bool :=
  [s.cur.ctl.wait == .none, (s.slot s.cur.u).pend.isEmpty, (s.slot s.cur.u).latch.isNone, (s.slot s.cur.u).npc.isNone]
def issuesB (s : State) : Bool := allOf (issuesL s)

theorem issues {s : State} (h : issuesB s = true) : s.Issues :=
  ⟨eq_of_beq (part h 0), nil_of (part h 1), none_of (part h 2), none_of (part h 3)⟩

/-- `State.EngineFree`, decided. -/
def freeL (s : State) : List Bool :=
  [s.cur.ctl.wait == .none, !s.cur.drain, ((s.slot s.cur.u).eng.find? (fun x => x.1 == engNum s.cur.strm)).isNone,
    decide (Tbl.get 0 (s.core (coreOf s.cur.u)).engFree (engNum s.cur.strm) ≤ s.clock),
    decide (engNum s.cur.strm = 0 → (s.core (coreOf s.cur.u)).longFree ≤ s.clock)]
def freeB (s : State) : Bool := allOf (freeL s)

theorem free {s : State} (h : freeB s = true) : s.EngineFree :=
  ⟨eq_of_beq (part h 0), false_of (part h 1), none_of (part h 2), of_decide_eq_true (part h 3), of_decide_eq_true (part h 4)⟩

/-- A check that every entry of a table passes, and its default, is passed by what is read anywhere. -/
theorem each_entry {β : Type} {d : β} {p : β → Bool} {t : Tbl β} (hd : p d = true) (h : t.all (fun e => p e.2) = true)
    (k : Nat) : p (Tbl.get d t k) = true := by
  induction t with
  | nil => exact hd
  | cons e t ih =>
    rw [List.all_cons, Bool.and_eq_true] at h
    unfold Tbl.get
    split
    · exact h.1
    · exact ih h.2

/-- What holds below a bound is decided by trying. -/
theorem below {n : Nat} {p : Nat → Bool} (h : (List.range n).all p = true) (k : Nat) (hk : k < n) : p k = true :=
  List.all_eq_true.mp h k (List.mem_range.mpr hk)

/-- `StopsHere` and `LeavesHere`, decided. -/
def stopsL (s : State) (u : Nat) (m : Stream) : List Bool :=
  [!s.dueBefore (coreOf u) (faultPlace u m), (List.range 4).all (fun k => !s.busy (4 * coreOf u + k)),
    s.slots.all (fun e => e.2.faults.isEmpty)]
theorem stops {s : State} {u : Nat} {m : Stream} (h : allOf (stopsL s u m) = true) : StopsHere s u m :=
  ⟨false_of (part h 0), fun k hk => false_of (below (part h 1) k hk),
    fun v => nil_of (each_entry (d := Slot.reset) (p := fun x => x.faults.isEmpty) rfl (part h 2) v)⟩
def leavesL (s : State) (u : Nat) : List Bool :=
  [(s.slot u).gang.isEmpty, (s.slot u).faults.isEmpty, !s.dueIn [u], !s.busy u, !s.roomComing u,
    !(s.slot u).closed.any (s.slowEntry u)]
theorem leaves {s : State} {u : Nat} (h : allOf (leavesL s u) = true) : LeavesHere s u :=
  ⟨nil_of (part h 0), ⟨nil_of (part h 1), false_of (part h 2)⟩, false_of (part h 3), false_of (part h 4), false_of (part h 5)⟩

/-- `Runs`, decided. -/
def runsL (s : State) (c : Nat) : List Bool := [(s.core c).stopped.isNone, (s.core c).raised.isNone]
theorem runs {s : State} {c : Nat} (h : allOf (runsL s c) = true) : Runs s c := ⟨none_of (part h 0), none_of (part h 1)⟩

/-- A task of launch run 1. -/
def task : Task := { (default : Task) with seq := 1, run := 1, tree := nullRef, jt := nullRef }

/-- One task in slot 0 of core 0, with 64 KiB of register space and of scratchpad, and a store buffer of 4 KiB. -/
def base : State := State.reset.setSlot 0 { Slot.reset with
  task := some task, seqLen := 64, mask := 15, alloc := ⟨0, 65536, 0, 65536, 65536, 4096⟩ }

/-- The slot, the core, the context, a register or the scratchpad of the word in hand changed. -/
def slotDo (s : State) (f : Slot → Slot) : State := s.modSlot 0 f
def coreDo (s : State) (f : CoreSt → CoreSt) : State := s.modCore 0 f
def ctxDo (s : State) (f : Ctx → Ctx) : State := s.modCtx 0 f
def setG (s : State) (n v : Nat) : State := slotDo s (fun sl => { sl with g := Tbl.put sl.g n (BitVec.ofNat 64 v) })
def setSp (s : State) (a n v : Nat) : State := coreDo s (fun c => { c with scratch := c.scratch.setNum a n v })

theorem got_pair {ε α β : Type} [Inhabited α] [Inhabited β] {r : Except ε (α × β)} {b : β} (h : passes r = true)
    (hb : (got r).2 = b) : r = .ok ((got r).1, b) := by
  cases r with
  | ok x => subst hb; rfl
  | error e => simp [passes] at h

theorem some3 {α β γ : Type} {x : Option (α × β × γ)} (h : x.isSome = true) : ∃ a b c, x = some (a, b, c) := by
  cases x with
  | some y => exact ⟨_, _, _, rfl⟩
  | none => simp at h

/-- `hasRoom`, decided. -/
def roomB (s : State) (e : Effect) : Bool :=
  let sl := s.slot s.cur.u
  let same (h : Held) : Bool := h.eff.buffered == e.buffered && (match h.eff with | .marker _ => false | _ => true)
  decide ((sl.opened.filter same).length + (sl.closed.filter same).length < (if e.buffered then sl.alloc.sbLen / 16 else 512))

theorem room {s : State} {e : Effect} (h : roomB s e = true) : hasRoom s e := by
  have := of_decide_eq_true h
  exact this

/-- The bytes of a tensor descriptor of one dimension: format, layout, flags, partition, extent, tile table. -/
def descBytes (fmt layout flags part e0 ttb : Nat) : List Byte :=
  leBytes 4 (fmt + 256 + 65536 * layout + 2 ^ 24 * flags) ++ leBytes 4 (part * 65536) ++ leBytes 4 e0 ++ leBytes 4 1 ++
    leBytes 4 1 ++ leBytes 4 1 ++ leBytes 8 0 ++ leBytes 8 ttb

/-- `base` on a package with its dies offered and its fabric trained; the tensor table stands at 1 MiB: tensor 1 is resident
(65536 bytes at 2 MiB), tensor 2 hosted, tensor 3 homed on package 1. -/
def world : State :=
  let s := base.modCtx 0 (fun x => { x with block := x.block.setNum 0 8 0x100000 })
  let d := ((((s.dram.store 0x100040 (descBytes 0xC 0 0 0 65536 0x180000)).store 0x100080
    (descBytes 0xC 0 8 0 65536 0x180040)).store 0x1000C0 (descBytes 0xC 0 4 0x4081 65536 0x180080)).setNum 0x180000 8
      (2 ^ 63 + 0x200000)).setNum 0x180040 8 (2 ^ 63 + 0x300000)
  { s with dram := d, hub := { s.hub with dieUp := 15 }, fab := { s.fab with trained := true, grid := 9 } }

/-- The word in hand has a prefix, or a stream. -/
def withPfx (s : State) (f : SP) : State := slotDo s (fun sl => { sl with pfx := some f })
def atEngine (s : State) (m : Stream) : State := { s with cur := { s.cur with strm := m } }

end Sys2Proof.Witness
end

