-- ==== Sys2Proof/Tests/Slice0.lean ====
section
/-! SUPPORT. Tests of the model: words written out in the spec's own examples, ill-formed terms that each static check
refuses, single steps through `withFetchWord`, and values the spec works out. -/

namespace Sys2Proof.Test
open Sys2Proof Sys2Proof.Machine

/-- What a word of a stream decodes to, with its control fields plain. -/
def plain (m : Stream) (w w2 : Nat) (i : Instr) : Bool :=
  match decode m w w2 with
  | .ok (c, j) => decide (j = i) && c.isZero
  | .error _ => false

/-- The subcause that refuses a word. -/
def refusedAs (m : Stream) (w w2 : Nat) : Option Nat :=
  match decode m w w2 with
  | .ok _ => none
  | .error e => some e

/-! Words of the spec's examples (02 to 20) -/

theorem test_words_integer : plain .seq 0x0000000514020001 0 (.add ⟨20, 20, 0, true, 1⟩) = true ∧
    plain .seq 0x0000000146020064 0 (.add ⟨5, 6, 0, true, 100⟩) = true ∧
    plain .seq 0x0000170300000002 0 (.li ⟨12, 2⟩) = true := by decide

theorem test_words_loop :
    plain .seq 0x000034000C003005 0x0002000000002040 (.loop ⟨0, 12, 0x3005⟩ ⟨2, 0, 1, 2, 0, 0, 0, 0, 0⟩) = true := by decide

theorem test_words_memory : plain .seq 0x0000F00501800000 0 (.pfx ⟨1, 2, 0, 0, false, 24, 0⟩) = true ∧
    plain .seq 0x00004002C4C00000 0 (.ld ⟨11, 4, 3, 0⟩) = true ∧
    plain .seq 0x0000420241C00000 0 (.st ⟨9, 1, 3, 0⟩) = true ∧
    plain .seq 0x0000450003280031 0 (.atom ⟨0, 3, 10, false, 0x31⟩) = true ∧
    plain .seq 0x000047000000000F 0 (.fence ⟨0, 0, 15⟩) = true := by decide

theorem test_words_launch : plain .seq 0x0000510000000012 0 (.rel ⟨0, 0, 0x12⟩) = true ∧
    plain .seq 0x000056000C000002 0 (.tlwait ⟨0, 12, 0, false, 2⟩) = true ∧
    plain .seq 0x0000520003000085 0 (.ringsetProd ⟨0, 3, 0, false, 0x85⟩) = true ∧
    plain .seq 0x00005501C0000084 0 (.semwait ⟨7, 0, 0x84⟩) = true ∧
    plain .seq 0x00005B0000000003 0 (.dphase ⟨0, 0, 3⟩) = true := by decide

theorem test_words_nodes : plain .seq 0x0000760004000000 0 (.nvloss ⟨0, 4, 0, false, 0⟩) = true ∧
    plain .seq 0x0000790184000000 0 (.nkey ⟨6, 4, 0, false, 0⟩) = true ∧
    plain .seq 0x0000770004140E00 0 (.nbackup ⟨0, 4, 5, false, 0xE00⟩) = true ∧
    plain .seq 0x0000690000002000 0 (.region ⟨0, 0, 0x2000⟩) = true := by decide

theorem test_words_pages : plain .seq 0x00008701461C0000 0 (.pfxlook ⟨5, 6, 7, false, 0⟩) = true ∧
    plain .seq 0x0000830004200000 0 (.kvinvInv ⟨0, 4, 8, false, 0⟩) = true ∧
    plain .seq 0x0000810003000000 0 (.kvfree ⟨0, 3, 0, false, 0⟩) = true := by decide

theorem test_words_counters : plain .seq 0x0000940008000000 0 (.trctlWr ⟨0, 8, 0, false, 0⟩) = true ∧
    plain .seq 0x0000930007000123 0 (.trmark ⟨0, 7, 0x123⟩) = true ∧
    plain .seq 0x0000900004140000 0 (.pmcfg ⟨0, 4, 5, false, 0⟩) = true ∧
    plain .seq 0x0000910184000000 0 (.pmrd ⟨6, 4, 0, false, 0⟩) = true ∧
    plain .seq 0x0000920004000001 0 (.pmclr ⟨0, 4, 0, false, 1⟩) = true ∧
    plain .seq 0x0000950000000000 0 .bcmsnap = true := by decide

theorem test_words_vector : plain .vec 0x0000000000040400 0 (.vadd ⟨0, 0, 8, 16, false, false, 0⟩) = true ∧
    plain .vec 0x00000200010C0840 0 (.vmul ⟨0, 1, 24, 33, false, false, 0⟩) = true ∧
    plain .vec 0x0000310028040000 0 (.vqnt ⟨0, 40, 8, 0, false, false, 0⟩) = true ∧
    plain .vec 0x0000810002000040 0 (.msub ⟨0, 2, 0, 1, false, false, 0⟩) = true ∧
    plain .vec 0x0000870014010002 0 (.mcol ⟨0, 20, 2, 0, false, false, 2⟩) = true := by decide

theorem test_words_matrix : plain .mtx 0x0000000F00000000 0 (.mlease ⟨15, 0, 0⟩) = true ∧
    plain .mtx 0x000002000000616C 0 (.mcfg ⟨0, 0, 0x616C⟩) = true ∧
    plain .mtx 0x0000410000017F00 0 (.mchainOpen ⟨0, 0, 0x17F00⟩) = true ∧
    plain .mtx 0x0000100011000302 0 (.mbld ⟨17, 3, 0, false, true⟩) = true ∧
    (decode .mtx 0x420020003F070000 0).toOption =
      some (⟨.sem 2, .none, 0⟩, .mstr ⟨0, 63, false, false, 3, true, 0⟩) := by decide

theorem test_words_copy : plain .copy 0x0000210080000004 0 (.cchan ⟨1, 4⟩) = true ∧
    plain .copy 0x0000200100001000 0 (.cbarset ⟨2, 4096⟩) = true ∧
    plain .copy 0x0000000000A11400 0 (.ccopy ⟨5, 1, 2, true, 0⟩) = true := by decide

theorem test_words_access : plain .acc 0x0000010600000100 0 (.aqcfg ⟨3, 0, 256⟩) = true ∧
    plain .acc 0x0000100400303000 0 (.rld ⟨2, 12, 3, 0⟩) = true ∧
    plain .acc 0x0000120000507710 0 (.ratom ⟨0, 20, 7, 0x71⟩) = true ∧
    plain .acc 0x0000200000740140 0 (.xsend ⟨7, 1, 40⟩) = true ∧
    plain .acc 0x00003000000000D0 0 (.rfence ⟨0, 0, 0, 0xD⟩) = true := by decide

/-- R33, R34, R38: VADD with ?sem3 and a stall of 2; and each way a word is refused, in R38's order. -/
theorem test_words_control : (decode .vec 0x430000200C018120 0).toOption =
      some (⟨.sem 3, .none, 2⟩, .vadd ⟨0, 12, 3, 4, true, false, 0⟩) ∧
    refusedAs .seq 0x0000390000000000 0 = some 1 ∧ refusedAs .seq 0x01003A0000000000 0 = some 5 ∧
    refusedAs .copy 0x0000111000000000 0 = some 4 ∧ refusedAs .seq 0x00003A0000000001 0 = some 2 ∧
    refusedAs .seq 0x0000200000000009 0 = some 3 := by decide

/-! Ill-formed terms (02 R38 to R46) -/

/-- A field that must be zero is not: one term for each shape of check. -/
theorem test_reserved_refused : ([.add ⟨1, 1, 0, false, 1⟩, .add ⟨1, 1, 1, true, 0⟩, .clz ⟨1, 1, 1, false, 0⟩,
    .cmp ⟨8, 1, 1, false, 0⟩, .pand ⟨1, 1, 1, false, 4⟩, .call ⟨1, false, 0⟩, .call ⟨0, true, 0⟩, .jmp ⟨1, 0, 0, false, 0⟩,
    .loop ⟨1, 1, 0x1000⟩ ⟨0, 0, 0, 0, 0, 0, 0, 0, 0⟩, .loop ⟨0, 1, 0x1000⟩ ⟨0, 0, 5, 0, 0, 0, 0, 0, 0⟩, .clz ⟨1, 1, 0, true, 0⟩, .loopx ⟨0, 1, 0x1100⟩,
    .trap ⟨1, 0, 0⟩, .fence ⟨0, 0, 0x20⟩, .pfx ⟨1, 0, 0, 0, false, 0, 0⟩, .pfx ⟨0, 0, 4, 0, true, 4, 0⟩,
    .pfx ⟨0, 0, 3, 0, false, 4, 1⟩, .tspawn ⟨0, 1, 1, false, 0⟩, .tcancel ⟨0, 1, 0, false, 0x100⟩, .tquery ⟨1, 1, 0, false, 0⟩,
    .region ⟨0, 0, 0x2001⟩, .bfflush ⟨0, 0, 0x101⟩, .vabs ⟨0, 1, 1, 0, false, true, 0⟩, .vmin ⟨0, 1, 1, 1, false, false, 8⟩,
    .vcvt ⟨0, 1, 1, 1, false, false, 0⟩, .vldr ⟨0, 1, 0, 0x1000⟩, .vldr ⟨0, 1, 0, 0x28⟩, .mfrom ⟨0, 1, 1, 1, false, false, 2⟩,
    .mlease ⟨1, 1, 0⟩, .mcfg ⟨0, 0, 0x10021⟩, .mbld ⟨1, 1, 1, false, false⟩, .mbcsr ⟨1, 1, 0, true, false⟩,
    .mstr ⟨0, 0, false, true, 8, false, 0⟩, .mzero ⟨0, 0, false, false, 0, true, 0⟩, .mheaprd ⟨0, 0, 0x1000⟩,
    .mchainOpen ⟨0, 0, 0x10001⟩, .ccopy ⟨1, 16, 0, false, 0⟩, .ccopy ⟨1, 0, 1, false, 0⟩, .csched ⟨1, 0, 0, true, 0⟩,
    .cchan ⟨16, 0⟩, .aqcfg ⟨0, 1, 0⟩, .aqstop ⟨0, 0, 2⟩, .rst ⟨1, 1, 0, 0⟩, .rcas ⟨0, 1, 0, 0x2F⟩, .rfence ⟨0, 0, 1, 0⟩,
    .xpost ⟨0x400, 0, 1⟩, .xresume ⟨1, 1, 0⟩] : List Instr).all (fun i => !i.reservedOk) = true := by decide

/-- A field value the instruction does not accept: one term for each kind of check. -/
theorem test_values_refused : ([.cmp ⟨1, 1, 1, false, 8⟩, .pmovRd ⟨1, 0, 0, false, 5⟩,
    .fadd ⟨1, 1, 1, false, 3⟩, .fadd ⟨1, 1, 1, false, 8⟩, .fmin ⟨1, 1, 1, false, 4⟩, .fcmp ⟨1, 1, 1, false, 0x50⟩,
    .fcvt ⟨1, 1, 0, false, 0⟩, .fcvt ⟨1, 1, 0, false, 5⟩, .br ⟨0, true, 0⟩, .loop ⟨0, 1, 0⟩ ⟨0, 0, 0, 0, 0, 0, 0, 0, 0⟩,
    .loop ⟨0, 1, 0x1000⟩ ⟨0, 1, 0, 0, 0, 0, 0, 0, 0⟩, .loop ⟨0, 1, 0x2000⟩ ⟨1, 0, 2, 0, 0, 0, 0, 0, 0⟩, .loopx ⟨0, 1, 0⟩,
    .cinvWb ⟨0, 1, 0, 0⟩, .atom ⟨0, 1, 1, false, 0x3B⟩, .atom ⟨0, 1, 1, false, 0x39⟩, .acas ⟨0, 1, 1, false, 0x10⟩,
    .fence ⟨0, 0, 4⟩, .fence ⟨0, 0, 0x19⟩, .tagclrAll ⟨1, 0, 0, false, 0⟩, .pfx ⟨0, 6, 0, 0, false, 8, 0⟩,
    .pfx ⟨0, 0, 5, 0, false, 4, 0⟩, .ringsetCfg ⟨0, 1, 0, false, 0x20⟩, .ringget ⟨1, 0, 0, false, 36⟩,
    .ringget ⟨1, 0, 0, false, 0x180⟩, .semsig ⟨0, 0, 1⟩, .semsigPeer ⟨0, 0, 0x41⟩, .setdom ⟨0, 1, 1⟩, .cstat ⟨1, 1, 0, false, 6⟩,
    .tquery ⟨1, 0, 0, false, 3⟩, .tself ⟨1, 0, 0, false, 7⟩, .region ⟨0, 0, 0x002⟩, .nst ⟨0, 1, 1, false, 0⟩,
    .nst ⟨0, 1, 1, false, 0x408⟩, .nadd ⟨1, 1, 1, false, 5⟩, .ncas ⟨1, 1, 1, false, 4⟩, .pmclr ⟨0, 1, 0, false, 0⟩,
    .csrrd ⟨1, 0, 0x014⟩, .csrwr ⟨0, 1, 0x006⟩, .setview ⟨0, 1, 0, false, 3⟩, .vadd ⟨3, 1, 1, 1, false, false, 0⟩,
    .vadd ⟨0, 1, 1, 1, false, false, 3⟩, .vcmp ⟨0, 1, 1, 1, false, false, 5⟩, .viadd ⟨0, 1, 1, 1, false, false, 0⟩,
    .vimin ⟨6, 1, 1, 1, false, false, 0⟩, .vicmp ⟨3, 1, 1, 1, false, false, 6⟩, .vcvt ⟨0, 1, 1, 0, false, false, 0⟩,
    .vcvt ⟨0, 1, 1, 0x58, false, false, 0⟩, .vcvt ⟨3, 1, 1, 0x10, false, false, 0⟩, .vcvt ⟨0, 1, 1, 0xC0, false, false, 1⟩,
    .vqnt ⟨2, 1, 1, 0, false, false, 0⟩, .vnib ⟨0, 1, 1, 0, false, false, 0⟩, .vbcast ⟨0, 1, 1, 64⟩,
    .vshuf ⟨7, 1, 1, 1, false, false, 0⟩, .vscan ⟨1, 1, 1, 0, false, false, 0⟩, .vexp2 ⟨3, 1, 1, 0, false, false, 0⟩,
    .vld ⟨1, 1, 1, 0⟩, .vstr ⟨0, 1, 0, 0x20⟩, .madd ⟨0, 1, 1, 1, false, false, 1⟩, .mfrom ⟨0, 1, 1, 0, false, false, 3⟩,
    .mcfg ⟨0, 0, 0x402⟩, .mcfg ⟨0, 0, 0xE063⟩, .mstr ⟨1, 63, false, false, 0, false, 0⟩, .mchainOpen ⟨0, 0, 0xC000⟩,
    .mchainOpen ⟨0, 0, 0x10000⟩, .cchanOff ⟨0, 0⟩, .aqld ⟨0, 1, 0⟩, .aqcfg ⟨0, 0, 1025⟩, .ratom ⟨0, 1, 0, 0x10⟩,
    .rfence ⟨0, 0, 0, 6⟩, .xcancel ⟨1, 1, 0⟩] : List Instr).all (fun i => !i.valuesOk) = true := by decide

/-- The control fields: no stall count outside the sequencer and vector streams, none of the three on PFX (R33, R44). -/
theorem test_control_refused : wordWf .copy ⟨.none, .none, 1⟩ .cstop = false ∧
    wordWf .seq ⟨.sem 1, .none, 0⟩ (.pfx ⟨0, 0, 0, 0, false, 0, 0⟩) = false ∧
    wordWf .seq ⟨.sem 1, .none, 3⟩ .nop = true ∧ wordWf .vec ⟨.none, .none, 0⟩ .nop = false := by decide

/-! Single steps -/

/-- The state after a step. -/
def next (s : State) : State := match step s with | .next t => t | _ => default

/-- The slot after the word at reset has been fetched and executed, with its results written. -/
def ran (nbits w : Nat) : Slot := (next (State.reset.withFetchWord nbits w)).slot 0 |>.settle 1000

/-- The slot that the first instruction after reset issues from. -/
theorem test_first_slot : (State.reset.pickSlot 0).getD 0 = 0 := by decide

/-- R103: ADD g5, g6, 100 with g6 = 0; R106: LI sign-extends its 30-bit immediate. -/
theorem test_step_add : (ran 64 0x0000000146020064).greg 5 = 100 ∧ (ran 64 0x0000000146020064).pc = 8 := by decide
theorem test_step_li : (ran 64 0x000017033FFFFFFF).greg 12 = 0xFFFFFFFFFFFFFFFF := by decide

/-- R41: g0 reads as zero whatever is written to it. -/
theorem test_step_g0 : (ran 64 0x0000170000000002).greg 0 = 0 := by decide

/-- R103: the quotient by zero is all ones. -/
theorem test_step_div_zero : (ran 64 0x0000050146000000).greg 5 = 0xFFFFFFFFFFFFFFFF := by decide

/-- R115: a LOOP with a count of zero goes past its stage word and its body of 3 words. -/
theorem test_step_loop_zero : (ran 128 (0x0002000000002040 * 2 ^ 64 + 0x000034000C003005)).pc = 40 := by decide

/-- R118: TRAP 0x105 stops the core with cause TRAP, subcause 5 and the code as operand. -/
theorem test_step_trap : ((next (State.reset.withFetchWord 64 0x0000360000000105)).core 0).stopped.map
    (fun x => (x.trap.cause, x.trap.sub, x.trap.opnd)) = some (cTRAP, 5, 0x105) := by decide

/-- R38: an undefined opcode stops the core with ILLEGAL, subcause 1. -/
theorem test_step_illegal : ((next (State.reset.withFetchWord 64 0x0000390000000000)).core 0).stopped.map
    (fun x => (x.trap.cause, x.trap.sub)) = some (cILLEGAL, 1) := by decide

/-- R320, R321: CBARSET bar2, 4096 arms the barrier when it fires, as is seen a clock later. -/
theorem test_step_barset : (((next (State.reset.withFetchWord 72 (3 * 2 ^ 64 + 0x0000200100001000))).slot 0).settle 1).bar 2 =
    ⟨4096, 1, false⟩ := by decide

/-- R266: MLEASE takes the free claim, of class 15. -/
theorem test_step_lease : (((next (State.reset.withFetchWord 72 (2 * 2 ^ 64 + 0x0000000F00000000))).core 0).claim.map
    (·.cls)) = some 15 := by decide

/-! Values the spec works out -/

set_option maxRecDepth 8000 in
/-- R234: 5.0 and −0.7 quantise to 0x96 with scale byte 0x7F. -/
theorem test_mxfp4_example : (let b := mxBlock 0 (fun _ => .rne) 0 (fp32.dec 0x40A00000 :: fp32.dec 0xBF333333 ::
      List.replicate 30 (fp32.dec 0));
    (b.1, b.2.1.take 2)) = (0x7F, [0x6, 0x9]) := by decide

/-- R64: the largest finite value plus half an ulp rounds to infinity under RNE, and 1 + 2^−24 to 1. -/
theorem test_rounding : (fp32.rne (XR.add (fp32.dec 0x7F7FFFFF) (fp32.dec 0x73000000))).1 = 0x7F800000 ∧
    (fp32.rne (XR.add (fp32.dec 0x3F800000) (fp32.dec 0x33800000))).1 = 0x3F800000 := by decide

end Sys2Proof.Test
end

