-- ==== Sys2Proof/Tests/WitnessA.lean ====
section
/-! SUPPORT. States and operands that meet the hypotheses of the statements about register words, control flow and
interrupts, clause by clause. -/

namespace Sys2Proof.Witness
set_option Elab.async false
open Sys2Proof Sys2Proof.Machine Sys2Proof.Claim

theorem base_issues : base.Issues := issues (by decide)

theorem witness_integer : intWord (.add ⟨5, 6, 0, true, 100⟩) = some (⟨5, 6, 0, true, 100⟩, fun a b => a + b, 1) ∧ base.Issues :=
  ⟨rfl, base_issues⟩

/-- A divisor that is zero, with TDIV clear, and one that is not, with TDIV set. -/
theorem witness_division : (∃ op, divWord (.div ⟨5, 6, 7, false, 0⟩) = some (⟨5, 6, 7, false, 0⟩, op)) ∧ base.Issues ∧
    srcB base ⟨5, 6, 7, false, 0⟩ = 0 ∧ (base.slot base.cur.u).csr.corectl.getLsbD 3 = false ∧
    srcB base ⟨5, 6, 0, true, 3⟩ ≠ 0 := ⟨⟨_, rfl⟩, base_issues, by decide, by decide, by decide⟩

theorem witness_move : moveWord base (.li ⟨12, 2⟩) = some (12, 2) ∧ base.Issues := ⟨by decide, base_issues⟩

theorem ok_of {r : Except Nat (Ctl × Instr)} {x : Ctl × Instr} (h : readAs r = some x) : r = .ok x := by
  cases r with
  | ok y => exact congrArg _ (Option.some.inj h)
  | error e => exact absurd h (by simp [readAs])

/-- CMP.lt p1, g5, g6, written out from R33, R40 and R107. -/
theorem witness_cmp_decodes : decode .seq 0x0000200045180002 0 = .ok (⟨.none, .none, 0⟩, .cmp ⟨1, 5, 6, false, 2⟩) :=
  ok_of (by decide +kernel)

theorem witness_predicate : predWord base (.cmp ⟨1, 5, 6, false, 0⟩) = some (1, true) ∧ base.Issues := ⟨by decide, base_issues⟩

/-- An addition that raises an exact result, and one that is invalid (infinity less infinity), with no trap enabled. -/
theorem witness_float : ∃ s r, s = setG (setG base 5 0x7F800000) 6 0xFF800000 ∧
    fltWord s (.fadd ⟨7, 5, 6, false, 0⟩) = some (7, r, 4) ∧ s.Issues ∧ untrapped s r.2 ∧ r.2 ≠ 0 :=
  ⟨_, _, rfl, rfl, issues (by decide), by unfold untrapped; decide, by decide⟩

theorem witness_fcmp : ∃ r, r = (fltFmt ⟨1, 5, 6, false, 0⟩).cmpCond 0 (gr base 5).toNat (gr base 6).toNat ∧ base.Issues ∧
    untrapped base r.2 := ⟨_, rfl, base_issues, by unfold untrapped; decide⟩

/-- A branch that is not taken, one taken outside loops, and one taken out of a body of two stages. -/
theorem witness_branch_falls : branchTo base (.br ⟨1, false, 4⟩) = some (false, 32) ∧ base.Issues := ⟨by decide, base_issues⟩
theorem witness_branch_goes : branchTo base (.br ⟨0, false, 4⟩) = some (true, 32) ∧ base.Issues ∧ targetOk base 32 ∧
    ¬inBody (base.slot base.cur.u) :=
  ⟨by decide, base_issues, by unfold targetOk; decide, by
    rintro ⟨-, l, r, h, -⟩
    exact absurd h (by have : (base.slot base.cur.u).loops = [] := by decide
                       rw [this]; simp)⟩
def inLoop : State := slotDo base (fun sl => { sl with pc := 16, loops := [⟨5, true, 16, 3, 2, [0, 1], 4, 1, 0⟩] })
theorem witness_branch_leaves : branchTo inLoop (.br ⟨0, false, 4⟩) = some (true, 48) ∧ inLoop.Issues ∧ targetOk inLoop 48 ∧
    inBody (inLoop.slot inLoop.cur.u) ∧ holdsPc ⟨5, true, 16, 3, 2, [0, 1], 4, 1, 0⟩ 48 = false :=
  ⟨by decide, issues (by decide), by unfold targetOk; decide, ⟨by decide, ⟨5, true, 16, 3, 2, [0, 1], 4, 1, 0⟩, [], by decide, by decide⟩, by decide⟩

theorem witness_call : base.Issues ∧ targetOk base (((base.slot base.cur.u).pc : Int) + 8 * (4 : BitVec 32).toInt) :=
  ⟨base_issues, by unfold targetOk; decide⟩
theorem witness_ret : (setG base 63 64).Issues ∧ targetOk (setG base 63 64) (gr (setG base 63 64) 63).toNat :=
  ⟨issues (by decide), by unfold targetOk; decide⟩
def inHandler : State := slotDo base (fun sl => { sl with csr := { sl.csr with uiact := true, uipc := 24 } })
theorem witness_uiret : inHandler.Issues ∧ (inHandler.slot inHandler.cur.u).csr.uiact = true := ⟨issues (by decide), by decide⟩

/-- A loop of no iteration and one of four, at depth 0. -/
theorem witness_loop : ∃ offs, loopWord (.loop ⟨0, 12, 0x3005⟩ ⟨2, 0, 1, 2, 0, 0, 0, 0, 0⟩) = some (⟨0, 12, 0x3005⟩, true, offs) ∧
    base.Issues ∧ (gr base 12).toNat = 0 ∧ (setG base 12 4).Issues ∧ (gr (setG base 12 4) 12).toNat = 4 ∧
    (base.slot base.cur.u).loops = [] ∧ ((setG base 12 4).slot base.cur.u).loops = [] ∧ 4 + offs.length - 1 ≤ 2 ^ 32 - 1 :=
  ⟨_, rfl, base_issues, by decide, issues (by decide), by decide, by decide, by decide, by decide⟩

/-- A LOOPX inside a body that holds its own. -/
theorem witness_loopx_nested : loopWord (.loopx ⟨0, 12, 0x1006⟩) = some (⟨0, 12, 0x1006⟩, false, [0]) ∧ inLoop.Issues ∧
    after inLoop = 24 ∧ (∀ l r, (inLoop.slot inLoop.cur.u).loops = l :: r → l.start ≤ 24 ∧ 24 + 8 * 1 ≤ l.start + 8 * l.words) :=
  ⟨by decide, issues (by decide), by decide, fun l r h => by
    have e : (inLoop.slot inLoop.cur.u).loops = [⟨5, true, 16, 3, 2, [0, 1], 4, 1, 0⟩] := by decide
    rw [e] at h; cases h; decide⟩

theorem witness_setview : ∃ ok m, ctrlEffect base (.setview ⟨0, 5, 0, false, 1⟩) = some (ok, m) ∧ base.Issues ∧ ok :=
  ⟨_, _, rfl, base_issues, by decide⟩
theorem witness_granclr : ∃ ok m, ctrlEffect (setG (setG base 5 1020) 6 4) (.granclr ⟨0, 5, 6, false, 0⟩) = some (ok, m) ∧
    (setG (setG base 5 1020) 6 4).Issues ∧ ok := ⟨_, _, rfl, issues (by decide), by decide⟩
theorem witness_trctl : ∃ v, v = gr (setG base 5 0x1408) 5 ∧ (setG base 5 0x1408).Issues ∧
    fld v.toNat 13 51 = 0 ∧ fld v.toNat 4 4 = 0 ∧ fld v.toNat 8 5 ≤ 20 := ⟨_, rfl, issues (by decide), by decide⟩
theorem witness_bkpt : ∃ ok m, ctrlEffect base (.bkpt ⟨0, 0, 7⟩) = some (ok, m) ∧ base.Issues ∧ ok :=
  ⟨_, _, rfl, base_issues, trivial⟩

theorem witness_csrrd : ∃ v, readWord base (.csrrd ⟨5, 0, 0x010⟩) = some (5, v) ∧ v = 4 ∧ base.Issues :=
  ⟨_, rfl, by decide, base_issues⟩
/-- MCTL takes COV 2 with ρ = 1.0, and MEMDEF scope 5. -/
theorem witness_csrwr : (∃ ok m, csrEffect (setG base 5 0x3F80000000000002) 0x00A (gr (setG base 5 0x3F80000000000002) 5)
      = some (ok, m) ∧ (setG base 5 0x3F80000000000002).Issues ∧ ok) ∧
    (∃ ok m, csrEffect (setG base 5 0x14) 0x010 (gr (setG base 5 0x14) 5) = some (ok, m) ∧ ok) :=
  ⟨⟨_, _, rfl, issues (by decide), by decide⟩, ⟨_, _, rfl, by decide⟩⟩

/-- A TRAP whose core runs; and nothing else of it keeps the core from stopping at once. -/
theorem witness_trap : ∃ tr, tr = (⟨cTRAP, 7, 7⟩ : Trap) ∧ base.Issues ∧ (base.slot base.cur.u).latchWord = 0 ∧
    (base.slot base.cur.u).task.isSome = true ∧ Runs base (coreOf base.cur.u) ∧
    StopsHere (onSlot base (fun sl => { sl with latch := some tr })) base.cur.u .seq :=
  ⟨_, rfl, base_issues, by decide, by decide, runs (by decide), stops (by decide +kernel)⟩

/-- A WAITI with vector 3 pending and enabled, and one without. -/
def pending : State := slotDo base (fun sl => { sl with csr := { sl.csr with uivec := 0x0000010000000008, uipend := 8 } })
theorem witness_waiti : pending.Issues ∧ (pending.slot pending.cur.u).csr.uiact = false ∧
    (pending.slot pending.cur.u).csr.uipend &&& (pending.slot pending.cur.u).csr.uivec.setWidth 16 ≠ 0 ∧
    (base.slot base.cur.u).csr.uipend &&& (base.slot base.cur.u).csr.uivec.setWidth 16 = 0 :=
  ⟨issues (by decide), by decide, by decide, by decide⟩
theorem witness_vector : pending.occ.a = 0 ∧ (pending.core (coreOf 0)).stopped = none ∧
    (pending.core (coreOf 0)).raised = none ∧ takesVector (pending.slot 0) 3 :=
  ⟨by decide, by decide, by decide, by unfold takesVector; decide⟩

theorem witness_interlocked : ∃ s p, s = slotDo base (fun sl => { sl with pend := [⟨9, true, 0, .greg 5 7⟩] }) ∧ s.occ.a = 0 ∧
    (s.slot 0).pend.find? (fun q => q.locked && q.tag = 0) = some p := ⟨_, ⟨9, true, 0, .greg 5 7⟩, rfl, by decide, by decide⟩
theorem witness_syscall : ∃ m, m = base.closeFor base.cur.u ∧ base.Issues ∧ base.slowDrain base.cur.u = false ∧
    (m.slot base.cur.u).latch = none ∧ (m.slot base.cur.u).pend = [] :=
  ⟨_, rfl, base_issues, by decide, by decide, by decide⟩

/-- A SYSCALL in progress since clock 0: a reply, its timeout in the first clock that it may come, and one that comes too
early. -/
def calling (now : Nat) : State :=
  let s := slotDo base (fun sl => { sl with hold := .syscall 5 1 0, inHand := some base.cur, closing := true })
  { s with clock := now, hub := { s.hub with syscalls := [(0, 1, 0, 0)] } }
def waitsForReply (s : State) : Prop :=
  s.occ.a = 0 ∧ (s.slot 0).hold = .syscall 5 1 0 ∧ (s.slot 0).inHand = some base.cur ∧ (s.slot 0).pend = [] ∧
    (s.slot 0).latch = none ∧ (s.slot 0).npc = none
theorem witness_reply : waitsForReply (calling 0) := by unfold waitsForReply; decide
theorem witness_timeout : waitsForReply (calling 1050000) ∧
    (0, 1, 0, 0) ∈ (calling 1050000).hub.syscalls ∧ 0 + usClk 1000 ≤ (calling 1050000).clock :=
  ⟨by unfold waitsForReply; decide, by decide, by decide⟩
theorem witness_no_timeout : ∀ e, e ∈ (calling 1049999).hub.syscalls → e.1 = 0 → (calling 1049999).clock < e.2.2.2 + usClk 1000 := by
  decide

end Sys2Proof.Witness
end

