-- ==== Sys2Proof/Tests/WitnessB.lean ====
section
/-! SUPPORT. States and operands that meet the hypotheses of the statements about memory words, clause by clause. -/

namespace Sys2Proof.Witness
set_option Elab.async false
open Sys2Proof Sys2Proof.Machine Sys2Proof.Claim

/-- What a load's statement asks before its target is looked at, with the target it finds; and what that target asks. -/
def loadMeets (s : State) (f : SM) (fx : Option Nat) (tg : Target) (more : State → Prefix → Prop) : Prop :=
  ∃ s1 p, s.Issues ∧ (needPrefix s true false fx.isNone).map (fun q => inSpace q fx) = .ok p ∧
    target s p (memAddr s f) (gr s f.base) (2 ^ f.size.toNat) false = .ok (s1, tg) ∧
    targetMark s1 tg (memAddr s f) (2 ^ f.size.toNat) = .ok () ∧ needReturned s1 p = .ok () ∧ more s1 p

def loadPfx (s : State) (fx : Option Nat) : Prefix := inSpace (got (needPrefix s true false fx.isNone)) fx
def loadTgt (s : State) (f : SM) (fx : Option Nat) : M (State × Target) :=
  target s (loadPfx s fx) (memAddr s f) (gr s f.base) (2 ^ f.size.toNat) false

def loadB (s : State) (f : SM) (fx : Option Nat) (tg : Target) : Bool :=
  allOf [issuesB s, passes (needPrefix s true false fx.isNone), passes (loadTgt s f fx), (got (loadTgt s f fx)).2 == tg,
    passes (targetMark (got (loadTgt s f fx)).1 tg (memAddr s f) (2 ^ f.size.toNat)),
    passes (needReturned (got (loadTgt s f fx)).1 (loadPfx s fx))]

theorem load_meets {s : State} {f : SM} {fx : Option Nat} {tg : Target} {more : State → Prefix → Prop}
    (h : loadB s f fx tg = true) (hm : more (got (loadTgt s f fx)).1 (loadPfx s fx)) : loadMeets s f fx tg more :=
  ⟨_, _, issues (part h 0), map_eq _ (part h 1), got_pair (part h 2) (eq_of_beq (part h 3)), unit_eq (part h 4),
    unit_eq (part h 5), hm⟩

/-- The last doubleword of the scratchpad allocation. -/
theorem witness_load_scratch : loadForm (.ldsp ⟨5, 0, 3, 65528⟩) = some (⟨5, 0, 3, 65528⟩, false, some 1) ∧
    loadMeets world ⟨5, 0, 3, 65528⟩ (some 1) (.sp 65528) (fun _ _ => True) :=
  ⟨rfl, load_meets (by decide +kernel) trivial⟩

/-- The last doubleword of node record 0. -/
def atNode : State := withPfx (setG world 6 (56 * 2 ^ 32)) ⟨0, 0, 2, 0, false, 4, 0⟩
theorem witness_load_node : loadMeets atNode ⟨5, 6, 3, 0⟩ none (.node 0 56) (fun _ _ => True) :=
  load_meets (by decide +kernel) trivial

/-- The last doubleword of tensor 1. -/
def atTensor (t o : Nat) : State := setG world 6 (t * 2 ^ 52 + o)
def lastWord : List Nat := [2162680, 2162681, 2162682, 2162683, 2162684, 2162685, 2162686, 2162687]
theorem witness_load_local : loadMeets (atTensor 1 65528) ⟨5, 6, 3, 0⟩ none (.loc false lastWord false)
    (fun s1 p => ∃ s2 bs, readLocal 0 (if bitOf p.ord 0 then 3 else p.cache) false ((atTensor 1 65528).slot 0) s1 lastWord =
      .ok (s2, bs)) :=
  load_meets (by decide +kernel) ⟨_, _, got_pair (by decide +kernel) rfl⟩

/-- A word of tensor 3, which package 1 holds: its bytes in a store of the open region; and with .byp, none held. -/
def heldStore : State := slotDo (atTensor 3 0) (fun sl => { sl with
  opened := [⟨.rstore 1 (3 * 2 ^ 52) [1, 2, 3, 4] 1 0, 0x22, 0, 0, 0, 0⟩] })
theorem witness_load_remote : loadMeets heldStore ⟨5, 6, 2, 0⟩ none (.rem 1) (fun s1 p =>
    (List.range 4).mapM (fun k => s1.remByte 0 1 p.cache ((memAddr heldStore ⟨5, 6, 2, 0⟩).toNat + k)) = some [1, 2, 3, 4]) :=
  load_meets (by decide +kernel) (by decide +kernel)
def bypass : State := withPfx (atTensor 3 0) ⟨0, 0, 0, 3, false, 2, 0⟩
theorem witness_load_bypass : loadMeets bypass ⟨5, 6, 3, 0⟩ none (.rem 1) (fun s1 p => p.cache = 3 ∧
    (List.range 8).mapM (fun k => s1.remByte 0 1 3 ((memAddr bypass ⟨5, 6, 3, 0⟩).toNat + k)) = none) :=
  load_meets (by decide +kernel) ⟨by decide +kernel, by decide +kernel⟩

/-- The same of a store. -/
def storeMeets (s : State) (f : SM) (fx : Option Nat) (tg : Target) (more : State → Prefix → Prop) : Prop :=
  ∃ s1 p, s.Issues ∧ (needPrefix s false true fx.isNone).map (fun q => inSpace q fx) = .ok p ∧
    target s p (memAddr s f) (gr s f.base) (2 ^ f.size.toNat) true = .ok (s1, tg) ∧
    targetMark s1 tg (memAddr s f) (2 ^ f.size.toNat) = .ok () ∧ more s1 p

def storePfx (s : State) (fx : Option Nat) : Prefix := inSpace (got (needPrefix s false true fx.isNone)) fx
def storeTgt (s : State) (f : SM) (fx : Option Nat) : M (State × Target) :=
  target s (storePfx s fx) (memAddr s f) (gr s f.base) (2 ^ f.size.toNat) true

def storeB (s : State) (f : SM) (fx : Option Nat) (tg : Target) : Bool :=
  allOf [issuesB s, passes (needPrefix s false true fx.isNone), passes (storeTgt s f fx), (got (storeTgt s f fx)).2 == tg,
    passes (targetMark (got (storeTgt s f fx)).1 tg (memAddr s f) (2 ^ f.size.toNat))]

theorem store_meets {s : State} {f : SM} {fx : Option Nat} {tg : Target} {more : State → Prefix → Prop}
    (h : storeB s f fx tg = true) (hm : more (got (storeTgt s f fx)).1 (storePfx s fx)) : storeMeets s f fx tg more :=
  ⟨_, _, issues (part h 0), map_eq _ (part h 1), got_pair (part h 2) (eq_of_beq (part h 3)), unit_eq (part h 4), hm⟩

theorem witness_store_scratch : storeForm (.stsp ⟨5, 0, 3, 65528⟩) = some (⟨5, 0, 3, 65528⟩, some 1) ∧
    storeMeets world ⟨5, 0, 3, 65528⟩ (some 1) (.sp 65528) (fun s1 p => ∃ s2, release s1 p = .ok s2) :=
  ⟨rfl, store_meets (by decide +kernel) ⟨_, got_eq (by decide +kernel)⟩⟩
theorem witness_store_node : storeMeets atNode ⟨5, 6, 3, 0⟩ none (.node 0 56) (fun s1 p => nodeWrOk 56 8 = true ∧
    p.dw = false ∧ (∃ rel, relMark s1 p = .ok rel) ∧ hasRoom s1 (.store 2 (56 * 2 ^ 32) [] (leBytes 8 0))) :=
  store_meets (by decide +kernel) ⟨by decide +kernel, by decide +kernel, ⟨_, got_eq (by decide +kernel)⟩,
    room (by decide +kernel)⟩
/-- With 255 entries of the store buffer's 256 taken. -/
def nearFull : State := slotDo (atTensor 1 65528) (fun sl => { sl with
  opened := List.replicate 255 ⟨.store 0 0 [] [], 0x22, 0, 0, 0, 0⟩ })
theorem witness_store_local : storeMeets nearFull ⟨5, 6, 3, 0⟩ none (.loc false lastWord false) (fun s1 p =>
    (p.dw || false) = false ∧ (∃ rel, relMark s1 p = .ok rel) ∧ hasRoom s1 (.store 0 65528 lastWord (leBytes 8 0))) :=
  store_meets (by decide +kernel) ⟨by decide +kernel, ⟨_, got_eq (by decide +kernel)⟩, room (by decide +kernel)⟩
theorem witness_store_remote : storeMeets (atTensor 3 0) ⟨5, 6, 3, 0⟩ none (.rem 1) (fun s1 p =>
    (∃ rel, relMark s1 p = .ok rel) ∧ hasRoom s1 (.rstore 1 (3 * 2 ^ 52) (leBytes 8 0) p.scope p.cache)) :=
  store_meets (by decide +kernel) ⟨⟨_, got_eq (by decide +kernel)⟩, room (by decide +kernel)⟩

/-! Atomics -/

def atomPfx (s : State) : Prefix := got (needPrefix s true true true)
def atomTgt (s : State) (f : S3) : M (State × Target) := target s (atomPfx s) (gr s f.ra) (gr s f.ra) (atomSize f) true
def atomB (s : State) (f : S3) (tg : Target) : Bool :=
  allOf [passes (needPrefix s true true true), passes (atomTgt s f), (got (atomTgt s f)).2 == tg,
    passes (targetMark (got (atomTgt s f)).1 tg (gr s f.ra) (atomSize f))]
def atomMeets (s : State) (f : S3) (tg : Target) (more : State → Prefix → Prop) : Prop :=
  ∃ s1 p, needPrefix s true true true = .ok p ∧ target s p (gr s f.ra) (gr s f.ra) (atomSize f) true = .ok (s1, tg) ∧
    targetMark s1 tg (gr s f.ra) (atomSize f) = .ok () ∧ more s1 p

theorem atom_meets {s : State} {f : S3} {tg : Target} {more : State → Prefix → Prop} (h : atomB s f tg = true)
    (hm : more (got (atomTgt s f)).1 (atomPfx s)) : atomMeets s f tg more :=
  ⟨_, _, got_eq (part h 0), got_pair (part h 1) (eq_of_beq (part h 2)), unit_eq (part h 3), hm⟩

/-- An ADD on the last doubleword of the scratchpad. -/
def atScratch : State := withPfx (setG world 6 65528) ⟨0, 0, 1, 0, false, 4, 0⟩
theorem witness_atom_scratch : atScratch.Issues ∧ atScratch.prefix.space = 1 ∧
    atomMeets atScratch ⟨5, 6, 7, false, 0x30⟩ (.sp 65528) (fun s1 p => needReturned s1 p = .ok () ∧
      (∃ s2, release s1 p = .ok s2) ∧ untrapped atScratch (atomNew ⟨5, 6, 7, false, 0x30⟩ false 8 0 0 0).2) :=
  ⟨issues (by decide), by decide, atom_meets (by decide +kernel) ⟨unit_eq (by decide +kernel),
    ⟨_, got_eq (by decide +kernel)⟩, by unfold untrapped; decide +kernel⟩⟩

/-- Held atomics: on a node record, on a tensor here, on one of another package. -/
theorem witness_atom_held_node : atNode.Issues ∧ atNode.prefix.space ≠ 1 ∧
    atomMeets atNode ⟨0, 6, 7, false, 0x30⟩ (.node 0 56) (fun s1 p => (∃ rel, relMark s1 p = .ok rel) ∧
      nodeWrOk 56 8 = true ∧ hasRoom s1 (.atomic 2 0 (56 * 2 ^ 32) [] 8 0 0)) :=
  ⟨issues (by decide), by decide, atom_meets (by decide +kernel) ⟨⟨_, got_eq (by decide +kernel)⟩, by decide,
    room (by decide +kernel)⟩⟩
theorem witness_atom_held_local : (atTensor 1 65528).Issues ∧ (atTensor 1 65528).prefix.space ≠ 1 ∧
    atomMeets (atTensor 1 65528) ⟨0, 6, 7, false, 0x30⟩ (.loc false lastWord false) (fun s1 p =>
      (∃ rel, relMark s1 p = .ok rel) ∧ hasRoom s1 (.atomic 0 0 (2 ^ 52 + 65528) lastWord 8 0 0)) :=
  ⟨issues (by decide), by decide, atom_meets (by decide +kernel) ⟨⟨_, got_eq (by decide +kernel)⟩, room (by decide +kernel)⟩⟩
theorem witness_atom_held_remote : (atTensor 3 0).Issues ∧ (atTensor 3 0).prefix.space ≠ 1 ∧
    atomMeets (atTensor 3 0) ⟨0, 6, 7, false, 0x30⟩ (.rem 1) (fun s1 p =>
      (∃ rel, relMark s1 p = .ok rel) ∧ hasRoom s1 (.atomic 4 1 (3 * 2 ^ 52) [] 8 0 0)) :=
  ⟨issues (by decide), by decide, atom_meets (by decide +kernel) ⟨⟨_, got_eq (by decide +kernel)⟩, room (by decide +kernel)⟩⟩

/-- What a closing word's statement asks of the state in which it acts. -/
def closesL (s : State) : List Bool :=
  let c := s.closeFor s.cur.u
  [!s.slowDrain s.cur.u, (c.slot s.cur.u).latch.isNone, (c.slot s.cur.u).pend.isEmpty, (c.slot s.cur.u).npc.isNone,
    (c.slot s.cur.u).inHand.isNone, c.cur == s.cur, c.clock == s.clock]
def closesB (s : State) : Bool := allOf (closesL s)
theorem closes {s : State} (h : closesB s = true) : s.Closes (s.closeFor s.cur.u) :=
  ⟨false_of (part h 0), rfl, none_of (part h 1), nil_of (part h 2), none_of (part h 3), none_of (part h 4),
    eq_of_beq (part h 5), eq_of_beq (part h 6)⟩

/-- A closing atomic's statement: it issues, its checks pass, and so do those of the state `c` in which it acts. -/
def closingAtom (s : State) (f : S3) (cas : Bool) (tg : Target) (more : State → Prop) : Prop :=
  s.Issues ∧ s.prefix.space ≠ 1 ∧ atomCheck f cas s = .ok () ∧ s.Closes (s.closeFor s.cur.u) ∧
    atomMeets (s.closeFor s.cur.u) f tg (fun s1 p => more (s1.released p))
theorem witness_atom_closing_node : closingAtom atNode ⟨5, 6, 7, false, 0x30⟩ false (.node 0 56)
    (fun s2 => nodeWrOk 56 8 = true ∧ s2.nodeSt 0 = stOK ∧
      untrapped (atNode.closeFor 0) (atomNew ⟨5, 6, 7, false, 0x30⟩ false 8 (s2.nf 0 56 8) 0 0).2) :=
  ⟨issues (by decide), by decide, unit_eq (by decide +kernel), closes (by decide +kernel),
    atom_meets (by decide +kernel) ⟨by decide, by decide +kernel, by unfold untrapped; decide +kernel⟩⟩
theorem witness_atom_closing_local : closingAtom (atTensor 1 65528) ⟨5, 6, 7, false, 0x30⟩ false (.loc false lastWord false)
    (fun s2 => untrapped ((atTensor 1 65528).closeFor 0)
        (atomNew ⟨5, 6, 7, false, 0x30⟩ false 8 (leNat (s2.physBytes false lastWord)) 0 0).2 ∧
      ∃ s3, writePhys 0 false s2 (lastWord.zip (leBytes 8 0)) = .ok s3) :=
  ⟨issues (by decide), by decide, unit_eq (by decide +kernel), closes (by decide +kernel),
    atom_meets (by decide +kernel) ⟨by unfold untrapped; decide +kernel, ⟨_, got_eq (by decide +kernel)⟩⟩⟩
/-- An ACAS of tensor 2, in host memory, under a space override; one of tensor 3. -/
def atHost : State := withPfx (atTensor 2 0) ⟨0, 0, 3, 0, false, 4, 0⟩
theorem witness_acas_host : ∃ ps, closingAtom atHost ⟨5, 6, 7, false, 0x30⟩ true (.loc true ps false) (fun _ => True) :=
  ⟨[3145728, 3145729, 3145730, 3145731, 3145732, 3145733, 3145734, 3145735], issues (by decide), by decide,
    unit_eq (by decide +kernel), closes (by decide +kernel), atom_meets (by decide +kernel) trivial⟩
theorem witness_acas_remote : closingAtom (atTensor 3 65528) ⟨5, 6, 7, false, 0x30⟩ true (.rem 1) (fun _ => True) :=
  ⟨issues (by decide), by decide, unit_eq (by decide +kernel), closes (by decide +kernel),
    atom_meets (by decide +kernel) trivial⟩

/-! Prefix, fence and the words of the core itself -/

/-- The remote cache of the core with a line of tensor 3, its first byte stored with scope 1, or clean. -/
def cached (s : State) (dirty : List Nat) : State :=
  coreDo s (fun c => { c with rcache := [⟨1, 0, 3, 0, [(0, 7)], dirty, 1, false, 0, 0⟩] })

/-- A full fence of scope system, with a store in the open region and a clean line; and one that finds the line dirty. -/
def fullFence : SI := ⟨0, 0, 0x17⟩
theorem fence_ready : ReleaseReady (cached nearFull []) (fenceOrder fullFence).scope :=
  ⟨⟨by decide +kernel, by decide +kernel⟩, fun _ => (by decide +kernel),
    fun _ => by decide +kernel⟩
theorem witness_fence : (cached nearFull []).Issues ∧ bitOf (fenceOrder fullFence).ord 0 = true ∧
    4 ≤ (fenceOrder fullFence).scope ∧ (cached nearFull []).awaits 0 = false ∧ bitOf (fenceOrder fullFence).ord 1 = true ∧
    ReleaseReady (cached nearFull []) (fenceOrder fullFence).scope ∧ ((cached nearFull []).slot 0).opened ≠ [] :=
  ⟨issues (by decide +kernel), by decide, by decide, by decide +kernel, by decide, fence_ready, by decide +kernel⟩
theorem witness_fence_sends : ∃ s l, s = cached world [0] ∧ s.Issues ∧ bitOf (fenceOrder fullFence).ord 1 = true ∧
    4 ≤ (fenceOrder fullFence).scope ∧ effectsDone s ∧ s.unackedOf s.cur.u = false ∧ s.awaits s.cur.u = false ∧
    (s.slot s.cur.u).acks = [] ∧ l ∈ (s.core (coreOf s.cur.u)).rcache ∧ l.dirty ≠ [] ∧
    l.scope < (fenceOrder fullFence).scope :=
  ⟨_, ⟨1, 0, 3, 0, [(0, 7)], [0], 1, false, 0, 0⟩, rfl, issues (by decide +kernel), by decide, by decide,
    ⟨by decide +kernel, by decide +kernel⟩, by decide +kernel, by decide +kernel, by decide +kernel, by decide +kernel,
    by decide, by decide⟩

/-- The last doubleword of the register space, valid; and an RSST there that releases at scope system. -/
def filledRegs : State := setG (coreDo world (fun c => { c with valid := 2 ^ 1024 - 1 })) 6 65528
def releasing : State := withPfx filledRegs ⟨2, 5, 0, 0, false, 0x18, 0⟩
theorem no_pfx {s : State} {x : SP} {p : Prop} (h : (s.slot s.cur.u).pfx = none) (hx : (s.slot s.cur.u).pfx = some x) : p := by
  rw [h] at hx; cases hx
theorem one_pfx {s : State} {x y : SP} (h : (s.slot s.cur.u).pfx = some y) (hx : (s.slot s.cur.u).pfx = some x) : x = y := by
  rw [h] at hx; cases hx; rfl
theorem witness_rsld : filledRegs.Issues ∧ Claim.loadPfx filledRegs ∧ (memAddr filledRegs ⟨5, 6, 3, 0⟩).toNat = 65528 ∧
    65528 + 8 ≤ (filledRegs.slot filledRegs.cur.u).alloc.regLen ∧ 65528 % 8 = 0 ∧
    (filledRegs.core 0).regValid 65528 8 = true :=
  ⟨issues (by decide), ⟨fun _ h => no_pfx (by decide +kernel) h, by decide +kernel, fun _ h => no_pfx (by decide +kernel) h⟩,
    by decide +kernel⟩
theorem witness_rsst : releasing.Issues ∧ Claim.storePfx releasing ∧ bitOf releasing.prefix.ord 1 = true ∧
    effectsDone releasing ∧ (memAddr releasing ⟨5, 6, 3, 0⟩).toNat = 65528 ∧
    65528 + 8 ≤ (releasing.slot releasing.cur.u).alloc.regLen ∧ 65528 % 8 = 0 :=
  ⟨issues (by decide), ⟨fun _ h => by rw [one_pfx (y := ⟨2, 5, 0, 0, false, 0x18, 0⟩) (by decide +kernel) h]; decide,
    by decide +kernel⟩, by decide +kernel, ⟨by decide +kernel, by decide +kernel⟩, by decide +kernel, by decide, by decide⟩

/-- A CINV over more than 1 MiB, and one over the first bytes of tensor 3, of which a line is dirty. -/
theorem witness_cinv : (setG world 5 (2 ^ 20 + 1)).Issues ∧ cinvPfx (setG world 5 (2 ^ 20 + 1)) ∧
    2 ^ 20 < (gr (setG world 5 (2 ^ 20 + 1)) 5).toNat :=
  ⟨issues (by decide), fun _ h => no_pfx (by decide +kernel) h, by decide⟩
theorem witness_cinv_wb : ∃ s, s = cached (setG (atTensor 3 0) 5 4) [0] ∧ s.Issues ∧ cinvPfx s ∧
    (⟨1, 0, 3, 0, [(0, 7)], [0], 1, false, 0, 0⟩ : RLine).within (s.slot s.cur.u).ctx (memAddr s ⟨5, 6, 0, 0⟩).toNat
      ((memAddr s ⟨5, 6, 0, 0⟩).toNat + max (gr s 5).toNat 1) (decide (2 ^ 20 < (gr s 5).toNat)) = true :=
  ⟨_, rfl, issues (by decide +kernel), fun _ h => no_pfx (by decide +kernel) h, by decide +kernel⟩
/-- TAGSET to the last slot of the allocation, TAGLK, TAGCLR. -/
theorem witness_tags : (∃ rd l v, tagWord (setG world 7 15) (.tagset ⟨5, 6, 7, false, 0⟩) = some (rd, l, v)) ∧
    (∃ rd l v, tagWord (setG world 7 15) (.taglk ⟨5, 6, 0, false, 0⟩) = some (rd, l, v)) ∧ (setG world 7 15).Issues :=
  ⟨some3 (by decide +kernel), some3 (by decide +kernel), issues (by decide)⟩

end Sys2Proof.Witness
end

