-- ==== Sys2Proof/Tests/WitnessC.lean ====
section
/-! SUPPORT. States and operands that meet the hypotheses of the statements about rings, semaphores, launch records, domains,
counters and traces, clause by clause. -/

namespace Sys2Proof.Witness
set_option Elab.async false
open Sys2Proof Sys2Proof.Machine Sys2Proof.Claim

/-- Command ring 0 of 16 entries at granule 0 with 15 placed; data ring 3 of 4 entries of 64 bytes with 2 in it. -/
def ringed : State := slotDo world (fun sl => { sl with
  crings := [(0, ⟨0, 4, 0, 1, 7, 7, false, 15, 0, 0⟩)], rings := [(3, ⟨16, 2, 0, 1, 7, 7, false, 2, 0, 0⟩)] })

/-- What a ring word's statement asks. -/
def ringMeets (s : State) (i : Instr) : Prop := ∃ ok m, ringEffect s i = some (ok, m) ∧ s.Issues ∧ ok

theorem witness_enq : ringMeets ringed (.enq ⟨0, 5, 0, false, 0⟩) :=
  ⟨_, _, rfl, issues (by decide), by unfold effectsDone; decide +kernel⟩
theorem witness_rel : ringMeets ringed (.rel ⟨0, 0, 4⟩) :=
  ⟨_, _, rfl, issues (by decide), by unfold effectsDone; decide +kernel⟩
/-- RINGSET.cfg of ring 4 to the last 64 bytes of the scratchpad; .decl, .prod and .cons at the most the ring takes. -/
def quiet (v : Nat) : State := setG (slotDo ringed (fun sl => { sl with crings := [] })) 5 v
theorem witness_ringset_cfg : ringMeets (quiet (1022 + 2 ^ 15 + 2 ^ 25 + 7 * 2 ^ 38 + 7 * 2 ^ 43)) (.ringsetCfg ⟨0, 5, 0, false, 4⟩) :=
  ⟨_, _, rfl, issues (by decide), by unfold ringsQuiet; decide +kernel, by decide +kernel⟩
theorem witness_ringset_decl : ∃ r, r = ((quiet 4).slot (quiet 4).cur.u).ring 3 ∧ (quiet 4).Issues ∧ r.via = 0 ∧ r.pipe = false ∧
    r.logn ≠ 0 ∧ (gr (quiet 4) 5).toNat < 2 ^ 13 ∧ 1 ≤ (gr (quiet 4) 5).toNat ∧ (gr (quiet 4) 5).toNat ≤ 2 ^ r.logn :=
  ⟨_, rfl, issues (by decide), by decide +kernel⟩
theorem witness_ringset_prod : ringMeets (quiet 2) (.ringsetProd ⟨0, 5, 0, false, 3⟩) :=
  ⟨_, _, rfl, issues (by decide), by unfold effectsDone; decide +kernel⟩
theorem witness_ringset_cons : ringMeets (quiet 2) (.ringsetCons ⟨0, 5, 0, false, 3⟩) :=
  ⟨_, _, rfl, issues (by decide), by decide +kernel⟩
theorem witness_ringset_own : ringMeets (quiet (2 ^ 38)) (.ringsetOwn ⟨0, 5, 0, false, 3⟩) :=
  ⟨_, _, rfl, issues (by decide), by decide +kernel⟩
theorem witness_ringset_reset : ringMeets (quiet 0) (.ringsetReset ⟨0, 5, 0, false, 3⟩) :=
  ⟨_, _, rfl, issues (by decide), by unfold ringsQuiet; decide +kernel, by decide +kernel⟩
/-- A gang of two slots. -/
def ganged : State := slotDo world (fun sl => { sl with gang := [0, 1] })
theorem witness_semsig_peer : ringMeets ganged (.semsigPeer ⟨0, 0, 0x8047⟩) :=
  ⟨_, _, rfl, issues (by decide), by decide +kernel, by decide +kernel, room (by decide +kernel)⟩
theorem witness_tlwait : ringMeets world (.tlwait ⟨0, 5, 0, false, 1⟩) := ⟨_, _, rfl, issues (by decide), by decide +kernel⟩
theorem witness_ringget : (∃ ok rd v, ringRead ringed (.ringget ⟨5, 0, 0, false, 0x103⟩) = some (ok, rd, v) ∧ ringed.Issues ∧ ok) ∧
    (∃ ok rd v, ringRead ringed (.tlread ⟨5, 0, 0, false, 1⟩) = some (ok, rd, v) ∧ ok) :=
  ⟨⟨_, _, _, rfl, issues (by decide), by decide +kernel⟩, ⟨_, _, _, rfl, trivial⟩⟩
/-- A semaphore at its bound is waited on for the largest count. -/
def counted : State := slotDo world (fun sl => { sl with sems := [(63, 0xFFFF)] })
theorem witness_sem : counted.Issues ∧ fld (0x3FFF : BitVec 24).toNat 0 6 = 63 ∧ fld (0x3FFF : BitVec 24).toNat 6 8 = 255 ∧
    255 ≤ (counted.slot counted.cur.u).sem 63 ∧ counted.cur.ctl.signal = .none :=
  ⟨issues (by decide), by decide, by decide, by decide, by decide⟩

/-! Launch records and domains -/

theorem witness_lpatch : (setG world 5 4095).Issues ∧ (gr (setG world 5 4095) 5).toNat < 4096 ∧
    (setG world 5 4095).recState 0 4095 = 0 ∧ (setG world 5 4095).recBit 0 4095 6 = false :=
  ⟨issues (by decide), by decide, by decide +kernel, by decide +kernel⟩
theorem witness_larm : ∃ c, c = (setG world 5 4000).closeFor 0 ∧ (setG world 5 4000).Issues ∧
    (setG world 5 4000).Closes c ∧ (gr (setG world 5 4000) 5 + BitVec.ofNat 64 ((95 : BitVec 24).toNat % 4096)).toNat < 4096 ∧
    gregs c 5 = gregs (setG world 5 4000) 5 :=
  ⟨_, rfl, issues (by decide), closes (by decide +kernel), by decide, by decide +kernel⟩
theorem witness_setdom : (setG world 5 65535).Issues ∧ (gr (setG world 5 65535) 5).toNat < 2 ^ 16 ∧
    ((setG world 5 65535).core 0).level = 0 := ⟨issues (by decide), by decide, by decide⟩
/-- The sole member of a domain of level 4, of the task's own launch; it leaves for domain 0. -/
def inDomain : State := coreDo world (fun c => { c with level := 4, domid := 1, domRun := 1 })
theorem witness_setdom_leaves : inDomain.Issues ∧ (gr inDomain 0).toNat < 2 ^ 16 ∧
    (inDomain.core 0).domRun = (inDomain.slot 0).tk.run ∧
    (∀ k x, 2 ≤ k → k ≤ (inDomain.core 0).level → x ∈ inDomain.domain k 0 (inDomain.core 0).domid →
      (inDomain.core x).standsAt k = false) :=
  ⟨issues (by decide), by decide, by decide, fun k x _ hk hx => by
    have : ∀ k, k < 5 → ∀ x, x ∈ inDomain.domain k 0 1 → (inDomain.core x).standsAt k = false := by decide +kernel
    exact this k (Nat.lt_succ_of_le hk) x hx⟩
theorem witness_dphase : inDomain.Issues ∧ dphaseCheck 4 inDomain = .ok () ∧
    ((inDomain.closeFor 0).slot 0).latch = none ∧ inDomain.slowDrain 0 = false ∧ (inDomain.core 0).arrive = none :=
  ⟨issues (by decide), unit_eq (by decide +kernel), by decide +kernel, by decide +kernel, by decide⟩

/-! Counters and traces -/

/-- Event 0x0E for core counter 7; slice 63's counter 3. -/
theorem witness_pmcfg : ∃ c, c = CtrSel.of (gr (setG (setG world 5 7) 6 0x3F0E) 5) ∧ (setG (setG world 5 7) 6 0x3F0E).Issues ∧
    ctrSelOk (gr (setG (setG world 5 7) 6 0x3F0E) 5) = true ∧ c.group ≠ 3 ∧ eventOk c.group (0x3F0E % 256) = true ∧
    (gr (setG (setG world 5 7) 6 0x3F0E) 6).toNat < 2 ^ 14 ∧ ctrMine (setG (setG world 5 7) 6 0x3F0E) c :=
  ⟨_, rfl, issues (by decide), by decide, by decide, by decide, by decide, by unfold ctrMine; decide +kernel⟩
theorem witness_pmrd : (setG world 5 0x13F03).Issues ∧ ctrSelOk (gr (setG world 5 0x13F03) 5) = true ∧
    ctrMine (setG world 5 0x13F03) (CtrSel.of (gr (setG world 5 0x13F03) 5)) :=
  ⟨issues (by decide), by decide, by unfold ctrMine; decide +kernel⟩
theorem witness_trmark : world.Issues ∧ (world.slot world.cur.u).loops = [] := ⟨issues (by decide), by decide⟩
/-- Sampling every 2^20 clocks. -/
def sampled : State := { slotDo world (fun sl => { sl with csr := { sl.csr with trcfg := 0xA08 } }) with clock := 2 ^ 20 }
theorem witness_sample : (sampled.slot 0).task.isSome = true ∧ (sampled.slot 0).csr.trcfg.getLsbD 3 = true ∧
    sampled.clock % 2 ^ (fld (sampled.slot 0).csr.trcfg.toNat 8 5 + 10) = 0 := ⟨by decide, by decide, by decide⟩
/-- A clock counter that counts and interrupts. -/
def counting : State := coreDo world (fun c => { c with cfgs := [(0, 0x301)] })
theorem witness_overflow : counting.occ.a = 0 ∧ bitOf (Tbl.get 0 (counting.core 0).cfgs 0) 8 = true ∧
    looseEvent 0 (fld (Tbl.get 0 (counting.core 0).cfgs 0) 0 8) = true ∧ counting.occ.b = 0 ∧ counting.occ.c = 0 :=
  ⟨by decide, by decide, by decide, by decide, by decide⟩

end Sys2Proof.Witness
end

