-- ==== Sys2Proof/Tests/WitnessD.lean ====
section
/-! SUPPORT. States and operands that meet the hypotheses of the statements about copies and schedules, clause by clause. -/

namespace Sys2Proof.Witness
set_option Elab.async false
open Sys2Proof Sys2Proof.Machine Sys2Proof.Claim

/-- A copy descriptor of one row (R309). -/
def copyBytes (src dst row sk dk pat x0 x1 : Nat) : List Byte :=
  leBytes 8 src ++ leBytes 8 dst ++ leBytes 4 row ++ leBytes 4 0x10001 ++ leBytes 16 0 ++ leBytes 4 (sk + 256 * dk) ++
    leBytes 4 pat ++ leBytes 8 x0 ++ leBytes 8 x1

/-- A descriptor at granule 0, the word in hand one of the copy ring. -/
def copying (s : State) (b : List Byte) : State :=
  atEngine (coreDo s (fun c => { c with scratch := c.scratch.store 0 b })) .copy

def copyD (s : State) : CopyDesc := CopyDesc.parse (granBytes s 0 64)

/-- What the statement of the copy words asks of a state with a descriptor at granule 0, for a word of channel 0 without a
barrier. -/
def copyMeets (s : State) (op : CopyOp) : Prop :=
  ∃ sa sb s1 s2 d amps, s.EngineFree ∧ granOk s 0 64 ∧ d = CopyDesc.parse (granBytes s 0 64) ∧ d.check op = .ok () ∧
    (toGroup op d = true → bitOf (s.group (d.x1 % 2 ^ 16)) 17 = true) ∧ (op = .copy → d.overlaps = false) ∧
    endCheck s (s.slot s.cur.u) op d false true = .ok sa ∧
    endCheck sa (s.slot s.cur.u) op d true (!toGroup op d || bitOf (sa.group (d.x1 % 2 ^ 16)) 16) = .ok sb ∧
    (toGroup op d = true → needRoutes sb d.dst (sb.groupPeers (sb.group (d.x1 % 2 ^ 16))) = .ok ()) ∧
    copyAmps sb (s.slot s.cur.u) d = .ok (s1, amps) ∧
    moveBlocks (s.slot s.cur.u) op d 0 none
      (s1.seedTile (coreOf s.cur.u) ptCOPY (s.slot s.cur.u).ctx ((s.slot s.cur.u).chan 0).tile) d.blocks = (s2, none) ∧
    s2.EngineFree

def copySa (s : State) (op : CopyOp) : M State := endCheck s (s.slot s.cur.u) op (copyD s) false true
def copySb (s : State) (op : CopyOp) : M State :=
  endCheck (got (copySa s op)) (s.slot s.cur.u) op (copyD s) true
    (!toGroup op (copyD s) || bitOf ((got (copySa s op)).group ((copyD s).x1 % 2 ^ 16)) 16)
def copyS1 (s : State) (op : CopyOp) : M (State × Nat) := copyAmps (got (copySb s op)) (s.slot s.cur.u) (copyD s)
def copyS2 (s : State) (op : CopyOp) : State × Option Exit :=
  moveBlocks (s.slot s.cur.u) op (copyD s) 0 none ((got (copyS1 s op)).1.seedTile (coreOf s.cur.u) ptCOPY (s.slot s.cur.u).ctx
    ((s.slot s.cur.u).chan 0).tile) (copyD s).blocks

/-- The same, as far as it is decided by running the checks. -/
def copyRuns (s : State) (op : CopyOp) : Prop :=
  freeB s = true ∧ passes ((copyD s).check op) = true ∧
    (toGroup op (copyD s) = true → bitOf (s.group ((copyD s).x1 % 2 ^ 16)) 17 = true) ∧
    (op = .copy → (copyD s).overlaps = false) ∧ passes (copySa s op) = true ∧ passes (copySb s op) = true ∧
    (toGroup op (copyD s) = true → passes (needRoutes (got (copySb s op)) (copyD s).dst
      ((got (copySb s op)).groupPeers ((got (copySb s op)).group ((copyD s).x1 % 2 ^ 16)))) = true) ∧
    passes (copyS1 s op) = true ∧ (copyS2 s op).2 = none ∧ freeB (copyS2 s op).1 = true

theorem copy_meets {s : State} {op : CopyOp} (hg : granOk s 0 64) (h : copyRuns s op) : copyMeets s op := by
  obtain ⟨fits, word, group, apart, src, dst, routes, amps, moved, idle⟩ := h
  exact ⟨got (copySa s op), got (copySb s op), (got (copyS1 s op)).1, (copyS2 s op).1, copyD s, (got (copyS1 s op)).2,
    free fits, hg, rfl, unit_eq word, group, apart, got_eq src, got_eq dst, fun e => unit_eq (routes e), got_eq amps,
    Prod.ext rfl moved, free idle⟩

/-- Into the last 64 bytes of the scratchpad; a fill; and a multicast to a group with this package alone. -/
def copyState : State := copying world (copyBytes 64 65472 64 1 1 0 0 0)
def fillState : State := copying world (copyBytes 0 65472 64 4 1 0x04030201 0 0)
def castState : State :=
  let s := copying world (copyBytes 64 (2 ^ 52) 64 1 0 0 0 (2 ^ 16 + 5))
  { s with fab := { s.fab with groups := [(5, 0x30000)] } }
theorem witness_ccopy : copyForm (.ccopy ⟨0, 0, 0, false, 0⟩) = some (⟨0, 0, 0, false, 0⟩, .copy) ∧ copyMeets copyState .copy :=
  ⟨rfl, copy_meets (by unfold granOk; decide) (by unfold copyRuns; decide +kernel)⟩
theorem witness_cfill : copyMeets fillState .fill := copy_meets (by unfold granOk; decide) (by unfold copyRuns; decide +kernel)
theorem witness_cmcast : copyMeets castState .mcast ∧ toGroup .mcast (copyD castState) = true :=
  ⟨copy_meets (by unfold granOk; decide) (by unfold copyRuns; decide +kernel), by decide +kernel⟩

theorem witness_copy_moves : ∃ d, d = copyD copyState ∧ d.check .copy = .ok () ∧ d.sk = 1 ∧ d.dk = 1 ∧ d.n1 = 1 ∧ d.n2 = 1 ∧
    d.row ≤ 2 ^ 20 ∧ d.dst + d.row ≤ (copyState.slot copyState.cur.u).alloc.spLen ∧
    d.src + d.row ≤ (copyState.slot copyState.cur.u).alloc.spLen ∧ d.src + d.row ≤ d.dst ∧ copyState.EngineFree :=
  ⟨_, rfl, unit_eq (by decide +kernel), by decide +kernel, by decide +kernel, by decide +kernel, by decide +kernel,
    by decide +kernel, by decide +kernel, by decide +kernel, by decide +kernel, free (by decide +kernel)⟩

/-- A barrier armed for 0 bytes and for the most; a channel over the greatest range; a schedule stopped. -/
def copyChanges (s : State) (i : Instr) : Prop := ∃ ok m, copyEffect s i = some (ok, m) ∧ s.EngineFree ∧ ok
theorem witness_cbarset : copyChanges copyState (.cbarset ⟨31, 0⟩) ∧ copyChanges copyState (.cbarset ⟨31, 0x7FFFFFFF⟩) :=
  ⟨⟨_, _, rfl, free (by decide +kernel), trivial⟩, ⟨_, _, rfl, free (by decide +kernel), trivial⟩⟩
def chanState : State := copying world (leBytes 8 (2 ^ 52) ++ leBytes 8 (2 ^ 40) ++ leBytes 48 0)
theorem witness_cchan : copyChanges chanState (.cchan ⟨15, 0⟩) :=
  ⟨_, _, rfl, free (by decide +kernel), by unfold granOk; decide +kernel, by decide +kernel⟩
theorem witness_cstop : copyChanges chanState .cstop ∧ copyChanges chanState (.cchanOff ⟨15, 0⟩) :=
  ⟨⟨_, _, rfl, free (by decide +kernel), trivial⟩, ⟨_, _, rfl, free (by decide +kernel), trivial⟩⟩

/-! Schedules -/

/-- A schedule block at granule 0 that names tensor 1, where a table of one entry and four stages stands; all released. -/
def schedBlock : List Byte := leBytes 8 (2 ^ 52) ++ leBytes 4 0 ++ leBytes 4 4 ++ leBytes 48 0
def schedEntry : List Byte := copyBytes 64 65216 64 1 1 0 64 64
def schedState : State :=
  let s := copying world schedBlock
  { s with dram := (s.dram.setNum 0x200000 8 0x400010001).store 0x200040 schedEntry }
def scSa : M (State × Desc) := tensorEnd schedState 0 ptCOPY 0 (2 ^ 52) 0 64 false
def scSb : M (State × List Byte) := tensorRead (got scSa).1 0 ptCOPY 0 (2 ^ 52) 64
def scSc : M (State × Desc) := tensorEnd (got scSb).1 0 ptCOPY 0 (2 ^ 52) 0 128 false
def scSd : M (State × List Byte) := tensorRead (got scSc).1 0 ptCOPY 0 (2 ^ 52 + 64) 64
theorem witness_csched : ∃ sa sb sc sd td te h tab, schedState.EngineFree ∧ granOk schedState 0 64 ∧
    granBytes schedState 0 64 = schedBlock ∧ (schedState.slot schedState.cur.u).sched.state = 0 ∧
    blockF schedBlock 0 8 = 2 ^ 52 ∧ blockF schedBlock 17 47 = 0 ∧ (decSignal (blockF schedBlock 16 1)).isSome = true ∧
    tensorEnd schedState 0 ptCOPY 0 (2 ^ 52) 0 64 false = .ok (sa, td) ∧
    tensorRead sa 0 ptCOPY 0 (2 ^ 52) 64 = .ok (sb, h) ∧ blockF h 0 2 = 1 ∧ blockF h 2 2 = 1 ∧ blockF h 4 4 = 4 ∧
    (h.drop 8).all (· = 0) = true ∧ blockF schedBlock 12 4 ≤ blockF h 4 4 ∧
    tensorEnd sb 0 ptCOPY 0 (2 ^ 52) 0 128 false = .ok (sc, te) ∧
    tensorRead sc 0 ptCOPY 0 (2 ^ 52 + 64) 64 = .ok (sd, tab) ∧ sd.EngineFree :=
  ⟨(got scSa).1, (got scSb).1, (got scSc).1, (got scSd).1, (got scSa).2, (got scSc).2, (got scSb).2, (got scSd).2,
    free (by decide +kernel), by unfold granOk; decide, by decide +kernel, by decide, by decide +kernel, by decide +kernel,
    by decide +kernel, got_pair (by decide +kernel) rfl, got_pair (by decide +kernel) rfl, by decide +kernel, by decide +kernel,
    by decide +kernel, by decide +kernel, by decide +kernel, got_pair (by decide +kernel) rfl, got_pair (by decide +kernel) rfl,
    free (by decide +kernel)⟩

/-- A running schedule at its last released stage. -/
def running : State := slotDo world (fun sl => { sl with
  sched := { (default : Sched) with state := 1, stage := 3, released := 4, e := 1, s := 4, tab := schedEntry } })
def runEntry : CopyDesc := let d := CopyDesc.parse schedEntry
  { d with src := addOff d.src (3 * sint 64 d.x0), dst := addOff d.dst (3 * sint 64 d.x1) }
def runCur : State := { running with cur := ⟨0, .copy, ⟨.none, .none, 0⟩, (running.slot 0).sched.word, 8, false⟩ }
def runSa : M State := endCheck runCur (running.slot 0) .entry runEntry false true
def runSb : M State := endCheck (got runSa) (running.slot 0) .entry runEntry true true
def runS1 : M (State × Nat) := copyAmps (got runSb) (running.slot 0) runEntry
def runS2 : State × Option Exit :=
  moveBlocks (running.slot 0) .entry runEntry 0 none
    ((got runS1).1.seedTile 0 ptCOPY (running.slot 0).ctx ((running.slot 0).chan 0).tile) runEntry.blocks
theorem witness_schedule_entry : ∃ sa sb s1 s2 amps c, c = (running.slot 0).sched ∧ running.occ.a = 0 ∧ running.occ.b ≠ 1 ∧
    Runs running 0 ∧ Tbl.get 0 (running.core 0).engFree 2 ≤ running.clock ∧ c.state = 1 ∧ c.stage < c.released ∧
    running.engBusy 0 2 = false ∧ (running.slot 0).task.isSome = true ∧ running.ringsHeld 0 = false ∧
    running.ringFirst 0 false = false ∧ (c.tab.drop (64 * c.entry)).take 64 = schedEntry ∧ runEntry.check .entry = .ok () ∧
    runEntry.overlaps = false ∧ endCheck runCur (running.slot 0) .entry runEntry false true = .ok sa ∧
    endCheck sa (running.slot 0) .entry runEntry true true = .ok sb ∧ copyAmps sb (running.slot 0) runEntry = .ok (s1, amps) ∧
    moveBlocks (running.slot 0) .entry runEntry c.ch none
      (s1.seedTile 0 ptCOPY (running.slot 0).ctx ((running.slot 0).chan c.ch).tile) runEntry.blocks = (s2, none) ∧
    s2.cur = runCur.cur :=
  ⟨got runSa, got runSb, (got runS1).1, runS2.1, (got runS1).2, _, rfl, by decide, by decide, runs (by decide), by decide,
    by decide, by decide, by decide +kernel, by decide, by decide +kernel, by decide +kernel, by decide +kernel,
    unit_eq (by decide +kernel), by decide +kernel, got_eq (by decide +kernel), got_eq (by decide +kernel),
    got_pair (by decide +kernel) rfl, Prod.ext rfl (by decide +kernel), by decide +kernel⟩

theorem witness_cstage : ∃ c, c = running.closeFor running.cur.u ∧ running.Issues ∧ running.Closes c ∧
    (c.slot running.cur.u).greg 0 = gr running 0 ∧ (0xFFFF : BitVec 24).toNat % 2 ^ 16 + (gr running 0).toNat ≠ 0 :=
  ⟨_, rfl, issues (by decide), closes (by decide +kernel), by decide +kernel, by decide⟩
/-- The highest index of each kind. -/
theorem witness_cstat : running.Issues ∧ (gr (setG running 5 15) 5).toNat < cstatLimit 0 ∧
    (gr (setG running 5 31) 5).toNat < cstatLimit 3 ∧ (gr running 5).toNat < cstatLimit 5 :=
  ⟨issues (by decide), by decide, by decide, by decide⟩

end Sys2Proof.Witness
end

