-- ==== Sys2Proof/Tests/WitnessE.lean ====
section
/-! SUPPORT. States and operands that meet the hypotheses of the statements about the host's registers, bring-up, the power
governor, and the words of search and of the page pool, clause by clause. -/

namespace Sys2Proof.Witness
set_option Elab.async false
open Sys2Proof Sys2Proof.Machine Sys2Proof.Claim

/-- A state with an occasion, or with its hub changed. -/
def withOcc (s : State) (f : Occasion → Occasion) : State := { s with occ := f s.occ }
def hubDo (s : State) (f : Hub → Hub) : State := { s with hub := f s.hub }

/-! The host's registers -/

/-- INVCTL for context 0, whose function is 0; none under way, and one under way. -/
def invAll : State := withOcc world (fun o => { o with w := 0x4000000000000000 })
def invBusy : State := hubDo invAll (fun h => { h with invNow := [(0, 1)] })
theorem witness_invctl : invAll.fnOf (fld invAll.occ.w.toNat 12 8) = 0 ∧
    (∀ e ∈ invAll.hub.invNow, e.1 ≠ 0) ∧ invBusy.fnOf (fld invBusy.occ.w.toNat 12 8) = 0 ∧ (∃ e ∈ invBusy.hub.invNow, e.1 = 0) :=
  ⟨by decide, by decide, by decide, by decide⟩
theorem witness_invalidation : invBusy.occ.a % 16 = 0 ∧ invBusy.hub.invNow = [(0, 1)] ∧ invBusy.hub.invHeld = [] :=
  ⟨by decide, by decide, by decide⟩
/-- The register block of context 255: TTBASE at the last line of DRAM, CTXFPOL out of range; a context with a parked task. -/
def blockTt : State := withOcc State.reset (fun o => { o with a := 255, b := 0, c := 8, w := BitVec.ofNat 64 (dramSize - 64) })
def blockPol : State := withOcc State.reset (fun o => { o with a := 255, b := 0x70, c := 8, w := 4 })
def blockBusy : State := ctxDo State.reset (fun x => { x with parked := [(task, [])] })
theorem witness_block : blockTt.ctxIdle 255 = true ∧ blockTt.occ.w.toNat % 64 = 0 ∧ blockTt.occ.w.toNat < dramSize ∧
    blockPol.ctxIdle 255 = true ∧ 3 < blockPol.occ.w.toNat ∧ blockBusy.ctxIdle 0 = false :=
  ⟨by decide, by decide, by decide, by decide, by decide, by decide⟩
theorem witness_kvpages : (withOcc State.reset (fun o => { o with w := BitVec.ofNat 64 (2 ^ 26) })).ctxIdle 0 = true ∧
    (BitVec.ofNat 64 (2 ^ 26)).toNat % 2 ^ 32 ≤ 2 ^ 26 := ⟨by decide, by decide⟩
/-- GSCFG at its least; a multicast group at its greatest; a virtual function turned away. -/
def barGs : State := withOcc world (fun o => { o with reg := .gscfg, w := 0x4000000004 })
def barMc : State := withOcc world (fun o => { o with reg := .mcast 65535, w := 0x3FFFF })
def barVf : State := withOcc world (fun o => { o with a := 1, reg := .gscfg })
theorem witness_bar0 : (∃ ok m, barEffect barGs barGs.occ.reg barGs.occ.w.toNat = some (ok, m) ∧ ok) ∧
    (∃ ok m, barEffect barMc barMc.occ.reg barMc.occ.w.toNat = some (ok, m) ∧ ok) ∧ barGs.hub.fwst ≠ 2 ∧
    barVf.occ.a % 16 ≠ 0 ∧ barVf.occ.reg = .gscfg :=
  ⟨⟨_, _, rfl, by decide⟩, ⟨_, _, rfl, trivial⟩, by decide, by decide, rfl⟩

/-! Bring-up -/

/-- The last package of the largest grid. -/
def lastPkg : State := withOcc world (fun o => { o with a := 80, b := 9 })
theorem witness_package : lastPkg.occ.a < 81 ∧ lastPkg.occ.a / 9 < lastPkg.occ.b ∧ lastPkg.occ.a % 9 < lastPkg.occ.b ∧
    lastPkg.occ.b ≤ 9 ∧ world.fab.grid ≠ 0 := ⟨by decide, by decide, by decide, by decide, by decide⟩
theorem witness_firmware : ∃ s, s = hubDo world (fun h => { h with fwst := 2 }) ∧ s.hub.fwst = 2 ∧ s.occ.bytes.length ≤ 2 ^ 22 :=
  ⟨_, rfl, by decide, by decide⟩
theorem witness_update : ∃ s, s = hubDo world (fun h => { h with fwst := 1 }) ∧ s.hub.fwst = 1 ∧
    (Config.verified s.occ.bytes = true ∨ Config.verified s.occ.bytes = false) :=
  ⟨_, rfl, by decide, by cases Config.verified _ <;> simp⟩
theorem witness_die : world.dieUp (world.occ.a % 4) = true := by decide
/-- An offset of one nanosecond less than a millisecond, and of one. -/
def timed (x : Int) : State := withOcc (hubDo world (fun h => { h with timeSrc := 1 })) (fun o => { o with off := x })
theorem witness_time : (timed 999999).hub.timeSrc ≠ 0 ∧ (timed (-999999)).occ.off.natAbs < 1000000 ∧
    1000000 ≤ (timed 1000000).occ.off.natAbs ∧
    0 ≤ (((timed 1000000).clock * 20 / 21 : Nat) : Int) + (timed 1000000).hub.timeOff + (timed 1000000).slewed ∧
    0 ≤ (timed 1000000).devTime + (timed 1000000).occ.off := ⟨by decide, by decide, by decide, by decide, by decide⟩
theorem witness_quote : (withOcc world (fun o => { o with bytes := List.replicate 32 1 })).occ.bytes.length = 32 := by decide
/-- The last byte of DRAM through BAR2: a write posted, or made at once for the DCC; posted writes of function 3, of which the
second may pass the first only with Relaxed Ordering; a read of a function none of whose writes is posted. -/
def bar2 (d : Nat) : State := withOcc world (fun o => { o with flag := true, b := dramSize - 1, d := d, bytes := [7] })
def posting (k : Nat) (ro : Bool) : State :=
  withOcc (hubDo world (fun h => { h with posted := [(3, false, 0, [1]), (3, ro, 8, [2])] })) (fun o => { o with d := 1, c := k })
theorem witness_bar2 : (bar2 0).occ.flag = true ∧ (bar2 0).occ.b + (bar2 0).occ.bytes.length ≤ dramSize ∧
    (bar2 0).occ.d = 0 ∧ (bar2 2).occ.d = 2 := ⟨by decide, by decide, by decide, by decide⟩
theorem witness_posted_first : ∃ l r, l = ([] : List (Nat × Bool × Nat × List Byte)) ∧ (posting 0 false).occ.d = 1 ∧
    (posting 0 false).hub.posted = l ++ (3, false, 0, [1]) :: r ∧ (posting 0 false).occ.c = l.length ∧ ∀ e, e ∈ l → e.1 ≠ 3 :=
  ⟨_, _, rfl, by decide, rfl, by decide, by simp⟩
theorem witness_posted_passes : ∃ l r, (posting 1 true).occ.d = 1 ∧
    (posting 1 true).hub.posted = l ++ (3, true, 8, [2]) :: r ∧ (posting 1 true).occ.c = l.length :=
  ⟨[(3, false, 0, [1])], [], by decide, by decide, by decide⟩
theorem witness_posted_waits : ∃ l r, (posting 1 false).occ.d = 1 ∧
    (posting 1 false).hub.posted = l ++ (3, false, 8, [2]) :: r ∧ (posting 1 false).occ.c = l.length ∧ ∃ e, e ∈ l ∧ e.1 = 3 :=
  ⟨[(3, false, 0, [1])], [], by decide, by decide, by decide, ⟨_, List.mem_singleton.mpr rfl, rfl⟩⟩
theorem witness_bar2_read : ∃ s, s = withOcc (posting 0 false) (fun o => { o with d := 0, b := dramSize - 1, c := 1 }) ∧
    s.occ.flag = false ∧ s.occ.d = 0 ∧ s.occ.b + s.occ.c ≤ dramSize ∧ ∀ e, e ∈ s.hub.posted → e.1 ≠ s.occ.a % 16 :=
  ⟨_, rfl, by decide, by decide, by decide, by decide⟩
/-- A request that takes all that is left of a die's 800 A, and one ampere more. -/
def asked (n : Nat) : State := hubDo world (fun h => { h with grants := [⟨0, 3, n, 0, false⟩] })
theorem witness_grant : ∃ g g', (asked 800).hub.grants.find? (fun g => g.die == (asked 800).occ.a && !g.issued) = some g ∧
    (asked 800).usedAmps 0 + g.amps ≤ (asked 800).budget 0 ∧
    (asked 801).hub.grants.find? (fun g => g.die == (asked 801).occ.a && !g.issued) = some g' ∧
    (asked 801).budget 0 < (asked 801).usedAmps 0 + g'.amps :=
  ⟨_, _, rfl, by decide, rfl, by decide⟩
theorem witness_rebalance : (withOcc world (fun o => { o with nums := [3000, 3000, 3000, 3000] })).occ.nums =
    [3000, 3000, 3000, 3000] ∧ 3000 + 3000 + 3000 + 3000 ≤ 12000 := ⟨rfl, by decide⟩

/-! Held words -/

/-- What a held word's statement asks. -/
def heldMeets (s : State) (i : Instr) : Prop := ∃ ok e, heldWord s i = some (ok, e) ∧ s.Issues ∧ ok ∧ hasRoom s e

/-- Node 0 of package 80, the last; the last page of a pool of 16 pages. -/
def paged : State := setG (setG (ctxDo world (fun x => { x with
  block := (x.block.setNum 0x3C 4 16).setNum 0x48 8 0x400000 })) 5 (80 * 2 ^ 25)) 6 15
theorem witness_tcancel : heldMeets paged (.tcancel ⟨0, 5, 0, false, 1⟩) :=
  ⟨_, _, rfl, issues (by decide), by unfold refOk; decide, room (by decide +kernel)⟩
theorem witness_treprio : heldMeets (setG paged 6 0x7F7FFFFF) (.treprio ⟨0, 5, 6, false, 1⟩) :=
  ⟨_, _, rfl, issues (by decide), by unfold refOk; decide, room (by decide +kernel)⟩
theorem witness_tjoin : heldMeets (setG paged 6 0xFFFFFFF) (.tjoin ⟨0, 5, 6, false, 0⟩) :=
  ⟨_, _, rfl, issues (by decide), by unfold refOk; decide, room (by decide +kernel)⟩
theorem witness_nst : heldMeets paged (.nst ⟨0, 5, 6, false, 0x7F8⟩) :=
  ⟨_, _, rfl, issues (by decide), by unfold refOk; decide, room (by decide +kernel)⟩
theorem witness_nadd : heldMeets paged (.nadd ⟨0, 5, 6, false, 1⟩) :=
  ⟨_, _, rfl, issues (by decide), by unfold refOk; decide, room (by decide +kernel)⟩
theorem witness_nlink : heldMeets paged (.nlink ⟨0, 5, 6, false, 0⟩) :=
  ⟨_, _, rfl, issues (by decide), by unfold refOk; decide, room (by decide +kernel)⟩
theorem witness_kvfree : heldMeets paged (.kvfree ⟨0, 6, 0, false, 0⟩) ∧ heldMeets paged (.kvpin ⟨0, 6, 0, false, 0⟩) :=
  ⟨⟨_, _, rfl, issues (by decide), by unfold pageOk; decide, room (by decide +kernel)⟩,
    ⟨_, _, rfl, issues (by decide), by unfold pageOk; decide, room (by decide +kernel)⟩⟩
theorem witness_pfxevict : heldMeets paged (.pfxevict ⟨0, 5, 6, false, 0⟩) ∧ heldMeets paged (.pfxevictAll ⟨0, 0, 0, false, 0⟩) :=
  ⟨⟨_, _, rfl, issues (by decide), by decide, room (by decide +kernel)⟩,
    ⟨_, _, rfl, issues (by decide), trivial, room (by decide +kernel)⟩⟩

/-- A task record at the last 32 bytes of the scratchpad, its node 5 and its references null. -/
def record : List Byte := leBytes 2 5 ++ leBytes 10 0 ++ leBytes 8 0xFFFFFFFFFFFFFFFF ++ leBytes 12 0
def spawning : State := setG (coreDo world (fun c => { c with scratch := c.scratch.store 65504 record })) 5 65504
theorem witness_tspawn : ∃ t0, t0 = Task.parse (spBytes spawning 65504 32) ∧ spawning.Issues ∧
    (gr spawning 5).toNat = 65504 ∧ spReadable spawning 65504 32 ∧ spawnOk spawning t0 false ∧
    roomB spawning (.spawn { t0 with run := 1 } false) = true :=
  ⟨_, rfl, issues (by decide), by decide, by unfold spReadable; decide +kernel, by unfold spawnOk; decide +kernel,
    by decide +kernel⟩
/-- NBACKUP of a NaN, with no trap enabled; of a register pair at the end of the register space; of a value not a NaN. -/
theorem witness_nbackup : (setG paged 6 0x7FC00000).Issues ∧ refOk (gr (setG paged 6 0x7FC00000) 5) ∧
    (gr (setG paged 6 0x7FC00000) 6).toNat < 2 ^ 32 ∧ (fl 0x7FC00000).isNan = true ∧ untrapped (setG paged 6 0x7FC00000) fNV ∧
    (fl 0x3F800000).isNan = false ∧ hasRoom (setG paged 6 0x7FC00000) (.nbackup 0 0 0 none 0 0 0) :=
  ⟨issues (by decide), by unfold refOk; decide, by decide, by decide +kernel, by unfold untrapped; decide, by decide +kernel,
    room (by decide +kernel)⟩
def pairState : State := setG (setG (coreDo world (fun c => { c with valid := 2 ^ 1024 - 1 })) 5 0) 6 65528
theorem witness_nbackup_pair : pairState.Issues ∧ refOk (gr pairState 5) ∧ (gr pairState 6).toNat + 8 ≤
      (pairState.slot pairState.cur.u).alloc.regLen ∧ (gr pairState 6).toNat % 8 = 0 ∧
    (pairState.core 0).regValid 65528 8 = true ∧ XR.lt (fl ((pairState.core 0).regs.num 65532 4)) XR.zero = false ∧
    untrapped pairState 0 ∧ hasRoom pairState (.nbackup 0 0 0 (some 0) 0 0 0) :=
  ⟨issues (by decide), by unfold refOk; decide, by decide, by decide, by decide +kernel, by decide +kernel,
    by unfold untrapped; decide, room (by decide +kernel)⟩
/-- Tensor 4, of layout 4: BF16, 32 × 1 elements of a token, 4 tokens. -/
def kvDesc : List Byte := leBytes 4 0x040301 ++ leBytes 4 0 ++ leBytes 4 32 ++ leBytes 4 1 ++ leBytes 4 4 ++ leBytes 4 1 ++
  leBytes 8 0 ++ leBytes 8 0x1800C0 ++ leBytes 24 0
def kvTensor : State := setG (setG { paged with dram := paged.dram.store 0x100100 kvDesc } 5 (4 * 2 ^ 52)) 6 15
def kvOpen : M (State × Desc) := openTensor kvTensor 0 ptSEQ 0 (4 * 2 ^ 52) 1 false
theorem witness_kvlink : ∃ s1 d, kvTensor.Issues ∧ (gr kvTensor 5).toNat = 4 * 2 ^ 52 ∧
    openTensor kvTensor 0 ptSEQ 0 (4 * 2 ^ 52) 1 false = .ok (s1, d) ∧ d.layout = 4 ∧
    d.home s1.fab.pkg (d.pos (4 * 2 ^ 52 % 2 ^ 52) / 65536) = s1.fab.pkg ∧ d.ronly = false ∧ pageOk s1 (gr kvTensor 6) ∧
    s1.cur = kvTensor.cur ∧ s1.slot kvTensor.cur.u = kvTensor.slot kvTensor.cur.u ∧ s1.Issues ∧
    hasRoom s1 (.kvlink 15 (4 * 2 ^ 52)) :=
  ⟨(got kvOpen).1, (got kvOpen).2, issues (by decide), by decide, got_pair (by decide +kernel) rfl, by decide +kernel,
    by decide +kernel, by decide +kernel, by unfold pageOk; decide +kernel, by decide +kernel, by decide +kernel,
    issues (by decide +kernel), room (by decide +kernel)⟩

end Sys2Proof.Witness
end

