-- ==== Sys2Proof/Tests/WitnessF.lean ====
section
/-! SUPPORT. States and operands that meet the hypotheses of the statements about node reads, closing node and page words,
regions, batches and hashes, clause by clause. -/

namespace Sys2Proof.Witness
set_option Elab.async false
open Sys2Proof Sys2Proof.Machine Sys2Proof.Claim

/-! Reads of nodes, keys and selection -/

/-- What the statement of a read asks. -/
def readMeets (s : State) (i : Instr) : Prop := ∃ ok m rd v lat, nodeRead s i = some (ok, m, rd, v, lat) ∧ s.Issues ∧ ok
theorem witness_tself : readMeets world (.tself ⟨5, 0, 0, false, 6⟩) ∧ readMeets world (.tquery ⟨5, 6, 0, false, 0⟩) ∧
    readMeets world (.tquery ⟨5, 6, 0, false, 1⟩) ∧ readMeets world (.tquery ⟨5, 6, 0, false, 2⟩) :=
  ⟨⟨_, _, _, _, _, rfl, issues (by decide), trivial⟩, ⟨_, _, _, _, _, rfl, issues (by decide), trivial⟩,
    ⟨_, _, _, _, _, rfl, issues (by decide), by decide⟩, ⟨_, _, _, _, _, rfl, issues (by decide), trivial⟩⟩
/-- The last record of this package. -/
theorem witness_nld : readMeets (setG world 6 (2 ^ 25 - 1)) (.nld ⟨5, 6, 0, false, 7⟩) :=
  ⟨_, _, _, _, _, rfl, issues (by decide), by decide⟩
theorem witness_bfstat : readMeets (setG world 6 255) (.bfstat ⟨5, 6, 0, false, 3⟩) :=
  ⟨_, _, _, _, _, rfl, issues (by decide), by decide⟩
theorem witness_nld_far : paged.Issues ∧ ref (gr paged 5) / 2 ^ 25 ≠ paged.fab.pkg ∧ ref (gr paged 5) / 2 ^ 25 < 81 :=
  ⟨issues (by decide), by decide, by decide⟩

/-- Node 1 with a parent, node 2, and one child, node 3. -/
def treed : State := setG { world with nsm := ((world.nsm.setNum 92 4 2).setNum 96 4 3).setNum 228 4 0xFFFFFFFF } 6 1
theorem witness_nkey : ∃ par key, treed.Issues ∧ ref (gr treed 6) = 1 ∧ 1 / 2 ^ 25 = treed.fab.pkg ∧ treed.fab.pkg < 81 ∧
    par = nodeF treed 1 28 4 ∧ par = 2 ∧ par / 2 ^ 25 = treed.fab.pkg ∧ treed.nodeSt 1 = stOK ∧ treed.nodeSt par ≠ stSTALE ∧
    key = keyAt treed 0 1 (some par) :=
  ⟨_, _, issues (by decide), by decide, by decide, by decide, rfl, by decide +kernel, by decide +kernel, by decide +kernel,
    by decide +kernel, rfl⟩
theorem witness_nselect : ∃ l res, treed.Issues ∧ l = scanOf treed 1 (nodeF treed 1 32 4) ∧ l = [3] ∧
    (∀ c, c ∈ l → c / 2 ^ 25 = treed.fab.pkg) ∧ res = bestOf treed 0 1 l none :=
  ⟨_, _, issues (by decide), rfl, by decide +kernel, by decide +kernel, rfl⟩

/-! Closing words -/

/-- What the statement of a closing word asks: the word issues, its region closes, and its checks pass before and after. -/
def answerMeets (s : State) (i : Instr) : Prop :=
  ∃ c, s.Issues ∧ s.Closes c ∧ (∀ n, (c.slot s.cur.u).greg n = (s.slot s.cur.u).greg n) ∧
    (∃ ok rd m v st, closingRead s i = some (ok, rd, m, v, st) ∧ ok) ∧
    ∃ ok rd m v st, closingRead c i = some (ok, rd, m, v, st) ∧ ok

theorem answer {s : State} {i : Instr} (h1 : issuesB s = true) (h2 : closesB s = true)
    (h3 : ((s.closeFor s.cur.u).slot s.cur.u).g = (s.slot s.cur.u).g)
    (hu : ((s.closeFor s.cur.u).slot s.cur.u).csr.uiact = (s.slot s.cur.u).csr.uiact)
    (h4 : ∃ ok rd m v st, closingRead s i = some (ok, rd, m, v, st) ∧ ok)
    (h5 : ∃ ok rd m v st, closingRead (s.closeFor s.cur.u) i = some (ok, rd, m, v, st) ∧ ok) : answerMeets s i :=
  ⟨_, issues h1, closes h2, fun n => by simp only [Slot.greg, Slot.phys, h3, hu], h4, h5⟩

def allocState : State := setG (setG paged 5 0xFFFFFFFF) 6 65535
theorem witness_nalloc : answerMeets allocState (.nalloc ⟨7, 5, 6, false, 0⟩) :=
  answer (by decide) (by decide +kernel) (by decide +kernel) (by decide +kernel)
    ⟨_, _, _, _, _, rfl, by decide⟩ ⟨_, _, _, _, _, rfl, by decide +kernel⟩
theorem witness_nadd_closing : answerMeets treed (.nadd ⟨7, 6, 0, false, 1⟩) :=
  answer (by decide) (by decide +kernel) (by decide +kernel) (by decide +kernel)
    ⟨_, _, _, _, _, rfl, by decide⟩ ⟨_, _, _, _, _, rfl, by decide +kernel⟩
theorem witness_ncas : answerMeets treed (.ncas ⟨7, 6, 0, false, 7⟩) :=
  answer (by decide) (by decide +kernel) (by decide +kernel) (by decide +kernel)
    ⟨_, _, _, _, _, rfl, by decide⟩ ⟨_, _, _, _, _, rfl, by decide +kernel⟩
theorem witness_kvalloc : answerMeets (setG allocState 6 255) (.kvalloc ⟨7, 5, 6, false, 0⟩) :=
  answer (by decide) (by decide +kernel) (by decide +kernel) (by decide +kernel)
    ⟨_, _, _, _, _, rfl, by unfold pageOk; decide⟩ ⟨_, _, _, _, _, rfl, by unfold pageOk; decide +kernel⟩
/-- PFXLOOK of one hash in the last twelve bytes it may use. -/
def lookState : State := setG (setSp world 65520 8 7) 5 65520
theorem witness_pfxlook : answerMeets lookState (.pfxlook ⟨7, 5, 6, false, 0⟩) :=
  answer (by decide) (by decide +kernel) (by decide +kernel) (by decide +kernel)
    ⟨_, _, _, _, _, rfl, by unfold spReadable; decide +kernel⟩ ⟨_, _, _, _, _, rfl, by unfold spReadable; decide +kernel⟩
theorem witness_pfxins : answerMeets (setG (setG paged 5 7) 6 15) (.pfxins ⟨7, 5, 6, false, 0⟩) :=
  answer (by decide) (by decide +kernel) (by decide +kernel) (by decide +kernel)
    ⟨_, _, _, _, _, rfl, by decide⟩ ⟨_, _, _, _, _, rfl, by decide +kernel⟩
theorem witness_ncas_far : ∃ c rd r op args, c = paged.closeFor paged.cur.u ∧ paged.Issues ∧ paged.Closes c ∧
    c.fab.pkg = paged.fab.pkg ∧ farNode paged (.ncas ⟨7, 5, 0, false, 7⟩) = some (rd, r, op, args) ∧
    r / 2 ^ 25 ≠ paged.fab.pkg ∧ r / 2 ^ 25 < 81 :=
  ⟨_, _, _, _, _, rfl, issues (by decide), closes (by decide +kernel), by decide +kernel, rfl, by decide, by decide⟩
/-- NALLOC with its parent, node 0 of package 80, and an action of at most 16 bits. -/
def allocFar : State := setG paged 6 65535
theorem witness_nalloc_far : ∃ c rd r op args, c = allocFar.closeFor allocFar.cur.u ∧ allocFar.Issues ∧ allocFar.Closes c ∧
    c.fab.pkg = allocFar.fab.pkg ∧ farNode allocFar (.nalloc ⟨7, 5, 6, false, 1⟩) = some (rd, r, op, args) ∧
    r / 2 ^ 25 ≠ allocFar.fab.pkg ∧ r / 2 ^ 25 < 81 ∧ (gr allocFar 6).toNat < 2 ^ 16 ∧ r ≠ nullRef :=
  ⟨_, _, _, _, _, rfl, issues (by decide), closes (by decide +kernel), by decide +kernel, rfl, by decide, by decide,
    by decide, by decide⟩

/-! Regions and batches -/

theorem witness_region : world.Issues ∧ (0x2000 : BitVec 24).getLsbD 13 = true ∧ (0x0FC0 : BitVec 24).getLsbD 13 = false ∧
    (world.slot world.cur.u).loops = [] := ⟨issues (by decide), by decide, by decide, by decide⟩
/-- A block that asks for 256 rows, record 4095, the longest window, one buffer in tensor 1; one that disables; a record that
is armed. -/
def batchBlock : List Byte := leBytes 2 256 ++ leBytes 2 4095 ++ leBytes 4 10000000 ++ leBytes 8 (2 ^ 52) ++ leBytes 1 1 ++
  leBytes 15 0
def batching : State := setG (setG (coreDo world (fun c => { c with scratch := c.scratch.store 65504 batchBlock })) 6 65504) 5 255
def batchRow : Bool := decide (batching.recState 0 4095 = 0) && !batching.recBit 0 4095 6
theorem witness_bfcfg : batching.Issues ∧ (gr batching 5).toNat < 256 ∧ (gr batching 6).toNat % 32 = 0 ∧
    spReadable batching 65504 32 ∧ spBytes batching 65504 32 = batchBlock ∧ blockF batchBlock 17 15 = 0 ∧
    blockF batchBlock 0 2 ≤ 256 ∧ blockF batchBlock 2 2 < 4096 ∧ blockF batchBlock 4 4 ≤ 10000000 ∧
    blockF batchBlock 8 8 % 64 = 0 ∧ batching.areaOk 0 (2 ^ 52) 1 = true ∧ (batching.set 0 255).maxrows ≠ 256 ∧ batchRow = true :=
  ⟨issues (by decide), by decide, by decide, by unfold spReadable; decide +kernel, by decide +kernel, by decide, by decide,
    by decide, by decide, by decide, by decide +kernel, by decide +kernel, by decide +kernel⟩
theorem witness_bfcfg_busy : ∃ s, s = { batching with dram := batching.dram.setNum (batching.recAddr 0 4095 + 48) 1 1 } ∧
    s.recState 0 4095 ≠ 0 ∧ s.Issues ∧ s.areaOk 0 (2 ^ 52) 1 = true :=
  ⟨_, rfl, by decide +kernel, issues (by decide), by decide +kernel⟩
theorem witness_bfflush : world.Issues ∧ (0x100 : BitVec 24).getLsbD 8 = true := ⟨issues (by decide), by decide⟩

/-! Pages and hashes -/

/-- Page 15 live, and page 14 free. -/
def kvState : State := { setG paged 7 0xFFFF with dram := paged.dram.setNum (0x400000 + 32 * 15 + 11) 1 1 }
theorem witness_kvinv : kvState.Issues ∧ pageOk kvState (gr kvState 6) ∧ (gr kvState 7).toNat < 2 ^ 16 ∧
    kvState.pgStale 0 15 = false ∧ kvState.pgF 0 15 11 1 ≠ 0 ∧ kvState.pgF 0 14 11 1 = 0 :=
  ⟨issues (by decide), by unfold pageOk; decide, by decide, by decide +kernel, by decide +kernel, by decide +kernel⟩
theorem witness_pfxhash : ∃ s, s = setG world 5 65472 ∧ s.Issues ∧ spReadable s 65472 64 ∧ (gr s 5).toNat % 64 = 0 :=
  ⟨_, rfl, issues (by decide), by unfold spReadable; decide +kernel, by decide⟩

end Sys2Proof.Witness
end

