-- ==== Sys2Proof/Tests/WitnessG.lean ====
section
/-! SUPPORT. States and operands that meet the hypotheses of the statements about vector, transfer and moment words, clause by
clause. -/

namespace Sys2Proof.Witness
set_option Elab.async false
open Sys2Proof Sys2Proof.Machine Sys2Proof.Claim

/-- The register space valid throughout and zero, and the word in hand one of the vector ring. -/
def vecState : State := atEngine (coreDo world (fun c => { c with valid := 2 ^ 1024 - 1 })) .vec
theorem vec_free : vecState.EngineFree := free (by decide +kernel)

/-- Operands up to the last vector of the allocation. -/
def vr (ty fn : Nat) : VR := ⟨BitVec.ofNat 3 ty, 255, 254, 253, true, false, BitVec.ofNat 4 fn⟩
theorem witness_lane : ∃ lat op v, laneForm vecState (.vfma (vr 0 0)) = some (vr 0 0, true, true, lat, op) ∧
    v = ⟨vr 0 0, 1, true, true, lat, 0, fun a b d => laneMap (eltBytes (vr 0 0).ty) a b d op⟩ ∧ vecState.EngineFree ∧
    vecReadable vecState v 256 :=
  ⟨_, _, _, rfl, rfl, vec_free, by unfold vecReadable regsIn regsValid; decide +kernel⟩
theorem witness_lanes : (1 : Nat) ≤ 4 ∧ (List.replicate 8 (0 : Byte)).length = 4 * 2 ∧ 1 ≤ 2 := ⟨by decide, by decide, by decide⟩
/-- VQNT reads four vectors and writes two. -/
theorem witness_whole : ∃ v, wholeForm vecState (.vqnt ⟨0, 252, 248, 0, false, false, 0⟩) = some v ∧ vecState.EngineFree ∧
    vecReadable vecState v 512 :=
  ⟨_, rfl, vec_free, by unfold vecReadable regsIn regsValid; decide +kernel⟩
theorem witness_argmax : ∃ l, l = lanes (vr 3 0) (regBytes vecState (viewV vecState) 254 0 256) ∧ l = List.replicate 64 0 ∧
    vecState.EngineFree ∧ ∀ j, j < l.length → nth 0 l j = 0 :=
  ⟨_, rfl, by decide +kernel, vec_free, by decide +kernel⟩
theorem witness_trans : ∃ g lat v, transForm (.vtanh (vr 1 0)) = some (vr 1 0, g, lat) ∧
    v = ⟨vr 1 0, 1, false, false, lat, 2,
      fun a _ _ => laneMap (eltBytes (vr 1 0).ty) a [] [] (fun _ x _ _ => g.lane (eltFmt (vr 1 0).ty false) x)⟩ ∧
    vecState.EngineFree ∧ vecReadable vecState v 256 :=
  ⟨_, _, _, rfl, rfl, vec_free, by unfold vecReadable regsIn regsValid; decide +kernel⟩

/-- Part 3 of four of a narrowing conversion, FP32 to INT8; a widening one, INT8 to FP32. -/
theorem witness_vcvt_narrow : ∃ f : VR, f = ⟨5, 255, 254, 0, false, false, 3⟩ ∧ tyBytes (f.vb.toNat / 64) = 4 ∧ eltBytes f.ty = 1 ∧
    regsIn vecState (viewV vecState) 254 1 ∧ regsValid vecState (viewV vecState) 254 0 256 ∧
    (3 * (64 * 1) + 64 * 1 ≤ 256 ∨ 4 ≤ 1) ∧ regsIn vecState (viewV vecState) 255 1 :=
  ⟨_, rfl, by decide, by decide, by unfold regsIn; decide, by unfold regsValid; decide +kernel, by decide, by unfold regsIn; decide⟩
theorem witness_vcvt_wide : ∃ f : VR, f = ⟨0, 255, 254, 0x40, false, false, 1⟩ ∧ tyBytes (f.vb.toNat / 64) = 2 ∧ eltBytes f.ty = 4 ∧
    regsIn vecState (viewV vecState) 254 1 ∧ regsValid vecState (viewV vecState) 254 128 128 ∧ (2 : Nat) ≤ 4 :=
  ⟨_, rfl, by decide, by decide, by unfold regsIn; decide, by unfold regsValid; decide +kernel, by decide⟩
theorem witness_vnib : regsIn vecState (viewV vecState) 255 1 ∧ regsValid vecState (viewV vecState) 255 128 128 ∧
    vecState.EngineFree := ⟨by unfold regsIn; decide, by unfold regsValid; decide +kernel, vec_free⟩
theorem witness_vbcast : (63 : Nat) < 256 / eltBytes 0 ∧ regsIn vecState (viewV vecState) 255 1 ∧
    regsValid vecState (viewV vecState) 255 (4 * 63) 4 := ⟨by decide, by unfold regsIn; decide, by unfold regsValid; decide +kernel⟩
theorem witness_vzero : regsIn vecState (viewV vecState) 192 64 := by unfold regsIn; decide

/-! Transfers -/

/-- 64 vectors, from the last 16 KiB of the scratchpad to the last 64 registers, and back. -/
theorem witness_vld : vecState.EngineFree ∧ granOk vecState 768 (256 * 64) ∧
    vecState.kept vecState.cur.u (vecState.slot vecState.cur.u).ctx 1 (64 * 768) (256 * 64) = false ∧
    regsIn vecState (viewV vecState) 192 64 ∧ regsValid vecState (viewV vecState) 192 0 (256 * 64) :=
  ⟨vec_free, by unfold granOk; decide, by decide +kernel, by unfold regsIn; decide, by unfold regsValid; decide +kernel⟩
/-- A ring of 4 entries of 128 bytes, two in it. -/
def ringVec : State := slotDo vecState (fun sl => { sl with rings := [(31, ⟨16, 2, 1, 1, 7, 7, false, 2, 0, 0⟩)] })
theorem witness_vldr : ∃ r, ringGives ringVec 31 2 r ∧ ringVec.EngineFree ∧ vecsOf r.size = 1 ∧
    regsIn ringVec (viewV ringVec) 254 2 ∧ ∀ j, j < 2 → spFree ringVec (entryAt ringVec 31 r (r.cons + j)) r.size :=
  ⟨_, ⟨by decide +kernel, by decide +kernel, by decide +kernel, rfl⟩, free (by decide +kernel), by decide +kernel,
    by unfold regsIn; decide +kernel, by unfold spFree; decide +kernel⟩
theorem witness_vstr : ∃ r, ringTakes ringVec 31 2 r ∧ regsIn ringVec (viewV ringVec) 254 2 ∧
    (∀ j, j < 2 → regsValid ringVec (viewV ringVec) (254 + 1 * j) 0 r.size) ∧
    ∀ j, j < 2 → spFree ringVec (entryAt ringVec 31 r (r.prod + j)) r.size :=
  ⟨_, ⟨by decide +kernel, by decide +kernel, by decide +kernel, rfl⟩, by unfold regsIn; decide +kernel,
    by unfold regsValid; decide +kernel, by unfold spFree; decide +kernel⟩
def queueVec : State := coreDo vecState (fun c => { c with
  oqs := [(7, { (default : OQ) with bound := some 0, prod := 1, entries := [List.replicate 256 0] })] })
theorem witness_vldr_oq : ∃ q, q = Tbl.get default (queueVec.core (coreOf queueVec.cur.u)).oqs 7 ∧ q.bound = some queueVec.cur.u ∧
    1 ≤ q.entries.length ∧ (∀ e, e ∈ q.entries → e.length = 256) ∧ queueVec.EngineFree :=
  ⟨_, rfl, by decide, by decide +kernel, by decide +kernel, free (by decide +kernel)⟩
theorem witness_vgath : ∃ os, os = lanesOf 4 (regBytes vecState (viewV vecState) 254 0 256) ∧ offsetsOk vecState 4 os ∧
    regsValid vecState (viewV vecState) 254 0 256 :=
  ⟨_, rfl, by unfold offsetsOk spReadable; decide +kernel, by unfold regsValid; decide +kernel⟩

/-! Moments -/

/-- A variance of −1 under MCTL.CLAMP, and none below zero without it. -/
def clampState : State := slotDo (coreDo vecState (fun c => { c with regs := c.regs.setNum 65284 4 0xBF800000 })) (fun sl => { sl with
  csr := { sl.csr with mctl := 4 } })
theorem witness_moment : ∃ v, momForm (.mmax2 ⟨0, 254, 255, 254, false, false, 0⟩) = some v ∧ clampState.EngineFree ∧
    regsIn clampState (viewM clampState) 255 1 ∧ regsValid clampState (viewM clampState) 255 0 256 ∧ clampOn clampState = true ∧
    anyNeg (momsAt clampState (viewM clampState) 255) = true ∧ anyNeg (momsAt vecState (viewM vecState) 255) = false ∧
    clampOn vecState = false :=
  ⟨_, rfl, free (by decide +kernel), by unfold regsIn; decide +kernel, by unfold regsValid; decide +kernel, by decide +kernel,
    by decide +kernel, by decide +kernel, by decide +kernel⟩
theorem witness_mfrom : vecState.EngineFree ∧ regsIn vecState (viewV vecState) 255 1 ∧
    regsValid vecState (viewV vecState) 255 128 128 ∧ regsIn vecState (viewM vecState) 255 1 :=
  ⟨vec_free, by unfold regsIn; decide, by unfold regsValid; decide +kernel, by unfold regsIn; decide⟩
theorem witness_msplit : regsIn vecState (viewV vecState) 254 2 ∧ regsIn vecState (viewM vecState) 253 1 ∧
    regsValid vecState (viewM vecState) 253 0 256 ∧ clampOn vecState = false ∧
    anyNeg (momsAt vecState (viewM vecState) 253) = false :=
  ⟨by unfold regsIn; decide, by unfold regsIn; decide, by unfold regsValid; decide +kernel, by decide +kernel, by decide +kernel⟩

end Sys2Proof.Witness
end

