-- ==== Sys2Proof/Tests/WitnessH.lean ====
section
/-! SUPPORT. States and operands that meet the hypotheses of the statements about matrix words and lease runs, clause by
clause. -/

namespace Sys2Proof.Witness
set_option Elab.async false
open Sys2Proof Sys2Proof.Machine Sys2Proof.Claim

/-- A command of the matrix ring, its claim free, or of another task. -/
def mtxState : State := atEngine world .mtx
def foreign : Claim := { (default : Claim) with ctx := 0, seq := 2 }
def claimed (cl : Claim) : State := coreDo mtxState (fun c => { c with claim := some cl })
theorem witness_mlease : mtxState.EngineFree ∧ (mtxState.core (coreOf mtxState.cur.u)).claim = none ∧
    (claimed foreign).EngineFree ∧ foreign.of ((claimed foreign).slot (claimed foreign).cur.u) = false :=
  ⟨free (by decide +kernel), by decide, free (by decide +kernel), by decide⟩

/-- The claim of the slot's own task: BF16 by BF16, or the moment mode. -/
def own : Claim := { (default : Claim) with ctx := 0, seq := 1, mcfg := some 0x21, epi := leBytes 8 0x100000901 ++ List.replicate 56 0 }
def ownMom : Claim := { own with mcfg := some 0x8021 }
def tag1 : PlaneTag := ⟨0, 5, 0, false, 1, 0, 0⟩
/-- The array of core 0 in a lease run of it that has fired 63 commands, with its planes. -/
def leased (cl : Claim) (p : Tbl Plane) : State :=
  let s := claimed cl
  { s with clock := usClk 16 - 1, arrays := [(0, ⟨p, 0, some 0, 0, 63, 0, 6⟩)] }

def readyB (s : State) (cl : Claim) (i : Instr) : Prop :=
  (s.core (coreOf s.cur.u)).claim = some cl ∧ cl.of (s.slot s.cur.u) = true ∧ passes (unitFree s cl i) = true ∧
    passes (lowerFirst s cl i) = true ∧ (s.arr (arrOf (coreOf s.cur.u))).holder = some (coreOf s.cur.u) ∧
    (s.arr (arrOf (coreOf s.cur.u))).amps ≠ 0 ∧ (s.arr (arrOf (coreOf s.cur.u))).fired < 64 ∧
    s.clock < (s.arr (arrOf (coreOf s.cur.u))).start + usClk 16
theorem array_ready {s : State} {cl : Claim} {i : Instr} (h : readyB s cl i) : ArrayReady s cl i :=
  { claim := h.1, mine := h.2.1, units := unit_eq h.2.2.1, lower := unit_eq h.2.2.2.1, holder := h.2.2.2.2.1
    amps := h.2.2.2.2.2.1, fired := h.2.2.2.2.2.2.1, time := fun _ => h.2.2.2.2.2.2.2 }

theorem witness_mfree : (leased own []).EngineFree ∧ ((leased own []).core 0).claim = some own ∧
    own.of ((leased own []).slot (leased own []).cur.u) = true ∧ unitFree (leased own []) own .mfree = .ok () ∧ own.opened = none :=
  ⟨free (by decide +kernel), by decide, by decide, unit_eq (by decide +kernel), by decide⟩

/-- What the statement of a command that changes its claim asks. -/
def changeMeets (cl : Claim) (i : Instr) : Prop :=
  ∃ ok cl' lat, claimChange (leased cl []) cl i = some (ok, cl', lat) ∧ (leased cl []).EngineFree ∧ ArrayReady (leased cl []) cl i ∧ ok
theorem witness_mcfg : changeMeets own (.mcfg ⟨0, 0, 0x21⟩) :=
  ⟨_, _, _, rfl, free (by decide +kernel), array_ready (by unfold readyB; decide +kernel), by decide⟩
/-- A chain over all 64 rows and both halves. -/
def chained : Claim := { own with opened := some (0, 64, 3) }
theorem witness_mchain : changeMeets own (.mchainOpen ⟨0, 0, 0xFF00⟩) ∧ changeMeets chained .mchainClose :=
  ⟨⟨_, _, _, rfl, free (by decide +kernel), array_ready (by unfold readyB; decide +kernel), by decide, by decide⟩,
    ⟨_, _, _, rfl, free (by decide +kernel), array_ready (by unfold readyB; decide +kernel), by decide⟩⟩
theorem witness_mheapclr : changeMeets own (.mheapclr ⟨0, 0, 0xFC0⟩) :=
  ⟨_, _, _, rfl, free (by decide +kernel), array_ready (by unfold readyB; decide +kernel), by decide⟩
/-- An epilogue block at the last granule. -/
def epiState : State :=
  let s := leased own []
  { s with cores := (coreDo s (fun c => { c with scratch := c.scratch.store 65472 epiReset })).cores }
theorem witness_mepi : ∃ ok cl' lat, claimChange epiState own (.mepi ⟨0, 1023, 0⟩) = some (ok, cl', lat) ∧ epiState.EngineFree ∧
    ArrayReady epiState own (.mepi ⟨0, 1023, 0⟩) ∧ ok :=
  ⟨_, _, _, rfl, free (by decide +kernel), array_ready (by unfold readyB; decide +kernel), by unfold granOk; decide +kernel, by decide +kernel⟩
theorem witness_mbswap : (leased own []).EngineFree ∧ ArrayReady (leased own []) own .mbswap :=
  ⟨free (by decide +kernel), array_ready (by unfold readyB; decide +kernel)⟩
theorem witness_mzero : ArrayReady (leased chained []) chained (.mzero ⟨63, 0, true, false, 0, false, 0⟩) ∧
    rowsOpen chained 63 1 (halvesAt chained true) :=
  ⟨array_ready (by unfold readyB; decide +kernel), ⟨0, 64, 3, by decide, by decide, by decide, by decide⟩⟩

/-! Lease runs -/

/-- A free array with a ready command of core 0: an MCFG at the head of its matrix ring. -/
def waitingRun : State :=
  let s := slotDo (claimed own) (fun sl => { sl with crings := [(1, ⟨0, 1, 0, 1, 7, 7, false, 1, 0, 0⟩)] })
  setSp s 0 8 ((encode ⟨.none, .none, 0⟩ (.mcfg ⟨0, 0, 0x21⟩)).headD 0)
theorem witness_grant_run : waitingRun.occ.a = 0 ∧ (waitingRun.arr 0).holder = none ∧ (∃ l, waitingRun.mtxLevel 0 = some l) ∧
    waitingRun.mtxLevel 1 = none ∧ waitingRun.mtxLevel 2 = none ∧ waitingRun.mtxLevel 3 = none :=
  ⟨by decide, by decide, Option.isSome_iff_exists.mp (by decide +kernel), by decide +kernel⟩
theorem witness_grant_none : (leased own []).occ.a = 0 ∧ ((leased own []).arr 0).holder.isSome = true ∧
    mtxState.mtxLevel 0 = none := (by decide +kernel)
/-- A run that has fired its 64th command, and one of 16 µs. -/
def spent (f c : Nat) : State := { leased own [] with clock := c, arrays := [(0, ⟨[], 0, some 0, 0, f, 0, 6⟩)] }
theorem witness_run_end : ((spent 64 0).arr 0).holder = some 0 ∧ 64 ≤ ((spent 64 0).arr 0).fired ∧
    (∀ v, v ∈ (spent 64 0).views 0 → ((spent 64 0).view v.1 v.2).eng.any (fun x => x.1 == 1 && x.2.waits.isEmpty) = false) ∧
    0 < ((spent 1 (usClk 16)).arr 0).fired ∧ ((spent 1 (usClk 16)).arr 0).start + usClk 16 ≤ (spent 1 (usClk 16)).clock :=
  ⟨by decide, by decide, by decide +kernel, by decide, by decide⟩

/-! Plane loads -/

/-- Both planes there and expected: tensor 5's tile 0, and the same squared. -/
def plane1 : Plane := ⟨some tag1, [], [], [], 0⟩
def plane2 : Plane := ⟨some { tag1 with squared := true }, [], [], [], 0⟩
def planes : Tbl Plane := [(0, plane1), (1, plane2)]
def ownP : Claim := { own with active := some tag1, shadow := some { tag1 with squared := true }, opened := some (0, 64, 3) }
def ownPM : Claim := { ownP with mcfg := some 0x8021 }
/-- With tensor 5, BF16 of 1 × 1, and tensor 6, CSR of the same, resident; data ring 0 of four entries of 2048 bytes. -/
def rank2 (layout e2 ttb : Nat) : List Byte := leBytes 4 (0x201 + 65536 * layout) ++ leBytes 4 0 ++ leBytes 4 1 ++ leBytes 4 1 ++
  leBytes 4 e2 ++ leBytes 4 1 ++ leBytes 8 0 ++ leBytes 8 ttb ++ leBytes 24 0
def loading (cl : Claim) (p : Tbl Plane) : State :=
  let s := leased cl p
  let t := slotDo s (fun sl => { sl with rings := [(0, ⟨0, 2, 31, 1, 7, 7, false, 4, 0, 0⟩)] })
  let d := (t.dram.store 0x100140 (rank2 0 1 0x180100)).store 0x100180 (rank2 5 1 0x180100)
  { t with dram := d.setNum 0x180100 8 (2 ^ 63 + 0x500000) }
theorem witness_mbld_skip : ArrayReady (loading ownP planes) ownP (.mbld ⟨5, 0, 0, false, false⟩) ∧
    planeOf (loading ownP planes) ownP false = some plane1 ∧ plane1.tag = some tag1 ∧ (loading ownP planes).EngineFree :=
  ⟨array_ready (by unfold readyB; decide +kernel), by decide +kernel, rfl, free (by decide +kernel)⟩
theorem got_six {ε a b c d e f : Type} [Inhabited (a × b × c × d × e × f)] {r : Except ε (a × b × c × d × e × f)}
    (h : passes r = true) : r = .ok ((got r).1, (got r).2.1, (got r).2.2.1, (got r).2.2.2.1, (got r).2.2.2.2.1,
      (got r).2.2.2.2.2) := got_eq h
def tileOf : M (State × Desc × Nat × Nat × Nat × Nat) := denseTile (inRun (loading own [])) 0 0 5 0 1
def planeFrom : M (State × Plane) := densePlane (got tileOf).1 0 tag1
theorem tile_found : tileOf = .ok ((got tileOf).1, (got tileOf).2.1, (got tileOf).2.2.1, (got tileOf).2.2.2.1,
    (got tileOf).2.2.2.2.1, (got tileOf).2.2.2.2.2) := got_six (by decide +kernel)
theorem witness_mbld_tensor : ∃ s1 d k0 rows n0 cols s2 p, (loading own []).EngineFree ∧
    ArrayReady (loading own []) own (.mbld ⟨5, 0, 0, false, false⟩) ∧ planeOf (loading own []) own false = none ∧
    tileOf = .ok (s1, d, k0, rows, n0, cols) ∧ densePlane s1 0 tag1 = .ok (s2, p) ∧
    s2.EngineFree ∧ s2.cur = (loading own []).cur ∧ s2.clock = (loading own []).clock :=
  ⟨_, _, _, _, _, _, (got planeFrom).1, (got planeFrom).2, free (by decide +kernel),
    array_ready (by unfold readyB; decide +kernel), by decide +kernel, tile_found, got_pair (r := planeFrom) (by decide +kernel) rfl,
    free (by decide +kernel), by decide +kernel, by decide +kernel⟩
def tileIn : M (InFlight × List (List Byte)) :=
  mtxIn (got tileOf).1 (mtxNew (got tileOf).1 (loadClocks 1 1 1)) false 0 [recordBytes 1 1024]
theorem witness_mbld_ring : ∃ e recs, (got tileOf).1.EngineFree ∧ (got tileOf).1.cur = (loading own []).cur ∧
    mtxIn (got tileOf).1 (mtxNew (got tileOf).1 (loadClocks 1 1 1)) false 0 [recordBytes 1 1024] = .ok (e, recs) :=
  ⟨(got tileIn).1, (got tileIn).2, free (by decide +kernel), by decide +kernel, got_pair (by decide +kernel) rfl⟩
theorem witness_mbcsr_skip : ArrayReady (loading ownP planes) ownP (.mbcsr ⟨5, 0, 0, false, false⟩) ∧
    (∃ p, planeOf (loading ownP planes) ownP false = some p ∧ p.tag = some tag1 ∧ tag1.ctx = ownP.ctx ∧ tag1.tid = 5 ∧
      tag1.tile = 0 ∧ tag1.btype = 0x21 / 2 ^ 5 % 2 ^ 5 ∧ tag1.squared = false) :=
  ⟨array_ready (by unfold readyB; decide +kernel), ⟨plane1, by decide +kernel, rfl, by decide, by decide, by decide, by decide, by decide⟩⟩
def csrOf : M (State × Plane) := csrPlane (inRun (loading own [])) 0 ⟨0, 6, 0, false, 1, 0, 0⟩
theorem witness_mbcsr : ∃ s1 p t, csrPlane (inRun (loading own [])) 0 ⟨0, 6, 0, false, 1, 0, 0⟩ = .ok (s1, p) ∧ p.tag = some t ∧
    s1.EngineFree ∧ s1.cur = (loading own []).cur ∧ s1.clock = (loading own []).clock :=
  ⟨(got csrOf).1, (got csrOf).2, (got csrOf).2.tag.getD default, got_pair (by decide +kernel) rfl, by decide +kernel,
    free (by decide +kernel), by decide +kernel, by decide +kernel⟩
theorem witness_mbsq : ArrayReady (loading ownPM planes) ownPM .mbsq ∧ momOn ownPM = true ∧
    planeOf (loading ownPM planes) ownPM false = some plane1 ∧ ownPM.active = some tag1 :=
  ⟨array_ready (by unfold readyB; decide +kernel), by decide, by decide +kernel, by decide⟩

end Sys2Proof.Witness
end

