-- ==== Sys2Proof/Tests/WitnessI.lean ====
section
/-! SUPPORT. States and operands that meet the hypotheses of the statements about streams into the accumulators and drains out
of them, clause by clause. -/

namespace Sys2Proof.Witness
set_option Elab.async false
open Sys2Proof Sys2Proof.Machine Sys2Proof.Claim

/-- The state of a command with both planes in place and a ring of four entries of 2048 bytes. -/
def streaming (cl : Claim) : State := loading cl planes
theorem stream_free : (streaming ownP).EngineFree := free (by decide +kernel)
/-- The claim with ROWOUT set. -/
def ownPC : Claim := { ownP with epi := leBytes 8 0x110000901 ++ List.replicate 56 0 }

/-- MSTR of one record into row 63. -/
def strIn : M (InFlight × List (List Byte)) :=
  mtxIn (inRun (streaming ownP)) (mtxNew (streaming ownP) (16 + planeClocks ownP (1 * planeCount (Cfg.of 0x21).atype))) false 0
    [recordBytes (Cfg.of 0x21).atype plane1.span]
theorem witness_mstr : ∃ e recs, ArrayReady (streaming ownP) ownP (.mstr ⟨63, 0, false, false, 0, false, 0⟩) ∧
    ownP.mcfg = some 0x21 ∧ momOn ownP = false ∧ rowsOpen ownP 63 1 [0] ∧ planeOf (streaming ownP) ownP false = some plane1 ∧
    plane1.tag.map (·.btype) = some (Cfg.of 0x21).btype ∧ strIn = .ok (e, recs) :=
  ⟨(got strIn).1, (got strIn).2, array_ready (by unfold readyB; decide +kernel), by decide, by decide,
    ⟨0, 64, 3, by decide, by decide, by decide, by decide⟩, by decide +kernel, by decide +kernel,
    got_pair (by decide +kernel) rfl⟩
/-- MSTRM of two records. -/
def strmIn : M (InFlight × List (List Byte)) :=
  mtxIn (inRun (streaming ownPM)) (mtxNew (streaming ownPM) (16 + planeClocks ownPM (2 * 1 * planeCount (Cfg.of 0x8021).atype)))
    false 0 [recordBytes (Cfg.of 0x8021).atype plane1.span, recordBytes (Cfg.of 0x8021).atype plane2.span]
theorem witness_mstrm : ∃ e recs, ArrayReady (streaming ownPM) ownPM (.mstrm ⟨63, 0, false, false, 0, false, 0⟩) ∧
    momOn ownPM = true ∧ rowsOpen ownPM 63 1 [0, 1] ∧ planeOf (streaming ownPM) ownPM false = some plane1 ∧
    planeOf (streaming ownPM) ownPM true = some plane2 ∧ plane1.tag.map (·.btype) = some (Cfg.of 0x8021).btype ∧
    plane2.tag.map (·.btype) = some (Cfg.of 0x8021).btype ∧ plane2.tag.any (·.squared) = true ∧ strmIn = .ok (e, recs) ∧
    clampOn (slotDo (streaming ownPM) (fun sl => { sl with csr := { sl.csr with mctl := 4 } })) = true :=
  ⟨(got strmIn).1, (got strmIn).2, array_ready (by unfold readyB; decide +kernel), by decide,
    ⟨0, 64, 3, by decide, by decide, by decide, by decide⟩, by decide +kernel, by decide +kernel, by decide +kernel,
    by decide +kernel, by decide +kernel, got_pair (by decide +kernel) rfl, by decide +kernel⟩
/-- MACCLD of one row of 6144 bytes. -/
def accIn : M (InFlight × List (List Byte)) :=
  mtxIn (inRun (streaming ownP)) (mtxNew (streaming ownP) (4 + 3 * 1 * 1)) false 0 [6144 * 1]
theorem witness_maccld : ∃ e recs, ArrayReady (streaming ownP) ownP (.maccld ⟨63, 0, true, false, 0, false, 0⟩) ∧
    halvesAt ownP true = [1] ∧ rowsOpen ownP 63 1 [1] ∧ accIn = .ok (e, recs) :=
  ⟨(got accIn).1, (got accIn).2, array_ready (by unfold readyB; decide +kernel), by decide,
    ⟨0, 64, 3, by decide, by decide, by decide, by decide⟩, got_pair (by decide +kernel) rfl⟩

/-- MDRAIN of one row of one INT32 column; and with ROWOUT, to a ring of entries that holds the most it may. -/
def epiOf (cl : Claim) : Epi := Epi.parse cl.epi
def roomy : State := slotDo (streaming ownPC) (fun sl => { sl with rings := [(3, ⟨0, 2, 0, 1, 7, 7, false, 3, 0, 0⟩)] })
def drained (s : State) (cl : Claim) : M (State × Claim × List (List Byte) × Nat) :=
  (List.range 1).foldlM (fun (y : State × Claim × List (List Byte) × Nat) j => do
    let r ← drainRow y.1 y.2.1 (epiOf cl) ⟨[], [], [], []⟩ (nth 0 (halvesAt cl false) 0) (63 + j)
    return (r.1, r.2.1, y.2.2.1 ++ [r.2.2.1], orF y.2.2.2 r.2.2.2)) (inRun s, cl, [], 0)
theorem got_four {ε a b c d : Type} [Inhabited (a × b × c × d)] {r : Except ε (a × b × c × d)} (h : passes r = true) :
    r = .ok ((got r).1, (got r).2.1, (got r).2.2.1, (got r).2.2.2) := got_eq h
/-- What the drain's statement asks before a row is written out. -/
def drains (s : State) (cl : Claim) : Prop :=
  ∃ s1 cl' outs fl, s.EngineFree ∧ ArrayReady s cl (.mdrain ⟨63, 0, false, false, 3, false, 0⟩) ∧ cl.mcfg = some 0x21 ∧
    rowsOpen cl 63 1 (halvesAt cl false) ∧ ((epiOf cl).mode = 2 ↔ momOn cl = true) ∧ (s.slot s.cur.u).gang.isEmpty = true ∧
    (epiOf cl).hasBias = false ∧ (epiOf cl).otype = 9 ∧ (epiOf cl).rsc = false ∧ drained s cl = .ok (s1, cl', outs, fl) ∧
    s1.cur = s.cur ∧ s1.clock = s.clock
theorem witness_mdrain : drains (streaming ownP) ownP ∧ (epiOf ownP).rowout = false ∧
    (withClaim (got (drained (streaming ownP) ownP)).1 (got (drained (streaming ownP) ownP)).2.1).EngineFree :=
  ⟨⟨_, _, _, _, free (by decide +kernel), array_ready (by unfold readyB; decide +kernel), by decide,
    ⟨0, 64, 3, by decide, by decide, by decide, by decide⟩, by decide +kernel, by decide +kernel, by decide +kernel,
    by decide +kernel, by decide +kernel, got_four (by decide +kernel), by decide +kernel, by decide +kernel⟩,
    by decide +kernel, free (by decide +kernel)⟩
def rowOut : M (State × InFlight) :=
  let r := got (drained roomy ownPC)
  mtxOut (withClaim r.1 r.2.1) { mtxNew roomy (20 + 3 * 1 * 1) with flags := r.2.2.2 } 3 (roundUp ((epiOf ownPC).nc * (epiOf ownPC).width) 64)
    (r.2.2.1.map (fun b => b ++ List.replicate (roundUp ((epiOf ownPC).nc * (epiOf ownPC).width) 64 - b.length) 0))
theorem witness_mdrain_out : drains roomy ownPC ∧ (epiOf ownPC).rowout = true ∧ ∃ s2 x, rowOut = .ok (s2, x) ∧ s2.EngineFree ∧
    s2.cur = roomy.cur :=
  ⟨⟨_, _, _, _, free (by decide +kernel), array_ready (by unfold readyB; decide +kernel), by decide,
    ⟨0, 64, 3, by decide, by decide, by decide, by decide⟩, by decide +kernel, by decide +kernel, by decide +kernel,
    by decide +kernel, by decide +kernel, got_four (by decide +kernel), by decide +kernel, by decide +kernel⟩,
    by decide +kernel, (got rowOut).1, (got rowOut).2, got_pair (by decide +kernel) rfl, free (by decide +kernel),
    by decide +kernel⟩

/-- MHEAPRD of row 63, whose heap holds one candidate of the two it may. -/
def heaped : Claim := { ownP with heaps := [(63, [⟨0x3F800000, 9, 0⟩])], caps := [(63, 2)] }
def heapRun : M (State × Nat) :=
  (List.range 1).foldlM (fun (y : State × Nat) j => do
    let gen ← tensorGen y.1 heaped.ctx (epiOf heaped).maskt
    let lv ← rowLive y.1 heaped.ctx (epiOf heaped) (63 + j)
    let l ← if lv.2 then heapValid heaped.ctx (epiOf heaped) gen (63 + j) lv.1 2 (Tbl.get [] heaped.heaps (63 + j))
      else pure (lv.1, [])
    return (withScratch l.1 y.2 (heapBytes 2 gen 64 l.2), y.2 + 64)) (inRun (streaming heaped), granAt (streaming heaped) 1023)
theorem witness_mheaprd : ∃ s1 z, (streaming heaped).EngineFree ∧
    ArrayReady (streaming heaped) heaped (.mheaprd ⟨0, 1023, 0x3F⟩) ∧ 63 + 1 ≤ 64 ∧
    Tbl.get 0 heaped.caps 63 % 256 = 2 ∧ 64 * ((16 + 8 * 2 + 63) / 64) = 64 ∧ granOk (streaming heaped) 1023 64 ∧
    heapRun = .ok (s1, z) ∧ s1.EngineFree ∧ s1.cur = (streaming heaped).cur ∧ s1.clock = (streaming heaped).clock :=
  ⟨(got heapRun).1, (got heapRun).2, free (by decide +kernel), array_ready (by unfold readyB; decide +kernel), by decide,
    by decide, by decide, by unfold granOk; decide +kernel, got_pair (by decide +kernel) rfl, free (by decide +kernel),
    by decide +kernel, by decide +kernel⟩

/-- Where every byte of a run stands on the chip and the layout unit stays as it is, the run's places are those bytes in order. -/
theorem places_run {s : State} {c p x t : Nat} {d : Desc} {fr : Nat} : ∀ (n off : Nat),
    (∀ k, off ≤ k → k < off + n → placeByte s c p x t d k = .ok (s, .dev (fr + k))) →
    placeBytes c p x t d s off n = .ok (s, (List.range' off n).map (fun k => .dev (fr + k)))
  | 0, _, _ => rfl
  | n + 1, off, h => by
    unfold placeBytes
    rw [h off (Nat.le_refl _) (by omega)]
    simp only [Except.bind, bind, places_run n (off + 1) (fun k h1 h2 => h k (by omega) (by omega))]
    rfl

/-- Bytes put at places on the chip change the chip's memory and nothing else. -/
theorem puts_dev : ∀ (l : List (Place × Byte)) (s : State), (∀ e ∈ l, ∃ a, e.1 = .dev a ∧ a < dramSize) →
    ∃ m, s.putMems l = .ok { s with dram := m }
  | [], s, _ => ⟨s.dram, rfl⟩
  | e :: l, s, h => by
    obtain ⟨a, ha, hb⟩ := h e (List.mem_cons_self ..)
    obtain ⟨m, hm⟩ := puts_dev l { s with dram := s.dram.put a e.2 } (fun x hx => h x (List.mem_cons_of_mem _ hx))
    refine ⟨m, ?_⟩
    unfold State.putMems State.putMem
    rw [ha]
    simp only [if_pos hb, bind, Except.bind, hm]

/-- A tile at hand in a layout unit places each byte of a linear tensor's first tile, and the unit stays as it is. -/
theorem place_hit {s : State} {d : Desc} {tl : Nat × Nat × Nat × Nat × Nat} {k : Nat} (hl : d.layout = 0) (hz : d.size = 65536)
    (hp : d.part = 0) (hh : d.hosted = false) (ht : (s.core 0).tiles = [tl]) (hs : s.setCore 0 (s.core 0) = s)
    (hd : s.dieUp 0 = true) (hk : k < 65536) (ha : tl = (ptMTX, 0, 1, 0, 0x200000)) :
    placeByte s 0 ptMTX 0 1 d k = .ok (s, .dev (0x200000 + k)) := by
  have tile : ∀ va, getTile s 0 ptMTX 0 1 d 0 va = .ok (s, 0x200000) := by
    intro va
    have e : { s.core 0 with tiles := [tl] } = s.core 0 := by rw [← ht]
    subst ha
    simp [getTile, ht, e, hs]
  have e1 : d.pos k = k := by simp [Desc.pos, hl]
  have e2 : k / 65536 = 0 := by omega
  have e3 : k % 65536 = k := by omega
  simp [placeByte, e1, e2, e3, hz, hk, need, Desc.home, hp, fld, tile, hh, needDie, hd, bind, Except.bind, pure, Except.pure]

/-- Where a run of bytes goes whose first byte brings its tile to hand. -/
theorem places_first {s s2 : State} {d : Desc} {tl : Nat × Nat × Nat × Nat × Nat} {n : Nat}
    (h0 : placeByte s 0 ptMTX 0 1 d 0 = .ok (s2, .dev 0x200000)) (hl : d.layout = 0) (hz : d.size = 65536)
    (hp : d.part = 0) (hh : d.hosted = false) (ht : (s2.core 0).tiles = [tl]) (hs : s2.setCore 0 (s2.core 0) = s2)
    (hd : s2.dieUp 0 = true) (hn : n < 65535) (ha : tl = (ptMTX, 0, 1, 0, 0x200000)) :
    placeBytes 0 ptMTX 0 1 d s 0 (n + 1) = .ok (s2, (List.range' 0 (n + 1)).map (fun k => .dev (0x200000 + k))) := by
  unfold placeBytes
  rw [h0]
  simp only [bind, Except.bind, places_run (fr := 0x200000) n 1 (fun k _ hk => place_hit (k := k) hl hz hp hh ht hs hd (by omega) ha)]
  rfl

/-- A run of bytes is put where it stands. -/
theorem put_run (s : State) (bs : List Byte) (h : bs.length < 65536) :
    ∃ m, s.putMems (((List.range' 0 bs.length).map (fun k => Place.dev (0x200000 + k))).zip bs) = .ok { s with dram := m } :=
  puts_dev _ s (fun e he => by
    obtain ⟨k, hk1, hk2⟩ := List.mem_map.mp (List.of_mem_zip he).1
    refine ⟨_, hk2.symm, ?_⟩
    simp only [List.mem_range'] at hk1
    unfold dramSize
    omega)

/-- What the memory of the chip holds is nothing to an engine that is free. -/
theorem free_dram {s : State} {c : Cursor} {n : Nat} (h : freeB s = true ∧ s.cur = c ∧ s.clock = n) (m : Mem) :
    ({ s with dram := m } : State).EngineFree ∧ ({ s with dram := m } : State).cur = c ∧ ({ s with dram := m } : State).clock = n :=
  ⟨free (s := { s with dram := m }) h.1, h.2⟩

/-- MSAVE of the one row of one half to tensor 1. -/
def ownS : Claim := { ownP with opened := some (0, 1, 1) }
def saveBytes : List Byte := ((streaming ownS).core 0).accBytes 0 1 1
def saveDesc : M (State × Desc) := getDesc (inRun (streaming ownS)) 0 ptMTX 0 1 (2 ^ 52)
def saveEnd : M (State × Desc) := tensorEnd (got saveDesc).1 0 ptMTX 0 (2 ^ 52) 0 saveBytes.length true
def saveFirst : M (State × Place) := placeByte (got saveEnd).1 0 ptMTX 0 1 (got saveEnd).2 0
def saveAt : State := (got saveFirst).1
def saveRuns : Prop :=
  passes saveDesc = true ∧ (got saveDesc).2.fmt = 0xC ∧ (got saveDesc).2.layout = 0 ∧ passes saveEnd = true ∧
    (got saveEnd).2.layout = 0 ∧ (got saveEnd).2.size = 65536 ∧ (got saveEnd).2.part = 0 ∧ (got saveEnd).2.hosted = false ∧
    (saveAt.core 0).tiles = [(ptMTX, 0, 1, 0, 0x200000)] ∧ saveAt.setCore 0 (saveAt.core 0) = saveAt ∧ saveAt.dieUp 0 = true ∧
    saveBytes.length = 6143 + 1 ∧ freeB saveAt = true ∧ saveAt.cur = (streaming ownS).cur ∧
    saveAt.clock = (streaming ownS).clock ∧ passes saveFirst = true ∧ (got saveFirst).2 = .dev 0x200000
theorem save_runs : saveRuns := by unfold saveRuns; decide +kernel

theorem witness_msave : ∃ sa d sb d' sc ps s1, (streaming ownS).EngineFree ∧
    ArrayReady (streaming ownS) ownS (.msave ⟨1, 0, 0, false, false⟩) ∧
    saveDesc = .ok (sa, d) ∧ d.fmt = 0xC ∧ d.layout = 0 ∧ tensorEnd sa 0 ptMTX 0 (2 ^ 52) 0 saveBytes.length true = .ok (sb, d') ∧
    placeBytes 0 ptMTX 0 1 d' sb 0 saveBytes.length = .ok (sc, ps) ∧
    ps.all (fun p => match p with | .remote _ => false | _ => true) = true ∧ sc.putMems (ps.zip saveBytes) = .ok s1 ∧
    s1.EngineFree ∧ s1.cur = (streaming ownS).cur ∧ s1.clock = (streaming ownS).clock := by
  obtain ⟨h1, h2, h3, h4, hl, hz, hp, hh, ht, hs, hd, hn, hf, hc, hk, h5, h6⟩ := save_runs
  obtain ⟨m, hm⟩ := put_run saveAt saveBytes (by omega)
  have run := places_first (n := 6143) (got_pair h5 h6) hl hz hp hh ht hs hd (by decide) rfl
  rw [← hn] at run
  exact ⟨_, _, _, _, _, _, _, free (by decide +kernel), array_ready (by unfold readyB; decide +kernel), got_pair h1 rfl, h2, h3,
    got_pair h4 rfl, run, List.all_eq_true.mpr (fun p hp => by obtain ⟨k, -, rfl⟩ := List.mem_map.mp hp; rfl), hm, free_dram ⟨hf, hc, hk⟩ m⟩

end Sys2Proof.Witness
end

