-- ==== Sys2Proof/Tests/WitnessJ.lean ====
section
/-! SUPPORT. States and operands that meet the hypotheses of the statements about tasks entering and leaving their slots, the
launch processor and the task queue's hardware, clause by clause. -/

namespace Sys2Proof.Witness
set_option Elab.async false
open Sys2Proof Sys2Proof.Machine Sys2Proof.Claim

/-! Tasks enter their slots -/

/-- A template node: its image's tensor, register, scratchpad and store-buffer units. -/
def nodeBytes (tid regs sp sb : Nat) : List Byte :=
  leBytes 8 (tid * 2 ^ 52) ++ leBytes 4 128 ++ leBytes 2 regs ++ leBytes 2 sp ++ leBytes 1 sb

/-- Template 0 of context 0 has the node given, its image at tensor 1: one word NOP, no engine; a save pool of 8 blocks more
than the reserved ones; launch records at 8 MiB; run 1 live; no task in a slot. -/
def shop (regs sp sb : Nat) : State :=
  let s := ctxDo world (fun x => { x with
    block := (((x.block.setNum 0x08 8 0x800000).setNum 0x10 8 0x600000).setNum 0x30 8 0x1000000).setNum 0x38 4 520 })
  let d := (((s.dram.setNum 0x600000 8 0x601000).store 0x601000 (nodeBytes 1 regs sp sb)).setNum 0x200040 8 (1 + 2 ^ 32))
  { s with dram := d, slots := [], runs := [{ (default : Run) with id := 1, live := 1, state := 2 }], segs := [(0, [task])], nextRun := 2 }

/-- What that node and image are. -/
def member (regs sp sb : Nat) : Member :=
  ⟨⟨0, 2 ^ 52, 128, 4096 * regs, 4096 * sp, 4096 * sb, 0, 0, 0, 0, List.replicate 8 (0, 0), []⟩,
    ⟨0, false, [0], List.replicate 4 ([], 0), []⟩⟩
def loadedB (s : State) (m : Member) : Bool := match s.loadTask task 0 with | .ok [x] => decide (x = m) | _ => false
theorem loaded {s : State} {m : Member} (h : loadedB s m = true) : s.loadTask task 0 = .ok [m] := by
  unfold loadedB at h
  split at h <;> simp_all

/-- The arguments of a task of such a node. -/
theorem argsOk (a b c inst j : Nat) (_ : j < 8) : argOf (member a b c).node [] inst j = .ok 0 := by
  simp [argOf, member, bitOf]

def run1 : Run := { (default : Run) with id := 1, live := 1, state := 2 }
def tinyAlloc : Alloc := ⟨0, 4096, 0, 4096, 4096, 4096⟩

/-- The least node, into slot 0 of core 0. -/
theorem witness_dispatch : ∃ s c, s = shop 1 1 1 ∧ s.occ.a % 4 = 0 ∧ c = s.freeClaims 0 ∧ s.dieUp 0 = true ∧
    c.bestOf 0 = some (0, 0, task) ∧
    task.phase = 0 ∧ task.gang = false ∧ s.run? task.run = some run1 ∧ s.loadTask task run1.tmpl = .ok [member 1 1 1] ∧
    fitRings [member 1 1 1] = true ∧ s.findRoom task [(member 1 1 1).node.need] 0 = some ([0], [tinyAlloc]) ∧
    ∀ j, j < 8 → argOf (member 1 1 1).node run1.window task.inst j = .ok 0 :=
  ⟨_, _, rfl, by decide, rfl, by decide, by decide +kernel, by decide, by decide, by decide +kernel, loaded (by decide +kernel),
    by decide +kernel, by decide +kernel, argsOk _ _ _ _⟩
/-- The greatest scratchpad and store buffer a node asks for, which fit; every slot of die 0 in use, and no room. -/
theorem witness_dispatch_large : (shop 64 384 0).findRoom task [(member 64 384 0).node.need] 0 =
    some ([0], [⟨0, 262144, 0, 1572864, 0, 0⟩]) := by decide +kernel
def full : State := { shop 64 384 64 with hub := { world.hub with dieUp := 15 } }
theorem witness_dispatch_none : full.occ.a % 4 = 0 ∧ (full.freeClaims 0).bestOf 0 = some (0, 0, task) ∧ task.phase = 0 ∧
    full.run? task.run = some run1 ∧ full.loadTask task run1.tmpl = .ok [member 64 384 64] ∧ fitRings [member 64 384 64] = true ∧
    full.findRoom task [(member 64 384 64).node.need] 0 = none ∧ bitOf (full.lq task.ctx task.queue) 3 = false :=
  ⟨by decide, by decide +kernel, by decide, by decide +kernel, loaded (by decide +kernel), by decide +kernel⟩

/-- Die 1 alone is up, at the first clock of the second interval of 64, with nothing of its own. -/
def thief : State := { shop 1 1 1 with hub := { world.hub with dieUp := 2 }, clock := 64 }
theorem thief_heads (d : Nat) (h : d ≠ 0) : thief.bestOf d = none := by
  have hs : ∀ k, thief.seg k = if 0 = k then [task] else [] := fun k => rfl
  have : thief.headsOf d = [] := by
    rw [State.headsOf, List.filterMap_eq_nil_iff]
    intro k hk
    by_cases h0 : 0 = k
    · subst h0
      have hd : ((0 : Nat) / 16 = d) = False := by simp; omega
      have hm : task.homeDie = 0 := rfl
      simp [hs, hd, hm]
    · simp [hs, h0]
  rw [State.bestOf, this]; rfl
theorem witness_steal : 1 < 4 ∧ thief.hub.stolen < thief.clock / 64 ∧ thief.dieUp 1 = true ∧
    (∀ d, d < 4 → d ≠ 1 → thief.dieUp d = false) ∧ (∃ c, c < 32 ∧ thief.freeSlots (32 * 1 + c) ≠ []) ∧ thief.bestOf 1 = none ∧
    (∀ d x, d ≠ 1 → thief.bestOf d = some x → x = (0, 0, task)) ∧
    (∃ d, d < 4 ∧ d ≠ 1 ∧ thief.bestOf d = some (0, 0, task)) ∧ task.homeDie = 0 ∧ world.clock / 64 ≤ world.hub.stolen := by
  refine ⟨by decide, by decide, by decide, by decide, ⟨0, by decide, by decide +kernel⟩, by decide +kernel, ?_,
    ⟨0, by decide +kernel⟩, by decide, by decide⟩
  intro d x _ h
  by_cases hd : d = 0
  · subst hd
    exact Option.some.inj (h.symm.trans (by decide +kernel : thief.bestOf 0 = some (0, 0, task)))
  · rw [thief_heads d hd] at h; cases h

/-- The task saved from slot 4 in block 512, whose words are all zero. -/
def saved : Task := { task with phase := 2, left := 4 }
def savedSlot : Slot := { Slot.reset with block := 0x1000000 + 2 ^ 31 }
def back : State := { shop 1 1 1 with segs := [(0, [saved])], hidden := [(hiddenKey saved 0, savedSlot)] }
theorem back_load (s : State) : s.loadTask saved 0 = s.loadTask task 0 := rfl
theorem back_loaded : back.loadTask saved run1.tmpl = .ok [member 1 1 1] := (back_load back).trans (loaded (by decide +kernel))
theorem witness_restore : back.occ.a % 4 = 0 ∧ back.dieUp 0 = true ∧ (back.freeClaims 0).bestOf 0 = some (0, 0, saved) ∧ saved.phase = 2 ∧
    saved.gang = false ∧ back.run? saved.run = some run1 ∧ back.loadTask saved run1.tmpl = .ok [member 1 1 1] ∧
    fitRings [member 1 1 1] = true ∧ back.away saved = [(0, savedSlot)] ∧ savedSlot.hold = .none ∧
    back.findRoom saved [(member 1 1 1).node.need] 0 = some ([0], [tinyAlloc]) ∧
    (∀ j, j < 8 → ∃ x, argOf (member 1 1 1).node run1.window saved.inst j = .ok x) ∧
    bitOf (back.dev (savedSlot.block + 768) 8) 63 = false :=
  ⟨by decide, by decide, by decide +kernel, by decide, by decide, by decide +kernel, back_loaded,
    by decide +kernel, by decide +kernel, rfl, by decide +kernel,
    fun j hj => ⟨0, argsOk _ _ _ _ j hj⟩, by decide +kernel⟩

/-! Tasks leave their slots -/

/-- A table with one key answers its default at every other. -/
theorem slot_else {s : State} {u v : Nat} (h : s.slots.map (·.1) = [u]) (hv : v ≠ u) : s.slot v = Slot.reset := by
  rcases hl : s.slots with _ | ⟨⟨a, b⟩, t⟩
  · rw [hl] at h; cases h
  · rw [hl, List.map_cons, List.cons.injEq, List.map_eq_nil_iff] at h
    obtain ⟨rfl, rfl⟩ := h
    rw [State.slot, hl, Tbl.get, if_neg (Ne.symm hv)]; rfl
theorem alone {s : State} {u : Nat} (h : s.slots.map (·.1) = [u]) : sole s u := by
  intro v hv x hx
  rw [slot_else h hv] at hx
  simp [Slot.reset] at hx
def emptyB (s : State) (u : Nat) : Bool :=
  (List.range 4).all (fun e => decide (((s.slot u).cring e).occ = 0 ∧ (s.slot u).eng.any (fun x => x.1 == e) = false))
theorem empty {s : State} {u : Nat} (h : emptyB s u = true) : ringsDrained s u := fun e he =>
  of_decide_eq_true (List.all_eq_true.mp h e (List.mem_range.mpr he))

/-- TDONE with its rings empty, and with a word left in a masked command ring. -/
theorem witness_tdone : ∃ c, c = world.closeFor 0 ∧ world.Issues ∧ world.Closes c ∧ (c.slot 0).task.isSome = true ∧
    (c.slot 0).gang = [] ∧ (c.slot 0).drain = none ∧ (c.slot 0).sched.state ≠ 1 ∧ sole c 0 ∧ ringsDrained c 0 :=
  ⟨_, rfl, issues (by decide), closes (by decide +kernel), by decide +kernel, by decide +kernel, by decide +kernel,
    by decide +kernel, alone (by decide +kernel), empty (by decide +kernel)⟩
theorem witness_tdone_busy : ∃ c, c = ringed.closeFor 0 ∧ ringed.Issues ∧ ringed.Closes c ∧ (c.slot 0).task.isSome = true ∧
    (c.slot 0).gang = [] ∧ (c.slot 0).drain = none ∧ (c.slot 0).sched.state ≠ 1 ∧ sole c 0 ∧
    ∃ e, e < 4 ∧ bitOf (c.slot 0).mask e = true ∧ ((c.slot 0).cring e).occ ≠ 0 :=
  ⟨_, rfl, issues (by decide), closes (by decide +kernel), by decide +kernel, by decide +kernel, by decide +kernel,
    by decide +kernel, alone (by decide +kernel), 0, by decide +kernel⟩

/-- A save pool of one block more than the reserved 512; a slot asked to stop for a debug stop and for a world switch. -/
def pooled : State := ctxDo world (fun x => { x with block := (x.block.setNum 0x30 8 0x1000000).setNum 0x38 4 513 })
def asked2 : State := slotDo pooled (fun sl => { sl with causes := [0, 1] })
def savedOut (s : State) (y : Bool) : Leave State := s.saveOut 0 y
theorem witness_preempt : asked2.occ.a % 512 = 0 ∧ (asked2.slot 0).task.isSome = true ∧ (asked2.core 0).stopped = none ∧
    (asked2.core 0).raised = none ∧
    (asked2.slot 0).gang = [] ∧ (asked2.slot 0).causes ≠ [] ∧
    (asked2.spreadCauses [0]).saveOut 0 false = .ok (got (savedOut (asked2.spreadCauses [0]) false)) :=
  ⟨by decide, by decide, by decide, by decide, by decide, by decide, got_eq (by decide +kernel)⟩
theorem witness_preempt_rest : SlotAtRest (asked2.slot 0) ∧
    ∀ k, (asked2.seg k).length ≤ Tbl.get 0 asked2.resident k ∧ Tbl.get 0 asked2.resident k < 2048 :=
  ⟨⟨by decide, by decide, by decide, by decide, by decide⟩, fun _ => ⟨Nat.le_refl 0, Nat.zero_lt_succ _⟩⟩
/-- A task that may yield. -/
def yielding : State := slotDo pooled (fun sl => { sl with task := some { task with yield := true } })
def yielded : State := ((yielding.closeFor 0).issued 0).retire 0 yielding.cur ((yielding.closeFor 0).slot 0).pend true none
theorem witness_tyield : yielding.Issues ∧ yielding.Closes (yielding.closeFor 0) ∧ yielding.me.tk.yield = true ∧
    ((yielding.closeFor 0).slot 0).gang = [] ∧
    yielded.saveOut 0 true = .ok (got (savedOut yielded true)) :=
  ⟨issues (by decide), closes (by decide +kernel), by decide, by decide +kernel, got_eq (by decide +kernel)⟩
theorem witness_debug : world.occ.a % 512 = 0 ∧ (world.slot 0).task.isSome = true := ⟨by decide, by decide⟩
/-- Function 15 takes core 0, which has a task; and core 127, which has none. -/
def switch (c : Nat) : State := withOcc world (fun o => { o with a := c, b := 15 })
theorem witness_switch : (switch 0).occ.a % 128 = 0 ∧ (switch 0).occ.b % 16 = 15 ∧ Runs (switch 0) 0 ∧
    ((switch 0).core 0).pmowner ≠ 15 ∧ (∃ k, k < 4 ∧ ((switch 0).slot (4 * 0 + k)).task.isSome = true) ∧
    Runs (switch 127) 127 ∧ ((switch 127).core 127).pmowner ≠ 15 ∧
    ∀ k, k < 4 → ((switch 127).slot (4 * 127 + k)).task = none ∧ ((switch 127).slot (4 * 127 + k)).drain = none :=
  ⟨by decide, by decide, runs (by decide), by decide, ⟨0, by decide, by decide⟩, runs (by decide), by decide, by decide⟩

/-! Launches -/

/-- Queue 15 of context 0, enabled, whose oldest armed record is 4095, with one root task; and one whose start spawns the most. -/
def armedQ (n : Nat) : State :=
  let s := ctxDo (shop 1 1 1) (fun x => { x with armed := [(15, [4095])], lqcfg := [(15, 16)] })
  withOcc (s.setRecF 0 4095 4 4 n) (fun o => { o with b := 15 })
theorem witness_launch : ∀ n, n = 1 ∨ n = 2 ^ 20 → (armedQ n).occ.a % 256 = 0 ∧ (armedQ n).occ.b % 16 = 15 ∧
    Tbl.get [] ((armedQ n).ctx 0).armed 15 = [4095] ∧ bitOf ((armedQ n).lq 0 15) 4 = true ∧
    Tbl.get [] ((armedQ n).ctx 0).running 15 = [] ∧ (armedQ n).recF 0 4095 4 4 ≠ 0 ∧
    ∀ x ∈ (armedQ n).runs, x.id < (armedQ n).nextRun := by
  rintro n (rfl | rfl) <;>
    exact (by decide +kernel)

/-- Run 1 of record 0 with no live task; its record IDLE otherwise. -/
def doneRun : Run := { run1 with live := 0 }
def ended : State := { shop 1 1 1 with runs := [doneRun] }
theorem witness_complete : ended.occ.a % 256 = 0 ∧ ended.occ.b % 4096 = 0 ∧
    ended.runs.find? (fun r => r.ctx == 0 && r.record == 0 && r.live == 0 && !ended.joins.any (fun j => j.run == r.id))
      = some doneRun ∧ doneRun.state ≠ 4 ∧
    (∀ x ∈ ended.runs, x ≠ doneRun → x.id ≠ doneRun.id ∧ ¬(x.ctx = 0 ∧ x.record = 0)) ∧ ended.recBit 0 0 3 = false ∧
    ended.recBit 0 0 6 = false :=
  (by decide +kernel)

/-- Entry 0 of the time-triggered table for record 4095 of context 0, with a start, a period and a control byte. -/
def timedT (start per ctl : Nat) : State :=
  let m : Mem := Mem.setNum (Mem.setNum (Mem.setNum (Mem.setNum [] 0 8 start) 8 8 per) 16 2 4095) 19 1 ctl
  { hubDo (shop 1 1 1) (fun h => { h with ttt := [(0, m)] }) with clock := 1050 }
theorem witness_ttt : ∀ s, s = timedT 1000 1000 1 ∨ s = timedT 0 0 1 → s.occ.a % 256 = 0 ∧ s.tttF 0 18 1 = 0 ∧ s.tttF 0 16 2 = 4095 ∧
    bitOf (s.tttF 0 19 1) 0 = true ∧ s.tttF 0 19 1 < 8 ∧ fld (s.tttF 0 19 1) 1 2 ≠ 3 ∧
    (s.tttF 0 8 8 = 0 ∨ 1000 ≤ s.tttF 0 8 8) ∧ s.tttF 0 0 8 ≤ s.devTime ∧ s.recBit 0 4095 6 = false ∧
    s.recState 0 4095 = 0 ∧ s.recOk 0 4095 = true := by
  rintro s (rfl | rfl) <;>
    exact (by decide +kernel)
theorem witness_ttt_early : (timedT 1001 1000 1).devTime < (timedT 1001 1000 1).tttF 0 0 8 := by decide +kernel
theorem witness_ttt_bad : fld ((timedT 0 0 7).tttF 0 19 1) 1 2 = 3 ∧ bitOf ((timedT 0 0 7).tttF 0 19 1) 0 = true :=
  ⟨by decide +kernel, by decide +kernel⟩

/-! The task queue's hardware -/

/-- A segment with one task, none resident. -/
theorem witness_refill : world.occ.a % 64 = 0 ∧ Tbl.get 0 (shop 1 1 1).resident 0 < 1536 ∧
    Tbl.get 0 (shop 1 1 1).resident 0 < min 1792 ((shop 1 1 1).seg 0).length := ⟨by decide, by decide, by decide⟩
theorem witness_aging : ∃ s, s = { world with clock := 1050 } ∧ s.hub.aged < s.devTime / 1000 ∧
    world.devTime / 1000 ≤ world.hub.aged := ⟨_, rfl, by decide, by decide⟩
/-- Weight set 255, its window of 10 ms just over, and not yet. -/
def window (clk : Nat) : State :=
  let b : BatchSet := { (default : BatchSet) with window := 10000000, rows := [task], maxrows := 256 }
  { withOcc (ctxDo world (fun x => { x with sets := [(255, b)] })) (fun o => { o with b := 255 }) with clock := clk }
theorem witness_window : (window 10500000).occ.a % 256 = 0 ∧ (window 10500000).occ.b % 256 = 255 ∧
    ((window 10500000).set 0 255).rows ≠ [] ∧
    ((window 10500000).set 0 255).since + ((window 10500000).set 0 255).window ≤ (window 10500000).devTime ∧
    (window 10499998).devTime < ((window 10499998).set 0 255).since + ((window 10499998).set 0 255).window :=
  (by decide +kernel)
/-- A batch that waits for record 4095, whose buffer 0 is free. -/
def waitingB : Batch := { (default : Batch) with rows := [(task, false, true)], num := 0, cause := 1, record := 4095, area := 2 ^ 52, nb := 1 }
def armable : State :=
  let b : BatchSet := { (default : BatchSet) with record := 4095, area := 2 ^ 52, nb := 1, waiting := [waitingB] }
  withOcc (ctxDo (shop 1 1 1) (fun x => { x with sets := [(255, b)] })) (fun o => { o with b := 255 })
theorem witness_batch_arm : armable.occ.b % 256 = 255 ∧ (armable.set 0 255).waiting = [waitingB] ∧
    (armable.set 0 255).freeBuf waitingB = some 0 ∧ armable.recState 0 4095 = 0 :=
  (by decide +kernel)
/-- Node 1 with a join count of `n`, alive or dead, with parent 2. -/
def joining (n : Nat) (dead : Bool) : State :=
  let m : Mem := ((world.nsm.setNum 104 2 n).setNum 92 4 2).setNum 86 2 (if dead then 8 else 0)
  { world with nsm := m, joins := [⟨1, 0, 0, 1, 0, 1, (0, 0)⟩] }
theorem witness_join : (joining 2 false).joins = [⟨1, 0, 0, 1, 0, 1, (0, 0)⟩] ∧ nPkg 1 = (joining 2 false).fab.pkg ∧
    (joining 2 false).nf 1 40 2 = 2 ∧ (joining 2 false).nodeSt 1 ≠ stSTALE ∧ (joining 65535 true).nf 1 40 2 = 65535 ∧
    (joining 65535 true).nodeSt 1 ≠ stSTALE ∧ (joining 1 true).nf 1 40 2 = 1 ∧ (joining 1 true).nodeSt 1 = stDEAD ∧
    (joining 1 true).nf 1 28 4 ≠ nullRef ∧ (joining 1 false).nf 1 40 2 = 1 ∧ (joining 1 false).nodeSt 1 = stOK :=
  (by decide +kernel)
/-- A walk of node 2's subtree that comes to node 1; and walks at their end, with and without an answer awaited. -/
def walk2 (q : List Nat) (acks : Nat) : Walk := ⟨0, 0, 2, true, [], q, acks, [], [], none⟩
def walking (q : List Nat) (acks : Nat) (sub : Bool) : State :=
  { joining 1 false with walks := [{ walk2 q acks with sub := sub }] }
theorem witness_walk : (walking [1] 0 true).walks.find? (fun w => w.id == (walking [1] 0 true).occ.a) = some (walk2 [1] 0) ∧
    ¬((walk2 [1] 0).sub = true ∧ 1 = (walk2 [1] 0).root) ∧ (walking [1] 0 true).nodeSt 1 = stOK :=
  (by decide +kernel)
theorem witness_walk_end : (walking [] 1 true).walks.find? (fun w => w.id == (walking [] 1 true).occ.a) = some (walk2 [] 1) ∧
    (walk2 [] 1).queue = [] ∧ (walk2 [] 1).acks ≠ 0 ∧
    (walking [] 0 false).walks.find? (fun w => w.id == (walking [] 0 false).occ.a) = some { walk2 [] 0 with sub := false } ∧
    (walk2 [] 0).acks = 0 ∧ (walk2 [] 0).sigs = [] ∧ (walk2 [] 0).replies = [] :=
  (by decide +kernel)

end Sys2Proof.Witness
end

