-- ==== Sys2Proof/Tests/WitnessK.lean ====
section
/-! SUPPORT. States and operands that meet the hypotheses of the statements about operand queues, remote transfers and
atomics, fences and messages, clause by clause. -/

namespace Sys2Proof.Witness
set_option Elab.async false
open Sys2Proof Sys2Proof.Machine Sys2Proof.Claim

/-- An access descriptor (R344) at granule 0, the word in hand one of the access ring. -/
def accDescBytes (addr stride loc opnd n mode pkg group : Nat) : List Byte :=
  leBytes 8 addr ++ leBytes 8 stride ++ leBytes 2 0 ++ leBytes 2 loc ++ leBytes 2 opnd ++ leBytes 2 n ++ leBytes 1 mode ++
    leBytes 1 pkg ++ leBytes 2 group ++ zeros 36
def accessing (s : State) (b : List Byte) : State :=
  atEngine (coreDo s (fun c => { c with scratch := c.scratch.store 0 b })) .acc
def accD (s : State) : AccDesc := AccDesc.parse (granBytes s 0 64)

theorem acc_ready {s : State} {op : AccOp} {n : Nat} (h1 : freeB s = true) (h2 : granOk s 0 64) (h3 : accOk op (granBytes s 0 64))
    (h4 : (accD s).isList = false) : AccReady op s 0 n (accD s) :=
  ⟨free h1, h2, rfl, h3, fun h => absurd h (by rw [h4]; decide)⟩

/-- `AccReady` of a descriptor that names no list, as one check. -/
def accReadyP (s : State) (op : AccOp) : Prop :=
  freeB s = true ∧ 64 ≤ (s.slot s.cur.u).alloc.spLen ∧ (accD s).isList = false ∧ accOk op (granBytes s 0 64)
theorem acc_is_ready {s : State} {op : AccOp} {n : Nat} (h : accReadyP s op) : AccReady op s 0 n (accD s) :=
  acc_ready h.1 (by have := h.2.1; unfold granOk; omega) h.2.2.2 h.2.2.1

/-! Operand queues -/

/-- Queue 7 bound to the slot in hand, its stream ended, and running. -/
def queue (left : Nat) (s : State) : State := s.setOq 0 7 { (default : OQ) with bound := some 0, left := left, addr := 2 ^ 52, bytes := 8 }
theorem witness_aqcfg : (accessing world []).EngineFree ∧ ((accessing world []).oq 0 7).bound = none ∧
    ((queue 0 (accessing world [])).oq 0 7).bound = some 0 ∧ (queue 0 (accessing world [])).EngineFree :=
  ⟨free (by decide +kernel), by decide +kernel, by decide +kernel, free (by decide +kernel)⟩
/-- AQLD of two entries of 8 bytes, the last of the second in the last byte of tensor 1's first tile. -/
def aqState (left : Nat) : State := queue left (accessing world (accDescBytes (2 ^ 52) 65528 0 0 8 0 0 0))
def aqHomes (left : Nat) : M (State × List (Nat × Option Nat)) :=
  entryHomes (accD (aqState left)) 8 false (aqState left) (entryAddrs (aqState left) (accD (aqState left)) 2)
def aqldRuns (left : Nat) : Prop :=
  accReadyP (aqState left) .aqld ∧ ((aqState left).oq 0 7).bound = some 0 ∧ ((aqState left).oq 0 7).left = left ∧
    passes (aqHomes left) = true ∧ freeB (got (aqHomes left)).1 = true ∧ (got (aqHomes left)).1.cur = (aqState left).cur ∧
    (got (aqHomes left)).1.clock = (aqState left).clock
def aqldMeets (left : Nat) : Prop := ∃ m es, AccReady .aqld (aqState left) 0 2 (accD (aqState left)) ∧
    ((aqState left).oq 0 7).bound = some 0 ∧ ((aqState left).oq 0 7).left = left ∧
    entryHomes (accD (aqState left)) 8 false (aqState left) (entryAddrs (aqState left) (accD (aqState left)) 2) = .ok (m, es) ∧
    m.EngineFree ∧ m.cur = (aqState left).cur ∧ m.clock = (aqState left).clock
theorem aqld_meets {left : Nat} (h : aqldRuns left) : aqldMeets left :=
  ⟨_, _, acc_is_ready h.1, h.2.1, h.2.2.1, got_pair h.2.2.2.1 rfl, free h.2.2.2.2.1, h.2.2.2.2.2⟩
theorem witness_aqld : aqldMeets 0 ∧ aqldMeets 5 :=
  ⟨aqld_meets (by unfold aqldRuns accReadyP accOk; decide +kernel), aqld_meets (by unfold aqldRuns accReadyP accOk; decide +kernel)⟩
/-- The running stream's next entry, of a tensor here and of tensor 3, whose home is package 1. -/
def aqGo (tid : Nat) : State :=
  let s := queue 5 (accessing world [])
  let s := s.setOq 0 7 { s.oq 0 7 with addr := tid * 2 ^ 52 }
  { s with cur := ⟨0, .acc, ⟨.none, .none, 0⟩, 0, 8, false⟩, occ := { s.occ with b := 7 } }
def aqSeeded (tid : Nat) : State :=
  ((aqGo tid).seedTile 0 ptACC 0 ((aqGo tid).oq 0 7).tile).seedTile 0 ptACC 0 ((aqGo tid).oq 0 7).nextTile
def aqHome (tid : Nat) : M (State × Option Nat) :=
  entryHome (aqSeeded tid) { (default : AccDesc) with mode := 0, pkg := 0 - 1 } (tid * 2 ^ 52) 8 false
def aqRead (tid : Nat) : M (State × Option Nat) := oqRead (got (aqHome tid)).1 0 7 (tid * 2 ^ 52) 8 (got (aqHome tid)).2
def aqGoes (tid : Nat) (home : Option Nat) : Prop :=
  (aqGo tid).occ.b % 8 = 7 ∧ ((aqGo tid).oq 0 7).bound = some 0 ∧ ((aqGo tid).core 0).stopped = none ∧
    ((aqGo tid).oq 0 7).left ≠ 0 ∧ ((aqGo tid).oq 0 7).room ≠ 0 ∧ ((aqGo tid).slot 0).task.isSome = true ∧
    passes (aqHome tid) = true ∧ (got (aqHome tid)).2 = home ∧
    passes (accMarks (got (aqHome tid)).1 [(tid * 2 ^ 52, 8)] []) = true ∧ passes (aqRead tid) = true
def aqGoMeets (tid : Nat) (home : Option Nat) : Prop := ∃ ma mb tag, (aqGo tid).occ.b % 8 = 7 ∧
  ((aqGo tid).oq 0 7).bound = some 0 ∧ ((aqGo tid).core 0).stopped = none ∧ ((aqGo tid).oq 0 7).left ≠ 0 ∧
  ((aqGo tid).oq 0 7).room ≠ 0 ∧ ((aqGo tid).slot 0).task.isSome = true ∧ aqHome tid = .ok (ma, home) ∧
  accMarks ma [(tid * 2 ^ 52, 8)] [] = .ok () ∧ oqRead ma 0 7 (tid * 2 ^ 52) 8 home = .ok (mb, tag)
theorem aq_goes {tid : Nat} {home : Option Nat} (h : aqGoes tid home) : aqGoMeets tid home := by
  obtain ⟨h1, h2, h3, h4, h5, h6, h7, h8, h9, hr⟩ := h
  exact ⟨_, (got (aqRead tid)).1, (got (aqRead tid)).2, h1, h2, h3, h4, h5, h6, got_pair h7 h8, unit_eq h9,
    h8 ▸ got_pair (r := aqRead tid) hr rfl⟩
theorem witness_aq_entry : aqGoMeets 1 none ∧ aqGoMeets 3 (some 1) :=
  ⟨aq_goes (by unfold aqGoes; decide +kernel), aq_goes (by unfold aqGoes; decide +kernel)⟩

/-! Remote transfers -/

abbrev Marks (s sa : State) (d : AccDesc) (n : Nat) : Prop :=
  accMarks sa ((entryAddrs s d n).map (fun a => (a, d.bytes))) ((List.range n).map (fun j => (localAt s d.loc 256 j, d.bytes))) = .ok ()

/-- Two entries of 8 bytes, the second in the last bytes of the scratchpad: of tensor 1, whose home is here, and of tensor 3,
whose home is package 1. -/
def moving (tid mode : Nat) : State := accessing world (accDescBytes (tid * 2 ^ 52) 65528 1019 0 8 mode 0 0)
def homesOf (s : State) (wr : Bool) : M (State × List (Nat × Option Nat)) :=
  entryHomes (accD s) (accD s).bytes wr s (entryAddrs s (accD s) 2)
def rldRun (s : State) : M (State × List Nat) := runInOrder (fun s' e => rldEntry s' (accD s).bytes e) (got (homesOf s false)).1
  ((got (homesOf s false)).2.zip ((List.range 2).map (localAt s (accD s).loc 256)))
def rstRun (s : State) : M (State × List Nat) := runInOrder (fun s' e => rstEntry s' (accD s).bytes e) (got (homesOf s true)).1
  ((got (homesOf s true)).2.zip ((List.range 2).map (localAt s (accD s).loc 256)))
/-- What the statement asks of a transfer between the scratchpad and memory. -/
def moveMeets (s : State) (op : AccOp) (wr : Bool) (step : State → (Nat × Option Nat) × Nat → M (State × List Nat)) : Prop :=
  ∃ sa m es w, AccReady op s 0 2 (accD s) ∧ entriesOk s (accD s).loc 2 (accD s).bytes 256 ∧
    entryHomes (accD s) (accD s).bytes wr s (entryAddrs s (accD s) 2) = .ok (sa, es) ∧ Marks s sa (accD s) 2 ∧ sa.cur = s.cur ∧
    runInOrder step sa (es.zip ((List.range 2).map (localAt s (accD s).loc 256))) = .ok (m, w) ∧ m.EngineFree ∧ m.cur = s.cur
def moveRuns (s : State) (op : AccOp) (wr : Bool) (run : M (State × List Nat)) : Prop :=
  accReadyP s op ∧ 64 * (accD s).loc + (256 * (2 - 1) + (accD s).bytes) ≤ (s.slot s.cur.u).alloc.spLen ∧
    passes (homesOf s wr) = true ∧
    passes (accMarks (got (homesOf s wr)).1 ((entryAddrs s (accD s) 2).map (fun a => (a, (accD s).bytes)))
      ((List.range 2).map (fun j => (localAt s (accD s).loc 256 j, (accD s).bytes)))) = true ∧
    (got (homesOf s wr)).1.cur = s.cur ∧ passes run = true ∧ freeB (got run).1 = true ∧ (got run).1.cur = s.cur
theorem rld_meets {s : State} (h : moveRuns s .rld false (rldRun s)) :
    moveMeets s .rld false (fun s' e => rldEntry s' (accD s).bytes e) := by
  obtain ⟨h1, h2, h3, h4, h5, h6, h7, h8⟩ := h
  exact ⟨_, _, _, _, acc_is_ready h1, h2, got_pair h3 rfl, unit_eq h4, h5, got_pair h6 rfl, free h7, h8⟩
theorem rst_meets {s : State} (h : moveRuns s .rst true (rstRun s)) :
    moveMeets s .rst true (fun s' e => rstEntry s' (accD s).bytes e) :=
  let ⟨h1, h2, h3, h4, h5, h6, h7, h8⟩ := h
  ⟨_, _, _, _, acc_is_ready h1, h2, got_pair h3 rfl, unit_eq h4, h5, got_pair h6 rfl, free h7, h8⟩
theorem witness_rld : moveMeets (moving 1 2) .rld false (fun s' e => rldEntry s' (accD (moving 1 2)).bytes e) ∧
    moveMeets (moving 3 2) .rld false (fun s' e => rldEntry s' (accD (moving 3 2)).bytes e) ∧ (accD (moving 1 2)).toSp = true :=
  ⟨rld_meets (by unfold moveRuns accReadyP accOk; decide +kernel), rld_meets (by unfold moveRuns accReadyP accOk; decide +kernel), by decide +kernel⟩
theorem witness_rst : moveMeets (moving 1 0) .rst true (fun s' e => rstEntry s' (accD (moving 1 0)).bytes e) ∧
    moveMeets (moving 3 0) .rst true (fun s' e => rstEntry s' (accD (moving 3 0)).bytes e) :=
  ⟨rst_meets (by unfold moveRuns accReadyP accOk; decide +kernel), rst_meets (by unfold moveRuns accReadyP accOk; decide +kernel)⟩
/-- An RLD into queue 7, with room for it. -/
def queued (t : Nat) : State := queue 0 (moving t 0)
def queueRun (s : State) : M (State × List Nat) := runInOrder (fun s' e => rldQueue s' 7 (accD s).bytes e) (got (homesOf s false)).1
  ((got (homesOf s false)).2.map (fun e => (e, 0)))
def queueRuns (s : State) : Prop :=
  accReadyP s .rld ∧ (accD s).toSp = false ∧ (s.oq 0 7).bound = some 0 ∧ (s.oq 0 7).left = 0 ∧ 2 ≤ (s.oq 0 7).room ∧
    passes (homesOf s false) = true ∧
    passes (accMarks (got (homesOf s false)).1 ((entryAddrs s (accD s) 2).map (fun a => (a, (accD s).bytes))) []) = true ∧
    (got (homesOf s false)).1.cur = s.cur ∧ passes (queueRun s) = true ∧ freeB (got (queueRun s)).1 = true ∧
    (got (queueRun s)).1.cur = s.cur
def queueMeets (s : State) : Prop := ∃ sa m es w, AccReady .rld s 0 2 (accD s) ∧ (accD s).toSp = false ∧ (s.oq 0 7).bound = some 0 ∧
  (s.oq 0 7).left = 0 ∧ 2 ≤ (s.oq 0 7).room ∧
  entryHomes (accD s) (accD s).bytes false s (entryAddrs s (accD s) 2) = .ok (sa, es) ∧
  accMarks sa ((entryAddrs s (accD s) 2).map (fun a => (a, (accD s).bytes))) [] = .ok () ∧ sa.cur = s.cur ∧
  runInOrder (fun s' e => rldQueue s' 7 (accD s).bytes e) sa (es.map (fun e => (e, 0))) = .ok (m, w) ∧ m.EngineFree ∧ m.cur = s.cur
theorem queue_meets {s : State} (h : queueRuns s) : queueMeets s := by
  obtain ⟨h1, ha, hb, hc, hd, h3, h4, h5, h6, h7, h8⟩ := h
  exact ⟨_, _, _, _, acc_is_ready h1, ha, hb, hc, hd, got_pair h3 rfl, unit_eq h4, h5, got_pair h6 rfl, free h7, h8⟩
theorem witness_rld_queue : queueMeets (queued 1) ∧ queueMeets (queued 3) := 
  ⟨queue_meets (by unfold queueRuns accReadyP accOk; decide +kernel),
    queue_meets (by unfold queueRuns accReadyP accOk; decide +kernel)⟩
/-- A multicast to a group that writes here, and to no peer or to the first row peer. -/
def casting (group : Nat) : State :=
  let s := moving 1 0
  let s := accessing s (accDescBytes (2 ^ 52) 65528 1019 0 8 0 0 5)
  { s with fab := { s.fab with groups := [(5, group)] } }
def castChecked (group n : Nat) : M State :=
  (entryAddrs (casting group) (accD (casting group)) n).foldlM (mcstCheck 5 8) (casting group)
def castMoves (group n : Nat) : List ((Nat × Option Nat) × Nat) :=
  ((entryAddrs (casting group) (accD (casting group)) n).map (fun a => (a, none))).zip
    ((List.range n).map (localAt (casting group) 1019 256))
def castRun (group n : Nat) : M (State × List Nat) :=
  runInOrder (fun s' e => mcstEntry s' 5 8 e) (got (castChecked group n)) (castMoves group n)
/-- What the statement asks of a multicast before its entries move. -/
def castReady (group n : Nat) : Prop :=
  accReadyP (casting group) .mcst ∧ 64 * 1019 + (256 * (n - 1) + 8) ≤ ((casting group).slot (casting group).cur.u).alloc.spLen ∧
    bitOf ((casting group).group 5) 17 = true ∧ passes (castChecked group n) = true ∧
    passes (needRoutes (got (castChecked group n)) (2 ^ 52) ((casting group).groupPeers ((casting group).group 5))) = true ∧
    passes (accMarks (got (castChecked group n)) ((entryAddrs (casting group) (accD (casting group)) n).map (fun a => (a, 8)))
      ((List.range n).map (fun j => (localAt (casting group) 1019 256 j, 8)))) = true ∧
    (got (castChecked group n)).cur = (casting group).cur ∧
    (accD (casting group)).loc = 1019 ∧ (accD (casting group)).bytes = 8 ∧ (accD (casting group)).group = 5 ∧
    (accD (casting group)).addr = 2 ^ 52
def castMeets (group n : Nat) : Prop := ∃ d sa m w, d = accD (casting group) ∧ AccReady .mcst (casting group) 0 n d ∧
  entriesOk (casting group) d.loc n d.bytes 256 ∧ bitOf ((casting group).group d.group) 17 = true ∧
  (entryAddrs (casting group) d n).foldlM (mcstCheck d.group d.bytes) (casting group) = .ok sa ∧
  needRoutes sa (d.addr % 2 ^ 64) ((casting group).groupPeers ((casting group).group d.group)) = .ok () ∧
  Marks (casting group) sa d n ∧ sa.cur = (casting group).cur ∧
  runInOrder (fun s' e => mcstEntry s' d.group d.bytes e) sa (((entryAddrs (casting group) d n).map (fun a => (a, none))).zip
    ((List.range n).map (localAt (casting group) d.loc 256))) = .ok (m, w) ∧ m.EngineFree ∧ m.cur = (casting group).cur
theorem cast_meets {group n : Nat} {m : State} {w : List Nat} (h : castReady group n) (hr : castRun group n = .ok (m, w))
    (hf : m.EngineFree ∧ m.cur = (casting group).cur) : castMeets group n := by
  obtain ⟨h1, h2, h3, h4, h5, h6, h7, hl, hb, hg, ha⟩ := h
  refine ⟨_, got (castChecked group n), m, w, rfl, acc_is_ready h1, ?_, ?_, ?_, ?_, ?_, h7, ?_, hf⟩
  · rw [hl, hb]; exact h2
  · rw [hg]; exact h3
  · rw [hg, hb]; exact got_eq h4
  · rw [ha, hg]; exact unit_eq h5
  · rw [Marks, hl, hb]; exact unit_eq h6
  · rw [hl, hb, hg]; exact hr

/-- What a multicast sends is the fabric's business alone. -/
def onlyFab (s t : State) : Prop := ∃ f, t = { s with fab := f }
theorem onlyFab_trans {s t r : State} (h1 : onlyFab s t) (h2 : onlyFab t r) : onlyFab s r := by
  obtain ⟨f, rfl⟩ := h1
  obtain ⟨g, rfl⟩ := h2
  exact ⟨g, rfl⟩
theorem fold_fab {α : Type} {step : State → α → State} (h : ∀ s a, onlyFab s (step s a)) :
    ∀ (l : List α) (s : State), onlyFab s (l.foldl step s)
  | [], s => ⟨s.fab, rfl⟩
  | a :: l, s => onlyFab_trans (h s a) (fold_fab h l (step s a))
theorem sendFlow_fab (s : State) (k : Nat) (p : Packet) : onlyFab s (s.sendFlow k p) := by
  simp only [State.sendFlow]
  split <;> exact ⟨_, rfl⟩
theorem cast_fab (s : State) (u strm g ctx tid off seq iv : Nat) (bs : List Byte) :
    onlyFab s (s.sendMulticast u strm g ctx tid off seq iv bs) :=
  onlyFab_trans (fold_fab (fun _ _ => onlyFab_trans ⟨_, rfl⟩ (sendFlow_fab _ _ _)) _ _) (fold_fab (fun _ _ => ⟨_, rfl⟩) _ _)

/-- Two entries to a group with this package alone; and the last entry to a group with the first row peer. -/
theorem cast_here : castReady 0x30000 2 := by unfold castReady accReadyP accOk; decide +kernel
theorem cast_peer : castReady 0x30001 1 := by unfold castReady accReadyP accOk; decide +kernel
def castAt : Nat := localAt (casting 0x30001) 1019 256 0
def castFrom : State := countedReq (got (castChecked 0x30001 1))
def castWritten : M State := tensorWrite castFrom (coreOf (got (castChecked 0x30001 1)).cur.u) ptACC
  ((got (castChecked 0x30001 1)).slot (got (castChecked 0x30001 1)).cur.u).tk.ctx (2 ^ 52) (localBytes castFrom castAt 8)
def castPeerRuns : Prop := passes castWritten = true ∧ freeB (got castWritten) = true ∧
  (got castWritten).cur = (casting 0x30001).cur ∧ castMoves 0x30001 1 = [((2 ^ 52, none), castAt)] ∧
  bitOf (castFrom.group 5) 16 = true
theorem cast_peer_runs : castPeerRuns := by unfold castPeerRuns; decide +kernel
/-- An entry whose own write is made here and whose copies the fabric takes. -/
theorem cast_one {s m : State} {l : List ((Nat × Option Nat) × Nat)} {a x : Nat} (hl : l = [((a, none), x)])
    (hb : bitOf ((countedReq s).group 5) 16 = true)
    (hw : tensorWrite (countedReq s) (coreOf s.cur.u) ptACC (s.slot s.cur.u).tk.ctx a (localBytes (countedReq s) x 8) = .ok m) :
    ∃ f, runInOrder (fun s' e => mcstEntry s' 5 8 e) s l = .ok ({ m with fab := f }, []) := by
  obtain ⟨f, hf⟩ := cast_fab m s.cur.u 4 5 (s.slot s.cur.u).tk.ctx (a / 2 ^ 52) (a % 2 ^ 52) (s.slot s.cur.u).tk.seq
    (s.slot s.cur.u).tk.interval (localBytes (countedReq s) x 8)
  refine ⟨f, ?_⟩
  subst hl
  simp only [runInOrder, mcstEntry, hb, if_true, hw, bind, Except.bind, pure, Except.pure, hf, List.append_nil]
theorem free_fab {s : State} {c : Cursor} (h : freeB s = true ∧ s.cur = c) (f : Fabric) :
    ({ s with fab := f } : State).EngineFree ∧ ({ s with fab := f } : State).cur = c :=
  ⟨free (s := { s with fab := f }) h.1, h.2⟩
def castHereRuns : Prop := passes (castRun 0x30000 2) = true ∧ freeB (got (castRun 0x30000 2)).1 = true ∧
  (got (castRun 0x30000 2)).1.cur = (casting 0x30000).cur
theorem cast_here_runs : castHereRuns := by unfold castHereRuns; decide +kernel
theorem witness_rmcst : castMeets 0x30000 2 ∧ castMeets 0x30001 1 := by
  obtain ⟨h1, h2, h3, h4, h5⟩ := cast_peer_runs
  obtain ⟨f, hf⟩ := cast_one h4 h5 (got_eq h1)
  exact ⟨cast_meets (m := (got (castRun 0x30000 2)).1) (w := (got (castRun 0x30000 2)).2) cast_here
      (got_pair (r := castRun 0x30000 2) cast_here_runs.1 rfl) ⟨free cast_here_runs.2.1, cast_here_runs.2.2⟩,
    cast_meets cast_peer hf (free_fab ⟨h2, h3⟩ f)⟩

end Sys2Proof.Witness
end

