-- ==== Sys2Proof/Tests/WitnessL.lean ====
section
/-! SUPPORT. States and operands that meet the hypotheses of the statements about remote atomics, fences and messages, clause
by clause. -/

namespace Sys2Proof.Witness
set_option Elab.async false
open Sys2Proof Sys2Proof.Machine Sys2Proof.Claim

/-! Remote atomics -/

abbrev atomWidth (f : AR) : Nat := if fld f.funct.toNat 4 2 = 2 then 4 else 8

/-- What the statement of RATOM and RCAS asks of two entries. -/
def atomAsks (i : Instr) (f : AR) (cas res : Bool) (s : State) : Prop :=
  ∃ sa sb m es fl w, atomForm i = some (f, cas, res) ∧ AccReady .atom s 0 2 (accD s) ∧
    (res = true ∧ entriesOk s (accD s).loc 2 8 8 ∨ res = false ∧ (accD s).loc = 0) ∧
    entriesOk s (accD s).opnd 2 (if cas then 16 else 8) (if cas then 16 else 8) ∧
    entryHomes (accD s) (atomWidth f) true s (entryAddrs s (accD s) 2) = .ok (sa, es) ∧ sa.cur = s.cur ∧
    es.foldlM (hostCheck cas (f.funct.toNat % 16)) sa = .ok sb ∧ sb.cur = s.cur ∧ sb.fab = s.fab ∧
    sb.slot s.cur.u = s.slot s.cur.u ∧ (sb.core (coreOf s.cur.u)).scratch = (s.core (coreOf s.cur.u)).scratch ∧
    accMarks sb ((entryAddrs s (accD s) 2).map (fun a => (a, atomWidth f)))
      ((List.range 2).map (fun j => (localAt s (accD s).opnd (if cas then 16 else 8) j, if cas then 16 else 8)) ++
        (if res then (List.range 2).map (fun j => (localAt s (accD s).loc 8 j, 8)) else [])) = .ok () ∧
    runAtomEntries sb (s.slot s.cur.u).accIdx ((atomEntries s f cas res (accD s) es).drop (s.slot s.cur.u).accIdx)
      = .ok (m, fl, w) ∧ m.EngineFree ∧ m.cur = s.cur

def atomHomes (s : State) (f : AR) : M (State × List (Nat × Option Nat)) :=
  entryHomes (accD s) (atomWidth f) true s (entryAddrs s (accD s) 2)
def atomHosts (s : State) (f : AR) (cas : Bool) : M State :=
  (got (atomHomes s f)).2.foldlM (hostCheck cas (f.funct.toNat % 16)) (got (atomHomes s f)).1
def atomRuns (s : State) (f : AR) (cas res : Bool) : M (State × Nat × List Nat) :=
  runAtomEntries (got (atomHosts s f cas)) (s.slot s.cur.u).accIdx
    ((atomEntries s f cas res (accD s) (got (atomHomes s f)).2).drop (s.slot s.cur.u).accIdx)

theorem got_three {ε α β γ : Type} [Inhabited α] [Inhabited β] [Inhabited γ] {r : Except ε (α × β × γ)} (h : passes r = true) :
    r = .ok ((got r).1, (got r).2.1, (got r).2.2) := got_eq h

/-- A RATOM of two entries of tensor 1, results in the scratchpad's last bytes; the second entry alone, after a stop; an RCAS
of tensor 3, whose home is package 1; and a RATOM of 4 bytes without results. -/
def atoming (tid loc opnd : Nat) : State := accessing world (accDescBytes (tid * 2 ^ 52) 65528 loc opnd 0 0 0 0)
def atomAgain : State := slotDo (atoming 1 1023 1022) (fun sl => { sl with accIdx := 1 })
def fAdd : AR := ⟨0, 0, 1, 0x40⟩
def fCas : AR := ⟨0, 0, 1, 0⟩
def fHalf : AR := ⟨0, 0, 1, 0x20⟩
def remAtomRuns (f : AR) (cas res : Bool) (s : State) : Prop :=
  accReadyP s .atom ∧ (res = true ∧ entriesOk s (accD s).loc 2 8 8 ∨ res = false ∧ (accD s).loc = 0) ∧
    entriesOk s (accD s).opnd 2 (if cas then 16 else 8) (if cas then 16 else 8) ∧ passes (atomHomes s f) = true ∧
    (got (atomHomes s f)).1.cur = s.cur ∧ passes (atomHosts s f cas) = true ∧ (got (atomHosts s f cas)).cur = s.cur ∧
    (got (atomHosts s f cas)).fab = s.fab ∧ (got (atomHosts s f cas)).slot s.cur.u = s.slot s.cur.u ∧
    ((got (atomHosts s f cas)).core (coreOf s.cur.u)).scratch = (s.core (coreOf s.cur.u)).scratch ∧
    passes (accMarks (got (atomHosts s f cas)) ((entryAddrs s (accD s) 2).map (fun a => (a, atomWidth f)))
      ((List.range 2).map (fun j => (localAt s (accD s).opnd (if cas then 16 else 8) j, if cas then 16 else 8)) ++
        (if res then (List.range 2).map (fun j => (localAt s (accD s).loc 8 j, 8)) else []))) = true ∧
    passes (atomRuns s f cas res) = true ∧ freeB (got (atomRuns s f cas res)).1 = true ∧
    (got (atomRuns s f cas res)).1.cur = s.cur
theorem atom_asks {i : Instr} {f : AR} {cas res : Bool} {s : State} (h : remAtomRuns f cas res s)
    (hi : atomForm i = some (f, cas, res)) : atomAsks i f cas res s := by
  obtain ⟨h1, h2, h3, h4, h5, h6, h7, h8, h9, h10, h11, h12, h13, h14⟩ := h
  exact ⟨_, _, _, _, _, _, hi, acc_is_ready h1, h2, h3, got_pair h4 rfl, h5, got_eq h6, h7, h8, h9, h10, unit_eq h11,
    got_three h12, free h13, h14⟩
theorem witness_ratom : atomAsks (.ratom fAdd) fAdd false true (atoming 1 1023 1022) :=
  atom_asks (by unfold remAtomRuns accReadyP accOk entriesOk; decide +kernel) rfl
theorem witness_ratom_again : atomAsks (.ratom fAdd) fAdd false true atomAgain :=
  atom_asks (by unfold remAtomRuns accReadyP accOk entriesOk; decide +kernel) rfl
theorem witness_rcas : atomAsks (.rcas fCas) fCas true true (atoming 3 1023 1022) :=
  atom_asks (by unfold remAtomRuns accReadyP accOk entriesOk; decide +kernel) rfl
theorem witness_ratom_half : atomAsks (.ratom fHalf) fHalf false false (atoming 1 0 1022) :=
  atom_asks (by unfold remAtomRuns accReadyP accOk entriesOk; decide +kernel) rfl

/-! Fences and messages -/

def fencing : State := accessing world []
theorem witness_rfence : fencing.EngineFree ∧ (fencing.rcRelease 0 7).EngineFree ∧ (fencing.rcRelease 0 7).cur = fencing.cur ∧
    (fencing.rcRelease 0 7).clock = fencing.clock :=
  ⟨free (by decide +kernel), free (by decide +kernel), by decide +kernel, by decide +kernel⟩

/-- A send descriptor: 8 bytes of tensor 1, or of a slice, to slot 1023 of a package, with a prefix of two units. -/
def sendDesc (kind src pkg : Nat) : List Byte :=
  leBytes 8 src ++ leBytes 8 0 ++ leBytes 4 8 ++ leBytes 2 1023 ++ leBytes 1 pkg ++ leBytes 1 kind ++ leBytes 1 2 ++ zeros 39
def sending : State := accessing world (sendDesc 0 (2 ^ 52) 1)
def sendMsg1 : SendMsg := ⟨sendDesc 0 (2 ^ 52) 1, 0, 1, 9, 0, 0, msSUSP, 0⟩
def withSends (l : List SendMsg) : State := { sending with fab := { sending.fab with sends := l } }
/-- What the statement of XSEND asks of a state before it asks what message there is. -/
def sendAsks (s : State) (sb : State) : Prop :=
  ∃ sa b, s.EngineFree ∧ granOk s 0 64 ∧ b = granBytes s 0 64 ∧ 1 ≤ blockF b 16 4 ∧ blockF b 16 4 ≤ 2 ^ 24 ∧ blockF b 20 2 < 1024 ∧
    blockF b 22 1 < 81 ∧ blockF b 23 1 ≤ 1 ∧ blockF b 24 1 ≤ 2 ∧ (∀ x ∈ b.drop 25, x = 0) ∧
    (blockF b 23 1 = 1 → endForm 2 (blockF b 0 8) = true) ∧
    msgEnd s (coreOf s.cur.u) (myTask s).ctx (blockF b 23 1) (blockF b 0 8) (blockF b 16 4) false = .ok sa ∧
    statusEnd sa (coreOf s.cur.u) (myTask s).ctx (blockF b 8 8) = .ok sb ∧
    (blockF b 22 1 ≠ sb.fab.pkg → needRoute sb (blockF b 22 1) (blockF b 0 8) = .ok ()) ∧ sb.cur = s.cur ∧ sb.clock = s.clock
def sendAB (s : State) : M State :=
  msgEnd s (coreOf s.cur.u) (myTask s).ctx (blockF (granBytes s 0 64) 23 1) (blockF (granBytes s 0 64) 0 8)
    (blockF (granBytes s 0 64) 16 4) false
def sendBB (s : State) : M State := statusEnd (got (sendAB s)) (coreOf s.cur.u) (myTask s).ctx (blockF (granBytes s 0 64) 8 8)
def sendRuns (s : State) : Prop :=
  freeB s = true ∧ granOk s 0 64 ∧ 1 ≤ blockF (granBytes s 0 64) 16 4 ∧ blockF (granBytes s 0 64) 16 4 ≤ 2 ^ 24 ∧
    blockF (granBytes s 0 64) 20 2 < 1024 ∧ blockF (granBytes s 0 64) 22 1 < 81 ∧ blockF (granBytes s 0 64) 23 1 ≤ 1 ∧
    blockF (granBytes s 0 64) 24 1 ≤ 2 ∧ (∀ x ∈ (granBytes s 0 64).drop 25, x = 0) ∧
    (blockF (granBytes s 0 64) 23 1 = 1 → endForm 2 (blockF (granBytes s 0 64) 0 8) = true) ∧ passes (sendAB s) = true ∧
    passes (sendBB s) = true ∧
    passes (needRoute (got (sendBB s)) (blockF (granBytes s 0 64) 22 1) (blockF (granBytes s 0 64) 0 8)) = true ∧
    (got (sendBB s)).cur = s.cur ∧ (got (sendBB s)).clock = s.clock
theorem send_asks {s : State} (h : sendRuns s) : sendAsks s (got (sendBB s)) := by
  obtain ⟨h1, hg, h2, h3, h4, h5, h6, h7, h8, h9, h10, h11, h12, h13⟩ := h
  exact ⟨got (sendAB s), _, free h1, hg, rfl, h2, h3, h4, h5, h6, h7, h8, h9, got_eq h10, got_eq h11, fun _ => unit_eq h12, h13⟩
/-- A suspended message of the word's number; no message of it; no message of it, and the 64 a task may have. -/
theorem witness_xsend_again : sendAsks (withSends [sendMsg1]) (got (sendBB (withSends [sendMsg1]))) ∧
    (got (sendBB (withSends [sendMsg1]))).findMsg 0 1 9 = some sendMsg1 ∧
    ((got (sendBB (withSends [sendMsg1]))).msgResume sendMsg1).EngineFree ∧
    ((got (sendBB (withSends [sendMsg1]))).msgResume sendMsg1).cur = (withSends [sendMsg1]).cur :=
  ⟨send_asks (by unfold sendRuns granOk; decide +kernel), by decide +kernel, free (by decide +kernel), by decide +kernel⟩
def opened : M State := msgOpen (got (sendBB sending)) 0 9 0 task (granBytes sending 0 64)
theorem witness_xsend : ∃ m, sendAsks sending (got (sendBB sending)) ∧ (got (sendBB sending)).findMsg 0 1 9 = none ∧
    ((got (sendBB sending)).fab.sends.filter (fun x => x.ctx == 0 && x.seq == 1)).length < 64 ∧
    msgOpen (got (sendBB sending)) 0 9 0 task (granBytes sending 0 64) = .ok m ∧ m.EngineFree ∧ m.cur = sending.cur :=
  ⟨got opened, send_asks (by unfold sendRuns granOk; decide +kernel), by decide +kernel, by decide +kernel,
    got_eq (by decide +kernel), free (by decide +kernel), by decide +kernel⟩
def fullSends : State := withSends ((List.range 64).map (fun k => { sendMsg1 with mid := 100 + k }))
theorem witness_xsend_full : sendAsks fullSends (got (sendBB fullSends)) ∧ (got (sendBB fullSends)).findMsg 0 1 9 = none ∧
    64 ≤ ((got (sendBB fullSends)).fab.sends.filter (fun x => x.ctx == 0 && x.seq == 1)).length ∧
    (got (sendBB fullSends)).EngineFree ∧ (got (sendBB fullSends)).cur = fullSends.cur :=
  ⟨send_asks (by unfold sendRuns granOk; decide +kernel), by decide +kernel, by decide +kernel, free (by decide +kernel),
    by decide +kernel⟩
/-- A message from the last bytes of slice 63. -/
theorem witness_xsend_slice : ∃ s, s = accessing world (sendDesc 1 (63 * 2 ^ 24 + 0x2FFFF8) 0) ∧ sendAsks s (got (sendBB s)) :=
  ⟨_, rfl, send_asks (by unfold sendRuns granOk; decide +kernel)⟩

/-- A receive descriptor: room for 4096 bytes at tensor 1, a semaphore. -/
def recvDesc : List Byte := leBytes 8 (2 ^ 52) ++ leBytes 8 0 ++ leBytes 4 4096 ++ leBytes 1 0 ++ leBytes 1 0xBF ++ leBytes 2 7 ++ zeros 40
def recvSlot1 : RecvSlot := { (default : RecvSlot) with desc := recvDesc, seq := 1, posted := true }
def posts (l : Tbl RecvSlot) : State :=
  let s := accessing world recvDesc
  { s with fab := { s.fab with recvs := l } }
def recvA (s : State) : M State := msgEnd s 0 0 0 (2 ^ 52) 4096 true
def recvB (s : State) : M State := statusEnd (got (recvA s)) 0 0 0
/-- What XPOST makes of the state, as the statement writes it. -/
def recvM (sb : State) (b : List Byte) : State :=
  match sb.recv 0 1023 with
  | some r => if r.desc = b then sb else sb.recvPost 0 task 1023 b
  | none => sb.recvPost 0 task 1023 b
/-- What the statement of XPOST asks, as checks and as it is. -/
def postRuns (s : State) : Prop :=
  freeB s = true ∧ granOk s 0 64 ∧ 1 ≤ blockF (granBytes s 0 64) 16 4 ∧ blockF (granBytes s 0 64) 16 4 ≤ 2 ^ 24 ∧
    blockF (granBytes s 0 64) 20 1 ≤ 1 ∧ bitOf (blockF (granBytes s 0 64) 21 1) 6 = false ∧
    (∀ x ∈ (granBytes s 0 64).drop 24, x = 0) ∧
    (blockF (granBytes s 0 64) 20 1 = 1 → endForm 2 (blockF (granBytes s 0 64) 0 8) = true) ∧ passes (recvA s) = true ∧
    passes (recvB s) = true ∧ (got (recvB s)).cur = s.cur ∧ (got (recvB s)).clock = s.clock ∧
    ((got (recvB s)).recv 0 1023).all (fun r => !r.live || r.desc == granBytes s 0 64) = true ∧
    freeB (recvM (got (recvB s)) (granBytes s 0 64)) = true ∧ (recvM (got (recvB s)) (granBytes s 0 64)).cur = s.cur
def postAsks (s : State) : Prop := ∃ sa sb m b, s.EngineFree ∧ granOk s 0 64 ∧
  b = granBytes s 0 64 ∧ 1 ≤ blockF b 16 4 ∧ blockF b 16 4 ≤ 2 ^ 24 ∧ blockF b 20 1 ≤ 1 ∧
  bitOf (blockF b 21 1) 6 = false ∧ (∀ x ∈ b.drop 24, x = 0) ∧ (blockF b 20 1 = 1 → endForm 2 (blockF b 0 8) = true) ∧
  recvA s = .ok sa ∧ statusEnd sa 0 0 0 = .ok sb ∧ sb.cur = s.cur ∧ sb.clock = s.clock ∧ m = recvM sb b ∧
  (∀ r, sb.recv 0 1023 = some r → r.live = true → r.desc = b) ∧ m.EngineFree ∧ m.cur = s.cur
theorem post_asks {s : State} (h : postRuns s) : postAsks s := by
  obtain ⟨h1, h2, h3, h4, h5, h6, h7, h8, h9, h10, h11, h12, h13, h14, h15⟩ := h
  refine ⟨got (recvA s), got (recvB s), _, _, free h1, h2, rfl, h3, h4, h5, h6, h7, h8, got_eq h9,
    got_eq (r := recvB s) h10, h11, h12, rfl, fun r hr hl => ?_, free h14, h15⟩
  rw [hr] at h13
  simpa [hl] using h13
/-- A slot not posted yet, and one posted with the same descriptor. -/
theorem witness_xpost : postAsks (posts []) ∧ postAsks (posts [(1023, recvSlot1)]) :=
  ⟨post_asks (by unfold postRuns granOk; decide +kernel), post_asks (by unfold postRuns granOk; decide +kernel)⟩
/-- XCANCEL and XRESUME of a suspended message, and XCANCEL.recv of a posted slot. -/
theorem witness_message : (∃ m, msgWord (withSends [sendMsg1]) (.xcancel ⟨9, 0, 0⟩) = some m ∧ m.EngineFree ∧ m.cur = sending.cur) ∧
    (∃ m, msgWord (withSends [sendMsg1]) (.xresume ⟨9, 0, 0⟩) = some m ∧ m.EngineFree ∧ m.cur = sending.cur) ∧
    (∃ m, msgWord (posts [(1023, recvSlot1)]) (.xcancelRecv ⟨1023, 0, 0⟩) = some m ∧ m.EngineFree ∧
      m.cur = (posts [(1023, recvSlot1)]).cur) ∧ sending.EngineFree :=
  ⟨⟨_, rfl, free (by decide +kernel), by decide +kernel⟩, ⟨_, rfl, free (by decide +kernel), by decide +kernel⟩,
    ⟨_, rfl, free (by decide +kernel), by decide +kernel⟩, free (by decide +kernel)⟩

end Sys2Proof.Witness
end

