-- ==== Sys2Proof/Tests/WitnessM.lean ====
section
/-! SUPPORT. States and operands that meet the hypotheses of the statements about packets and their answers, clause by
clause. -/

namespace Sys2Proof.Witness
set_option Elab.async false
open Sys2Proof Sys2Proof.Machine Sys2Proof.Claim

/-! Packets of flows -/

/-- A packet of package 1, slot 0, for tensor 1 of context 0 here. -/
def packet (type : Nat) : Packet := { (default : Packet) with type := type, src := 1, tensor := 1, tag := 1 }
/-- The state at its arrival, from the stream given. -/
def coming (p : Packet) (strm : Nat) (s : State) : State := withOcc s (fun o => { o with pkt := p, a := strm })
def counted1 (s : State) (type : Nat) (p : Packet) : State := if countsIn type then s.countGot p else s

def hereL (s : State) (type : Nat) (p : Packet) : List Bool := [p == s.occ.pkt, p.type == type, p.dst == s.fab.pkg]
theorem is_here {s : State} {type : Nat} {p : Packet} (h : allOf (hereL s type p) = true) : Here s type p :=
  ⟨eq_of_beq (part h 0), eq_of_beq (part h 1), eq_of_beq (part h 2)⟩
def nextL (s : State) (type : Nat) (p : Packet) : List Bool :=
  [allOf (hereL s type p), p.src != s.fab.pkg, type != 0x30 || s.occ.a == 5, p.fseq == s.expect (s.flowOf s.occ.a p),
    s.fab.early.all (fun e => e.1 != s.flowOf s.occ.a p)]
theorem is_next {s : State} {type : Nat} {p : Packet} (h : allOf (nextL s type p) = true) :
    NextOfFlow s type p (s.flowOf s.occ.a p) (counted1 s type p) where
  here := is_here (part h 0)
  far := bne_iff_ne.mp (part h 1)
  slots hs := by
    have h2 : (type != 0x30 || s.occ.a == 5) = true := part h 2
    simpa [hs] using h2
  key := rfl
  next := eq_of_beq (part h 3)
  alone e he := bne_iff_ne.mp (List.all_eq_true.mp (part h 4) e he)
  got := rfl

/-- What the first clause asks of a packet that is performed. -/
def performs (i : Instr) (type : Nat) (s : State) (p : Packet) : Prop :=
  ∃ m, flowPacket i = some type ∧ NextOfFlow s type p (s.flowOf s.occ.a p) (counted1 s type p) ∧
    perform (counted1 s type p) s.occ.a p = .ok m ∧ ∀ e ∈ m.fab.early, e.1 ≠ s.flowOf s.occ.a p
def performed (type : Nat) (s : State) (p : Packet) : Ev := perform (counted1 s type p) s.occ.a p
def doesB (type : Nat) (s : State) (p : Packet) : Prop := allOf (nextL s type p) = true ∧ passes (performed type s p) = true ∧
  ∀ e ∈ (got (performed type s p)).fab.early, e.1 ≠ s.flowOf s.occ.a p
theorem does {i : Instr} {type : Nat} {s : State} {p : Packet} (h : flowPacket i = some type) (hn : doesB type s p) :
    performs i type s p := ⟨_, h, is_next hn.1, got_eq hn.2.1, hn.2.2⟩

/-- Number 4095 of a flow, a write of 8 bytes at the end of the tensor's view; a read there; an atomic of 4 bytes. -/
def pWrite : Packet := { packet 0x03 with fseq := 4095, offset := 65528, payload := zeros 8, aux := 7 }
def pRead : Packet := { packet 0x01 with fseq := 4095, offset := 65528, operand := 8 }
def pAtom : Packet := { packet 0x05 with fseq := 4095, offset := 65532, aux := 0x20, operand := 1 }
def flowing (p : Packet) : State :=
  let s := coming p 4 world
  { s with fab := { s.fab with recvSeq := [(s.flowOf 4 p, 4095)], groups := [(5, 0x20000)] } }
theorem witness_flow_write : performs .writePacket 0x03 (flowing pWrite) pWrite :=
  does rfl (by unfold doesB; decide +kernel)
theorem witness_flow_read : performs .readPacket 0x01 (flowing pRead) pRead :=
  does rfl (by unfold doesB; decide +kernel)
theorem witness_flow_atomic : performs .atomicPacket 0x05 (flowing pAtom) pAtom :=
  does rfl (by unfold doesB; decide +kernel)
/-- A multicast that only goes on, after one hop; pull data for no slot; a read of node 1. -/
def pCast : Packet := { packet 0x07 with fseq := 4095, hops := 1, operand := 5, payload := zeros 8 }
def pPull : Packet := { packet 0x12 with fseq := 4095, payload := zeros 8 }
def pNode : Packet := { packet 0x30 with tensor := 0, fseq := 4095, interval := 1, aux := 0x72, operand := 1, payload := leBytes 8 2 }
theorem witness_flow_cast : performs .multicastWritePacket 0x07 (flowing pCast) pCast :=
  does rfl (by unfold doesB; decide +kernel)
theorem witness_flow_pull : performs .pullDataPacket 0x12 (flowing pPull) pPull :=
  does rfl (by unfold doesB; decide +kernel)
def nodeFlow : State := coming pNode 5 world
def nodeFlow5 : State := { nodeFlow with fab := { nodeFlow.fab with recvSeq := [(nodeFlow.flowOf 5 pNode, 4095)] } }
theorem witness_flow_node : performs .nodeOperationPacket 0x30 nodeFlow5 pNode :=
  does rfl (by unfold doesB; decide +kernel)

def writePs : M (List Place) := fabPlace (counted1 (flowing pWrite) 0x03 pWrite) pWrite 8 true
def writeM : M State := (counted1 (flowing pWrite) 0x03 pWrite).putMems ((got writePs).zip pWrite.payload)
theorem witness_write : ∃ s1 m ps, NextOfFlow (flowing pWrite) 0x03 pWrite ((flowing pWrite).flowOf 4 pWrite) s1 ∧
    fabPlace s1 pWrite 8 true = .ok ps ∧ s1.putMems (ps.zip pWrite.payload) = .ok m ∧ m.fab = s1.fab :=
  ⟨counted1 (flowing pWrite) 0x03 pWrite, got writeM, got writePs, is_next (by decide +kernel), got_eq (by decide +kernel),
    got_eq (by decide +kernel), by decide +kernel⟩
def readPs : M (List Place) := fabPlace (flowing pRead) pRead 8 false
def readD : M (State × Desc) := getDesc { flowing pRead with cores := [] } 0 ptACC 0 1 (1 * 2 ^ 52 + 65528)
theorem witness_read : ∃ ps bs x d, NextOfFlow (flowing pRead) 0x01 pRead ((flowing pRead).flowOf 4 pRead) (flowing pRead) ∧
    (flowing pRead).occ.a ≠ 0 ∧ fabPlace (flowing pRead) pRead 8 false = .ok ps ∧ (flowing pRead).getMems ps = .ok bs ∧
    getDesc { flowing pRead with cores := [] } 0 ptACC 0 1 (1 * 2 ^ 52 + 65528) = .ok (x, d) ∧ pRead.offset < d.size :=
  ⟨got readPs, got ((flowing pRead).getMems (got readPs)), (got readD).1, (got readD).2, is_next (by decide +kernel),
    by decide, got_eq (by decide +kernel), got_eq (by decide +kernel), got_pair (by decide +kernel) rfl, by decide +kernel⟩
def atomPs : M (List Place) := fabPlace (flowing pAtom) pAtom 4 true
def atomOld : M (List Byte) := (flowing pAtom).getMems (got atomPs)
def atomM : M State := (flowing pAtom).putMems ((got atomPs).zip (leBytes 4 (atomOp 0 4 (leNat (got atomOld)) 1).1))
theorem witness_atomic : ∃ m ps bs, NextOfFlow (flowing pAtom) 0x05 pAtom ((flowing pAtom).flowOf 4 pAtom) (flowing pAtom) ∧ pAtom.payload = [] ∧
    fabPlace (flowing pAtom) pAtom 4 true = .ok ps ∧ (flowing pAtom).getMems ps = .ok bs ∧
    (flowing pAtom).putMems (ps.zip (leBytes 4 (atomOp 0 4 (leNat bs) 1).1)) = .ok m ∧ m.fab = (flowing pAtom).fab :=
  ⟨got atomM, got atomPs, got atomOld, is_next (by decide +kernel), rfl, got_eq (by decide +kernel), got_eq (by decide +kernel),
    got_eq (by decide +kernel), by decide +kernel⟩

/-- The flow of `pWrite` one packet short of it, as far short as an early packet may be, and one past it. -/
def offBy (d : Nat) : State :=
  let s := flowing pWrite
  { s with fab := { s.fab with recvSeq := [(s.flowOf 4 pWrite, 4095 + 4096 - d)] } }
theorem witness_early : Here (offBy 1) 0x03 pWrite ∧ (pWrite.fseq + 4096 - (offBy 1).expect ((offBy 1).flowOf 4 pWrite)) % 4096 = 1 ∧
    (pWrite.fseq + 4096 - (offBy 2047).expect ((offBy 2047).flowOf 4 pWrite)) % 4096 = 2047 ∧
    (pWrite.fseq + 4096 - (offBy 2048).expect ((offBy 2048).flowOf 4 pWrite)) % 4096 = 2048 ∧ Here (offBy 2048) 0x03 pWrite :=
  ⟨is_here (by decide +kernel), by decide +kernel, by decide +kernel, by decide +kernel, is_here (by decide +kernel)⟩
theorem witness_passing : ∃ p, p = { pWrite with dst := 80 } ∧ p = (coming p 4 world).occ.pkt ∧ p.type = 0x03 ∧
    p.dst ≠ (coming p 4 world).fab.pkg := ⟨_, rfl, rfl, rfl, by decide⟩
/-- A packet of this package for itself. -/
def pOwn : Packet := { pWrite with src := 0 }
def ownDone : Ev := perform (coming pOwn 4 world) 4 pOwn
theorem witness_own_packet : ∃ m, flowPacket .writePacket = some 0x03 ∧ Here (coming pOwn 4 world) 0x03 pOwn ∧
    pOwn.src = (coming pOwn 4 world).fab.pkg ∧ perform (coming pOwn 4 world) 4 pOwn = .ok m :=
  ⟨got ownDone, rfl, is_here (by decide +kernel), by decide, got_eq (by decide +kernel)⟩
/-- Number 4094 of a flow missing since clock 0, at the last clock before its end and at its end, with its next packet waiting
and without. -/
def gapPkt : Packet := { pRead with sslot := 1 }
def gapKey : Nat := inKey gapPkt 4
def gapped (clk : Nat) (l : List (Nat × Packet)) : State :=
  let s := withOcc world (fun o => { o with a := 1, b := 12, c := 1 })
  { s with clock := clk, fab := { s.fab with recvSeq := [(gapKey, 4094)], gaps := [(gapKey, 4094, 0)], early := l } }
def gapOver : State := ((gapped 10500 [(gapKey, gapPkt)]).passed gapKey).bump 11
def gapDone : Ev := perform { gapOver with fab := { gapOver.fab with early := [] } } ((gapped 10500 []).occ.b % 8) gapPkt
def gapMeets (s : State) : Prop :=
  gapKey = (s.occ.a * 4096 + s.occ.b) * 4096 + s.occ.c + s.occ.d * 2 ^ 60 ∧
    s.fab.gaps.find? (fun g => g.1 == gapKey && g.2.1 == s.expect gapKey) = some (gapKey, 4094, 0)
theorem witness_gap : gapMeets (gapped 10499 []) ∧ (gapped 10499 []).clock < 0 + 10 * 1050 ∧ gapMeets (gapped 10500 []) ∧
    0 + 10 * 1050 ≤ (gapped 10500 []).clock ∧ (∀ e ∈ (gapped 10500 []).fab.early, e.1 ≠ gapKey) ∧
    gapMeets (gapped 10500 [(gapKey, gapPkt)]) ∧ (gapped 10500 [(gapKey, gapPkt)]).fab.early = [(gapKey, gapPkt)] ∧
    gapPkt.fseq = ((gapped 10500 [(gapKey, gapPkt)]).expect gapKey + 1) % 4096 ∧
    ∃ m, perform { gapOver with fab := { gapOver.fab with early := [] } } ((gapped 10500 []).occ.b % 8) gapPkt = .ok m ∧
      m.fab.early = [] := by
  refine ⟨?_, by decide, ?_, by decide, by decide, ?_, rfl, by decide, got gapDone, got_eq (r := gapDone) (by decide +kernel),
    by decide +kernel⟩ <;> (unfold gapMeets; decide +kernel)

/-! Answers -/

/-- A request of tag 1 that awaits its answer. -/
def asking (r : Req) (p : Packet) (s : State) : State :=
  let s := coming p 4 s
  { s with fab := { s.fab with reqs := [(1, r)] } }
def pData : Packet := { packet 0x02 with payload := zeros 8 }
def toSpS : State := asking (.toSp 0 65528 1 (2 ^ 52) 8) pData world
theorem witness_data_sp : Here toSpS 0x02 pData ∧ toSpS.req pData.tag = some (.toSp 0 65528 1 (2 ^ 52) 8) ∧
    (toSpS.core (coreOf 0)).stopped = none ∧ (toSpS.core (coreOf 0)).rcache = [] :=
  ⟨is_here (by decide +kernel), by decide, by decide, by decide⟩
def toOqS : State := asking (.toOq 0 7 1 (2 ^ 52) 8) pData (world.setOq 0 7 { (default : OQ) with bound := some 0, flight := [(1, none)] })
theorem witness_data_oq : Here toOqS 0x02 pData ∧ toOqS.req pData.tag = some (.toOq 0 7 1 (2 ^ 52) 8) ∧
    (toOqS.core (coreOf 0)).stopped = none ∧ (toOqS.core (coreOf 0)).rcache = [] :=
  ⟨is_here (by decide +kernel), by decide, by decide, by decide +kernel⟩
def loadS : State := asking (.load 0 63 8 true 1 (2 ^ 52) 1) pData world
theorem witness_data_load : Here loadS 0x02 pData ∧ loadS.req pData.tag = some (.load 0 63 8 true 1 (2 ^ 52) 1) ∧
    (loadS.core (coreOf 0)).stopped = none ∧ (loadS.slot 0).hold = .none ∧ (∀ k, k < 8 → loadS.remByte 0 1 1 (2 ^ 52 + k) = none) ∧
    pData.offset ≤ 2 ^ 52 % 2 ^ 52 ∧ 2 ^ 52 % 2 ^ 52 + 8 ≤ pData.offset + pData.payload.length :=
  ⟨is_here (by decide +kernel), by decide, by decide, by decide, by decide +kernel, by decide, by decide⟩
/-- Slot 0 waits for tag 1. -/
def waiting1 : State := slotDo world (fun sl => { sl with hold := .remote 1 0, inHand := some world.cur })
theorem awaits {s : State} {cur : Cursor} (h : (s.core 0).stopped = none) (h1 : (s.slot 0).hold = .remote 1 0)
    (h2 : (s.slot 0).inHand = some cur) (h3 : (s.slot 0).latch = none) (h4 : (s.slot 0).npc = none) (h5 : (s.slot 0).loops = []) :
    AwaitsTag s 0 1 cur := ⟨h, h1, h2, h3, h4, h5⟩
def pResult : Packet := { packet 0x06 with operand := 9 }
def resultS : State := asking (.atomic 0 63 8) pResult waiting1
theorem witness_result : Here resultS 0x06 pResult ∧ resultS.req pResult.tag = some (.atomic 0 63 8) ∧ pResult.aux = 0 ∧
    AwaitsTag resultS 0 1 world.cur ∧ 63 < 64 :=
  ⟨is_here (by decide +kernel), by decide, by decide, awaits (by decide) (by decide) (by decide) (by decide) (by decide) (by decide),
    by decide⟩
def pNodeRes : Packet := { packet 0x31 with operand := 255, payload := zeros 8 }
def nodeS (op : Nat) : State := asking (.node 0 (NodeJob.of op 63)) pNodeRes waiting1
theorem witness_node_result : ∀ op, op = 0x70 ∨ op = 0x74 ∨ op = 0x75 → Here (nodeS op) 0x31 pNodeRes ∧
    (nodeS op).req pNodeRes.tag = some (.node 0 (NodeJob.of op 63)) ∧ (NodeJob.of op 63).op = op ∧ AwaitsTag (nodeS op) 0 1 world.cur ∧
    (NodeJob.of op 63).rd < 64 ∧ pNodeRes.operand.toNat < 256 := by
  rintro op (rfl | rfl | rfl) <;>
    exact ⟨is_here (by decide +kernel), by decide, by decide,
      awaits (by decide) (by decide) (by decide) (by decide) (by decide) (by decide), by decide, by decide⟩
def pAck : Packet := { packet 0x31 with payload := [] }
theorem witness_walk_ack : Here (asking (.walk 0 1) pAck (walking [] 1 true)) 0x31 pAck ∧
    (asking (.walk 0 1) pAck (walking [] 1 true)).req pAck.tag = some (.walk 0 1) ∧ pAck.operand = 0 :=
  ⟨is_here (by decide +kernel), by decide, rfl⟩
/-- An acknowledgement of the last of 4096 packets of a flow. -/
def pWack : Packet := { packet 0x04 with fseq := 4095, aux := 4 }
def ackS : State :=
  let s := coming pWack 4 world
  { s with fab := { s.fab with sendSeq := [(flowKey 0 4 1 1, 4096)] } }
theorem witness_ack : Here ackS 0x04 pWack ∧ Tbl.get 0 ackS.fab.sendSeq (flowKey (4 * pWack.score + pWack.sslot) (pWack.aux % 8)
    pWack.src pWack.tensor + (if bitOf pWack.aux 3 then 2 ^ 32 else 0)) = 4096 ∧ pWack.fseq < 4096 ∧ 4096 % 4096 = (pWack.fseq + 1) % 4096 :=
  ⟨is_here (by decide +kernel), by decide, by decide, by decide⟩
/-- The answer to the interval close of slot 0's task, a match and a mismatch. -/
def pIv (o : Nat) : Packet := { packet 0x21 with operand := BitVec.ofNat 64 o }
def fenceS (o : Nat) : State := asking (.fence 0 4 1 0 1 0) (pIv o) world
theorem witness_interval : ∀ o, o = 0 ∨ o = 1 → Here (fenceS o) 0x21 (pIv o) ∧
    (fenceS o).fab.reqs = [(1, .fence 0 4 (pIv o).src (pIv o).ctx (pIv o).tag (pIv o).interval)] ∧
    (fenceS o).findTask (pIv o).ctx (pIv o).tag = some (0, false) ∧ Runs (fenceS o) (coreOf 0) ∧
    (pIv o).operand.getLsbD 0 = decide (o = 1) ∧ (fenceS o).waiter 0 1 = none := by
  rintro o (rfl | rfl) <;> exact ⟨is_here (by decide +kernel), by decide, by decide, runs (by decide), by decide, by decide⟩
/-- A write of slot 0's task refused: for a fault, and for a tile that is not resident. -/
def pErr (o : Nat) : Packet := { packet 0x3F with tensor := 4095, offset := 2 ^ 52 - 8, aux := 0x03, operand := BitVec.ofNat 64 o }
theorem witness_error : ∀ o, o = 0x305 ∨ o = 2 ^ 31 + 2 ^ 32 → Here (coming (pErr o) 4 world) 0x3F (pErr o) ∧ (pErr o).aux = 0x03 ∧
    (world.slot (4 * (pErr o).score + (pErr o).sslot)).task = some task ∧ task.ctx = (pErr o).ctx ∧ task.seq = (pErr o).tag ∧
    Runs (coming (pErr o) 4 world) (coreOf 0) ∧ bitOf (pErr o).operand.toNat 31 = decide (o ≠ 0x305) ∧
    LeavesHere (coming (pErr o) 4 world) 0 ∧
    (pErr o).tensor < 4096 ∧ (pErr o).offset < 2 ^ 52 := by
  rintro o (rfl | rfl) <;> exact ⟨is_here (by decide +kernel), by decide, by decide, by decide, by decide, runs (by decide),
    by decide, leaves (by decide +kernel), by decide, by decide⟩

end Sys2Proof.Witness
end

