-- ==== Sys2Proof/Tests/WitnessN.lean ====
section
/-! SUPPORT. States and operands that meet the hypotheses of the statement about links, intervals and messages, clause by
clause. -/

namespace Sys2Proof.Witness
set_option Elab.async false
open Sys2Proof Sys2Proof.Machine Sys2Proof.Claim

/-! Links and intervals -/

/-- Port 127, whose next flit is 255; with seven refusals and none. -/
def flit (n : Nat) (ok : Bool) : State :=
  let s := withOcc world (fun o => { o with a := 127, b := 255, flag := ok })
  { s with fab := { s.fab with linkSeq := [(127, 255)], fails := [(127, n)] } }
theorem witness_flit : (flit 7 true).occ.a % 128 = 127 ∧ 127 ∉ (flit 7 true).fab.down ∧ (flit 7 true).occ.flag = true ∧
    (flit 7 true).occ.b % 256 = Tbl.get 0 (flit 7 true).fab.linkSeq 127 ∧
    ¬((flit 7 false).occ.flag = true ∧ (flit 7 false).occ.b % 256 = Tbl.get 0 (flit 7 false).fab.linkSeq 127) ∧
    7 ≤ Tbl.get 0 (flit 7 false).fab.fails 127 ∧ Tbl.get 0 (flit 6 false).fab.fails 127 < 7 :=
  ⟨by decide, by decide, by decide, by decide, by decide, by decide, by decide⟩
theorem witness_retrain : ∃ s, s = { flit 7 true with fab := { (flit 7 true).fab with down := [127] } } ∧ s.occ.a % 128 ∈ s.fab.down :=
  ⟨_, rfl, by decide⟩
/-- A packet for package 1, whose ports have more than 64 KiB queued for more than 2 us, takes its detour by package 8, the least
queued of the row. -/
def heldPkt : Packet := { (default : Packet) with type := 0x03, dst := 1 }
def detouring : State :=
  let s := withOcc world (fun o => { o with a := 8, c := 65537, d := 2101, pkt := heldPkt, nums := List.replicate 8 1 })
  { s with fab := { s.fab with outbox := [heldPkt] } }
theorem detour_route (k : Nat) : ∃ port, detouring.route k 1 = some (1, port) := by
  have h : ∀ x, (detouring.hops x 1).head? = some (1, List.range' 0 8) := fun x => by
    show (detouring.hops 0 1).head? = _
    decide +kernel
  exact ⟨_, by unfold State.route; rw [h]; rfl⟩
theorem witness_detour : ∃ port, heldPkt = detouring.occ.pkt ∧ detouring.fab.outbox = [heldPkt] ∧ heldPkt.detour = false ∧
    heldPkt.type ≠ 0x07 ∧ heldPkt.type ≠ 0x11 ∧
    detouring.route (flowKey (4 * heldPkt.score + heldPkt.sslot) (detouring.occ.b % 8) heldPkt.dst heldPkt.tensor) heldPkt.dst
      = some (1, port) ∧
    heldPkt.hops + (if detouring.fab.pkg / 9 = heldPkt.dst / 9 ∨ detouring.fab.pkg % 9 = heldPkt.dst % 9 then 1 else 2) ≤ 3 ∧
    65536 < detouring.occ.c ∧ 2 * 1050 < detouring.occ.d ∧ mayVia detouring 1 detouring.occ.a ∧
    ∀ k, k < 81 → mayVia detouring 1 k → nth 0 detouring.occ.nums detouring.occ.a ≤ nth 0 detouring.occ.nums k := by
  obtain ⟨port, h⟩ := detour_route (flowKey (4 * heldPkt.score + heldPkt.sslot) (detouring.occ.b % 8) heldPkt.dst heldPkt.tensor)
  exact ⟨port, rfl, rfl, rfl, by decide, by decide, h, by decide, by decide, by decide, by unfold mayVia; decide,
    by unfold mayVia; decide +kernel⟩
/-- An interval close that all its packets have come before, and one that is short. -/
def pClose (n : Nat) : Packet := { packet 0x20 with operand := BitVec.ofNat 64 n }
theorem witness_close : Here (coming (pClose 0) 4 world) 0x20 (pClose 0) ∧ (pClose 0).operand.toNat ≤ world.gotCount 1 0 1 0 ∧
    Here (coming (pClose 1) 4 world) 0x20 (pClose 1) ∧ world.gotCount 1 0 1 0 < (pClose 1).operand.toNat :=
  ⟨is_here (by decide +kernel), by decide, is_here (by decide +kernel), by decide⟩
def short (clk : Nat) : State :=
  let s := withOcc world (fun o => { o with a := 1, c := 1 })
  { s with clock := clk, fab := { s.fab with closes := [(0, pClose 1)] } }
theorem witness_short : ∀ clk, clk = 10499 ∨ clk = 10500 → (short clk).fab.closes.find? (fun e => e.2.src == (short clk).occ.a &&
    e.2.ctx == (short clk).occ.b && e.2.tag == (short clk).occ.c && e.2.interval == (short clk).occ.d) = some (0, pClose 1) ∧
    ((short clk).clock < 0 + 10 * 1050 ∨ 0 + 10 * 1050 ≤ (short clk).clock) := by
  rintro clk (rfl | rfl) <;> exact ⟨by decide, by decide⟩
/-- Slot 0's task has sent to package 1 for 100 us. -/
def timer : State := { world with clock := 105000, fab := { world.fab with sentCounts := [(0, 1, 1, 5)], ivStart := [(0, 1, 0)] } }
theorem witness_timer : timer.occ.a % 512 = 0 ∧ (timer.slot 0).task = some task ∧ (timer.core (coreOf 0)).stopped = none ∧
    100 ≤ timer.ivElapsed task ∧ (∃ e ∈ timer.fab.sentCounts, e.1 = task.ctx ∧ e.2.1 = task.seq) :=
  ⟨by decide, by decide, by decide, by decide +kernel, (0, 1, 1, 5), by decide, by decide, by decide⟩

/-! Messages -/

/-- A pull request of 4096 bytes, with a prefix of a unit, for slot 1023. -/
def pPullReq (n : Nat) : Packet := { packet 0x10 with tensor := 0, offset := 1, tag := 9, operand := BitVec.ofNat 64 (1023 * 2 ^ 16 + 4096 * 2 ^ 26 + n * 2 ^ 52) }
def posted (l : Tbl RecvSlot) : State := { world with fab := { world.fab with recvs := l } }
theorem witness_pull : ∀ n, n = 0 ∨ n = 1 → ∃ s, s = coming (pPullReq n) 4 (posted [(1023, recvSlot1)]) ∧ Here s 0x10 (pPullReq n) ∧
    (s.ctx (pPullReq n).ctx).block ≠ [] ∧ s.requests < 4096 ∧ s.recv (pPullReq n).ctx (reqSlot (pPullReq n)) = some recvSlot1 ∧
    recvSlot1.msg = none ∧ recvSlot1.posted = true ∧ recvSlot1.status = msOPEN ∧ reqSize (pPullReq n) ≤ rdCap recvSlot1.desc := by
  rintro n (rfl | rfl) <;>
    exact ⟨_, rfl, is_here (by decide +kernel), by decide, by decide, by decide +kernel, by decide, by decide, by decide,
      by decide +kernel⟩
theorem witness_pull_held : ∃ s, s = coming (pPullReq 0) 4 world ∧ Here s 0x10 (pPullReq 0) ∧ (s.ctx (pPullReq 0).ctx).block ≠ [] ∧
    s.requests < 4096 ∧ s.recv (pPullReq 0).ctx (reqSlot (pPullReq 0)) = none :=
  ⟨_, rfl, is_here (by decide +kernel), by decide, by decide, by decide +kernel⟩
/-- Slot 1023 with a message bound, eight clocks after the last token; with a window for one unit, and for none. -/
def boundSlot : RecvSlot := { recvSlot1 with status := msACTIVE, msg := some (1, 1, 9, 4096, 0) }
def granting (win clk : Nat) : State :=
  { posted [(1023, boundSlot)] with
    clock := clk, fab := { world.fab with recvs := [(1023, boundSlot)], gscfg := BitVec.ofNat 64 (win * 2 ^ 32 + 64 * 2 ^ 16) } }
theorem witness_grant_token : ∀ win, win = 4 ∨ win = 3 → ∃ rank arr, (∀ p ∈ (granting win 8).fab.inbox, p.type ≠ 0x10) ∧
    (granting win 8).fab.lastToken + 8 ≤ (granting win 8).clock ∧ pickReq (granting win 8).eligible = some (1023, 0, rank, arr) ∧
    (granting win 8).recv 0 1023 = some boundSlot ∧ boundSlot.msg = some (1, 1, 9, 4096, 0) ∧
    (granting win 8).wanted 0 1023 boundSlot = some (0, 1) ∧
    ((granting win 8).tokenBytes + runBytes 4096 0 1 ≤ fld (granting win 8).fab.gscfg.toNat 32 32 * 1024 ↔ win = 4) := by
  rintro win (rfl | rfl) <;>
    exact ⟨_, _, by decide, by decide, rfl, by decide +kernel, rfl, by decide +kernel, by decide +kernel⟩
theorem witness_token_early : (∀ p ∈ (granting 4 7).fab.inbox, p.type ≠ 0x10) ∧ (granting 4 7).clock < (granting 4 7).fab.lastToken + 8 :=
  ⟨by decide, by decide⟩
/-- A token for the one unit of an open message of 8 bytes. -/
def pToken : Packet := { packet 0x11 with tensor := 0, offset := 1, tag := 3, operand := BitVec.ofNat 64 (9 + 2 ^ 32) }
def openMsg : SendMsg := { sendMsg1 with status := msOPEN }
def tokenS : State := coming pToken 4 (withSends [openMsg])
theorem witness_token : ∃ m, Here tokenS 0x11 pToken ∧ tokenS.findMsg pToken.ctx pToken.offset (pToken.operand.toNat % 2 ^ 16) = some openMsg ∧
    (openMsg.status = msOPEN ∨ openMsg.status = msACTIVE) ∧
    tokenS.sendUnits openMsg pToken.tag (fld pToken.operand.toNat 16 16) (pToken.operand.toNat / 2 ^ 32) = some m := by
  have h : (tokenS.sendUnits openMsg pToken.tag (fld pToken.operand.toNat 16 16) (pToken.operand.toNat / 2 ^ 32)).isSome = true := by
    decide +kernel
  obtain ⟨m, hm⟩ := Option.isSome_iff_exists.mp h
  exact ⟨m, is_here (by decide +kernel), by decide +kernel, .inl rfl, hm⟩
/-- Token 0 at the last clock before its end, and at its end. -/
def tokens (clk : Nat) : State :=
  { posted [(1023, boundSlot)] with
    clock := clk, fab := { world.fab with recvs := [(1023, boundSlot)], tokens := [⟨0, 0, 1023, 0, 1, 0⟩] } }
theorem witness_token_end : (tokens 20999).fab.tokens.find? (fun t => t.id == (tokens 20999).occ.a) = some ⟨0, 0, 1023, 0, 1, 0⟩ ∧
    (tokens 20999).clock < 0 + 20 * 1050 ∧ 0 + 20 * 1050 ≤ (tokens 21000).clock := ⟨by decide, by decide, by decide⟩
theorem witness_orphan : ∃ s, s = withOcc (tokens 1050000) (fun o => { o with b := 1023 }) ∧ s.occ.a % 256 = 0 ∧ s.occ.b % 1024 = 1023 ∧
    s.recv 0 1023 = some boundSlot ∧ boundSlot.msg = some (1, 1, 9, 4096, 0) ∧ boundSlot.saved = false ∧ s.tokensOf 0 1023 ≠ [] ∧
    1000 * 1050 ≤ s.clock - boundSlot.orphanAt :=
  ⟨_, rfl, by decide, by decide, by decide +kernel, rfl, rfl, by decide, by decide⟩
/-- A cancel and a resume of that message, and a resume for a slot not posted. -/
def pNote (type : Nat) : Packet := { packet type with tensor := 0, offset := 1, tag := 9, operand := BitVec.ofNat 64 (1023 * 2 ^ 16) }
theorem witness_cancel : ∀ t, t = 0x13 ∨ t = 0x14 → ∃ s, s = coming (pNote t) 4 (tokens 0) ∧ Here s t (pNote t) ∧
    s.recv (pNote t).ctx (reqSlot (pNote t)) = some boundSlot ∧
    boundSlot.msg = some ((pNote t).src, (pNote t).offset, reqMid (pNote t), 4096, 0) ∧ s.fab.held = [] := by
  rintro t (rfl | rfl) <;> exact ⟨_, rfl, is_here (by decide +kernel), by decide +kernel, by decide, by decide⟩
theorem witness_resume : ∃ s, s = coming (pNote 0x14) 4 world ∧ Here s 0x14 (pNote 0x14) ∧ s.fab.held = [] ∧
    s.recv (pNote 0x14).ctx (reqSlot (pNote 0x14)) = none := ⟨_, rfl, is_here (by decide +kernel), by decide, by decide +kernel⟩
/-- A status of the message, of every value. -/
def pStatus (st : Nat) : Packet := { packet 0x15 with tensor := 0, offset := 1, tag := 9, operand := BitVec.ofNat 64 (st * 2 ^ 16) }
theorem witness_status : ∀ st, st = msACTIVE ∨ st = msFAULT → ∃ s, s = coming (pStatus st) 4 (withSends [openMsg]) ∧
    Here s 0x15 (pStatus st) ∧ s.findMsg (pStatus st).ctx (pStatus st).offset (reqMid (pStatus st)) = some openMsg ∧
    st = fld (pStatus st).operand.toNat 16 8 := by
  rintro st (rfl | rfl) <;> exact ⟨_, rfl, is_here (by decide +kernel), by decide +kernel, by decide⟩

end Sys2Proof.Witness
end

