-- ==== Sys2Proof/Tests/WitnessO.lean ====
section
/-! SUPPORT. States and operands that meet the hypotheses of the statements about engine entries, faults, drains and phases,
clause by clause. -/

namespace Sys2Proof.Witness
set_option Elab.async false
open Sys2Proof Sys2Proof.Machine Sys2Proof.Claim

/-! Engine entries -/

/-- A fired entry of the access engine of slot 0 that raises flags, or has found a fault, as old as the clock given. -/
def firedF (fl : Nat) (t : Option Trap) : InFlight := { (default : InFlight) with words := [7], flags := fl, trap := t, lat := 4 }
def firedS (f : InFlight) (clk : Nat) : State :=
  let s := withOcc (slotDo world (fun sl => { sl with eng := [(3, f)] })) (fun o => { o with b := 3 })
  { s with clock := clk }
theorem plain_entry {f : InFlight} {clk : Nat} (h : (firedS f clk).slot 0 = { (world.slot 0) with eng := [(3, f)] })
    (h1 : f.waits = [] ∧ f.acks = [] ∧ f.fence = false) (h2 : f.drain = false) (h3 : f.chosen = false)
    (h4 : f.advances = [] ∧ f.oqs = [] ∧ f.sched = false ∧ f.grant = 0)
    (h5 : ((firedS f clk).slot 0).hold ≠ .tdone ∧ ∀ v ∈ (firedS f clk).unitsOf 0, ((firedS f clk).slot v).faults = []) :
    PlainEntry (firedS f clk) 0 3 f := ⟨by rw [h]; rfl, h1, h2, h3, h4, h5⟩
theorem witness_entry : ∃ s f, s = firedS f 0 ∧ f = firedF 127 none ∧ s.occ.a % 512 = 0 ∧ s.occ.b = 3 ∧
    Runs s (coreOf 0) ∧ PlainEntry s 0 3 f ∧ f.trap = none ∧
    ∀ k, k < 7 → bitOf f.flags k = true → (s.slot 0).corectl (k + 4) = false :=
  ⟨_, _, rfl, rfl, by decide, by decide, runs (by decide), plain_entry rfl (by decide) rfl rfl (by decide) (by decide), rfl,
    by decide⟩
theorem witness_entry_trap : ∃ s f, s = firedS f 0 ∧ f = firedF 0 (some ⟨14, 255, 2 ^ 64 - 1⟩) ∧ PlainEntry s 0 3 f ∧
    Runs s (coreOf 0) ∧ f.trap = some ⟨14, 255, 2 ^ 64 - 1⟩ :=
  ⟨_, _, rfl, rfl, plain_entry rfl (by decide) rfl rfl (by decide) (by decide), runs (by decide), rfl⟩
/-- A streaming entry of the copy engine with two entries of ring 3 to take, or to put, of which the first may. -/
def streamF (prod : Bool) : InFlight := { (default : InFlight) with words := [7], stream := true, advances := [(3, prod, 2)] }
def streamS (prod : Bool) : State :=
  let s := slotDo world (fun sl => { sl with
    eng := [(2, streamF prod)], rings := [(3, ⟨0, 6, 0, 2, 7, 7, false, if prod then 2 ^ 32 - 1 else 3, if prod then 2 ^ 32 - 1 else 0, 0⟩)] })
  withOcc s (fun o => { o with b := 2 })
theorem witness_stream : ∀ prod, ∃ s f x, s = streamS prod ∧ f = streamF prod ∧ s.occ.a % 512 = 0 ∧ s.occ.b = 2 ∧ Runs s (coreOf 0) ∧
    (s.slot 0).eng.find? (fun x => x.1 == 2) = some (2, f) ∧ f.drain = false ∧ f.chosen = false ∧ f.stream = true ∧
    f.advances = (3, prod, 2) :: [] ∧ x = (s.slot 0).ring 3 ∧ x.via = 0 ∧ x.logn ≠ 0 ∧
    ownOk (if prod then x.prodown else x.consown) ((s.slot 0).owner 0 (Stream.ofNum (2 + 1))) = true ∧
    1 ≤ (if prod then x.room else x.occ) := by
  intro prod
  cases prod <;> exact ⟨_, _, _, rfl, rfl, by decide, by decide, runs (by decide), rfl, rfl, rfl, rfl, rfl, rfl, by decide, by decide,
    by decide, by decide⟩
theorem witness_watchdog : ∀ clk, clk = 52499999 ∨ clk = 52500000 → ∃ s f, s = firedS f clk ∧ f = firedF 0 none ∧
    s.occ.a % 512 = 0 ∧ s.occ.b = 3 ∧ Runs s (coreOf 0) ∧
    (s.slot 0).eng.find? (fun x => x.1 == 3) = some (3, f) ∧ (s.clock < f.clock + 50000 * 1050 ∨ f.clock + 50000 * 1050 ≤ s.clock) := by
  rintro clk (rfl | rfl) <;> exact ⟨_, _, rfl, rfl, by decide, by decide, runs (by decide), rfl, by decide⟩
/-- A wait for a watermark since clock 1, of the sequencer or of an engine. -/
def wmWait (key : Nat) : WmWait := { (default : WmWait) with key := key, since := 1 }
def wmState (key clk : Nat) : State :=
  let s := withOcc (slotDo world (fun sl => { sl with wm := [wmWait key] })) (fun o => { o with b := 3 })
  { s with clock := clk }
theorem witness_watermark_engine : ∃ s, s = wmState 4 52500001 ∧ s.occ.a % 512 = 0 ∧ s.occ.b = 3 ∧ Runs s (coreOf 0) ∧
    (s.slot 0).eng.find? (fun x => x.1 == 3) = none ∧ (s.slot 0).wm.find? (fun w => w.key = 3 + 1) = some (wmWait 4) ∧
    (wmWait 4).since + 50000 * 1050 ≤ s.clock :=
  ⟨_, rfl, by decide, by decide, runs (by decide), by decide, by decide, by decide⟩
theorem witness_watermark : ∀ clk, clk = 52500000 ∨ clk = 52500001 → ∃ s, s = wmState 0 clk ∧ s.occ.a % 512 = 0 ∧
    (s.slot 0).task.isSome = true ∧ Runs s (coreOf 0) ∧ (s.slot 0).wm.find? (fun w => w.key = 0) = some (wmWait 0) ∧
    (s.clock < (wmWait 0).since + 50000 * 1050 ∨ (wmWait 0).since + 50000 * 1050 ≤ s.clock) := by
  rintro clk (rfl | rfl) <;> exact ⟨_, rfl, by decide, by decide, runs (by decide), by decide, by decide⟩

/-! Faults -/

/-- A parity error at stream 4 of slot 0, of the greatest cause and subcause. -/
theorem witness_stop : ∃ s, s = withOcc world (fun o => { o with a := 0, b := 0, c := 4, d := 14 + 256 * 255 }) ∧ s.occ.a % 128 = 0 ∧
    0 = 4 * 0 + s.occ.b % 4 ∧ s.occ.d % 256 = 14 ∧ s.occ.d / 256 % 256 = 255 ∧ (s.slot 0).task.isSome = true ∧
    Runs s 0 ∧ StopsHere s 0 .acc :=
  ⟨_, rfl, by decide, by decide, by decide, by decide, by decide, runs (by decide), stops (by decide +kernel)⟩
/-- Core 0 stopped by slot 0, for the policy or in its hook; the context's policy, and a hook. -/
def stopOf (ph : Nat) : Stop := ⟨0, .seq, ⟨1, 0, 0⟩, 0, 0, ph, 1, false⟩
def halted (ph pol : Nat) : State :=
  let s := coreDo pooled (fun c => { c with stopped := some (stopOf ph) })
  ctxDo s (fun x => { x with block := (x.block.setNum 0x70 8 pol).setNum 0x78 4 5 })
theorem witness_policy : ∀ pol, pol = 0 ∨ pol = 1 ∨ pol = 2 ∨ pol = 3 → (halted 0 pol).occ.a % 128 = 0 ∧
    AwaitsPolicy (halted 0 pol) 0 (stopOf 0) ∧ ((halted 0 pol).ctx (stopOf 0).ctx).reg 0x70 8 % 4 = pol ∧
    ((halted 0 pol).ctx (stopOf 0).ctx).reg 0x78 4 ≠ 0 := by
  rintro pol (rfl | rfl | rfl | rfl) <;>
    exact ⟨by decide, ⟨by decide, rfl, rfl, by decide, by decide +kernel⟩, by decide +kernel, by decide +kernel⟩
def requeued : Option State := (({ halted 0 1 with hub := { (halted 0 1).hub with
  hooks := (halted 0 1).hub.hooks.filter (fun h => h.1 != 0) } } : State).setPhase 0 4).requeueCore 0
theorem witness_requeue : ∃ r, requeued = some r := by
  have h : requeued.isSome = true := by decide +kernel
  exact Option.isSome_iff_exists.mp h
/-- The hook answers each of its values, and another. -/
def hooked (v : Nat) : State := withOcc (halted 1 2) (fun o => { o with b := v })
theorem witness_hook : ∀ v, v = 1 ∨ v = 3 ∨ v = 4 → (hooked v).occ.a % 128 = 0 ∧ ((hooked v).core 0).stopped = some (stopOf 1) ∧
    (stopOf 1).phase = 1 ∧ (stopOf 1).drain = false ∧ (hooked v).slowOn 0 = false ∧ (hooked v).occ.nums = [] ∧ (hooked v).occ.b = v ∧ (hooked v).fab.sends = [] ∧
    ∀ k, k < 4 → ((hooked v).slot (4 * 0 + k)).gang = [] ∧ ((hooked v).slot (4 * 0 + k)).drain = none := by
  rintro v (rfl | rfl | rfl) <;> exact ⟨by decide, by decide, rfl, rfl, by decide +kernel, by decide, by decide, by decide, by decide⟩
/-- The hook at 50 us, and past it. -/
def lateHook (clk : Nat) : State := { hubDo (halted 1 2) (fun h => { h with hooks := [(0, 0, 0)] }) with clock := clk }
theorem witness_hook_late : (lateHook 52500).hub.hooks.find? (fun h => h.1 == 0) = some (0, 0, 0) ∧
    ((lateHook 52500).core 0).stopped = some (stopOf 1) ∧ (lateHook 52500).slowOn 0 = false ∧ (lateHook 52500).devTime ≤ 0 + 50000 ∧ 0 + 50000 < (lateHook 52502).devTime :=
  ⟨by decide, by decide, by decide +kernel, by decide +kernel, by decide +kernel⟩
theorem witness_tile_abort : world.occ.a % 512 = 0 ∧ (world.slot 0).task = some task ∧
    Runs world (coreOf 0) ∧ LeavesHere world 0 := ⟨by decide, by decide, runs (by decide), leaves (by decide +kernel)⟩
def parkedS : State := ctxDo world (fun x => { x with parked := [({ task with phase := 1 }, [(0, 0)])] })
theorem witness_tile_back : ∃ m, parkedS.occ.a % 256 = 0 ∧ (parkedS.ctx 0).parked = [({ task with phase := 1 }, [(parkedS.occ.b, parkedS.occ.c)])] ∧
    (parkedS.modCtx 0 (fun y => { y with parked := [] })).enqueue { task with phase := 1 } false = some m := by
  have h : ((parkedS.modCtx 0 (fun y => { y with parked := [] })).enqueue { task with phase := 1 } false).isSome = true := by decide +kernel
  obtain ⟨m, hm⟩ := Option.isSome_iff_exists.mp h
  exact ⟨m, by decide, by decide, hm⟩

/-! Drains, host atomics, phases -/

/-- A closed region with a store of a byte to the last of DRAM; the slot waits for the host's answer. -/
def drainS : State := slotDo world (fun sl => { sl with closed := [⟨.store 0 (2 ^ 52) [dramSize - 1] [7], 0, 0, 0, 0, 0⟩] })
theorem witness_drain : drainS.occ.a % 512 = 0 ∧ (drainS.core (coreOf 0)).stopped = none ∧
    (∀ v ∈ drainS.unitsOf 0, (drainS.slot v).faults = []) ∧
    (drainS.slot 0).closed = [⟨.store 0 (2 ^ 52) [dramSize - 1] [7], 0, 0, 0, 0, 0⟩] ∧ [dramSize - 1].Nodup ∧
    [dramSize - 1].length = [(7 : Byte)].length ∧ (∀ p ∈ [dramSize - 1], p < dramSize) :=
  ⟨by decide, by decide, by decide, by decide, by decide, by decide, by decide⟩
def hostS (ok : Bool) : State :=
  let s := slotDo world (fun sl => { sl with
    hold := .hostAtomic 63 8 0 1 none ((List.range 8).map (0x300000 + ·)) (2 * 2 ^ 52) 0, inHand := some world.cur })
  withOcc s (fun o => { o with flag := ok })
theorem witness_host_atomic : ∀ ok, (hostS ok).occ.a % 512 = 0 ∧ (hostS ok).hostOldest 0 = none ∧
    ((hostS ok).slot 0).hold = .hostAtomic 63 8 0 1 none ((List.range 8).map (0x300000 + ·)) (2 * 2 ^ 52) 0 ∧
    Runs (hostS ok) (coreOf 0) ∧ ((hostS ok).slot 0).inHand = some world.cur ∧ (hostS ok).occ.flag = ok ∧
    ((hostS ok).slot 0).latch = none ∧ ((hostS ok).slot 0).npc = none ∧ ((hostS ok).slot 0).loops = [] := by
  intro ok
  cases ok <;> exact ⟨by decide, by decide, by decide, runs (by decide), by decide, by decide, by decide, by decide, by decide⟩
/-- A host atomic of a drained region awaits its answer. -/
def hostHeldS : State :=
  let s := withOcc world (fun o => { o with flag := true, w := 2 ^ 64 - 1 })
  { s with fab := { s.fab with reqs := [(1, .hostHeld 0 0 (2 * 2 ^ 52) 0 1 128 1 ((List.range 8).map (0x300000 + ·)))] } }
theorem witness_host_held : hostHeldS.occ.a % 512 = 0 ∧
    hostHeldS.hostOldest 0 = some (1, .hostHeld 0 0 (2 * 2 ^ 52) 0 1 128 1 ((List.range 8).map (0x300000 + ·))) ∧
    hostHeldS.occ.flag = true ∧ 128 / 16 ≤ 8 ∧ (List.range 8).map (0x300000 + ·) = (List.range (128 / 16)).map (0x300000 + ·) :=
  ⟨by decide, by decide, by decide, by decide, by decide⟩
/-- A domain of one core at level 4, which stands at it, in a phase that communicates or not. -/
def phaseS (comm : Bool) (i : Nat) : State :=
  let s := coreDo world (fun c => { c with level := 4, arrive := some (4, []), phase := if comm then 7 else 0 })
  withOcc s (fun o => { o with a := i, flag := true })
def phaseEnds (s : State) (k : Nat) (ms : List Nat) : Bool :=
  (s.phaseFence (((s.endsWith k ms).filter (fun e => e.2.any (fun c => (s.core c).ph e.1))).flatMap (·.2))).2
theorem witness_phase : ∀ comm i, (comm = true ∨ comm = false) → i < 3 → 2 + (phaseS comm i).occ.a % 3 = 2 + i ∧
    (phaseS comm i).domain (2 + i) (if 2 + i = 2 then 32 * ((phaseS comm i).occ.b % 4) else 0) ((phaseS comm i).occ.c % 65536) = [0] ∧
    (∀ c ∈ [0], ((phaseS comm i).core c).standsAt (2 + i) = true ∧ ((phaseS comm i).core c).stopped = none ∧
      ((phaseS comm i).core c).raised = none) ∧
    (2 + i = 4 → (phaseS comm i).occ.flag = true) ∧ phaseEnds (phaseS comm i) (2 + i) [0] = true := by
  have h : ∀ i, i < 3 → i = 0 ∨ i = 1 ∨ i = 2 := by decide
  rintro comm i (rfl | rfl) hi <;> rcases h i hi with rfl | rfl | rfl <;>
    exact ⟨by decide, by decide +kernel, by decide, by decide, by decide +kernel⟩

end Sys2Proof.Witness
end

