-- ==== Sys2Proof/Tests/WitnessP.lean ====
section
/-! SUPPORT. States and operands that meet the hypotheses of the statements about the generation loop, a step, and decoding,
clause by clause. -/

namespace Sys2Proof.Witness
set_option Elab.async false
open Sys2Proof Sys2Proof.Machine Sys2Proof.Claim

/-! The generation loop -/

/-- A batch-table entry: command, greedy, group, temperature and probability 1, candidates, limit. -/
def entryBytes (cmd grp lim : Nat) : List Byte :=
  zeros 12 ++ leBytes 1 cmd ++ leBytes 1 1 ++ leBytes 1 0 ++ leBytes 1 grp ++ leBytes 4 0x3F800000 ++ leBytes 4 0x3F800000 ++ zeros 8 ++
    leBytes 8 0x903000 ++ zeros 16 ++ leBytes 4 lim ++ zeros 4
/-- Context 0 generates for one sequence, its table at 9 MiB, its records from 4080 on; one candidate token, the greatest. -/
def looping (b : List Byte) (f : GenLoop → GenLoop) : State :=
  let s := ctxDo world (fun x => { x with
    gen := f x.gen
    block := ((((((x.block.setNum 0x50 8 0x900000).setNum 0x58 8 0x901000).setNum 0x60 2 1).setNum 0x62 2 4080).setNum 0x68 8
      0x902000).setNum 0x08 8 0x800000).setNum 0x10 8 0x600000 })
  { s with dram := ((s.dram.setNum 0x600000 8 0x601000).store 0x900000 b).store 0x903000 (leBytes 4 1 ++ leBytes 2 0x100 ++ zeros 14 ++ leBytes 4 0xFFFFFFFF) }
def fed : State :=
  fedState ((looping (entryBytes 1 15 5) id).modGen 0 (fun x => { x with
    changed := false, recs := [], toks := [], nocand := false, entry := 1, phase := 1
    snap := Tbl.put x.snap 0 (entryBytes 1 15 5), todo := [0] })) 0 4095 (0x902000 + 8192 * 15) 0 0
theorem witness_loop_runs : ((looping (entryBytes 0 0 5) (fun g => { g with phase := 2 })).genOf 0).phase ≠ 0 := by decide
theorem witness_loop_idle : ∀ cmd, cmd = 0 ∨ cmd = 2 → ∃ s b, s = looping (entryBytes cmd 0 5) id ∧ (s.genOf 0).phase = 0 ∧
    (s.ctx 0).reg 0x60 2 = 1 ∧ b = s.dram.bytes ((s.ctx 0).reg 0x50 8) 64 ∧ blockF b 0 8 % 2 = 0 ∧ beOk b = true ∧ blockF b 12 1 ≠ 1 ∧
    blockF b 12 1 = cmd := by
  rintro cmd (rfl | rfl) <;>
    exact ⟨_, _, rfl, by decide, by decide +kernel, rfl, by decide +kernel⟩
theorem pair_snd {α β : Type} {p : α × β} {b : β} (h : p.2 = b) : p = (p.1, b) := Prod.ext rfl h
theorem witness_loop_feeds : ∃ s b x, s = looping (entryBytes 1 15 5) id ∧ (s.genOf 0).phase = 0 ∧ (s.ctx 0).reg 0x60 2 = 1 ∧
    b = s.dram.bytes ((s.ctx 0).reg 0x50 8) 64 ∧ b = entryBytes 1 15 5 ∧ blockF b 0 8 % 2 = 0 ∧ beOk b = true ∧ blockF b 12 1 = 1 ∧
    blockF b 15 1 = 15 ∧ 4095 = (s.ctx 0).reg 0x62 2 % 4096 + 15 ∧ s.recState 0 4095 = 0 ∧ Tbl.get 0 (s.genOf 0).tails 15 = 0 ∧
    (s.ctx 0).reg 0x68 8 + 8192 * 15 = 0x902000 + 8192 * 15 ∧ fed.armRecord 0 4095 = (x, 0) :=
  ⟨looping (entryBytes 1 15 5) id, entryBytes 1 15 5, (fed.armRecord 0 4095).1, rfl, by decide, by decide +kernel,
    by decide +kernel, rfl, by decide +kernel, by decide +kernel,
    by decide +kernel, by decide +kernel, by decide +kernel, by decide +kernel, by decide, by decide +kernel,
    pair_snd (by decide +kernel)⟩
/-- The launches have completed, and one token below the limit, and at it, is to be committed; a launch still runs. -/
def committing : State := looping (entryBytes 0 0 1) (fun g => { g with phase := 1, todo := [0], snap := [(0, entryBytes 0 0 1)] })
theorem witness_commit : ∃ b, b = Tbl.get [] (committing.genOf 0).snap 0 ∧ (committing.genOf 0).phase = 1 ∧
    (committing.genOf 0).recs = [] ∧ (committing.genOf 0).toks = [] ∧ (committing.genOf 0).nocand = false ∧
    (committing.genOf 0).todo = [0] ∧ blockF b 12 1 ≠ 2 ∧ blockF b 13 1 % 4 = 1 ∧ (committing.ctx 0).reg 0x7C 4 = 0 ∧
    committing.candidates (blockF b 32 8) = some [(0, 0xFFFFFFFF)] ∧ committing.dev (committing.btstat 0 0) 4 = 0 ∧ 0 < blockF b 56 4 :=
  ⟨_, rfl, by decide +kernel⟩
theorem witness_commit_waits : ∃ s, s = looping [] (fun g => { g with recs := [4080] }) ∧ 4080 ∈ (s.genOf 0).recs ∧
    (512 + 4080, 0) ∉ s.hub.dccIrq := ⟨_, rfl, by decide, by decide⟩
/-- The predicate has been called on entry 0 at device time 0. -/
def called (w : Nat) (kill : Bool) (clk : Nat) : State :=
  let s := looping [] (fun g => { g with phase := 2, snap := [(0, entryBytes 0 0 5)], toks := [9] })
  { withOcc s (fun o => { o with w := BitVec.ofNat 64 w, flag := kill }) with clock := clk }
theorem witness_predicate_called : ∀ w, w < 4 → LastEntry (called w false 0) 0 2 ∧ (called w false 0).occ.flag = false ∧
    (called w false 0).occ.w.toNat % 4 = w ∧ ((called w false 0).genOf 0).toks = [9] ∧
    (called w false 0).dev ((called w false 0).btstat 0 0) 4 < blockF (Tbl.get [] ((called w false 0).genOf 0).snap 0) 56 4 := by
  have h : ∀ w, w < 4 → w = 0 ∨ w = 1 ∨ w = 2 ∨ w = 3 := by decide
  intro w hw
  rcases h w hw with rfl | rfl | rfl | rfl <;> exact ⟨⟨by decide, by decide, by decide⟩, by decide +kernel⟩
theorem witness_predicate_end : LastEntry (called 0 true 2100) 0 2 ∧ (called 0 true 2100).occ.flag = true ∧
    ((called 0 true 2100).genOf 0).called + 2000 ≤ (called 0 true 2100).devTime ∧
    (called 0 true 2098).devTime < ((called 0 true 2098).genOf 0).called + 2000 :=
  ⟨⟨by decide, by decide, by decide⟩, by decide +kernel⟩

/-! A step -/

/-- Slot 0 at the last word of its program, a word given; in a piped loop whose stage is squashed. -/
def stepping (w : Nat) : State :=
  { slotDo world (fun sl => { sl with pc := 8 * 63, overlay := [(63, w)], seqLen := 64 }) with agenda := [.seq 0] }
def squashing : State := slotDo (stepping 0x0000000146020064) (fun sl => { sl with
  estage := 0, loops := [{ (default : LoopRec) with piped := true, start := 8 * 60, words := 8 * 4, ns := 1, n := 2 }] })
def fetchL (t : State) (u : Nat) : List Bool :=
  [(t.slot u).hold == .none, (t.slot u).latch.isNone, (t.slot u).inHand.isNone, (t.slot u).causes.isEmpty, !(t.slot u).uiReady,
    (t.slot u).pc % 8 == 0, decide ((t.slot u).pc < 8 * (t.slot u).seqLen)]
theorem fetches {t : State} {u : Nat} (h : allOf (fetchL t u) = true) : Fetches t u :=
  ⟨eq_of_beq (part h 0), none_of (part h 1), none_of (part h 2), nil_of (part h 3), false_of (part h 4), eq_of_beq (part h 5),
    of_decide_eq_true (part h 6)⟩
/-- The slot of a core that a statement's step finds, and the state in which it issues. -/
def picks (s : State) : Prop := s.agenda = .seq 0 :: [] ∧ s.mate = none ∧ (s.core 0).stopped = none ∧
  ((taken s [] 0).core 0).raised = none ∧ (taken s [] 0).pickSlot 0 = some 0
def atIssue (w : Nat) : State := issuing (stepping w) [] 0 0
def readWord (t : State) : Except Nat (Ctl × Instr) := decode .seq (wordAt t 0) (wordNext t 0)
def cinvClear (t : State) : Prop := (t.slot 0).pend.any (fun p => p.tag = cinvTag) = false
theorem witness_step : ∃ s t ctl i, s = stepping 0x0000000146020064 ∧ picks s ∧ t = issuing s [] 0 0 ∧ Fetches t 0 ∧
    readWord t = .ok (ctl, i) ∧ (t.slot 0).pc + i.len ≤ 8 * (t.slot 0).seqLen ∧
    (t.slot 0).squashed = false ∧ (t.slot 0).pfx = none ∧ cinvClear t :=
  ⟨stepping 0x0000000146020064, atIssue 0x0000000146020064, (got (readWord (atIssue 0x0000000146020064))).1,
    (got (readWord (atIssue 0x0000000146020064))).2, rfl, by unfold picks; decide +kernel, rfl, fetches (by decide +kernel),
    got_pair (by decide +kernel) rfl, by decide +kernel, by decide +kernel, by decide +kernel, by unfold cinvClear; decide +kernel⟩
/-- A load behind a prefix, which takes one. -/
def prefixed : State := withPfx (stepping 0x00004002C4C00000) default
theorem witness_step_prefixed : ∃ t ctl i, picks prefixed ∧ t = issuing prefixed [] 0 0 ∧ Fetches t 0 ∧
    readWord t = .ok (ctl, i) ∧ (t.slot 0).pc + i.len ≤ 8 * (t.slot 0).seqLen ∧ (t.slot 0).squashed = false ∧
    (t.slot 0).pfx ≠ none ∧ takesPfx i = true ∧ cinvClear t :=
  ⟨issuing prefixed [] 0 0, (got (readWord (issuing prefixed [] 0 0))).1, (got (readWord (issuing prefixed [] 0 0))).2,
    by unfold picks; decide +kernel, rfl, fetches (by decide +kernel), got_pair (by decide +kernel) rfl, by decide +kernel,
    by decide +kernel, by decide +kernel, by decide +kernel, by unfold cinvClear; decide +kernel⟩
theorem witness_step_squashed : ∃ t ctl i, picks squashing ∧ t = issuing squashing [] 0 0 ∧ Fetches t 0 ∧
    readWord t = .ok (ctl, i) ∧ (t.slot 0).pc + i.len ≤ 8 * (t.slot 0).seqLen ∧ (t.slot 0).squashed = true :=
  ⟨issuing squashing [] 0 0, (got (readWord (issuing squashing [] 0 0))).1, (got (readWord (issuing squashing [] 0 0))).2,
    by unfold picks; decide +kernel, rfl, fetches (by decide +kernel), got_pair (by decide +kernel) rfl, by decide +kernel,
    by decide +kernel⟩
/-- A word of no opcode, at the same place. -/
theorem witness_step_illegal : ∃ sub, picks (stepping 0x0000390000000000) ∧ Fetches (atIssue 0x0000390000000000) 0 ∧
    readWord (atIssue 0x0000390000000000) = .error sub ∧ Runs (atIssue 0x0000390000000000) (coreOf 0) := by
  have h : readAs (readWord (atIssue 0x0000390000000000)) = none := by decide +kernel
  cases e : readWord (atIssue 0x0000390000000000) with
  | ok x => rw [e] at h; cases h
  | error sub => exact ⟨sub, by unfold picks; decide +kernel, fetches (by decide +kernel), rfl, runs (by decide +kernel)⟩
/-- The access engine of core 0 at the last entry of slot 0's ring of 16, an AQCFG that waits for nothing, and one that takes from
semaphore 3, from which no other stream takes. -/
def engineStep (w : Nat) : State :=
  let s := slotDo world (fun sl => { sl with crings := [(3, ⟨0, 4, 0, 1, 7, 7, false, 16, 15, 0⟩)], sems := [(3, 1)] })
  { setSp s 120 8 w with agenda := [.engine 0 3] }
def engineLook (w : Nat) : State := looking (engineStep w) [] 0 3 (0, false)
def engineRead (w : Nat) : Nat := ((engineLook w).core 0).scratch.num (((engineLook w).view 0 false).cmdAddr 3 0) 8
def engineWord (w : Nat) : Except Nat (Ctl × Instr) := decode .acc (engineRead w) 0
def engineCur (w : Nat) : State :=
  { engineLook w with cur := ⟨0, .acc, (got (engineWord w)).1, engineRead w, 8, false⟩ }
def enginePicks (w : Nat) : Prop :=
  (engineStep w).agenda = .engine 0 3 :: [] ∧ (engineStep w).mate = none ∧ ((engineStep w).core 0).stopped = none ∧
    ((taken (engineStep w) [] 0).core 0).raised = none ∧ (taken (engineStep w) [] 0).owing 0 = none ∧
    (taken (engineStep w) [] 0).pickHead 0 3 = some (0, false) ∧ passes (engineWord w) = true
theorem witness_step_engine : enginePicks 0x0000200000000000 ∧
    firstTaker (engineStep 0x0000200000000000) (engineCur 0x0000200000000000) [] 0 3 (got (engineWord 0x0000200000000000)).2 ∧
    enginePicks 0x4300200000000000 ∧
    firstTaker (engineStep 0x4300200000000000) (engineCur 0x4300200000000000) [] 0 3 (got (engineWord 0x4300200000000000)).2 := by
  refine ⟨by unfold enginePicks; decide +kernel, fun n h => ?_, by unfold enginePicks; decide +kernel, fun n h => ?_⟩
  · have : semTaken (got (engineWord 0x0000200000000000)).2 (engineCur 0x0000200000000000) = none := by decide +kernel
    rw [this] at h; cases h
  · have : semTaken (got (engineWord 0x4300200000000000)).2 (engineCur 0x4300200000000000) = some 3 := by decide +kernel
    rw [this] at h; cases h
    decide +kernel
/-- The word behind a vector entry that has just fired. -/
def mateStep : State :=
  let s := slotDo world (fun sl => { sl with
    crings := [(0, ⟨0, 4, 0, 1, 7, 7, false, 16, 14, 0⟩)], eng := [(0, { (default : InFlight) with words := [7] })] })
  { setSp s 120 8 0x430000200C018120 with mate := some (0, false) }
def mateRead : Nat := (mateStep.core (coreOf 0)).scratch.num ((mateStep.view 0 false).cmdAddr 0 1) 8
theorem witness_step_mate : ∃ ctl i, mateStep.mate = some (0, false) ∧ (mateStep.core (coreOf 0)).stopped = none ∧
    2 ≤ ((mateStep.view 0 false).cring 0).occ ∧
    (mateStep.view 0 false).eng.any (fun x => x.1 == 0 && x.2.words.length == 1 && x.2.clock == mateStep.clock) = true ∧
    decode .vec mateRead 0 = .ok (ctl, i) :=
  ⟨(got (decode .vec mateRead 0)).1, (got (decode .vec mateRead 0)).2, rfl, by decide, by decide, by decide,
    got_pair (by decide +kernel) rfl⟩
theorem witness_step_event : ∃ s, s = { world with agenda := [.event .agingTick world.occ] } ∧
    s.agenda = .event .agingTick world.occ :: [] ∧ s.mate = none := ⟨_, rfl, rfl, rfl⟩
theorem witness_step_stopped : ∃ s, s = { halted 0 0 with agenda := [.seq 0, .engine 0 3] } ∧ s.mate = none ∧
    (s.core 0).stopped ≠ none ∧ s.agenda = .seq 0 :: [.engine 0 3] := ⟨_, rfl, rfl, by decide, rfl⟩

/-! Decoding -/

theorem witness_encoding : wordWf .vec ⟨.sem 3, .none, 2⟩ (.vadd ⟨0, 12, 3, 4, true, false, 0⟩) = true ∧
    encode ⟨.sem 3, .none, 2⟩ (.vadd ⟨0, 12, 3, 4, true, false, 0⟩) = [0x430000200C018120] := ⟨by decide, by decide +kernel⟩
theorem witness_decoding : ∃ c i, 0x000034000C003005 < 2 ^ 64 ∧ decode .seq 0x000034000C003005 0x0002000000002040 = .ok (c, i) :=
  ⟨(got (decode .seq 0x000034000C003005 0x0002000000002040)).1, (got (decode .seq 0x000034000C003005 0x0002000000002040)).2,
    by decide, got_pair (by decide +kernel) rfl⟩

end Sys2Proof.Witness
end

/-! SUPPORT. Every instruction answers.

`exec` dispatches to a few frames (`seqWord`, `closingWord`, `engWord`, …) and to hardware steps of their own. A frame answers
whatever the body of its word does, so each frame, and each hardware step, is looked at once. -/

section
namespace Sys2Proof.Machine
open Sys2Proof

/-- A step is not refused: it goes on, or stops at an address without memory (R7; log entry 9). -/
def Answers (o : Out) : Prop := (∃ t, o = .next t) ∨ ∃ a, o = .fault (.hole a)

theorem answers_next (t : State) : Answers (.next t) := .inl ⟨t, rfl⟩

/-- A hole is the only fault of the model. -/
theorem answers_fault (f : Fault) : Answers (.fault f) := by
  obtain ⟨a⟩ := f
  exact .inr ⟨a, rfl⟩

theorem Answers.ite {c : Prop} [Decidable c] {a b : Out} (ha : Answers a) (hb : Answers b) : Answers (if c then a else b) := by
  split
  · exact ha
  · exact hb

/-! The frames -/

theorem exitSeq_answers (s : State) (e : Exit) : Answers (exitSeq s e) := by
  cases e with
  | stop f => exact answers_fault f
  | trap _ | tile _ _ | wait _ | redo _ => exact answers_next _

theorem exitEng_answers (s : State) (e : Exit) : Answers (exitEng s e) := by
  cases e with
  | stop f => exact answers_fault f
  | tile _ _ => exact .ite (answers_next _) (answers_next _)
  | trap _ | wait _ | redo _ => exact answers_next _

theorem seqWord_answers (body : State → M State) (s : State) : Answers (seqWord body s) := by
  unfold seqWord
  split
  · exact answers_next _
  · exact exitSeq_answers _ _

theorem seqWordAnd_answers (body : State → M State) (last : State → State) (s : State) : Answers (seqWordAnd body last s) := by
  unfold seqWordAnd
  split
  · exact answers_next _
  · exact exitSeq_answers _ _

theorem seqWordTo_answers (body : State → M (State × NextPc)) (s : State) : Answers (seqWordTo body s) := by
  unfold seqWordTo
  split
  · exact answers_next _
  · exact exitSeq_answers _ _

theorem closingWord_answers (check : State → M Unit) (body : State → M State) (s : State) :
    Answers (closingWord check body s) := by
  unfold closingWord
  split
  · exact exitSeq_answers _ _
  · split
    · exact answers_next _
    · split
      · exact .ite (answers_next _) (answers_next _)
      · exact answers_next _
      · exact answers_next _
      · exact exitSeq_answers _ _

theorem engWord_answers (body : State → M (State × InFlight)) (s : State) : Answers (engWord body s) := by
  unfold engWord
  split
  · split
    · exact answers_next _
    all_goals exact exitEng_answers _ _
  · split
    · exact answers_next _
    · exact exitEng_answers _ _

theorem vrWord_answers (f : VR) (na : Nat) (useB useD : Bool) (lat long : Nat)
    (op : State → List Byte → List Byte → List Byte → List Byte × Nat) (s : State) :
    Answers (vrWord f na useB useD lat long op s) := engWord_answers _ _

theorem vecArith_answers (f : VR) (useD : Bool) (op : XR → XR → XR → XR) (s : State) : Answers (vecArith f useD op s) := by
  unfold vecArith
  exact vrWord_answers ..

theorem vecMove_answers (f : VR) (useB useD : Bool) (op : Fmt → Nat → Nat → Nat → Nat × Nat) (s : State) :
    Answers (vecMove f useB useD op s) := vrWord_answers ..

theorem vecInt_answers (f : VR) (useB : Bool) (lat : Nat) (op : Nat → Nat → Nat → Nat × Nat) (s : State) :
    Answers (vecInt f useB lat op s) := vrWord_answers ..

theorem vecTrans_answers (f : VR) (t : TransFn) (lat : Nat) (s : State) : Answers (vecTrans f t lat s) := vrWord_answers ..

theorem momWord_answers (f : VR) (two chkB nonlin : Bool) (lat long : Nat) (codes : Mom → List Nat)
    (op : XR → Mom → Mom → FM Mom) (s : State) : Answers (momWord f two chkB nonlin lat long codes op s) := engWord_answers _ _

theorem mtxWord_answers (i : Instr) (b : State → Claim → M (State × InFlight)) (s : State) : Answers (mtxWord i b s) :=
  engWord_answers _ _

theorem copyFire_answers (op : CopyOp) (d : CopyDesc) (ch : Nat) (bar : Option Nat) (missed : Option Trap)
    (fin : State → InFlight → M State) (s0 s : State) : Answers (copyFire op d ch bar missed fin s0 s) := by
  unfold copyFire
  dsimp only
  split
  · exact exitEng_answers _ _
  · split
    · exact exitEng_answers _ _
    · split
      · exact answers_next _
      · exact exitEng_answers _ _

theorem copyWord_answers (op : CopyOp) (f : CD) (s : State) : Answers (copyWord op f s) := by
  unfold copyWord
  dsimp only
  split
  · exact exitEng_answers _ _
  · exact copyFire_answers ..

theorem accDone_answers (s0 : State) (r : State × Option Exit × InFlight) : Answers (accDone s0 r) := by
  unfold accDone
  split
  · exact exitEng_answers _ _
  · split
    · exact answers_next _
    · exact exitEng_answers _ _

theorem accWord_answers {α : Type} (check : State → M (State × α)) (act : State → α → State × Option Exit × InFlight)
    (s : State) : Answers (accWord check act s) := by
  unfold accWord
  split
  · exact exitEng_answers _ _
  · exact accDone_answers _ _

theorem atomWord_answers (f : AR) (cas res : Bool) (s : State) : Answers (atomWord f cas res s) := by
  unfold atomWord
  exact accWord_answers _ _ _

theorem arriving_answers (type : Nat) (act : State → Packet → Ev) (s : State) : Answers (arriving type act s) := by
  refine .ite (answers_next _) (.ite (answers_next _) ?_)
  cases act s s.occ.pkt with
  | ok t => exact answers_next t
  | error f => exact answers_fault f

/-! Words with a frame of their own -/

theorem region_answers (f : SI) (s : State) : Answers (execRegion f s) := by
  refine .ite ?_ (seqWord_answers _ _)
  split
  · exact exitSeq_answers _ _
  · exact answers_next _

theorem waiti_answers (s : State) : Answers (execWaiti s) := by
  unfold execWaiti
  split
  · exact exitSeq_answers _ _
  · exact .ite (answers_next _) (answers_next _)

/-- What TDONE's frame answers is passed on, its next state once more changed. -/
theorem tdone_answers (s : State) : Answers (execTdone s) := by
  unfold execTdone
  dsimp only
  split
  · exact answers_next _
  · exact closingWord_answers _ _ _

theorem tyield_answers (s : State) : Answers (execTyield s) := by
  unfold execTyield
  dsimp only
  split
  · exact exitSeq_answers _ _
  · split
    · exact answers_next _
    · split
      · exact answers_next _
      · exact exitSeq_answers _ _

/-! Hardware steps that look something up before they act -/

theorem engineEntryComplete_answers (s : State) : Answers (execEngineEntryComplete s) := by
  refine .ite (answers_next _) ?_
  split
  · exact answers_next _
  · refine .ite (answers_next _) (.ite ?_ ?_)
    · dsimp only
      split
      · exact exitEng_answers _ _
      · exact answers_next _
    · dsimp only
      split
      · exact exitEng_answers _ _
      · exact answers_next _
      · split
        all_goals exact answers_next _

theorem aqStreamEntry_answers (s : State) : Answers (execAqStreamEntry s) := by
  unfold execAqStreamEntry
  dsimp only
  split
  · exact answers_next _
  · refine .ite (answers_next _) ?_
    split
    · exact answers_next _
    · exact answers_next _
    · exact answers_next _
    · exact answers_next _
    · exact exitEng_answers _ _

theorem reorderGapTimeout_answers (s : State) : Answers (execReorderGapTimeout s) := by
  unfold execReorderGapTimeout
  dsimp only
  split
  · exact answers_next _
  · refine .ite (answers_next _) ?_
    split
    · exact answers_fault _
    · exact answers_next _

theorem heldEffectDrain_answers (s : State) : Answers (execHeldEffectDrain s) := by
  unfold execHeldEffectDrain
  dsimp only
  split
  · exact answers_next _
  · refine .ite (answers_next _) ?_
    split
    · exact answers_next _
    · split
      all_goals exact answers_next _

theorem engineWatchdogExpire_answers (s : State) : Answers (execEngineWatchdogExpire s) := by
  refine .ite (answers_next _) ?_
  split
  · split
    · exact .ite (answers_next _) (answers_next _)
    · exact answers_next _
  · exact .ite (answers_next _) (answers_next _)

theorem hostAtomicCompletion_answers (s : State) : Answers (execHostAtomicCompletion s) := by
  unfold execHostAtomicCompletion
  dsimp only
  split
  · exact answers_next _
  · exact .ite (answers_next _) (.ite (answers_next _) (answers_next _))
  · exact answers_next _

theorem faultPolicyApply_answers (s : State) : Answers (execFaultPolicyApply s) := by
  unfold execFaultPolicyApply
  dsimp only
  split
  · exact answers_next _
  · refine .ite (answers_next _) ?_
    split
    · exact answers_next _
    · exact answers_next _
    · exact .ite (answers_next _) (answers_next _)
    · exact answers_next _

theorem walkerVisitNode_answers (s : State) : Answers (execWalkerVisitNode s) := by
  unfold execWalkerVisitNode
  split
  · exact answers_next _
  · split
    · exact .ite (answers_next _) (answers_next _)
    · exact .ite (answers_next _) (answers_next _)

theorem clockEventOverflow_answers (s : State) : Answers (execClockEventOverflow s) := by
  unfold execClockEventOverflow
  dsimp only
  split
  · exact .ite (answers_next _) (answers_next _)
  · exact .ite (answers_next _) (answers_next _)
  · exact answers_next _

/-! The dispatch -/

/-- Every arm of the dispatch answers, by its frame. -/
theorem exec_answers (i : Instr) (s : State) : Answers (exec i s) := by
  cases i with
  | add _ | sub _ | mul _ | mulh _ | mulhu _ | and _ | or _ | xor _ | shl _ | shr _ | sar _ | rol _ | min _ | max _
  | minu _ | maxu _ | div _ | divu _ | rem _ | remu _ | clz _ | popc _ | lea _ | li _ | lis _ | cmp _ | pnot _ | sel _
  | pmovRd _ | pmovWr _ | pmovSt _ | fma _ | fcmp _ | fcvt _ | br _ | jmp _ | call _ | trap _ | bkpt _ | ld _ | lds _
  | st _ | ldsp _ | stsp _ | fence _ | taglk _ | tagset _ | tagclr _ | tagclrAll _ | cinvL1 _ | cinvWb _ | cinvWbi _
  | rsld _ | rsst _ | enq _ | rel _ | ringsetCfg _ | ringsetDecl _ | ringsetProd _ | ringsetCons _ | ringsetOwn _
  | ringsetReset _ | ringget _ | semsig _ | semsigPeer _ | semwait _ | tlwait _ | tlread _ | lpatch _ | lstat _ | setdom _
  | cstat _ | tspawn _ | tspawnb _ | tcancel _ | treprio _ | tjoin _ | tquery _ | tself _ | nfree _ | nld _ | nst _
  | nvloss _ | nbackup _ | nkey _ | nlink _ | bfcfg _ | bfstat _ | bfflush _ | kvfree _ | kvlink _ | kvinvInv _
  | kvinvVal _ | kvpin _ | kvunpin _ | pfxhash _ | pfxevict _ | pfxevictAll _ | pmrd _ | trmark _ | trctlWr _ | trctlRd _
  | csrrd _ | csrwr _ | setview _ | granclr _ | timeDev _ | timeClk _ | ret | nop | uiret | bcmsnap | pand _ | por _
  | pxor _ | fadd _ | fsub _ | fmul _ | fmin _ | fmax _ | nselect _ => exact seqWord_answers _ _
  | pmcfg _ | pmclr _ =>
    dsimp only [exec, execPmcfg, execPmclr]
    exact seqWordAnd_answers _ _ _
  | loop _ _ | loopx _ => exact seqWordTo_answers _ _
  | larm _ | cstage _ | nalloc _ | kvalloc _ | pfxlook _ | pfxins _ | syscall _ | ncas _ => exact closingWord_answers _ _ _
  | dphase _ =>
    dsimp only [exec, execDphase]
    exact closingWord_answers _ _ _
  | atom _ => exact .ite (seqWord_answers _ _) (.ite (seqWord_answers _ _) (closingWord_answers _ _ _))
  | acas _ | nadd _ => exact .ite (seqWord_answers _ _) (closingWord_answers _ _ _)
  | vcvt _ | vnib _ | vbcast _ | viota _ | vld _ | vst _ | vldr _ | vstr _ | vgath _ | vscat _ | vzero _ | mfrom _
  | msplit _ | mcol _ | mchk _ | mlease _ | csched _ | cbarset _ | cchan _ | cchanOff _ | aqcfg _ | aqld _ | aqstop _
  | xsend _ | xpost _ | xcancel _ | xcancelRecv _ | xresume _ | rfence _ | cstop =>
    unfold exec
    exact engWord_answers _ _
  | vpermb _ | vshuf _ | vcomp _ | vrsum _ | vrmax _ | vrmin _ | vrargmax _ | vscan _ | vmaskb _ | vmov _ =>
    unfold exec
    exact vrWord_answers ..
  | vqnt _ | vdqnt _ =>
    dsimp only [exec, execVqnt, execVdqnt]
    exact vrWord_answers ..
  | vadd _ | vsub _ | vmul _ | vfma _ =>
    unfold exec
    exact vecArith_answers ..
  | vmin _ | vmax _ | vabs _ | vneg _ | vcmp _ | vsel _ | vclamp _ =>
    unfold exec
    exact vecMove_answers ..
  | viadd _ | visub _ | vimul _ | vimin _ | vimax _ | viminu _ | vimaxu _ | vicmp _ | vsadd _ | vssub _ | vmulsh _ | vand _
  | vor _ | vxor _ | vshl _ | vshr _ | vsar _ | vpopc _ =>
    unfold exec
    exact vecInt_answers ..
  | vexp2 _ | vlog2 _ | vrcp _ | vrsq _ | verf _ | vtanh _ | vsigm _ =>
    unfold exec
    exact vecTrans_answers ..
  | madd _ | msub _ | mmul _ | mscl _ | maff _ | mrelu _ | msigm _ | mexp _ | mtanh _ | mmax2 _ =>
    unfold exec
    exact momWord_answers ..
  | mcfg _ | mbld _ | mbcsr _ | mstr _ | mstrm _ | maccld _ | mzero _ | mdrain _ | mepi _ | mheaprd _ | mheapclr _
  | msave _ | mchainOpen _ | mfree | mbsq | mbswap | mchainClose =>
    unfold exec
    exact mtxWord_answers ..
  | ccopy _ | cfill _ | cmcast _ | cplace _ =>
    unfold exec
    exact copyWord_answers _ _ _
  | scheduleEntryFire =>
    dsimp only [exec, execScheduleEntryFire]
    exact .ite (answers_next _) (copyFire_answers ..)
  | rld _ | rst _ | rmcst _ =>
    dsimp only [exec, execRld, execRst, execRmcst]
    exact accWord_answers _ _ _
  | ratom _ | rcas _ =>
    unfold exec
    exact atomWord_answers ..
  | readPacket | readDataPacket | writePacket | writeAckPacket | atomicPacket | atomicResultPacket | multicastWritePacket
  | pullRequestPacket | tokenPacket | pullDataPacket | messageCancelPacket | resumePacket | messageStatusPacket
  | intervalClosePacket | intervalResultPacket | nodeOperationPacket | nodeResultPacket | errorPacket =>
    unfold exec
    exact arriving_answers _ _ _
  | syscallReply | laneTrainingLoss | dispatchTask | batchArm | restoreSlot | contextBlockWrite | kvpagesWrite | pfx _
  | packageReset | patrolScrub | debugStopRelease | tileResidentRequeue => exact answers_next _
  | syscallTimeout | stealExchange | fabricTrained | firmwareRecoveryLoad | budgetRebalance | portRetrain
  | intervalTimerExpire | segmentRefill | agingTick | tileFaultAbort | traceSample | invalidationComplete
  | debugStopRequest | packageNumberWrite | firmwareUpdateActivate | dieOffered | dieCharacterised | userInterruptEntry
  | coreStopFault | predicateTimeout | genLoopIteration | genLoopSampleCommit | commitPredicateReturn | batchWindowExpire
  | attestationRequest => exact .ite (answers_next _) (answers_next _)
  | invctlWrite | timeSyncSample | domainPhaseEnd => exact .ite (answers_next _) (.ite (answers_next _) (answers_next _))
  | flitReceive | worldSwitch | tttFire =>
    exact .ite (answers_next _) (.ite (answers_next _) (.ite (answers_next _) (answers_next _)))
  | hostBar2Access =>
    exact .ite (answers_next _) (.ite (answers_next _) (.ite (answers_next _) (.ite (answers_next _) (answers_next _))))
  | region _ => exact region_answers _ _
  | waiti => exact waiti_answers _
  | tdone => exact tdone_answers _
  | tyield => exact tyield_answers _
  | engineEntryComplete => exact engineEntryComplete_answers _
  | aqStreamEntry => exact aqStreamEntry_answers _
  | reorderGapTimeout => exact reorderGapTimeout_answers _
  | heldEffectDrain => exact heldEffectDrain_answers _
  | engineWatchdogExpire => exact engineWatchdogExpire_answers _
  | hostAtomicCompletion => exact hostAtomicCompletion_answers _
  | faultPolicyApply => exact faultPolicyApply_answers _
  | walkerVisitNode => exact walkerVisitNode_answers _
  | clockEventOverflow => exact clockEventOverflow_answers _
  | interlockedResultWrite | launchStart | launchComplete =>
    dsimp only [exec, execInterlockedResultWrite, execLaunchStart, execLaunchComplete]
    split
    all_goals exact answers_next _
  | currentGrant | leaseRunEnd | watermarkWatchdog | joinDecrement | tokenExpire | orphanTimeout | packetDetour
  | faultHookReturn =>
    dsimp only [exec, execCurrentGrant, execLeaseRunEnd, execWatermarkWatchdog, execJoinDecrement, execTokenExpire,
      execOrphanTimeout, execPacketDetour, execFaultHookReturn]
    split
    · exact answers_next _
    · exact .ite (answers_next _) (answers_next _)
  | intervalShortTimeout | tokenGrant | faultHookTimeout =>
    dsimp only [exec, execIntervalShortTimeout, execTokenGrant, execFaultHookTimeout]
    split
    · exact .ite (answers_next _) (answers_next _)
    · exact answers_next _
  | leaseRunGrant | bar0RegisterWrite =>
    refine .ite (answers_next _) ?_
    split
    all_goals exact answers_next _
  | preemptSlot =>
    refine .ite (answers_next _) (.ite (answers_next _) ?_)
    split
    all_goals exact answers_next _

/-- Settles O60: every arm of `exec` is a frame or a hardware step that answers. The stop at an address without memory is the
model's choice (R7; log entry 9). -/
theorem noInstructionIsRefused : Obligations.NoInstructionIsRefused := exec_answers

end Sys2Proof.Machine
end

/-! SUPPORT. Faults of engine entries and of waits: a raised fault stands on its core. -/

section
namespace Sys2Proof.Machine
open Sys2Proof Sys2Proof.Claim

/-! Tables searched by key -/

theorem Tbl.find?_put {β : Type} (t : Tbl β) (k : Nat) (v : β) : (Tbl.put t k v).find? (fun x => x.1 == k) = some (k, v) := by
  induction t with
  | nil => simp [Tbl.put]
  | cons p t ih =>
    obtain ⟨a, b⟩ := p
    unfold Tbl.put
    split
    · simp
    · split
      · simp
      · next h => simpa [h] using ih

theorem Tbl.find?_del {β : Type} (t : Tbl β) (k : Nat) : (Tbl.del t k).find? (fun x => x.1 == k) = none := by
  induction t with
  | nil => rfl
  | cons p t ih =>
    obtain ⟨a, b⟩ := p
    unfold Tbl.del
    split
    · exact ih
    · next h => simpa [h] using ih

/-! A fault of a running core -/

theorem runs_of_cores {s t : State} {c : Nat} (h : t.cores = s.cores) (hr : Runs s c) : Runs t c := by
  unfold Runs at *
  rwa [core_of_cores h]

/-- An entry that is not of a draining ring acts for the slot itself (R202). -/
@[simp] theorem view_own (s : State) (u : Nat) : s.view u false = s.slot u := rfl
@[simp] theorem setView_own (s : State) (u : Nat) (sl : Slot) : s.setView u false sl = s.setSlot u sl := rfl

theorem setView_cores (s : State) (u : Nat) (d : Bool) (sl : Slot) : (s.setView u d sl).cores = s.cores := by
  cases d <;> rfl

theorem unfire_cores (s : State) (u e : Nat) (d : Bool) : (s.unfire u e d).cores = s.cores := by
  unfold State.unfire
  dsimp only
  split
  · rfl
  · rw [setView_cores]
    split
    · rfl
    · rfl

theorem passClock_cores (s : State) (u : Nat) (m : Stream) (d : Bool) : (s.passClock u m d).cores = s.cores := rfl

/-- Once nothing stands against it, the stop is made. -/
theorem stopNow_stopped (s : State) (st : Stop) : ((s.stopNow st).core (coreOf st.slot)).stopped = some st := by
  unfold State.stopNow
  dsimp only [State.modCore_eq]
  exact congrArg CoreSt.stopped ((State.core_setCore ..).trans (if_pos rfl))

/-- A raised stop of a core is made, or stays raised. -/
theorem tryStop_raised {s : State} {c at_ : Nat} {st : Stop} (hc : coreOf st.slot = c)
    (h : (s.core c).raised = some (st, at_)) :
    ((s.tryStop c).core c).stopped = some st ∨ ((s.tryStop c).core c).raised = some (st, at_) := by
  subst hc
  unfold State.tryStop
  rw [h]
  dsimp only
  split
  · exact .inr h
  · exact .inl (stopNow_stopped s st)

theorem stopAt_raised (s : State) (c at_ : Nat) (st : Stop) : ((s.stopAt c st at_).core c).raised = some (st, at_) := by
  simp [State.stopAt]

/-- A fault of a core that runs is the one it stops for (R129). -/
theorem coreStop_raises {s : State} {u : Nat} (hr : Runs s (coreOf u)) (m : Stream) (t : Trap) (w : Nat) (d : Bool) :
    raisedBy (s.coreStop u m t w d) (coreOf u) u m t := by
  obtain ⟨hs, hr⟩ := hr
  have hr' : ((s.passClock u m d).core (coreOf u)).raised = none := hr
  unfold State.coreStop
  simp only [hs, hr', Option.isSome_none, Bool.false_eq_true, if_false]
  obtain h | h := tryStop_raised (c := coreOf u) rfl (stopAt_raised (s.passClock u m d) (coreOf u) (s.passClock u m d).clock
    ⟨u, m, t, w, (s.view u d).ctx, 0, (s.view u d).tk.seq, d⟩)
  · exact ⟨_, .inl h, rfl, rfl, rfl⟩
  · exact ⟨_, .inr ⟨_, h⟩, rfl, rfl, rfl⟩

/-! The engine a hardware step names -/

theorem bitOf_two_of_lt {e : Nat} (h : e < 4) : bitOf e 2 = false := by
  unfold bitOf
  rw [Nat.div_eq_of_lt (by omega)]
  rfl

theorem num_ofNum {e : Nat} (h : e < 4) : (Stream.ofNum (e + 1)).num = e + 1 :=
  match e, h with
  | 0, _ | 1, _ | 2, _ | 3, _ => rfl

/-! Watchdogs (R480, R319) -/

/-- Before its 50 ms a fired entry goes on; then it stays unfinished, and its core stops. -/
theorem engineWatchdogExpire_fired {s : State} {u e : Nat} {f : InFlight} (hu : s.occ.a % 512 = u) (hb : s.occ.b = e)
    (he : e < 4) (hr : Runs s (coreOf u)) (hf : (s.slot u).eng.find? (fun x => x.1 == e) = some (e, f)) :
    (s.clock < f.clock + usClk 50000 → exec .engineWatchdogExpire s = .next s) ∧
    (f.clock + usClk 50000 ≤ s.clock → ∃ r, exec .engineWatchdogExpire s = .next r ∧
      raisedBy r (coreOf u) u (Stream.ofNum (e + 1)) ⟨cWATCHDOG, e + 1, 0⟩) := by
  subst hb hu
  have hd := bitOf_two_of_lt he
  have hm := Nat.mod_eq_of_lt he
  have hz : b2n false = 0 := rfl
  unfold exec execEngineWatchdogExpire
  simp only [hd, hm, hz, hr.1, view_own, hf, Option.isSome_none, Bool.false_and, Bool.or_self, Bool.false_eq_true, if_false,
    Nat.mul_zero]
  refine ⟨fun h => if_pos h, fun h => ?_⟩
  rw [if_neg (Nat.not_lt.mpr h)]
  refine ⟨_, rfl, coreStop_raises (runs_of_cores (s := s) ?_ hr) _ _ _ _⟩
  split
  · rw [setView_cores, unfire_cores]
  · rw [unfire_cores]

/-- A watermark wait of 50 ms before an entry fires stops the core. -/
theorem engineWatchdogExpire_waiting {s : State} {u e : Nat} {w : WmWait} (hu : s.occ.a % 512 = u) (hb : s.occ.b = e)
    (he : e < 4) (hr : Runs s (coreOf u)) (hf : (s.slot u).eng.find? (fun x => x.1 == e) = none)
    (hw : (s.slot u).wm.find? (fun w => w.key = e + 1) = some w) (ht : w.since + usClk 50000 ≤ s.clock) :
    ∃ r, exec .engineWatchdogExpire s = .next r ∧ raisedBy r (coreOf u) u (Stream.ofNum (e + 1)) ⟨cWATCHDOG, e + 1, 0⟩ := by
  subst hb hu
  have hd := bitOf_two_of_lt he
  have hm := Nat.mod_eq_of_lt he
  have hz : b2n false = 0 := rfl
  unfold exec execEngineWatchdogExpire
  simp only [hd, hm, hz, hr.1, view_own, hf, num_ofNum he, Option.isSome_none, Bool.false_and, Bool.or_self,
    Bool.false_eq_true, if_false, Nat.mul_zero, Nat.add_zero, hw]
  rw [if_neg (Nat.not_lt.mpr ht)]
  refine ⟨_, rfl, coreStop_raises (runs_of_cores (s := s) ?_ hr) _ _ _ _⟩
  rfl

/-- A sequencer word that has waited 50 ms on a watermark stops its core. -/
theorem watermarkWatchdog_waiting {s : State} {u : Nat} {w : WmWait} (hu : s.occ.a % 512 = u)
    (hx : (s.slot u).task.isSome = true) (hr : Runs s (coreOf u))
    (hw : (s.slot u).wm.find? (fun w => w.key = 0) = some w) :
    (s.clock < w.since + usClk 50000 → exec .watermarkWatchdog s = .next s) ∧
    (w.since + usClk 50000 ≤ s.clock → ∃ r, exec .watermarkWatchdog s = .next r ∧
      raisedBy r (coreOf u) u .seq ⟨cWATCHDOG, 0, 0⟩) := by
  subst hu
  have hx' : (s.slot (s.occ.a % 512)).task.isNone = false := by simpa using hx
  unfold exec execWatermarkWatchdog
  simp only [hw, hx', hr.1, Option.isSome_none, Bool.false_or, Bool.or_false, decide_eq_true_eq]
  refine ⟨fun h => if_pos h, fun h => ?_⟩
  rw [if_neg (Nat.not_lt.mpr h)]
  refine ⟨_, rfl, coreStop_raises (runs_of_cores (s := s) ?_ hr) _ _ _ _⟩
  rfl

end Sys2Proof.Machine
end
/-! SUPPORT. A plain engine entry completes (R181). -/

section
namespace Sys2Proof.Machine
open Sys2Proof Sys2Proof.Claim

/-! What completion leaves of the slot -/

/-- The slot of a completed entry of engine `e` with the engine free again and the entry's flags in (R81, R181). -/
def Slot.entryFlags (sl : Slot) (e : Nat) (f : InFlight) : Slot :=
  let sl := { sl with eng := Tbl.del sl.eng e }
  let sl := if e = 3 then { sl with accIdx := 0 } else sl
  sl.modCsr (fun c => { c with
    aflags := c.aflags ||| BitVec.ofNat 7 f.flags
    mctl := if f.clamped then c.mctl ||| 8#64 else c.mctl })

/-- And with the timeline and the command ring gone on by the entry's words (R25, R35): all but its signals. -/
def Slot.entryOver (sl : Slot) (e : Nat) (f : InFlight) : Slot :=
  let sl := sl.entryFlags e f
  let r := sl.cring e
  { (sl.setTl e (sl.tl e + BitVec.ofNat 64 f.words.length)) with
    crings := Tbl.put sl.crings e { r with cons := (r.cons + f.words.length) % 2 ^ 32 } }

/-- And with its signals put in place: all a plain entry does in its slot. -/
def Slot.entryLeft (sl : Slot) (now e : Nat) (f : InFlight) : Slot :=
  f.signals.foldl (fun sl c => sl.putSignal c now 0 now) (sl.entryOver e f)

/-- The events of a completed entry are counted (R465). -/
def State.countEntry (s : State) (u e : Nat) (f : InFlight) : State :=
  match e with
  | 0 => s.count0 (coreOf u) 0x04 (some (u % 4)) f.words.length
  | 1 => s.count0 (coreOf u) 0x05 (some (u % 4)) 1
  | _ => s

/-- The state a plain entry without a fault leaves: its results are written, its slot has gone on, and it is counted. -/
def State.entryDone (s : State) (u e : Nat) (f : InFlight) : State :=
  ((s.modCore (coreOf u) (fun c => c.entryRegs f)).setSlot u ((s.slot u).entryLeft s.clock e f)).countEntry u e f

section
variable (sl : Slot) (e : Nat) (f : InFlight)

theorem entryOver_eng : (sl.entryOver e f).eng.find? (fun x => x.1 == e) = none := by
  unfold Slot.entryOver Slot.entryFlags
  split <;> exact Tbl.find?_del sl.eng e

theorem entryOver_tl : (sl.entryOver e f).tl e = sl.tl e + BitVec.ofNat 64 f.words.length := by
  unfold Slot.entryOver Slot.entryFlags
  split <;> exact (Slot.tl_setTl ..).trans (if_pos rfl)

theorem entryOver_cons : ((sl.entryOver e f).cring e).cons = ((sl.cring e).cons + f.words.length) % 2 ^ 32 := by
  unfold Slot.entryOver Slot.entryFlags
  split <;> exact congrArg Ring.cons ((Tbl.get_put ..).trans (if_pos rfl))

theorem entryOver_aflags : (sl.entryOver e f).csr.aflags = sl.csr.aflags ||| BitVec.ofNat 7 f.flags := by
  unfold Slot.entryOver Slot.entryFlags
  split <;> rfl

/-- Signals change what is in flight alone. -/
theorem entryLeft_frame (now : Nat) : (sl.entryLeft now e f).frame = (sl.entryOver e f).frame :=
  foldl_rel (fun a b : Slot => b.frame = a.frame) (fun _ => rfl) (fun _ _ _ h h' => h'.trans h) _
    (fun a c => (putSignal_frame a c now 0 now).1) f.signals (sl.entryOver e f)

/-- Who holds the slot, and what it waits for, is as before. -/
theorem entryOver_stands : (sl.entryOver e f).task = sl.task ∧ (sl.entryOver e f).gang = sl.gang ∧
    (sl.entryOver e f).hold = sl.hold ∧ (sl.entryOver e f).faults = sl.faults := by
  unfold Slot.entryOver Slot.entryFlags
  split <;> exact ⟨rfl, rfl, rfl, rfl⟩

end

/-- A fault found in the entry's work leaves it unfinished (R248). -/
theorem completeEntry_trap (s : State) (u e : Nat) {f : InFlight} {t : Trap} (h : f.trap = some t) :
    s.completeEntry u e f = (s.unfire u e f.drain, some t) := by
  unfold State.completeEntry
  rw [h]

/-- A plain entry without a fault writes its results, ends in its slot with its signals, and is counted (R101, R181). -/
theorem completeEntry_plain {s : State} {u e : Nat} {f : InFlight} (hp : PlainEntry s u e f) (ht : f.trap = none)
    (hq : ((s.slot u).entryFlags e f).trapFlag f.flags = none) :
    s.completeEntry u e f = (s.entryDone u e f, none) := by
  obtain ⟨hadv, hoqs, hsched, hgrant⟩ := hp.moves
  have hown := hp.own
  clear hp
  obtain ⟨words, signals, reads, writes, clears, flags, clamped, advances, stream, oqs, trap, waits, clock, again, drain, sched,
    grant, banks, lat, long, acks, fence, desc⟩ := f
  dsimp only at *
  subst hadv hoqs hsched hgrant hown ht
  change (State.countEntry (State.setSlot _ u
    (if ((Slot.trapFlag (Slot.entryFlags (s.slot u) e _) flags).map _).isNone && !false then _ else _)) u e _,
    (Slot.trapFlag (Slot.entryFlags (s.slot u) e _) flags).map _) = _
  rw [hq]
  rfl

theorem entryFlags_untrapped {sl : Slot} (e : Nat) {f : InFlight}
    (h : ∀ k, k < 7 → bitOf f.flags k = true → sl.corectl (k + 4) = false) :
    (sl.entryFlags e f).trapFlag f.flags = none := by
  have hc : (sl.entryFlags e f).csr.corectl = sl.csr.corectl := by
    unfold Slot.entryFlags
    split <;> rfl
  refine List.find?_eq_none.mpr fun k hk => ?_
  have hk := h k (List.mem_range.mp hk)
  unfold Slot.corectl at hk ⊢
  rw [hc]
  simpa using hk

/-- Counting moves counters and traces alone. -/
theorem countEntry_frame (s : State) (u e : Nat) (f : InFlight) : (s.countEntry u e f).rest = s.rest ∧
    (∀ d, ((s.countEntry u e f).core d).quiet = (s.core d).quiet) ∧ (s.countEntry u e f).slots = s.slots := by
  unfold State.countEntry
  split
  · exact count0_frame ..
  · exact count0_frame ..
  · exact ⟨rfl, fun _ => rfl, rfl⟩

/-- What a plain entry without a fault has changed in `r`: its slot, up to signals in flight, and its core, up to counters. -/
structure EntryDone (s r : State) (u e : Nat) (f : InFlight) : Prop where
  clock : r.clock = s.clock
  dram : r.dram = s.dram
  slot : (r.slot u).frame = ((s.slot u).entryOver e f).frame
  others : ∀ v, v ≠ u → r.slot v = s.slot v
  core : (r.core (coreOf u)).quiet = ((s.core (coreOf u)).entryRegs f).quiet

theorem entryDone_leaves (s : State) (u e : Nat) (f : InFlight) : EntryDone s (s.entryDone u e f) u e f := by
  unfold State.entryDone
  obtain ⟨hrest, hcores, hslots⟩ := countEntry_frame
    ((s.modCore (coreOf u) (fun c => c.entryRegs f)).setSlot u ((s.slot u).entryLeft s.clock e f)) u e f
  refine ⟨?_, ?_, ?_, fun v hv => ?_, ?_⟩
  · exact (congrArg State.clock hrest :)
  · exact (congrArg State.dram hrest :)
  · rw [slot_of_slots hslots, State.slot_setSlot, if_pos rfl]
    exact entryLeft_frame ..
  · rw [slot_of_slots hslots, State.slot_setSlot, if_neg hv]
    rfl
  · rw [hcores, State.core_setSlot, State.modCore_eq, State.core_setCore, if_pos rfl]

/-- Nothing waits for the entries of the slot: no TDONE, no tile fault, no raised stop. -/
theorem afterEntry_quiet {s : State} {u : Nat} (hh : (s.slot u).hold ≠ .tdone) (hf : ∀ v ∈ s.unitsOf u, (s.slot v).faults = [])
    (hr : (s.core (coreOf u)).raised = none) : s.afterEntry u false = s := by
  have hend : s.tryEnd u = s := by
    unfold State.tryEnd
    simp [hh]
  have hleave : s.tryLeave u = s := by
    unfold State.tryLeave
    exact if_pos (List.all_eq_true.mpr fun v hv => by rw [hf v hv]; rfl)
  unfold State.afterEntry State.tryStop
  simp only [Bool.false_eq_true, if_false, hend, hleave, hr]

/-- The units of a slot's task depend on the tasks and the gang alone (R24). -/
theorem unitsOf_congr {s r : State} {u : Nat} (ht : ∀ v, (r.slot v).task = (s.slot v).task)
    (hg : (r.slot u).gang = (s.slot u).gang) : r.unitsOf u = s.unitsOf u := by
  unfold State.unitsOf Slot.tk
  rw [hg, ht u]
  simp only [ht]

/-! ENGINE_ENTRY_COMPLETE -/

/-- The state in which a fired entry of the slot's own task makes its effects: its clocks have passed (R226). -/
def State.entryDue (s : State) (u e : Nat) (f : InFlight) : State :=
  { s with
    cur := { s.cur with u := u, strm := Stream.ofNum (e + 1), word := f.words.headD 0, drain := false }
    clock := max s.clock (f.clock + f.delay + f.lat) }

/-- What becomes of an entry in the state `r` it has completed in, or in which its fault was found. -/
def State.entryEnd (r : State) (u e : Nat) (f : InFlight) (o : Option Trap) : State :=
  o.elim (r.afterEntry u false) (fun t => r.coreStop u (Stream.ofNum (e + 1)) t (f.words.headD 0) false)

/-- A plain entry completes in the clock in which it is due. -/
theorem engineEntryComplete_plain {s r : State} {u e : Nat} {f : InFlight} {o : Option Trap} (hu : s.occ.a % 512 = u) (hb : s.occ.b = e)
    (he : e < 4) (hr : Runs s (coreOf u)) (hp : PlainEntry s u e f)
    (hc : (s.entryDue u e f).completeEntry u e f = (r, o)) :
    exec .engineEntryComplete s = .next (r.entryEnd u e f o) := by
  subst hb hu
  have hd := bitOf_two_of_lt he
  have hm := Nat.mod_eq_of_lt he
  obtain ⟨hwaits, hacks, hfence⟩ := hp.waits
  have hadv := hp.moves.1
  have hw : (s.entryDue (s.occ.a % 512) s.occ.b f).entryWaits (s.occ.a % 512) s.occ.b f
      = .ok (s.entryDue (s.occ.a % 512) s.occ.b f, true) := by
    unfold State.entryWaits
    simp [hwaits, hacks, hfence, State.unanswered, State.acked, State.ackedAll]
    rfl
  unfold exec execEngineEntryComplete
  simp only [hd, hm, hr.1, view_own, hp.found, hp.fired, hadv, Option.isSome_none, Bool.false_and, Bool.or_self,
    Bool.false_eq_true, if_false, List.isEmpty_nil, Bool.not_true, Bool.and_false]
  simp only [State.entryDue] at hw hc
  rw [hw]
  simp only [hc]
  cases o with
  | none => rfl
  | some t => rfl

theorem regWrite_raised (c : CoreSt) (a : Nat) (bs : List Byte) : (c.regWrite a bs).raised = c.raised := by
  refine foldl_rel (fun a b : CoreSt => b.raised = a.raised) (fun _ => rfl) (fun _ _ _ h h' => h'.trans h) _ (fun c k => ?_) _ c
  split
  · rfl
  · rfl

theorem entryWrite_raised (c : CoreSt) (w : Nat × List Byte) : (c.entryWrite w).raised = c.raised := by
  unfold CoreSt.entryWrite
  split
  · exact regWrite_raised ..
  · rfl

/-- Results written in a core leave its faults alone. -/
theorem entryRegs_raised (c : CoreSt) (f : InFlight) : (c.entryRegs f).raised = c.raised :=
  foldl_rel (fun a b : CoreSt => b.raised = a.raised) (fun _ => rfl) (fun _ _ _ h h' => h'.trans h) _
    entryWrite_raised f.writes (c.regClear f.clears)

/-- Nothing of the slot waits for the end of a plain entry, so its completion sets nothing else off. -/
theorem entryDone_quiet {s : State} {u e : Nat} {f : InFlight} (hr : Runs s (coreOf u)) (hp : PlainEntry s u e f) :
    (s.entryDone u e f).afterEntry u false = s.entryDone u e f := by
  have h := entryDone_leaves s u e f
  obtain ⟨htask, hgang, hhold, hfaults⟩ := entryOver_stands (s.slot u) e f
  obtain ⟨hdone, hclear⟩ := hp.alone
  have htasks : ∀ v, ((s.entryDone u e f).slot v).task = (s.slot v).task := by
    intro v
    by_cases hv : v = u
    · subst hv
      exact (congrArg Slot.task h.slot).trans htask
    · rw [h.others v hv]
  have hunits := unitsOf_congr htasks ((congrArg Slot.gang h.slot).trans hgang)
  refine afterEntry_quiet ?_ (fun v hv => ?_) ?_
  · rw [show ((s.entryDone u e f).slot u).hold = _ from (congrArg Slot.hold h.slot).trans hhold]
    exact hdone
  · have hv : (s.slot v).faults = [] := hclear v (hunits ▸ hv)
    by_cases hvu : v = u
    · rw [hvu] at hv ⊢
      exact (congrArg Slot.faults h.slot).trans (hfaults.trans hv)
    · rw [h.others v hvu, hv]
  · exact (congrArg CoreSt.raised h.core).trans ((entryRegs_raised _ f).trans hr.2)

/-- A plain entry without a fault completes, and that is all. -/
theorem plainEntry_completes {s : State} {u e : Nat} {f : InFlight} (hu : s.occ.a % 512 = u) (hb : s.occ.b = e)
    (he : e < 4) (hr : Runs s (coreOf u)) (hp : PlainEntry s u e f) (ht : f.trap = none)
    (hq : ∀ k, k < 7 → bitOf f.flags k = true → (s.slot u).corectl (k + 4) = false) :
    exec .engineEntryComplete s = .next ((s.entryDue u e f).entryDone u e f) := by
  have hdue : PlainEntry (s.entryDue u e f) u e f := ⟨hp.found, hp.waits, hp.own, hp.fired, hp.moves, hp.alone⟩
  have hc := completeEntry_plain hdue ht (entryFlags_untrapped e hq)
  rw [engineEntryComplete_plain hu hb he hr hp hc]
  exact congrArg Host.Outcome.next (entryDone_quiet hr hdue)

/-- A plain entry in whose work a fault was found stops its core. -/
theorem plainEntry_stops {s : State} {u e : Nat} {f : InFlight} {t : Trap} (hu : s.occ.a % 512 = u) (hb : s.occ.b = e)
    (he : e < 4) (hr : Runs s (coreOf u)) (hp : PlainEntry s u e f) (ht : f.trap = some t) :
    ∃ r, exec .engineEntryComplete s = .next r ∧ raisedBy r (coreOf u) u (Stream.ofNum (e + 1)) t := by
  refine ⟨_, engineEntryComplete_plain hu hb he hr hp (completeEntry_trap _ u e ht), ?_⟩
  have hdue : Runs (s.entryDue u e f) (coreOf u) := hr
  exact coreStop_raises (runs_of_cores (unfire_cores ..) hdue) _ t _ _

end Sys2Proof.Machine
end
/-! SUPPORT. A streaming entry moves one entry of a ring (R192). -/

section
namespace Sys2Proof.Machine
open Sys2Proof Sys2Proof.Claim

/-- A ring whose pointer of one side has gone on by `k`; the first advance binds its owner (R191). -/
def Ring.moved (r : Ring) (isProd : Bool) (k own : Nat) : Ring :=
  if isProd then { r with prod := (r.prod + k) % 2 ^ 32, prodown := if r.prodown % 8 = 7 then own else r.prodown }
  else { r with cons := (r.cons + k) % 2 ^ 32, consown := if r.consown % 8 = 7 then own else r.consown }

theorem moved_prod (r : Ring) (isProd : Bool) (k own : Nat) :
    (r.moved isProd k own).prod = if isProd then (r.prod + k) % 2 ^ 32 else r.prod := by
  cases isProd <;> rfl

theorem moved_cons (r : Ring) (isProd : Bool) (k own : Nat) :
    (r.moved isProd k own).cons = if isProd then r.cons else (r.cons + k) % 2 ^ 32 := by
  cases isProd <;> rfl

/-- A ring of the slot's own advances in the slot (R218). -/
theorem advance_own {s : State} {u n : Nat} (h : ((s.slot u).ring n).via = 0) (isProd : Bool) (k own : Nat) :
    s.advance u false n isProd k own = s.setSlot u { s.slot u with
      rings := Tbl.set Ring.none (s.slot u).rings n (((s.slot u).ring n).moved isProd k own) } := by
  unfold State.advance
  exact if_pos h

/-- A streaming entry that has moved the first of its ring entries: what it writes in the scratchpad stands there. -/
def InFlight.moved (f : InFlight) (n k : Nat) (isProd : Bool) (rest : List (Nat × Bool × Nat)) : InFlight :=
  { f with
    writes := f.writes.filter (fun w => !decide (2 ^ 32 ≤ w.1))
    advances := rest ++ (if 2 ≤ k then [(n, isProd, k - 1)] else []) }

/-- What one move of a streaming entry leaves: the entry goes on, the ring's pointer has passed, and the rest stands. -/
structure EntryMoved (s t : State) (u e n : Nat) (isProd : Bool) (own : Nat) (g : InFlight) : Prop where
  entry : (t.slot u).eng.find? (fun x => x.1 == e) = some (e, g)
  ring : (t.slot u).ring n = ((s.slot u).ring n).moved isProd 1 own
  tl : (t.slot u).tl e = (s.slot u).tl e
  dram : t.dram = s.dram
  others : ∀ v, v ≠ u → t.slot v = s.slot v

/-- The ring is the entry's to move, and has what the move needs. -/
theorem streamStep_moves {s : State} {u e n k : Nat} {isProd : Bool} {f : InFlight} {rest : List (Nat × Bool × Nat)}
    (hd : f.drain = false) (ha : f.advances = (n, isProd, k) :: rest) (hv : ((s.slot u).ring n).via = 0)
    (hn : ((s.slot u).ring n).logn ≠ 0)
    (ho : ownOk (if isProd then ((s.slot u).ring n).prodown else ((s.slot u).ring n).consown)
      ((s.slot u).owner u (Stream.ofNum (e + 1))) = true)
    (hr : 1 ≤ (if isProd then ((s.slot u).ring n).room else ((s.slot u).ring n).occ)) :
    ∃ t, s.streamStep u e f = .ok t ∧
      EntryMoved s t u e n isProd ((s.slot u).owner u (Stream.ofNum (e + 1))) (f.moved n k isProd rest) := by
  have hring : s.viewRing (s.slot u) n = (s.slot u).ring n := if_pos hv
  have hneed : (decide (((s.slot u).ring n).logn ≠ 0) && ownOk (if isProd then ((s.slot u).ring n).prodown
      else ((s.slot u).ring n).consown) ((s.slot u).owner u (Stream.ofNum (e + 1)))
      && decide (1 ≤ (if isProd then ((s.slot u).ring n).room else ((s.slot u).ring n).occ))) = true := by
    simp [hn, ho, hr]
  unfold State.streamStep
  simp only [ha, hd, view_own, hring, hneed, need_true, ok_bind, setView_own]
  rw [advance_own (by exact hv)]
  refine ⟨_, rfl, ?_, ?_, ?_, rfl, fun v hvu => ?_⟩
  · unfold InFlight.moved
    simp only [State.slot_setSlot, if_true, hd]
    exact Tbl.find?_put ..
  · simp only [State.slot_setSlot, if_true]
    exact (Tbl.get_set ..).trans (if_pos rfl)
  · simp only [State.slot_setSlot, if_true]
    rfl
  · simp only [State.slot_setSlot, if_neg hvu]
    rfl

/-- A streaming entry that has ring entries left moves the next, and goes on. -/
theorem engineEntryComplete_moves {s : State} {u e n k : Nat} {isProd : Bool} {f : InFlight} {rest : List (Nat × Bool × Nat)}
    (hu : s.occ.a % 512 = u) (hb : s.occ.b = e) (he : e < 4) (hr : Runs s (coreOf u))
    (hf : (s.slot u).eng.find? (fun x => x.1 == e) = some (e, f)) (hd : f.drain = false) (hc : f.chosen = false)
    (hs : f.stream = true) (ha : f.advances = (n, isProd, k) :: rest) (hv : ((s.slot u).ring n).via = 0)
    (hn : ((s.slot u).ring n).logn ≠ 0)
    (ho : ownOk (if isProd then ((s.slot u).ring n).prodown else ((s.slot u).ring n).consown)
      ((s.slot u).owner u (Stream.ofNum (e + 1))) = true)
    (hm : 1 ≤ (if isProd then ((s.slot u).ring n).room else ((s.slot u).ring n).occ)) :
    ∃ t, exec .engineEntryComplete s = .next t ∧
      EntryMoved s t u e n isProd ((s.slot u).owner u (Stream.ofNum (e + 1))) (f.moved n k isProd rest) := by
  subst hb hu
  have hbit := bitOf_two_of_lt he
  have hmod := Nat.mod_eq_of_lt he
  obtain ⟨t, ht, h⟩ := streamStep_moves (s := { s with
    cur := { s.cur with u := s.occ.a % 512, strm := Stream.ofNum (s.occ.b + 1), word := f.words.headD 0, drain := false }
    clock := max s.clock (f.clock + f.delay) }) (e := s.occ.b) hd ha hv hn ho hm
  refine ⟨t, ?_, ⟨h.entry, h.ring, h.tl, h.dram, h.others⟩⟩
  unfold exec execEngineEntryComplete
  simp only [hbit, hmod, hr.1, view_own, hf, hc, hs, ha, Option.isSome_none, Bool.false_and, Bool.or_self,
    Bool.false_eq_true, if_false, List.isEmpty_cons, Bool.not_false, Bool.and_self, if_true]
  rw [ht]

/-- Settles O52: the completion of a plain entry, the move of a streaming one, and the watchdogs of entries and waits. -/
theorem engineEntriesComplete : Obligations.EngineEntriesComplete := by
  refine ⟨fun s u e f hu hb he hr hp => ⟨fun ht hq => ?_, fun t ht => plainEntry_stops hu hb he hr hp ht⟩,
    fun s u e n k isProd f rest x hu hb he hr hf hd hc hs ha hx hv hn ho hm => ?_,
    fun s u e f hu hb he hr hf => engineWatchdogExpire_fired hu hb he hr hf,
    fun s u e w hu hb he hr hf hw ht => engineWatchdogExpire_waiting hu hb he hr hf hw ht,
    fun s u w hu hx hr hw => watermarkWatchdog_waiting hu hx hr hw⟩
  · have h := entryDone_leaves (s.entryDue u e f) u e f
    exact ⟨_, plainEntry_completes hu hb he hr hp ht hq, h.clock,
      (congrArg (fun sl => sl.eng.find? (fun x => x.1 == e)) h.slot).trans (entryOver_eng _ e f),
      (congrArg (fun sl => sl.tl e) h.slot).trans (entryOver_tl _ e f),
      (congrArg (fun sl => (sl.cring e).cons) h.slot).trans (entryOver_cons _ e f),
      (congrArg (fun sl => sl.csr.aflags) h.slot).trans (entryOver_aflags _ e f),
      (congrArg CoreSt.regs h.core :), (congrArg CoreSt.valid h.core :), (congrArg CoreSt.scratch h.core :), h.dram, h.others⟩
  · subst hx
    obtain ⟨t, ht, h⟩ := engineEntryComplete_moves hu hb he hr hf hd hc hs ha hv hn ho hm
    refine ⟨t, _, ht, h.entry, rfl, fun w hw => ?_, ?_, ?_, h.tl, h.dram, h.others⟩
    · simpa using (List.mem_filter.mp hw).2
    · rw [h.ring, moved_prod]
    · rw [h.ring, moved_cons]

end Sys2Proof.Machine
end
